-- ==== Sys2Proof/Word.lean ====
section
/-! DEFINITION. The word types of the model: a byte, a 64-bit register word, and the unbounded naturals that
carry addresses and raw encodings. -/

namespace Sys2Proof

/-- One byte of memory. -/
abbrev Byte := BitVec 8

/-- A 64-bit register, latch or queue-register entry (R47, R57). -/
abbrev Word := BitVec 64

end Sys2Proof
end

