-- ==== Sys2Proof/Machine/Bits.lean ====
section
/-! DEFINITION. Bit fields, sign extension, byte order and the field packing that every encoding uses
(R3 to R7: bit 0 least significant, little-endian, ranges written hi:lo). -/

set_option linter.unusedVariables false

namespace Sys2Proof.Machine

/-- `x[hi:lo]` (R4). -/
def bits (x hi lo : Nat) : Nat := x / 2 ^ lo % 2 ^ (hi + 1 - lo)

/-- Bit `i` of `x`. -/
def bit (x i : Nat) : Bool := x / 2 ^ i % 2 == 1

def b2n (b : Bool) : Nat := if b then 1 else 0

/-- The low `w` bits of `x` read as two's complement. -/
def sext (w x : Nat) : Int :=
  let y := x % 2 ^ w
  if w ≠ 0 ∧ y ≥ 2 ^ (w - 1) then (y : Int) - (2 ^ w : Nat) else (y : Int)

/-- The low `w` bits of an integer in two's-complement wrap (R9). -/
def wrap (w : Nat) (x : Int) : Nat := (x % ((2 ^ w : Nat) : Int)).toNat

/-- `x` with bits `[lo+w-1:lo]` replaced by the low bits of `v`. -/
def putBits (x lo w v : Nat) : Nat :=
  x - (x / 2 ^ lo % 2 ^ w) * 2 ^ lo + v % 2 ^ w * 2 ^ lo

/-- Bits of `x` where `m` is 0, bits of `v` where `m` is 1. -/
def maskIn (x m v : Nat) : Nat := (x ^^^ (x &&& m)) ||| (v &&& m)

/-- The number of the lowest set bit among the `fuel` bits from `i` on. -/
def lowestBit (x : Nat) : Nat → Nat → Option Nat
  | _, 0 => none
  | i, fuel + 1 => if x / 2 ^ i % 2 == 1 then some i else lowestBit x (i + 1) fuel

/-- Bytes, least significant first, as one number (R4). -/
def leNat : List Byte → Nat
  | [] => 0
  | b :: bs => b.toNat + 256 * leNat bs

/-- The low `n` bytes of `x`, least significant first. -/
def leBytes : Nat → Nat → List Byte
  | 0, _ => []
  | n + 1, x => BitVec.ofNat 8 x :: leBytes n (x / 256)

/-- Fields, most significant first, each (width, value), packed into one number. -/
def packFields : List (Nat × Nat) → Nat
  | [] => 0
  | (_, v) :: fs => v * 2 ^ (fs.map Prod.fst).sum + packFields fs

/-- The field values, most significant first, of a number packed with the widths given. -/
def unpackFields : List Nat → Nat → List Nat
  | [], _ => []
  | w :: ws, x => x / 2 ^ ws.sum % 2 ^ w :: unpackFields ws x

/-- Number of one bits among the low `w` bits of `x`. -/
def popCount : Nat → Nat → Nat
  | 0, _ => 0
  | w + 1, x => x % 2 + popCount w (x / 2)

/-- Leading zero bits of `x` in `w` bits. -/
def leadZeros (w x : Nat) : Nat := if x % 2 ^ w = 0 then w else w - 1 - Nat.log2 (x % 2 ^ w)

/-- ⌈a / b⌉. -/
def ceilDiv (a b : Nat) : Nat := (a + b - 1) / b

/-- A two-letter class code as its 16-bit ASCII pair (R36: first letter in the high byte). -/
def ascii2 (a b : Char) : Nat := a.toNat * 256 + b.toNat

end Sys2Proof.Machine
end

