-- ==== Sys2Proof/Syntax.lean ====
section
/-! DEFINITION. The syntax of the machine: operands, fields and class bodies of the 128-bit Oxcel word (R86 to R98),
the stick-code words (R307) and the events of the opcode table. -/

set_option linter.unusedVariables false

namespace Sys2Proof

/-- The classes whose words a queue may hold (R86): S, V, F, M, C, N, and D, which the V queue runs. -/
inductive Cls where
  | s | v | f | m | c | n | d
  deriving DecidableEq, Repr

/-- The six engines of a core, in the order of R22. -/
inductive Eng where
  | s | v | f | m | c | n
  deriving DecidableEq, Repr

/-- Element type codes (R49). -/
inductive Ty where
  | i8 | i16 | i32 | i64 | n8 | n16 | n32 | n64 | f16 | bf16 | f32 | f64
  | e5m2 | e4m3 | e3m2 | e2m3 | e2m1 | i4 | sp2
  deriving DecidableEq, Repr

/-- Rounding modes (R66). -/
inductive Rnd where
  | rne | rna | rz | ru | rd | rs
  deriving DecidableEq, Repr

/-- Scopes (R11, R96). -/
inductive Scope where
  | lane | core | quad | die | pkg | pod | tenant
  deriving DecidableEq, Repr

/-- Operand specifiers (R88); the code of an unused slot, 0x00, reads as `q 0`. -/
inductive Opd where
  | q (n : Fin 32) | la0 | la1 | lm | ll | lf (n : Fin 16) | g (n : Fin 16) | t (n : Fin 16) | acc (n : Fin 2)
  | dv (n : Fin 16) | p (n : Fin 16) | lc (n : Fin 8) | imm | zero | handle | absent
  deriving DecidableEq, Repr

/-- The latch a transport reads (R92). -/
inductive XLatch where
  | none | la0 | la1 | lm | ll | lf (n : Fin 16)
  deriving DecidableEq, Repr

/-- The guard (R90): GEN, GNEG and GPR. -/
inductive Guard where
  | always
  | on (neg : Bool) (p : Fin 16)
  deriving DecidableEq, Repr

/-- The header of a word but for CLS and OP (R86). PEEK bits stand for slots A, B, C, D. -/
structure Hdr where
  idle : BitVec 10
  swait : Fin 32
  spost : Fin 32
  trk : Fin 16
  peekA : Bool
  peekB : Bool
  peekC : Bool
  peekD : Bool
  deriving DecidableEq, Repr

/-- The S layout (R91, R92). -/
structure SBody where
  g : Guard
  a : Opd
  b : Opd
  c : Opd
  ty : Ty
  rnd : Rnd
  as : Bool
  xl : XLatch
  xq : Fin 32
  px : Fin 16
  imm : BitVec 32
  deriving DecidableEq, Repr

/-- The V layout (R93), of classes V, F and D. -/
structure VBody where
  g : Guard
  a : Opd
  b : Opd
  c : Opd
  d : Opd
  ty : Ty
  rnd : Rnd
  sub : BitVec 14
  ne : Bool
  nf : Ty
  lce : Bool
  lcn : Fin 8
  vx : BitVec 18
  deriving DecidableEq, Repr

/-- The M layout (R94). -/
structure MBody where
  g : Guard
  a : Opd
  b : Opd
  c : Opd
  d : Opd
  mx : BitVec 8
  rnd : Rnd
  hnd : BitVec 32
  deriving DecidableEq, Repr

/-- The C layout (R95). -/
structure CBody where
  g : Guard
  a : Opd
  b : Opd
  c : Opd
  d : Opd
  ch : Fin 4
  fw : Bool
  oc : Fin 16
  cx : BitVec 11
  imm : BitVec 32
  deriving DecidableEq, Repr

/-- The N layout (R96). -/
structure NBody where
  g : Guard
  a : Opd
  b : Opd
  c : Opd
  d : Opd
  oc : Fin 16
  scp : Scope
  nx : BitVec 11
  imm : BitVec 32
  deriving DecidableEq, Repr

/-- A back-edge word's fields (R259); a transport only in the S layout. -/
structure LoopBody where
  g : Guard
  lc : Fin 8
  target : BitVec 14
  stg : Fin 8
  xl : XLatch
  xq : Fin 32
  deriving DecidableEq, Repr

/-- The follow-on matrix word of `cpf` (R98, R210): `mmi` or `mma`, its two tiles and its accumulator. -/
structure FollowOn where
  mma : Bool
  ta : Fin 16
  tb : Fin 16
  acc : Fin 2
  deriving DecidableEq, Repr

/-- The link events of R325. -/
inductive LinkEventKind where
  | receiverError | flitReplay | linkDown | linkRetrain
  | unsupportedRequest | completerAbort | completionTimeout | poisonedCompletion
  /-- A poisoned posted write of so many bytes with a value. -/
  | poisonedPostedWrite (n val : Nat)
  deriving DecidableEq, Repr

/-- What the walk of start-up alignment brings a package (R380): the link to its parent, the chip cycle of reel 0 that the root's word
names, as it is read on arrival, and the chip cycles that the links from the root to the parent have cost that word. -/
structure AlignWalk where
  parent : Nat
  named : Nat
  path : Nat
  deriving DecidableEq, Repr

/-- The operations of class S (R100), one name for each row of the opcode table. -/
inductive SOp where
  | add | sub | and | or | xor | andn | shl | shr | sar | min
  | max | sel | li | lih | clz | popc | ceq | cne | clt | cle
  | ctst | fceq | fclt | fcle | fcun | pand | por | pxor | ppack | punpack
  | mul | mulh | mad | dp4 | fadd | fsub | fmul | fma | fmin | fmax
  | fabs | fneg | cvt | lds | sts | ldg | stg | aadd | axchg | acas
  | amax | fence | waita | spl | sps | semadd | semrd | jmp | jmpr | call
  | callr | ret | lset | idem | mfc | mtc | setg | sett | swi | tret
  deriving DecidableEq, Repr

/-- The operations of class V (R100), one name for each row of the opcode table. -/
inductive VOp where
  | vadd | vsub | vfma | vmul | vmin | vmax | vabs | vneg | vand | vor
  | vxor | vshl | vshr | vsar | vmov | vclamp | vfill | vmad | viota | vceq
  | vcne | vclt | vcle | vcun | vsel | vcvt | vdp4 | vrsum | vrmax | vrmin
  | vrarg | vscan | vperm | vbcast | vgthl | vrev | vqmax | vqcvt
  deriving DecidableEq, Repr

/-- The operations of class D (R100), one name for each row of the opcode table. -/
inductive DOp where
  | dld | dsto | dadd | dsub | dmul | dmax | dmin | daff | dmix | dsmp
  | dcond | dmom | dqnt | dlinSet | dlinGet
  deriving DecidableEq, Repr

/-- The operations of class F (R100), one name for each row of the opcode table. -/
inductive FOp where
  | frcp | fsqrt | frcpe | frsqe | fexp2 | flog2 | fsin | fcos | ftanh | ferf
  | fscl | fxtrExp | fxtrMan | frnd | fcls | fcvt | fmov | fsgn | fmag
  deriving DecidableEq, Repr

/-- The operations of class M (R100), one name for each row of the opcode table. -/
inductive MOp where
  | mmi | mma | mmih | mmah | gmmi | gmma | gmmih | gmmah | mhad | mtrn
  | mtcv | mqnt | mhadq | mdrb | mdrt | mdrs | mclr | macpCpy | macpAdd | mtld
  | mtst
  deriving DecidableEq, Repr

/-- The operations of class C (R100), one name for each row of the opcode table but `cpf`, which takes two words. -/
inductive COp where
  | cpy | cfill | cprm | cpt | gth | sct | wstr | hbind | hfree | rowopn
  | rowpin | rowrel | rowrd | rowwr | rowst | scnthr | scngo | scnrd | scnstp | scnst
  deriving DecidableEq, Repr

/-- The operations of class N (R100), one name for each row of the opcode table. -/
inductive NOp where
  | nsnd | nrcv | nput | nget | bar | bara | barw | ared | rscat | agth
  | bcst | xsnd | xrcv | xred | nflsh | nstat
  deriving DecidableEq, Repr

/-- One instruction, stick-code word or event of the opcode table, one constructor for each row.
The words of the seven classes carry their header and their class body; an event carries the numbers that say
which unit it befalls (`x` a strand, core·16 + context; `q` a compositor queue, die·64 + queue). -/
inductive Instr where
  /-- NOP (R99). Performs only its header's scheduling: IDLE, SWAIT and SPOST at issue. -/
  | nop (e : Cls) (h : Hdr) (g : Guard)
  /-- HALT (R99). Its queue issues no further word of the strand and SPOST is raised at issue. -/
  | halt (e : Cls) (h : Hdr) (g : Guard)
  /-- LBR (R260). Counted-loop back-edge that decrements lcN at the close of the strand cycle and is taken while the count was at least 2. -/
  | lbr (e : Cls) (h : Hdr) (l : LoopBody)
  /-- RLBR (R261). Rotating-loop back-edge that counts down lcN, shifts the stage predicates and decrements rrb; it traps QU 3 outside rotating mode. -/
  | rlbr (e : Cls) (h : Hdr) (l : LoopBody)
  /-- BRK (R97). Break word that always raises BK 1 with DETAIL = CODE after the header checks. -/
  | brk (h : Hdr) (code : BitVec 16)
  /-- ADD (R112). Integer wrapping addition into la0 or la1 at k + 1. -/
  | add (h : Hdr) (b : SBody)
  /-- SUB (R112). Integer wrapping subtraction into the chosen ALU latch. -/
  | sub (h : Hdr) (b : SBody)
  /-- AND (R112). Bitwise and into the chosen ALU latch. -/
  | and (h : Hdr) (b : SBody)
  /-- OR (R112). Bitwise or into the chosen ALU latch. -/
  | or (h : Hdr) (b : SBody)
  /-- XOR (R112). Bitwise xor into the chosen ALU latch. -/
  | xor (h : Hdr) (b : SBody)
  /-- ANDN (R112). a and not b into the chosen ALU latch. -/
  | andn (h : Hdr) (b : SBody)
  /-- SHL (R112). Shift left by B[7:0], giving 0 when the count is at least w. -/
  | shl (h : Hdr) (b : SBody)
  /-- SHR (R112). Zero-filling shift right by B[7:0]. -/
  | shr (h : Hdr) (b : SBody)
  /-- SAR (R112). Arithmetic shift right by B[7:0]. -/
  | sar (h : Hdr) (b : SBody)
  /-- MIN (R112). Smaller of two integers, signed or unsigned by TY. -/
  | min (h : Hdr) (b : SBody)
  /-- MAX (R112). Larger of two integers, signed or unsigned by TY. -/
  | max (h : Hdr) (b : SBody)
  /-- SEL (R112). Selects a or b by a predicate read at issue. -/
  | sel (h : Hdr) (b : SBody)
  /-- LI (R113). Moves an operand of type TY into an ALU latch. -/
  | li (h : Hdr) (b : SBody)
  /-- LIH (R113). Builds IMM·2^32 + Val(B)[31:0] in an ALU latch. -/
  | lih (h : Hdr) (b : SBody)
  /-- CLZ (R112). Counts the leading zero bits of a in w bits. -/
  | clz (h : Hdr) (b : SBody)
  /-- POPC (R112). Counts the one bits of a in w bits. -/
  | popc (h : Hdr) (b : SBody)
  /-- CEQ (R114). Integer equality compare into predicate PX at k + 1. -/
  | ceq (h : Hdr) (b : SBody)
  /-- CNE (R114). Integer inequality compare into a predicate. -/
  | cne (h : Hdr) (b : SBody)
  /-- CLT (R114). Integer less-than compare into a predicate. -/
  | clt (h : Hdr) (b : SBody)
  /-- CLE (R114). Integer less-or-equal compare into a predicate. -/
  | cle (h : Hdr) (b : SBody)
  /-- CTST (R114). Sets a predicate when (a and b) is nonzero. -/
  | ctst (h : Hdr) (b : SBody)
  /-- FCEQ (R114). Floating-point equality compare into a predicate. -/
  | fceq (h : Hdr) (b : SBody)
  /-- FCLT (R114). Floating-point less-than compare that sets NV for any NaN. -/
  | fclt (h : Hdr) (b : SBody)
  /-- FCLE (R114). Floating-point less-or-equal compare into a predicate. -/
  | fcle (h : Hdr) (b : SBody)
  /-- FCUN (R114). Sets a predicate when either operand is NaN. -/
  | fcun (h : Hdr) (b : SBody)
  /-- PAND (R115). Predicate and into predicate PX. -/
  | pand (h : Hdr) (b : SBody)
  /-- POR (R115). Predicate or into predicate PX. -/
  | por (h : Hdr) (b : SBody)
  /-- PXOR (R115). Predicate xor into predicate PX. -/
  | pxor (h : Hdr) (b : SBody)
  /-- PPACK (R115). Packs a bank of eight predicates into byte i of a value in a latch. -/
  | ppack (h : Hdr) (b : SBody)
  /-- PUNPACK (R115). Writes a bank of eight predicates from byte i of a value. -/
  | punpack (h : Hdr) (b : SBody)
  /-- MUL (R116). Integer multiply low into lm at k + 3. -/
  | mul (h : Hdr) (b : SBody)
  /-- MULH (R116). Integer multiply high into lm. -/
  | mulh (h : Hdr) (b : SBody)
  /-- MAD (R116). Integer multiply-add into lm. -/
  | mad (h : Hdr) (b : SBody)
  /-- DP4 (R116). Four-byte dot product plus a 32-bit addend into lm. -/
  | dp4 (h : Hdr) (b : SBody)
  /-- FADD (R117). Rounded floating-point add into lm at k + 4. -/
  | fadd (h : Hdr) (b : SBody)
  /-- FSUB (R117). Rounded floating-point subtract into lm. -/
  | fsub (h : Hdr) (b : SBody)
  /-- FMUL (R117). Rounded floating-point multiply into lm. -/
  | fmul (h : Hdr) (b : SBody)
  /-- FMA (R117). Fused multiply-add rounded once into lm. -/
  | fma (h : Hdr) (b : SBody)
  /-- FMIN (R118). Floating-point minimum into an ALU latch, with −0 below +0. -/
  | fmin (h : Hdr) (b : SBody)
  /-- FMAX (R118). Floating-point maximum into an ALU latch. -/
  | fmax (h : Hdr) (b : SBody)
  /-- FABS (R118). Clears the sign bit. -/
  | fabs (h : Hdr) (b : SBody)
  /-- FNEG (R118). Inverts the sign bit. -/
  | fneg (h : Hdr) (b : SBody)
  /-- CVT (R119). Converts between types 0x00–0x0B into lm at k + 4. -/
  | cvt (h : Hdr) (b : SBody)
  /-- LDS (R120). Scratchpad load read at issue and delivered to ll at k + 4. -/
  | lds (h : Hdr) (b : SBody)
  /-- STS (R120). Scratchpad store written at issue. -/
  | sts (h : Hdr) (b : SBody)
  /-- LDG (R122). Global load, a variable-latency item with nominal due k + 64. -/
  | ldg (h : Hdr) (b : SBody)
  /-- STG (R122). Asynchronous global store, buffered inside an idempotent region. -/
  | stg (h : Hdr) (b : SBody)
  /-- AADD (R123). Atomic add that delivers the old value to ll. -/
  | aadd (h : Hdr) (b : SBody)
  /-- AXCHG (R123). Atomic exchange. -/
  | axchg (h : Hdr) (b : SBody)
  /-- ACAS (R123). Atomic compare-and-swap. -/
  | acas (h : Hdr) (b : SBody)
  /-- AMAX (R123). Atomic maximum. -/
  | amax (h : Hdr) (b : SBody)
  /-- FENCE (R124). Holds later masked-class accesses until the covered accesses have performed at the scope. -/
  | fence (h : Hdr) (b : SBody)
  /-- WAITA (R125). Sleeps until a scratchpad word reaches a threshold, then delivers the word to ll. -/
  | waita (h : Hdr) (b : SBody)
  /-- SPL (R121). Spill load of 8 bytes at ssp + off into ll. -/
  | spl (h : Hdr) (b : SBody)
  /-- SPS (R121). Spill store of 8 bytes at ssp + off. -/
  | sps (h : Hdr) (b : SBody)
  /-- SEMADD (R126). Adds n to a semaphore at issue, saturating at 255. -/
  | semadd (h : Hdr) (b : SBody)
  /-- SEMRD (R126). Reads a semaphore count into an ALU latch. -/
  | semrd (h : Hdr) (b : SBody)
  /-- JMP (R127). Branches the S queue to a ring index. -/
  | jmp (h : Hdr) (b : SBody)
  /-- JMPR (R127). Branches the S queue to a register value modulo L. -/
  | jmpr (h : Hdr) (b : SBody)
  /-- CALL (R128). Pushes a frame and a link word, checks slim and jumps. -/
  | call (h : Hdr) (b : SBody)
  /-- CALLR (R128). Register-target call that pushes a frame. -/
  | callr (h : Hdr) (b : SBody)
  /-- RET (R129). Reads the link word, pops the frame and continues at the link index. -/
  | ret (h : Hdr) (b : SBody)
  /-- LSET (R130). Writes a loop register of a named engine at k + 1. -/
  | lset (h : Hdr) (b : SBody)
  /-- IDEM (R131). Closes the idempotent region, releases buffered stores and opens a new region. -/
  | idem (h : Hdr) (b : SBody)
  /-- MFC (R132). Reads a control register into an ALU latch. -/
  | mfc (h : Hdr) (b : SBody)
  /-- MTC (R132). Writes a control register at issue under its access codes. -/
  | mtc (h : Hdr) (b : SBody)
  /-- SETG (R133). Writes a region register at k + 1. -/
  | setg (h : Hdr) (b : SBody)
  /-- SETT (R133). Writes a tile configuration at k + 1. -/
  | sett (h : Hdr) (b : SBody)
  /-- SWI (R134). Software trap SW 1 with the code as DETAIL. -/
  | swi (h : Hdr) (b : SBody)
  /-- TRET (R134). Ends a handler's freeze and resumes the strand from the resume points. -/
  | tret (h : Hdr) (b : SBody)
  /-- VADD (R143). Element-wise add over regions. -/
  | vadd (h : Hdr) (b : VBody)
  /-- VSUB (R143). Element-wise subtract. -/
  | vsub (h : Hdr) (b : VBody)
  /-- VFMA (R143). Element-wise fused multiply-add. -/
  | vfma (h : Hdr) (b : VBody)
  /-- VMUL (R143). Element-wise multiply. -/
  | vmul (h : Hdr) (b : VBody)
  /-- VMIN (R143). Element-wise minimum. -/
  | vmin (h : Hdr) (b : VBody)
  /-- VMAX (R143). Element-wise maximum. -/
  | vmax (h : Hdr) (b : VBody)
  /-- VABS (R143). Element-wise absolute value. -/
  | vabs (h : Hdr) (b : VBody)
  /-- VNEG (R143). Element-wise negation. -/
  | vneg (h : Hdr) (b : VBody)
  /-- VAND (R143). Element-wise bitwise and. -/
  | vand (h : Hdr) (b : VBody)
  /-- VOR (R143). Element-wise bitwise or. -/
  | vor (h : Hdr) (b : VBody)
  /-- VXOR (R143). Element-wise bitwise xor. -/
  | vxor (h : Hdr) (b : VBody)
  /-- VSHL (R143). Element-wise shift left. -/
  | vshl (h : Hdr) (b : VBody)
  /-- VSHR (R143). Element-wise logical shift right. -/
  | vshr (h : Hdr) (b : VBody)
  /-- VSAR (R143). Element-wise arithmetic shift right. -/
  | vsar (h : Hdr) (b : VBody)
  /-- VMOV (R143). Element-wise bit-for-bit move. -/
  | vmov (h : Hdr) (b : VBody)
  /-- VCLAMP (R143). Element-wise clamp of a between b and c. -/
  | vclamp (h : Hdr) (b : VBody)
  /-- VFILL (R143). Fills a region with a scalar. -/
  | vfill (h : Hdr) (b : VBody)
  /-- VMAD (R143). Element-wise integer multiply-add. -/
  | vmad (h : Hdr) (b : VBody)
  /-- VIOTA (R143). Writes a + i·b to element i. -/
  | viota (h : Hdr) (b : VBody)
  /-- VCEQ (R144). Equality compare into a mask region. -/
  | vceq (h : Hdr) (b : VBody)
  /-- VCNE (R144). Inequality compare into a mask region. -/
  | vcne (h : Hdr) (b : VBody)
  /-- VCLT (R144). Less-than compare into a mask region. -/
  | vclt (h : Hdr) (b : VBody)
  /-- VCLE (R144). Less-or-equal compare into a mask region. -/
  | vcle (h : Hdr) (b : VBody)
  /-- VCUN (R144). Unordered compare into a mask region. -/
  | vcun (h : Hdr) (b : VBody)
  /-- VSEL (R145). Selects per element by a mask or a scalar. -/
  | vsel (h : Hdr) (b : VBody)
  /-- VCVT (R145). Converts each element from sty with one rounding. -/
  | vcvt (h : Hdr) (b : VBody)
  /-- VDP4 (R145). Element-wise four-byte dot product. -/
  | vdp4 (h : Hdr) (b : VBody)
  /-- VRSUM (R146). Sum reduction to a region element or a queue register. -/
  | vrsum (h : Hdr) (b : VBody)
  /-- VRMAX (R146). Maximum reduction. -/
  | vrmax (h : Hdr) (b : VBody)
  /-- VRMIN (R146). Minimum reduction. -/
  | vrmin (h : Hdr) (b : VBody)
  /-- VRARG (R146). Index of the first largest or smallest element. -/
  | vrarg (h : Hdr) (b : VBody)
  /-- VSCAN (R147). Inclusive prefix sums. -/
  | vscan (h : Hdr) (b : VBody)
  /-- VPERM (R148). Permutes elements within groups of 64 by byte indexes. -/
  | vperm (h : Hdr) (b : VBody)
  /-- VBCAST (R148). Broadcasts element idx of A. -/
  | vbcast (h : Hdr) (b : VBody)
  /-- VGTHL (R148). Gathers table elements by index. -/
  | vgthl (h : Hdr) (b : VBody)
  /-- VREV (R148). Reverses element order. -/
  | vrev (h : Hdr) (b : VBody)
  /-- VQMAX (R149). Pushes the block scale byte computed from the largest finite magnitude. -/
  | vqmax (h : Hdr) (b : VBody)
  /-- VQCVT (R150). Writes one 64-byte block-described block. -/
  | vqcvt (h : Hdr) (b : VBody)
  /-- DLD (R168). Loads distribution points and a mask from scratchpad. -/
  | dld (h : Hdr) (b : VBody)
  /-- DSTO (R168). Stores distribution points to scratchpad. -/
  | dsto (h : Hdr) (b : VBody)
  /-- DADD (R170). Pairing add of two distributions, independent or coupled by lineage. -/
  | dadd (h : Hdr) (b : VBody)
  /-- DSUB (R170). Pairing subtract. -/
  | dsub (h : Hdr) (b : VBody)
  /-- DMUL (R170). Pairing multiply. -/
  | dmul (h : Hdr) (b : VBody)
  /-- DMAX (R170). Pairing maximum. -/
  | dmax (h : Hdr) (b : VBody)
  /-- DMIN (R170). Pairing minimum. -/
  | dmin (h : Hdr) (b : VBody)
  /-- DAFF (R174). Affine map of each point value. -/
  | daff (h : Hdr) (b : VBody)
  /-- DMIX (R175). Mixes two distributions with weight α and condenses the result. -/
  | dmix (h : Hdr) (b : VBody)
  /-- DSMP (R176). Condenses samples into a distribution. -/
  | dsmp (h : Hdr) (b : VBody)
  /-- DCOND (R176). Condenses a raw pair region into a distribution. -/
  | dcond (h : Hdr) (b : VBody)
  /-- DMOM (R177). Mean or central moment of each lane. -/
  | dmom (h : Hdr) (b : VBody)
  /-- DQNT (R178). Quantile of each lane. -/
  | dqnt (h : Hdr) (b : VBody)
  /-- DLIN_SET (R169). Sets a distribution register's lineage mask. -/
  | dlinSet (h : Hdr) (b : VBody)
  /-- DLIN_GET (R169). Pushes a lineage mask into a queue register. -/
  | dlinGet (h : Hdr) (b : VBody)
  /-- FRCP (R155). Correctly rounded reciprocal. -/
  | frcp (h : Hdr) (b : VBody)
  /-- FSQRT (R155). Correctly rounded square root. -/
  | fsqrt (h : Hdr) (b : VBody)
  /-- FRCPE (R156). 12-bit reciprocal seed. -/
  | frcpe (h : Hdr) (b : VBody)
  /-- FRSQE (R156). 12-bit reciprocal square-root seed. -/
  | frsqe (h : Hdr) (b : VBody)
  /-- FEXP2 (R157). Faithful 2^a. -/
  | fexp2 (h : Hdr) (b : VBody)
  /-- FLOG2 (R157). Faithful log2 a. -/
  | flog2 (h : Hdr) (b : VBody)
  /-- FSIN (R158). Faithful sine with exact reduction up to 2^30. -/
  | fsin (h : Hdr) (b : VBody)
  /-- FCOS (R158). Faithful cosine. -/
  | fcos (h : Hdr) (b : VBody)
  /-- FTANH (R159). Faithful hyperbolic tangent. -/
  | ftanh (h : Hdr) (b : VBody)
  /-- FERF (R159). Faithful error function. -/
  | ferf (h : Hdr) (b : VBody)
  /-- FSCL (R160). Rounds a·2^b to binary32. -/
  | fscl (h : Hdr) (b : VBody)
  /-- FXTR_EXP (R160). Extracts the exponent as int32. -/
  | fxtrExp (h : Hdr) (b : VBody)
  /-- FXTR_MAN (R160). Extracts the significand in [1, 2). -/
  | fxtrMan (h : Hdr) (b : VBody)
  /-- FRND (R160). Rounds to an integral value. -/
  | frnd (h : Hdr) (b : VBody)
  /-- FCLS (R160). Classifies an operand as a one-hot word. -/
  | fcls (h : Hdr) (b : VBody)
  /-- FCVT (R160). Converts among i32, n32, f16, bf16 and f32. -/
  | fcvt (h : Hdr) (b : VBody)
  /-- FMOV (R161). Copies 32 bits unchanged. -/
  | fmov (h : Hdr) (b : VBody)
  /-- FSGN (R161). Replaces the sign bit by copy, negate or xor. -/
  | fsgn (h : Hdr) (b : VBody)
  /-- FMAG (R161). Largest magnitude among up to three operands. -/
  | fmag (h : Hdr) (b : VBody)
  /-- MMI (R184). Tile multiply that initialises an accumulator. -/
  | mmi (h : Hdr) (b : MBody)
  /-- MMA (R184). Tile multiply-accumulate. -/
  | mma (h : Hdr) (b : MBody)
  /-- MMIH (R184). Initialising multiply with one operand fetched by handle. -/
  | mmih (h : Hdr) (b : MBody)
  /-- MMAH (R184). Accumulating multiply with one operand fetched by handle. -/
  | mmah (h : Hdr) (b : MBody)
  /-- GMMI (R192). Gang initialising multiply across cores in exact mode. -/
  | gmmi (h : Hdr) (b : MBody)
  /-- GMMA (R192). Gang accumulating multiply. -/
  | gmma (h : Hdr) (b : MBody)
  /-- GMMIH (R192). Gang initialising multiply by handle. -/
  | gmmih (h : Hdr) (b : MBody)
  /-- GMMAH (R192). Gang accumulating multiply by handle. -/
  | gmmah (h : Hdr) (b : MBody)
  /-- MHAD (R193). Blockwise Hadamard transform of a tile. -/
  | mhad (h : Hdr) (b : MBody)
  /-- MTRN (R193). Tile transpose. -/
  | mtrn (h : Hdr) (b : MBody)
  /-- MTCV (R193). Tile format conversion. -/
  | mtcv (h : Hdr) (b : MBody)
  /-- MQNT (R194). Quantises a tile into blocks. -/
  | mqnt (h : Hdr) (b : MBody)
  /-- MHADQ (R194). Hadamard transform followed by block quantisation. -/
  | mhadq (h : Hdr) (b : MBody)
  /-- MDRB (R194). Drains accumulator rows into blocks. -/
  | mdrb (h : Hdr) (b : MBody)
  /-- MDRT (R195). Drains an accumulator into a tile, optionally clearing it. -/
  | mdrt (h : Hdr) (b : MBody)
  /-- MDRS (R195). Drains accumulator elements into a region. -/
  | mdrs (h : Hdr) (b : MBody)
  /-- MCLR (R196). Clears an accumulator and sets its mode. -/
  | mclr (h : Hdr) (b : MBody)
  /-- MACP_CPY (R196). Copies one accumulator to another. -/
  | macpCpy (h : Hdr) (b : MBody)
  /-- MACP_ADD (R196). Adds one accumulator into another. -/
  | macpAdd (h : Hdr) (b : MBody)
  /-- MTLD (R196). Loads a tile from a region. -/
  | mtld (h : Hdr) (b : MBody)
  /-- MTST (R196). Stores a tile to a region. -/
  | mtst (h : Hdr) (b : MBody)
  /-- CPY (R206). Copies n bytes on a copy channel. -/
  | cpy (h : Hdr) (b : CBody)
  /-- CFILL (R206). Fills bytes with an 8-byte pattern. -/
  | cfill (h : Hdr) (b : CBody)
  /-- CPRM (R207). Copies rows with pitches. -/
  | cprm (h : Hdr) (b : CBody)
  /-- CPT (R209). Fetches tensor rows by handle into a tile. -/
  | cpt (h : Hdr) (b : CBody)
  /-- CPF (R210). Tile fetch followed by the follow-on matrix word. -/
  | cpf (h : Hdr) (b : CBody) (fo : FollowOn)
  /-- GTH (R211). Gathers table elements by index words. -/
  | gth (h : Hdr) (b : CBody)
  /-- SCT (R211). Scatters elements into a table by index words. -/
  | sct (h : Hdr) (b : CBody)
  /-- WSTR (R213). Streams compressed weights through the decompressor into a tile. -/
  | wstr (h : Hdr) (b : CBody)
  /-- HBIND (R214). Binds a layout-table slot, advances its generation and pushes the handle. -/
  | hbind (h : Hdr) (b : CBody)
  /-- HFREE (R214). Unbinds a layout-table slot. -/
  | hfree (h : Hdr) (b : CBody)
  /-- ROWOPN (R216). Activates a DRAM row without pinning it. -/
  | rowopn (h : Hdr) (b : CBody)
  /-- ROWPIN (R216). Pins a DRAM row and starts its hold budget. -/
  | rowpin (h : Hdr) (b : CBody)
  /-- ROWREL (R216). Releases a pin and precharges the bank. -/
  | rowrel (h : Hdr) (b : CBody)
  /-- ROWRD (R217). Timed read of a pinned row into scratchpad. -/
  | rowrd (h : Hdr) (b : CBody)
  /-- ROWWR (R217). Writes scratchpad bytes into a row. -/
  | rowwr (h : Hdr) (b : CBody)
  /-- ROWST (R219). Pushes a row's status word and clears its read-clear bits. -/
  | rowst (h : Hdr) (b : CBody)
  /-- SCNTHR (R220). Sets a scan unit's threshold and type. -/
  | scnthr (h : Hdr) (b : CBody)
  /-- SCNGO (R221). Starts a scan of DRAM rows for threshold hits. -/
  | scngo (h : Hdr) (b : CBody)
  /-- SCNRD (R222). Pushes the hit count of the strand's last scan. -/
  | scnrd (h : Hdr) (b : CBody)
  /-- SCNSTP (R222). Stops the strand's running scan. -/
  | scnstp (h : Hdr) (b : CBody)
  /-- SCNST (R222). Pushes the scan unit's status word. -/
  | scnst (h : Hdr) (b : CBody)
  /-- NSND (R228). Sends a packet on a circuit. -/
  | nsnd (h : Hdr) (b : NBody)
  /-- NRCV (R228). Receives the oldest packet of a circuit. -/
  | nrcv (h : Hdr) (b : NBody)
  /-- NPUT (R229). Writes bytes to the peer's scratchpad over a circuit. -/
  | nput (h : Hdr) (b : NBody)
  /-- NGET (R229). Reads bytes from the peer over a circuit pair. -/
  | nget (h : Hdr) (b : NBody)
  /-- BAR (R230). Arrives and waits at a barrier. -/
  | bar (h : Hdr) (b : NBody)
  /-- BARA (R230). Arrives at a barrier without waiting. -/
  | bara (h : Hdr) (b : NBody)
  /-- BARW (R230). Waits for barrier arrival counts. -/
  | barw (h : Hdr) (b : NBody)
  /-- ARED (R231). All-reduce over a scope instance. -/
  | ared (h : Hdr) (b : NBody)
  /-- RSCAT (R231). Reduce-scatter. -/
  | rscat (h : Hdr) (b : NBody)
  /-- AGTH (R231). All-gather. -/
  | agth (h : Hdr) (b : NBody)
  /-- BCST (R231). Broadcast from a root rank. -/
  | bcst (h : Hdr) (b : NBody)
  /-- XSND (R228). Cross-package send in exact mode. -/
  | xsnd (h : Hdr) (b : NBody)
  /-- XRCV (R228). Cross-package receive in exact mode. -/
  | xrcv (h : Hdr) (b : NBody)
  /-- XRED (R231). All-reduce over the whole gang across packages. -/
  | xred (h : Hdr) (b : NBody)
  /-- NFLSH (R233). Lands once every earlier N command has completed. -/
  | nflsh (h : Hdr) (b : NBody)
  /-- NSTAT (R233). Pushes gang rank, gang size, current slot or circuit status. -/
  | nstat (h : Hdr) (b : NBody)
  /-- STICK_END (R307). Ends the prologue run; the launch proceeds. -/
  | stickEnd
  /-- STICK_LI (R307). Loads a sign-extended immediate. -/
  | stickLi (d : Fin 16) (imm : BitVec 19)
  /-- STICK_LHI (R307). xd := (xa << 19) or IMM. -/
  | stickLhi (d a : Fin 16) (imm : BitVec 19)
  /-- STICK_ADD (R307). Register add. -/
  | stickAdd (d a b : Fin 16)
  /-- STICK_ADDI (R307). Add of a sign-extended immediate. -/
  | stickAddi (d a : Fin 16) (imm : BitVec 19)
  /-- STICK_SUB (R307). Register subtract. -/
  | stickSub (d a b : Fin 16)
  /-- STICK_AND (R307). Bitwise and. -/
  | stickAnd (d a b : Fin 16)
  /-- STICK_OR (R307). Bitwise or. -/
  | stickOr (d a b : Fin 16)
  /-- STICK_XOR (R307). Bitwise xor. -/
  | stickXor (d a b : Fin 16)
  /-- STICK_SHL (R307). Shift left by IMM[5:0]. -/
  | stickShl (d a : Fin 16) (n : BitVec 6)
  /-- STICK_SHR (R307). Zero-filling shift right by IMM[5:0]. -/
  | stickShr (d a : Fin 16) (n : BitVec 6)
  /-- STICK_MUL (R307). Low 64 bits of the product. -/
  | stickMul (d a b : Fin 16)
  /-- STICK_DIVU (R307). Unsigned divide, all ones when the divisor is 0. -/
  | stickDivu (d a b : Fin 16)
  /-- STICK_MINU (R307). Unsigned minimum. -/
  | stickMinu (d a b : Fin 16)
  /-- STICK_MAXU (R307). Unsigned maximum. -/
  | stickMaxu (d a b : Fin 16)
  /-- STICK_LD (R307). Loads 8 bytes through a queue window. -/
  | stickLd (d a : Fin 16) (w : Fin 4) (off : BitVec 17)
  /-- STICK_ST (R307). Stores 8 bytes through a queue window, possibly waiting on a full result ring. -/
  | stickSt (d a : Fin 16) (w : Fin 4) (off : BitVec 17)
  /-- STICK_LRD (R307). Reads a word of the launch-record copy. -/
  | stickLrd (d : Fin 16) (i : Fin 16)
  /-- STICK_LWR (R307). Writes a word of the launch-record copy. -/
  | stickLwr (a : Fin 16) (i : Fin 16)
  /-- STICK_BZ (R307). Forward branch if xa is zero. -/
  | stickBz (a : Fin 16) (imm : BitVec 19)
  /-- STICK_BNZ (R307). Forward branch if xa is nonzero. -/
  | stickBnz (a : Fin 16) (imm : BitVec 19)
  /-- STICK_BLTU (R307). Forward branch if xa < xb unsigned. -/
  | stickBltu (a b : Fin 16) (off : BitVec 15)
  /-- STICK_LOOP (R307). Decrements xa and branches back while xa was nonzero. -/
  | stickLoop (a : Fin 16) (imm : BitVec 19)
  /-- STICK_CANCEL (R307). Ends the run and completes the node with LRC 0x01. -/
  | stickCancel
  /-- STICK_REPT (R307). Sets the repetition count. -/
  | stickRept (a : Fin 16)
  /-- STICK_CLK (R307). Reads microseconds since start-up. -/
  | stickClk (d : Fin 16)
  /-- LANDING (R25). A result due at a strand cycle lands in its latch, predicate, queue register or other destination at the start of that strand cycle. -/
  | landing (x : Nat)
  /-- VARIABLE_LATENCY_ARRIVAL (R27). Data for a variable-latency item arrives; a strand stalled on it resumes and the value lands. -/
  | variableLatencyArrival (x id : Nat)
  /-- STALL_WATCHDOG_EXPIRY (R29). A stall held on one cause for 2^24 chip cycles raises WD 2. -/
  | stallWatchdogExpiry (x : Nat)
  /-- HOLD_RELEASE_RESUME (R30). The other strands of an exact gang resume H chip cycles after the stalled strand's release. -/
  | holdReleaseResume (x src : Nat)
  /-- DEBUG_HALT_REQUEST (R38). A debug halt request fires IN 1, setting its pending bit if enabled. -/
  | debugHaltRequest (x : Nat)
  /-- SCLK_COMPARE_MATCH (R38). sclk reaches sclkcmp and fires IN 3. -/
  | sclkCompareMatch (x : Nat)
  /-- INTERRUPT_TAKEN (R38). A pending interrupt is taken at the first strand-cycle boundary at which the strand is neither frozen nor held. -/
  | interruptTaken (x : Nat)
  /-- STREAM_START (R139). A V or F word starts its stream when the previous stream of its queue ends. -/
  | streamStart (x : Nat) (e : Eng)
  /-- STREAM_GROUP_READ (R139). A stream reads one group's source elements in its strand cycle. -/
  | streamGroupRead (x : Nat) (e : Eng)
  /-- STREAM_GROUP_WRITE (R139). A stream writes one group's destination elements at the start of its strand cycle. -/
  | streamGroupWrite (x : Nat)
  /-- MATRIX_WORD_START (R181). A timed M word starts when the previous timed word's occupancy ends, reading its tiles and scratchpad. -/
  | matrixWordStart (x : Nat)
  /-- MATRIX_DELIVERY (R181). A timed M word delivers its whole result at s + L or at its postponed strand cycle. -/
  | matrixDelivery (x : Nat)
  /-- HANDLE_WORD_SERVE (R190). Once a handle or follow-on word's operand bytes have arrived, the array serves it in free strand cycles and writes the accumulator. -/
  | handleWordServe (x id : Nat)
  /-- HELD_COMMAND_TRAP (R191). A fault found after issue holds the command, and the trap is taken at the strand's next boundary. -/
  | heldCommandTrap (x : Nat)
  /-- COMMAND_COMPLETION (R201). An asynchronous command completes, raising SPOST, setting flags, advancing DONE and freeing its tracker slot. -/
  | commandCompletion (x id : Nat)
  /-- FLAG_WRITE (R203). After a command completes, its flag word is written to scratchpad. -/
  | flagWrite (x id : Nat)
  /-- STRAND_END (R99). The strand ends once all queues have halted, all landings have landed and all asynchronous work has performed; its holdings are released. -/
  | strandEnd (x : Nat)
  /-- WINDOW_WRITE (R245). A window write performs at a core's bank port, register file or storage. -/
  | windowWrite (core off n val : Nat)
  /-- WINDOW_READ (R245). A window read is served at the core. -/
  | windowRead (core off n : Nat)
  /-- CONTEXT_WRITE_EFFECT (R60). A window write to a running strand's context page, tiles or accumulators takes effect at its next strand-cycle boundary. -/
  | contextWriteEffect (x : Nat)
  /-- ACCESS_PERFORM (R247). An asynchronous access performs at its home. -/
  | accessPerform (x id : Nat)
  /-- PACKET_DEPART (R226). A ready packet holding a credit leaves at the opening of its slot. -/
  | packetDepart (core slot : Nat)
  /-- PACKET_ARRIVE (R226). A packet reaches the peer's receive buffer, or performs its put bytes, TRANSIT chip cycles after leaving. -/
  | packetArrive (core slot id : Nat)
  /-- CREDIT_RETURN (R227). A returned credit reaches the sender at the next opening of its circuit's slot. -/
  | creditReturn (core slot : Nat)
  /-- NGET_REQUEST_ACCEPT (R229). The peer accepts an nget request and sends its data packets on the return circuit. -/
  | ngetRequestAccept (core slot id : Nat)
  /-- BARRIER_RELEASE (R230). The release reaches every member of a scope instance H chip cycles after the last arrival. -/
  | barrierRelease (gang level unit count : Nat)
  /-- COLLECTIVE_COMPLETE (R232). A collective completes, writing each member's D and ORing its flags. -/
  | collectiveComplete (gang level unit ord : Nat)
  /-- HOLD_BUDGET_EXPIRY (R218). A pin's budget of 8 refresh intervals expires: the row is precharged and HOLDBROKE and BROKE are set. -/
  | holdBudgetExpiry (x quoin : Nat)
  /-- REFRESH_INTERVAL (R368). A bank's refresh interval elapses; it is refreshed, or the refresh is postponed while a row is pinned. -/
  | refreshInterval (ch bank : Nat)
  /-- TEMPERATURE_CROSSING (R368). A stack's temperature crosses 85 °C and tREFI changes. -/
  | temperatureCrossing (stack : Nat) (hot : Bool)
  /-- REGION_WATCHDOG_EXPIRY (R336). 2^20 strand cycles close without a boundary and WD 1 suspends the strand. -/
  | regionWatchdogExpiry (x : Nat)
  /-- REPHASE_POINT_APPLY (R295). A pending re-phase is applied at the next re-phase point, holding the strand for Δ chip cycles. -/
  | rephasePointApply (x : Nat)
  /-- REPHASE_HOLD_END (R295). The Δ-cycle hold ends and the strand resumes at its new phases. -/
  | rephaseHoldEnd (x : Nat)
  /-- STRAND_START (R290). An admitted strand starts at its c0. -/
  | strandStart (x : Nat)
  /-- DOORBELL (R326). A write of cqdb makes the compositor read the slot's node record, or ignore and report the doorbell. -/
  | doorbell (q val : Nat)
  /-- JOIN_NODE (R302). A ready join node completes at once. -/
  | joinNode (q slot : Nat)
  /-- LAUNCH_NODE (R306). A ready launch node runs its prologue, checks, stages, admits, loads and starts its strands. -/
  | launchNode (q slot : Nat)
  /-- STAGING_COMPLETE (R310). Working-set copies from the capacity tier have performed, or fault with LRC 0x06. -/
  | stagingComplete (q slot : Nat)
  /-- REPETITION_START (R306). The next repetition of a launch begins after the previous one has ended. -/
  | repetitionStart (q slot : Nat)
  /-- LAUNCH_COMPLETE (R302). Every strand of every repetition has ended with its accesses performed; STATUS and STATE are written and successors credited. -/
  | launchComplete (q slot : Nat)
  /-- BUDGET_EXPIRY (R338). A repetition's run budget runs out; the launch is pre-empted without an image and completes with LRC 0x0B. -/
  | budgetExpiry (q slot : Nat)
  /-- CONDITIONAL_NODE (R314). Reads the predicate word and credits the true or the false set. -/
  | conditionalNode (q slot : Nat)
  /-- LOOP_NODE (R316). Reads its word; a true decision re-arms the body and itself, and a false decision completes it. -/
  | loopNode (q slot : Nat)
  /-- HOST_SIGNAL_NODE (R329). Posts ARG as a record to host ring ARG2. -/
  | hostSignalNode (q slot : Nat)
  /-- SIGNAL_NODE (R312). Raises IN 2 in the running strands of the named launch. -/
  | signalNode (q slot : Nat)
  /-- REPHASE_NODE (R312). Asks the Imposer to re-phase a strand by Δ. -/
  | rephaseNode (q slot : Nat)
  /-- CQPROG_WRITE (R308). A write of cqprog loads and verifies the queue's program table. -/
  | cqprogWrite (q val : Nat)
  /-- CQNPROG_WRITE (R308). A write of cqnprog loads and verifies the queue's program table. -/
  | cqnprogWrite (q val : Nat)
  /-- CQERR_READ (R298). A read returns the last launch-result code and clears it. -/
  | cqerrRead (q : Nat)
  /-- STANDBY_FILL (R311). The compositor fills a core's standby set from a ready or staged node's segments. -/
  | standbyFill (core q slot : Nat)
  /-- AFC_UPDATE (R313). Every microsecond each compositor rewrites its die's activity forecast. -/
  | afcUpdate
  /-- HRPOST_WRITE (R329). An 8-byte write to hrpost posts one record, waiting while the ring is full. -/
  | hrpostWrite (vf ring val src orig : Nat)
  /-- RING_RECORD_WRITE (R330). A post claims a record and writes it, then META, then increments hrprod. -/
  | ringRecordWrite (vf ring : Nat)
  /-- HRCONS_WRITE (R327). The host advances hrcons, freeing records, or the write sets BADCONS. -/
  | hrconsWrite (vf ring val : Nat)
  /-- HRCTL_WRITE (R331). A write of hrctl changes coalescing, possibly starting the timer or firing at once. -/
  | hrctlWrite (vf ring val : Nat)
  /-- RING_TIMER_EXPIRY (R331). A result ring's coalescing timer expires and fires an interrupt. -/
  | ringTimerExpiry (vf ring : Nat)
  /-- HRSTAT_READ (R327). A read returns the ring's status bits and clears them. -/
  | hrstatRead (vf ring : Nat)
  /-- ERLOST_READ (R360). A read returns the dropped-event count and clears it. -/
  | erlostRead (vf : Nat)
  /-- S1INV (R356). Queues a stage-1 invalidation of a span. -/
  | s1inv (vf val : Nat)
  /-- S2INV (R356). Queues a stage-2 invalidation of a span. -/
  | s2inv (vf val : Nat)
  /-- INVALIDATION_COMPLETE (R356). No cached entry of the span remains and every access through one has performed; BUSY clears after the last request. -/
  | invalidationComplete (vf : Nat)
  /-- WALK_COMPLETE (R351). A translation walk ends, filling the cache or faulting. -/
  | walkComplete (walk : Nat)
  /-- TRESUME_RESUME (R354). A suspended strand is resumed at its next boundary and reissues the faulting word. -/
  | tresumeResume (vf val : Nat) (byPf : Bool)
  /-- TRESUME_END (R354). A suspended strand is ended and its launch completes with LRC 0x0E. -/
  | tresumeEnd (vf val : Nat) (byPf : Bool)
  /-- VFQUADS_WRITE (R357). Assigns quads to a VF, refused when a quad belongs to another VF. -/
  | vfquadsWrite (vf val : Nat)
  /-- PSTITCH_WRITE (R374). Sets a VF's stitch mode, ignored when malformed or while a launch runs. -/
  | pstitchWrite (vf val : Nat)
  /-- VFSLOTS_WRITE (R376). Sets a VF's allowed slots, ignored when they overlap another VF's. -/
  | vfslotsWrite (vf word val : Nat)
  /-- PARTITION_RESET (R377). prst GO stops the VF's strands, drops pre-empted nodes and drains the fabric. -/
  | partitionReset (vf val : Nat)
  /-- PARTITION_RESET_CLEAR (R377). After the drain, the VF's cores, slot entries, quoins, scans and channel counters are cleared and BUSY clears. -/
  | partitionResetClear (vf : Nat)
  /-- FUNCTION_LEVEL_RESET (R321). An FLR of a VF resets its partitions and its ring registers. -/
  | functionLevelReset (vf : Nat)
  /-- HOT_RESET (R386). A PF hot reset resets the device with CAUSE 3. -/
  | hotReset
  /-- COLD_RESET (R366). Cold boot runs self-test and trains every present stack. -/
  | coldReset
  /-- WARM_RESET (R367). Warm reset restores training records, retraining stacks whose checks fail. -/
  | warmReset
  /-- STACK_TRAINING_COMPLETE (R366). Training ends; RATE and STATE 3 are set and the training record is stored. -/
  | stackTrainingComplete (stack rate : Nat)
  /-- SELF_TEST_PASS (R387). Self-test passes and the proof service begins at 1.5 GHz. -/
  | selfTestPass
  /-- FULL_SERVICE_ENTRY (R387). Once stacks are trained, alignment is done and no strand runs, the clock becomes 3 GHz and STAGE 2. -/
  | fullServiceEntry
  /-- PMREQ_PREEMPT (R337). A pre-emption request stops every strand of a launch, or is refused and logged. -/
  | pmreqPreempt (val : Nat)
  /-- PREEMPT_SAVE (R341). After the drain, the compositor writes each strand's context image and sets the node to STATE 5. -/
  | preemptSave (q slot : Nat)
  /-- PMREQ_RESUME (R339). A resume re-admits the strands, restores images, reopens quoins, reissues saved commands and restarts them. -/
  | pmreqResume (val : Nat)
  /-- CQSAVN_WRITE (R341). Translates and pins the save area for cqsavn strand slots. -/
  | cqsavnWrite (q val : Nat)
  /-- STKRATE_WRITE (R369). Requests a stack data-rate change: refused, DEFERRED or running. -/
  | stkrateWrite (stack val : Nat)
  /-- RETRAINING_COMPLETE (R370). A stack finishes retraining at the new rate, STATE returns to 3 and paused scans resume. -/
  | retrainingComplete (stack : Nat)
  /-- CHRET_WRITE (R372). Starts a channel retirement with its fence and generation broadcast, or refuses it. -/
  | chretWrite (val : Nat)
  /-- RETIREMENT_DRAIN_DONE (R372). Writes accepted before the fence have performed and the copy to the donor begins. -/
  | retirementDrainDone
  /-- RETIREMENT_COPY_DONE (R372). The copy ends; the channel is remapped to the donor and held writes perform there. -/
  | retirementCopyDone
  /-- GENERATION_BROADCAST (R373). A channel-map generation broadcast arrives at another package and updates its copy. -/
  | generationBroadcast (pkg gen : Nat)
  /-- POD_ALIGNMENT (R380). Start-up alignment numbers the packages, locks clocks, measures LAT and aligns reel 0. -/
  | podAlignment (pkg npkg : Nat) (walk : AlignWalk)
  /-- ALIGNMENT_RELEASE (R380). The opening alignment barrier releases and DONE is set. -/
  | alignmentRelease
  /-- FLIT_RECEIVE (R382). A Speat flit arrives, its 8 bytes of header, 240 of payload and 8 of CRC (R378); its CRC is checked, a failure counted and named, and the link may go down. -/
  | flitReceive (link head payload crc : Nat) (corrected : Bool)
  /-- RETRY_NOTICE (R382). A retry notice reaches the sender, naming a failed flit. -/
  | retryNotice (link pair rseq : Nat)
  /-- FLIT_RESEND (R382). D reels after the original send, the named flit is resent in the same pair. -/
  | flitResend (link pair reel : Nat)
  /-- SPSTAT_READ (R381). A read returns link status and clears the UNCOR and CORR counts. -/
  | spstatRead (link : Nat)
  /-- LINK_EVENT (R325). A host-link error, timeout or poisoned request is reported to PF AER or the VF's virtual AER and error ring. -/
  | linkEvent (kind : LinkEventKind) (vf addr : Nat)
  /-- APERTURE_ACCESS (R322). A host access through VF BAR2 is translated and performed on the tenant's memory. -/
  | apertureAccess (vf off n : Nat) (write : Bool) (val : Nat)
  /-- MSIX_UNMASK (R324). Unmasking a vector with its pending bit set sends the message. -/
  | msixUnmask (fn vec : Nat)
  /-- SOFT_ERROR_CORRECTED (R383). A correctable error is fixed and counted toward SE 1. -/
  | softErrorCorrected (place : Nat)
  /-- SOFT_ERROR_UNCORRECTABLE (R383). An uncorrectable error sets a poison mark and logs SE 2. -/
  | softErrorUncorrectable (space addr : Nat)
  /-- THERMAL_WARN (R395). A die reaches 105 °C, sets its WARN bit and logs TH 1. -/
  | thermalWarn (die : Nat)
  /-- THERMAL_TRIP (R395). At 115 °C the package resets at once with CAUSE 2. -/
  | thermalTrip
  /-- FWCMD_LOAD (R390). Checks a supplement image and makes a hand-over pending, or refuses it. -/
  | fwcmdLoad
  /-- FWCMD_QUOTE (R394). Forms a signed quote over a nonce. -/
  | fwcmdQuote
  /-- FWCMD_LOG (R390). Writes the measurement log entries to the buffer. -/
  | fwcmdLog
  /-- FWCMD_CERT (R392). Writes the device identity and attestation certificates. -/
  | fwcmdCert
  /-- HANDOVER_COMMIT (R391). At the first quiescent point, command authority passes to the supplement and an AUTH entry is appended. -/
  | handoverCommit
  /-- HANDOVER_ABANDON (R391). No quiescent point within 100 ms; the hand-over is abandoned and FW 3 is logged. -/
  | handoverAbandon
  /-- WALKER_DEAL (R279). The symmetry walker writes a point entry or the end marker once TAKEN allows, then DEALT. -/
  | walkerDeal (gang : Nat)
  /-- REGISTER_WRITE (R6). A write to a register without behaviour of its own sets its fields under the access codes. -/
  | registerWrite (view off n val : Nat)
  /-- COMPOSITOR_QUEUE_CREATE (R298). The host's physical function creates a compositor queue and binds it to one tenant, making its register block visible in that tenant's view. -/
  | compositorQueueCreate (q vf : Nat)
  /-- PF_FUNCTION_LEVEL_RESET (R321). A Function Level Reset of the physical function. -/
  | pfFunctionLevelReset
  /-- SPEAT_LINK_TRAINED (R381). Firmware's training of a Speat link ends and the link's STATE goes from training to up. -/
  | speatLinkTrained (link lat peerPkg peerLink : Nat)
  deriving DecidableEq, Repr

/-- What a word of the seven classes is: its class operation and its fields. -/
inductive View where
  | s (op : SOp) (h : Hdr) (b : SBody)
  | v (op : VOp) (h : Hdr) (b : VBody)
  | f (op : FOp) (h : Hdr) (b : VBody)
  | d (op : DOp) (h : Hdr) (b : VBody)
  | m (op : MOp) (h : Hdr) (b : MBody)
  | c (op : COp) (h : Hdr) (b : CBody)
  | cpf (h : Hdr) (b : CBody) (fo : FollowOn)
  | n (op : NOp) (h : Hdr) (b : NBody)
  | nop (e : Cls) (h : Hdr) (g : Guard)
  | halt (e : Cls) (h : Hdr) (g : Guard)
  | lbr (e : Cls) (h : Hdr) (l : LoopBody)
  | rlbr (e : Cls) (h : Hdr) (l : LoopBody)
  | brk (h : Hdr) (code : BitVec 16)
  deriving DecidableEq, Repr

/-- The instruction of a class S operation. -/
def SOp.instr : SOp → Hdr → SBody → Instr
  | .add, h, b => .add h b
  | .sub, h, b => .sub h b
  | .and, h, b => .and h b
  | .or, h, b => .or h b
  | .xor, h, b => .xor h b
  | .andn, h, b => .andn h b
  | .shl, h, b => .shl h b
  | .shr, h, b => .shr h b
  | .sar, h, b => .sar h b
  | .min, h, b => .min h b
  | .max, h, b => .max h b
  | .sel, h, b => .sel h b
  | .li, h, b => .li h b
  | .lih, h, b => .lih h b
  | .clz, h, b => .clz h b
  | .popc, h, b => .popc h b
  | .ceq, h, b => .ceq h b
  | .cne, h, b => .cne h b
  | .clt, h, b => .clt h b
  | .cle, h, b => .cle h b
  | .ctst, h, b => .ctst h b
  | .fceq, h, b => .fceq h b
  | .fclt, h, b => .fclt h b
  | .fcle, h, b => .fcle h b
  | .fcun, h, b => .fcun h b
  | .pand, h, b => .pand h b
  | .por, h, b => .por h b
  | .pxor, h, b => .pxor h b
  | .ppack, h, b => .ppack h b
  | .punpack, h, b => .punpack h b
  | .mul, h, b => .mul h b
  | .mulh, h, b => .mulh h b
  | .mad, h, b => .mad h b
  | .dp4, h, b => .dp4 h b
  | .fadd, h, b => .fadd h b
  | .fsub, h, b => .fsub h b
  | .fmul, h, b => .fmul h b
  | .fma, h, b => .fma h b
  | .fmin, h, b => .fmin h b
  | .fmax, h, b => .fmax h b
  | .fabs, h, b => .fabs h b
  | .fneg, h, b => .fneg h b
  | .cvt, h, b => .cvt h b
  | .lds, h, b => .lds h b
  | .sts, h, b => .sts h b
  | .ldg, h, b => .ldg h b
  | .stg, h, b => .stg h b
  | .aadd, h, b => .aadd h b
  | .axchg, h, b => .axchg h b
  | .acas, h, b => .acas h b
  | .amax, h, b => .amax h b
  | .fence, h, b => .fence h b
  | .waita, h, b => .waita h b
  | .spl, h, b => .spl h b
  | .sps, h, b => .sps h b
  | .semadd, h, b => .semadd h b
  | .semrd, h, b => .semrd h b
  | .jmp, h, b => .jmp h b
  | .jmpr, h, b => .jmpr h b
  | .call, h, b => .call h b
  | .callr, h, b => .callr h b
  | .ret, h, b => .ret h b
  | .lset, h, b => .lset h b
  | .idem, h, b => .idem h b
  | .mfc, h, b => .mfc h b
  | .mtc, h, b => .mtc h b
  | .setg, h, b => .setg h b
  | .sett, h, b => .sett h b
  | .swi, h, b => .swi h b
  | .tret, h, b => .tret h b

/-- The instruction of a class V operation. -/
def VOp.instr : VOp → Hdr → VBody → Instr
  | .vadd, h, b => .vadd h b
  | .vsub, h, b => .vsub h b
  | .vfma, h, b => .vfma h b
  | .vmul, h, b => .vmul h b
  | .vmin, h, b => .vmin h b
  | .vmax, h, b => .vmax h b
  | .vabs, h, b => .vabs h b
  | .vneg, h, b => .vneg h b
  | .vand, h, b => .vand h b
  | .vor, h, b => .vor h b
  | .vxor, h, b => .vxor h b
  | .vshl, h, b => .vshl h b
  | .vshr, h, b => .vshr h b
  | .vsar, h, b => .vsar h b
  | .vmov, h, b => .vmov h b
  | .vclamp, h, b => .vclamp h b
  | .vfill, h, b => .vfill h b
  | .vmad, h, b => .vmad h b
  | .viota, h, b => .viota h b
  | .vceq, h, b => .vceq h b
  | .vcne, h, b => .vcne h b
  | .vclt, h, b => .vclt h b
  | .vcle, h, b => .vcle h b
  | .vcun, h, b => .vcun h b
  | .vsel, h, b => .vsel h b
  | .vcvt, h, b => .vcvt h b
  | .vdp4, h, b => .vdp4 h b
  | .vrsum, h, b => .vrsum h b
  | .vrmax, h, b => .vrmax h b
  | .vrmin, h, b => .vrmin h b
  | .vrarg, h, b => .vrarg h b
  | .vscan, h, b => .vscan h b
  | .vperm, h, b => .vperm h b
  | .vbcast, h, b => .vbcast h b
  | .vgthl, h, b => .vgthl h b
  | .vrev, h, b => .vrev h b
  | .vqmax, h, b => .vqmax h b
  | .vqcvt, h, b => .vqcvt h b

/-- The instruction of a class D operation. -/
def DOp.instr : DOp → Hdr → VBody → Instr
  | .dld, h, b => .dld h b
  | .dsto, h, b => .dsto h b
  | .dadd, h, b => .dadd h b
  | .dsub, h, b => .dsub h b
  | .dmul, h, b => .dmul h b
  | .dmax, h, b => .dmax h b
  | .dmin, h, b => .dmin h b
  | .daff, h, b => .daff h b
  | .dmix, h, b => .dmix h b
  | .dsmp, h, b => .dsmp h b
  | .dcond, h, b => .dcond h b
  | .dmom, h, b => .dmom h b
  | .dqnt, h, b => .dqnt h b
  | .dlinSet, h, b => .dlinSet h b
  | .dlinGet, h, b => .dlinGet h b

/-- The instruction of a class F operation. -/
def FOp.instr : FOp → Hdr → VBody → Instr
  | .frcp, h, b => .frcp h b
  | .fsqrt, h, b => .fsqrt h b
  | .frcpe, h, b => .frcpe h b
  | .frsqe, h, b => .frsqe h b
  | .fexp2, h, b => .fexp2 h b
  | .flog2, h, b => .flog2 h b
  | .fsin, h, b => .fsin h b
  | .fcos, h, b => .fcos h b
  | .ftanh, h, b => .ftanh h b
  | .ferf, h, b => .ferf h b
  | .fscl, h, b => .fscl h b
  | .fxtrExp, h, b => .fxtrExp h b
  | .fxtrMan, h, b => .fxtrMan h b
  | .frnd, h, b => .frnd h b
  | .fcls, h, b => .fcls h b
  | .fcvt, h, b => .fcvt h b
  | .fmov, h, b => .fmov h b
  | .fsgn, h, b => .fsgn h b
  | .fmag, h, b => .fmag h b

/-- The instruction of a class M operation. -/
def MOp.instr : MOp → Hdr → MBody → Instr
  | .mmi, h, b => .mmi h b
  | .mma, h, b => .mma h b
  | .mmih, h, b => .mmih h b
  | .mmah, h, b => .mmah h b
  | .gmmi, h, b => .gmmi h b
  | .gmma, h, b => .gmma h b
  | .gmmih, h, b => .gmmih h b
  | .gmmah, h, b => .gmmah h b
  | .mhad, h, b => .mhad h b
  | .mtrn, h, b => .mtrn h b
  | .mtcv, h, b => .mtcv h b
  | .mqnt, h, b => .mqnt h b
  | .mhadq, h, b => .mhadq h b
  | .mdrb, h, b => .mdrb h b
  | .mdrt, h, b => .mdrt h b
  | .mdrs, h, b => .mdrs h b
  | .mclr, h, b => .mclr h b
  | .macpCpy, h, b => .macpCpy h b
  | .macpAdd, h, b => .macpAdd h b
  | .mtld, h, b => .mtld h b
  | .mtst, h, b => .mtst h b

/-- The instruction of a class C operation. -/
def COp.instr : COp → Hdr → CBody → Instr
  | .cpy, h, b => .cpy h b
  | .cfill, h, b => .cfill h b
  | .cprm, h, b => .cprm h b
  | .cpt, h, b => .cpt h b
  | .gth, h, b => .gth h b
  | .sct, h, b => .sct h b
  | .wstr, h, b => .wstr h b
  | .hbind, h, b => .hbind h b
  | .hfree, h, b => .hfree h b
  | .rowopn, h, b => .rowopn h b
  | .rowpin, h, b => .rowpin h b
  | .rowrel, h, b => .rowrel h b
  | .rowrd, h, b => .rowrd h b
  | .rowwr, h, b => .rowwr h b
  | .rowst, h, b => .rowst h b
  | .scnthr, h, b => .scnthr h b
  | .scngo, h, b => .scngo h b
  | .scnrd, h, b => .scnrd h b
  | .scnstp, h, b => .scnstp h b
  | .scnst, h, b => .scnst h b

/-- The instruction of a class N operation. -/
def NOp.instr : NOp → Hdr → NBody → Instr
  | .nsnd, h, b => .nsnd h b
  | .nrcv, h, b => .nrcv h b
  | .nput, h, b => .nput h b
  | .nget, h, b => .nget h b
  | .bar, h, b => .bar h b
  | .bara, h, b => .bara h b
  | .barw, h, b => .barw h b
  | .ared, h, b => .ared h b
  | .rscat, h, b => .rscat h b
  | .agth, h, b => .agth h b
  | .bcst, h, b => .bcst h b
  | .xsnd, h, b => .xsnd h b
  | .xrcv, h, b => .xrcv h b
  | .xred, h, b => .xred h b
  | .nflsh, h, b => .nflsh h b
  | .nstat, h, b => .nstat h b

/-- The instruction of a view. -/
def View.instr : View → Instr
  | .s op h b => op.instr h b
  | .v op h b => op.instr h b
  | .f op h b => op.instr h b
  | .d op h b => op.instr h b
  | .m op h b => op.instr h b
  | .c op h b => op.instr h b
  | .n op h b => op.instr h b
  | .cpf h b fo => .cpf h b fo
  | .nop e h g => .nop e h g
  | .halt e h g => .halt e h g
  | .lbr e h l => .lbr e h l
  | .rlbr e h l => .rlbr e h l
  | .brk h code => .brk h code

/-- The view of an instruction word; stick-code words and events have none. -/
def Instr.view : Instr → Option View
  | .nop e h g => some (.nop e h g)
  | .halt e h g => some (.halt e h g)
  | .lbr e h g => some (.lbr e h g)
  | .rlbr e h g => some (.rlbr e h g)
  | .brk h code => some (.brk h code)
  | .add h b => some (.s .add h b)
  | .sub h b => some (.s .sub h b)
  | .and h b => some (.s .and h b)
  | .or h b => some (.s .or h b)
  | .xor h b => some (.s .xor h b)
  | .andn h b => some (.s .andn h b)
  | .shl h b => some (.s .shl h b)
  | .shr h b => some (.s .shr h b)
  | .sar h b => some (.s .sar h b)
  | .min h b => some (.s .min h b)
  | .max h b => some (.s .max h b)
  | .sel h b => some (.s .sel h b)
  | .li h b => some (.s .li h b)
  | .lih h b => some (.s .lih h b)
  | .clz h b => some (.s .clz h b)
  | .popc h b => some (.s .popc h b)
  | .ceq h b => some (.s .ceq h b)
  | .cne h b => some (.s .cne h b)
  | .clt h b => some (.s .clt h b)
  | .cle h b => some (.s .cle h b)
  | .ctst h b => some (.s .ctst h b)
  | .fceq h b => some (.s .fceq h b)
  | .fclt h b => some (.s .fclt h b)
  | .fcle h b => some (.s .fcle h b)
  | .fcun h b => some (.s .fcun h b)
  | .pand h b => some (.s .pand h b)
  | .por h b => some (.s .por h b)
  | .pxor h b => some (.s .pxor h b)
  | .ppack h b => some (.s .ppack h b)
  | .punpack h b => some (.s .punpack h b)
  | .mul h b => some (.s .mul h b)
  | .mulh h b => some (.s .mulh h b)
  | .mad h b => some (.s .mad h b)
  | .dp4 h b => some (.s .dp4 h b)
  | .fadd h b => some (.s .fadd h b)
  | .fsub h b => some (.s .fsub h b)
  | .fmul h b => some (.s .fmul h b)
  | .fma h b => some (.s .fma h b)
  | .fmin h b => some (.s .fmin h b)
  | .fmax h b => some (.s .fmax h b)
  | .fabs h b => some (.s .fabs h b)
  | .fneg h b => some (.s .fneg h b)
  | .cvt h b => some (.s .cvt h b)
  | .lds h b => some (.s .lds h b)
  | .sts h b => some (.s .sts h b)
  | .ldg h b => some (.s .ldg h b)
  | .stg h b => some (.s .stg h b)
  | .aadd h b => some (.s .aadd h b)
  | .axchg h b => some (.s .axchg h b)
  | .acas h b => some (.s .acas h b)
  | .amax h b => some (.s .amax h b)
  | .fence h b => some (.s .fence h b)
  | .waita h b => some (.s .waita h b)
  | .spl h b => some (.s .spl h b)
  | .sps h b => some (.s .sps h b)
  | .semadd h b => some (.s .semadd h b)
  | .semrd h b => some (.s .semrd h b)
  | .jmp h b => some (.s .jmp h b)
  | .jmpr h b => some (.s .jmpr h b)
  | .call h b => some (.s .call h b)
  | .callr h b => some (.s .callr h b)
  | .ret h b => some (.s .ret h b)
  | .lset h b => some (.s .lset h b)
  | .idem h b => some (.s .idem h b)
  | .mfc h b => some (.s .mfc h b)
  | .mtc h b => some (.s .mtc h b)
  | .setg h b => some (.s .setg h b)
  | .sett h b => some (.s .sett h b)
  | .swi h b => some (.s .swi h b)
  | .tret h b => some (.s .tret h b)
  | .vadd h b => some (.v .vadd h b)
  | .vsub h b => some (.v .vsub h b)
  | .vfma h b => some (.v .vfma h b)
  | .vmul h b => some (.v .vmul h b)
  | .vmin h b => some (.v .vmin h b)
  | .vmax h b => some (.v .vmax h b)
  | .vabs h b => some (.v .vabs h b)
  | .vneg h b => some (.v .vneg h b)
  | .vand h b => some (.v .vand h b)
  | .vor h b => some (.v .vor h b)
  | .vxor h b => some (.v .vxor h b)
  | .vshl h b => some (.v .vshl h b)
  | .vshr h b => some (.v .vshr h b)
  | .vsar h b => some (.v .vsar h b)
  | .vmov h b => some (.v .vmov h b)
  | .vclamp h b => some (.v .vclamp h b)
  | .vfill h b => some (.v .vfill h b)
  | .vmad h b => some (.v .vmad h b)
  | .viota h b => some (.v .viota h b)
  | .vceq h b => some (.v .vceq h b)
  | .vcne h b => some (.v .vcne h b)
  | .vclt h b => some (.v .vclt h b)
  | .vcle h b => some (.v .vcle h b)
  | .vcun h b => some (.v .vcun h b)
  | .vsel h b => some (.v .vsel h b)
  | .vcvt h b => some (.v .vcvt h b)
  | .vdp4 h b => some (.v .vdp4 h b)
  | .vrsum h b => some (.v .vrsum h b)
  | .vrmax h b => some (.v .vrmax h b)
  | .vrmin h b => some (.v .vrmin h b)
  | .vrarg h b => some (.v .vrarg h b)
  | .vscan h b => some (.v .vscan h b)
  | .vperm h b => some (.v .vperm h b)
  | .vbcast h b => some (.v .vbcast h b)
  | .vgthl h b => some (.v .vgthl h b)
  | .vrev h b => some (.v .vrev h b)
  | .vqmax h b => some (.v .vqmax h b)
  | .vqcvt h b => some (.v .vqcvt h b)
  | .dld h b => some (.d .dld h b)
  | .dsto h b => some (.d .dsto h b)
  | .dadd h b => some (.d .dadd h b)
  | .dsub h b => some (.d .dsub h b)
  | .dmul h b => some (.d .dmul h b)
  | .dmax h b => some (.d .dmax h b)
  | .dmin h b => some (.d .dmin h b)
  | .daff h b => some (.d .daff h b)
  | .dmix h b => some (.d .dmix h b)
  | .dsmp h b => some (.d .dsmp h b)
  | .dcond h b => some (.d .dcond h b)
  | .dmom h b => some (.d .dmom h b)
  | .dqnt h b => some (.d .dqnt h b)
  | .dlinSet h b => some (.d .dlinSet h b)
  | .dlinGet h b => some (.d .dlinGet h b)
  | .frcp h b => some (.f .frcp h b)
  | .fsqrt h b => some (.f .fsqrt h b)
  | .frcpe h b => some (.f .frcpe h b)
  | .frsqe h b => some (.f .frsqe h b)
  | .fexp2 h b => some (.f .fexp2 h b)
  | .flog2 h b => some (.f .flog2 h b)
  | .fsin h b => some (.f .fsin h b)
  | .fcos h b => some (.f .fcos h b)
  | .ftanh h b => some (.f .ftanh h b)
  | .ferf h b => some (.f .ferf h b)
  | .fscl h b => some (.f .fscl h b)
  | .fxtrExp h b => some (.f .fxtrExp h b)
  | .fxtrMan h b => some (.f .fxtrMan h b)
  | .frnd h b => some (.f .frnd h b)
  | .fcls h b => some (.f .fcls h b)
  | .fcvt h b => some (.f .fcvt h b)
  | .fmov h b => some (.f .fmov h b)
  | .fsgn h b => some (.f .fsgn h b)
  | .fmag h b => some (.f .fmag h b)
  | .mmi h b => some (.m .mmi h b)
  | .mma h b => some (.m .mma h b)
  | .mmih h b => some (.m .mmih h b)
  | .mmah h b => some (.m .mmah h b)
  | .gmmi h b => some (.m .gmmi h b)
  | .gmma h b => some (.m .gmma h b)
  | .gmmih h b => some (.m .gmmih h b)
  | .gmmah h b => some (.m .gmmah h b)
  | .mhad h b => some (.m .mhad h b)
  | .mtrn h b => some (.m .mtrn h b)
  | .mtcv h b => some (.m .mtcv h b)
  | .mqnt h b => some (.m .mqnt h b)
  | .mhadq h b => some (.m .mhadq h b)
  | .mdrb h b => some (.m .mdrb h b)
  | .mdrt h b => some (.m .mdrt h b)
  | .mdrs h b => some (.m .mdrs h b)
  | .mclr h b => some (.m .mclr h b)
  | .macpCpy h b => some (.m .macpCpy h b)
  | .macpAdd h b => some (.m .macpAdd h b)
  | .mtld h b => some (.m .mtld h b)
  | .mtst h b => some (.m .mtst h b)
  | .cpy h b => some (.c .cpy h b)
  | .cfill h b => some (.c .cfill h b)
  | .cprm h b => some (.c .cprm h b)
  | .cpt h b => some (.c .cpt h b)
  | .cpf h b fo => some (.cpf h b fo)
  | .gth h b => some (.c .gth h b)
  | .sct h b => some (.c .sct h b)
  | .wstr h b => some (.c .wstr h b)
  | .hbind h b => some (.c .hbind h b)
  | .hfree h b => some (.c .hfree h b)
  | .rowopn h b => some (.c .rowopn h b)
  | .rowpin h b => some (.c .rowpin h b)
  | .rowrel h b => some (.c .rowrel h b)
  | .rowrd h b => some (.c .rowrd h b)
  | .rowwr h b => some (.c .rowwr h b)
  | .rowst h b => some (.c .rowst h b)
  | .scnthr h b => some (.c .scnthr h b)
  | .scngo h b => some (.c .scngo h b)
  | .scnrd h b => some (.c .scnrd h b)
  | .scnstp h b => some (.c .scnstp h b)
  | .scnst h b => some (.c .scnst h b)
  | .nsnd h b => some (.n .nsnd h b)
  | .nrcv h b => some (.n .nrcv h b)
  | .nput h b => some (.n .nput h b)
  | .nget h b => some (.n .nget h b)
  | .bar h b => some (.n .bar h b)
  | .bara h b => some (.n .bara h b)
  | .barw h b => some (.n .barw h b)
  | .ared h b => some (.n .ared h b)
  | .rscat h b => some (.n .rscat h b)
  | .agth h b => some (.n .agth h b)
  | .bcst h b => some (.n .bcst h b)
  | .xsnd h b => some (.n .xsnd h b)
  | .xrcv h b => some (.n .xrcv h b)
  | .xred h b => some (.n .xred h b)
  | .nflsh h b => some (.n .nflsh h b)
  | .nstat h b => some (.n .nstat h b)
  | .stickEnd => none
  | .stickLi _ _ => none
  | .stickLhi _ _ _ => none
  | .stickAdd _ _ _ => none
  | .stickAddi _ _ _ => none
  | .stickSub _ _ _ => none
  | .stickAnd _ _ _ => none
  | .stickOr _ _ _ => none
  | .stickXor _ _ _ => none
  | .stickShl _ _ _ => none
  | .stickShr _ _ _ => none
  | .stickMul _ _ _ => none
  | .stickDivu _ _ _ => none
  | .stickMinu _ _ _ => none
  | .stickMaxu _ _ _ => none
  | .stickLd _ _ _ _ => none
  | .stickSt _ _ _ _ => none
  | .stickLrd _ _ => none
  | .stickLwr _ _ => none
  | .stickBz _ _ => none
  | .stickBnz _ _ => none
  | .stickBltu _ _ _ => none
  | .stickLoop _ _ => none
  | .stickCancel => none
  | .stickRept _ => none
  | .stickClk _ => none
  | .landing _ => none
  | .variableLatencyArrival _ _ => none
  | .stallWatchdogExpiry _ => none
  | .holdReleaseResume _ _ => none
  | .debugHaltRequest _ => none
  | .sclkCompareMatch _ => none
  | .interruptTaken _ => none
  | .streamStart _ _ => none
  | .streamGroupRead _ _ => none
  | .streamGroupWrite _ => none
  | .matrixWordStart _ => none
  | .matrixDelivery _ => none
  | .handleWordServe _ _ => none
  | .heldCommandTrap _ => none
  | .commandCompletion _ _ => none
  | .flagWrite _ _ => none
  | .strandEnd _ => none
  | .windowWrite _ _ _ _ => none
  | .windowRead _ _ _ => none
  | .contextWriteEffect _ => none
  | .accessPerform _ _ => none
  | .packetDepart _ _ => none
  | .packetArrive _ _ _ => none
  | .creditReturn _ _ => none
  | .ngetRequestAccept _ _ _ => none
  | .barrierRelease _ _ _ _ => none
  | .collectiveComplete _ _ _ _ => none
  | .holdBudgetExpiry _ _ => none
  | .refreshInterval _ _ => none
  | .temperatureCrossing _ _ => none
  | .regionWatchdogExpiry _ => none
  | .rephasePointApply _ => none
  | .rephaseHoldEnd _ => none
  | .strandStart _ => none
  | .doorbell _ _ => none
  | .joinNode _ _ => none
  | .launchNode _ _ => none
  | .stagingComplete _ _ => none
  | .repetitionStart _ _ => none
  | .launchComplete _ _ => none
  | .budgetExpiry _ _ => none
  | .conditionalNode _ _ => none
  | .loopNode _ _ => none
  | .hostSignalNode _ _ => none
  | .signalNode _ _ => none
  | .rephaseNode _ _ => none
  | .cqprogWrite _ _ => none
  | .cqnprogWrite _ _ => none
  | .cqerrRead _ => none
  | .standbyFill _ _ _ => none
  | .afcUpdate => none
  | .hrpostWrite _ _ _ _ _ => none
  | .ringRecordWrite _ _ => none
  | .hrconsWrite _ _ _ => none
  | .hrctlWrite _ _ _ => none
  | .ringTimerExpiry _ _ => none
  | .hrstatRead _ _ => none
  | .erlostRead _ => none
  | .s1inv _ _ => none
  | .s2inv _ _ => none
  | .invalidationComplete _ => none
  | .walkComplete _ => none
  | .tresumeResume _ _ _ => none
  | .tresumeEnd _ _ _ => none
  | .vfquadsWrite _ _ => none
  | .pstitchWrite _ _ => none
  | .vfslotsWrite _ _ _ => none
  | .partitionReset _ _ => none
  | .partitionResetClear _ => none
  | .functionLevelReset _ => none
  | .hotReset => none
  | .coldReset => none
  | .warmReset => none
  | .stackTrainingComplete _ _ => none
  | .selfTestPass => none
  | .fullServiceEntry => none
  | .pmreqPreempt _ => none
  | .preemptSave _ _ => none
  | .pmreqResume _ => none
  | .cqsavnWrite _ _ => none
  | .stkrateWrite _ _ => none
  | .retrainingComplete _ => none
  | .chretWrite _ => none
  | .retirementDrainDone => none
  | .retirementCopyDone => none
  | .generationBroadcast _ _ => none
  | .podAlignment _ _ _ => none
  | .alignmentRelease => none
  | .flitReceive _ _ _ _ _ => none
  | .retryNotice _ _ _ => none
  | .flitResend _ _ _ => none
  | .spstatRead _ => none
  | .linkEvent _ _ _ => none
  | .apertureAccess _ _ _ _ _ => none
  | .msixUnmask _ _ => none
  | .softErrorCorrected _ => none
  | .softErrorUncorrectable _ _ => none
  | .thermalWarn _ => none
  | .thermalTrip => none
  | .fwcmdLoad => none
  | .fwcmdQuote => none
  | .fwcmdLog => none
  | .fwcmdCert => none
  | .handoverCommit => none
  | .handoverAbandon => none
  | .walkerDeal _ => none
  | .registerWrite _ _ _ _ => none
  | .compositorQueueCreate _ _ => none
  | .pfFunctionLevelReset => none
  | .speatLinkTrained _ _ _ _ => none

end Sys2Proof
end

