-- ==== Sys2Proof/Machine/Forms.lean ====
section
/-! DEFINITION. The encoding tables: codes of types, operands, scopes and opcodes (R49, R66, R88, R92, R96, R100),
what each form uses of its layout (R91 to R96 and the form tables of the class chapters), and the checks of R87 that
the word alone decides. -/

set_option linter.unusedVariables false

namespace Sys2Proof

open Sys2Proof.Machine

/-- Opcodes of class S (R100). -/
def SOp.code : SOp → Nat
  | .add => 0x01
  | .sub => 0x02
  | .and => 0x03
  | .or => 0x04
  | .xor => 0x05
  | .andn => 0x06
  | .shl => 0x07
  | .shr => 0x08
  | .sar => 0x09
  | .min => 0x0A
  | .max => 0x0B
  | .sel => 0x0C
  | .li => 0x0D
  | .lih => 0x0E
  | .clz => 0x0F
  | .popc => 0x1E
  | .ceq => 0x10
  | .cne => 0x11
  | .clt => 0x12
  | .cle => 0x13
  | .ctst => 0x14
  | .fceq => 0x15
  | .fclt => 0x16
  | .fcle => 0x17
  | .fcun => 0x18
  | .pand => 0x19
  | .por => 0x1A
  | .pxor => 0x1B
  | .ppack => 0x1C
  | .punpack => 0x1D
  | .mul => 0x20
  | .mulh => 0x21
  | .mad => 0x22
  | .dp4 => 0x23
  | .fadd => 0x24
  | .fsub => 0x25
  | .fmul => 0x26
  | .fma => 0x27
  | .fmin => 0x28
  | .fmax => 0x29
  | .fabs => 0x2A
  | .fneg => 0x2B
  | .cvt => 0x2C
  | .lds => 0x30
  | .sts => 0x31
  | .ldg => 0x32
  | .stg => 0x33
  | .aadd => 0x34
  | .axchg => 0x35
  | .acas => 0x36
  | .amax => 0x37
  | .fence => 0x38
  | .waita => 0x39
  | .spl => 0x3A
  | .sps => 0x3B
  | .semadd => 0x3C
  | .semrd => 0x3D
  | .jmp => 0x40
  | .jmpr => 0x41
  | .call => 0x42
  | .callr => 0x43
  | .ret => 0x44
  | .lset => 0x45
  | .idem => 0x46
  | .mfc => 0x47
  | .mtc => 0x48
  | .setg => 0x49
  | .sett => 0x4A
  | .swi => 0x4B
  | .tret => 0x4C

/-- The class S operations in the order of the opcode table. -/
def SOp.all : List SOp :=
  [.add, .sub, .and, .or, .xor, .andn, .shl, .shr, .sar, .min, .max, .sel, .li, .lih, .clz, .popc, .ceq, .cne, .clt, .cle, .ctst, .fceq, .fclt, .fcle, .fcun, .pand, .por, .pxor, .ppack, .punpack, .mul, .mulh, .mad, .dp4, .fadd, .fsub, .fmul, .fma, .fmin, .fmax, .fabs, .fneg, .cvt, .lds, .sts, .ldg, .stg, .aadd, .axchg, .acas, .amax, .fence, .waita, .spl, .sps, .semadd, .semrd, .jmp, .jmpr, .call, .callr, .ret, .lset, .idem, .mfc, .mtc, .setg, .sett, .swi, .tret]

/-- Opcodes of class V (R100). -/
def VOp.code : VOp → Nat
  | .vadd => 0x01
  | .vsub => 0x02
  | .vfma => 0x03
  | .vmul => 0x04
  | .vmin => 0x05
  | .vmax => 0x06
  | .vabs => 0x07
  | .vneg => 0x08
  | .vand => 0x09
  | .vor => 0x0A
  | .vxor => 0x0B
  | .vshl => 0x0C
  | .vshr => 0x0D
  | .vsar => 0x0E
  | .vmov => 0x0F
  | .vclamp => 0x16
  | .vfill => 0x22
  | .vmad => 0x23
  | .viota => 0x25
  | .vceq => 0x10
  | .vcne => 0x11
  | .vclt => 0x12
  | .vcle => 0x13
  | .vcun => 0x14
  | .vsel => 0x15
  | .vcvt => 0x17
  | .vdp4 => 0x24
  | .vrsum => 0x18
  | .vrmax => 0x19
  | .vrmin => 0x1A
  | .vrarg => 0x1B
  | .vscan => 0x26
  | .vperm => 0x1C
  | .vbcast => 0x1D
  | .vgthl => 0x1E
  | .vrev => 0x1F
  | .vqmax => 0x20
  | .vqcvt => 0x21

/-- The class V operations in the order of the opcode table. -/
def VOp.all : List VOp :=
  [.vadd, .vsub, .vfma, .vmul, .vmin, .vmax, .vabs, .vneg, .vand, .vor, .vxor, .vshl, .vshr, .vsar, .vmov, .vclamp, .vfill, .vmad, .viota, .vceq, .vcne, .vclt, .vcle, .vcun, .vsel, .vcvt, .vdp4, .vrsum, .vrmax, .vrmin, .vrarg, .vscan, .vperm, .vbcast, .vgthl, .vrev, .vqmax, .vqcvt]

/-- Opcodes of class D (R100). -/
def DOp.code : DOp → Nat
  | .dld => 0x01
  | .dsto => 0x02
  | .dadd => 0x03
  | .dsub => 0x04
  | .dmul => 0x05
  | .dmax => 0x06
  | .dmin => 0x07
  | .daff => 0x08
  | .dmix => 0x09
  | .dsmp => 0x0A
  | .dcond => 0x0B
  | .dmom => 0x0C
  | .dqnt => 0x0D
  | .dlinSet => 0x0E
  | .dlinGet => 0x0E

/-- The class D operations in the order of the opcode table. -/
def DOp.all : List DOp :=
  [.dld, .dsto, .dadd, .dsub, .dmul, .dmax, .dmin, .daff, .dmix, .dsmp, .dcond, .dmom, .dqnt, .dlinSet, .dlinGet]

/-- Opcodes of class F (R100). -/
def FOp.code : FOp → Nat
  | .frcp => 0x01
  | .fsqrt => 0x02
  | .frcpe => 0x03
  | .frsqe => 0x04
  | .fexp2 => 0x05
  | .flog2 => 0x06
  | .fsin => 0x07
  | .fcos => 0x08
  | .ftanh => 0x09
  | .ferf => 0x0A
  | .fscl => 0x0B
  | .fxtrExp => 0x0C
  | .fxtrMan => 0x0C
  | .frnd => 0x0D
  | .fcls => 0x0E
  | .fcvt => 0x0F
  | .fmov => 0x10
  | .fsgn => 0x11
  | .fmag => 0x12

/-- The class F operations in the order of the opcode table. -/
def FOp.all : List FOp :=
  [.frcp, .fsqrt, .frcpe, .frsqe, .fexp2, .flog2, .fsin, .fcos, .ftanh, .ferf, .fscl, .fxtrExp, .fxtrMan, .frnd, .fcls, .fcvt, .fmov, .fsgn, .fmag]

/-- Opcodes of class M (R100). -/
def MOp.code : MOp → Nat
  | .mmi => 0x01
  | .mma => 0x02
  | .mmih => 0x03
  | .mmah => 0x04
  | .gmmi => 0x05
  | .gmma => 0x06
  | .gmmih => 0x07
  | .gmmah => 0x08
  | .mhad => 0x09
  | .mtrn => 0x11
  | .mtcv => 0x12
  | .mqnt => 0x14
  | .mhadq => 0x0A
  | .mdrb => 0x0D
  | .mdrt => 0x0B
  | .mdrs => 0x0C
  | .mclr => 0x0E
  | .macpCpy => 0x13
  | .macpAdd => 0x13
  | .mtld => 0x0F
  | .mtst => 0x10

/-- The class M operations in the order of the opcode table. -/
def MOp.all : List MOp :=
  [.mmi, .mma, .mmih, .mmah, .gmmi, .gmma, .gmmih, .gmmah, .mhad, .mtrn, .mtcv, .mqnt, .mhadq, .mdrb, .mdrt, .mdrs, .mclr, .macpCpy, .macpAdd, .mtld, .mtst]

/-- Opcodes of class C (R100). -/
def COp.code : COp → Nat
  | .cpy => 0x01
  | .cfill => 0x08
  | .cprm => 0x04
  | .cpt => 0x02
  | .gth => 0x05
  | .sct => 0x06
  | .wstr => 0x07
  | .hbind => 0x09
  | .hfree => 0x0A
  | .rowopn => 0x10
  | .rowpin => 0x11
  | .rowrel => 0x14
  | .rowrd => 0x12
  | .rowwr => 0x13
  | .rowst => 0x15
  | .scnthr => 0x18
  | .scngo => 0x19
  | .scnrd => 0x1A
  | .scnstp => 0x1B
  | .scnst => 0x1C

/-- The class C operations in the order of the opcode table. -/
def COp.all : List COp :=
  [.cpy, .cfill, .cprm, .cpt, .gth, .sct, .wstr, .hbind, .hfree, .rowopn, .rowpin, .rowrel, .rowrd, .rowwr, .rowst, .scnthr, .scngo, .scnrd, .scnstp, .scnst]

/-- Opcodes of class N (R100). -/
def NOp.code : NOp → Nat
  | .nsnd => 0x01
  | .nrcv => 0x02
  | .nput => 0x03
  | .nget => 0x04
  | .bar => 0x05
  | .bara => 0x06
  | .barw => 0x07
  | .ared => 0x08
  | .rscat => 0x09
  | .agth => 0x0A
  | .bcst => 0x0B
  | .xsnd => 0x0C
  | .xrcv => 0x0D
  | .xred => 0x0E
  | .nflsh => 0x0F
  | .nstat => 0x10

/-- The class N operations in the order of the opcode table. -/
def NOp.all : List NOp :=
  [.nsnd, .nrcv, .nput, .nget, .bar, .bara, .barw, .ared, .rscat, .agth, .bcst, .xsnd, .xrcv, .xred, .nflsh, .nstat]

/-! Codes (R49, R66, R86, R88, R92, R96). -/

/-- Class codes (R86). -/
def Cls.code : Cls → Nat
  | .s => 1 | .v => 2 | .f => 3 | .m => 4 | .c => 5 | .n => 6 | .d => 7

/-- The class of a code 1 to 7. -/
def Cls.ofCode : Nat → Option Cls
  | 1 => some .s | 2 => some .v | 3 => some .f | 4 => some .m | 5 => some .c | 6 => some .n | 7 => some .d
  | _ => none

/-- The engines number 0 to 5 (R36, R130). -/
def Eng.num : Eng → Nat
  | .s => 0 | .v => 1 | .f => 2 | .m => 3 | .c => 4 | .n => 5

def Eng.ofNum : Nat → Option Eng
  | 0 => some .s | 1 => some .v | 2 => some .f | 3 => some .m | 4 => some .c | 5 => some .n | _ => none

/-- The queue that runs a class: its own, and the V queue for class D (R86). -/
def Cls.eng : Cls → Eng
  | .s => .s | .v => .v | .f => .f | .m => .m | .c => .c | .n => .n | .d => .v

/-- Element type codes (R49). -/
def Ty.code : Ty → Nat
  | .i8 => 0 | .i16 => 1 | .i32 => 2 | .i64 => 3 | .n8 => 4 | .n16 => 5 | .n32 => 6 | .n64 => 7
  | .f16 => 8 | .bf16 => 9 | .f32 => 10 | .f64 => 11 | .e5m2 => 12 | .e4m3 => 13 | .e3m2 => 14 | .e2m3 => 15
  | .e2m1 => 16 | .i4 => 17 | .sp2 => 18

def Ty.ofCode : Nat → Option Ty
  | 0 => some .i8 | 1 => some .i16 | 2 => some .i32 | 3 => some .i64 | 4 => some .n8 | 5 => some .n16
  | 6 => some .n32 | 7 => some .n64 | 8 => some .f16 | 9 => some .bf16 | 10 => some .f32 | 11 => some .f64
  | 12 => some .e5m2 | 13 => some .e4m3 | 14 => some .e3m2 | 15 => some .e2m3 | 16 => some .e2m1
  | 17 => some .i4 | 18 => some .sp2 | _ => none

/-- Element widths in bits (R49, R61). -/
def Ty.width : Ty → Nat
  | .i8 | .n8 | .e5m2 | .e4m3 | .sp2 => 8
  | .i16 | .n16 | .f16 | .bf16 => 16
  | .i32 | .n32 | .f32 => 32
  | .i64 | .n64 | .f64 => 64
  | .e3m2 | .e2m3 => 6
  | .e2m1 | .i4 => 4

def Ty.isInt : Ty → Bool
  | .i8 | .i16 | .i32 | .i64 | .n8 | .n16 | .n32 | .n64 | .i4 => true
  | _ => false

def Ty.signed : Ty → Bool
  | .i8 | .i16 | .i32 | .i64 | .i4 => true
  | _ => false

/-- The twelve matrix formats (R51, R73): those whose codes a tile or a block may carry. -/
def Ty.isMatrix : Ty → Bool
  | .i8 | .i16 | .f16 | .bf16 | .f32 | .e5m2 | .e4m3 | .e3m2 | .e2m3 | .e2m1 | .i4 | .sp2 => true
  | _ => false

/-- Rounding mode codes (R66). -/
def Rnd.code : Rnd → Nat
  | .rne => 0 | .rna => 1 | .rz => 2 | .ru => 3 | .rd => 4 | .rs => 5

def Rnd.ofCode : Nat → Option Rnd
  | 0 => some .rne | 1 => some .rna | 2 => some .rz | 3 => some .ru | 4 => some .rd | 5 => some .rs | _ => none

/-- Scope codes (R96). -/
def Scope.code : Scope → Nat
  | .lane => 0 | .core => 1 | .quad => 2 | .die => 3 | .pkg => 4 | .pod => 5 | .tenant => 6

def Scope.ofCode : Nat → Option Scope
  | 0 => some .lane | 1 => some .core | 2 => some .quad | 3 => some .die | 4 => some .pkg | 5 => some .pod
  | 6 => some .tenant | _ => none

/-- Operand codes (R88). -/
def Opd.code : Opd → Nat
  | .q n => n.val
  | .la0 => 0x20 | .la1 => 0x21 | .lm => 0x22 | .ll => 0x23
  | .lf n => 0x30 + n.val
  | .g n => 0x40 + n.val
  | .t n => 0x50 + n.val
  | .acc n => 0x60 + n.val
  | .dv n => 0x70 + n.val
  | .p n => 0x80 + n.val
  | .lc n => 0x90 + n.val
  | .imm => 0xA0 | .zero => 0xA1 | .handle => 0xA2 | .absent => 0xFF

def Opd.ofCode (c : Nat) : Option Opd :=
  if h : c < 0x20 then some (.q ⟨c, h⟩)
  else if c = 0x20 then some .la0
  else if c = 0x21 then some .la1
  else if c = 0x22 then some .lm
  else if c = 0x23 then some .ll
  else if c < 0x30 then none
  else if h : c - 0x30 < 16 then some (.lf ⟨c - 0x30, h⟩)
  else if h : c - 0x40 < 16 then some (.g ⟨c - 0x40, h⟩)
  else if h : c - 0x50 < 16 then some (.t ⟨c - 0x50, h⟩)
  else if h : c - 0x60 < 2 then some (.acc ⟨c - 0x60, h⟩)
  else if c < 0x70 then none
  else if h : c - 0x70 < 16 then some (.dv ⟨c - 0x70, h⟩)
  else if h : c - 0x80 < 16 then some (.p ⟨c - 0x80, h⟩)
  else if h : c - 0x90 < 8 then some (.lc ⟨c - 0x90, h⟩)
  else if c = 0xA0 then some .imm
  else if c = 0xA1 then some .zero
  else if c = 0xA2 then some .handle
  else if c = 0xFF then some .absent
  else none

/-- Transport latch codes (R92). -/
def XLatch.code : XLatch → Nat
  | .none => 0 | .la0 => 1 | .la1 => 2 | .lm => 3 | .ll => 4 | .lf n => 0x10 + n.val

def XLatch.ofCode (c : Nat) : Option XLatch :=
  if c = 0 then some .none
  else if c = 1 then some .la0
  else if c = 2 then some .la1
  else if c = 3 then some .lm
  else if c = 4 then some .ll
  else if c < 0x10 then Option.none
  else if h : c - 0x10 < 16 then some (.lf ⟨c - 0x10, h⟩)
  else Option.none

/-- Guard codes: GEN, GNEG, GPR as one 6-bit number (R90). -/
def Guard.code : Guard → Nat
  | .always => 0
  | .on n p => 32 + (if n then 16 else 0) + p.val

def Guard.ofCode (c : Nat) : Guard :=
  if c / 32 % 2 = 0 then .always else .on (c / 16 % 2 == 1) ⟨c % 16, Nat.mod_lt _ (by decide)⟩

/-! Operand sets (R109, R135, R151, R162, R180, R197, R223). -/

/-- The sets of operand codes a slot may accept. -/
inductive OpSet where
  | unused | val | reg | prd | hiImm | bank | lcReg | region | sc | sr | srOpt | qd | qdOpt | qdRg | dv | dvRg
  | lfRg | tile | acc | tileH | handle | nv | scRgImm
  deriving DecidableEq, Repr

/-- SC of R135. -/
def isSc (c : Nat) : Bool :=
  c < 0x24 || (0x30 ≤ c && c < 0x40) || (0x90 ≤ c && c < 0x98) || c == 0xA1

/-- RG of R135. -/
def isRg (c : Nat) : Bool := 0x40 ≤ c && c < 0x50

/-- Whether the set accepts the code. -/
def OpSet.accepts (s : OpSet) (c : Nat) : Bool :=
  match s with
  | .unused => c == 0
  | .val => isSc c || c == 0xA0
  | .reg => isSc c
  | .prd => 0x80 ≤ c && c < 0x90
  | .hiImm => c == 0xA0
  | .bank => c == 0x80 || c == 0x88
  | .lcReg => 0x90 ≤ c && c < 0x98
  | .region => isRg c
  | .sc => isSc c
  | .sr => isSc c || isRg c
  | .srOpt => isSc c || isRg c || c == 0xFF
  | .qd => c < 0x20
  | .qdOpt => c < 0x20 || c == 0xFF
  | .qdRg => c < 0x20 || isRg c
  | .dv => 0x70 ≤ c && c < 0x80
  | .dvRg => (0x70 ≤ c && c < 0x80) || isRg c
  | .lfRg => 0x30 ≤ c && c < 0x50
  | .tile => 0x50 ≤ c && c < 0x60
  | .acc => c == 0x60 || c == 0x61
  | .tileH => (0x50 ≤ c && c < 0x60) || c == 0xA2
  | .handle => c == 0xA2
  | .nv => isSc c || c == 0xA0
  | .scRgImm => isSc c || isRg c || c == 0xA0

/-! Type sets (R112, R137), as code lists. -/

def tyInt8 : List Nat := [0, 1, 2, 3, 4, 5, 6, 7]
def tyFlt2 : List Nat := [10, 11]
def tyMove : List Nat := [0, 1, 2, 3, 4, 5, 6, 7, 10, 11]
def tyAll12 : List Nat := [0, 1, 2, 3, 4, 5, 6, 7, 8, 9, 10, 11]
def tyINT : List Nat := [0, 1, 2, 4, 5, 6]
def tyFLT : List Nat := [8, 9, 10]
def tyNUM : List Nat := [0, 1, 2, 4, 5, 6, 8, 9, 10]
def tyBits : List Nat := [0, 1, 2, 3, 4, 5, 6, 7]
/-- The formats a tile, a block or a record may carry (R51). -/
def tyMatrix : List Nat := [0, 1, 8, 9, 10, 12, 13, 14, 15, 16, 17, 18]

/-! Form tables. -/

/-- What an S form uses of its layout: the three slots, the accepted TY codes (none: TY is reserved), RND, AS, PX,
the used bits of IMM and the transport. -/
structure SForm where
  a : OpSet := .unused
  b : OpSet := .unused
  c : OpSet := .unused
  ty : List Nat := []
  rnd : Bool := false
  as : Bool := false
  px : Bool := false
  imm : Nat := 0
  xport : Bool := true
  deriving DecidableEq, Repr

def immAll : Nat := 0xFFFFFFFF

/-- The S forms (R112 to R134). -/
def SOp.form : SOp → SForm
  | .add | .sub | .and | .or | .xor | .andn | .shl | .shr | .sar | .min | .max =>
    { a := .val, b := .val, ty := tyInt8, as := true, imm := immAll }
  | .sel => { a := .val, b := .val, c := .prd, ty := tyInt8, as := true, imm := immAll }
  | .li => { a := .val, ty := tyMove, as := true, imm := immAll }
  | .lih => { a := .hiImm, b := .val, as := true, imm := immAll }
  | .clz | .popc => { a := .val, ty := tyInt8, as := true, imm := immAll }
  | .ceq | .cne | .clt | .cle | .ctst => { a := .val, b := .val, ty := tyInt8, px := true, imm := immAll }
  | .fceq | .fclt | .fcle | .fcun => { a := .val, b := .val, ty := tyFlt2, px := true, imm := immAll }
  | .pand | .por | .pxor => { a := .prd, b := .prd, px := true }
  | .ppack => { a := .reg, b := .bank, as := true, imm := 7 }
  | .punpack => { a := .reg, b := .bank, imm := 7 }
  | .mul | .mulh => { a := .val, b := .val, ty := tyInt8, imm := immAll }
  | .mad => { a := .val, b := .val, c := .val, ty := tyInt8, imm := immAll }
  | .dp4 => { a := .val, b := .val, c := .val, ty := [0, 4], imm := immAll }
  | .fadd | .fsub | .fmul => { a := .val, b := .val, ty := tyFlt2, rnd := true, imm := immAll }
  | .fma => { a := .val, b := .val, c := .val, ty := tyFlt2, rnd := true, imm := immAll }
  | .fmin | .fmax => { a := .val, b := .val, ty := tyFlt2, as := true, imm := immAll }
  | .fabs | .fneg => { a := .val, ty := tyFlt2, as := true, imm := immAll }
  | .cvt => { a := .reg, ty := tyAll12, rnd := true, imm := 31 }
  | .lds | .ldg => { a := .reg, ty := tyAll12, px := true, imm := immAll }
  | .sts | .stg => { a := .reg, b := .reg, ty := tyAll12, px := true, imm := immAll }
  | .aadd | .axchg | .amax => { a := .reg, b := .val, ty := [2, 3, 6, 7], px := true, imm := immAll }
  | .acas => { a := .reg, b := .val, c := .val, ty := [2, 3, 6, 7], px := true, imm := immAll }
  | .fence => { imm := 0x7FFFF }
  | .waita => { a := .reg, b := .val, ty := [2, 3, 6, 7], px := true, imm := immAll }
  | .spl => { imm := immAll }
  | .sps => { a := .reg, imm := immAll }
  | .semadd => { imm := 0x1FFF }
  | .semrd => { as := true, imm := 0x1F00 }
  | .jmp => { imm := 0x3FFF }
  | .jmpr => { a := .reg }
  | .call => { imm := 0x3FFFFFFF }
  | .callr => { a := .reg, imm := 0x3FFFC000 }
  | .ret => { imm := 0 }
  | .lset => { a := .reg, b := .lcReg, imm := 7 }
  | .idem | .tret => { xport := false }
  | .mfc => { as := true, imm := 0x1FF }
  | .mtc => { a := .reg, imm := 0x1FF }
  | .setg => { a := .val, b := .val, c := .region, imm := immAll }
  | .sett => { a := .val, c := .tile, imm := immAll }
  | .swi => { imm := 0xFFFF }

/-- When RND is a used field of a V, F or D form. -/
inductive RndUse where
  | never | always | fltOrNe | ne
  deriving DecidableEq, Repr

/-- What a V, F or D form uses of its layout (R135 to R178). `sat` says that `.sat` is a form modifier, `elem` that
the form is element-wise, as R143 and R145 say, whose VX[0] is checked and not reserved. -/
structure VForm where
  a : OpSet := .unused
  b : OpSet := .unused
  c : OpSet := .unused
  d : OpSet := .region
  ty : List Nat := []
  rnd : RndUse := .never
  ne : Bool := false
  elem : Bool := false
  sat : Bool := false
  vx : Nat := 0
  deriving DecidableEq, Repr

/-- The V forms (R143 to R150). R147 states no operand set for the source of `vscan`: the model takes a region or a
scalar, as the element-wise forms do (DESIGN CHOICE, log entry 143). A `vx` of 0 makes VX[0] a reserved bit, `IL 5`, of the compares and of
`vsel` too, which stand outside R143's table with its `IL 6` (DESIGN CHOICE, log entry 169). -/
def VOp.form : VOp → VForm
  | .vadd | .vsub | .vmul =>
    { a := .sr, b := .sr, ty := tyNUM, rnd := .fltOrNe, ne := true, elem := true, sat := true, vx := 1 }
  | .vfma => { a := .sr, b := .sr, c := .sr, ty := tyFLT, rnd := .fltOrNe, ne := true, elem := true, vx := 1 }
  | .vmin | .vmax => { a := .sr, b := .sr, ty := tyNUM, elem := true, vx := 1 }
  | .vabs | .vneg => { a := .sr, ty := tyNUM, elem := true, sat := true, vx := 1 }
  | .vand | .vor | .vxor => { a := .sr, b := .sr, ty := tyBits, elem := true, vx := 1 }
  | .vshl | .vshr | .vsar => { a := .sr, b := .sr, ty := tyINT, elem := true, vx := 1 }
  | .vmov => { a := .sr, ty := tyAll12, elem := true, vx := 1 }
  | .vclamp => { a := .sr, b := .sr, c := .sr, ty := tyNUM, rnd := .fltOrNe, ne := true, elem := true, vx := 1 }
  | .vfill => { a := .sc, ty := tyAll12, elem := true, vx := 1 }
  | .vmad => { a := .sr, b := .sr, c := .sr, ty := tyINT, elem := true, sat := true, vx := 1 }
  | .viota => { a := .sc, b := .sc, ty := tyINT, elem := true, vx := 1 }
  | .vceq | .vcne | .vclt | .vcle => { a := .sr, b := .sr, ty := tyNUM }
  | .vcun => { a := .sr, b := .sr, ty := tyFLT }
  | .vsel => { a := .sr, b := .sr, c := .sr, ty := tyAll12 }
  | .vcvt => { a := .sr, ty := tyAll12, rnd := .always, ne := true, vx := 31 }
  | .vdp4 => { a := .region, b := .region, c := .sr, ty := [0, 4], elem := true, vx := 1 }
  | .vrsum => { a := .region, d := .qdRg, ty := tyNUM, rnd := .fltOrNe, ne := true }
  | .vrmax | .vrmin => { a := .region, d := .qdRg, ty := tyNUM }
  | .vrarg => { a := .region, d := .qdRg, ty := tyNUM, vx := 1 }
  | .vscan => { a := .sr, ty := tyNUM, rnd := .fltOrNe, ne := true }
  | .vperm | .vgthl => { a := .region, b := .region, ty := tyAll12 }
  | .vbcast => { a := .region, ty := tyAll12, vx := 0xFFFF }
  | .vrev => { a := .region, ty := tyAll12 }
  | .vqmax => { a := .region, d := .qd, ty := tyFLT, vx := 31 }
  | .vqcvt => { a := .region, b := .sc, ty := tyFLT, rnd := .always, vx := 31 }

/-- The F forms (R151 to R161). RND is used whenever NE = 1, also where the form accepts no NE (R151). -/
def FOp.form : FOp → VForm
  | .frcp | .fsqrt | .frnd => { a := .sr, d := .lfRg, ty := [10], rnd := .always, ne := true }
  | .frcpe | .frsqe | .fexp2 | .flog2 | .fsin | .fcos | .ftanh | .ferf =>
    { a := .sr, d := .lfRg, ty := [10], rnd := .ne, ne := true }
  | .fscl => { a := .sr, b := .sr, d := .lfRg, ty := [10], rnd := .always, ne := true }
  | .fxtrExp => { a := .sr, d := .lfRg, ty := [10], rnd := .ne }
  | .fxtrMan => { a := .sr, d := .lfRg, ty := [10], rnd := .ne, ne := true, vx := 1 }
  | .fcls => { a := .sr, d := .lfRg, ty := [10], rnd := .ne }
  | .fcvt => { a := .sr, d := .lfRg, ty := [2, 6, 8, 9, 10], rnd := .always, vx := 31 }
  | .fmov => { a := .sr, d := .lfRg, ty := [10], rnd := .ne }
  | .fsgn => { a := .sr, b := .sr, d := .lfRg, ty := [10], rnd := .ne, vx := 3 }
  | .fmag => { a := .sr, b := .srOpt, c := .srOpt, d := .lfRg, ty := [10], rnd := .ne, ne := true }

/-- The D forms (R168 to R178); TY, SUB, NE and NF are reserved, VX holds NL above DX. -/
def DOp.form : DOp → VForm
  | .dld => { a := .region, b := .sc, d := .dv, vx := 0x3F000 }
  | .dsto => { a := .dv, d := .region, vx := 0x3F000 }
  | .dadd | .dsub | .dmul | .dmax | .dmin => { a := .dv, b := .dv, d := .dvRg, vx := 0x3F000 }
  | .daff => { a := .dv, b := .sr, c := .sr, d := .dv, rnd := .always, vx := 0x3F000 }
  | .dmix => { a := .dv, b := .dv, c := .sr, d := .dv, vx := 0x3F000 }
  | .dsmp => { a := .region, b := .sc, c := .sc, d := .dv, vx := 0x3F3FF }
  | .dcond => { a := .region, b := .sc, d := .dv, vx := 0x3F000 }
  | .dmom => { a := .dv, d := .qdRg, rnd := .always, vx := 0x3F003 }
  | .dqnt => { a := .dv, b := .sr, d := .qdRg, vx := 0x3F000 }
  | .dlinSet => { b := .sc, d := .dv, vx := 0x3F001 }
  | .dlinGet => { a := .dv, d := .qd, vx := 0x3F001 }

/-- What an M form uses of its layout (R184 to R196). -/
structure MForm where
  a : OpSet := .unused
  b : OpSet := .unused
  c : OpSet := .unused
  d : OpSet := .unused
  mx : Nat := 0
  rnd : Bool := false
  hnd : Bool := false
  deriving DecidableEq, Repr

def MOp.form : MOp → MForm
  | .mmi | .mma | .gmmi | .gmma => { a := .tile, b := .tile, d := .acc }
  | .mmih | .mmah | .gmmih | .gmmah => { a := .tileH, b := .tileH, c := .sc, d := .acc, mx := 0x7F, hnd := true }
  | .mhad => { a := .tile, d := .tile, mx := 0xFF, rnd := true }
  | .mtrn => { a := .tile, d := .tile }
  | .mtcv => { a := .tile, d := .tile, rnd := true }
  | .mqnt => { a := .tile, b := .sc, d := .region, mx := 31, rnd := true }
  | .mhadq => { a := .tile, b := .sc, c := .sc, d := .region, mx := 0xFF, rnd := true }
  | .mdrb => { a := .acc, b := .sc, c := .sc, d := .region, mx := 31, rnd := true }
  | .mdrt => { a := .acc, d := .tile, mx := 7, rnd := true }
  | .mdrs => { a := .acc, d := .region, mx := 0x3F, rnd := true }
  | .mclr => { d := .acc, mx := 1 }
  | .macpCpy | .macpAdd => { a := .acc, d := .acc, mx := 1 }
  | .mtld => { a := .region, d := .tile }
  | .mtst => { a := .tile, d := .region }

/-- What a C form uses of its layout (R198): `flag` says that slot D carries the flag operand when FW = 1. -/
structure CForm where
  a : OpSet := .unused
  b : OpSet := .unused
  c : OpSet := .unused
  d : OpSet := .unused
  flag : Bool := false
  cx : Nat := 0
  imm : Bool := false
  oc : Bool := false
  ch : Bool := true
  deriving DecidableEq, Repr

def COp.form : COp → CForm
  | .cpy => { a := .sc, b := .sc, c := .nv, flag := true, imm := true, oc := true }
  | .cpt => { a := .tile, b := .handle, c := .sc, flag := true, cx := 0x3FF, imm := true, oc := true }
  | .cprm => { a := .sc, b := .sc, c := .sc, d := .sc, oc := true }
  | .gth | .sct => { a := .sc, b := .sc, c := .region, flag := true, cx := 7, imm := true, oc := true }
  | .wstr => { a := .tile, b := .sc, c := .nv, flag := true, cx := 0x3FF, imm := true, oc := true }
  | .cfill => { a := .sc, b := .nv, c := .nv, flag := true, imm := true, oc := true }
  | .hbind => { a := .sc, b := .nv, d := .qd, imm := true, oc := true }
  | .hfree => { a := .nv, imm := true }
  | .rowopn | .rowpin | .rowrel => { a := .sc }
  | .rowrd => { a := .sc, b := .sc, c := .nv, imm := true, oc := true, ch := false }
  | .rowwr => { a := .sc, b := .sc, c := .nv, flag := true, imm := true, oc := true }
  | .rowst => { a := .sc, d := .qd, ch := false }
  | .scnthr => { a := .nv, b := .nv, cx := 7, imm := true, ch := false }
  | .scngo => { a := .sc, b := .sc, c := .sc, flag := true, imm := true, oc := true }
  | .scnrd | .scnst => { a := .nv, d := .qd, imm := true, ch := false }
  | .scnstp => { a := .nv, imm := true, ch := false }

/-- The form of `cpf`, as that of `cpt` (R198). -/
def cpfForm : CForm := COp.form .cpt

/-- What an N form uses of its layout (R223). -/
structure NForm where
  a : OpSet := .unused
  b : OpSet := .unused
  c : OpSet := .unused
  d : OpSet := .unused
  nx : Nat := 0
  imm : Nat := 0
  oc : Bool := false
  scp : Bool := false
  deriving DecidableEq, Repr

def NOp.form : NOp → NForm
  | .nsnd | .xsnd => { a := .scRgImm, nx := 0xFF, imm := immAll, oc := true }
  | .nrcv | .xrcv => { d := .qdRg, nx := 0xFF }
  | .nput => { a := .nv, b := .sc, c := .nv, nx := 0xFF, imm := immAll, oc := true }
  | .nget => { a := .sc, b := .sc, c := .sc, nx := 0xFF, imm := 0xFF, oc := true }
  | .bar => { scp := true }
  | .bara => { d := .qdOpt, scp := true }
  | .barw => { a := .val, imm := immAll, scp := true }
  | .ared | .rscat => { a := .region, d := .region, nx := 3, oc := true, scp := true }
  | .agth => { a := .region, d := .region, oc := true, scp := true }
  | .bcst => { a := .region, d := .region, imm := 0xFFFF, oc := true, scp := true }
  | .xred => { a := .region, d := .region, nx := 3, oc := true }
  | .nflsh => { nx := 0 }
  | .nstat => { d := .qd, nx := 7, imm := 0xFF }

/-! The checks of R87 that the word alone decides. -/

/-- A failed check: `n` of class IL and its DETAIL. -/
structure DecErr where
  n : Nat
  detail : Nat
  deriving DecidableEq, Repr

/-- All ones in bits hi to lo. -/
def maskOf (hi lo : Nat) : Nat := (2 ^ (hi + 1 - lo) - 1) * 2 ^ lo

/-- The reserved mask of a condition. -/
def rsvIf (c : Bool) (hi lo : Nat) : Nat := if c then maskOf hi lo else 0

/-- The bits of a field `hi:lo` that a mask of used bits leaves out. -/
def rsvField (used hi lo : Nat) : Nat := (maskOf (hi - lo) 0 - (used &&& maskOf (hi - lo) 0)) * 2 ^ lo

/-- The first failing detail of a list. -/
def firstFail : List (Bool × Nat) → Option Nat
  | [] => none
  | (true, d) :: _ => some d
  | (false, _) :: r => firstFail r

/-- The reserved bits of the guard (R90): with GEN = 0, GNEG and GPR. -/
def rsvGuard (w : Nat) : Nat := rsvIf (bits w 87 87 == 0) 86 82

/-- IL 5 and IL 6 for a word whose reserved bits and failing fields are known. -/
def verdict (w rsv : Nat) (il6 : List (Bool × Nat)) : Option DecErr :=
  match lowestBit (w &&& rsv) 0 128 with
  | some b => some ⟨5, b⟩
  | none => (firstFail il6).map (DecErr.mk 6)

/-- IL 6 of an operand slot: a code outside the set. -/
def badSlot (s : OpSet) (c slot : Nat) : Bool × Nat := (s != .unused && !s.accepts c, slot)

/-- IL 6 of a RND field that the form uses. -/
def badRnd (used : Bool) (c : Nat) : Bool × Nat := (used && c ≥ 6, 7)

/-- The checks of an S word (R87, R109 to R134). -/
def checkS (op : SOp) (w : Nat) : Option DecErr :=
  let f := op.form
  let a := bits w 81 74; let b := bits w 73 66; let c := bits w 65 58
  let ty := bits w 57 53; let rnd := bits w 52 50; let xl := bits w 48 44
  let imm := bits w 31 0
  verdict w
    (rsvGuard w ||| rsvIf (f.a == .unused) 81 74 ||| rsvIf (f.b == .unused) 73 66 ||| rsvIf (f.c == .unused) 65 58
      ||| rsvIf (f.ty == []) 57 53 ||| rsvIf (!f.rnd) 52 50 ||| rsvIf (!f.as) 49 49
      ||| rsvIf (!f.xport) 48 44 ||| rsvIf (!f.xport || xl == 0) 43 39 ||| rsvIf (!f.px) 38 35 ||| maskOf 34 32
      ||| rsvField f.imm 31 0)
    [badSlot f.a a 0, badSlot f.b b 1, badSlot f.c c 2,
     (f.ty != [] && !f.ty.contains ty, 6), badRnd f.rnd rnd,
     ((match op with
       | .cvt => imm % 32 > 11
       | .fence => bits imm 18 16 == 7
       | .semadd | .semrd => bits imm 12 8 == 0
       | .lset => imm % 8 ≥ 6
       | .mfc | .mtc => !(imm < 0x20 || (0x100 ≤ imm && imm < 0x120))
       | _ => false), 8),
     (5 ≤ xl && xl < 16, 9)]

/-- Whether R137 lets a word of type `ty` narrow to `nf`. -/
def narrowOk (ty nf : Nat) : Bool :=
  match Ty.ofCode ty, Ty.ofCode nf with
  | some t, some n =>
    if t == .f32 then [8, 9, 12, 13, 14, 15, 16, 18].contains nf
    else if t == .f16 || t == .bf16 then [12, 13, 14, 15, 16, 18].contains nf
    else if t.isInt && tyINT.contains ty then n.isInt && n.width < t.width
    else false
  | _, _ => false

/-- The subfield formats of R138. -/
def subFormats : List Nat := [16, 17, 14, 15, 12, 13, 0, 4, 18]

/-- IL 6 DETAIL 8 of the selector SUB (R138, R145, R160): the named slot holds no region, the format is not listed, or
it does not go with TY. -/
def badSub (noSub fsclB : Bool) (a b c ty sub : Nat) : Bool :=
  let slot := bits sub 13 12
  let sf := bits sub 11 7
  let code := if slot == 1 then a else if slot == 2 then b else c
  let sfInt := sf == 17 || sf == 0 || sf == 4
  if slot == 0 then false
  else noSub || !isRg code || !subFormats.contains sf
    || (if fsclB && slot == 2 then !sfInt
        else if sfInt then !tyINT.contains ty else ty != 10)

/-- The reserved bits that every form of classes V and F shares. -/
def rsvV (f : VForm) (w : Nat) (rnd : Bool) : Nat :=
  let ne := bits w 27 27 == 1
  rsvGuard w ||| rsvIf (f.a == .unused) 81 74 ||| rsvIf (f.b == .unused) 73 66 ||| rsvIf (f.c == .unused) 65 58
    ||| rsvIf (!rnd) 44 42 ||| maskOf 34 33 ||| rsvIf (bits w 41 40 == 0) 41 28
    ||| rsvIf (!ne) 26 22 ||| rsvIf (bits w 21 21 == 0) 20 18 ||| rsvField f.vx 17 0

/-- Whether RND is a used field of the word. -/
def rndUsed (u : RndUse) (ty : Nat) (ne : Bool) : Bool :=
  match u with
  | .never => false
  | .always => true
  | .fltOrNe => ne || tyFLT.contains ty
  | .ne => ne

/-- The checks of a V word (R135 to R150). -/
def checkV (op : VOp) (w : Nat) : Option DecErr :=
  let f := op.form
  let a := bits w 81 74; let b := bits w 73 66; let c := bits w 65 58; let d := bits w 57 50
  let ty := bits w 49 45; let ne := bits w 27 27 == 1
  let vx := bits w 17 0
  let rnd := rndUsed f.rnd ty ne
  verdict w (rsvV f w rnd)
    [badSlot f.a a 0, badSlot f.b b 1, badSlot f.c c 2, badSlot f.d d 3,
     (!f.ty.contains ty || (ne && (!f.ne || !narrowOk ty (bits w 26 22))), 6), badRnd rnd (bits w 44 42),
     ((f.elem && vx % 2 == 1 && !(f.sat && tyINT.contains ty))
       || badSub (op == .vcvt) false a b c ty (bits w 41 28)
       || (match op with
           | .vcvt => vx % 32 > 18
           | .vqmax | .vqcvt => !tyMatrix.contains (vx % 32)
           | _ => false), 8)]

/-- The checks of an F word (R151 to R161). -/
def checkF (op : FOp) (w : Nat) : Option DecErr :=
  let f := op.form
  let a := bits w 81 74; let b := bits w 73 66; let c := bits w 65 58; let d := bits w 57 50
  let ty := bits w 49 45; let ne := bits w 27 27 == 1
  let vx := bits w 17 0
  let rnd := rndUsed f.rnd ty ne
  let latch := 0x30 ≤ d && d < 0x40
  verdict w (rsvV f w rnd)
    [badSlot f.a a 0, (latch && isRg a, 0), badSlot f.b b 1, (latch && isRg b, 1), badSlot f.c c 2,
     (latch && isRg c, 2), badSlot f.d d 3,
     (!f.ty.contains ty || (ne && (latch || !f.ne || !narrowOk ty (bits w 26 22))), 6), badRnd rnd (bits w 44 42),
     ((latch && (bits w 41 28 != 0 || bits w 21 21 == 1))
       || badSub (op == .fcvt) (op == .fscl) a b c ty (bits w 41 28)
       || (match op with
           | .fcvt => !([2, 6, 8, 9, 10].contains (vx % 32))
           | .fsgn => vx % 4 == 3
           | _ => false), 8)]

/-- The checks of a D word (R162 to R178). -/
def checkD (op : DOp) (w : Nat) : Option DecErr :=
  let f := op.form
  let a := bits w 81 74; let b := bits w 73 66; let c := bits w 65 58; let d := bits w 57 50
  let rnd := f.rnd == .always
  let lce := bits w 21 21 == 1
  let isLin := op == .dlinSet || op == .dlinGet
  let queue := d < 0x20
  verdict w
    (rsvGuard w ||| rsvIf (f.a == .unused) 81 74 ||| rsvIf (f.b == .unused) 73 66 ||| rsvIf (f.c == .unused) 65 58
      ||| maskOf 49 45 ||| rsvIf (!rnd) 44 42 ||| maskOf 41 22 ||| rsvIf (!lce) 20 18 ||| rsvField f.vx 17 0)
    [badSlot f.a a 0, badSlot f.b b 1, (op == .dqnt && queue && isRg b, 1), badSlot f.c c 2, badSlot f.d d 3,
     badRnd rnd (bits w 44 42),
     ((isLin && (bits w 17 12 != 0 || lce)) || ((op == .dmom || op == .dqnt) && queue && lce)
       || (op == .dsmp && bits w 9 0 == 0), 8)]

/-- The checks of an M word (R180 to R196). -/
def checkM (op : MOp) (w : Nat) : Option DecErr :=
  let f := op.form
  let a := bits w 81 74; let b := bits w 73 66; let c := bits w 65 58; let d := bits w 57 50
  let mx := bits w 49 42
  verdict w
    (rsvGuard w ||| rsvIf (f.a == .unused) 81 74 ||| rsvIf (f.b == .unused) 73 66 ||| rsvIf (f.c == .unused) 65 58
      ||| rsvIf (f.d == .unused) 57 50 ||| rsvField f.mx 49 42 ||| rsvIf (!f.rnd) 41 39 ||| maskOf 38 32
      ||| rsvIf (!f.hnd) 31 0)
    [badSlot f.a a 0, badSlot f.b b 1, (f.hnd && ((a == 0xA2) == (b == 0xA2)), 1), badSlot f.c c 2,
     badSlot f.d d 3, badRnd f.rnd (bits w 41 39),
     ((f.hnd && a == 0xA2 && mx % 128 > 63)
       || (match op with
           | .mhad | .mhadq => mx % 4 == 3
           | .mqnt | .mdrb => !tyMatrix.contains (mx % 32)
           | _ => false), 8)]

/-- The checks of a C word (R197 to R222). -/
def checkC (op : COp) (w : Nat) : Option DecErr :=
  let f := op.form
  let a := bits w 81 74; let b := bits w 73 66; let c := bits w 65 58; let d := bits w 57 50
  let fw := bits w 47 47 == 1
  let cx := bits w 42 32; let imm := bits w 31 0
  verdict w
    (rsvGuard w ||| rsvIf (f.a == .unused) 81 74 ||| rsvIf (f.b == .unused) 73 66 ||| rsvIf (f.c == .unused) 65 58
      ||| rsvIf (f.d == .unused && !(f.flag && fw)) 57 50 ||| rsvIf (!f.ch) 49 48 ||| rsvIf (!f.oc) 46 43
      ||| rsvField f.cx 42 32 ||| rsvIf (!f.imm) 31 0)
    [badSlot f.a a 0, badSlot f.b b 1, badSlot f.c c 2, badSlot f.d d 3, (f.flag && fw && !isSc d, 3),
     ((match op with
       | .cpt | .wstr => bits cx 9 7 ≥ 6
       | _ => false), 7),
     ((fw && !f.flag)
       || (match op with
           | .wstr => cx % 128 == 0 || cx % 128 > 124
           | .scnthr => cx % 8 ≥ 6
           | .scngo => imm > 65535
           | _ => false), 8)]

/-- The follow-on word of `cpf` (R98, R210): CLS 0x4, `mmi` or `mma`, tiles in A and B, an accumulator in D, GUARD and
the other header fields zero. -/
def followOn (w2 : Nat) : Option FollowOn :=
  let a := bits w2 81 74; let b := bits w2 73 66; let d := bits w2 57 50
  if h : a - 0x50 < 16 ∧ b - 0x50 < 16 ∧ d - 0x60 < 2 then
    if bits w2 127 124 = 4 ∧ (bits w2 95 88 = 1 ∨ bits w2 95 88 = 2) ∧ bits w2 123 96 = 0 ∧ bits w2 87 82 = 0
        ∧ 0x50 ≤ a ∧ 0x50 ≤ b ∧ 0x60 ≤ d then
      some ⟨bits w2 95 88 == 2, ⟨a - 0x50, h.1⟩, ⟨b - 0x50, h.2.1⟩, ⟨d - 0x60, h.2.2⟩⟩
    else none
  else none

/-- The checks of a `cpf` and of its follow-on word (R210). A reserved field of the follow-on word traps the `cpf`
with IL 5 and the follow-on word's bit number. -/
def checkCpf (w w2 : Nat) : Option DecErr :=
  match checkC .cpt w with
  | some e => some e
  | none =>
    match followOn w2 with
    | none => some ⟨6, 8⟩
    | some _ => checkM .mmi w2

/-- The checks of an N word (R223 to R233). -/
def checkN (op : NOp) (w : Nat) : Option DecErr :=
  let f := op.form
  let a := bits w 81 74; let b := bits w 73 66; let c := bits w 65 58; let d := bits w 57 50
  let scp := bits w 45 43; let nx := bits w 42 32
  verdict w
    (rsvGuard w ||| rsvIf (f.a == .unused) 81 74 ||| rsvIf (f.b == .unused) 73 66 ||| rsvIf (f.c == .unused) 65 58
      ||| rsvIf (f.d == .unused) 57 50 ||| rsvIf (!f.oc) 49 46 ||| rsvIf (!f.scp) 45 43 ||| rsvField f.nx 42 32
      ||| rsvField f.imm 31 0)
    [badSlot f.a a 0, badSlot f.b b 1, badSlot f.c c 2, badSlot f.d d 3,
     ((f.scp && (scp == 7 || scp == 5))
       || (match op with
           | .ared | .rscat | .xred => nx % 4 == 3
           | .nstat => nx ≥ 4
           | _ => false), 8)]

/-- Bit 0 of the loop field's TARGET and its reserved part (R259): LF is IMM, VX or HND of the class. -/
def checkLoop (e : Cls) (rot : Bool) (w : Nat) : Option DecErr :=
  let used := if rot then 0x1FFFF else 0x3FFF
  let lf := match e with
    | .v | .f | .d => rsvField used 17 0 ||| maskOf 49 18
    | .s => rsvField used 31 0 ||| rsvIf (bits w 48 44 == 0) 43 39 ||| maskOf 57 49 ||| maskOf 38 32
    | .m | .c | .n => rsvField used 31 0 ||| maskOf 49 32
  let slots := if e == .s then maskOf 73 58 else maskOf 73 50
  verdict w (rsvGuard w ||| slots ||| lf)
    [badSlot .lcReg (bits w 81 74) 0, (e == .s && 5 ≤ bits w 48 44 && bits w 48 44 < 16, 9)]

/-- The checks of `nop` and `halt` (R99): the body is reserved but for the guard. -/
def checkNop (w : Nat) : Option DecErr := verdict w (rsvGuard w ||| maskOf 81 0) []

end Sys2Proof
end

