-- ==== Sys2Proof/WellFormed.lean ====
section
/-! DEFINITION. Well-formed instructions: every field of a word holds what its form accepts (R87 to R99 and the form
tables of the class chapters), a stick-code branch has a nonzero distance (R307). Events carry plain numbers and are
well formed. -/

set_option linter.unusedVariables false

namespace Sys2Proof

open Sys2Proof.Machine

/-- A mask covers a field value: no bit outside the form's used bits. -/
def covers (used x : Nat) : Bool := x &&& used == x

/-- A type field: one the form accepts, or the code 0 where the form has none. -/
def tyOk (l : List Nat) (t : Ty) : Bool := if l == [] then t == .i8 else l.contains t.code

/-- A rounding field: free where the form uses it, zero otherwise. -/
def rndOk (used : Bool) (r : Rnd) : Bool := used || r == .rne

def SBody.wf (op : SOp) (b : SBody) : Bool :=
  let f := op.form
  let imm := b.imm.toNat
  f.a.accepts b.a.code && f.b.accepts b.b.code && f.c.accepts b.c.code && tyOk f.ty b.ty && rndOk f.rnd b.rnd
    && (f.as || !b.as) && (f.px || b.px.val == 0) && covers f.imm imm && (f.xport || b.xl == .none)
    && (b.xl != .none || b.xq.val == 0)
    && (match op with
        | .cvt => imm ≤ 11
        | .fence => bits imm 18 16 != 7
        | .semadd | .semrd => bits imm 12 8 != 0
        | .lset => imm < 6
        | .mfc | .mtc => imm < 0x20 || (0x100 ≤ imm && imm < 0x120)
        | _ => true)

/-- The fields that classes V and F share. -/
def VBody.wf (f : VForm) (b : VBody) : Bool :=
  f.a.accepts b.a.code && f.b.accepts b.b.code && f.c.accepts b.c.code && f.d.accepts b.d.code && tyOk f.ty b.ty
    && rndOk (rndUsed f.rnd b.ty.code b.ne) b.rnd && covers f.vx b.vx.toNat
    && (if b.ne then f.ne && narrowOk b.ty.code b.nf.code else b.nf == .i8) && (b.lce || b.lcn.val == 0)
    && bits b.sub.toNat 6 5 == 0 && (bits b.sub.toNat 13 12 != 0 || b.sub.toNat == 0)

def VBody.wfV (op : VOp) (b : VBody) : Bool :=
  let f := op.form
  let vx := b.vx.toNat
  VBody.wf f b
    && !(f.elem && vx % 2 == 1 && !(f.sat && tyINT.contains b.ty.code))
    && !badSub (op == .vcvt) false b.a.code b.b.code b.c.code b.ty.code b.sub.toNat
    && (match op with
        | .vcvt => vx % 32 ≤ 18
        | .vqmax | .vqcvt => tyMatrix.contains (vx % 32)
        | _ => true)

def VBody.wfF (op : FOp) (b : VBody) : Bool :=
  let f := op.form
  let vx := b.vx.toNat
  let latch := !isRg b.d.code
  VBody.wf f b
    && !(latch && (isRg b.a.code || isRg b.b.code || isRg b.c.code || b.sub.toNat != 0 || b.lce || b.ne))
    && !badSub (op == .fcvt) (op == .fscl) b.a.code b.b.code b.c.code b.ty.code b.sub.toNat
    && (match op with
        | .fcvt => [2, 6, 8, 9, 10].contains (vx % 32)
        | .fsgn => vx % 4 != 3
        | .fxtrMan => vx % 2 == 1
        | .fxtrExp => vx % 2 == 0
        | _ => true)

def VBody.wfD (op : DOp) (b : VBody) : Bool :=
  let f := op.form
  let vx := b.vx.toNat
  let queue := b.d.code < 0x20
  f.a.accepts b.a.code && f.b.accepts b.b.code && f.c.accepts b.c.code && f.d.accepts b.d.code && b.ty == .i8
    && rndOk (f.rnd == .always) b.rnd && covers f.vx vx && b.sub.toNat == 0 && !b.ne && b.nf == .i8
    && (b.lce || b.lcn.val == 0)
    && (match op with
        | .dlinSet => vx % 2 == 0 && bits vx 17 12 == 0 && !b.lce
        | .dlinGet => vx % 2 == 1 && bits vx 17 12 == 0 && !b.lce
        | .dmom => !(queue && b.lce)
        | .dqnt => !(queue && b.lce) && !(queue && isRg b.b.code)
        | .dsmp => bits vx 9 0 != 0
        | _ => true)

def MBody.wf (op : MOp) (b : MBody) : Bool :=
  let f := op.form
  let mx := b.mx.toNat
  f.a.accepts b.a.code && f.b.accepts b.b.code && f.c.accepts b.c.code && f.d.accepts b.d.code
    && covers f.mx mx && rndOk f.rnd b.rnd && (f.hnd || b.hnd.toNat == 0)
    && (!f.hnd || ((b.a == .handle) != (b.b == .handle))) && !(f.hnd && b.a == .handle && mx % 128 > 63)
    && (match op with
        | .mhad | .mhadq => mx % 4 != 3
        | .mqnt | .mdrb => tyMatrix.contains (mx % 32)
        | .macpCpy => mx % 2 == 0
        | .macpAdd => mx % 2 == 1
        | _ => true)

/-- The C forms' fields; `cpt` stands for `cpf` too. -/
def CBody.wf (op : COp) (b : CBody) : Bool :=
  let f := op.form
  let cx := b.cx.toNat
  f.a.accepts b.a.code && f.b.accepts b.b.code && f.c.accepts b.c.code
    && (if f.flag && b.fw then isSc b.d.code else f.d.accepts b.d.code) && (f.flag || !b.fw)
    && (f.ch || b.ch.val == 0) && (f.oc || b.oc.val == 0) && covers f.cx cx && (f.imm || b.imm.toNat == 0)
    && (match op with
        | .cpt => bits cx 9 7 < 6
        | .wstr => bits cx 9 7 < 6 && cx % 128 != 0 && cx % 128 ≤ 124
        | .scnthr => cx % 8 < 6
        | .scngo => b.imm.toNat ≤ 65535
        | _ => true)

def NBody.wf (op : NOp) (b : NBody) : Bool :=
  let f := op.form
  let nx := b.nx.toNat
  f.a.accepts b.a.code && f.b.accepts b.b.code && f.c.accepts b.c.code && f.d.accepts b.d.code
    && (f.oc || b.oc.val == 0) && covers f.nx nx && covers f.imm b.imm.toNat
    && (if f.scp then b.scp != .pod else b.scp == .lane)
    && (match op with
        | .ared | .rscat | .xred => nx % 4 != 3
        | .nstat => nx < 4
        | _ => true)

/-- A back-edge word's fields (R259). -/
def LoopBody.wf (e : Cls) (rot : Bool) (l : LoopBody) : Bool :=
  (rot || l.stg.val == 0) && (e == .s || l.xl == .none) && (l.xl != .none || l.xq.val == 0)

/-- Well-formedness of a word. -/
def View.wf : View → Bool
  | .s op h b => b.wf op
  | .v op h b => b.wfV op
  | .f op h b => b.wfF op
  | .d op h b => b.wfD op
  | .m op h b => b.wf op
  | .c op h b => b.wf op
  | .cpf h b fo => b.wf .cpt
  | .n op h b => b.wf op
  | .nop e h g => true
  | .halt e h g => true
  | .lbr e h l => l.wf e false
  | .rlbr e h l => l.wf e true
  | .brk h code => true

/-- Well-formedness of stick-code words (R307): a branch distance is at least 1. -/
def Instr.stickWf : Instr → Bool
  | .stickBz _ i | .stickBnz _ i | .stickLoop _ i => i.toNat ≥ 1
  | .stickBltu _ _ o => o.toNat ≥ 1
  | _ => true

/-- A well-formed instruction. -/
def Instr.WellFormed (i : Instr) : Prop :=
  match i.view with
  | some v => v.wf = true
  | none => i.stickWf = true

end Sys2Proof
end

