-- ==== Sys2Proof/Decode.lean ====
section
/-! DEFINITION. The decoder of the 128-bit words (R86 to R101, R259), total on any words and rejecting by the trap
that R87 names, the decoder of stick-code words (R307), and after them the encoder. -/

set_option linter.unusedVariables false

namespace Sys2Proof

open Sys2Proof.Machine

/-! Layouts, most significant field first (R86, R91 to R96). -/

/-- Header: CLS, IDLE, SWAIT, SPOST, TRK, PEEK, OP. -/
def hdrLayout : List Nat := [4, 10, 5, 5, 4, 4, 8]
/-- GUARD A B C TY RND AS XL XQ PX RSV IMM (R91). -/
def sLayout : List Nat := [6, 8, 8, 8, 5, 3, 1, 5, 5, 4, 3, 32]
/-- GUARD A B C D TY RND SUB NE NF LCE LCN VX (R93). -/
def vLayout : List Nat := [6, 8, 8, 8, 8, 5, 3, 14, 1, 5, 1, 3, 18]
/-- GUARD A B C D MX RND RSV HND (R94). -/
def mLayout : List Nat := [6, 8, 8, 8, 8, 8, 3, 7, 32]
/-- GUARD A B C D CH FW OC CX IMM (R95). -/
def cLayout : List Nat := [6, 8, 8, 8, 8, 2, 1, 4, 11, 32]
/-- GUARD A B C D OC SCP NX IMM (R96). -/
def nLayout : List Nat := [6, 8, 8, 8, 8, 4, 3, 11, 32]
/-- CODE of the break word below its reserved bits (R97). -/
def bLayout : List Nat := [72, 16]

/-- The back-edge words' layouts, LF cut into its reserved part, STG and TARGET (R259). -/
def loopLayout : Cls → List Nat
  | .s => [6, 8, 8, 8, 5, 3, 1, 5, 5, 4, 3, 15, 3, 14]
  | .v | .f | .d => [6, 8, 8, 8, 8, 32, 1, 3, 14]
  | .m | .c | .n => [6, 8, 8, 8, 8, 18, 15, 3, 14]

/-! Reading the fields. -/

def fin (n x : Nat) [NeZero n] : Fin n := Fin.ofNat n x

def Hdr.ofFields (idle swait spost trk peek : Nat) : Hdr :=
  ⟨BitVec.ofNat 10 idle, fin 32 swait, fin 32 spost, fin 16 trk, peek / 8 % 2 == 1, peek / 4 % 2 == 1,
    peek / 2 % 2 == 1, peek % 2 == 1⟩

/-- The S body of a word. -/
def SBody.ofWord (w : Nat) : Option SBody :=
  match unpackFields sLayout (bits w 87 0) with
  | [g, a, b, c, ty, rnd, as, xl, xq, px, _, imm] => do
    let a ← Opd.ofCode a
    let b ← Opd.ofCode b
    let c ← Opd.ofCode c
    let ty ← Ty.ofCode ty
    let rnd ← Rnd.ofCode rnd
    let xl ← XLatch.ofCode xl
    some ⟨Guard.ofCode g, a, b, c, ty, rnd, as == 1, xl, fin 32 xq, fin 16 px, BitVec.ofNat 32 imm⟩
  | _ => none

def VBody.ofWord (w : Nat) : Option VBody :=
  match unpackFields vLayout (bits w 87 0) with
  | [g, a, b, c, d, ty, rnd, sub, ne, nf, lce, lcn, vx] => do
    let a ← Opd.ofCode a
    let b ← Opd.ofCode b
    let c ← Opd.ofCode c
    let d ← Opd.ofCode d
    let ty ← Ty.ofCode ty
    let rnd ← Rnd.ofCode rnd
    let nf ← Ty.ofCode nf
    some ⟨Guard.ofCode g, a, b, c, d, ty, rnd, BitVec.ofNat 14 sub, ne == 1, nf, lce == 1, fin 8 lcn,
      BitVec.ofNat 18 vx⟩
  | _ => none

def MBody.ofWord (w : Nat) : Option MBody :=
  match unpackFields mLayout (bits w 87 0) with
  | [g, a, b, c, d, mx, rnd, _, hnd] => do
    let a ← Opd.ofCode a
    let b ← Opd.ofCode b
    let c ← Opd.ofCode c
    let d ← Opd.ofCode d
    let rnd ← Rnd.ofCode rnd
    some ⟨Guard.ofCode g, a, b, c, d, BitVec.ofNat 8 mx, rnd, BitVec.ofNat 32 hnd⟩
  | _ => none

def CBody.ofWord (w : Nat) : Option CBody :=
  match unpackFields cLayout (bits w 87 0) with
  | [g, a, b, c, d, ch, fw, oc, cx, imm] => do
    let a ← Opd.ofCode a
    let b ← Opd.ofCode b
    let c ← Opd.ofCode c
    let d ← Opd.ofCode d
    some ⟨Guard.ofCode g, a, b, c, d, fin 4 ch, fw == 1, fin 16 oc, BitVec.ofNat 11 cx, BitVec.ofNat 32 imm⟩
  | _ => none

def NBody.ofWord (w : Nat) : Option NBody :=
  match unpackFields nLayout (bits w 87 0) with
  | [g, a, b, c, d, oc, scp, nx, imm] => do
    let a ← Opd.ofCode a
    let b ← Opd.ofCode b
    let c ← Opd.ofCode c
    let d ← Opd.ofCode d
    let scp ← Scope.ofCode scp
    some ⟨Guard.ofCode g, a, b, c, d, fin 16 oc, scp, BitVec.ofNat 11 nx, BitVec.ofNat 32 imm⟩
  | _ => none

def LoopBody.ofWord (e : Cls) (w : Nat) : Option LoopBody :=
  match e, unpackFields (loopLayout e) (bits w 87 0) with
  | .s, [g, a, _, _, _, _, _, xl, xq, _, _, _, stg, tgt] => do
    let xl ← XLatch.ofCode xl
    some ⟨Guard.ofCode g, fin 8 a, BitVec.ofNat 14 tgt, fin 8 stg, xl, fin 32 xq⟩
  | _, [g, a, _, _, _, _, _, stg, tgt] =>
    some ⟨Guard.ofCode g, fin 8 a, BitVec.ofNat 14 tgt, fin 8 stg, .none, fin 32 0⟩
  | _, _ => none

/-! Opcodes (R99, R100). `dlin`, `fxtr` and `macp` are one opcode each, told apart by the low bit of DX, VX or MX. -/

def SOp.ofCode (c : Nat) : Option SOp := SOp.all.find? fun o => o.code == c
def VOp.ofCode (c : Nat) : Option VOp := VOp.all.find? fun o => o.code == c
def COp.ofCode (c : Nat) : Option COp := COp.all.find? fun o => o.code == c
def NOp.ofCode (c : Nat) : Option NOp := NOp.all.find? fun o => o.code == c

def FOp.ofCode (c sel : Nat) : Option FOp :=
  if c = 0x0C then some (if sel = 0 then .fxtrExp else .fxtrMan) else FOp.all.find? fun o => o.code == c
def DOp.ofCode (c sel : Nat) : Option DOp :=
  if c = 0x0E then some (if sel = 0 then .dlinSet else .dlinGet) else DOp.all.find? fun o => o.code == c
def MOp.ofCode (c sel : Nat) : Option MOp :=
  if c = 0x13 then some (if sel = 0 then .macpCpy else .macpAdd) else MOp.all.find? fun o => o.code == c

/-- The value read, if the checks passed. -/
def reading (chk : Option DecErr) (v : Option View) : Except DecErr View :=
  match chk, v with
  | some e, _ => .error e
  | none, some x => .ok x
  | none, none => .error ⟨6, 0⟩

/-- IL 4 for an opcode the class does not assign (R87). -/
def withOp {α : Type} (op : Nat) (o : Option α) (k : α → Except DecErr View) : Except DecErr View :=
  match o with
  | some x => k x
  | none => .error ⟨4, op⟩

/-- A word of class `e`, opcode `op`; `w2` is the next word of the ring, read by `cpf` alone (R98). -/
def decodeClass (e : Cls) (h : Hdr) (op w w2 : Nat) : Except DecErr View :=
  if op = 0 then reading (checkNop w) (some (.nop e h (Guard.ofCode (bits w 87 82))))
  else if op = 0xFF then reading (checkNop w) (some (.halt e h (Guard.ofCode (bits w 87 82))))
  else if op = 0xFE then reading (checkLoop e false w) ((LoopBody.ofWord e w).map (.lbr e h))
  else if op = 0xFD then reading (checkLoop e true w) ((LoopBody.ofWord e w).map (.rlbr e h))
  else match e with
    | .s => withOp op (SOp.ofCode op) fun o => reading (checkS o w) ((SBody.ofWord w).map (.s o h))
    | .v => withOp op (VOp.ofCode op) fun o => reading (checkV o w) ((VBody.ofWord w).map (.v o h))
    | .f => withOp op (FOp.ofCode op (w % 2)) fun o => reading (checkF o w) ((VBody.ofWord w).map (.f o h))
    | .d => withOp op (DOp.ofCode op (w % 2)) fun o => reading (checkD o w) ((VBody.ofWord w).map (.d o h))
    | .m => withOp op (MOp.ofCode op (bits w 42 42)) fun o => reading (checkM o w) ((MBody.ofWord w).map (.m o h))
    | .c =>
      if op = 3 then
        reading (checkCpf w w2) (match CBody.ofWord w, followOn w2 with
          | some b, some fo => some (.cpf h b fo)
          | _, _ => none)
      else withOp op (COp.ofCode op) fun o => reading (checkC o w) ((CBody.ofWord w).map (.c o h))
    | .n => withOp op (NOp.ofCode op) fun o => reading (checkN o w) ((NBody.ofWord w).map (.n o h))

/-- Checks 1 to 3 of R87 and the class (R86): the class a queue accepts. -/
def decodeView (e : Eng) (w w2 : Nat) : Except DecErr View :=
  match unpackFields hdrLayout (bits w 127 88) with
  | [cls, idle, swait, spost, trk, peek, op] =>
    let h := Hdr.ofFields idle swait spost trk peek
    if cls = 0 then .error ⟨1, 0⟩
    else if cls = 15 then
      if op ≠ 0 then .error ⟨4, op⟩
      else reading (verdict w (maskOf 87 16) []) (some (.brk h (BitVec.ofNat 16 (w % 65536))))
    else match Cls.ofCode cls with
      | none => .error ⟨2, cls⟩
      | some c => if c.eng = e then decodeClass c h op w w2 else .error ⟨3, cls⟩
  | _ => .error ⟨1, 0⟩

/-- The instruction that queue `e` reads in word `w`, `w2` being the next word of its ring (R87, R98). -/
def decodeWord (e : Eng) (w w2 : Nat) : Except DecErr Instr := (decodeView e w w2).map View.instr

/-- How many ring positions the instruction takes (R98): `cpf` takes two. -/
def Instr.words : Instr → Nat
  | .cpf _ _ _ => 2
  | _ => 1

/-- The decoder over bytes, lowest address first: the instruction and the bytes after it. Fewer bytes than an
instruction has are refused as IL 1, DETAIL 0: the ring has no such word. -/
def decodeBytes (e : Eng) (bs : List Byte) : Except DecErr (Instr × List Byte) :=
  if bs.length < 16 then .error ⟨1, 0⟩
  else match decodeWord e (leNat (bs.take 16)) (leNat ((bs.drop 16).take 16)) with
    | .ok i => .ok (i, bs.drop (16 * i.words))
    | .error x => .error x

/-! Stick-code words (R307). -/

def rLayout : List Nat := [5, 4, 4, 4, 15]
def iLayout : List Nat := [5, 4, 4, 19]
def kLayout : List Nat := [5, 4, 4, 2, 17]

/-- The stick-code instruction of a 32-bit word; none where OP is unassigned, a reserved field is nonzero, or a branch
distance is 0 (R307, R308). -/
def decodeStick (w : Nat) : Option Instr :=
  match unpackFields iLayout (w % 2 ^ 32), unpackFields rLayout (w % 2 ^ 32), unpackFields kLayout (w % 2 ^ 32) with
  | [op, d, a, imm], [_, _, _, b, rsv], [_, _, _, win, off] =>
    let xd := fin 16 d; let xa := fin 16 a; let xb := fin 16 b
    let i19 := BitVec.ofNat 19 imm
    let rrr := fun (f : Fin 16 → Fin 16 → Fin 16 → Instr) => if rsv = 0 then some (f xd xa xb) else none
    match op with
    | 0x01 => if d = 0 ∧ a = 0 ∧ imm = 0 then some .stickEnd else none
    | 0x02 => if a = 0 then some (.stickLi xd i19) else none
    | 0x03 => some (.stickLhi xd xa i19)
    | 0x04 => rrr .stickAdd
    | 0x05 => some (.stickAddi xd xa i19)
    | 0x06 => rrr .stickSub
    | 0x07 => rrr .stickAnd
    | 0x08 => rrr .stickOr
    | 0x09 => rrr .stickXor
    | 0x0A => if imm < 64 then some (.stickShl xd xa (BitVec.ofNat 6 imm)) else none
    | 0x0B => if imm < 64 then some (.stickShr xd xa (BitVec.ofNat 6 imm)) else none
    | 0x0C => rrr .stickMul
    | 0x0D => rrr .stickDivu
    | 0x0E => rrr .stickMinu
    | 0x0F => rrr .stickMaxu
    | 0x10 => some (.stickLd xd xa (fin 4 win) (BitVec.ofNat 17 off))
    | 0x11 => some (.stickSt xd xa (fin 4 win) (BitVec.ofNat 17 off))
    | 0x12 => if a = 0 ∧ imm < 16 then some (.stickLrd xd (fin 16 imm)) else none
    | 0x13 => if d = 0 ∧ imm < 16 then some (.stickLwr xa (fin 16 imm)) else none
    | 0x14 => if d = 0 ∧ imm ≠ 0 then some (.stickBz xa i19) else none
    | 0x15 => if d = 0 ∧ imm ≠ 0 then some (.stickBnz xa i19) else none
    | 0x16 => if d = 0 ∧ rsv ≠ 0 then some (.stickBltu xa xb (BitVec.ofNat 15 rsv)) else none
    | 0x17 => if d = 0 ∧ imm ≠ 0 then some (.stickLoop xa i19) else none
    | 0x18 => if d = 0 ∧ a = 0 ∧ imm = 0 then some .stickCancel else none
    | 0x19 => if d = 0 ∧ imm = 0 then some (.stickRept xa) else none
    | 0x1A => if a = 0 ∧ imm = 0 then some (.stickClk xd) else none
    | _ => none
  | _, _, _ => none

/-! The encoder, from the same layouts. -/

def b1 (b : Bool) : Nat := if b then 1 else 0

/-- The header above a body of 88 bits (R86). -/
def Hdr.pack (h : Hdr) (cls op body : Nat) : Nat :=
  packFields [(4, cls), (10, h.idle.toNat), (5, h.swait.val), (5, h.spost.val), (4, h.trk.val),
    (4, 8 * b1 h.peekA + 4 * b1 h.peekB + 2 * b1 h.peekC + b1 h.peekD), (8, op)] * 2 ^ 88 + body

def SBody.pack (b : SBody) : Nat :=
  packFields [(6, b.g.code), (8, b.a.code), (8, b.b.code), (8, b.c.code), (5, b.ty.code), (3, b.rnd.code),
    (1, b1 b.as), (5, b.xl.code), (5, b.xq.val), (4, b.px.val), (3, 0), (32, b.imm.toNat)]

def VBody.pack (b : VBody) : Nat :=
  packFields [(6, b.g.code), (8, b.a.code), (8, b.b.code), (8, b.c.code), (8, b.d.code), (5, b.ty.code),
    (3, b.rnd.code), (14, b.sub.toNat), (1, b1 b.ne), (5, b.nf.code), (1, b1 b.lce), (3, b.lcn.val),
    (18, b.vx.toNat)]

def MBody.pack (b : MBody) : Nat :=
  packFields [(6, b.g.code), (8, b.a.code), (8, b.b.code), (8, b.c.code), (8, b.d.code), (8, b.mx.toNat),
    (3, b.rnd.code), (7, 0), (32, b.hnd.toNat)]

def CBody.pack (b : CBody) : Nat :=
  packFields [(6, b.g.code), (8, b.a.code), (8, b.b.code), (8, b.c.code), (8, b.d.code), (2, b.ch.val),
    (1, b1 b.fw), (4, b.oc.val), (11, b.cx.toNat), (32, b.imm.toNat)]

def NBody.pack (b : NBody) : Nat :=
  packFields [(6, b.g.code), (8, b.a.code), (8, b.b.code), (8, b.c.code), (8, b.d.code), (4, b.oc.val),
    (3, b.scp.code), (11, b.nx.toNat), (32, b.imm.toNat)]

def LoopBody.pack (e : Cls) (l : LoopBody) : Nat :=
  match e with
  | .s => packFields [(6, l.g.code), (8, 0x90 + l.lc.val), (8, 0), (8, 0), (5, 0), (3, 0), (1, 0), (5, l.xl.code),
      (5, l.xq.val), (4, 0), (3, 0), (15, 0), (3, l.stg.val), (14, l.target.toNat)]
  | .v | .f | .d => packFields [(6, l.g.code), (8, 0x90 + l.lc.val), (8, 0), (8, 0), (8, 0), (32, 0), (1, 0),
      (3, l.stg.val), (14, l.target.toNat)]
  | .m | .c | .n => packFields [(6, l.g.code), (8, 0x90 + l.lc.val), (8, 0), (8, 0), (8, 0), (18, 0), (15, 0),
      (3, l.stg.val), (14, l.target.toNat)]

/-- The follow-on matrix word (R210). -/
def FollowOn.word (f : FollowOn) : Nat :=
  packFields [(4, 4), (28, 0), (8, if f.mma then 2 else 1), (6, 0), (8, 0x50 + f.ta.val), (8, 0x50 + f.tb.val),
    (8, 0), (8, 0x60 + f.acc.val), (50, 0)]

/-- The guard alone above a reserved body (R99). -/
def Guard.pack (g : Guard) : Nat := g.code * 2 ^ 82

/-- The words of an instruction word. -/
def View.words : View → List Nat
  | .s op h b => [h.pack 1 op.code b.pack]
  | .v op h b => [h.pack 2 op.code b.pack]
  | .f op h b => [h.pack 3 op.code b.pack]
  | .d op h b => [h.pack 7 op.code b.pack]
  | .m op h b => [h.pack 4 op.code b.pack]
  | .c op h b => [h.pack 5 op.code b.pack]
  | .cpf h b fo => [h.pack 5 3 b.pack, fo.word]
  | .n op h b => [h.pack 6 op.code b.pack]
  | .nop e h g => [h.pack e.code 0 g.pack]
  | .halt e h g => [h.pack e.code 0xFF g.pack]
  | .lbr e h l => [h.pack e.code 0xFE (l.pack e)]
  | .rlbr e h l => [h.pack e.code 0xFD (l.pack e)]
  | .brk h code => [h.pack 15 0 code.toNat]

/-- The queue a word belongs to: the break word stands for every queue (R97), here S. -/
def View.eng : View → Eng
  | .s _ _ _ => .s | .v _ _ _ => .v | .f _ _ _ => .f | .d _ _ _ => .v | .m _ _ _ => .m | .c _ _ _ => .c
  | .cpf _ _ _ => .c | .n _ _ _ => .n | .nop e _ _ => e.eng | .halt e _ _ => e.eng | .lbr e _ _ => e.eng
  | .rlbr e _ _ => e.eng | .brk _ _ => .s

/-- The stick-code word of an instruction (R307). -/
def encodeStick : Instr → Option Nat
  | .stickEnd => some (0x01 * 2 ^ 27)
  | .stickLi d i => some (packFields [(5, 0x02), (4, d.val), (4, 0), (19, i.toNat)])
  | .stickLhi d a i => some (packFields [(5, 0x03), (4, d.val), (4, a.val), (19, i.toNat)])
  | .stickAdd d a b => some (packFields [(5, 0x04), (4, d.val), (4, a.val), (4, b.val), (15, 0)])
  | .stickAddi d a i => some (packFields [(5, 0x05), (4, d.val), (4, a.val), (19, i.toNat)])
  | .stickSub d a b => some (packFields [(5, 0x06), (4, d.val), (4, a.val), (4, b.val), (15, 0)])
  | .stickAnd d a b => some (packFields [(5, 0x07), (4, d.val), (4, a.val), (4, b.val), (15, 0)])
  | .stickOr d a b => some (packFields [(5, 0x08), (4, d.val), (4, a.val), (4, b.val), (15, 0)])
  | .stickXor d a b => some (packFields [(5, 0x09), (4, d.val), (4, a.val), (4, b.val), (15, 0)])
  | .stickShl d a n => some (packFields [(5, 0x0A), (4, d.val), (4, a.val), (19, n.toNat)])
  | .stickShr d a n => some (packFields [(5, 0x0B), (4, d.val), (4, a.val), (19, n.toNat)])
  | .stickMul d a b => some (packFields [(5, 0x0C), (4, d.val), (4, a.val), (4, b.val), (15, 0)])
  | .stickDivu d a b => some (packFields [(5, 0x0D), (4, d.val), (4, a.val), (4, b.val), (15, 0)])
  | .stickMinu d a b => some (packFields [(5, 0x0E), (4, d.val), (4, a.val), (4, b.val), (15, 0)])
  | .stickMaxu d a b => some (packFields [(5, 0x0F), (4, d.val), (4, a.val), (4, b.val), (15, 0)])
  | .stickLd d a w o => some (packFields [(5, 0x10), (4, d.val), (4, a.val), (2, w.val), (17, o.toNat)])
  | .stickSt d a w o => some (packFields [(5, 0x11), (4, d.val), (4, a.val), (2, w.val), (17, o.toNat)])
  | .stickLrd d i => some (packFields [(5, 0x12), (4, d.val), (4, 0), (19, i.val)])
  | .stickLwr a i => some (packFields [(5, 0x13), (4, 0), (4, a.val), (19, i.val)])
  | .stickBz a i => some (packFields [(5, 0x14), (4, 0), (4, a.val), (19, i.toNat)])
  | .stickBnz a i => some (packFields [(5, 0x15), (4, 0), (4, a.val), (19, i.toNat)])
  | .stickBltu a b o => some (packFields [(5, 0x16), (4, 0), (4, a.val), (4, b.val), (15, o.toNat)])
  | .stickLoop a i => some (packFields [(5, 0x17), (4, 0), (4, a.val), (19, i.toNat)])
  | .stickCancel => some (0x18 * 2 ^ 27)
  | .stickRept a => some (packFields [(5, 0x19), (4, 0), (4, a.val), (19, 0)])
  | .stickClk d => some (packFields [(5, 0x1A), (4, d.val), (4, 0), (19, 0)])
  | _ => none

/-- The words of an instruction: one or two 128-bit words, or one stick-code word; an event has none. -/
def encode (i : Instr) : List Nat :=
  match i.view with
  | some v => v.words
  | none => match encodeStick i with
    | some w => [w]
    | none => []

/-- The 16 bytes of a ring word (R5, R84). -/
def wordBytes (w : Nat) : List Byte := leBytes 16 w

/-- The engine whose queue accepts class code `cls`; S for every other code. -/
def engOfCls (cls : Nat) : Eng :=
  match Cls.ofCode cls with
  | some c => c.eng
  | none => .s

/-- The instruction that the decoder reads in a row of the opcode table whose bits are `w`: a stick-code row has 32
bits (R307), a ring word 128, `cpf` 256 with its follow-on word above (R98). -/
def decodeTableWord (nbits w : Nat) : Option Instr :=
  if nbits ≤ 32 then decodeStick w
  else match decodeBytes (engOfCls (bits w 127 124)) (leBytes 32 w) with
    | .ok (i, _) => some i
    | .error _ => none

end Sys2Proof
end

