-- ==== Sys2Proof/Machine/Exact.lean ====
section
/-! DEFINITION. Exact reals (R9: quantities are exact until a Round is applied): sign and magnitude, infinities and
NaN, with the exact operations that the arithmetic rules use (R63, R67, R81, R117). -/

set_option linter.unusedVariables false

namespace Sys2Proof.Machine

/-- A magnitude `num · 2^exp / den`; `den` is at least 1 in every magnitude that the operations below build. -/
structure Mag where
  num : Nat
  den : Nat
  exp : Int
  deriving DecidableEq, Repr

/-- An exact quantity. The sign of a zero counts (R67). A NaN remembers whether it is signalling (R63). -/
inductive XReal where
  | fin (neg : Bool) (m : Mag)
  | inf (neg : Bool)
  | nan (signalling : Bool)
  deriving DecidableEq, Repr

/-! Flag bits of R59. -/

def fNV : Nat := 1
def fDZ : Nat := 2
def fOF : Nat := 4
def fUF : Nat := 8
def fNX : Nat := 16
def fRANGE : Nat := 32
def fDEP : Nat := 64
def fIOVF : Nat := 128
def fSEMSAT : Nat := 256
def fHOLDBROKE : Nat := 512

/-- Union of two flag masks. -/
def fOr (a b : Nat) : Nat := a ||| b

namespace Mag

/-- The magnitude of a natural number. -/
def ofNat (n : Nat) : Mag := ⟨n, 1, 0⟩

/-- `n · 2^e`. -/
def dyadic (n : Nat) (e : Int) : Mag := ⟨n, 1, e⟩

def isZero (a : Mag) : Bool := a.num == 0

/-- `a` as a numerator over a denominator, times `2^e`, for an `e` not above its exponent. -/
def at' (a : Mag) (e : Int) : Nat × Nat := (a.num * 2 ^ (a.exp - e).toNat, a.den)

/-- The two magnitudes with one exponent and one denominator: numerators, denominator and exponent. -/
def align (a b : Mag) : Nat × Nat × Nat × Int :=
  let e := if a.exp ≤ b.exp then a.exp else b.exp
  let x := a.at' e
  let y := b.at' e
  (x.1 * y.2, y.1 * x.2, x.2 * y.2, e)

def lt (a b : Mag) : Bool := let (x, y, _, _) := align a b; x < y
def eq (a b : Mag) : Bool := let (x, y, _, _) := align a b; x == y

def add (a b : Mag) : Mag := let (x, y, d, e) := align a b; ⟨x + y, d, e⟩

/-- `a − b` for `b` not above `a`. -/
def sub (a b : Mag) : Mag := let (x, y, d, e) := align a b; ⟨x - y, d, e⟩

def mul (a b : Mag) : Mag := ⟨a.num * b.num, a.den * b.den, a.exp + b.exp⟩

/-- `a / b` for a nonzero `b`. -/
def div (a b : Mag) : Mag := ⟨a.num * b.den, a.den * b.num, a.exp - b.exp⟩

/-- `a · 2^k`. -/
def scale (a : Mag) (k : Int) : Mag := { a with exp := a.exp + k }

/-- ⌊log2 a⌋ of a nonzero magnitude. -/
def floorLog2 (a : Mag) : Int :=
  let k : Int := (Nat.log2 a.num : Int) - Nat.log2 a.den
  -- 2^k is within a factor of two of num/den
  let ok := if 0 ≤ k then a.den * 2 ^ k.toNat ≤ a.num else a.den ≤ a.num * 2 ^ (-k).toNat
  (if ok then k else k - 1) + a.exp

/-- The integer part of `a / 2^u`, and its remainder over the denominator it is counted in. -/
def split (a : Mag) (u : Int) : Nat × Nat × Nat :=
  let k := a.exp - u
  let n := if 0 ≤ k then a.num * 2 ^ k.toNat else a.num
  let d := if 0 ≤ k then a.den else a.den * 2 ^ (-k).toNat
  (n / d, n % d, d)

end Mag

namespace XReal

def zero (neg : Bool) : XReal := .fin neg (.ofNat 0)

def ofInt (x : Int) : XReal := .fin (x < 0) (.ofNat x.natAbs)

def isNan : XReal → Bool
  | .nan _ => true
  | _ => false

def isSnan : XReal → Bool
  | .nan s => s
  | _ => false

def isInf : XReal → Bool
  | .inf _ => true
  | _ => false

def isZero : XReal → Bool
  | .fin _ m => m.isZero
  | _ => false

/-- The sign; of a NaN, positive. -/
def neg : XReal → Bool
  | .fin s _ => s
  | .inf s => s
  | .nan _ => false

/-- The magnitude of a finite quantity; of the others, zero. -/
def mag : XReal → Mag
  | .fin _ m => m
  | _ => .ofNat 0

def negate : XReal → XReal
  | .fin s m => .fin (!s) m
  | .inf s => .inf (!s)
  | .nan s => .nan s

def abs : XReal → XReal
  | .fin _ m => .fin false m
  | .inf _ => .inf false
  | .nan s => .nan s

/-- NV for a signalling NaN among operands (R63). -/
def snanFlag (xs : List XReal) : Nat := if xs.any isSnan then fNV else 0

/-- The sum with the IEEE rules (R81, R117): an exact zero sum of operands of opposite sign is +0, or −0 when `rd`. -/
def add (rd : Bool) (a b : XReal) : XReal × Nat :=
  let f := snanFlag [a, b]
  match a, b with
  | .nan _, _ => (.nan false, f)
  | _, .nan _ => (.nan false, f)
  | .inf s, .inf t => if s = t then (.inf s, f) else (.nan false, fNV)
  | .inf s, _ => (.inf s, f)
  | _, .inf s => (.inf s, f)
  | .fin s m, .fin t n =>
    if s = t then (.fin s (m.add n), f)
    else if m.eq n then (.fin rd (.ofNat 0), f)
    else if m.lt n then (.fin t (n.sub m), f)
    else (.fin s (m.sub n), f)

/-- The product with the IEEE rules (R77, R117). -/
def mul (a b : XReal) : XReal × Nat :=
  let f := snanFlag [a, b]
  match a, b with
  | .nan _, _ => (.nan false, f)
  | _, .nan _ => (.nan false, f)
  | .inf s, y => if y.isZero then (.nan false, fNV) else (.inf (s != y.neg), f)
  | x, .inf t => if x.isZero then (.nan false, fNV) else (.inf (x.neg != t), f)
  | .fin s m, .fin t n => (.fin (s != t) (m.mul n), f)

/-- `a · b + c`, exact. -/
def fma (rd : Bool) (a b c : XReal) : XReal × Nat :=
  let p := mul a b
  let r := add rd p.1 c
  (r.1, fOr p.2 r.2)

/-- `a < b` among numbers; zeros of both signs are equal, and a NaN is below nothing. -/
def lt (a b : XReal) : Bool :=
  match a, b with
  | .nan _, _ => false
  | _, .nan _ => false
  | .inf s, .inf t => s && !t
  | .inf s, _ => s
  | _, .inf t => !t
  | .fin s m, .fin t n =>
    match s, t with
    | false, false => m.lt n
    | true, true => n.lt m
    | true, false => !(m.isZero && n.isZero)
    | false, true => false

/-- `a = b` among numbers; zeros of both signs are equal. -/
def eq (a b : XReal) : Bool := !a.isNan && !b.isNan && !lt a b && !lt b a

def le (a b : XReal) : Bool := !a.isNan && !b.isNan && !lt b a

/-- Multiplication by a power of two, exact (R75, R76). -/
def scale (x : XReal) (k : Int) : XReal :=
  match x with
  | .fin s m => .fin s (m.scale k)
  | y => y

/-- An integer-valued result rounded from a finite quantity needs its parts: integer part and remainder. -/
def parts (x : XReal) : Nat × Nat × Nat := x.mag.split 0

end XReal

end Sys2Proof.Machine
end

