-- ==== Sys2Proof/Config.lean ====
section
/-! DEFINITION. What the spec leaves open and one implementation fixes: free values, with no body, so that nothing
can be proved of the value (the assumption log names each). -/

namespace Sys2Proof.Config

open Sys2Proof.Machine

/-- The chip cycles that a variable-latency action takes (R2): the argument is a fresh number for each action. -/
opaque latency : Nat → Nat

/-- Which of several pieces or accesses that no rule orders performs next (R248, R251): fresh number. -/
opaque pick : Nat → Nat

/-- Whether a queue's prefetch had read a ring word before a change to it (R85): fresh number. -/
opaque prefetchOld : Nat → Bool

/-- Whether a window write that arrived while its strand ran, and finds it stalled since, waits on for the boundary (R60). -/
opaque waitsForBoundary : Nat → Bool

/-- Which neighbour a faithful special function delivers (R154): function code and operand; true takes the one of
larger magnitude. -/
opaque faithfulUp : Nat → Nat → Bool

/-- The DETAIL that `WD 2` gives a stall cause (R40 says "cause" and gives no codes): the number of the cause. -/
opaque causeCode : Nat → BitVec 16

/-- ROMVER (R386). -/
opaque romVersion : BitVec 8

/-- ROM firmware (R386, R393): its security version and its digest. -/
opaque romSecver : BitVec 16
opaque romDigest : BitVec 512

/-- The fused security version (R390) and the fused device secret (R392). -/
opaque fusedSecver : BitVec 16
opaque deviceSecret : List Byte

/-- SHAKE256, of a message, with the number of output bytes (R366, R392, R393). -/
opaque shake256 : List Byte → Nat → List Byte

/-- Ed448 (R389, R392, R394): whether a signature of a message verifies under the firmware key, the signature of a message
under the key of a seed, and the public key of a seed. -/
opaque ed448Verify : List Byte → List Byte → Bool
opaque ed448Sign : List Byte → List Byte → BitVec 912
opaque ed448Public : List Byte → List Byte

/-- The certificates of R392, whose layout the spec does not give: that of the device identity key, signed at manufacture,
and that of the attestation key, made of its public key and the device identity key's seed. -/
opaque identityCert : List Byte
opaque attestationCert : List Byte → List Byte → List Byte

/-- TMAX, the hottest die sensor (R395): chip cycle. -/
opaque hottest : Nat → BitVec 8

/-- The serial number that a stack reports, the lane results of a training, and whether the first read-back check after a restore
fails (R366, R367): stack, and fresh number. -/
opaque stackSerial : Nat → BitVec 64
opaque laneResults : Nat → List Byte
opaque readBackFails : Nat → Bool

/-- Whether another package rejects a write because it carries an old generation (R373): fresh number. -/
opaque peerRejects : Nat → Bool

/-- Whether a row that no strand pins is open (R216, R219): fresh number. -/
opaque rowOpen : Nat → Bool

/-- A byte read at a physical address that no stack has (R350): fresh number and place. -/
opaque absentByte : Nat → Nat → Byte

/-- CLASS, NUM, SRC, QUEUE, DETAIL, INFO and ORIG of an event record for which the spec gives none (R361): fresh number. -/
opaque eventClass : Nat → BitVec 16
opaque eventNum : Nat → BitVec 8
opaque eventSrc : Nat → BitVec 8
opaque eventQueue : Nat → BitVec 3
opaque eventDetail : Nat → BitVec 32
opaque eventInfo : Nat → BitVec 64
opaque eventOrig : Nat → BitVec 16

/-- The first 32 bytes of a host request, as `vaerhdr` holds them (R363): fresh number. -/
opaque requestHeader : Nat → BitVec 256

/-- The bytes of a packet that comes from another package (R228): fresh number. -/
opaque remotePacket : Nat → List Byte

/-- An element that a member on another package contributes to a collective (R231): fresh number and place. -/
opaque remoteElement : Nat → Nat → Nat

/-- The op, form, root and element count that the word of a member of reduction rank 0 on another package fixes (R231): fresh
number and field. -/
opaque remoteWord : Nat → Nat → Nat

/-- The chip cycles that a collective of an exact launch takes from its last contribution on, as the launch's schedule fixes them
(R232): galley image, strands, order and level, instance. -/
opaque exactCollective : List Byte → List Nat → Nat → Nat → Nat

/-- The links beyond the first one on the way to a package: the sum of 40 and the latency of each (R375). -/
opaque farTransit : Nat → Nat

/-- The chip cycles from a Speat link to the receive buffer of a core's slot (R375, R379). -/
opaque inwardHop : Nat → Nat

/-- A core of another package that refuses a gang, its package, index and collision code, if one does (R289): fresh number. -/
opaque farRefusal : Nat → Option (Nat × Nat × Nat)

/-- The words of a context image whose layout the spec does not give: the items of R332 beyond the context page, and the
saved commands (R342): fresh number. -/
opaque checkpointItems : Nat → List (BitVec 64)
opaque savedCommands : Nat → List (BitVec 64)

end Sys2Proof.Config
end

