-- ==== Sys2Proof/Event.lean ====
section
/-! DEFINITION. Events as the package's agenda and the outside world's inputs hold them: one constructor for each event
row of the opcode table, with the arguments of the constructor of `Instr` of the same name. (The runtime that evaluates
a model can build at most 244 constructors of one type, so a list of events to come is not a list of `Instr`.) -/

set_option linter.unusedVariables false

namespace Sys2Proof

/-- An event of the opcode table. -/
inductive Ev where
  | landing (x : Nat)
  | variableLatencyArrival (x id : Nat)
  | stallWatchdogExpiry (x : Nat)
  | holdReleaseResume (x src : Nat)
  | debugHaltRequest (x : Nat)
  | sclkCompareMatch (x : Nat)
  | interruptTaken (x : Nat)
  | streamStart (x : Nat) (e : Eng)
  | streamGroupRead (x : Nat) (e : Eng)
  | streamGroupWrite (x : Nat)
  | matrixWordStart (x : Nat)
  | matrixDelivery (x : Nat)
  | handleWordServe (x id : Nat)
  | heldCommandTrap (x : Nat)
  | commandCompletion (x id : Nat)
  | flagWrite (x id : Nat)
  | strandEnd (x : Nat)
  | windowWrite (core off n val : Nat)
  | windowRead (core off n : Nat)
  | contextWriteEffect (x : Nat)
  | accessPerform (x id : Nat)
  | packetDepart (core slot : Nat)
  | packetArrive (core slot id : Nat)
  | creditReturn (core slot : Nat)
  | ngetRequestAccept (core slot id : Nat)
  | barrierRelease (gang level unit count : Nat)
  | collectiveComplete (gang level unit ord : Nat)
  | holdBudgetExpiry (x quoin : Nat)
  | refreshInterval (ch bank : Nat)
  | temperatureCrossing (stack : Nat) (hot : Bool)
  | regionWatchdogExpiry (x : Nat)
  | rephasePointApply (x : Nat)
  | rephaseHoldEnd (x : Nat)
  | strandStart (x : Nat)
  | doorbell (q val : Nat)
  | joinNode (q slot : Nat)
  | launchNode (q slot : Nat)
  | stagingComplete (q slot : Nat)
  | repetitionStart (q slot : Nat)
  | launchComplete (q slot : Nat)
  | budgetExpiry (q slot : Nat)
  | conditionalNode (q slot : Nat)
  | loopNode (q slot : Nat)
  | hostSignalNode (q slot : Nat)
  | signalNode (q slot : Nat)
  | rephaseNode (q slot : Nat)
  | cqprogWrite (q val : Nat)
  | cqnprogWrite (q val : Nat)
  | cqerrRead (q : Nat)
  | standbyFill (core q slot : Nat)
  | afcUpdate
  | hrpostWrite (vf ring val src orig : Nat)
  | ringRecordWrite (vf ring : Nat)
  | hrconsWrite (vf ring val : Nat)
  | hrctlWrite (vf ring val : Nat)
  | ringTimerExpiry (vf ring : Nat)
  | hrstatRead (vf ring : Nat)
  | erlostRead (vf : Nat)
  | s1inv (vf val : Nat)
  | s2inv (vf val : Nat)
  | invalidationComplete (vf : Nat)
  | walkComplete (walk : Nat)
  | tresumeResume (vf val : Nat) (byPf : Bool)
  | tresumeEnd (vf val : Nat) (byPf : Bool)
  | vfquadsWrite (vf val : Nat)
  | pstitchWrite (vf val : Nat)
  | vfslotsWrite (vf word val : Nat)
  | partitionReset (vf val : Nat)
  | partitionResetClear (vf : Nat)
  | functionLevelReset (vf : Nat)
  | hotReset
  | coldReset
  | warmReset
  | stackTrainingComplete (stack rate : Nat)
  | selfTestPass
  | fullServiceEntry
  | pmreqPreempt (val : Nat)
  | preemptSave (q slot : Nat)
  | pmreqResume (val : Nat)
  | cqsavnWrite (q val : Nat)
  | stkrateWrite (stack val : Nat)
  | retrainingComplete (stack : Nat)
  | chretWrite (val : Nat)
  | retirementDrainDone
  | retirementCopyDone
  | generationBroadcast (pkg gen : Nat)
  | podAlignment (pkg npkg : Nat) (walk : AlignWalk)
  | alignmentRelease
  | flitReceive (link head payload crc : Nat) (corrected : Bool)
  | retryNotice (link pair rseq : Nat)
  | flitResend (link pair reel : Nat)
  | spstatRead (link : Nat)
  | linkEvent (kind : LinkEventKind) (vf addr : Nat)
  | apertureAccess (vf off n : Nat) (write : Bool) (val : Nat)
  | msixUnmask (fn vec : Nat)
  | softErrorCorrected (place : Nat)
  | softErrorUncorrectable (space addr : Nat)
  | thermalWarn (die : Nat)
  | thermalTrip
  | fwcmdLoad
  | fwcmdQuote
  | fwcmdLog
  | fwcmdCert
  | handoverCommit
  | handoverAbandon
  | walkerDeal (gang : Nat)
  | registerWrite (view off n val : Nat)
  | compositorQueueCreate (q vf : Nat)
  | pfFunctionLevelReset
  | speatLinkTrained (link lat peerPkg peerLink : Nat)
  /-- The host changes its own memory (the model's own event: the table has no row for it). -/
  | hostMemory (addr n val : Nat)
  /-- A compositor's write that has waited at a stack is taken up again (R370, R372; the model's own). -/
  | compositorWrite (q addr n val : Nat)
  /-- Another package changes its memory, as this one sees it on path 0x6 (the model's own). -/
  | peerMemory (addr n val : Nat)
  /-- A write of another package on path 0x6 reaches this one, carrying a generation (R373; the model's own). -/
  | peerWrite (vf addr n val gen : Nat)
  /-- The quads of a VF on another package change (R239; the model's own). -/
  | peerQuads (key mask : Nat)
  /-- A member of a gang on another package announces a hold, at which the others stop at the start of a strand cycle (R30; the
  model's own). -/
  | peerHold (gang src stop : Nat)
  /-- It releases the hold: the others resume in a chip cycle (R30; the model's own). -/
  | peerRelease (gang src at_ : Nat)
  /-- The host reads a register through a BAR (R240, R322; the model's own: the table has rows for four such reads). -/
  | registerRead (view off n : Nat)
  /-- The host writes the MSI-X message control of a function (R324; the model's own). -/
  | msixControl (fn val : Nat)
  deriving DecidableEq, Repr

end Sys2Proof
end

