-- ==== Sys2Proof/Machine/StrandState.lean ====
section
/-! DEFINITION. The state of a core and of its strands, as plain data: the context page (R42), the large state's
bookkeeping, the queues, pending landings and streams, asynchronous commands and what the launch gave the strand. -/

set_option linter.unusedVariables false

namespace Sys2Proof.Machine

/-! Sorted maps over natural keys. -/

/-- The entry at key `k`. -/
def mget {α : Type} (k : Nat) : List (Nat × α) → Option α
  | [] => none
  | (j, v) :: r => if j = k then some v else mget k r

/-- The map with the entry at key `k` set; keys stay ascending. -/
def mset {α : Type} (k : Nat) (v : α) : List (Nat × α) → List (Nat × α)
  | [] => [(k, v)]
  | (j, w) :: r => if k < j then (k, v) :: (j, w) :: r else if k = j then (k, v) :: r else (j, w) :: mset k v r

/-- The map without key `k`. -/
def mdel {α : Type} (k : Nat) (m : List (Nat × α)) : List (Nat × α) := m.filter fun e => e.1 != k

/-- A vector element, by any number. -/
def vget {α : Type} {n : Nat} (v : Vector α n) (i : Nat) (d : α) : α := v.toArray.getD i d

/-- A vector with an element replaced; a number beyond the end changes nothing. -/
def vset {α : Type} {n : Nat} (v : Vector α n) (i : Nat) (x : α) : Vector α n := v.setIfInBounds i x

/-! Traps and stalls. -/

/-- A trap: class, number, DETAIL, whether debug mode alone raised it, and the address and INFO an event record of it
carries (R36, R361). -/
structure Trap where
  cls : Nat
  num : Nat
  detail : Nat := 0
  dbg : Bool := false
  addr : Nat := 0
  info : Nat := 0
  /-- DETAIL of its event record, where that differs (R361). -/
  recDetail : Option Nat := none
  /-- A host fault (R353). -/
  host : Bool := false
  deriving DecidableEq, Repr

/-- The causes a strand stalls on (R29): the DETAIL of WD 2. -/
inductive Cause where
  | landing | translation | window | semaphore | edge | tracker | order | channel | hold | retiring
  deriving DecidableEq, Repr

/-- What ends a word short of its effect. -/
inductive Stop where
  | trap (t : Trap)
  | stall (c : Cause)
  /-- A translation miss (R352): the virtual address, whether a write needs it, and the path. -/
  | miss (va : Nat) (write : Bool) (path : Nat)
  /-- A layout record that has not arrived (R188): its physical address. -/
  | record (pa : Nat)
  deriving DecidableEq, Repr

/-! The context page. -/

/-- One entry of a queue register (R43, R44): a reserved entry is named by the push that will land in it. -/
structure QEntry where
  val : Word
  landed : Bool
  tok : Nat
  deriving DecidableEq, Repr

/-- The registers of a strand context (R42, R57), those that the checkpoint holds (R332). -/
structure Ctx where
  q : Vector (List QEntry) 32
  p : Vector Bool 16
  la0 : Word
  la1 : Word
  lm : Word
  ll : Word
  lf : Vector Word 16
  g : Vector Word 16
  tcfg : Vector Word 16
  lc : Vector (Vector (BitVec 32) 8) 6
  hla0 : Word
  hla1 : Word
  hlm : Word
  hll : Word
  hq : Vector (List QEntry) 4
  sclk : Nat
  hclk : Nat
  tvec : Word
  trc : Word
  trs : Word
  ssp : Word
  slim : Word
  rrb : Word
  flg : Word
  inten : Word
  sclkcmp : Word
  smode : Word
  srseed : Word
  owna : Word
  owns : Word
  /-- The resume points `tra`, `tqv`, `tqf`, `tqm`, `tqc`, `tqn` (R37). -/
  tq : Vector Word 6
  /-- Entry bytes that a window write stored beyond a register's landed count (R45): key 2n + i for `q`n, 64 + 2n + i
  for the handler bank. -/
  stash : List (Nat × Word)
  deriving DecidableEq, Repr

/-- Every register of a context zero, but `sclkcmp`, all ones (R57). -/
def Ctx.zero : Ctx :=
  { q := Vector.replicate 32 [], p := Vector.replicate 16 false, la0 := 0, la1 := 0, lm := 0, ll := 0
    lf := Vector.replicate 16 0, g := Vector.replicate 16 0, tcfg := Vector.replicate 16 0
    lc := Vector.replicate 6 (Vector.replicate 8 0), hla0 := 0, hla1 := 0, hlm := 0, hll := 0
    hq := Vector.replicate 4 [], sclk := 0, hclk := 0, tvec := 0, trc := 0, trs := 0, ssp := 0, slim := 0, rrb := 0
    flg := 0, inten := 0, sclkcmp := 0xFFFFFFFFFFFFFFFF, smode := 0, srseed := 0, owna := 0, owns := 0
    tq := Vector.replicate 6 0, stash := [] }

/-! Queues. -/

/-- One queue's ring and sequencer (R84, R23). `owe` is a count of empty opportunities that replaces the next word's
IDLE (R37); `waited` the opportunities already left empty; `snaps` the words that prefetch may have read (R85); `word` what the
engine has read for `idx`, which is final once `fixed`. -/
structure QCtl where
  base : Nat := 0
  len : Nat := 16384
  idx : Nat := 0
  owe : Option Nat := none
  waited : Nat := 0
  halted : Bool := true
  snaps : List (Nat × Nat) := []
  pick : Nat := 0
  word : Option Nat := none
  /-- The word after it, once `word` is final: a `cpf` takes both (R98). -/
  after : Nat := 0
  fixed : Bool := false
  deriving DecidableEq, Repr

/-! Landings (R25 to R27). -/

/-- An element read by the matrix array: its format, its encoding and the block scale exponent (R75). -/
structure Elem where
  ty : Ty
  code : Nat
  scale : Int := 0
  deriving DecidableEq, Repr

/-- A multiply-accumulate delivery (R184): the operands as read at the start. -/
structure MacJob where
  acc : Fin 2
  init : Bool
  intMode : Bool
  tree : Bool
  a : List (List Elem)
  b : List (List Elem)
  deriving DecidableEq, Repr

/-- What a landing writes. -/
inductive Eff where
  | la0 (v : Word) | la1 (v : Word) | lm (v : Word) | ll (v : Word)
  | lf (n : Fin 16) (v : Word)
  | pred (n : Fin 16) (b : Bool)
  /-- The value of a reserved entry of a physical queue register; below 4 in a handler landing, of the handler bank. -/
  | push (q : Nat) (tok : Nat) (v : Word)
  | region (n : Fin 16) (v : Word)
  | tcfg (n : Fin 16) (v : Word)
  | loop (e : Eng) (n : Fin 8) (v : BitVec 32)
  /-- Bytes of the own core's window below 0x130000. -/
  | store (off : Nat) (bs : List Byte)
  /-- A 4-bit element: nibble address and value (R50). -/
  | nibble (at_ : Nat) (v : Nat)
  | dvMask (n : Fin 16) (m : BitVec 16)
  /-- V, M and a clear of OV of an accumulator. -/
  | accBits (a : Fin 2) (v m : Bool) (clearOv : Bool)
  | mac (j : MacJob)
  /-- `macp.add`: the addend's elements and its mode. -/
  | macpAdd (d : Fin 2) (intMode : Bool) (xs : List Nat)
  /-- A poison mark moved to a byte of the own core's window (R359). -/
  | poison (off : Nat)
  deriving DecidableEq, Repr

/-- A translation held by a core's cache (R351); `lax` is one that serves reads of paths 0x1 and 0x2 alone, which check P only
(R350). -/
structure TlbEntry where
  vf : Nat
  va : Nat
  pa : Nat
  size : Nat
  w1 : Bool
  w2 : Bool
  d : Bool
  ipa : Nat
  leaf : Nat
  lax : Bool := false
  deriving DecidableEq, Repr

/-- When a landing counts as arrived (R27). -/
inductive Wait where
  /-- A fixed-latency result. -/
  | none
  /-- Data that an event brings; `arrived` tells. -/
  | data
  /-- Every listed asynchronous access has performed at the level of the fence's scope (R124, R256). -/
  | fence (ids : List Nat) (lim : Nat)
  /-- A scratchpad word that must reach a threshold (R125). -/
  | scratch (addr n : Nat) (ty : Ty) (thr : Nat)
  /-- A packet of a circuit (R228); the destination is a queue entry or a region. -/
  | recv (slot : Nat)
  /-- Arrival counts at a level (R230). -/
  | barrier (level count : Nat)
  /-- Every earlier N command (R233). -/
  | flush (seq : Nat)
  /-- An entry of a full copy channel (R200). -/
  | channel (ch : Nat)
  /-- A read of a row: at its due strand cycle it is made at once if the row is pinned (R217). -/
  | row (ch bank row : Nat)
  deriving DecidableEq, Repr

/-- What a landing is the result of. -/
inductive LandKind where
  | word | group | matrix
  deriving DecidableEq, Repr

/-- A pending landing: the issue order of its word, its due strand cycle, what it writes, the flags it sets and the
semaphore it raises (0 none). -/
structure Landing where
  id : Nat
  seq : Nat
  due : Nat
  kind : LandKind := .word
  effs : List Eff := []
  flags : Nat := 0
  spost : Nat := 0
  wait : Wait := .none
  arrived : Bool := true
  /-- The word whose landing it is, for landings that act when they land (`nrcv`). -/
  instr : Option Instr := none
  /-- Region descriptors or tokens that such a landing needs. -/
  vals : List Nat := []
  /-- Whether a poisoned unit was read (R359). -/
  poison : Option Nat := none
  deriving DecidableEq, Repr

/-- A V or F stream (R139, R152): descriptors of slots A to D, scalars of slots A to C, draws taken at issue and the
running state of a reduction or scan. -/
structure Stream where
  seq : Nat
  eng : Eng
  instr : Instr
  start : Nat
  c : Nat
  groups : Nat
  n : Nat
  regs : List Nat
  scal : List Nat
  draws : List Nat := []
  next : Nat := 0
  carry : List Nat := []
  flags : Nat := 0
  spost : Nat := 0
  tok : Nat := 0
  phys : Nat := 0
  started : Bool := false
  deriving DecidableEq, Repr

/-- A timed M word waiting for its start (R181). -/
structure MPend where
  seq : Nat
  instr : Instr
  start : Nat
  busy : Nat
  deliver : Nat
  /-- Values captured at issue: tile configurations, descriptors, scalars. -/
  vals : List Nat
  /-- The accumulator that its delivery writes, with the mode that it leaves (R52). -/
  acc : Option (Nat × Bool) := none
  draws : List Nat := []
  spost : Nat := 0
  deriving DecidableEq, Repr

/-- Timed accesses still to come of a V, F, D or M word or of a timed landing (R141, R246, R253): element i covers
nibbles `base + i·step` to that plus `size` − 1 of the own window and takes effect at strand cycle `due + i/per·c`. -/
structure TimedAcc where
  base : Int
  step : Int
  size : Nat
  count : Nat
  per : Nat
  c : Nat
  due : Nat
  write : Bool
  deriving DecidableEq, Repr

/-- A footprint range: package-wide window addresses `lo` to `hi` − 1 (R31, R204). -/
structure FpRange where
  lo : Nat
  hi : Nat
  write : Bool
  deriving DecidableEq, Repr

/-- A handle or follow-on word under service (R190): the strand cycles of the array that it still takes and what it delivers. -/
structure Service where
  left : Nat
  effs : List Eff
  deriving DecidableEq, Repr

/-- One indivisible read or write of an asynchronous command (R248): the element it serves, its place in the command's
buffer, its path address and its length. -/
structure Piece where
  el : Nat
  off : Nat
  addr : Nat
  len : Nat
  deriving DecidableEq, Repr

/-- An asynchronous access or command of a strand, in program order (R250): `cls` its ordering class, `instr` its word,
`vals` and `regs` the values captured at issue, `rd`, `wr` and `idx` the reads, the writes and the index words still to
perform, `buf` the bytes read (256 one not yet read). -/
structure Async where
  id : Nat
  seq : Nat
  eng : Eng
  cls : Nat
  instr : Instr
  vals : List Nat := []
  regs : List Nat := []
  rd : List Piece := []
  wr : List Piece := []
  /-- The reads and writes as they were at issue, from which a held command restarts (R191, R205, R354). -/
  rd0 : List Piece := []
  wr0 : List Piece := []
  idx : List Nat := []
  buf : List Nat := []
  /-- Bytes of a weight stream that were read with the unit before them, from its place on (R236). -/
  ahead : List Nat := []
  /-- Draws taken at issue (R71). -/
  draws : List Nat := []
  /-- Bytes of `buf` that carry a poison mark (R359). -/
  bad : List Nat := []
  /-- Index words out of range (R211). -/
  oor : Nat := 0
  /-- Physical addresses of the translations made at issue (R352), and the cached entries that gave them (R355, R356). -/
  pas : List Nat := []
  trs : List TlbEntry := []
  chan : Option Nat := none
  xid : Nat := 0
  trk : Nat := 0
  fp : List FpRange := []
  spost : Nat := 0
  flags : Nat := 0
  /-- Flag write of R203: scratchpad address and value. -/
  flag : Option (Nat × Nat) := none
  /-- The landing its value goes to. -/
  land : Option Nat := none
  /-- It waits for this strand cycle's timed accesses (R253, R141). -/
  after : Nat := 0
  /-- Of those, only writes fall at strand cycle `after`: they are made as it opens. -/
  early : Bool := false
  /-- Held in the store buffer (R335). -/
  buffered : Bool := false
  /-- Its accesses have all performed. -/
  performed : Bool := false
  /-- A command that has not completed yet. -/
  open_ : Bool := true
  held : Option Trap := none
  /-- It starts again when the freeze or the suspension that its fault brought ends (R191, R205, R354). -/
  paused : Bool := false
  /-- A fence: its class mask (R124); `vals` are the accesses it covers. -/
  fence : Option Nat := none
  /-- The narrowest scope that holds one of its homes: 1 core to 6 pod (R255). -/
  level : Nat := 6
  /-- It was issued in the region that is open now (R338). -/
  region : Nat := 0
  /-- The stage of a command of several. -/
  phase : Nat := 0
  /-- A header word of the point ring, by its offset, to be counted up by so many for it (R281, R282). -/
  count : Option (Nat × Nat) := none
  /-- The byte count that a fetch posts (R190). -/
  posted : Nat := 0
  /-- The array serves it (R190). -/
  service : Option Service := none
  deriving DecidableEq, Repr

/-- A pinned row (R216, R218): channel, bank number 0 to 15, row, refresh intervals of its budget left and the chip
cycle at which the running one ends. -/
structure Pin where
  ch : Nat
  bank : Nat
  row : Nat
  left : Nat
  next : Nat
  deriving DecidableEq, Repr

/-- A row's read-clear status bits for the strand (R219). -/
structure RowStat where
  ch : Nat
  bank : Nat
  row : Nat
  broke : Bool
  busy : Bool
  deriving DecidableEq, Repr

/-- A strand's view of a scan unit (R222): hits of its last scan and the status bits. -/
structure ScanStat where
  count : Nat := 0
  run : Bool := false
  busy : Bool := false
  ovf : Bool := false
  stop : Bool := false
  /-- The running scan has been told to stop. -/
  halt : Bool := false
  deriving DecidableEq, Repr

/-- A layout record that a word at issue waits for (R188): the number of its arrival, its physical address and, once it has arrived,
the record. -/
structure RecFetch where
  id : Nat
  pa : Nat
  val : Option Nat
  deriving DecidableEq, Repr

/-- A declared window footprint (R106, R305): kind 1 `r`, 2 `w`, 3 `rw`. -/
structure Foot where
  addr : Nat
  bytes : Nat
  kind : Nat
  deriving DecidableEq, Repr

/-- A hold received from another strand of an exact gang (R30). -/
structure Hold where
  src : Nat
  stopAt : Nat
  released : Option Nat
  deriving DecidableEq, Repr

/-- The effect of a back-edge word of this strand cycle, computed at its issue and applied at the close (R260, R261): the loop
register's new count and, of `rlbr`, the new stage predicates from `p8` on and the new `rrb`. -/
structure BackEdge where
  eng : Eng
  lc : Fin 8
  count : Nat
  stages : Option (List Bool × Nat)
  deriving DecidableEq, Repr

/-- A window write that waits for the strand-cycle boundary (R60, R245). -/
structure DeferredWrite where
  off : Nat
  bs : List Byte
  /-- The strand and the access that wrote it; none for another agent. -/
  src : Option (Nat × Nat) := none
  /-- It is an atomic, with its word and its operands B and C: its read and its write are made together when its turn comes
  (R123). -/
  rmw : Option (Instr × Nat × Nat) := none
  deriving DecidableEq, Repr

/-- What the strand is doing. -/
inductive Mode where
  | run
  /-- Admitted and not yet started (R290). -/
  | loading
  /-- Its handler runs (R35). -/
  | frozen
  /-- A trap of delivery T holds it (R35, R353). -/
  | suspended
  /-- Pre-emption has stopped it (R338). -/
  | stopped
  | ended
  deriving DecidableEq, Repr

/-- The checkpoint of the open region (R332). -/
structure Checkpoint where
  ctx : Ctx
  queues : Vector QCtl 6
  pend : List Landing
  streams : List Stream
  mpend : List MPend
  timed : List TimedAcc
  sems : List (Nat × Nat)
  next : List (Nat × Nat)
  acm : Nat
  vEnd : Nat
  fEnd : Nat
  mEnd : Nat
  accIss : List (Bool × Bool)
  /-- Raises and window writes that the boundary finds waiting: they take effect after its landings (R56, R60). -/
  raises : List Nat
  deferred : List DeferredWrite
  /-- `sclk` matches `sclkcmp` at the boundary (R38). -/
  matched : Bool
  deriving DecidableEq, Repr

/-- A strand: a galley's six queues on one core (R17), with what its launch gave it. -/
structure Strand where
  ctx : Ctx
  slip : Word
  hmis : Word
  queues : Vector QCtl 6
  mode : Mode
  /-- Place inside the strand cycle: 0 opening, 1 to 6 the engines in the order of R22, 7 close; 8 a match of `sclkcmp` and 9 the
  strand's end, after the close. -/
  micro : Nat
  /-- How many chip cycles of the strand cycle have come when it goes on: the phase of what it does next, or of a place before (R20). -/
  offset : Nat
  /-- The origin o (R20). -/
  origin : Nat
  stride : Nat
  phi : Vector Nat 6
  phiBg : Vector Nat 12
  /-- Issue counter: the order of words. -/
  seq : Nat
  /-- The strand-cycle cause it stalls on and the chip cycle the stall began. -/
  stall : Option (Cause × Nat)
  /-- The layout record that the word at issue waits for. -/
  recFetch : Option RecFetch
  pend : List Landing
  hpend : List Landing
  hqueue : QCtl
  streams : List Stream
  vEnd : Nat
  fEnd : Nat
  mEnd : Nat
  mpend : List MPend
  asyncs : List Async
  timed : List TimedAcc
  closing : List BackEdge
  /-- Writes of `lc`, `p` and `rrb` by the window since a back-edge issued, page offset and value: at the close they win (R263). -/
  overBack : List (Nat × Word)
  deferred : List DeferredWrite
  /-- V and M of each accumulator as the issued words leave them (R52). -/
  accIss : List (Bool × Bool)
  /-- Region: its number, the `sclk` at its boundary, whether a region edge issued in this strand cycle (R332). -/
  region : Nat
  regionAt : Nat
  edge : Bool
  /-- The boundary of the `idem` or forced release of this strand cycle has been taken. -/
  opened : Bool
  /-- The boundary of the last `halt` has been taken. -/
  closed : Bool
  ckpt : Option Checkpoint
  /-- A pending re-phase Δ and the compositor node that waits for it (R294, R295). -/
  rephase : Option (Nat × Option (Nat × Nat))
  /-- The chip cycle at which a re-phase hold ends. -/
  heldUntil : Nat
  holds : List Hold
  /-- A hold it has announced (R30). -/
  announced : Bool
  /-- Raises by asynchronous completions that wait for the next strand cycle (R56). -/
  raises : List Nat
  /-- DETAIL of a pending `IN 2` (R312). -/
  signal : Nat
  /-- Where the freeze resumes: the micro-phase of the trapping word; whether the trap was a host fault, and its class. -/
  resumeAt : Nat
  /-- A `tret` has just ended a freeze, and no word of the resumed strand cycle has issued since (R38). -/
  back : Bool
  suspendedBy : Option Trap
  hostFault : Bool
  pins : List Pin
  rowStats : List RowStat
  scans : List (Nat × ScanStat)
  /-- Packets that receives have taken since the boundary, by circuit, oldest first: a restore gives them back. -/
  popped : List (Nat × List Byte × List Nat)
  /-- Orders of the collectives issued at each level (R231). -/
  collOrd : List (Nat × Nat)
  /-- Launch data: owner, launch node, gang, rank and holdings. -/
  vf : Nat
  node : Nat × Nat
  gang : Nat
  rank : Nat
  /-- Columns of its gang (R192). -/
  cols : Nat
  banks : Nat
  channels : Nat
  quotas : List (Nat × Nat)
  slots : List Nat
  foots : List Foot
  deriving DecidableEq, Repr

/-- A context that no strand holds (R42). -/
def Strand.idle : Strand :=
  { ctx := Ctx.zero, slip := 0, hmis := 0, queues := Vector.replicate 6 {}, mode := .ended, micro := 0, offset := 0, origin := 0
    stride := 1, phi := Vector.replicate 6 0, phiBg := Vector.replicate 12 0, seq := 0, stall := none, recFetch := none, pend := []
    hpend := [], hqueue := {}, streams := [], vEnd := 0, fEnd := 0, mEnd := 0, mpend := [], asyncs := [], timed := []
    closing := [], overBack := [], deferred := [], accIss := [(false, false), (false, false)], region := 0, regionAt := 0
    edge := false, opened := false, closed := false, ckpt := none, rephase := none, heldUntil := 0, holds := []
    announced := false, raises := [], signal := 0, resumeAt := 0, back := false, suspendedBy := none, hostFault := false, pins := []
    rowStats := [], scans := [], popped := [], collOrd := [], vf := 0, node := (0, 0), gang := 0
    rank := 0, cols := 1, banks := 0, channels := 0, quotas := [], slots := [], foots := [] }

/-! The core (R14, R57, R225, R351). -/

/-- A packet on a circuit (R226, R229): kind 0 a message, 1 bytes of an `nput`, 2 an `nget` request, 3 bytes of an
`nget`, 4 a packet that a partition reset drops at its ejection; `off` is where its bytes go, `strand` and `cmd` the command it belongs to, `ready` the chip cycle from which it
may leave. -/
structure Packet where
  id : Nat
  kind : Nat
  bytes : List Byte
  bad : List Nat := []
  off : Nat
  strand : Nat
  cmd : Nat
  last : Bool
  ready : Nat
  deriving DecidableEq, Repr

/-- One end of a circuit (R227): credits at a sending end, packets formed and waiting to leave, packets on their way
to this receiving end, and its receive buffer. -/
structure Circuit where
  credits : Nat := 2
  wait : List Packet := []
  /-- A departure has been set for the next opening. -/
  armed : Bool := false
  /-- The opening at which its last packet has left: one a reel (R226). -/
  used : Option Nat := none
  fly : List Packet := []
  buffer : List (List Byte) := []
  /-- The bytes of each of those packets that carry a poison mark (R383). -/
  bufBad : List (List Nat) := []
  deriving DecidableEq, Repr

/-- A copy channel's counters and the identifiers completed beyond DONE (R200). -/
structure ChanState where
  next : Nat := 0
  done : Nat := 0
  ahead : List Nat := []
  deriving DecidableEq, Repr

/-- A timed write of a bank that falls later in its strand cycle than the word it comes from (R242). -/
structure BankWrite where
  time : Nat
  eff : Eff
  deriving DecidableEq, Repr

/-- What scratchpad held before a write of the last few chip cycles, from which a timed read takes its own chip cycle's
bytes (R242, R245): it sees the write when it is made in chip cycle `time` or later. -/
structure BankUndo where
  time : Nat
  off : Nat
  old : List Byte
  deriving DecidableEq, Repr

/-- A core's standby set (R311): the node it is for, the bank group, the image address and the segments. -/
structure Standby where
  q : Nat
  slot : Nat
  /-- The address of its launch record. -/
  record : Nat
  group : Nat
  img : Nat
  segs : List (Nat × List Byte)
  deriving DecidableEq, Repr

/-- One core. -/
structure CoreState where
  /-- `acm` (R52). -/
  acm : Nat := 0
  /-- Lineage masks of `dv0` to `dv15` (R53). -/
  dvm : List (Nat × Nat) := []
  /-- Semaphore counts (R56). -/
  sems : List (Nat × Nat) := []
  /-- NEXT and DONE of the copy channels, and the identifiers completed beyond DONE (R200). -/
  chans : List (Nat × ChanState) := []
  /-- The slot table (R225): entry words. -/
  slots : List (Nat × Nat) := []
  circuits : List (Nat × Circuit) := []
  tlb : List TlbEntry := []
  /-- 4 KiB pieces of large state written since their strand was launched (R343): kind (0 scratchpad, 1 tiles,
  2 accumulators, 3 distribution registers) and index. -/
  dirty : List (Nat × Nat) := []
  standby : Option Standby := none
  /-- Timed writes still to be made, and the bytes that recent writes replaced (R242). -/
  bankPend : List BankWrite := []
  bankUndo : List BankUndo := []
  deriving DecidableEq, Repr

end Sys2Proof.Machine
end

