-- ==== Sys2Proof/Machine/DeviceState.lean ====
section
/-! DEFINITION. The state of the package outside its cores, as plain data: virtual functions, compositor queues,
gangs, host rings, stacks, links, firmware and the physical function. -/

set_option linter.unusedVariables false

namespace Sys2Proof.Machine

/-- An event on its way to an error ring (R361); `src` 255 and `cls` 0 stand for an SRC, and a CLASS and NUM,
that the spec does not give. -/
structure EventRec where
  vf : Nat
  addr : Nat := 0
  src : Nat := 0
  orig : Nat := 0
  cls : Nat
  num : Nat
  queue : Nat := 0
  detail : Nat := 0
  info : Nat := 0
  deriving DecidableEq, Repr

/-- An error ring's registers (R360), also those of the PF log (R384). -/
structure ErrRing where
  base : Nat := 0
  ctl : Nat := 0
  prod : Nat := 0
  cons : Nat := 0
  lost : Nat := 0
  deriving DecidableEq, Repr

/-- What waits for a post (R329): a strand's store, a node or a prologue, or nobody (the host). -/
inductive Poster where
  | strand (x id : Nat) | node (q slot : Nat) | prologue (q slot : Nat) | host (fn : Nat)
  deriving DecidableEq, Repr

/-- A post on its way to a result ring (R328, R329). -/
structure Post where
  val : Nat
  src : Nat
  orig : Nat
  tag : Nat := 0
  by_ : Poster
  /-- The chip cycle in which it reached its ring. -/
  time : Nat := 0
  deriving DecidableEq, Repr

/-- A host result ring (R327, R331): registers, the chip cycle at which its timer expires, and the posts that wait. -/
structure HostRing where
  base : Nat := 0
  ctl : Nat := 0
  prod : Nat := 0
  cons : Nat := 0
  sig : Nat := 0
  stat : Nat := 0
  timer : Option Nat := none
  posts : List Post := []
  deriving DecidableEq, Repr

/-- An MSI-X table entry (R324): message address and data, and the mask bit, which is set at reset. -/
structure MsixEntry where
  addr : Nat := 0
  data : Nat := 0
  masked : Bool := true
  deriving DecidableEq, Repr

/-- An invalidation request (R356): stage 2 or 1, address and span. -/
structure Inval where
  stage2 : Bool
  addr : Nat
  span : Nat
  deriving DecidableEq, Repr

/-- The registers of a virtual function (R257, R298, R322, R327, R356 to R363, R374 to R377). -/
structure Vf where
  quads : Nat := 0
  hvscp : Nat := 0
  s2root : Nat := 0
  s1root : Nat := 0
  ltb : Nat := 0
  ltl : Nat := 0
  apbase : Nat := 0
  pstitch : Nat := 0
  /-- The 256-bit slot mask (R376). -/
  slots : Nat := 0
  /-- The step of a partition reset that runs, 0 for none (R377). -/
  prst : Nat := 0
  invals : List Inval := []
  s1ovf : Bool := false
  s2ovf : Bool := false
  rings : List (Nat × HostRing) := []
  err : ErrRing := {}
  vaerus : Nat := 0
  vaerum : Nat := 0
  /-- `vaerhdr`: 32 bytes. -/
  vaerhdr : Nat := 0
  deriving DecidableEq, Repr

/-! The compositor (R298 to R320). -/

/-- A loaded program (R308): its words, or the STATUS that its check has given. -/
structure Prog where
  words : List Nat := []
  fail : Option Nat := none
  deriving DecidableEq, Repr

/-- A slot of a compositor queue (R299 to R301, R316 to R318). -/
structure Slot where
  /-- The record has been read and the slot is held. -/
  held : Bool := false
  /-- The copy kept at the doorbell. -/
  copy : Nat := 0
  /-- STATE as the compositor has written it. -/
  st : Nat := 0
  count : Nat := 0
  notice : Option Nat := none
  /-- The credits at which it becomes ready. -/
  need : Nat := 0
  /-- A loop node's true decisions and its body. -/
  decisions : Nat := 0
  body : Option (List Nat) := none
  /-- The address that the record was read from. -/
  addr : Nat := 0
  /-- The programs and windows as they stood when it became ready. -/
  progs : List (Nat × Prog) := []
  nprog : Nat := 0
  wins : List Nat := []
  /-- Its image is poisoned: the node has ended, and cannot be resumed (R346). -/
  lost : Bool := false
  /-- A loop has armed it again (R318). -/
  again : Bool := false
  deriving DecidableEq, Repr

/-- A compositor queue (R298, R341). -/
structure Cq where
  vf : Nat
  base : Nat := 0
  len : Nat := 0
  prog : Nat := 0
  nprog : Nat := 0
  wins : List Nat := [0, 0, 0, 0, 0, 0, 0, 0]
  done : Nat := 0
  err : Nat := 0
  save : Nat := 0
  savn : Nat := 0
  /-- Physical addresses of the pinned pages of the save area (R341). -/
  pages : List Nat := []
  progs : List (Nat × Prog) := []
  slots : List (Nat × Slot) := []
  /-- Body slots of loop nodes that completed without a false decision: they stay held (R318). -/
  stuck : List Nat := []
  deriving DecidableEq, Repr

/-- A prologue that runs (R307): its node, its program, registers `x0` to `x15`, pc, steps, its copy of the launch
record, the repetition count and the chip cycle of its next step; `waiting` while a store waits for a result ring. -/
structure Prologue where
  q : Nat
  slot : Nat
  words : List Nat
  regs : List Word := List.replicate 16 0
  pc : Nat := 0
  steps : Nat := 0
  copy : Nat := 0
  rept : Nat := 1
  next : Nat := 0
  waiting : Bool := false
  deriving DecidableEq, Repr

/-- A symmetric launch (R275 to R283): the block, the walker's next point and what it has dealt to each rank. -/
structure Symm where
  block : Nat
  point : Nat := 0
  dealt : Nat := 0
  ended : List Nat := []
  /-- An entry has been written whose DEALT is still to be: the rank and the new count (R279). -/
  owed : Option (Nat × Nat) := none
  deriving DecidableEq, Repr

/-- What a launch is doing. -/
inductive LaunchStage where
  | prologue | staging | admission | loading | running | stopping | saving | saved | resuming
  deriving DecidableEq, Repr

/-- What the save of a strand has put into its image (R332, R342): the strand as its checkpoint and the drain leave it, its
part of its core, the dirty pieces with their poisoned units, and the rows that it pinned. -/
structure SavedStrand where
  rank : Nat
  core : Nat
  strand : Strand
  sems : List (Nat × Nat)
  chans : List (Nat × ChanState)
  acm : Nat
  dvm : List (Nat × Nat)
  circuits : List (Nat × Circuit)
  pieces : List ((Nat × Nat) × List Byte)
  bad : List Nat
  quoins : List Nat
  deriving DecidableEq, Repr

/-- A launch node that has been taken (R306): the record as the prologue left it, the repetitions, the gang, the strands
that have ended, and what a pre-emption or an end has asked for. -/
structure Launch where
  q : Nat
  slot : Nat
  stage : LaunchStage
  copy : Nat := 0
  reps : Nat := 1
  rep : Nat := 0
  gang : Nat := 0
  members : List Nat := []
  ended : List Nat := []
  /-- The chip cycle at which the repetition started. -/
  since : Nat := 0
  /-- STATUS that the node gets when its strands have ended: a budget overrun or an ended suspension. -/
  fate : Option Nat := none
  /-- A save is asked for, with its deadline in chip cycles; of a budget overrun none. -/
  saveBy : Option Nat := none
  /-- Ranks whose save an uncorrectable error has hit (R346). -/
  lost : List Nat := []
  /-- The first of the fresh numbers, one a rank, for what the spec leaves open in the images of its save (R342). -/
  imageNo : Nat := 0
  symm : Option Symm := none
  /-- Header and lists of the galley image as step 2 has read them (R305). -/
  img : List Byte := []
  /-- The flit pairs that its gang holds on the links of its tree, by link (R379). -/
  pairs : List (Nat × Nat) := []
  /-- The working-set entry that staging has come to. -/
  staged : Nat := 0
  /-- The rows that its stopped strands pinned, by strand and quoin address. -/
  quoins : List (Nat × Nat) := []
  /-- Its strands while it is pre-empted. -/
  saved : List SavedStrand := []
  deriving DecidableEq, Repr

/-- A miss that waits for a walk: its strand and address, whether it writes, and its path. -/
structure Miss where
  x : Nat
  va : Nat
  write : Bool
  path : Nat
  deriving DecidableEq, Repr

/-- A translation walk under way (R351), and the misses that share it. -/
structure Walk where
  die : Nat
  vf : Nat
  va : Nat
  misses : List Miss
  /-- It holds a walk slot; else it waits for one. -/
  active : Bool
  /-- The roots as they stood when it started in its slot (R357). -/
  root1 : Nat := 0
  root2 : Nat := 0
  deriving DecidableEq, Repr

/-- A faulted walk whose word, of strand `x`, has not retried yet. -/
structure WalkFault where
  x : Nat
  vf : Nat
  va : Nat
  write : Bool
  path : Nat
  trap : Trap
  host : Bool
  deriving DecidableEq, Repr

/-- A stack's training record (R366): its serial number, the rate code it trains at, the lane results, and the digest of all three. -/
structure TrainRecord where
  serial : Nat
  rate : Nat
  lanes : List Byte
  digest : List Byte
  deriving DecidableEq, Repr

/-- A stack (R365 to R370): its state and rate codes, donor channels, the result of its last rate request and the rate
asked for. -/
structure Stk where
  state : Nat := 1
  rate : Nat := 0
  don : Nat := 0
  res : Nat := 0
  want : Nat := 0
  record : Option TrainRecord := none
  /-- It reports a temperature above 85 °C (R368). -/
  hot : Bool := false
  deriving DecidableEq, Repr

/-- A scan unit (R220, R221): element type code, threshold and the strand and command that have claimed it. -/
structure ScanUnit where
  ty : Nat := 0
  thr : Nat := 0
  owner : Option (Nat × Nat) := none
  deriving DecidableEq, Repr

/-- A member's contribution to a collective (R231): its strand and command, the form (0 `ared`, 1 `rscat`, 2 `agth`,
3 `bcst`), the op, the root, and its A as read. -/
structure Contrib where
  rank : Nat
  strand : Nat
  cmd : Nat
  form : Nat
  op : Nat
  root : Nat
  ty : Ty
  codes : List Nat
  deriving DecidableEq, Repr

/-- A collective under way: level, unit and order, and the contributions that have come. -/
structure Coll where
  level : Nat
  unit : Nat
  ord : Nat
  parts : List Contrib
  deriving DecidableEq, Repr

/-- A gang (R224, R230, R231): its members' strands by rank, its shape, its widest level, arrival counts and releases
by rank·8 + level, and its collectives under way. -/
structure Gang where
  members : List Nat
  rows : Nat
  cols : Nat
  widest : Nat
  arr : List (Nat × Nat) := []
  rel : List (Nat × Nat) := []
  colls : List Coll := []
  deriving DecidableEq, Repr

/-- A circuit that a launch has routed (R375, R376): the slot, the core of its sending end and the links that its
packets take in the slot. -/
structure Route where
  slot : Nat
  src : Nat
  dst : Nat
  links : List (Nat × Nat)
  strand : Nat
  /-- The flit pairs that it has on the Speat links among them, by the link's number there (R379). -/
  pairs : List (Nat × Nat) := []
  deriving DecidableEq, Repr

/-- A flit that has failed its CRC and has not passed it since (R382): the flit times of its last and of its first sending, and the
number of its failures. -/
structure FlitFail where
  sent : Nat
  first : Nat
  count : Nat
  deriving DecidableEq, Repr

/-- A Speat link (R381, R382): state, latency, far end, the counters, the failures within the latest reel that has any, and the flits
named for a resend, by pair and reel. -/
structure Link where
  state : Nat := 0
  lat : Nat := 0
  peerPkg : Nat := 0
  peerLink : Nat := 0
  corr : Nat := 0
  uncor : Nat := 0
  /-- The flits received that are still to come whole. -/
  fails : List FlitFail := []
  reel : Nat := 0
  reelFails : Nat := 0
  named : List (Nat × Nat) := []
  /-- Flits received that are held behind a failed one, by the flit time of their first sending. -/
  held : List (Nat × Nat) := []
  /-- The bytes of a packet whose second flit is to come, by pair. -/
  parts : List (Nat × List Byte) := []
  /-- The notice that this end has sent last: chip cycle, RETRY and RSEQ. -/
  notice : Option (Nat × Nat × Nat) := none
  /-- The flits sent in the last D reels, by flit time. -/
  kept : List (Nat × Nat) := []
  deriving DecidableEq, Repr

/-- A retirement under way (R372): channel, donor and step. -/
structure Retire where
  ch : Nat
  donor : Nat
  step : Nat
  deriving DecidableEq, Repr

/-- A measurement-log entry (R393), of those after entry 0. -/
structure LogEntry where
  kind : Nat
  version : Nat
  secver : Nat
  digest : Nat
  deriving DecidableEq, Repr

/-- A hand-over that is pending (R391): header fields, digest and the chip cycle at which it is abandoned. -/
structure HandOver where
  version : Nat
  secver : Nat
  hmask : Nat
  digest : Nat
  deadline : Nat
  deriving DecidableEq, Repr

/-- The firmware and the rest of the PF's management view (R372, R380, R384 to R395). -/
structure Pf where
  log : ErrRing := {}
  chGen : Nat := 0
  chRes : Nat := 0
  chAsk : Nat := 0
  retire : Option Retire := none
  /-- The generation that each retired channel's fence has begun (R373). -/
  fences : List (Nat × Nat) := []
  /-- Generations of the peers as broadcasts have brought them (R373). -/
  peerGen : List (Nat × Nat) := []
  root : Bool := false
  /-- Alignment has written PKG (R12, R380). -/
  placed : Bool := false
  aligned : Bool := false
  cause : Nat := 0
  supver : Nat := 0
  proof : Bool := true
  stage : Nat := 0
  /-- Firmware has asked for full service (R387). -/
  closing : Bool := false
  /-- 3,000ths of a microsecond at the last change of the chip clock, and the chip cycle of that change (R1, R387). -/
  tickBase : Nat := 0
  tickAt : Nat := 0
  fwaddr : Nat := 0
  fwlen : Nat := 0
  fwst : Nat := 0
  mlog : List LogEntry := []
  handover : Option HandOver := none
  /-- Handlers that the resident supplement supersedes. -/
  hmask : Nat := 0
  warn : Nat := 0
  /-- The chip cycle in which a die last reached 105 °C (R395). -/
  warmAt : Option Nat := none
  /-- Link events that the PF's AER holds (R325), in their order, and whether PCIe classes them as fatal. -/
  aer : List (LinkEventKind × Bool) := []
  /-- Corrected soft errors by place, 0 to 15 a stack, 16 on-chip storage (R384). -/
  soft : List (Nat × Nat) := []
  deriving DecidableEq, Repr

structure Device where
  /-- The package's number in the pod and the pod's package count (R12, R380). -/
  pkg : Nat := 0
  npkg : Nat := 1
  /-- The chip cycle at which the reels' slot 0 opens (R226). -/
  reel : Nat := 0
  /-- Stacks that differ from an untrained one (R365), by number 0 to 15. -/
  stks : List (Nat × Stk) := []
  /-- Retired channels and the channels that serve them, by 32·stack + channel (R372). -/
  remaps : List (Nat × Nat) := []
  /-- Scan units by the physical channel (R220). -/
  units : List (Nat × ScanUnit) := []
  gangs : List (Nat × Gang) := []
  routes : List Route := []
  vfs : List (Nat × Vf) := []
  /-- Quads of a VF on another package, by package · 64 + VF, as the environment has set them (R239). -/
  peerQuads : List (Nat × Nat) := []
  walks : List (Nat × Walk) := []
  /-- What is known of the open row of a bank, by 16 times its physical channel and its number (R216): `some r` once row r has been
  activated and may still be open, `none` once the bank has been precharged. -/
  rows : List (Nat × Option Nat) := []
  /-- Of a bank without an entry: no row of it has been activated since the reset; else nothing is known. -/
  rowsKnown : Bool := true
  /-- What waits at a channel under retirement, in the order of arrival (R372). -/
  parked : List Ev := []
  faults : List WalkFault := []
  reports : List EventRec := []
  /-- Compositor queues by 64·die + number, those that the PF has created. -/
  cqs : List (Nat × Cq) := []
  /-- Nodes that are ready and not yet taken: the chip cycle, queue and slot, in the order in which they became ready (R302). -/
  ready : List (Nat × Nat × Nat) := []
  launches : List Launch := []
  prologues : List Prologue := []
  /-- The prologue that the next stick-code word belongs to. -/
  prol : Nat := 0
  /-- `afc` by die (R313). -/
  afc : List (Nat × Nat) := []
  /-- MSI-X entries, pending bits and messages not yet sent, by function · 64 + vector; the PF is function 64 (R324). -/
  msix : List (Nat × MsixEntry) := []
  pba : List Nat := []
  /-- MSI-X message control by function: bit 15 MSI-X Enable, bit 14 Function Mask (R324). -/
  msixCtl : List (Nat × Nat) := []
  /-- Doorbells rung in the chip cycle that runs, by source: 1 a prologue, core + 2 a strand (R326); with queue and value. -/
  bells : List (Nat × Nat × Nat) := []
  /-- Host accesses that wait behind one of their function's that is held (R323). -/
  hostWait : List Ev := []
  /-- Host bytes whose completion has failed for a VF, by VF and 8-byte unit: the next read of them by the VF consumes it (R325). -/
  failed : List (Nat × Nat) := []
  links : List (Nat × Link) := []
  pf : Pf := {}
  deriving DecidableEq, Repr

/-! Stack addresses (R364, R372). -/

/-- Bytes of a channel and rows of a bank. -/
def channelBytes : Nat := 1610612736
def bankRows : Nat := 49152

/-- A stack's state. -/
def Device.stk (d : Device) (k : Nat) : Stk := (mget k d.stks).getD {}

/-- The channel, numbered 32·stack + channel, of a physical address. -/
def channelOf (pa : Nat) : Nat := pa / 2 ^ 36 * 32 + pa % 2 ^ 36 / channelBytes

/-- The physical address of a channel's byte. -/
def channelAddr (ch u : Nat) : Nat := ch / 32 * 2 ^ 36 + ch % 32 * channelBytes + u

/-- The channel that serves a channel's addresses. -/
def Device.physCh (d : Device) (ch : Nat) : Nat := (mget ch d.remaps).getD ch

/-- The stack byte that serves a physical address. -/
def Device.dramAddr (d : Device) (pa : Nat) : Nat :=
  match d.remaps with
  | [] => pa
  | _ =>
    let ch := channelOf pa
    if d.physCh ch = ch then pa else channelAddr (d.physCh ch) (pa % 2 ^ 36 % channelBytes)

/-- Whether a physical address lies in the capacity in service (R364). -/
def Device.paValid (d : Device) (pa : Nat) : Bool :=
  let k := d.stk (pa / 2 ^ 36)
  decide (pa / 2 ^ 36 < 16) && decide (pa % 2 ^ 36 < 32 * channelBytes) && k.state != 0 &&
    !bit k.don (pa % 2 ^ 36 / channelBytes)

end Sys2Proof.Machine
end

