-- ==== Sys2Proof/Machine/State.lean ====
section
/-! DEFINITION. The state of the machine (one package, R10), the reasons a step can stop, and the state after reset. -/

set_option linter.unusedVariables false

namespace Sys2Proof.Machine

/-- Reasons of a fault. -/
inductive Fault where
  /-- Raised by no step: every instruction and every event answers a next state. Safe. -/
  | stopped
  deriving DecidableEq, Repr

/-- Reasons of a refusal. -/
inductive Refusal where
  /-- Raised by an arm of `exec` whose instruction has no meaning yet. Safe. -/
  | notModelled (mnemonic : String)
  deriving DecidableEq, Repr

structure State where
  /-- The chip cycle (R1). -/
  now : Nat
  /-- The model's own: counter of free values drawn so far. -/
  fresh : Nat
  /-- The model's own: latencies that the environment has already fixed for the next variable-latency actions. -/
  latencies : List Nat
  /-- Events that the outside world has made and the package has not yet acted on. -/
  inputs : List Ev
  /-- Events that the package has set in motion, by the chip cycle at which they befall. -/
  agenda : List (Nat × Ev)
  /-- The strand whose word or event is acted on. -/
  cur : Nat
  /-- The model's own: a strand that the next step serves ahead of all else, or, as 4096, the prologue `dev.prol`. -/
  focus : Option Nat
  /-- Scratchpad, tiles, accumulators and distribution registers: core · 2^21 + window offset below 0x130000. -/
  onchip : List Host.Cell
  /-- Stack memory by physical address (R348, R364). -/
  dram : List Host.Cell
  /-- Host and capacity-tier memory by host bus address. -/
  host : List Host.Cell
  /-- Memory of other packages, by the path 0x6 address bits [56:0]. -/
  peer : List Host.Cell
  /-- Poison marks: 8-byte units of `onchip`, `dram` and `host` (R359). -/
  poisonChip : List Nat
  poisonDram : List Nat
  poisonHost : List Nat
  cores : List (Nat × CoreState)
  strands : List (Nat × Strand)
  dev : Device
  deriving DecidableEq, Repr

/-- The package right after a cold reset (R6); its activity forecast is due every microsecond (R313). -/
def State.reset : State :=
  { now := 0, fresh := 0, latencies := [], inputs := [], agenda := [(1500, .afcUpdate)], cur := 0, focus := none, onchip := [], dram := []
    host := [], peer := [], poisonChip := [], poisonDram := [], poisonHost := [], cores := [], strands := [], dev := {} }

end Sys2Proof.Machine
end

