-- ==== Sys2Proof/Machine/Memory.lean ====
section
/-! DEFINITION. Memory: sorted cells with the value 0 left out, byte and word accesses (R4), the four memory spaces of
the package and their poison marks (R359). -/

set_option linter.unusedVariables false

namespace Sys2Proof.Machine

/-- What an unlisted address reads as (assumption log 1). -/
def unlisted : Byte := 0

/-- The byte at address `x`. -/
def cellAt : List Host.Cell → Nat → Byte
  | [], _ => unlisted
  | (a, b) :: r, x => if x = a then b else cellAt r x

/-- Cells for bytes from address `a`, those that read as unlisted left out. -/
def cellRun (a : Nat) : List Byte → List Host.Cell
  | [] => []
  | b :: bs => if b = unlisted then cellRun (a + 1) bs else (a, b) :: cellRun (a + 1) bs

/-- Canonical form: addresses rise strictly and no entry equals what an unlisted address reads as. -/
def Memory.wf : List Host.Cell → Bool
  | [] => true
  | (a, b) :: r => b != unlisted && (match r with | [] => true | (a', _) :: _ => decide (a < a')) && Memory.wf r

/-- `n` bytes from address `a`, of cells that all lie at `a` or above. -/
def cellsFrom : List Host.Cell → Nat → Nat → List Byte
  | _, _, 0 => []
  | [], a, n + 1 => unlisted :: cellsFrom [] (a + 1) n
  | (x, v) :: r, a, n + 1 =>
    if x = a then v :: cellsFrom r (a + 1) n else unlisted :: cellsFrom ((x, v) :: r) (a + 1) n

/-- `n` bytes from address `a`. -/
def cellsAt (m : List Host.Cell) (a n : Nat) : List Byte := cellsFrom (m.dropWhile fun c => decide (c.1 < a)) a n

/-- The memory with bytes written from address `a`, in canonical form. -/
def cellsSet (m : List Host.Cell) (a : Nat) (bs : List Byte) : List Host.Cell :=
  (m.filter fun c => decide (c.1 < a)) ++ cellRun a bs ++ m.filter fun c => decide (a + bs.length ≤ c.1)

/-- The memory spaces. -/
inductive Space where
  | chip | dram | host | peer
  deriving DecidableEq, Repr

def State.mem (s : State) : Space → List Host.Cell
  | .chip => s.onchip
  | .dram => s.dram
  | .host => s.host
  | .peer => s.peer

def State.setMem (s : State) (sp : Space) (m : List Host.Cell) : State :=
  match sp with
  | .chip => { s with onchip := m }
  | .dram => { s with dram := m }
  | .host => { s with host := m }
  | .peer => { s with peer := m }

/-- Where a space keeps an address: stack bytes at the channel that serves them (R372). -/
def State.home (s : State) (sp : Space) (a : Nat) : Nat := match sp with | .dram => s.dev.dramAddr a | _ => a

/-- Poison marks of a space: numbers of 8-byte units (R359). -/
def State.poison (s : State) : Space → List Nat
  | .chip => s.poisonChip
  | .dram => s.poisonDram
  | .host => s.poisonHost
  | .peer => []

def State.setPoison (s : State) (sp : Space) (m : List Nat) : State :=
  match sp with
  | .chip => { s with poisonChip := m }
  | .dram => { s with poisonDram := m }
  | .host => { s with poisonHost := m }
  | .peer => s

/-- The number of the lowest poisoned unit that `n` bytes from `a` touch. -/
def State.poisoned (s : State) (sp : Space) (a n : Nat) : Option Nat :=
  let b := s.home sp a
  (s.poison sp).find? fun u => decide (8 * u < b + n) && decide (b < 8 * u + 8)

/-- `n` bytes of a space. -/
def State.bytes (s : State) (sp : Space) (a n : Nat) : List Byte := cellsAt (s.mem sp) (s.home sp a) n

/-- A little-endian number of `n` bytes (R4). -/
def State.num (s : State) (sp : Space) (a n : Nat) : Nat := leNat (s.bytes sp a n)

/-- Bytes written to a space; a unit that is wholly written loses its poison mark. -/
def State.write (s : State) (sp : Space) (a : Nat) (bs : List Byte) : State :=
  let a := s.home sp a
  let s1 := s.setMem sp (cellsSet (s.mem sp) a bs)
  match s.poison sp with
  | [] => s1
  | ps => s1.setPoison sp (ps.filter fun u => !(decide (a ≤ 8 * u) && decide (8 * u + 8 ≤ a + bs.length)))

/-- A number written as `n` little-endian bytes. -/
def State.writeNum (s : State) (sp : Space) (a n v : Nat) : State := s.write sp a (leBytes n v)

/-- A poison mark set on the unit that holds byte `a`. -/
def State.mark (s : State) (sp : Space) (a : Nat) : State :=
  let a := s.home sp a
  if (s.poison sp).contains (a / 8) then s else s.setPoison sp (a / 8 :: s.poison sp)

/-- The poison marks of the units of `n` bytes from `a` cleared (R359). -/
def State.unmark (s : State) (sp : Space) (a n : Nat) : State :=
  match s.poison sp with
  | [] => s
  | ps => s.setPoison sp (ps.filter fun u => !(decide (a ≤ 8 * u) && decide (8 * u + 8 ≤ a + n)))

/-- Bytes moved with their poison marks (R359): each destination unit that received a marked byte is marked. -/
def State.moveBytes (s : State) (src : Space) (a : Nat) (dst : Space) (b n : Nat) : State :=
  let marked := (List.range n).filter fun i => (s.poisoned src (a + i) 1).isSome
  marked.foldl (fun t i => t.mark dst (b + i)) (s.write dst b (s.bytes src a n))

/-- The `onchip` address of a window offset (R237, R238). -/
def chipAddr (core off : Nat) : Nat := core * 2 ^ 21 + off

/-- Scratchpad bytes (R14). -/
def spadBytes : Nat := 786432

end Sys2Proof.Machine
end

