-- ==== Sys2Proof/Machine/Ops.lean ====
section
/-! DEFINITION. The named operations over strands, registers, queue registers, landings, semaphores and stalls, the one
operation that takes a trap or an interrupt (R34 to R38) and the return beside it (R134). -/

set_option linter.unusedVariables false

namespace Sys2Proof.Machine

/-! Strands and cores. -/

/-- The strand of context `x` = core · 16 + context; of a context that none holds, `Strand.idle`. -/
def State.strandAt (s : State) (x : Nat) : Strand := (mget x s.strands).getD Strand.idle

/-- The strand acted on. -/
def State.t (s : State) : Strand := s.strandAt s.cur

def State.setStrand (s : State) (x : Nat) (t : Strand) : State := { s with strands := mset x t s.strands }

/-- The strand acted on, changed. -/
def State.upd (s : State) (f : Strand → Strand) : State := s.setStrand s.cur (f s.t)

/-- The core of a strand number. -/
def coreOf (x : Nat) : Nat := x / 16

def State.coreAt (s : State) (c : Nat) : CoreState := (mget c s.cores).getD {}

def State.setCore (s : State) (c : Nat) (k : CoreState) : State := { s with cores := mset c k s.cores }

def State.updCore (s : State) (c : Nat) (f : CoreState → CoreState) : State := s.setCore c (f (s.coreAt c))

/-- The core of the strand acted on. -/
def State.core (s : State) : Nat := coreOf s.cur

/-- The context's registers, changed. -/
def Strand.updCtx (t : Strand) (f : Ctx → Ctx) : Strand := { t with ctx := f t.ctx }

/-- A fresh number for a free value. -/
def State.tick (s : State) : State := { s with fresh := s.fresh + 1 }

/-- The chip cycles that the next variable-latency action takes, and the state with that settled. -/
def State.latency (s : State) : Nat × State :=
  match s.latencies with
  | d :: ds => (d, { s with latencies := ds })
  | [] => (Config.latency s.fresh, s.tick)

/-- An agenda entry after those of its chip cycle and before later ones. -/
def agendaAdd (at_ : Nat) (i : Ev) : List (Nat × Ev) → List (Nat × Ev)
  | [] => [(at_, i)]
  | (a, j) :: r => if a ≤ at_ then (a, j) :: agendaAdd at_ i r else (at_, i) :: (a, j) :: r

/-- The event set to befall at a chip cycle. -/
def State.schedule (s : State) (at_ : Nat) (i : Ev) : State := { s with agenda := agendaAdd at_ i s.agenda }

/-- The event set to befall after a variable latency. -/
def State.later (s : State) (i : Ev) : State :=
  let d := s.latency
  d.2.schedule (d.2.now + d.1) i

/-! Modes and fields of the strand (R35, R58). -/

def Strand.frozen (t : Strand) : Bool := t.mode == .frozen
def Strand.dbg (t : Strand) : Bool := t.ctx.smode.getLsbD 3
def Strand.exact (t : Strand) : Bool := t.ctx.smode.getLsbD 4
def Strand.rot (t : Strand) : Bool := t.ctx.smode.getLsbD 5

/-- The clock that words land by: `hclk` in a handler (R35), `sclk` else. -/
def Strand.clock (t : Strand) : Nat := if t.frozen then t.ctx.hclk else t.ctx.sclk

/-- Whether the strand runs its words now, rather than being stalled, frozen or held (R60). -/
def Strand.running (t : Strand) : Bool := t.mode == .run && t.stall.isNone

/-! Trap classes (R36, R40). -/

def trapIL (n d : Nat) : Trap := { cls := ascii2 'I' 'L', num := n, detail := d }
def trapQU (n d : Nat) : Trap := { cls := ascii2 'Q' 'U', num := n, detail := d }
def trapAF (n d : Nat) : Trap := { cls := ascii2 'A' 'F', num := n, detail := d }
def trapTS (d : Nat) : Trap := { cls := ascii2 'T' 'S', num := 1, detail := d }
def trapHF (n d : Nat) : Trap := { cls := ascii2 'H' 'F', num := n, detail := d }
def trapFF (n d : Nat) : Trap := { cls := ascii2 'F' 'F', num := n, detail := d }
def trapDB (d : Nat) : Trap := { cls := ascii2 'D' 'B', num := 1, detail := d, dbg := true }
def trapSC (n d : Nat) : Trap := { cls := ascii2 'S' 'C', num := n, detail := d, dbg := true }
def trapSP (d : Nat) : Trap := { cls := ascii2 'S' 'P', num := 1, detail := d }
def trapSL : Trap := { cls := ascii2 'S' 'L', num := 1 }
def trapSW (d : Nat) : Trap := { cls := ascii2 'S' 'W', num := 1, detail := d }
def trapBK (d : Nat) : Trap := { cls := ascii2 'B' 'K', num := 1, detail := d }
def trapEC (d : Nat) : Trap := { cls := ascii2 'E' 'C', num := 1, detail := d }
def trapWD (n d : Nat) : Trap := { cls := ascii2 'W' 'D', num := n, detail := d }

/-- Delivery T (R40): `PF`, `EC`, `WD` and `HX`. -/
def Trap.suspends (t : Trap) : Bool :=
  t.cls == ascii2 'P' 'F' || t.cls == ascii2 'E' 'C' || t.cls == ascii2 'W' 'D' || t.cls == ascii2 'H' 'X'

def trapStop {α : Type} (t : Trap) : Except Stop α := .error (.trap t)
def stallStop {α : Type} (c : Cause) : Except Stop α := .error (.stall c)

/-- Goes on if the condition holds, else ends the word with the trap. -/
def check (ok : Bool) (t : Trap) : Except Stop Unit := if ok then .ok () else .error (.trap t)

/-- The classes of the trap table, in its order (R40). -/
def trapOrder : List Nat :=
  [ascii2 'I' 'L', ascii2 'B' 'K', ascii2 'S' 'W', ascii2 'Q' 'U', ascii2 'A' 'F', ascii2 'S' 'P', ascii2 'S' 'L', ascii2 'T' 'S',
   ascii2 'H' 'F', ascii2 'F' 'F', ascii2 'D' 'B', ascii2 'S' 'C', ascii2 'P' 'F', ascii2 'E' 'C', ascii2 'W' 'D', ascii2 'H' 'X']

/-- A trap's place in the trap table (R40). -/
def Trap.row (t : Trap) : Nat := trapOrder.idxOf t.cls * 256 + t.num

/-- Of conditions of one word, the one highest in the trap table, and of those in one row the first of the list (R34). -/
def firstOf : List (Except Stop Unit) → Except Stop Unit
  | [] => .ok ()
  | .ok _ :: xs => firstOf xs
  | .error (.trap t) :: xs =>
    match firstOf xs with
    | .error (.trap u) => .error (.trap (if u.row < t.row then u else t))
    | _ => .error (.trap t)
  | .error e :: xs => match firstOf xs with | .error (.trap u) => .error (.trap u) | _ => .error e

/-! Queue registers (R43, R44, R55). -/

/-- The physical register that `q`n names: rotated in rotating mode for n from 16. -/
def Strand.physQ (t : Strand) (n : Nat) : Nat :=
  if t.rot && 16 ≤ n then 16 + (n - 16 + t.ctx.rrb.toNat % 16) % 16 else n

/-- The entries of `q`n; a handler's `q0` to `q3` are its bank's. -/
def Strand.queue (t : Strand) (n : Nat) : List QEntry :=
  if t.frozen && n < 4 then vget t.ctx.hq n [] else vget t.ctx.q (t.physQ n) []

def Strand.setQueue (t : Strand) (n : Nat) (es : List QEntry) : Strand :=
  if t.frozen && n < 4 then t.updCtx fun c => { c with hq := vset c.hq n es }
  else t.updCtx fun c => { c with q := vset c.q (t.physQ n) es }

/-- Pop or peek of `q`n: `QU 1` when its oldest entry is not a landed one. DETAIL of `QU 1` and `QU 2` is the register as the
word names it, in rotating mode too (DESIGN CHOICE: R40 and R55 do not say whether it is the named or the physical one). -/
def Strand.takeQ (t : Strand) (n : Nat) (peek : Bool) : Except Stop (Word × Strand) :=
  match t.queue n with
  | e :: es => if e.landed then .ok (e.val, if peek then t else t.setQueue n es) else trapStop (trapQU 1 n)
  | [] => trapStop (trapQU 1 n)

/-- One entry of `q`n reserved for the push that `tok` names: `QU 2` when the register is full. -/
def Strand.reserveQ (t : Strand) (n tok : Nat) : Except Stop Strand :=
  let es := t.queue n
  if 2 ≤ es.length then trapStop (trapQU 2 n)
  else .ok (t.setQueue n (es ++ [{ val := 0, landed := false, tok := tok }]))

/-- A reserved entry of a register filled. -/
def fillEntry (es : List QEntry) (tok : Nat) (v : Word) : List QEntry :=
  es.map fun e => if !e.landed && e.tok == tok then { e with val := v, landed := true } else e

/-! Latches, predicates and loop registers (R46, R47, R54). -/

def Strand.la0 (t : Strand) : Word := if t.frozen then t.ctx.hla0 else t.ctx.la0
def Strand.la1 (t : Strand) : Word := if t.frozen then t.ctx.hla1 else t.ctx.la1
def Strand.lm (t : Strand) : Word := if t.frozen then t.ctx.hlm else t.ctx.lm
def Strand.ll (t : Strand) : Word := if t.frozen then t.ctx.hll else t.ctx.ll
def Strand.lf (t : Strand) (n : Fin 16) : Word := t.ctx.lf[n]

/-- Predicate n. -/
def Strand.pred (t : Strand) (n : Nat) : Bool := vget t.ctx.p n false

/-- The count of `lc`n of an engine's sequencer. -/
def Strand.lcount (t : Strand) (e : Eng) (n : Nat) : Nat := (vget (vget t.ctx.lc e.num (Vector.replicate 8 0)) n 0).toNat

def Ctx.setLc (c : Ctx) (e n : Nat) (v : BitVec 32) : Ctx :=
  { c with lc := vset c.lc e (vset (vget c.lc e (Vector.replicate 8 0)) n v) }

/-- The guard's value (R90). -/
def Strand.guard (t : Strand) : Guard → Bool
  | .always => true
  | .on neg p => t.pred p.val != neg

/-- The latch that a transport reads (R92). -/
def Strand.xlatch (t : Strand) : XLatch → Word
  | .none => 0 | .la0 => t.la0 | .la1 => t.la1 | .lm => t.lm | .ll => t.ll | .lf n => t.lf n

/-- The value of an operand of set SC (R110), for the engine whose loop registers `lc` names; an immediate reads as
`imm`. Operands that hold no value read as 0. -/
def Strand.readOpd (t : Strand) (e : Eng) (imm : Word) (peek : Bool) : Opd → Except Stop (Word × Strand)
  | .q n => t.takeQ n.val peek
  | .la0 => .ok (t.la0, t) | .la1 => .ok (t.la1, t) | .lm => .ok (t.lm, t) | .ll => .ok (t.ll, t)
  | .lf n => .ok (t.lf n, t)
  | .lc n => .ok (BitVec.ofNat 64 (t.lcount e n.val), t)
  | .imm => .ok (imm, t)
  | _ => .ok (0, t)

/-- Operands read in slot order, each as the earlier ones leave the queue registers (R43). -/
def Strand.readOpds (t : Strand) (e : Eng) (imm : Word) : List (Opd × Bool) → Except Stop (List Word × Strand)
  | [] => .ok ([], t)
  | (o, pk) :: r =>
    match t.readOpd e imm pk o with
    | .error x => .error x
    | .ok (v, t1) =>
      match t1.readOpds e imm r with
      | .error x => .error x
      | .ok (vs, t2) => .ok (v :: vs, t2)

/-! Landings (R25, R26, R59). -/

/-- A landing recorded for the word at issue, in the strand's list or the handler's. -/
def Strand.addLanding (t : Strand) (l : Landing) : Strand :=
  if t.frozen then { t with hpend := t.hpend ++ [l] } else { t with pend := t.pend ++ [l] }

/-- Effects that land `lat` strand cycles after issue. -/
def Strand.land (t : Strand) (lat : Nat) (effs : List Eff) (flags : Nat := 0) : Strand :=
  t.addLanding { id := 0, seq := t.seq, due := t.clock + lat, effs := effs, flags := flags }

/-- Sticky flags set (R59). -/
def Strand.setFlags (t : Strand) (f : Nat) : Strand :=
  if f = 0 then t else t.updCtx fun c => { c with flg := c.flg ||| BitVec.ofNat 64 f }

/-- What a landing's effect does to the context of its strand; the effects on the core are `State.applyEff`'s. -/
def Strand.applyEff (t : Strand) (handler : Bool) : Eff → Strand
  | .la0 v => t.updCtx fun c => if handler then { c with hla0 := v } else { c with la0 := v }
  | .la1 v => t.updCtx fun c => if handler then { c with hla1 := v } else { c with la1 := v }
  | .lm v => t.updCtx fun c => if handler then { c with hlm := v } else { c with lm := v }
  | .ll v => t.updCtx fun c => if handler then { c with hll := v } else { c with ll := v }
  | .lf n v => t.updCtx fun c => { c with lf := c.lf.set n.val v }
  | .pred n b => t.updCtx fun c => { c with p := c.p.set n.val b }
  | .push q tok v =>
    t.updCtx fun c =>
      if handler && q < 4 then { c with hq := vset c.hq q (fillEntry (vget c.hq q []) tok v) }
      else { c with q := vset c.q q (fillEntry (vget c.q q []) tok v) }
  | .region n v => t.updCtx fun c => { c with g := c.g.set n.val v }
  | .tcfg n v => t.updCtx fun c => { c with tcfg := c.tcfg.set n.val v }
  | .loop e n v => t.updCtx fun c => c.setLc e.num n.val v
  | _ => t

/-- The strand with its checkpoint changed. -/
def Strand.inCheckpoint (t : Strand) (f : Checkpoint → Checkpoint) : Strand := { t with ckpt := t.ckpt.map f }

/-! Semaphores (R24, R56). -/

/-- The count of semaphore `n`. -/
def State.sem (s : State) (c n : Nat) : Nat := (mget n (s.coreAt c).sems).getD 0

def State.setSem (s : State) (c n v : Nat) : State := s.updCore c fun k => { k with sems := mset n v k.sems }

/-- A raise of semaphore `n` of the strand's core by `m`: at 255 it stays, SEMSAT is set and the hint counts as
ignored (R24, R126). -/
def State.raiseBy (s : State) (n m : Nat) : State :=
  if n = 0 then s
  else
    let v := s.sem s.core n
    if v + m ≤ 255 then s.setSem s.core n (v + m)
    else (s.setSem s.core n 255).upd fun t => { (t.setFlags fSEMSAT) with hmis := t.hmis + 1 }

def State.raise (s : State) (n : Nat) : State := s.raiseBy n 1

/-- A raise by an asynchronous completion, which takes effect before the next strand cycle's order begins (R56), or at
once while the strand does not run. -/
def State.raiseAsync (s : State) (n : Nat) : State :=
  if n = 0 then s else if s.t.running then s.upd fun t => { t with raises := t.raises ++ [n] } else s.raise n

/-- The raises that waited, applied. -/
def State.applyRaises (s : State) : State :=
  s.t.raises.foldl (fun s n => s.raise n) (s.upd fun t => { t with raises := [] })

/-- Whether a semaphore is the strand's own (R41). -/
def Strand.ownsSem (t : Strand) (n : Nat) : Bool := 1 ≤ n && n ≤ 31 && t.ctx.owns.getLsbD n

/-! The accumulators' mode bits (R52). -/

/-- V, M of an accumulator and a clear of OV, as a delivery leaves them. -/
def acmPut (acm : Nat) (a : Nat) (v m clearOv : Bool) : Nat :=
  let x := putBits acm (4 * a) 2 (b2n v + 2 * b2n m)
  if clearOv then putBits x (4 * a + 2) 1 0 else x

def accV (acm a : Nat) : Bool := bit acm (4 * a)
def accM (acm a : Nat) : Bool := bit acm (4 * a + 1)

/-! Queues and their words (R23, R84, R85). -/

/-- The queue the strand's S engine runs: the handler's while one runs. -/
def Strand.ctl (t : Strand) (e : Eng) : QCtl :=
  if t.frozen && e = .s then t.hqueue else vget t.queues e.num {}

def Strand.setCtl (t : Strand) (e : Eng) (c : QCtl) : Strand :=
  if t.frozen && e = .s then { t with hqueue := c } else { t with queues := vset t.queues e.num c }

/-- The ring word at an index as memory holds it now. -/
def State.ringWord (s : State) (c : QCtl) (i : Nat) : Nat :=
  s.num .chip (chipAddr s.core (c.base + 16 * (i % c.len))) 16

/-- IDLE of a word (R86). -/
def idleOf (w : Nat) : Nat := bits w 123 114

/-- A ring word as prefetch finds it: one that has changed since its span opened reads old or new, as the implementation chose
for the number `pick` (R85). -/
def State.prefetched (s : State) (c : QCtl) (i pick : Nat) : Nat :=
  let w := s.ringWord c i
  match mget (i % c.len) c.snaps with
  | none => w
  | some old => if old ≠ w && Config.prefetchOld pick then old else w

/-- The word the engine reads for its queue's index, whole and once (R85). A word that it may have read before a change to it
stays as it was read, or is read as it is now, as the implementation chose; but an IDLE that has already passed shows that the
read came before the change (R23). -/
def State.fetched (s : State) (c : QCtl) : Nat :=
  match c.word with
  | none => s.prefetched c c.idx (4 * c.pick)
  | some w =>
    let now := s.ringWord c c.idx
    if c.fixed || w == now || Config.prefetchOld (4 * c.pick + 1) || (c.owe.isNone && decide (idleOf now < c.waited)) then w else now

/-- The queue with its word, and the one after it, read for good (R85). -/
def State.latched (s : State) (c : QCtl) : QCtl :=
  if c.fixed then c
  else { c with word := some (s.fetched c), after := s.prefetched c (c.idx + 1) (4 * c.pick + 2), fixed := true }

/-- Opportunities the queue still leaves empty before its word (R23, R37). -/
def State.stillOwed (s : State) (c : QCtl) : Nat := c.owe.getD (idleOf (s.fetched c)) - c.waited

/-- The queue moved on to an index: its own IDLE counts from here, and the spans of the words 32 positions after those that have
issued open. -/
def QCtl.moveTo (c : QCtl) (s : State) (i : Nat) : QCtl :=
  let open_ (m : List (Nat × Nat)) (j : Nat) : List (Nat × Nat) :=
    let far := (j + 32) % c.len
    mset far (s.ringWord c far) (mdel (j % c.len) m)
  { c with idx := i % c.len, owe := none, waited := 0, pick := s.fresh, word := none, fixed := false
           snaps := if i = c.idx + 2 then open_ (open_ c.snaps c.idx) (c.idx + 1) else open_ c.snaps c.idx }

/-- The strand's queue moved to an index. -/
def State.moveQueue (s : State) (e : Eng) (i : Nat) : State :=
  (s.upd fun t => t.setCtl e ((t.ctl e).moveTo s i)).tick

/-! Stalls (R29, R30, R32). -/

/-- A stall's number among the causes. -/
def Cause.num : Cause → Nat
  | .landing => 0 | .translation => 1 | .window => 2 | .semaphore => 3 | .edge => 4 | .tracker => 5 | .order => 6
  | .channel => 7 | .hold => 8 | .retiring => 9

/-- The causes that `slip` counts (R32, R33). -/
def Cause.slips : Cause → Bool
  | .edge | .tracker => true
  | _ => false

/-- The number of places that two cores share: 0 same core, 1 same quad, 2 same die, 3 same package (R11). -/
def spanOf (a b : Nat) : Nat := if a = b then 0 else if a / 4 = b / 4 then 1 else if a / 64 = b / 64 then 2 else 3

/-- The strands of a gang on this package, by strand number. -/
def State.gangStrands (s : State) (g : Nat) : List Nat :=
  (s.strands.filter fun e => e.2.gang == g && e.2.mode != .ended).map Prod.fst

/-- The gang of a number (R224). -/
def State.gang (s : State) (g : Nat) : Gang := (mget g s.dev.gangs).getD { members := [], rows := 1, cols := 1, widest := 1 }

def State.setGang (s : State) (g : Nat) (k : Gang) : State := { s with dev := { s.dev with gangs := mset g k s.dev.gangs } }

/-- The hold horizon of a level in a gang (R30, R230). -/
def Gang.horizon (g : Gang) (level : Nat) : Nat :=
  let l := if level = 6 then g.widest else level
  if l ≤ 2 then 4 else if l = 3 then 24 else if l = 4 then 64 else 3072

/-- The hold horizon H of the gang of the strand acted on: of its widest level, whichever of its strands still run (R30). -/
def State.horizon (s : State) : Nat := (s.gang s.t.gang).horizon 6

/-- A hold of member `src` that reaches the strands of a gang on this package: each stops at the start of strand cycle `stop`. -/
def State.spreadHold (s : State) (g src stop : Nat) : State :=
  (s.gangStrands g).foldl
    (fun s y =>
      if y = src then s
      else
        let u := s.strandAt y
        s.setStrand y { u with holds := u.holds ++ [{ src := src, stopAt := stop, released := none }] })
    s

/-- The release of member `src`'s hold, at which the strands of the gang on this package resume in chip cycle `at_`. -/
def State.spreadRelease (s : State) (g src at_ : Nat) : State :=
  (s.gangStrands g).foldl
    (fun s y =>
      let u := s.strandAt y
      if u.holds.any fun k => k.src == src && k.released.isNone then
        (s.setStrand y
          { u with holds := u.holds.map fun k =>
              if k.src == src && k.released.isNone then { k with released := some at_ } else k }).schedule at_ (.holdReleaseResume y src)
      else s)
    s

/-- The hold that a strand of an exact gang announces to the others when it stalls (R30), and when it freezes or is suspended:
holds alone move a strand of such a gang, and they move the whole gang together (R297). -/
def State.announceHold (s : State) : State :=
  let t := s.t
  if !t.exact || t.announced then s
  else (s.upd fun t => { t with announced := true }).spreadHold t.gang s.cur (t.ctx.sclk + s.horizon)

/-- The release of the hold it announced, when it goes on in chip cycle `at_`: the others resume H chip cycles later. -/
def State.releaseHold (s : State) (at_ : Nat) : State :=
  let t := s.t
  if !t.announced then s
  else (s.upd fun t => { t with announced := false }).spreadRelease t.gang s.cur (at_ + s.horizon)

/-! Taking a trap or an interrupt (R34 to R38). -/

/-- A queue's resume point (R37). -/
def State.resumePoint (s : State) (c : QCtl) : Word :=
  if c.halted then BitVec.ofNat 64 (2 ^ 24 + c.idx) else BitVec.ofNat 64 (s.stillOwed c % 1024 * 2 ^ 14 + c.idx)

/-- `trc` (R36). -/
def trcOf (cls num detail queue : Nat) (int dbg : Bool) : Word :=
  BitVec.ofNat 64
    (packFields [(16, detail % 65536), (16, 0), (16, cls), (8, num), (3, queue), (1, b2n int), (1, b2n dbg), (3, 0)])

/-- A queue as its resume point is taken: where its word's own IDLE counts, or its turn has come, the word has been read, and it is
not read again (R85, R37). -/
def State.hasRead (s : State) (c : QCtl) : QCtl := if !c.halted && (c.owe.isNone || s.stillOwed c == 0) then s.latched c else c

/-- `trc`, `trs` and the six resume points written as they stand (R36, R37). -/
def State.recordTrap (s : State) (trc : Word) : State :=
  s.upd fun t =>
    { t.updCtx fun c =>
        { c with trc := trc, trs := BitVec.ofNat 64 c.sclk
                 tq := Vector.ofFn fun e : Fin 6 => s.resumePoint (vget t.queues e.val {}) } with
      queues := Vector.ofFn fun e : Fin 6 => s.hasRead (vget t.queues e.val {}) }

/-- The event goes to its tenant's error ring in its turn (R360, R361). -/
def State.report (s : State) (r : EventRec) : State :=
  ({ s with dev := { s.dev with reports := s.dev.reports ++ [r] } }).schedule s.now (.ringRecordWrite r.vf 16)

/-- ORIG of a strand's event (R361): core, context and die. -/
def origOf (x : Nat) : Nat := x / 16 % 256 + x % 16 * 256 + x / 16 / 64 % 4 * 4096

/-- The registers of a virtual function. -/
def State.vf (s : State) (v : Nat) : Vf := (mget v s.dev.vfs).getD {}

def State.setVf (s : State) (v : Nat) (f : Vf → Vf) : State :=
  { s with dev := { s.dev with vfs := mset v (f (s.vf v)) s.dev.vfs } }

/-- A bit of `vaerus` set; the first unmasked one keeps the request's header, and an unmasked one is reported as `LK` (R363). -/
def State.setVaer (s : State) (v k addr : Nat) : State :=
  let f := s.vf v
  if bit f.vaerum k then s.setVf v fun f => { f with vaerus := f.vaerus ||| 2 ^ k }
  else
    let first := (f.vaerus ^^^ (f.vaerus &&& f.vaerum)) == 0
    (s.tick.setVf v fun f =>
      { f with vaerus := f.vaerus ||| 2 ^ k
               vaerhdr := if first then (Config.requestHeader s.fresh).toNat else f.vaerhdr }).report
      { vf := v, addr := addr, src := 2, cls := ascii2 'L' 'K', num := k }

/-- `EC 1` sets DATA in its VF's `vaerus` (R363). -/
def State.noteEc (s : State) (tr : Trap) (v : Nat) : State := if tr.cls = ascii2 'E' 'C' then s.setVaer v 4 tr.addr else s

/-- The record of a strand's trap for its tenant's error ring (R361). -/
def State.trapRecord (s : State) (tr : Trap) (queue : Nat) : EventRec :=
  { vf := s.t.vf, addr := tr.addr, src := 0, orig := origOf s.cur, cls := tr.cls, num := tr.num, queue := queue
    detail := tr.recDetail.getD tr.detail, info := tr.info }

/-- A host fault is entered in the PF's log (R353, R384). -/
def State.logHostFault (s : State) (tr : Trap) (queue : Nat) : State :=
  if tr.host then s.report { s.trapRecord tr queue with vf := 64 } else s

/-- Delivery T: the strand is suspended with every holding, and its tenant is told; of a host fault, the PF too (R35,
R353). -/
def State.suspend (s : State) (tr : Trap) (queue pos : Nat) : State :=
  (((s.announceHold.upd fun t => { t with mode := .suspended, resumeAt := pos, suspendedBy := some tr, hostFault := tr.host
                                          stall := none, recFetch := none }).noteEc tr s.t.vf).report (s.trapRecord tr queue)).logHostFault
    tr queue

/-- The freeze (R35): `hclk` starts at 0 and the S engine runs the handler at `tvec`. A freeze inside a strand cycle
has used that cycle's opportunities, so the origin moves on by the stride; one that follows a `tret` at once has not. -/
def State.freeze (s : State) (pos : Nat) : State :=
  (s.announceHold.upd fun t =>
    let q := vget t.queues 0 {}
    { t with mode := .frozen, resumeAt := pos, micro := 0, offset := 0, hpend := [], stall := none, recFetch := none, back := false
             origin := t.origin + (if pos = 0 ∨ t.back then 0 else t.stride)
             hqueue := { q with idx := t.ctx.tvec.toNat % q.len, owe := none, waited := 0, halted := false, snaps := []
                                pick := s.fresh, word := none, fixed := false }
             ctx := { t.ctx with hclk := 0 } }).tick

/-- A trap of the word of `queue` at place `pos` of the strand cycle, 0 at a boundary (R34 to R37): inside a handler it
is `HX 1`; a trap of delivery T suspends; any other freezes the strand and its handler runs. -/
def State.takeTrap (s : State) (tr : Trap) (queue pos : Nat) : State :=
  if s.t.frozen then
    let hx : Trap := { cls := ascii2 'H' 'X', num := 1, detail := (tr.cls * 256 + tr.num) % 65536
                       recDetail := some (tr.cls * 256 + tr.num) }
    (((s.noteEc tr s.t.vf).logHostFault tr queue).upd fun t =>
      t.updCtx fun c => { c with trc := trcOf hx.cls 1 hx.detail queue false false }).suspend hx queue s.t.micro
  else
    let s1 := s.recordTrap (trcOf tr.cls tr.num tr.detail queue false tr.dbg)
    if tr.suspends then s1.suspend tr queue pos else s1.freeze pos

/-- An interrupt `IN`n taken at place `pos` (R38): its pending bit clears and the strand freezes. -/
def State.takeInterrupt (s : State) (n detail pos : Nat) : State :=
  let s1 := s.recordTrap (trcOf (ascii2 'I' 'N') n detail 7 true false)
  (s1.upd fun t => t.updCtx fun c => { c with inten := c.inten &&& ~~~(1#64 <<< (7 + n)) }).freeze pos

/-- A source of interrupt `IN`n fires: pending if enabled, else dropped (R38). -/
def Strand.fire (t : Strand) (n : Nat) : Strand :=
  if t.ctx.inten.getLsbD (n - 1) then t.updCtx fun c => { c with inten := c.inten ||| (1#64 <<< (7 + n)) } else t

/-- A queue set to a resume point (R37): HALTED, OWE and INDEX. The INDEX word issues at OWE, as R37 and R128 state; the sentence of
R273 that adds the word's own IDLE gives way to them (DEDUCED). A queue that stays at its word keeps what it has read of it. -/
def QCtl.resume (c : QCtl) (v : Word) : QCtl :=
  if v.getLsbD 24 then { c with halted := true }
  else
    let i := v.toNat % 16384 % c.len
    let c1 := { c with halted := false, idx := i, owe := some (v.toNat / 16384 % 1024), waited := 0 }
    if i = c.idx then c1 else { c1 with word := none, fixed := false, snaps := [] }

/-- The end of a freeze (R35, R37): every queue takes its resume point; handler results still pending land now, those of
variable latency that have not arrived without a value, and the SPOST of each is raised with it (DESIGN CHOICE: R134 ends the
freeze and says of neither what becomes of it). -/
def State.handlerReturn (s : State) : State :=
  let s1 := s.t.hpend.foldl (fun s l => s.raise l.spost) s
  (s1.releaseHold (s1.now + s1.t.stride)).upd fun t =>
    let t1 := t.hpend.foldl (fun t l => (l.effs.foldl (fun t e => t.applyEff true e) t).setFlags l.flags) t
    let c := t1.ctx
    { t1 with mode := .run, micro := t1.resumeAt, offset := 0, back := true, hpend := []
              asyncs := t1.asyncs.map fun a => { a with paused := false }, origin := t1.origin + t1.stride
              queues := Vector.ofFn fun e : Fin 6 =>
                (vget t1.queues e.val {}).resume (vget c.tq e.val 0) }

end Sys2Proof.Machine
end

