-- ==== Sys2Proof/Machine/Scoreboard.lean ====
section
/-! DEFINITION. Footprints and edges (R31 to R33, R204, R254), timed accesses still to come (R141, R246, R253), bank
groups and the checks of a timed scratchpad access (R120, R241, R242), and order among a strand's accesses
(R251, R252). -/

set_option linter.unusedVariables false

namespace Sys2Proof.Machine

/-! Bank groups (R241, R242). -/

/-- The bank of a scratchpad byte. -/
def bankOf (a : Nat) : Nat := a / 32 % 96

/-- The bank group of a scratchpad byte. -/
def groupOf (a : Nat) : Nat := a % 3072 / 256

/-- Whether bytes `a` to `a + n` − 1 lie in bank groups of the mask; `fuel` bounds the groups walked. -/
def inGroups (banks : Nat) (a n : Nat) : Nat → Bool
  | 0 => true
  | fuel + 1 =>
    if n = 0 then true
    else
      let step := 256 - a % 256
      bit banks (groupOf a) && (if n ≤ step then true else inGroups banks (a + step) (n - step) fuel)

/-- Whether a timed access to `n` bytes from `a` stays in the strand's bank groups (R242). -/
def Strand.ownsBytes (t : Strand) (a n : Nat) : Bool := inGroups t.banks a n 12

/-- The checks of a timed S access at an exact address: range, bank groups, alignment (R120, R242). -/
def Strand.timedCheck (t : Strand) (e : Int) (n slot : Nat) : Except Stop Nat :=
  if e < 0 ∨ (spadBytes : Int) < e + n then trapStop (trapAF 3 3)
  else if !t.ownsBytes e.toNat n then trapStop (trapAF 3 3)
  else if e.toNat % n ≠ 0 then trapStop (trapAF 4 slot)
  else .ok e.toNat

/-! Footprints and edges. -/

/-- Two ranges of which one at least writes overlap. -/
def FpRange.meets (a b : FpRange) : Bool := decide (a.lo < b.hi) && decide (b.lo < a.hi) && (a.write || b.write)

/-- A range of the own core's window, as a package-wide range. -/
def winRange (core lo hi : Nat) (write : Bool) : FpRange := { lo := chipAddr core lo, hi := chipAddr core hi, write := write }

/-- Whether a read range of a footprint is the hull of the reads that a command was issued with. -/
def Async.readsThrough (a : Async) (f : FpRange) : Bool :=
  match a.rd0 with
  | [] => false
  | p :: r =>
    let lo := r.foldl (fun m q => Nat.min m q.addr) p.addr
    let hi := r.foldl (fun m q => Nat.max m (q.addr + q.len)) (p.addr + p.len)
    let w := if bits p.addr 63 60 = 3 then 2 ^ 21 else 2 ^ 29
    !f.write && (bits p.addr 63 60 == 3 || bits p.addr 63 60 == 4) && f.lo % w == lo % w && f.hi - f.lo == hi - lo

/-- The ranges of a footprint in which the command still has accesses to make: an edge is satisfied once those that it covers have
been completed (R31). A range is kept whole while one of its accesses is left (DEDUCED, log entry 158). -/
def Async.fpLeft (a : Async) : List FpRange :=
  if a.performed || !a.rd.isEmpty then a.fp
  else
    match a.instr with
    | .cpy _ _ | .cprm _ _ | .hbind _ _ | .cpt _ _ | .cpf _ _ _ | .mmih _ _ | .mmah _ _ | .gmmih _ _ | .gmmah _ _ =>
      a.fp.filter fun f => !a.readsThrough f
    | .gth _ _ | .sct _ _ => if a.idx.isEmpty then a.fp.filter fun f => f.write else a.fp
    | _ => a.fp

/-- The lowest tracker slot whose command's footprint meets one of the ranges (R31): a command whose accesses have all
performed keeps its flag word alone. -/
def Strand.edgeSlot (t : Strand) (rs : List FpRange) : Option Nat :=
  let hits := t.asyncs.filter fun a => a.trk != 0 && a.fpLeft.any fun f => rs.any fun r => f.meets r
  hits.foldl (fun m a => match m with | none => some a.trk | some k => some (Nat.min k a.trk)) none

/-- The edges of a word's scratchpad and window ranges: a stall, or `SC 1` in debug mode (R32). -/
def Strand.edges (t : Strand) (rs : List FpRange) : Except Stop Unit :=
  match t.edgeSlot rs with
  | none => .ok ()
  | some k => if t.dbg then trapStop (trapSC 1 k) else stallStop .edge

/-- Whether a tracker slot is occupied (R31). -/
def Strand.slotBusy (t : Strand) (k : Nat) : Bool := t.asyncs.any fun a => a.trk == k && a.open_

/-- The slot that TRK names: rotated for 8 to 15 in rotating mode (R264). -/
def Strand.physTrk (t : Strand) (k : Nat) : Nat :=
  if t.rot && 8 ≤ k then 8 + (k - 8 + t.ctx.rrb.toNat % 16) % 8 else k

/-- The tracker slot of a command with a footprint, and the hints it costs (R33). -/
def Strand.takeSlot (t : Strand) (trk : Nat) : Except Stop (Nat × Nat) :=
  if trk = 0 then
    if t.dbg then trapStop (trapSC 2 0)
    else
      match (List.range 16).find? fun k => decide (1 ≤ k) && !t.slotBusy k with
      | some k => .ok (k, 1)
      | none => stallStop .tracker
  else
    let k := t.physTrk trk
    if t.slotBusy k then (if t.dbg then trapStop (trapSC 3 k) else stallStop .tracker) else .ok (k, 0)

/-! Timed accesses still to come. -/

/-- The nibble at which an access made in order `i` begins. -/
def TimedAcc.at_ (a : TimedAcc) (i : Nat) : Int := a.base + a.step * i

/-- The strand cycle at which element `i` of a timed access is made. -/
def TimedAcc.dueOf (a : TimedAcc) (i : Nat) : Nat := a.due + i / a.per * a.c

/-- The strand cycle of the last element. -/
def TimedAcc.last (a : TimedAcc) : Nat := a.dueOf (a.count - 1)

/-- Whether an element made in strand cycle `k` or later touches window bytes `lo` to `hi` − 1. -/
def TimedAcc.touches (a : TimedAcc) (k lo hi : Nat) : Bool :=
  decide (k ≤ a.last) &&
    (List.range a.count).any fun i =>
      let n := a.at_ i
      decide (k ≤ a.dueOf i) && decide (n < 2 * (hi : Int)) && decide (2 * (lo : Int) < n + a.size)

/-- The first strand cycle whose timed accesses are still to come as a word issues: the next one, and for a handler that runs
at the boundary before strand cycle k, k itself, whose landings wait (R35). -/
def Strand.ahead (t : Strand) : Nat := if t.frozen && t.resumeAt = 0 then t.ctx.sclk else t.ctx.sclk + 1

/-- A plain timed access to bytes `lo` to `hi` − 1 at strand cycle `due`. -/
def timedRange (lo hi due : Nat) (write : Bool) : TimedAcc :=
  { base := 2 * lo, step := 0, size := 2 * (hi - lo), count := 1, per := 1, c := 1, due := due, write := write }

/-- The last strand cycle at which an access of an earlier V, F, D or M word is made (R124, R253). -/
def Strand.lastTimed (t : Strand) : Nat := t.timed.foldl (fun m a => Nat.max m a.last) 0

/-- Whether a timed access of an earlier word is still to be made as a word of S issues: a write that has not come due, or a read
that falls at a later place of this strand cycle or after it (R124, R253). -/
def Strand.timedLeft (t : Strand) : Bool := t.timed.any fun a => decide ((if a.write then t.ahead else t.ctx.sclk) ≤ a.last)

/-- Whether only writes, made at its opening, fall at that strand cycle. -/
def Strand.lastWrites (t : Strand) : Bool := t.timed.all fun a => a.write || decide (a.last ≠ t.lastTimed)

/-- Whether a command that reads or writes the own-window range has to wait for a pending timed access (R141). -/
def Strand.conflicts (t : Strand) (lo hi : Nat) (write : Bool) : Bool :=
  t.timed.any fun a => (a.write || write) && a.touches t.ahead lo hi

/-- The strand cycle until which conflicting accesses last. -/
def Strand.conflictEnd (t : Strand) (lo hi : Nat) (write : Bool) : Nat :=
  t.timed.foldl
    (fun m a => if (a.write || write) && a.touches t.ahead lo hi then Nat.max m a.last else m) 0

/-- The lowest word, accumulator or tile of window bytes `lo` to `hi` − 1, by its window offset, whose pending bit is set by a
write made in strand cycle `k` or later (R246). -/
def Strand.pendingBit (t : Strand) (k lo hi : Nat) : Option Nat :=
  if 0x100000 ≤ lo then
    let n := (lo - 0x100000) / 0x10000
    if t.timed.any fun a => a.write && a.touches k (0x100000 + 0x10000 * n) (0x100000 + 0x10000 * (n + 1)) then
      some (0x100000 + 0x10000 * n)
    else none
  else if 0xC0000 ≤ lo then
    let n := (lo - 0xC0000) / 0x4000
    if t.timed.any fun a => a.write && a.touches k (0xC0000 + 0x4000 * n) (0xC0000 + 0x4000 * (n + 1)) then
      some (0xC0000 + 0x4000 * n)
    else none
  else
    ((List.range ((hi + 3) / 4 - lo / 4)).find? fun i =>
      let w := (lo / 4 + i) * 4
      t.timed.any fun a => a.write && a.touches k w (w + 4)).map fun i => (lo / 4 + i) * 4

/-- DETAIL of `DB 1` for a set pending bit (R246): the bank of a scratchpad word, 96 and 97 for the accumulators, 112 + n for
tile n. -/
def pendingDetail (off : Nat) : Nat :=
  if 0x100000 ≤ off then 96 + (off - 0x100000) / 0x10000
  else if 0xC0000 ≤ off then 112 + (off - 0xC0000) / 0x4000
  else bankOf off

/-- The pending-bit check of timed reads, in debug mode alone: each with the first strand cycle whose writes it does not see, and
its byte range. The lowest set bit of all of them gives DETAIL (R246). -/
def Strand.dbCheck (t : Strand) (reads : List (Nat × Nat × Nat)) : Except Stop Unit :=
  if !t.dbg then .ok ()
  else
    match reads.filterMap fun r => t.pendingBit r.1 r.2.1 r.2.2 with
    | [] => .ok ()
    | d :: ds => trapStop (trapDB (pendingDetail (ds.foldl Nat.min d)))

/-! Order of accesses (R251 to R253). -/

/-- Two ordering classes that order two accesses: equal, or either 0. -/
def classesOrder (a b : Nat) : Bool := a == b || a == 0 || b == 0

/-- Whether a timed S access of class `c` has to wait for an asynchronous access before it (R252), or for a fence that masks its
class and for which an asynchronous access has still to perform (R124). -/
def Strand.orderWait (t : Strand) (c : Nat) : Bool :=
  t.asyncs.any fun a => !a.performed && (match a.fence with | some m => bit m c | none => classesOrder a.cls c)

/-- What every timed S access does before its effect: pending bits for a read, edges, and order (R246, R32, R252). -/
def Strand.timedGate (t : Strand) (core cls a n : Nat) (write : Bool) : Except Stop Unit :=
  match if write then .ok () else t.dbCheck [(t.ahead, a, a + n)] with
  | .error e => .error e
  | .ok _ =>
    match t.edges [winRange core a (a + n) write] with
    | .error e => .error e
    | .ok _ => if t.orderWait cls then stallStop .order else .ok ()

/-- `EC 1` for a timed read of poisoned bytes (R359). -/
def State.poisonCheck (s : State) (a n : Nat) : Except Stop Unit :=
  match s.poisoned .chip (chipAddr s.core a) n with
  | none => .ok ()
  | some u => trapStop { trapEC 16 with addr := 3 * 2 ^ 60 + (8 * u - chipAddr s.core 0) }

/-! Writes to a core's storage. -/

/-- Whether the word a `waita` sleeps on meets its threshold: the value read as `ty` is at least the threshold (R125). -/
def meetsThreshold (ty : Ty) (v thr : Nat) : Bool :=
  if ty.signed then decide (sext ty.width thr ≤ sext ty.width v) else decide (thr % 2 ^ ty.width ≤ v)

/-- A landing that sleeps on a scratchpad word, tested on a value read from there. -/
def Landing.meet (l : Landing) (v : Nat) : Landing :=
  match l.wait with
  | .scratch _ _ ty thr => if meetsThreshold ty v thr then { l with arrived := true, effs := [.ll (BitVec.ofNat 64 v)] } else l
  | _ => l

/-- A landing that sleeps on a scratchpad word, told that bytes `lo` to `hi` − 1 of its core have been written. -/
def Landing.wake (l : Landing) (s : State) (core lo hi : Nat) : Landing :=
  match l.wait with
  | .scratch a n _ _ =>
    if !l.arrived && decide (a < hi) && decide (lo < a + n) then l.meet (s.num .chip (chipAddr core a) n) else l
  | _ => l

/-- Every sleeping `waita` of a core told of a write (R125). -/
def State.wake (s : State) (core lo hi : Nat) : State :=
  { s with strands := s.strands.map fun e =>
      if coreOf e.1 = core then
        (e.1, { e.2 with pend := e.2.pend.map fun l => l.wake s core lo hi
                         hpend := e.2.hpend.map fun l => l.wake s core lo hi })
      else e }

/-- The 4 KiB piece of large state that holds a window byte (R343): kind and index. -/
def pieceOf (off : Nat) : Nat × Nat :=
  if off < 0xC0000 then (0, 16 * groupOf off + off / 3072 / 16)
  else if off < 0x100000 then (1, (off - 0xC0000) / 4096)
  else if off < 0x120000 then (2, (off - 0x100000) / 4096)
  else (3, (off - 0x120000) / 4096)

/-- The pieces that bytes `off` to `off + n` − 1 touch. -/
def piecesTouched (off n : Nat) : List (Nat × Nat) :=
  if n = 0 then [] else ((List.range ((off + n - 1) / 256 + 1 - off / 256)).map fun i => pieceOf (256 * (off / 256 + i))).eraseDups

/-- The pieces noted as written (R343). -/
def CoreState.touch (k : CoreState) (off n : Nat) : CoreState :=
  { k with dirty := k.dirty ++ (piecesTouched off n).filter fun p => !k.dirty.contains p }

/-- The longest stride (R101), past which no timed access looks back. -/
def maxStride : Nat := 16

/-- The bytes that a write replaces, noted for timed reads of earlier chip cycles; entries too old to matter go. -/
def CoreState.note (k : CoreState) (now : Nat) (u : BankUndo) : CoreState :=
  { k with bankUndo := u :: k.bankUndo.filter fun v => decide (now < v.time + maxStride) }

/-- Whether timed accesses of a core can fall in other chip cycles than their words: a strand of a stride above 1. -/
def State.spreads (s : State) (core : Nat) : Bool := s.strands.any fun e => coreOf e.1 == core && e.2.stride != 1

/-- Bytes written to a core's window below 0x130000, the one way by which they are: a write that timed reads made in chip
cycle `time` or later see. -/
def State.chipWriteAt (s : State) (time core off : Nat) (bs : List Byte) : State :=
  let s1 :=
    if off < spadBytes ∧ (s.now < time ∨ s.spreads core) then
      s.updCore core fun k => k.note s.now { time := time, off := off, old := s.bytes .chip (chipAddr core off) bs.length }
    else s
  ((s1.write .chip (chipAddr core off) bs).updCore core fun k => k.touch off bs.length).wake core off (off + bs.length)

/-- A write that is no timed access: the timed reads of its own chip cycle come before it (R243). -/
def State.chipWrite (s : State) (core off : Nat) (bs : List Byte) : State := s.chipWriteAt (s.now + 1) core off bs

/-! Timed accesses: their chip cycles (R242). -/

/-- The chip cycle at which the strand cycle opens (R20). -/
def Strand.openCycle (t : Strand) : Nat := t.origin + t.ctx.sclk * t.stride

/-- The chip cycle of the strand cycle's opportunity of an engine, at which a word of it issues (R20, R22, R292). -/
def Strand.wordCycle (t : Strand) (e : Eng) : Nat := t.openCycle + vget t.phi e.num 0

/-- The chip cycle of a timed access to a scratchpad byte in the present strand cycle (R242). -/
def Strand.bankCycle (t : Strand) (off : Nat) : Nat := t.openCycle + vget t.phiBg (groupOf off) 0

/-- The chip cycle, from the opening on, by which every bank group of the strand has been served. -/
def Strand.bankSpan (t : Strand) : Nat :=
  (List.range 12).foldl (fun m g => if bit t.banks g then Nat.max m (vget t.phiBg g 0) else m) 0

/-- The chip cycle, from the opening on, at which a word that writes scratchpad at issue is taken up: its engine's phase, or the phase
of a bank group of the strand that comes before it, since its write falls in that chip cycle (R22, R242). -/
def Strand.storeOffset (t : Strand) (e : Eng) : Nat :=
  (List.range 12).foldl (fun m g => if bit t.banks g then Nat.min m (vget t.phiBg g 0) else m) (vget t.phi e.num 0)

/-- The chip cycle, from the opening on, by which the phases of an engine and of every bank group of the strand have come. -/
def Strand.readOffset (t : Strand) (e : Eng) : Nat := Nat.max (vget t.phi e.num 0) t.bankSpan

/-- One byte as a timed read of chip cycle `x` finds it: what was written in later chip cycles is undone, newest first. -/
def undoByte (log : List BankUndo) (x off : Nat) (b : Byte) : Byte :=
  log.foldl (fun b u => if x < u.time ∧ u.off ≤ off ∧ off < u.off + u.old.length then u.old.getD (off - u.off) b else b) b

/-- The scratchpad bytes that a timed read of the strand finds (R242). -/
def State.spadBytes_ (s : State) (off n : Nat) : List Byte :=
  let now := s.bytes .chip (chipAddr s.core off) n
  let log := (s.coreAt s.core).bankUndo.filter fun u => decide (s.t.openCycle < u.time)
  if log.isEmpty then now
  else (List.range n).map fun i => undoByte log (s.t.bankCycle (off + i)) (off + i) (now.getD i 0)

/-- Those bytes as a number. -/
def State.spadNum (s : State) (off n : Nat) : Nat := leNat (s.spadBytes_ off n)

/-- The pieces of a byte range that lie in one bank group each. -/
def bankPieces (off : Nat) (bs : List Byte) : List (Nat × List Byte) :=
  (List.range ((off % 256 + bs.length + 255) / 256)).map fun i =>
    let lo := if i = 0 then 0 else 256 * i - off % 256
    (off + lo, (bs.drop lo).take (if i = 0 then 256 - off % 256 else 256))

/-- A timed write of the strand: each bank's part at its chip cycle (R242), at once where that has come. -/
def State.spadStore (s : State) (off : Nat) (bs : List Byte) : State :=
  if s.t.bankSpan = 0 then s.chipWriteAt s.t.openCycle s.core off bs
  else
    (bankPieces off bs).foldl
      (fun (s : State) p =>
        let x := s.t.bankCycle p.1
        if x ≤ s.now then s.chipWriteAt x s.core p.1 p.2
        else s.updCore s.core fun k => { k with bankPend := k.bankPend ++ [⟨x, .store p.1 p.2⟩] })
      s

end Sys2Proof.Machine
end

