-- ==== Sys2Proof/Machine/Issue.lean ====
section
/-! DEFINITION. The issue of a word: the checks of R87 that depend on the strand, guard (R90), SWAIT and SPOST (R24),
wrong hints (R33), the move to the next word (R23), and what ends a word: its effect, a trap or a stall. -/

set_option linter.unusedVariables false

namespace Sys2Proof

open Sys2Proof.Machine

/-- The header of a word. -/
def View.hdr : View → Hdr
  | .s _ h _ | .v _ h _ | .f _ h _ | .d _ h _ | .m _ h _ | .c _ h _ | .n _ h _ => h
  | .cpf h _ _ => h
  | .nop _ h _ | .halt _ h _ | .lbr _ h _ | .rlbr _ h _ => h
  | .brk h _ => h

/-- The guard of a word; a break word has none (R97). -/
def View.grd : View → Guard
  | .s _ _ b => b.g
  | .v _ _ b | .f _ _ b | .d _ _ b => b.g
  | .m _ _ b => b.g
  | .c _ _ b => b.g
  | .cpf _ b _ => b.g
  | .n _ _ b => b.g
  | .nop _ _ g | .halt _ _ g => g
  | .lbr _ _ l | .rlbr _ _ l => l.g
  | .brk _ _ => .always

/-- The engine that runs the word; of a break word, the one given. -/
def View.engine (brk : Eng) : View → Eng
  | .s _ _ _ => .s
  | .v _ _ _ | .d _ _ _ => .v
  | .f _ _ _ => .f
  | .m _ _ _ => .m
  | .c _ _ _ | .cpf _ _ _ => .c
  | .n _ _ _ => .n
  | .nop e _ _ | .halt e _ _ | .lbr e _ _ | .rlbr e _ _ => e.eng
  | .brk _ _ => brk

/-- An operand slot of a word: whether the form uses it, its operand and its PEEK bit. -/
structure Slot where
  used : Bool
  opd : Opd
  peek : Bool
  deriving DecidableEq, Repr

/-- The slots A, B, C and D of a word (R89). -/
def View.slots : View → List Slot
  | .s op h b =>
    let f := op.form
    [⟨f.a != .unused, b.a, h.peekA⟩, ⟨f.b != .unused, b.b, h.peekB⟩, ⟨f.c != .unused, b.c, h.peekC⟩,
     ⟨false, .zero, h.peekD⟩]
  | .v op h b => vSlots op.form h b
  | .f op h b => vSlots op.form h b
  | .d op h b => vSlots op.form h b
  | .m op h b =>
    let f := op.form
    [⟨f.a != .unused, b.a, h.peekA⟩, ⟨f.b != .unused, b.b, h.peekB⟩, ⟨f.c != .unused, b.c, h.peekC⟩,
     ⟨f.d != .unused, b.d, h.peekD⟩]
  | .c op h b => cSlots op.form h b
  | .cpf h b _ => cSlots cpfForm h b
  | .n op h b =>
    let f := op.form
    [⟨f.a != .unused, b.a, h.peekA⟩, ⟨f.b != .unused, b.b, h.peekB⟩, ⟨f.c != .unused, b.c, h.peekC⟩,
     ⟨f.d != .unused, b.d, h.peekD⟩]
  | .nop _ h _ | .halt _ h _ | .lbr _ h _ | .rlbr _ h _ | .brk h _ =>
    [⟨false, .zero, h.peekA⟩, ⟨false, .zero, h.peekB⟩, ⟨false, .zero, h.peekC⟩, ⟨false, .zero, h.peekD⟩]
where
  vSlots (f : VForm) (h : Hdr) (b : VBody) : List Slot :=
    [⟨f.a != .unused, b.a, h.peekA⟩, ⟨f.b != .unused, b.b, h.peekB⟩, ⟨f.c != .unused, b.c, h.peekC⟩,
     ⟨f.d != .unused, b.d, h.peekD⟩]
  cSlots (f : CForm) (h : Hdr) (b : CBody) : List Slot :=
    [⟨f.a != .unused, b.a, h.peekA⟩, ⟨f.b != .unused, b.b, h.peekB⟩, ⟨f.c != .unused, b.c, h.peekC⟩,
     ⟨f.d != .unused || (f.flag && b.fw), b.d, h.peekD⟩]

/-- The number of a queue register operand. -/
def Opd.queue : Opd → Option Nat
  | .q n => some n.val
  | _ => none

/-- The PEEK bits that are ignored hints (R33): those of absent slots and of slots that hold no queue register. -/
def View.peekHints (v : View) : List Nat :=
  ((v.slots.zipIdx).filter fun x => x.1.peek && !(x.1.used && x.1.opd.queue.isSome)).map Prod.snd

/-- The registers that a word's follow-on word names, by slot: the checks of R87 are made on it too (R210). -/
def View.followOpds : View → List (Opd × Nat)
  | .cpf _ _ fo => [(.t fo.ta, 0), (.t fo.tb, 1), (.acc fo.acc, 3)]
  | _ => []

/-- Whether a word is of the classes whose scratchpad accesses are timed and count as class 0 (R253). -/
def View.isTimed : View → Bool
  | .v _ _ _ | .f _ _ _ | .d _ _ _ | .m _ _ _ => true
  | _ => false

/-- Whether a word reads scratchpad as it issues: a D word that takes a region (R165, R179). -/
def View.readsNow : View → Bool
  | .d op h b => ((View.d op h b).slots.take 3).any fun x => x.used && (match x.opd with | .g _ => true | _ => false)
  | _ => false

/-- Whether words of a form can carry a footprint (R31, R204). -/
def View.mayTrack : View → Bool
  | .m op _ _ => match op with | .mmih | .mmah | .gmmih | .gmmah => true | _ => false
  | .c _ _ _ | .cpf _ _ _ => true
  | .n op _ _ => match op with | .nput | .nget | .ared | .rscat | .agth | .bcst | .xred => true | _ => false
  | _ => false

end Sys2Proof

namespace Sys2Proof.Machine

/-! The checks that depend on the strand (R87 step 6). -/

/-- A slot-table entry's word (R225). -/
def State.slotEntry (s : State) (core slot : Nat) : Nat := (mget slot (s.coreAt core).slots).getD 0

/-- The other end of a circuit. -/
def peerCore (e : Nat) : Nat := bits e 20 13
def peerPkg (e : Nat) : Nat := bits e 26 21

/-- Whether a circuit's entry is held by the strand's galley (R225). -/
def State.holdsEntry (s : State) (slot : Nat) : Bool := s.t.slots.contains slot && bit (s.slotEntry s.core slot) 31

/-- A circuit that a word may use: held by the galley, of its direction and of its reach (R225). -/
def State.circuitOk (s : State) (slot : Nat) (receive xpkg : Bool) : Bool :=
  let e := s.slotEntry s.core slot
  s.holdsEntry slot && bit e 30 == receive && bit e 29 == xpkg

/-- The frame field of a call's immediate, and whether it is no multiple of 8 of at least 8 bytes (R128). -/
def frameOf (b : SBody) : Nat := bits b.imm.toNat 29 14
def frameBad (f : Nat) : Bool := decide (f < 8) || f % 8 != 0

/-- The circuit number of an N word. -/
def NBody_cir (b : NBody) : Nat := bits b.nx.toNat 7 0

/-- Whether the strand owns the tile, accumulator or distribution register that an operand names (R41). -/
def Strand.ownsOpd (t : Strand) : Opd → Bool
  | .t n => t.ctx.owna.getLsbD n.val
  | .dv n => t.ctx.owna.getLsbD (16 + n.val)
  | .acc n => t.ctx.owna.getLsbD (32 + n.val)
  | _ => true

/-- Form-specific limits, most of them set by the strand (R57, R126, R128, R199, R231): DETAIL 8. -/
def State.formLimit (s : State) : View → Bool
  | .s op _ b =>
    let t := s.t
    match op with
    | .call | .callr => frameBad (frameOf b)
    | .semadd | .semrd => !t.ownsSem (bits b.imm.toNat 12 8)
    | .ceq | .cne | .clt | .cle | .ctst | .fceq | .fclt | .fcle | .fcun | .pand | .por | .pxor =>
      t.rot && decide (8 ≤ b.px.val)
    | _ => false
  | .m op _ _ =>
    match op with
    | .gmmi | .gmma | .gmmih | .gmmah => !s.t.exact
    | _ => false
  | .c op _ b => op.form.ch && !bit s.t.channels b.ch.val
  | .cpf _ b _ => !bit s.t.channels b.ch.val
  | .n op _ _ => match op with | .xsnd | .xrcv | .xred => !s.t.exact | _ => false
  | _ => false

/-- The DETAIL of an `IL 6` that the strand's holdings raise, the lowest first; a follow-on word's come after its `cpf`'s own. -/
def State.limits (s : State) (v : View) : Option Nat :=
  let t := s.t
  let h := v.hdr
  firstFail
    (((v.slots.zipIdx).map fun x => (x.1.used && !t.ownsOpd x.1.opd, x.2))
      ++ [(h.swait.val != 0 && !t.ownsSem h.swait.val, 4), (h.spost.val != 0 && !t.ownsSem h.spost.val, 5),
          (s.formLimit v, 8)]
      ++ v.followOpds.map fun x => (!t.ownsOpd x.1, x.2))

/-! What a word's operation answers. -/

/-- The state a word's operation leaves; `own`: the word's completion is its own affair (an asynchronous command or a
stream, R24); `trk`: it took a tracker slot; `atIssue`: it completes at issue, whatever lands later (R230, R233). -/
structure Done where
  s : State
  own : Bool := false
  trk : Bool := false
  atIssue : Bool := false
  deriving DecidableEq, Repr

/-- The operation of a word. -/
abbrev Operation := State → Except Stop Done

/-- The engine whose place in the strand cycle it is. -/
def Strand.placeEng (t : Strand) : Eng := if t.frozen then .s else (Eng.ofNum (t.micro - 1)).getD .s

/-- The word at whose place the strand stands has reached its issue: it is not read again (R85). -/
def State.fixWord (s : State) : State :=
  if s.t.micro = 0 then s
  else s.upd fun t => t.setCtl t.placeEng (s.latched (t.ctl t.placeEng))

/-- A word or a boundary stalls (R29): the strand cycle's opportunity passes, and `slip` counts edges and busy slots. -/
def State.stallAt (s : State) (c : Cause) : State :=
  (s.fixWord.upd fun t =>
    { t with stall := some (c, match t.stall with | some (d, n) => if d = c then n else s.now | none => s.now)
             origin := t.origin + t.stride
             slip := if c.slips then t.slip + 1 else t.slip }).announceHold

/-- The stall has ended (R29, R30); a record that the word waited for is used up. -/
def State.unstall (s : State) : State :=
  if s.t.stall.isNone && s.t.recFetch.isNone then s
  else (s.releaseHold s.now).upd fun t => { t with stall := none, recFetch := none }

/-- The word's place taken: the next issue number, the queue at its next word and the strand cycle at its next place. -/
def State.begin (s : State) (e : Eng) (words : Nat) : State :=
  (s.moveQueue e ((s.t.ctl e).idx + words)).upd fun t =>
    { t with seq := t.seq + 1, micro := if t.frozen then 7 else e.num + 2 }

/-- SWAIT (R24): one count taken, or a stall. -/
def State.await (s : State) (n : Nat) : Except Stop State :=
  if n = 0 then .ok s
  else if s.sem s.core n = 0 then stallStop .semaphore
  else .ok (s.setSem s.core n (s.sem s.core n - 1))

/-- SPOST of a word that completes at issue: `SC 5` in debug mode where the semaphore's count `c`, as the earlier words leave
it, is 255 (R33). -/
def State.postNow (s : State) (c n : Nat) : Except Stop State :=
  if n ≠ 0 ∧ s.t.dbg ∧ c = 255 then trapStop (trapSC 5 n) else .ok (s.raise n)

/-- The landings of the word with the raise on the last of them. -/
def attachPost (seq post : Nat) (ls : List Landing) : List Landing :=
  let last := ls.foldl (fun m l => if l.seq = seq then Nat.max m l.due else m) 0
  match (ls.zipIdx.filter fun x => x.1.seq == seq && x.1.due == last).getLast? with
  | none => ls
  | some x => ls.set x.2 { x.1 with spost := post }

/-- Whether a landing of the word that has just issued is pending. -/
def Strand.awaitsOwn (t : Strand) : Bool := (if t.frozen then t.hpend else t.pend).any fun l => l.seq == t.seq

/-- SPOST of a word (R24): at the last of its landings, or now, on the count `c` that the earlier words leave. -/
def State.settle (s : State) (atIssue : Bool) (c n : Nat) : Except Stop State :=
  if n = 0 then .ok s
  else if !atIssue && s.t.awaitsOwn then
    .ok (s.upd fun t =>
      if t.frozen then { t with hpend := attachPost t.seq n t.hpend } else { t with pend := attachPost t.seq n t.pend })
  else s.postNow c n

/-- Ignored hints: counted, or `SC 4` in debug mode (R33). DETAIL is the lowest operand slot with an ignored PEEK bit, or, with
none, TRK (DESIGN CHOICE: the trap table says 'slot' and no rule says which of two hints it names). -/
def State.hints (s : State) (peeks : List Nat) (trk : Nat) : Except Stop State :=
  let n := peeks.length + (if trk = 0 then 0 else 1)
  if n = 0 then .ok s
  else if s.t.dbg then trapStop (trapSC 4 (peeks.headD trk))
  else .ok (s.upd fun t => { t with hmis := t.hmis + BitVec.ofNat 64 n })

/-- Whether a fence of class 0 for which an asynchronous access has still to perform holds back the timed accesses of a later V, F, D
or M word (R124, R253). One that waits for timed accesses alone does not, for the strand runs on until they have been made
(DEDUCED, log entry 154). -/
def Strand.fencedOff (t : Strand) : Bool := t.asyncs.any fun a => match a.fence with | some m => bit m 0 | none => false

/-- What stops a word, as the trap table orders it (R34, R40): `SC 4` and `SC 5` of the word stand above a `PF` or `EC` of its
operation. Of words that complete at issue only `ret` can meet one. -/
def State.laterStop (s : State) (v : View) (x : Stop) : Stop :=
  let h := v.hdr
  match x with
  | .trap tr =>
    let slots := v.peekHints ++ if h.trk.val ≠ 0 ∧ !v.mayTrack then [h.trk.val] else []
    let posts : Bool := match v with
      | .s .ret _ b => b.xl == .none && h.spost.val != 0 && s.sem s.core h.spost.val == 255
      | _ => false
    if !s.t.dbg then x
    else if tr.cls = ascii2 'S' 'C' ∧ tr.num = 4 then .trap (trapSC 4 (v.peekHints.headD tr.detail))
    else if !tr.suspends then x
    else match slots with
      | k :: _ => .trap (trapSC 4 k)
      | [] => if posts then .trap (trapSC 5 h.spost.val) else x
  | _ => x

/-- A word with its guard and SWAIT: the state after it, or what stops it (R87, R90, R24). -/
def State.perform (s : State) (v : View) (e : Eng) (words : Nat) (op : Operation) : Except Stop State :=
  let h := v.hdr
  let s1 := s.begin e words
  let c := s.sem s.core h.spost.val
  match s1.await h.swait.val with
  | .error x => .error x
  | .ok s2 =>
    if !s.t.guard v.grd then s2.postNow c h.spost.val
    else
      match op s2 with
      | .error x => .error (s.laterStop v x)
      | .ok d =>
        if v.isTimed && s2.t.fencedOff && (d.s.t.timed != s2.t.timed || (v.readsNow && d.s.t.pend != s2.t.pend)) then
          stallStop .order
        else
          match d.s.hints v.peekHints (if d.trk then 0 else h.trk.val) with
          | .error x => .error x
          | .ok s3 => if d.own then .ok s3 else s3.settle d.atIssue c h.spost.val

end Sys2Proof.Machine
end

