-- ==== Sys2Proof/Machine/Regs.lean ====
section
/-! DEFINITION. Control registers (R36, R37, R52, R53, R56 to R59, R200), context pages (R42, R45) and accesses to a
core's window (R237, R244, R245, R60). -/

set_option linter.unusedVariables false

namespace Sys2Proof.Machine

/-! Strand control registers (R57). -/

/-- Resume point registers by number: `tra`, then `tqv` to `tqn`. -/
def tqIndex (n : Nat) : Option Nat := if n = 6 then some 0 else if 0x12 ≤ n ∧ n ≤ 0x16 then some (n - 0x11) else none

/-- The value of a strand control register. -/
def Strand.creg (t : Strand) (n : Nat) : Word :=
  let c := t.ctx
  match tqIndex n with
  | some i => vget c.tq i 0
  | none =>
    match n with
    | 0x00 => BitVec.ofNat 64 c.sclk
    | 0x01 => BitVec.ofNat 64 c.hclk
    | 0x02 => t.slip
    | 0x03 => t.hmis
    | 0x04 => c.tvec
    | 0x05 => c.trc
    | 0x07 => c.trs
    | 0x08 => c.ssp
    | 0x09 => c.slim
    | 0x0A => c.rrb
    | 0x0B => c.flg
    | 0x0C => c.inten
    | 0x0D => c.sclkcmp
    | 0x0E => c.smode
    | 0x0F => c.srseed
    | 0x10 => c.owna
    | 0x11 => c.owns
    | _ => 0

/-- A write of a strand control register under its access code (R6, R57). -/
def Strand.setCreg (t : Strand) (n : Nat) (v : Word) : Strand :=
  match tqIndex n with
  | some i => t.updCtx fun c => { c with tq := vset c.tq i (v &&& 0x1FFFFFF) }
  | none =>
    match n with
    | 0x02 => { t with slip := v }
    | 0x03 => { t with hmis := v }
    | 0x04 => t.updCtx fun c => { c with tvec := v }
    | 0x08 => t.updCtx fun c => { c with ssp := v }
    | 0x09 => t.updCtx fun c => { c with slim := v }
    | 0x0A => t.updCtx fun c => { c with rrb := v &&& 0xF }
    | 0x0B => t.updCtx fun c => { c with flg := c.flg &&& ~~~v }
    | 0x0C => t.updCtx fun c => { c with inten := (v &&& 0x7) ||| (c.inten &&& ~~~v &&& 0x700) }
    | 0x0D => t.updCtx fun c => { c with sclkcmp := v }
    | 0x0F => t.updCtx fun c => { c with srseed := v }
    | _ => t

/-! Core control registers (R12, R52, R53, R56, R200). -/

/-- DONE of a channel: the smallest identifier whose command has not completed. -/
def State.chan (s : State) (c ch : Nat) : ChanState := (mget ch (s.coreAt c).chans).getD {}

/-- The lineage mask of `dv`n. -/
def State.dvMask (s : State) (c n : Nat) : Nat := (mget n (s.coreAt c).dvm).getD 0

/-- The value of a core control register. -/
def State.coreReg (s : State) (c n : Nat) : Word :=
  if n = 0x100 then BitVec.ofNat 64 (s.dev.pkg * 256 + c)
  else if n = 0x101 then BitVec.ofNat 64 (s.coreAt c).acm
  else if 0x102 ≤ n ∧ n ≤ 0x105 then
    BitVec.ofNat 64 (((List.range 4).map fun k => s.dvMask c (4 * (n - 0x102) + k) * 2 ^ (16 * k)).sum)
  else if 0x108 ≤ n ∧ n ≤ 0x10B then
    let h := s.chan c (n - 0x108)
    BitVec.ofNat 64 (h.next * 2 ^ 32 + h.done)
  else if 0x110 ≤ n ∧ n ≤ 0x113 then
    BitVec.ofNat 64 (((List.range 8).map fun k => s.sem c (8 * (n - 0x110) + k) * 2 ^ (8 * k)).sum)
  else 0

/-- What a writer may change of the core registers: semaphores, masks and accumulators (R132, R244). -/
structure Rights where
  sem : Nat → Bool
  dv : Nat → Bool
  acc : Nat → Bool

def Strand.rights (t : Strand) : Rights :=
  { sem := t.ownsSem, dv := fun n => t.ctx.owna.getLsbD (16 + n), acc := fun n => t.ctx.owna.getLsbD (32 + n) }

/-- A writer that is no strand changes everything. -/
def allRights : Rights := { sem := fun _ => true, dv := fun _ => true, acc := fun _ => true }

/-- Bytes 8·n0 to the left of a semaphore register, masks of a lineage register, W1C bits of `acm`, written. -/
def State.setCoreReg (s : State) (r : Rights) (c n : Nat) (v : Word) : State :=
  if n = 0x101 then
    s.updCore c fun k =>
      let clr (a : Nat) (x : Nat) : Nat := if r.acc a && v.getLsbD (4 * a + 2) then putBits x (4 * a + 2) 1 0 else x
      { k with acm := clr 1 (clr 0 k.acm) }
  else if 0x102 ≤ n ∧ n ≤ 0x105 then
    (List.range 4).foldl
      (fun s i =>
        let d := 4 * (n - 0x102) + i
        if r.dv d then s.updCore c fun k => { k with dvm := mset d (bits v.toNat (16 * i + 15) (16 * i)) k.dvm } else s)
      s
  else if 0x110 ≤ n ∧ n ≤ 0x113 then
    (List.range 8).foldl
      (fun s i =>
        let m := 8 * (n - 0x110) + i
        if m ≠ 0 ∧ r.sem m then s.setSem c m (bits v.toNat (8 * i + 7) (8 * i)) else s)
      s
  else s

/-- The value of a control register for its strand (R132). -/
def State.ctrl (s : State) (n : Nat) : Word := if n < 0x20 then s.t.creg n else s.coreReg s.core n

def State.setCtrl (s : State) (n : Nat) (v : Word) : State :=
  if n < 0x20 then s.upd fun t => t.setCreg n v else s.setCoreReg s.t.rights s.core n v

/-! Context pages (R42, R45). -/

/-- The landed entries of a register. -/
def landedOf (es : List QEntry) : List QEntry := es.filter fun e => e.landed

/-- The storage of a queue register changed at entry `i`: within the landed count the entry, beyond it the stash. -/
def writeEntry (es : List QEntry) (i : Nat) (v : Word) : Option (List QEntry) :=
  let l := landedOf es
  if i < l.length then some (l.set i { l.getD i ⟨0, true, 0⟩ with val := v } ++ es.filter fun e => !e.landed) else none

/-- A register given a landed count: entries beyond the old count come from the stash (R45). A reserved entry that is outstanding
stays behind them, even if the register then holds more than two entries (DESIGN CHOICE: R45 says nothing of a reserved entry
but that a context save finds none). -/
def setCount (es : List QEntry) (k base : Nat) (stash : List (Nat × Word)) : List QEntry :=
  ((List.range k).map fun i =>
    match (landedOf es)[i]? with
    | some e => e
    | none => { val := (mget (base + i) stash).getD 0, landed := true, tok := 0 })
    ++ es.filter fun e => !e.landed

/-- The stash as a register's new landed count leaves it: it gives what that count now covers, and takes the entries that it no
longer covers (R45). -/
def stashCount (es : List QEntry) (k base : Nat) (stash : List (Nat × Word)) : List (Nat × Word) :=
  (List.range 2).foldl
    (fun m i =>
      if i < k then mdel (base + i) m
      else match (landedOf es)[i]? with | some e => mset (base + i) e.val m | none => m)
    stash

/-- The 8 bytes at a page offset; reserved bits of a region register read as zero (R7). -/
def Strand.page (t : Strand) (o : Nat) : Word :=
  let c := t.ctx
  let entry (es : List QEntry) (i : Nat) : Word := ((landedOf es)[i]?.map QEntry.val).getD 0
  if o < 0x200 then entry (vget c.q (o / 16) []) (o / 8 % 2)
  else if o = 0x200 then
    BitVec.ofNat 64 (((List.range 32).map fun n => Nat.min 2 (landedOf (vget c.q n [])).length * 4 ^ n).sum)
  else if o = 0x208 then BitVec.ofNat 64 (((List.range 16).map fun n => b2n (t.pred n) * 2 ^ n).sum)
  else if o = 0x210 then c.la0 else if o = 0x218 then c.la1 else if o = 0x220 then c.lm else if o = 0x228 then c.ll
  else if 0x230 ≤ o ∧ o < 0x2B0 then vget c.lf ((o - 0x230) / 8) 0
  else if 0x300 ≤ o ∧ o < 0x380 then vget c.g ((o - 0x300) / 8) 0 &&& 0x1FFFFFFFFF0FFFFF
  else if 0x400 ≤ o ∧ o < 0x480 then vget c.tcfg ((o - 0x400) / 8) 0
  else if 0x500 ≤ o ∧ o < 0x680 then
    (vget (vget c.lc ((o - 0x500) / 64) (Vector.replicate 8 0)) ((o - 0x500) / 8 % 8) 0).setWidth 64
  else if o = 0x700 then c.hla0 else if o = 0x708 then c.hla1 else if o = 0x710 then c.hlm else if o = 0x718 then c.hll
  else if 0x720 ≤ o ∧ o < 0x760 then entry (vget c.hq ((o - 0x720) / 16) []) (o / 8 % 2)
  else if 0x800 ≤ o ∧ o < 0x900 then t.creg ((o - 0x800) / 8)
  else 0

/-- The landed count that a value of `qocc` gives register `n`: a written 3 stands for 2 (R45). -/
def qoccOf (v : Word) (n : Nat) : Nat := Nat.min 2 (bits v.toNat (2 * n + 1) (2 * n))

/-- A write of the 8 bytes at a page offset. -/
def Strand.setPage (t : Strand) (o : Nat) (v : Word) : Strand :=
  if o < 0x200 then
    let n := o / 16
    let i := o / 8 % 2
    t.updCtx fun c =>
      match writeEntry (vget c.q n []) i v with
      | some es => { c with q := vset c.q n es }
      | none => { c with stash := mset (2 * n + i) v c.stash }
  else if o = 0x200 then
    t.updCtx fun c =>
      { c with q := Vector.ofFn fun n : Fin 32 =>
                 setCount c.q[n] (qoccOf v n.val) (2 * n.val) c.stash
               stash := (List.range 32).foldl (fun m n => stashCount (vget c.q n []) (qoccOf v n) (2 * n) m) c.stash }
  else if o = 0x208 then t.updCtx fun c => { c with p := Vector.ofFn fun n : Fin 16 => v.getLsbD n.val }
  else if o = 0x210 then t.updCtx fun c => { c with la0 := v }
  else if o = 0x218 then t.updCtx fun c => { c with la1 := v }
  else if o = 0x220 then t.updCtx fun c => { c with lm := v }
  else if o = 0x228 then t.updCtx fun c => { c with ll := v }
  else if 0x230 ≤ o ∧ o < 0x2B0 then t.updCtx fun c => { c with lf := vset c.lf ((o - 0x230) / 8) v }
  else if 0x300 ≤ o ∧ o < 0x380 then t.updCtx fun c => { c with g := vset c.g ((o - 0x300) / 8) v }
  else if 0x400 ≤ o ∧ o < 0x480 then
    t.updCtx fun c => { c with tcfg := vset c.tcfg ((o - 0x400) / 8) (v &&& 0xFFFF03FF) }
  else if 0x500 ≤ o ∧ o < 0x680 then t.updCtx fun c => c.setLc ((o - 0x500) / 64) ((o - 0x500) / 8 % 8) (v.setWidth 32)
  else if o = 0x700 then t.updCtx fun c => { c with hla0 := v }
  else if o = 0x708 then t.updCtx fun c => { c with hla1 := v }
  else if o = 0x710 then t.updCtx fun c => { c with hlm := v }
  else if o = 0x718 then t.updCtx fun c => { c with hll := v }
  else if 0x720 ≤ o ∧ o < 0x760 then
    let n := (o - 0x720) / 16
    let i := o / 8 % 2
    t.updCtx fun c =>
      match writeEntry (vget c.hq n []) i v with
      | some es => { c with hq := vset c.hq n es }
      | none => { c with stash := mset (64 + 2 * n + i) v c.stash }
  else if 0x800 ≤ o ∧ o < 0x900 then t.setCreg ((o - 0x800) / 8) v
  else t

/-- Whether a page offset is that of a register which back-edges write: a loop counter, the predicates or `rrb` (R260). -/
def backEdgeReg (o : Nat) : Bool := (decide (0x500 ≤ o) && decide (o < 0x680)) || o == 0x208 || o == 0x850

/-- A window write of a context page as it takes effect; one that meets a back-edge of its strand cycle is made again over it (R263). -/
def Strand.writePage (t : Strand) (o : Nat) (v : Word) : Strand :=
  let t1 := t.setPage o v
  if t.closing.isEmpty || !backEdgeReg o then t1 else { t1 with overBack := t1.overBack ++ [(o, v)] }

/-! The window of a core (R237, R244, R245). -/

/-- Whether a context is held by a strand (R42). -/
def State.held (s : State) (x : Nat) : Bool :=
  match mget x s.strands with
  | none => false
  | some t => t.mode != .ended && t.mode != .stopped

/-- The strand of core `c` that owns what bit `b` of `owna` stands for. -/
def State.ownerOf (s : State) (c b : Nat) : Option Nat :=
  (s.strands.find? fun e => coreOf e.1 == c && s.held e.1 && e.2.ctx.owna.getLsbD b).map Prod.fst

/-- The strand of core `c` that owns semaphore `n`. -/
def State.semOwner (s : State) (c n : Nat) : Option Nat :=
  (s.strands.find? fun e => coreOf e.1 == c && s.held e.1 && e.2.ownsSem n).map Prod.fst

/-- The `owna` bit of a window offset of tiles, accumulators and distribution registers. -/
def ownBit (off : Nat) : Nat :=
  if off < 0x100000 then (off - 0xC0000) / 0x4000
  else if off < 0x120000 then 32 + (off - 0x100000) / 0x10000
  else 16 + (off - 0x120000) / 0x1000

/-- The 8 bytes of registers at an aligned window offset from 0x130000 up. -/
def State.windowReg (s : State) (c off : Nat) : Word :=
  if off < 0x140000 then
    let x := c * 16 + (off - 0x130000) / 0x1000
    if s.held x then (s.strandAt x).page (off % 0x1000) else 0
  else if off < 0x140100 then s.coreReg c (0x100 + (off - 0x140000) / 8)
  else 0

/-- `n` bytes of a core's window: storage below 0x130000, registers of 8 bytes from there, each byte by its own row (R237). -/
def State.windowRead (s : State) (c off n : Nat) : List Byte :=
  if off + n ≤ 0x130000 then s.bytes .chip (chipAddr c off) n
  else if 0x130000 ≤ off ∧ n ≤ 8 then leBytes n (s.windowReg c off).toNat
  else
    (List.range n).map fun i =>
      let a := off + i
      if a < 0x130000 then (s.bytes .chip (chipAddr c a) 1).headD 0
      else (leBytes 8 (s.windowReg c (a / 8 * 8)).toNat).getD (a % 8) 0

/-- A window write as it takes effect: bytes below 0x130000, a page or a core register. A one-byte write to a
semaphore register and a two-byte write to a lineage register are parts of a write of the whole register. -/
def State.windowApply (s : State) (r : Rights) (c off : Nat) (bs : List Byte) : State :=
  if off < 0x130000 then s.chipWrite c off bs
  else if off < 0x140000 then
    let x := c * 16 + (off - 0x130000) / 0x1000
    if s.held x then s.setStrand x ((s.strandAt x).writePage (off % 0x1000) (BitVec.ofNat 64 (leNat bs))) else s
  else if off < 0x140100 then
    let n := 0x100 + (off - 0x140000) / 8
    if bs.length = 8 then s.setCoreReg r c n (BitVec.ofNat 64 (leNat bs))
    else
      -- a part: the other bytes of the register keep their value
      let k := off % 8
      s.setCoreReg r c n (BitVec.ofNat 64 (putBits (s.coreReg c n).toNat (8 * k) (8 * bs.length) (leNat bs)))
  else s

/-- The page of a context set anew (R42): its units are wholly written (R359). -/
def State.freshPage (s : State) (x : Nat) : State := s.unmark .chip (chipAddr (coreOf x) (0x130000 + 0x1000 * (x % 16))) 4096

/-- A write that waits at a strand, behind those that wait there already; at one that does not run they all take effect now. -/
def State.putOff (s : State) (x : Nat) (w : DeferredWrite) : State :=
  let t := s.strandAt x
  let s1 := s.setStrand x { t with deferred := t.deferred ++ [w] }
  if t.running then s1 else s1.schedule s1.now (.contextWriteEffect x)

/-- Whether a write has to wait at a strand: while it runs, and behind others that wait (R60). -/
def Strand.putsOff (t : Strand) : Bool := t.running || !t.deferred.isEmpty

/-- A write that waits for the boundary of a running strand, or is applied at once; writes take effect in the order in which they
arrive (R60, R245). -/
def State.windowFor (s : State) (src : Option (Nat × Nat)) (owner : Option Nat) (r : Rights) (c off : Nat)
    (bs : List Byte) : State :=
  match owner with
  | none => s.windowApply r c off bs
  | some x =>
    if (s.strandAt x).putsOff then s.putOff x { off := off, bs := bs, src := src } else s.windowApply r c off bs

/-- A byte range cut at the multiples of 4096, at which owners change and which no unit crosses. -/
def pageParts (off : Nat) (bs : List Byte) : List (Nat × List Byte) :=
  (List.range ((off % 4096 + bs.length + 4095) / 4096)).map fun i =>
    let lo := if i = 0 then 0 else 4096 * i - off % 4096
    (off + lo, (bs.drop lo).take (if i = 0 then 4096 - off % 4096 else 4096))

/-- Bytes of scratchpad, tiles, accumulators and distribution registers, each part with its owner; a unit is written as one (R243). -/
def State.windowStore (s : State) (src : Option (Nat × Nat)) (c off : Nat) (bs : List Byte) : State :=
  (pageParts off bs).foldl
    (fun (s : State) p =>
      if p.1 < 0xC0000 then s.chipWrite c p.1 p.2 else s.windowFor src (s.ownerOf c (ownBit p.1)) allRights c p.1 p.2)
    s

/-- A write of a unit of a core's registers, and of bytes below them that lie in rows of their own. -/
def State.windowUnit (s : State) (by_ : Option (Nat × Nat)) (c off : Nat) (bs : List Byte) : State :=
  if off < 0x130000 then s.windowStore by_ c off bs
  else if off < 0x140000 then
    (s.unmark .chip (chipAddr c off) 8).windowFor by_ (some (c * 16 + (off - 0x130000) / 0x1000)) allRights c off bs
  else
    let r : Rights :=
      match by_ with
      | none => allRights
      | some x => if coreOf x.1 = c then (s.strandAt x.1).rights else { sem := fun _ => false, dv := fun _ => false, acc := fun _ => false }
    let n := 0x100 + (off - 0x140000) / 8
    if 0x110 ≤ n ∧ n ≤ 0x113 then
      (List.range 8).foldl
        (fun s i =>
          let m := 8 * (n - 0x110) + i
          if m ≠ 0 ∧ r.sem m then s.windowFor by_ (s.semOwner c m) r c (off + i) ((bs.drop i).take 1) else s)
        s
    else if 0x102 ≤ n ∧ n ≤ 0x105 then
      (List.range 4).foldl
        (fun s i =>
          let d := 4 * (n - 0x102) + i
          if r.dv d then s.windowFor by_ (s.ownerOf c (16 + d)) r c (off + 2 * i) ((bs.drop (2 * i)).take 2) else s)
        s
    else s.windowApply r c off bs

/-- The units of a write of many registers, with the offset of each. -/
def unitsOf (off : Nat) (bs : List Byte) : List (Nat × List Byte) :=
  (List.range ((bs.length + 7) / 8)).map fun i => (off + 8 * i, (bs.drop (8 * i)).take 8)

/-- A window write arriving at a core (R245): `by_` is the strand that made it and its access, none for another agent. A write
of a unit of a context page clears its poison mark (R359); each byte obeys the rule of its own row (R237). -/
def State.windowWrite (s : State) (by_ : Option (Nat × Nat)) (c off : Nat) (bs : List Byte) : State :=
  if off + bs.length ≤ 0xC0000 then s.chipWrite c off bs
  else if off + bs.length ≤ 0x130000 ∨ bs.length ≤ 8 then s.windowUnit by_ c off bs
  else
    let k := 0x130000 - off
    let s1 := if k = 0 then s else s.windowStore by_ c off (bs.take k)
    (unitsOf (off + k) (bs.drop k)).foldl (fun s u => s.windowUnit by_ c u.1 u.2) s1

/-- The strand whose boundary a write of a unit of a core's window waits for (R60, R245): that of the context page, or the owner of
the tile, accumulator, distribution register, mask or semaphores; `own` is the strand that writes, whose own masks and semaphores
alone change. -/
def State.boundaryOwner (s : State) (own c off : Nat) : Option Nat :=
  if off < 0xC0000 then none
  else if off < 0x130000 then s.ownerOf c (ownBit off)
  else if off < 0x140000 then some (c * 16 + (off - 0x130000) / 0x1000)
  else if coreOf own = c ∧ ((0x140010 ≤ off ∧ off < 0x140030) ∨ (0x140080 ≤ off ∧ off < 0x1400A0)) then some own
  else none

/-! Holdings and footprints of window accesses (R239, R244). -/

/-- A package-wide number for a window address on path 0x3, 0x4 or 0x6 KIND 0; another package's lie from 2^29 on. -/
def winKey (pkg core e : Nat) : Option Nat :=
  match bits e 63 60 with
  | 3 => some (chipAddr core (bits e 20 0))
  | 4 => some (bits e 28 0)
  | 6 =>
    if bit e 50 then none
    else if bits e 56 51 = pkg then some (bits e 28 0)
    else some ((bits e 56 51 + 1) * 2 ^ 29 + bits e 28 0)
  | _ => none

/-- Whether window bytes `off` to `off + n` − 1 of the own core are the strand's own holdings, each by its own row (R237, R244). -/
def Strand.holds_ (t : Strand) (x off n : Nat) : Bool :=
  let last := off + n - 1
  (if off < 0xC0000 then inGroups t.banks off (Nat.min n (0xC0000 - off)) 4096 else true) &&
    (if off < 0x130000 ∧ 0xC0000 ≤ last then
      let lo := Nat.max off 0xC0000
      let hi := Nat.min last 0x12FFFF
      (List.range ((hi - lo) / 0x1000 + 2)).all fun i => t.ctx.owna.getLsbD (ownBit (Nat.min (lo + i * 0x1000) hi))
    else true) &&
    (if off < 0x140000 ∧ 0x130000 ≤ last then
      (Nat.max off 0x130000 - 0x130000) / 0x1000 == x % 16 && (Nat.min last 0x13FFFF - 0x130000) / 0x1000 == x % 16
    else true) &&
    decide (off + n ≤ 0x140100)

/-- The kinds of window access: a read, a write, or both (an atomic). -/
inductive AccKind where
  | read | write | both
  deriving DecidableEq, Repr

/-- Whether a footprint kind covers an access (R244). -/
def AccKind.covered (k : AccKind) (foot : Nat) : Bool :=
  match k with
  | .read => bit foot 0
  | .write => bit foot 1
  | .both => foot == 3

/-- Whether a `.footprint` range of the galley covers window bytes `key` to `key + n` − 1 (R244). -/
def Strand.footCovers (t : Strand) (pkg core key n : Nat) (k : AccKind) : Bool :=
  t.foots.any fun f =>
    match winKey pkg core f.addr with
    | some a => decide (a ≤ key) && decide (key + n ≤ a + f.bytes) && k.covered f.kind
    | none => false

end Sys2Proof.Machine
end

