-- ==== Sys2Proof/Machine/Access.lean ====
section
/-! DEFINITION. Addresses: paths and their checks (R122, R199, R235 to R240, R244), two-stage translation (R348 to R352,
R355), and the asynchronous accesses of a strand (R250 to R253, R335). -/

set_option linter.unusedVariables false

namespace Sys2Proof.Machine

/-! Paths. -/

def pathOf (e : Nat) : Nat := bits e 63 60
def lowAddr (e : Nat) : Nat := bits e 56 0

/-- Whether a core lies in a partition of a VF: bit 16·die + quad of `vfquads` (R357). -/
def State.inTenant (s : State) (v c : Nat) : Bool := bit (s.vf v).quads (c / 4)

/-- Whether a core lies in a partition that is being reset (R244, R377). -/
def State.underReset (s : State) (core : Nat) : Bool := s.dev.vfs.any fun f => f.2.prst != 0 && bit f.2.quads (core / 4)

/-- What an access names, once checked: a tenant virtual address, a window byte (package-wide), a host bus address,
another package's byte (path 0x6 bits [56:0]), or a register of the tenant's view. -/
inductive Place where
  | va (a : Nat)
  | win (key : Nat)
  | host (a : Nat)
  | peer (a : Nat)
  | reg (off : Nat)
  /-- A stack byte named by a quoin (R215). -/
  | stack (pa : Nat)
  deriving DecidableEq, Repr

/-- What an address names; for an address that has passed the checks. -/
def placeOf (pkg core e : Nat) : Place :=
  match pathOf e with
  | 3 => .win (chipAddr core (bits e 20 0))
  | 4 => .win (bits e 28 0)
  | 5 => .host (lowAddr e)
  | 6 => if bits e 56 51 = pkg then (if bit e 50 then .va (bits e 47 0) else .win (bits e 28 0)) else .peer (lowAddr e)
  | 7 => .reg (bits e 23 0)
  | 15 => .stack (lowAddr e)
  | _ => .va (bits e 47 0)

/-- The range rules of each path for bytes `e` to `e + n` − 1 (R235, R237 to R240). -/
def State.inRange (s : State) (e n : Nat) : Bool :=
  let t := s.t
  let l := lowAddr e
  let last := l + n - 1
  match pathOf e with
  | 3 => decide (last < 0x200000)
  | 4 => decide (last < 2 ^ 29) && s.inTenant t.vf (l / 2 ^ 21) && s.inTenant t.vf (last / 2 ^ 21)
  | 5 => decide (last < 2 ^ 57)
  | 6 =>
    let p := bits l 56 51
    let a := bits l 49 0
    let b := a + n - 1
    decide (p < s.dev.npkg) &&
      (if bit l 50 then decide (b < 2 ^ 48)
       else
        decide (b < 2 ^ 29) &&
          (if p = s.dev.pkg then s.inTenant t.vf (a / 2 ^ 21) && s.inTenant t.vf (b / 2 ^ 21)
           else
            let q := (mget (p * 64 + t.vf) s.dev.peerQuads).getD 0
            bit q (a / 2 ^ 21 / 4) && bit q (b / 2 ^ 21 / 4)))
  | 7 => decide (last < 0x1000000)
  | _ => decide (last < 2 ^ 48)

/-- The holdings and footprints rule of a window access (R244). -/
def State.windowOk (s : State) (e n : Nat) (k : AccKind) : Bool :=
  match winKey s.dev.pkg s.core e with
  | none => true
  | some key =>
    (decide (key / 2 ^ 21 = s.core) && decide ((key + n - 1) / 2 ^ 21 = s.core)
        && s.t.holds_ s.cur (key % 2 ^ 21) n)
      || s.t.footCovers s.dev.pkg s.core key n k

/-- The first three checks of R122 on bytes `e` to `e + n` − 1, with the paths the form reaches; `detail4` of a window
access is the path code. -/
def State.pathCheck (s : State) (e n : Nat) (k : AccKind) (paths : List Nat) : Except Stop Unit :=
  let p := pathOf e
  if 8 ≤ p then trapStop (trapAF 1 p)
  else if bits e 59 57 ≠ 0 then trapStop (trapAF 2 p)
  else if !paths.contains p then trapStop (trapAF 3 p)
  else if !s.inRange e n then trapStop (trapAF 3 p)
  else if !s.windowOk e n k then trapStop (trapAF 3 p)
  else .ok ()

/-- Register bytes of a window, of another package's too (R239), and the register view take whole, aligned accesses (R237, R240). -/
def registerAligned (pkg core e n : Nat) : Bool :=
  match winKey pkg core e with
  | some key => if 0x130000 ≤ key % 2 ^ 21 then n == 8 && key % 8 == 0 else decide (key % 2 ^ 21 + n ≤ 0x130000)
  | none => if pathOf e = 7 then (n == 4 || n == 8) && bits e 23 0 % n == 0 else true

/-- The checks of a naturally aligned scalar access (R122). -/
def State.scalarCheck (s : State) (e n slot : Nat) (k : AccKind) (paths : List Nat) : Except Stop Unit :=
  match s.pathCheck e n k paths with
  | .error x => .error x
  | .ok _ =>
    if e % n ≠ 0 then trapStop (trapAF 4 slot)
    else if !registerAligned s.dev.pkg s.core e n then trapStop (trapAF 4 slot)
    else .ok ()

/-! Translation (R348 to R350). -/

/-- A walk's fault: kind, level, whether in stage 2, and the intermediate address of a stage-2 fault. -/
structure WalkErr where
  kind : Nat
  level : Nat
  stage2 : Bool
  ipa : Nat
  deriving DecidableEq, Repr

/-- A leaf found: output base, page size in bits, W, D and the address of its entry. -/
structure Leaf where
  out : Nat
  size : Nat
  w : Bool
  d : Bool
  entry : Nat
  deriving DecidableEq, Repr

/-- The 9-bit index of a level and the page size of a leaf there, in bits. -/
def levelIndex (level a : Nat) : Nat := a / 2 ^ (39 - 9 * level) % 512
def levelSize (level : Nat) : Nat := 39 - 9 * level

/-- Whether a path's reads check P only (R350). -/
def laxPath (path : Nat) (write : Bool) : Bool := !write && (path == 1 || path == 2)

/-- What one entry says at a level: a fault kind, a leaf, or the next table; `lax` for a read that checks P only. -/
def readEntry (lax stage2 : Bool) (level x : Nat) : Except Nat (Bool × Nat) :=
  let addr := bits x 47 12 * 4096
  let leaf := level = 3 ∨ (bit x 2 ∧ !(lax && level == 0))
  if !bit x 0 then .error 1
  else if lax then .ok (decide leaf, addr)
  else if bits x 63 48 ≠ 0 ∨ bits x 11 6 ≠ 0 ∨ bits x 4 3 ≠ 0 ∨ (stage2 ∧ bits x 47 40 ≠ 0) then .error 3
  else if level = 0 ∧ bit x 2 then .error 3
  else if leaf ∧ addr % 2 ^ levelSize level ≠ 0 then .error 3
  else .ok (decide leaf, addr)

/-- Whether a stage-2 output address exists (R350 kind 4). -/
def State.paValid (s : State) (pa : Nat) : Bool := s.dev.paValid pa

/-- Stage 2 from `level` on, with the table at physical address `table`. -/
def State.walk2 (s : State) (lax : Bool) (ipa : Nat) : Nat → Nat → Nat → Except WalkErr Leaf
  | 0, level, _ => .error ⟨3, level, true, ipa⟩
  | fuel + 1, level, table =>
    let ea := table + 8 * levelIndex level ipa
    let x := s.num .dram ea 8
    match readEntry lax true level x with
    | .error k => .error ⟨k, level, true, ipa⟩
    | .ok (true, addr) =>
      let pa := addr + ipa % 2 ^ levelSize level
      if lax || s.paValid pa then .ok ⟨addr, levelSize level, bit x 1, bit x 5, ea⟩ else .error ⟨4, level, true, ipa⟩
    | .ok (false, addr) => s.walk2 lax ipa fuel (level + 1) addr

/-- Stage 2 of an intermediate address of a VF. -/
def State.stage2 (s : State) (lax : Bool) (v ipa : Nat) : Except WalkErr Leaf := s.walk2 lax (ipa % 2 ^ 48) 4 0 (s.vf v).s2root

/-- Stage 1 from `level` on, with the table at intermediate address `table`, each table entry's address translated by
stage 2 before it is read (R348). -/
def State.walk1 (s : State) (lax : Bool) (v va : Nat) : Nat → Nat → Nat → Except WalkErr Leaf
  | 0, level, _ => .error ⟨3, level, false, 0⟩
  | fuel + 1, level, table =>
    let ia := table + 8 * levelIndex level va
    match s.stage2 lax v ia with
    | .error e => .error e
    | .ok l2 =>
      let x := s.num .dram (l2.out + ia % 2 ^ l2.size) 8
      match readEntry lax false level x with
      | .error k => .error ⟨k, level, false, 0⟩
      | .ok (true, addr) => .ok ⟨addr, levelSize level, bit x 1, false, 0⟩
      | .ok (false, addr) => s.walk1 lax v va fuel (level + 1) addr

/-- A complete walk for a read or a write (R350): the translation of the smaller of the two pages; `lax` for a read that checks
P only. -/
def State.walk (s : State) (v va : Nat) (write : Bool) (lax : Bool := false) : Except WalkErr TlbEntry :=
  match s.walk1 lax v va 4 0 (s.vf v).s1root with
  | .error e => .error e
  | .ok l1 =>
    if write && !l1.w then .error ⟨2, (39 - l1.size) / 9, false, 0⟩
    else
      let ipa := l1.out + va % 2 ^ l1.size
      match s.stage2 lax v ipa with
      | .error e => .error e
      | .ok l2 =>
        if write && !l2.w then .error ⟨2, (39 - l2.size) / 9, true, ipa⟩
        else
          let size := Nat.min l1.size l2.size
          let pa := l2.out + ipa % 2 ^ l2.size
          .ok { vf := v, va := va / 2 ^ size * 2 ^ size, pa := pa / 2 ^ size * 2 ^ size, size := size, w1 := l1.w
                w2 := l2.w, d := l2.d, ipa := ipa / 2 ^ size * 2 ^ size, leaf := l2.entry }

/-- The event and trap of a walk's fault (R353, R361). -/
def walkTrap (va path : Nat) (write : Bool) (e : WalkErr) : Trap :=
  { cls := ascii2 'P' 'F', num := if e.kind = 1 then 1 else 2, addr := va, info := if e.stage2 then e.ipa else 0
    recDetail := some (packFields [(4, path), (1, b2n write), (1, b2n e.stage2), (2, e.level), (4, e.kind)])
    host := e.stage2 || e.kind == 4 }

/-- What a walk for an access of a path gives: a translation with a fault that its reads do not check serves them alone, for only
faultless translations are cached for all (R350, R351). -/
def State.walkFor (s : State) (v va : Nat) (write : Bool) (path : Nat) : Except WalkErr TlbEntry :=
  match s.walk v va write with
  | .ok e => .ok e
  | .error x =>
    if laxPath path write then
      match s.walk v va false true with
      | .ok e => .ok { e with lax := true }
      | .error y => .error y
    else .error x

/-- Whether a cached entry serves an access. -/
def TlbEntry.serves (e : TlbEntry) (v va : Nat) (write lax : Bool) : Bool :=
  e.vf == v && va / 2 ^ e.size * 2 ^ e.size == e.va && (!write || (e.w1 && e.w2)) && (!e.lax || lax)

/-- The physical address by an entry. -/
def TlbEntry.paOf (e : TlbEntry) (va : Nat) : Nat := e.pa + va % 2 ^ e.size

/-- A core's cached translation of an address. -/
def State.tlb (s : State) (c v va : Nat) (write : Bool) (lax : Bool := false) : Option TlbEntry :=
  (s.coreAt c).tlb.find? fun e => e.serves v va write lax

/-- A translation entered in a core's cache of 256 entries, in place of an older one of its page (R351). -/
def State.tlbFill (s : State) (c : Nat) (e : TlbEntry) : State :=
  s.updCore c fun k => { k with tlb := (e :: k.tlb.filter fun o => !(o.vf == e.vf && o.va == e.va)).take 256 }

/-- The physical address of a virtual address that an access of a path names, at issue: from the cache, or the word stalls while a
walk runs; a walk that has faulted ends the word (R352, R353). -/
def State.translate (s : State) (va : Nat) (write : Bool) (path : Nat) : Except Stop Nat :=
  match s.tlb s.core s.t.vf va write (laxPath path write) with
  | some e => .ok (e.paOf va)
  | none =>
    match s.dev.faults.find? fun f => f.x == s.cur && f.vf == s.t.vf && f.va == va && f.write == write && f.path == path with
    | some f => trapStop f.trap
    | none => .error (.miss va write path)

/-- A walk in its slot: it starts from the roots as they stand (R357). -/
def Walk.start (w : Walk) (f : Vf) : Walk := { w with active := true, root1 := f.s1root, root2 := f.s2root }

/-- A walk asked for by the strand acted on: a miss joins the walk of its die to the same page, or takes a slot, of which each die
has 64, or waits for one (R351). -/
def State.requestWalk (s : State) (va : Nat) (write : Bool) (path : Nat) : State :=
  let die := s.core / 64
  let m : Miss := { x := s.cur, va := va, write := write, path := path }
  match s.dev.walks.find? fun w => w.2.die == die && w.2.vf == s.t.vf && w.2.va / 4096 == va / 4096 with
  | some w =>
    if w.2.misses.contains m then s
    else { s with dev := { s.dev with walks := mset w.1 { w.2 with misses := w.2.misses ++ [m] } s.dev.walks } }
  | none =>
    let free := decide ((s.dev.walks.filter fun w => w.2.die == die && w.2.active).length < 64)
    let id := s.fresh
    let w : Walk := { die := die, vf := s.t.vf, va := va, misses := [m], active := false }
    let s1 := { s.tick with dev := { s.dev with walks := mset id (if free then w.start (s.vf w.vf) else w) s.dev.walks } }
    if free then s1.later (.walkComplete id) else s1

/-- The faults of the strand acted on that its word has now taken, forgotten: a fault is never cached (R354). -/
def State.dropFaults (s : State) (va : Nat) : State :=
  { s with dev := { s.dev with faults := s.dev.faults.filter fun f => !(f.x == s.cur && f.va == va) } }

/-- Of a strand that stops, no fault and no miss is kept: what runs in its place walks anew (R354). -/
def State.dropMisses (s : State) (x : Nat) : State :=
  { s with dev := { s.dev with
      faults := s.dev.faults.filter fun f => f.x != x
      walks := s.dev.walks.map fun w => (w.1, { w.2 with misses := w.2.misses.filter fun m => m.x != x }) } }

/-! Asynchronous accesses. -/

/-- An access or command in the strand's program order, set to perform after a variable latency. -/
def State.addAsync (s : State) (a : Async) : State :=
  let id := s.fresh
  let s1 := s.tick.upd fun t =>
    { t with asyncs := t.asyncs ++ [{ a with
        id := id, seq := t.seq, after := t.lastTimed, early := t.lastWrites, region := t.region, rd0 := a.rd, wr0 := a.wr
        trs := if a.pas.isEmpty then [] else (a.vals.headD 0 :: a.idx).filterMap fun e => s.tlb s.core t.vf (bits e 47 0) false true }] }
  if a.buffered then s1 else s1.later (.accessPerform s.cur id)

/-- A region edge issued: the region closes with the strand cycle, and with a handler's cycle once the handler has returned (R332,
R334). -/
def State.markEdge (s : State) : State := s.upd fun t => { t with edge := true }

/-- A landing whose value an event brings, reserved at issue (R27): the state and the landing's number. -/
def State.landLater (s : State) (lat : Nat) (w : Wait) : Nat × State :=
  let id := s.fresh
  (id, s.tick.upd fun t =>
    t.addLanding { id := id, seq := t.seq, due := t.clock + lat, wait := w, arrived := false })

end Sys2Proof.Machine
end

