-- ==== Sys2Proof/Machine/Run.lean ====
section
/-! DEFINITION. What ends a word: its effect, a trap, a stall or a translation miss. -/

set_option linter.unusedVariables false

namespace Sys2Proof.Machine

/-- What a trap of a word does: of `SW 1` the word counts as issued (R37, R134); a translation fault is forgotten as
it is taken (R354). -/
def State.wordTrap (s : State) (e : Eng) (tr : Trap) : State :=
  let s1 := if tr.cls = ascii2 'P' 'F' then s.dropFaults tr.addr else s
  if tr.cls = ascii2 'S' 'W' ∧ !s.t.frozen then (s1.moveQueue e ((s1.t.ctl e).idx + 1)).takeTrap tr e.num 2
  else s1.takeTrap tr e.num (e.num + 1)

/-- A layout record asked for (R188): it arrives after a variable latency. -/
def State.requestRecord (s : State) (pa : Nat) : State :=
  (s.tick.upd fun t => { t with recFetch := some { id := s.fresh, pa := pa, val := none } }).later (.variableLatencyArrival s.cur s.fresh)

/-- What a word's performance ends in. -/
def State.conclude (s : State) (e : Eng) : Except Stop State → State
  | .ok s1 => s1.unstall
  | .error (.trap tr) => s.unstall.wordTrap e tr
  | .error (.stall c) => s.stallAt c
  | .error (.miss va w p) => (s.requestWalk va w p).stallAt .translation
  | .error (.record pa) => (s.requestRecord pa).stallAt .landing

/-- The issue of a word by its engine. -/
def State.issueOn (s : State) (v : View) (e : Eng) (words : Nat) (op : Operation) : State :=
  match s.limits v with
  | some d => s.conclude e (trapStop (trapIL 6 d))
  | none => s.conclude e (s.perform v e words op)

/-- The issue of a word of one ring position. -/
def State.issue (s : State) (v : View) (op : Operation) : State := s.issueOn v (v.engine .s) 1 op

end Sys2Proof.Machine
end

