-- ==== Sys2Proof/Machine/Regions.lean ====
section
/-! DEFINITION. Idempotent regions: boundaries and their checkpoint (R332), the release of the store buffer (R335) and
which words force one. -/

set_option linter.unusedVariables false

namespace Sys2Proof.Machine

/-- The checkpoint of a strand as a boundary leaves it (R332). -/
def State.checkpoint (s : State) : Checkpoint :=
  let t := s.t
  let c := s.coreAt s.core
  { ctx := t.ctx, queues := t.queues, pend := t.pend, streams := t.streams, mpend := t.mpend, timed := t.timed
    sems := c.sems.filter fun e => t.ownsSem e.1
    next := (c.chans.filter fun e => bit t.channels e.1).map fun e => (e.1, e.2.next)
    acm := c.acm, vEnd := t.vEnd, fEnd := t.fEnd, mEnd := t.mEnd, accIss := t.accIss, raises := t.raises
    deferred := (t.deferred.filter fun w => decide (0x130000 ≤ w.off)).map fun w => { w with src := none }
    matched := t.micro == 8 }

/-- The buffered stores released, in issue order (R335). -/
def State.releaseStores (s : State) : State :=
  let t := s.t
  (t.asyncs.filter fun a => a.buffered).foldl (fun s a => s.later (.accessPerform s.cur a.id))
    (s.upd fun t => { t with asyncs := t.asyncs.map fun a => { a with buffered := false } })

/-- A region boundary: the store buffer is released and a new region opens with a new checkpoint (R332). -/
def State.boundary (s : State) : State :=
  let s1 := s.releaseStores
  let s2 := s1.upd fun t => { t with region := t.region + 1, regionAt := t.ctx.sclk, edge := false, popped := [] }
  s2.upd fun t => { t with ckpt := some s2.checkpoint }

end Sys2Proof.Machine
end

