-- ==== Sys2Proof/Machine/Formats.lean ====
section
/-! DEFINITION. Number formats and rounding (R61 to R72): decoding an encoding into an exact quantity, `Round` with
its flags, conversion into integers, SP2, and the stochastic generator. -/

set_option linter.unusedVariables false

namespace Sys2Proof.Machine

/-! Formats (R61). -/

/-- A floating-point type: neither an integer nor SP2. -/
def isFp (t : Ty) : Bool := !t.isInt && t != .sp2

/-- Exponent and mantissa bits and bias of a floating-point format (R61); the others read as `.f64`. -/
def fmtOf : Ty → Nat × Nat × Nat
  | .f32 => (8, 23, 127) | .f16 => (5, 10, 15) | .bf16 => (8, 7, 127) | .e5m2 => (5, 2, 15) | .e4m3 => (4, 3, 7)
  | .e3m2 => (3, 2, 3) | .e2m3 => (2, 3, 1) | .e2m1 => (2, 1, 1) | _ => (11, 52, 1023)

def expBits (t : Ty) : Nat := (fmtOf t).1
def manBits (t : Ty) : Nat := (fmtOf t).2.1
def bias (t : Ty) : Nat := (fmtOf t).2.2

/-- Whether the format has infinities (R61). -/
def hasInf : Ty → Bool
  | .f64 | .f32 | .f16 | .bf16 | .e5m2 => true
  | _ => false

/-- The sign bit as a number. -/
def signBit (t : Ty) (neg : Bool) : Nat := if neg then 2 ^ (t.width - 1) else 0

/-- Encoding of +infinity, in a format that has it. -/
def infMag (t : Ty) : Nat := (2 ^ expBits t - 1) * 2 ^ manBits t

/-- Encoding of the largest finite magnitude. -/
def maxMag (t : Ty) : Nat :=
  if hasInf t then infMag t - 1 else if t = .e4m3 then 0x7E else 2 ^ (t.width - 1) - 1

/-- The canonical NaN (R63); +0 in a format without NaN, 0x77 in SP2 (R68). -/
def nanCode (t : Ty) : Nat :=
  if hasInf t then infMag t + 2 ^ (manBits t - 1) else if t = .e4m3 then 0x7F else if t = .sp2 then 0x77 else 0

/-- The value of a nonnegative floating-point magnitude code on the unbounded grid (R62). -/
def magOfCode (t : Ty) (c : Nat) : Mag :=
  let mb := manBits t
  let e := c / 2 ^ mb
  let m := c % 2 ^ mb
  if e = 0 then .dyadic m (1 - (bias t : Int) - mb) else .dyadic (2 ^ mb + m) ((e : Int) - bias t - mb)

/-- One term of an SP2 byte, in units of 2^−6 (R65). -/
def sp2Term (s : Bool) (sh : Nat) : Int :=
  if sh = 7 then 0 else if s then -(2 ^ (6 - sh) : Nat) else (2 ^ (6 - sh) : Nat)

/-- The value of an SP2 byte in units of 2^−6 (R65). -/
def sp2Units (c : Nat) : Int := sp2Term (bit c 7) (bits c 6 4) + sp2Term (bit c 3) (bits c 2 0)

/-- The magnitudes of SP2 in units of 2^−6, ascending. -/
def sp2Mags : List Nat :=
  [0, 1, 2, 3, 4, 5, 6, 7, 8, 9, 10, 12, 14, 15, 16, 17, 18, 20, 24, 28, 30, 31, 32, 33, 34, 36, 40, 48, 56, 60, 62,
   63, 64, 65, 66, 68, 72, 80, 96, 128]

/-- The canonical byte of a value in units of 2^−6 (R65). -/
def sp2Canon (v : Int) : Nat :=
  if v = 0 then 0x77
  else ((List.range 256).find? fun c => sp2Units c == v && bit c 7 == decide (v < 0)).getD 0x77

/-- The exact quantity that an encoding of a type names (R62 to R65). -/
def decode (t : Ty) (code : Nat) : XReal :=
  let c := code % 2 ^ t.width
  if t.isInt then .ofInt (if t.signed then sext t.width c else (c : Int))
  else if t = .sp2 then
    let v := sp2Units c
    .fin (v < 0) (.dyadic v.natAbs (-6))
  else
    let neg := bit c (t.width - 1)
    let m := c % 2 ^ (t.width - 1)
    if hasInf t && m == infMag t then .inf neg
    else if hasInf t && infMag t < m then .nan (!bit m (manBits t - 1))
    else if t == .e4m3 && m == 0x7F then .nan false
    else .fin neg (magOfCode t m)

/-! Rounding (R66 to R70). -/

/-- Whether a rounding with remainder `r` out of `d`, `0 < r < d`, goes up in magnitude from integer part `q`. -/
def roundsUp (mode : Rnd) (neg : Bool) (draw q r d : Nat) : Bool :=
  match mode with
  | .rne => 2 * r > d || (2 * r == d && q % 2 == 1)
  | .rna => 2 * r ≥ d
  | .rz => false
  | .ru => !neg
  | .rd => neg
  | .rs =>
    -- hi is the greater neighbour: the larger magnitude of a positive x, the smaller of a negative one (R71)
    if neg then !(draw < 2 ^ 24 * (d - r) / d) else draw < 2 ^ 24 * r / d

/-- An integer part rounded by its remainder. -/
def roundNat (mode : Rnd) (neg : Bool) (draw : Nat) (p : Nat × Nat × Nat) : Nat :=
  if p.2.1 = 0 then p.1 else if roundsUp mode neg draw p.1 p.2.1 p.2.2 then p.1 + 1 else p.1

/-- The unit exponent of the unbounded grid at a nonzero magnitude. -/
def unboundedUnit (t : Ty) (m : Mag) : Int := m.floorLog2 - manBits t

/-- The least unit exponent of the format. -/
def leastUnit (t : Ty) : Int := 1 - (bias t : Int) - manBits t

/-- The magnitude code of `q` units of `2^u`, for a unit not below the least. -/
def codeAt (t : Ty) (q : Nat) (u : Int) : Nat := q + (u - leastUnit t).toNat * 2 ^ manBits t

/-- What overflow delivers (R67, R68). -/
def overflowMag (t : Ty) (mode : Rnd) (neg : Bool) : Nat :=
  if hasInf t then
    match mode with
    | .rne | .rna | .rs => infMag t
    | .rz => maxMag t
    | .ru => if neg then maxMag t else infMag t
    | .rd => if neg then infMag t else maxMag t
  else maxMag t

/-- `Round` of a nonzero finite magnitude into a floating-point format: magnitude code and flags (R67). -/
def roundFinite (t : Ty) (mode : Rnd) (draw : Nat) (neg : Bool) (m : Mag) : Nat × Nat :=
  let u := unboundedUnit t m
  let v := if u < leastUnit t then leastUnit t else u
  -- overflow is judged on the unbounded grid; `.rs` as `.rne` does
  let omode := if mode = .rs then .rne else mode
  let tooBig := leastUnit t ≤ u && decide (codeAt t (roundNat omode neg 0 (m.split u)) u > maxMag t)
  if tooBig then (overflowMag t mode neg, fOr fOF fNX)
  else
    let p := m.split v
    let q := roundNat mode neg draw p
    let c := Nat.min (codeAt t q v) (maxMag t)
    let inexact := p.2.1 ≠ 0
    if !inexact then (c, 0)
    else
      -- tininess after rounding with the exponent unbounded; `.rs` toward the neighbour that the draw chose
      let w := m.split u
      let q' :=
        if mode = .rs then (if w.2.1 = 0 then w.1 else if q = p.1 then w.1 else w.1 + 1)
        else roundNat mode neg draw w
      let tiny := u < leastUnit t && !(u == leastUnit t - 1 && q' == 2 ^ (manBits t + 1))
      (c, if tiny then fOr fUF fNX else fNX)

/-- The SP2 neighbours of a magnitude given as `n / d` units: the greatest not above and the least not below. -/
def sp2Around (n d : Nat) : Nat × Nat :=
  (((sp2Mags.filter fun v => v * d ≤ n).getLast?).getD 0, ((sp2Mags.find? fun v => n ≤ v * d)).getD 128)

/-- `Round` of a finite magnitude of at most 2 into SP2: units and flags (R70). -/
def roundSp2 (mode : Rnd) (draw : Nat) (neg : Bool) (m : Mag) : Nat × Nat :=
  let p := m.split (-6)
  let d := p.2.2
  let n := p.1 * d + p.2.1
  let lh := sp2Around n d
  if lh.1 = lh.2 then (lh.1, 0)
  else
    let r := n - lh.1 * d
    let g := (lh.2 - lh.1) * d
    let up :=
      match mode with
      | .rne => decide (2 * r > g)
      | m => roundsUp m neg draw 0 r g
    let v := if up then lh.2 else lh.1
    (v, if v = 0 then fOr fUF fNX else fNX)

/-- `Round(x, fmt, mode)` into a floating-point format or SP2, with the flags it sets (R67, R68, R70). -/
def round (t : Ty) (mode : Rnd) (draw : Nat) (x : XReal) : Nat × Nat :=
  match x with
  | .nan s => (nanCode t, if s || !hasInf t then fNV else 0)
  | .inf neg =>
    if hasInf t then (signBit t neg + infMag t, 0)
    else if t = .sp2 then (sp2Canon (if neg then -128 else 128), fOr fOF fNX)
    else (signBit t neg + maxMag t, fOr fOF fNX)
  | .fin neg m =>
    if t = .sp2 then
      if Mag.lt (.ofNat 2) m then (sp2Canon (if neg then -128 else 128), fOr fOF fNX)
      else
        let r := roundSp2 mode draw neg m
        (sp2Canon (if neg then -(r.1 : Int) else (r.1 : Int)), r.2)
    else if m.isZero then (signBit t neg, 0)
    else
      let r := roundFinite t mode draw neg m
      (signBit t neg + r.1, r.2)

/-! Integers (R69). -/

/-- The least and greatest value of an integer type. -/
def intRange (t : Ty) : Int × Int :=
  if t.signed then (-(2 ^ (t.width - 1) : Nat), (2 ^ (t.width - 1) : Nat) - 1) else (0, (2 ^ t.width : Nat) - 1)

/-- A quantity rounded to an integer in a mode; whether it was inexact. Of a quantity that is not finite, 0. -/
def roundInt (mode : Rnd) (draw : Nat) (x : XReal) : Int × Bool :=
  match x with
  | .fin neg m =>
    let p := m.split 0
    let q := roundNat mode neg draw p
    (if neg then -(q : Int) else (q : Int), p.2.1 ≠ 0)
  | _ => (0, false)

/-- Conversion into an integer type with saturation: encoding and flags (R69). -/
def toIntTy (t : Ty) (mode : Rnd) (draw : Nat) (x : XReal) : Nat × Nat :=
  let r := intRange t
  match x with
  | .nan _ => (0, fNV)
  | .inf neg => (wrap t.width (if neg then r.1 else r.2), fNV)
  | .fin _ _ =>
    let v := roundInt mode draw x
    if v.1 < r.1 then (wrap t.width r.1, fNV)
    else if r.2 < v.1 then (wrap t.width r.2, fNV)
    else (wrap t.width v.1, if v.2 then fNX else 0)

/-- Conversion of an exact quantity into any type, rounded once: encoding and flags. -/
def narrow (t : Ty) (mode : Rnd) (draw : Nat) (x : XReal) : Nat × Nat :=
  if t.isInt then toIntTy t mode draw x else round t mode draw x

/-- The canonical NaN test, sign clear and sign set encodings (R118, R143). -/
def fpAbs (t : Ty) (c : Nat) : Nat := c % 2 ^ (t.width - 1)
def fpNeg (t : Ty) (c : Nat) : Nat := if bit c (t.width - 1) then fpAbs t c else fpAbs t c + 2 ^ (t.width - 1)

/-- Total order of the `min` and `max` forms, −0 below +0: whether `a` is below `b`, for encodings without NaN (R118). -/
def fpBelow (t : Ty) (a b : Nat) : Bool :=
  let x := decode t a
  let y := decode t b
  if x.lt y then true else if y.lt x then false else x.neg && !y.neg

/-- The smaller or the greater of two floating-point encodings with the rules of R118: encoding and flags. -/
def fpMinMax (t : Ty) (wantMax : Bool) (a b : Nat) : Nat × Nat :=
  let x := decode t a
  let y := decode t b
  if x.isNan || y.isNan then (nanCode t, XReal.snanFlag [x, y])
  else if fpBelow t a b == wantMax then (b % 2 ^ t.width, 0) else (a % 2 ^ t.width, 0)

/-! Blocks (R73 to R76). -/

/-- The elements that a block of a format holds (R74). -/
def blockCapacity (t : Ty) : Nat := 496 / t.width

/-- The unbiased exponent of the largest finite value of a format (R76). -/
def emaxOf : Ty → Int
  | .f32 | .bf16 => 127
  | .f16 | .e5m2 => 15
  | .e4m3 => 8
  | .e3m2 => 4
  | .e2m3 | .e2m1 => 2
  | .sp2 => 1
  | _ => 0

/-- The scale byte for a block's inputs (R76). -/
def blockScale (t : Ty) (xs : List XReal) : Nat :=
  if t.isInt then 0x7F
  else
    let m := xs.foldl (fun (m : Mag) x => match x with | .fin _ y => if m.lt y then y else m | _ => m) (.ofNat 0)
    if m.isZero then 127
    else
      let e := m.floorLog2 - emaxOf t + 127
      if e < 0 then 0 else if 255 < e then 255 else e.toNat

/-- One element of a block of scale byte `e`: encoding and flags (R76). -/
def blockElem (t : Ty) (mode : Rnd) (draw e : Nat) (x : XReal) : Nat × Nat :=
  if t.isInt then toIntTy t mode draw x else round t mode draw (x.scale (127 - (e : Int)))

/-- Elements of `w` bits packed from the least significant bit. -/
def packElems (w : Nat) : List Nat → Nat
  | [] => 0
  | x :: xs => x % 2 ^ w + 2 ^ w * packElems w xs

/-- The 64 bytes of a block (R73). -/
def blockBytes (t : Ty) (e : Nat) (codes : List Nat) : List Byte :=
  BitVec.ofNat 8 t.code :: BitVec.ofNat 8 (if t.isInt then 0x7F else e) :: leBytes 62 (packElems t.width codes)

/-- Element `i` of a block's bytes read as a number: format, encoding and scale exponent (R75). -/
def blockElemAt (t : Ty) (bytes i : Nat) : Nat × Int :=
  (bytes / 2 ^ (16 + t.width * i) % 2 ^ t.width, if t.isInt then 0 else (bytes / 256 % 256 : Nat) - 127)

/-! Sums (R80). -/

/-- One level of the pairwise tree: sums rounded to binary64 to nearest even, with their flags. -/
def treeLevel : List XReal → List XReal × Nat
  | x :: y :: r =>
    let s := XReal.add false x y
    let q := round .f64 .rne 0 s.1
    let t := treeLevel r
    (decode .f64 q.1 :: t.1, fOr (fOr s.2 q.2) t.2)
  | xs => (xs, 0)

/-- The tree of R80 over a list, at most `fuel` levels; of an empty list +0. -/
def treeSum : Nat → List XReal → XReal × Nat
  | _, [] => (.zero false, 0)
  | _, [x] => (x, 0)
  | 0, x :: _ => (x, 0)
  | fuel + 1, xs =>
    let l := treeLevel xs
    let r := treeSum fuel l.1
    (r.1, fOr l.2 r.2)

/-! The stochastic generator (R71). -/

/-- One draw: the state after it and the 24-bit number drawn. -/
def drawOnce (seed : Word) : Word × Nat :=
  let s0 : Word := if seed = 0 then 0x9E3779B97F4A7C15 else seed
  let s1 := s0 ^^^ (s0 <<< 13)
  let s2 := s1 ^^^ (s1 >>> 7)
  let s3 := s2 ^^^ (s2 <<< 17)
  (s3, s3.toNat / 2 ^ 40)

/-- `n` draws in order: the state after them and the numbers drawn. -/
def drawMany : Nat → Word → Word × List Nat
  | 0, s => (s, [])
  | n + 1, s =>
    let d := drawOnce s
    let r := drawMany n d.1
    (r.1, d.2 :: r.2)

end Sys2Proof.Machine
end

