-- ==== Sys2Proof/Machine/Scalar.lean ====
section
/-! DEFINITION. Class S arithmetic: operands (R109, R110), ALU forms (R112, R113), compares and predicates (R114, R115),
the multiplier (R116, R117), floating-point ALU forms (R118) and conversion (R119). -/

set_option linter.unusedVariables false

namespace Sys2Proof.Machine

/-! Operands. -/

/-- A binary32 encoding widened exactly to binary64 (R104, R110). A quiet NaN gives the canonical one (R63), and a signalling one stays
signalling, for the operation that consumes it sets NV (DEDUCED, log entry 54). -/
def widen32 (x : Nat) : Nat :=
  if decode .f32 x = .nan true then bits x 31 31 * 2 ^ 63 + 0x7FF * 2 ^ 52 + bits x 22 0 * 2 ^ 29
  else (round .f64 .rne 0 (decode .f32 x)).1

/-- The value of the immediate for a form of type `ty` (R110). -/
def immVal (ty : Ty) (imm : BitVec 32) : Word :=
  if ty = .f64 then BitVec.ofNat 64 (widen32 imm.toNat)
  else if ty.isInt && !ty.signed then imm.setWidth 64
  else imm.signExtend 64

/-- Opnd of a value: its low bits, read by the type's signedness (R110). -/
def opnd (ty : Ty) (v : Word) : Int :=
  if ty.signed then sext ty.width v.toNat else ((v.toNat % 2 ^ ty.width : Nat) : Int)

/-- A result in the low bits of a register word (R111). -/
def lowBits (ty : Ty) (x : Int) : Word := BitVec.ofNat 64 (wrap ty.width x)

/-- The latch that AS names (R91, R111). -/
def aluEff (as : Bool) (v : Word) : Eff := if as then .la1 v else .la0 v

/-- Numbers drawn for `n` elements rounded in a mode: `n` draws for `.rs`, else none are taken (R71). -/
def State.draw (s : State) (mode : Rnd) (n : Nat) : List Nat × State :=
  if mode = .rs then
    let d := drawMany n s.t.ctx.srseed
    (d.2, s.upd fun t => t.updCtx fun c => { c with srseed := d.1 })
  else (List.replicate n 0, s)

/-- The transport of an S word (R92): the latch as it is at issue, pushed into its queue register one strand cycle
later. -/
def Strand.transport (t : Strand) (b : SBody) : Except Stop Strand :=
  match b.xl with
  | .none => .ok t
  | xl =>
    match t.reserveQ b.xq.val t.seq with
    | .error x => .error x
    | .ok t1 => .ok (t1.land 1 [.push (t.physQ b.xq.val) t.seq (t.xlatch xl)])

/-- The operand slots that a form reads, with their PEEK bits; a slot that it does not use reads as zero. -/
def sSlots (op : SOp) (h : Hdr) (b : SBody) : List (Opd × Bool) :=
  let f := op.form
  [(if f.a = .unused then .zero else b.a, h.peekA), (if f.b = .unused then .zero else b.b, h.peekB),
   (if f.c = .unused then .zero else b.c, h.peekC)]

/-- An S word: its operands read in slot order, its transport made, then its own part on the values of A, B and C. -/
def sOp (op : SOp) (h : Hdr) (b : SBody) (f : Word → Word → Word → Operation) : Operation := fun s =>
  match s.t.readOpds .s (immVal b.ty b.imm) (sSlots op h b) with
  | .error x => .error x
  | .ok (vs, t1) =>
    match t1.transport b with
    | .error x => .error x
    | .ok t2 => f (vs.getD 0 0) (vs.getD 1 0) (vs.getD 2 0) (s.setStrand s.cur t2)

/-- An S word issued. -/
def issueS (op : SOp) (h : Hdr) (b : SBody) (f : Word → Word → Word → Operation) (s : State) :
    Host.Outcome State Fault Refusal :=
  .next (s.issue (.s op h b) (sOp op h b f))

/-- A result that lands `lat` strand cycles after issue. -/
def landS (lat : Nat) (e : Eff) (flags : Nat := 0) : Operation := fun s =>
  .ok { s := s.upd fun t => t.land lat [e] flags }

/-! Integer ALU forms (R112, R113). -/

/-- An ALU form: its exact integer result, wrapped, lands at k + 1 (R112). -/
def aluOp (b : SBody) (f : Word → Word → Word → Int) (x y z : Word) : Operation :=
  landS 1 (aluEff b.as (lowBits b.ty (f x y z)))

/-- A bitwise function of the two operands. -/
def bitwise (f : Nat → Nat → Nat) (x y : Word) : Int := f x.toNat y.toNat

/-- The shift count Val(B)[7:0] (R112). -/
def shiftCount (y : Word) : Nat := y.toNat % 256

def shlInt (ty : Ty) (x : Word) (c : Nat) : Int := if ty.width ≤ c then 0 else ((x.toNat * 2 ^ c : Nat) : Int)
def shrInt (ty : Ty) (x : Word) (c : Nat) : Int :=
  if ty.width ≤ c then 0 else ((x.toNat % 2 ^ ty.width / 2 ^ c : Nat) : Int)
def sarInt (ty : Ty) (x : Word) (c : Nat) : Int := sext ty.width x.toNat / ((2 ^ c : Nat) : Int)

/-- The predicate that an operand names. -/
def Strand.predOpd (t : Strand) : Opd → Bool
  | .p n => t.pred n.val
  | _ => false

/-! Compares and predicates (R114, R115). -/

/-- A predicate that lands at k + 1. -/
def landP (n : Fin 16) (v : Bool) (flags : Nat := 0) : Operation := landS 1 (.pred n v) flags

/-- An integer compare. -/
def cmpOp (b : SBody) (f : Int → Int → Bool) (x y _z : Word) : Operation := landP b.px (f (opnd b.ty x) (opnd b.ty y))

/-- A floating-point compare; `quiet` says that only a signalling NaN sets NV. -/
def fcmpOp (b : SBody) (quiet : Bool) (f : XReal → XReal → Bool) (x y _z : Word) : Operation :=
  let p := decode b.ty x.toNat
  let q := decode b.ty y.toNat
  landP b.px (f p q) (if quiet then XReal.snanFlag [p, q] else if p.isNan || q.isNan then fNV else 0)

/-- A predicate logic form. -/
def predOp (b : SBody) (f : Bool → Bool → Bool) (_x _y _z : Word) : Operation := fun s =>
  landP b.px (f (s.t.predOpd b.a) (s.t.predOpd b.b)) 0 s

/-- The first predicate of the bank that slot B names: 0 or 8 (R115). -/
def bankBase (o : Opd) : Nat := if o = .p 8 then 8 else 0

/-- Eight predicates from `base`, base + j in bit j (R46). -/
def Strand.predByte (t : Strand) (base : Nat) : Nat :=
  ((List.range 8).map fun j => b2n (t.pred (base + j)) * 2 ^ j).sum

/-! The multiplier (R116, R117). -/

def mulOp (b : SBody) (f : Int → Int → Int → Int) (x y z : Word) : Operation :=
  landS 3 (.lm (lowBits b.ty (f (opnd b.ty x) (opnd b.ty y) (opnd b.ty z))))

/-- Byte j of a value, by the signedness of the type (R116). -/
def byteOf (ty : Ty) (x : Nat) (j : Nat) : Int :=
  if ty.signed then sext 8 (x / 2 ^ (8 * j)) else ((x / 2 ^ (8 * j) % 256 : Nat) : Int)

/-- The four-byte dot product and its addend, exact (R116, R145). -/
def dot4 (ty : Ty) (x y : Nat) (z : Int) : Int :=
  (List.range 4).foldl (fun s j => s + byteOf ty x j * byteOf ty y j) z

/-- A rounded floating-point form: its exact value lands in `lm` at k + 4 with its flags (R117). -/
def roundOp (ty : Ty) (mode : Rnd) (x : XReal × Nat) : Operation := fun s =>
  let d := s.draw mode 1
  let r := narrow ty mode (d.1.headD 0) x.1
  landS 4 (.lm (BitVec.ofNat 64 r.1)) (fOr x.2 r.2) d.2

def fmulOp (b : SBody) (f : XReal → XReal → XReal → XReal × Nat) (x y z : Word) : Operation :=
  roundOp b.ty b.rnd (f (decode b.ty x.toNat) (decode b.ty y.toNat) (decode b.ty z.toNat))

/-! Floating-point ALU forms (R118). -/

/-- A sign form: the canonical NaN for a NaN operand, NV for a signalling one. -/
def fsignOp (b : SBody) (f : Nat → Nat) (x _y _z : Word) : Operation :=
  let p := decode b.ty x.toNat
  let r := if p.isNan then nanCode b.ty else f (x.toNat % 2 ^ b.ty.width)
  landS 1 (aluEff b.as (BitVec.ofNat 64 r)) (XReal.snanFlag [p])

def fminmaxOp (b : SBody) (wantMax : Bool) (x y _z : Word) : Operation :=
  let r := fpMinMax b.ty wantMax x.toNat y.toNat
  landS 1 (aluEff b.as (BitVec.ofNat 64 r.1)) r.2

/-! The instructions. -/

/-- `add` (R112): addition. -/
def execAdd (h : Hdr) (b : SBody) : State → Host.Outcome State Fault Refusal :=
  issueS .add h b (aluOp b fun x y _ => opnd b.ty x + opnd b.ty y)

/-- `sub` (R112): subtraction. -/
def execSub (h : Hdr) (b : SBody) : State → Host.Outcome State Fault Refusal :=
  issueS .sub h b (aluOp b fun x y _ => opnd b.ty x - opnd b.ty y)

/-- `and` (R112): bitwise and. -/
def execAnd (h : Hdr) (b : SBody) : State → Host.Outcome State Fault Refusal :=
  issueS .and h b (aluOp b fun x y _ => bitwise (· &&& ·) x y)

/-- `or` (R112): bitwise or. -/
def execOr (h : Hdr) (b : SBody) : State → Host.Outcome State Fault Refusal :=
  issueS .or h b (aluOp b fun x y _ => bitwise (· ||| ·) x y)

/-- `xor` (R112): bitwise exclusive or. -/
def execXor (h : Hdr) (b : SBody) : State → Host.Outcome State Fault Refusal :=
  issueS .xor h b (aluOp b fun x y _ => bitwise (· ^^^ ·) x y)

/-- `andn` (R112): a and not b. -/
def execAndn (h : Hdr) (b : SBody) : State → Host.Outcome State Fault Refusal :=
  issueS .andn h b (aluOp b fun x y _ => bitwise (fun m n => m ^^^ (m &&& n)) x y)

/-- `shl` (R112): shift left. -/
def execShl (h : Hdr) (b : SBody) : State → Host.Outcome State Fault Refusal :=
  issueS .shl h b (aluOp b fun x y _ => shlInt b.ty x (shiftCount y))

/-- `shr` (R112): zero-filling shift right. -/
def execShr (h : Hdr) (b : SBody) : State → Host.Outcome State Fault Refusal :=
  issueS .shr h b (aluOp b fun x y _ => shrInt b.ty x (shiftCount y))

/-- `sar` (R112): arithmetic shift right. -/
def execSar (h : Hdr) (b : SBody) : State → Host.Outcome State Fault Refusal :=
  issueS .sar h b (aluOp b fun x y _ => sarInt b.ty x (shiftCount y))

/-- `min` (R112): the smaller. -/
def execMin (h : Hdr) (b : SBody) : State → Host.Outcome State Fault Refusal :=
  issueS .min h b (aluOp b fun x y _ => if opnd b.ty y < opnd b.ty x then opnd b.ty y else opnd b.ty x)

/-- `max` (R112): the larger. -/
def execMax (h : Hdr) (b : SBody) : State → Host.Outcome State Fault Refusal :=
  issueS .max h b (aluOp b fun x y _ => if opnd b.ty x < opnd b.ty y then opnd b.ty y else opnd b.ty x)

/-- `sel` (R112): a if the predicate holds, else b. -/
def execSel (h : Hdr) (b : SBody) : State → Host.Outcome State Fault Refusal :=
  issueS .sel h b fun x y z s =>
    aluOp b (fun x y _ => if s.t.predOpd b.c then opnd b.ty x else opnd b.ty y) x y z s

/-- `li` (R113): the move. -/
def execLi (h : Hdr) (b : SBody) : State → Host.Outcome State Fault Refusal :=
  issueS .li h b (aluOp b fun x _ _ => opnd b.ty x)

/-- `lih` (R113): IMM·2^32 + Val(B)[31:0]. -/
def execLih (h : Hdr) (b : SBody) : State → Host.Outcome State Fault Refusal :=
  issueS .lih h b fun _ y _ =>
    landS 1 (aluEff b.as (BitVec.ofNat 64 (b.imm.toNat * 2 ^ 32 + y.toNat % 2 ^ 32)))

/-- `clz` (R112): leading zero bits. -/
def execClz (h : Hdr) (b : SBody) : State → Host.Outcome State Fault Refusal :=
  issueS .clz h b (aluOp b fun x _ _ => leadZeros b.ty.width x.toNat)

/-- `popc` (R112): one bits. -/
def execPopc (h : Hdr) (b : SBody) : State → Host.Outcome State Fault Refusal :=
  issueS .popc h b (aluOp b fun x _ _ => popCount b.ty.width x.toNat)

/-- `ceq` (R114). -/
def execCeq (h : Hdr) (b : SBody) : State → Host.Outcome State Fault Refusal :=
  issueS .ceq h b (cmpOp b fun x y => x == y)

/-- `cne` (R114). -/
def execCne (h : Hdr) (b : SBody) : State → Host.Outcome State Fault Refusal :=
  issueS .cne h b (cmpOp b fun x y => x != y)

/-- `clt` (R114). -/
def execClt (h : Hdr) (b : SBody) : State → Host.Outcome State Fault Refusal :=
  issueS .clt h b (cmpOp b fun x y => decide (x < y))

/-- `cle` (R114). -/
def execCle (h : Hdr) (b : SBody) : State → Host.Outcome State Fault Refusal :=
  issueS .cle h b (cmpOp b fun x y => decide (x ≤ y))

/-- `ctst` (R114): whether a and b share a one bit. -/
def execCtst (h : Hdr) (b : SBody) : State → Host.Outcome State Fault Refusal :=
  issueS .ctst h b fun x y _ =>
    landP b.px (decide ((x.toNat &&& y.toNat) % 2 ^ b.ty.width ≠ 0))

/-- `fceq` (R114). -/
def execFceq (h : Hdr) (b : SBody) : State → Host.Outcome State Fault Refusal :=
  issueS .fceq h b (fcmpOp b true XReal.eq)

/-- `fclt` (R114). -/
def execFclt (h : Hdr) (b : SBody) : State → Host.Outcome State Fault Refusal :=
  issueS .fclt h b (fcmpOp b false XReal.lt)

/-- `fcle` (R114). -/
def execFcle (h : Hdr) (b : SBody) : State → Host.Outcome State Fault Refusal :=
  issueS .fcle h b (fcmpOp b false XReal.le)

/-- `fcun` (R114). -/
def execFcun (h : Hdr) (b : SBody) : State → Host.Outcome State Fault Refusal :=
  issueS .fcun h b (fcmpOp b true fun x y => x.isNan || y.isNan)

/-- `pand` (R115). -/
def execPand (h : Hdr) (b : SBody) : State → Host.Outcome State Fault Refusal :=
  issueS .pand h b (predOp b (· && ·))

/-- `por` (R115). -/
def execPor (h : Hdr) (b : SBody) : State → Host.Outcome State Fault Refusal :=
  issueS .por h b (predOp b (· || ·))

/-- `pxor` (R115). -/
def execPxor (h : Hdr) (b : SBody) : State → Host.Outcome State Fault Refusal :=
  issueS .pxor h b (predOp b (· != ·))

/-- `ppack` (R115): a byte of the value replaced by a bank of predicates. -/
def execPpack (h : Hdr) (b : SBody) : State → Host.Outcome State Fault Refusal :=
  issueS .ppack h b fun x _ _ s =>
    landS 1 (aluEff b.as (BitVec.ofNat 64
      (putBits x.toNat (8 * (b.imm.toNat % 8)) 8 (s.t.predByte (bankBase b.b))))) 0 s

/-- `punpack` (R115): a bank of predicates written from a byte of the value. -/
def execPunpack (h : Hdr) (b : SBody) : State → Host.Outcome State Fault Refusal :=
  issueS .punpack h b fun x _ _ s =>
    .ok { s := s.upd fun t => t.land 1 ((List.finRange 16).filterMap fun n =>
      let base := bankBase b.b
      if base ≤ n.val ∧ n.val < base + 8 then
        some (.pred n (bit x.toNat (8 * (b.imm.toNat % 8) + (n.val - base))))
      else none) }

/-- `mul` (R116): the low half of the product. -/
def execMul (h : Hdr) (b : SBody) : State → Host.Outcome State Fault Refusal :=
  issueS .mul h b (mulOp b fun x y _ => x * y)

/-- `mulh` (R116): the high half of the product. -/
def execMulh (h : Hdr) (b : SBody) : State → Host.Outcome State Fault Refusal :=
  issueS .mulh h b (mulOp b fun x y _ => x * y / ((2 ^ b.ty.width : Nat) : Int))

/-- `mad` (R116): multiply-add. -/
def execMad (h : Hdr) (b : SBody) : State → Host.Outcome State Fault Refusal :=
  issueS .mad h b (mulOp b fun x y z => x * y + z)

/-- `dp4` (R116): four-byte dot product. -/
def execDp4 (h : Hdr) (b : SBody) : State → Host.Outcome State Fault Refusal :=
  issueS .dp4 h b fun x y z =>
    landS 3 (.lm (BitVec.ofNat 64 (wrap 32 (dot4 b.ty x.toNat y.toNat
      (if b.ty.signed then sext 32 z.toNat else ((z.toNat % 2 ^ 32 : Nat) : Int))))))

/-- `fadd` (R117). -/
def execFadd (h : Hdr) (b : SBody) : State → Host.Outcome State Fault Refusal :=
  issueS .fadd h b (fmulOp b fun x y _ => XReal.add (b.rnd == .rd) x y)

/-- `fsub` (R117). -/
def execFsub (h : Hdr) (b : SBody) : State → Host.Outcome State Fault Refusal :=
  issueS .fsub h b (fmulOp b fun x y _ => XReal.add (b.rnd == .rd) x y.negate)

/-- `fmul` (R117). -/
def execFmul (h : Hdr) (b : SBody) : State → Host.Outcome State Fault Refusal :=
  issueS .fmul h b (fmulOp b fun x y _ => XReal.mul x y)

/-- `fma` (R117): rounded once. -/
def execFma (h : Hdr) (b : SBody) : State → Host.Outcome State Fault Refusal :=
  issueS .fma h b (fmulOp b fun x y z => XReal.fma (b.rnd == .rd) x y z)

/-- `fmin` (R118). -/
def execFmin (h : Hdr) (b : SBody) : State → Host.Outcome State Fault Refusal :=
  issueS .fmin h b (fminmaxOp b false)

/-- `fmax` (R118). -/
def execFmax (h : Hdr) (b : SBody) : State → Host.Outcome State Fault Refusal :=
  issueS .fmax h b (fminmaxOp b true)

/-- `fabs` (R118): the sign cleared. -/
def execFabs (h : Hdr) (b : SBody) : State → Host.Outcome State Fault Refusal :=
  issueS .fabs h b (fsignOp b (fpAbs b.ty))

/-- `fneg` (R118): the sign inverted. -/
def execFneg (h : Hdr) (b : SBody) : State → Host.Outcome State Fault Refusal :=
  issueS .fneg h b (fsignOp b (fpNeg b.ty))

/-- `cvt` (R119): conversion from the type in IMM[4:0]. -/
def execCvt (h : Hdr) (b : SBody) : State → Host.Outcome State Fault Refusal :=
  issueS .cvt h b fun x _ _ =>
    roundOp b.ty b.rnd (decode ((Ty.ofCode (b.imm.toNat % 32)).getD .i8) x.toNat, 0)

end Sys2Proof.Machine
end

