-- ==== Sys2Proof/Machine/Order.lean ====
section
/-! DEFINITION. Order among a strand's asynchronous accesses: which earlier ones hold an access back (R200, R202, R236, R251 to
R253, R258), where the accesses of a command have their homes (R255), and what a fence waits for (R124, R256). -/

set_option linter.unusedVariables false

namespace Sys2Proof.Machine

/-! Homes (R255). -/

/-- The narrowest scope that contains the home of an access of a VF's strand (R255): 1 core, 2 quad, 3 die, 4 package, 5 the
packages on which the tenant holds a partition, 6 pod. -/
def Device.homeLevel (d : Device) (vf core : Nat) (p : Place) (pa : Nat) : Nat :=
  match p with
  | .va _ => if pa / 2 ^ 36 / 4 = core / 64 then 3 else 4
  | .win key => spanOf core (key / 2 ^ 21) + 1
  | .host _ => 4
  | .peer a => if (mget (bits a 56 51 * 64 + vf) d.peerQuads).getD 0 = 0 then 6 else 5
  | .reg _ => 4
  | .stack pa => if pa / 2 ^ 36 / 4 = core / 64 then 3 else 4

/-- That of an access of the strand acted on. -/
def State.homeLevel (s : State) (p : Place) (pa : Nat) : Nat := s.dev.homeLevel s.t.vf s.core p pa

/-- The narrowest scope that holds the home of bytes at a path address (R255): of a virtual one, by the translation that serves it
now, or the die where none does. -/
def State.addrLevel (s : State) (e : Nat) (write : Bool) : Nat :=
  match placeOf s.dev.pkg s.core e with
  | .va a =>
    let pa := match s.tlb s.core s.t.vf a write (laxPath (pathOf e) write) with
      | some x => some (x.paOf a)
      | none => match s.walkFor s.t.vf a write (pathOf e) with | .ok x => some (x.paOf a) | .error _ => none
    match pa with | some p => s.homeLevel (.va a) p | none => 3
  | p => s.homeLevel p 0

/-- The narrowest scope that holds a home of a range's window bytes; 6 for a range of others, whose bytes have homes one by one. -/
def State.windowLevel (s : State) (e : Nat) : Nat :=
  match placeOf s.dev.pkg s.core e with
  | .win key => spanOf s.core (key / 2 ^ 21) + 1
  | _ => 6

/-- The narrowest scope that holds a home of the accesses that an entry has still to make (R255, R256). Index words, the tile and
the accumulator that a command writes, and either end of a transfer at its own core lie in the core's window. -/
def State.levelLeft (s : State) (a : Async) : Nat :=
  let ofPieces : Nat :=
    if !a.idx.isEmpty then 1
    else
      let r := a.rd.foldl (fun m p => Nat.min m (s.addrLevel p.addr false)) 7
      let w := a.wr.foldl (fun m p => Nat.min m (s.addrLevel p.addr true)) r
      if w = 7 then a.level else w
  match a.instr with
  | .cpy _ _ | .cfill _ _ | .cprm _ _ | .gth _ _ | .sct _ _ => ofPieces
  | .hbind _ _ => if a.rd.isEmpty then a.level else 1
  | .nput _ _ => if a.oor < a.vals.getD 2 0 then 1 else a.level
  | .stg _ _ => a.pas.foldl (fun m pa => Nat.min m (s.homeLevel (.va 0) pa)) (if a.pas.isEmpty then a.level else 6)
  | _ => a.level

/-- Whether a home of one of the accesses that a fence covers, and that has not performed, lies within its scope (R256). -/
def State.anyLeft (s : State) (ids : List Nat) (lim : Nat) : Bool :=
  s.t.asyncs.any fun a => ids.contains a.id && !a.performed && decide (s.levelLeft a ≤ lim)

/-- The level to which a fence's scope code reaches (R255): code 5 is `.pod`, 6 is `.tenant`; `.lane` acts as `.core`. -/
def scopeLimit (scope : Nat) : Nat := if scope = 5 then 6 else if scope = 6 then 5 else if scope = 0 then 1 else scope

/-- The accesses of a strand that a fence issued now covers and has to wait for (R124, R256). -/
def State.covered (s : State) (mask lim : Nat) : List Nat :=
  (s.t.asyncs.filter fun a =>
    a.fence.isNone && !a.performed && (bit mask a.cls || a.cls == 0) && decide (s.levelLeft a ≤ lim)).map Async.id

/-- The phase of an entry all of whose writes have arrived, where one still waits to be applied (R60). -/
def applying : Nat := 9

/-! Order (R251 to R253, R258). -/

/-- The path by which order knows an address: path 0x6 to the own package's global memory is as path 0x0 (R239, R258). -/
def orderPath (pkg e : Nat) : Nat := if pathOf e = 6 ∧ bits e 56 51 = pkg ∧ bit e 50 then 0 else pathOf e

/-- One access as order sees it (R251, R258): its path, its bytes within the path and whether it writes. -/
structure Touch where
  path : Nat
  addr : Nat
  len : Nat
  write : Bool
  deriving DecidableEq, Repr

/-- An access that no pair of paths frees. -/
def Touch.other : Touch := ⟨3, 0, 0, false⟩

def touchOf (pkg : Nat) (write : Bool) (e n : Nat) : Touch := ⟨orderPath pkg e, bits e 47 0, n, write⟩

/-- A write through path 0x0 and a read on path 0x1 or 0x2 of bytes that it covers: classes do not order them (R236, R258). -/
def Touch.frees (x y : Touch) : Bool :=
  x.write && x.path == 0 && !y.write && (y.path == 1 || y.path == 2) && decide (x.addr < y.addr + y.len) &&
    decide (y.addr < x.addr + x.len)

/-- A read of the index words of an indexed command, its reads and its writes still to come. -/
def Async.pieceTouches (a : Async) (pkg : Nat) : List Touch :=
  a.idx.map (fun _ => Touch.other) ++ a.rd.map (fun p => touchOf pkg false p.addr p.len) ++
    a.wr.map fun p => touchOf pkg true p.addr p.len

/-- The accesses that an entry has still to make, those that share a word as one; never none. -/
def Async.touches (a : Async) (pkg : Nat) : List Touch :=
  let own : List Touch := [Touch.other]
  let v (i : Nat) : Nat := a.vals.getD i 0
  let l : List Touch :=
    match a.instr with
    | .ldg _ _ => [touchOf pkg false (v 0) (v 1)]
    | .stg _ _ => (if a.phase = 1 then [] else [touchOf pkg true (v 0) (v 1)]) ++ a.idx.map fun e => touchOf pkg true e (v 1)
    | .wstr _ _ => a.rd.map (fun p => touchOf pkg false p.addr p.len) ++ own
    | .cpy _ _ | .cfill _ _ | .cprm _ _ | .gth _ _ | .sct _ _ | .rowwr _ _ => a.pieceTouches pkg
    | .cpt _ _ | .cpf _ _ _ | .mmih _ _ | .mmah _ _ | .gmmih _ _ | .gmmah _ _ | .hbind _ _ => a.pieceTouches pkg ++ own
    | _ => if a.eng = .s then [⟨orderPath pkg (v 0), 0, 0, false⟩] else own
  if l.isEmpty then own else l

/-- A scan, and the forms that read its status while it runs (R222). -/
def Async.isScan (a : Async) : Bool := match a.instr with | .scngo _ _ => true | _ => false
def Async.asksScan (a : Async) : Bool := match a.instr with | .scnrd _ _ => true | .scnst _ _ => true | _ => false

/-- Whether an earlier entry `b` holds back an access `y` of `a`: a fence of its class; an access of `b` still to come that classes
order before it and no pair of paths frees; one on path 0x7 before another there (R124, R251, R258). A status read does not wait
for a scan (R222). -/
def Async.holdsBack (b a : Async) (pkg : Nat) (y : Touch) : Bool :=
  !b.performed && !(b.isScan && a.asksScan) &&
    match b.fence with
    | some mask => bit mask a.cls || a.cls == 0
    | none =>
      (classesOrder b.cls a.cls && (b.touches pkg).any fun x => !x.frees y && !y.frees x) ||
        (y.path == 7 && (b.touches pkg).any fun x => x.path == 7)

/-- The entries before one in program order. -/
def Strand.before (t : Strand) (id : Nat) : List Async := t.asyncs.takeWhile fun b => b.id != id

/-- Whether an access of an entry may be made now. -/
def State.mayTouch (s : State) (a : Async) (y : Touch) : Bool :=
  !(s.t.before a.id).any fun b => b.holdsBack a s.dev.pkg y

/-- The accesses one of which an entry makes next; a weight stream reads on until it writes its tile, in phase 1 (R213). -/
def Async.nexts (a : Async) (pkg : Nat) : List Touch :=
  match a.instr with
  | .stg _ _ => (a.touches pkg).take 1
  | .wstr _ _ =>
    if a.phase = 1 then [Touch.other]
    else if a.rd.isEmpty then [touchOf pkg false (a.vals.getD 0 0 + a.oor) 2]
    else a.rd.map fun p => touchOf pkg false p.addr p.len
  | _ => a.touches pkg

/-- The incomplete commands of a channel. -/
def inChannel (l : List Async) (ch : Nat) : Nat := (l.filter fun a => a.open_ && a.chan == some ch).length

/-- Whether an entry has to wait: for a place in its channel (R200), for earlier entries, or for a timed access made at strand
cycle `after` (R253). -/
def State.mustWait (s : State) (a : Async) : Bool :=
  let t := s.t
  a.buffered || a.held.isSome || a.paused ||
    (match a.chan with | some ch => decide (32 ≤ inChannel (t.before a.id) ch) | none => false) ||
    (t.mode != .ended && a.after != 0 && (decide (t.ctx.sclk < a.after) || (t.ctx.sclk == a.after && decide (t.micro ≤ if a.early then 0 else 4)))) ||
    (a.nexts s.dev.pkg).all fun y => !s.mayTouch a y

end Sys2Proof.Machine
end

