-- ==== Sys2Proof/Machine/Symmetry.lean ====
section
/-! DEFINITION. Symmetric launches: the symmetry block and its group (R275 to R277), orbits and the point ring (R278,
R279), and the images of a mirrored store (R280 to R282). -/

set_option linter.unusedVariables false

namespace Sys2Proof.Machine

/-- A generator (R276). -/
structure Gen where
  kind : Nat
  neg : Bool
  da : Nat
  db : Nat
  rsv : Nat
  step : Nat
  deriving DecidableEq, Repr

def genOf (w : Nat) : Gen :=
  { kind := bits w 31 30, neg := bit w 29, da := bits w 28 27, db := bits w 26 25, rsv := bits w 24 16, step := bits w 15 0 }

/-- A symmetry block (R275). -/
structure Sym where
  base : Nat
  os2 : Nat
  os1 : Nat
  n : List Nat
  gens : List Gen
  ngen : Nat
  ndim : Nat
  esz : Nat
  vt : Nat
  rsv : Nat
  ring : Nat
  rbase : Nat
  deriving DecidableEq, Repr

/-- The block in 64 bytes. -/
def symOf (x : Nat) : Sym :=
  let ndim := bits x 204 203
  let ngen := bits x 207 205
  { base := bits x 511 448, os2 := bits x 447 416, os1 := bits x 415 384
    n := [bits x 351 336, if 1 ≤ ndim then bits x 367 352 else 1, if 2 ≤ ndim then bits x 383 368 else 1]
    gens := ([bits x 239 208, bits x 271 240, bits x 303 272, bits x 335 304].take ngen).map genOf
    ngen := ngen, ndim := ndim, esz := bits x 202 200, vt := bits x 199 198
    rsv := bits x 197 192 + bits x 167 0, ring := bits x 191 188, rbase := bits x 187 168 }

/-- Bytes of an element. -/
def Sym.w (b : Sym) : Nat := 2 ^ b.esz

/-- The extent of a dimension. -/
def Sym.ext (b : Sym) (d : Nat) : Nat := b.n.getD d 1

/-- A generator applied to a point. -/
def Sym.apply (b : Sym) (g : Gen) (x : List Nat) : List Nat :=
  match g.kind with
  | 0 => (x.set g.da (x.getD g.db 0)).set g.db (x.getD g.da 0)
  | 1 => x.set g.da (b.ext g.da - 1 - x.getD g.da 0)
  | _ => x.set g.da ((x.getD g.da 0 + g.step) % Nat.max 1 (b.ext g.da))

/-- An element of the group: generators applied one after another, and its sign. -/
structure SymElem where
  gens : List Gen
  neg : Bool
  deriving DecidableEq, Repr

def Sym.map (b : Sym) (e : SymElem) (x : List Nat) : List Nat := e.gens.foldl (fun y g => b.apply g y) x

/-- The points by whose images two maps are told apart: the origin and one step in each dimension. Every map permutes
the coordinates, each reflected or shifted, and two such maps that agree there are the same map. -/
def Sym.probes (b : Sym) : List (List Nat) :=
  [0, 0, 0] :: (List.range 3).map fun d => [0, 0, 0].set d (if 2 ≤ b.ext d then 1 else 0)

def Sym.same (b : Sym) (e f : SymElem) : Bool := b.probes.map (b.map e) == b.probes.map (b.map f)

/-- The closure of R277 from element `i` on: none when one map arises with both signs or the order exceeds 64. -/
def Sym.close (b : Sym) : Nat → Nat → List SymElem → Option (List SymElem)
  | 0, _, _ => none
  | fuel + 1, i, l =>
    if 64 < l.length then none
    else
      match l[i]? with
      | none => some l
      | some e =>
        let next := b.gens.foldl
          (fun m g =>
            match m with
            | none => none
            | some l =>
              let e' : SymElem := { gens := e.gens ++ [g], neg := e.neg != g.neg }
              match l.find? fun f => b.same f e' with
              | some f => if f.neg = e'.neg then some l else none
              | none => some (l ++ [e']))
          (some l)
        match next with
        | none => none
        | some l' => b.close fuel (i + 1) l'

/-- The group, of at most 64 elements. -/
def Sym.group (b : Sym) : Option (List SymElem) := b.close 66 0 [{ gens := [], neg := false }]

/-- A generator's own rules (R277). -/
def Sym.genOk (b : Sym) (g : Gen) : Bool :=
  g.rsv == 0 && decide (g.kind < 3) && decide (g.da ≤ b.ndim) &&
    (match g.kind with
     | 0 => decide (g.db ≤ b.ndim) && g.da != g.db && b.ext g.da == b.ext g.db && g.step == 0
     | 1 => g.db == 0 && g.step == 0
     | _ => g.db == 0 && decide (1 ≤ g.step) && decide (g.step < b.ext g.da)) &&
    !(g.neg && b.vt == 0)

/-- Whether the compositor takes the block (R275, R277); `banks` are the galley's bank groups. -/
def Sym.ok (b : Sym) (banks : Nat) : Bool :=
  b.rsv == 0 && decide (1 ≤ b.ngen) && decide (b.ngen ≤ 4) && decide (b.ndim ≤ 2) && decide (b.esz ≤ 3) && decide (b.vt ≤ 2) &&
    decide (b.ring ≤ 10) && b.n.all (fun k => decide (1 ≤ k)) && b.gens.all b.genOk &&
    decide (b.ext 0 * b.w ≤ b.os1) && decide (b.ext 1 * b.os1 ≤ b.os2) && b.os1 % b.w == 0 && b.os2 % b.w == 0 &&
    pathOf b.base == 0 && b.base % b.w == 0 && b.rbase % 32 == 0 &&
    decide (b.rbase + 32 + 8 * 2 ^ b.ring ≤ spadBytes) && inGroups banks b.rbase (32 + 8 * 2 ^ b.ring) 64 && b.group.isSome

/-- The group's elements, of a block that has passed. -/
def Sym.elems (b : Sym) : List SymElem := b.group.getD []

/-- The point of a linear index, and the index of a point (R278). -/
def Sym.point (b : Sym) (i : Nat) : List Nat := [i % b.ext 0, i / b.ext 0 % b.ext 1, i / b.ext 0 / b.ext 1]
def Sym.linear (b : Sym) (x : List Nat) : Nat := x.getD 0 0 + b.ext 0 * (x.getD 1 0 + b.ext 1 * x.getD 2 0)

/-- The number of points. -/
def Sym.points (b : Sym) : Nat := b.ext 0 * b.ext 1 * b.ext 2

/-- The orbit of a point, without repeats. -/
def Sym.orbit (b : Sym) (x : List Nat) : List (List Nat) := (b.elems.map fun e => b.map e x).eraseDups

/-- Whether a point is in the fundamental domain. -/
def Sym.inDomain (b : Sym) (x : List Nat) : Bool := (b.orbit x).all fun y => decide (b.linear x ≤ b.linear y)

/-- Whether an element of sign −1 maps the point to itself. -/
def Sym.negFix (b : Sym) (x : List Nat) : Bool := b.elems.any fun e => e.neg && b.map e x == x

/-- A point entry (R279). -/
def Sym.entry (b : Sym) (x : List Nat) : Nat :=
  packFields [(8, 0), (1, b2n (b.negFix x)), (7, (b.orbit x).length), (16, x.getD 2 0), (16, x.getD 1 0), (16, x.getD 0 0)]

/-! The counterproof unit. -/

/-- The point that an address names (R280). -/
def Sym.decode (b : Sym) (addr : Nat) : Option (List Nat) :=
  if pathOf addr ≠ 0 ∨ addr < b.base ∨ b.os1 = 0 ∨ b.os2 = 0 then none
  else
    let o := addr - b.base
    let y2 := o / b.os2
    let r := o % b.os2
    let y1 := r / b.os1
    let q := r % b.os1
    if q % b.w ≠ 0 then none
    else
      let y0 := q / b.w
      if y0 < b.ext 0 ∧ y1 < b.ext 1 ∧ y2 < b.ext 2 then some [y0, y1, y2] else none

/-- The address of a point's element. -/
def Sym.addr (b : Sym) (y : List Nat) : Nat := b.base + y.getD 2 0 * b.os2 + y.getD 1 0 * b.os1 + y.getD 0 0 * b.w

/-- The bytes of the output tensor's range. -/
def Sym.inRange (b : Sym) (addr n : Nat) : Bool :=
  decide (b.base < addr + n) && decide (addr < b.addr [b.ext 0 - 1, b.ext 1 - 1, b.ext 2 - 1] + b.w)

/-- A value negated by its kind (R280). -/
def Sym.negate (b : Sym) (v : Nat) : Nat :=
  let k := 8 * b.w
  if b.vt = 1 then v % 2 ^ k ^^^ 2 ^ (k - 1) else wrap k (-(v : Int))

/-- The images of a store of `v` to point `y`, in element order: address and value (R280). -/
def Sym.images (b : Sym) (y : List Nat) (v : Nat) : List (Nat × Nat) :=
  ((b.elems.drop 1).foldl
    (fun (m : List (List Nat × Nat)) e =>
      let z := b.map e y
      if z == y || m.any (fun p => p.1 == z) then m else m ++ [(z, if e.neg then b.negate v else v)]) []).map
    fun p => (b.addr p.1, p.2)

/-- What the unit makes of a store of `n` bytes: the images of a mirrored one; none for one that it counts in SKIP or
does not count. -/
def Sym.mirrors (b : Sym) (addr n v : Nat) : Option (List (Nat × Nat)) :=
  match b.decode addr with
  | some y => if n = b.w ∧ !b.negFix y then some (b.images y v) else none
  | none => none

/-- The symmetry block of a strand's launch. -/
def State.symOf (s : State) (t : Strand) : Option Sym :=
  match s.dev.launches.find? fun l => l.q == t.node.1 && l.slot == t.node.2 with
  | some l => l.symm.map fun k => Machine.symOf k.block
  | none => none

/-- The images of a store of the strand acted on, if it is mirrored: addresses and values in element order (R280). -/
def State.imagesOf (s : State) (e n v : Nat) : List (Nat × Nat) :=
  match s.symOf s.t with
  | some b => (b.mirrors e n v).getD []
  | none => []

/-- Whether a store or an atomic of the strand counts in SKIP (R282): bytes of the output tensor's range on path 0x0, or on path 0x6
of the own package, that are not mirrored. -/
def State.skips (s : State) (e n v : Nat) (store : Bool) : Bool :=
  match s.symOf s.t with
  | some b => orderPath s.dev.pkg e == 0 && b.inRange (bits e 47 0) n && !(store && (b.mirrors e n v).isSome)
  | none => false

end Sys2Proof.Machine
end

