-- ==== Sys2Proof/Machine/ScalarMem.lean ====
section
/-! DEFINITION. Class S memory: scratchpad and stack accesses (R120, R121), global accesses and atomics (R122, R123),
fences (R124), waits (R125) and semaphores (R126). -/

set_option linter.unusedVariables false

namespace Sys2Proof.Machine

/-- Bytes of an access of type `ty`. -/
def accBytes (ty : Ty) : Nat := ty.width / 8

/-- The unbounded scratchpad address Val(A) + sext(IMM) (R120). -/
def spadAddr (x : Word) (imm : BitVec 32) : Int := x.toNat + imm.toInt

/-- A timed load of `n` bytes into `ll` at k + 4 (R120). -/
def loadTimed (cls n : Nat) (e : Int) : Operation := fun s =>
  match s.t.timedCheck e n 0 with
  | .error x => .error x
  | .ok a =>
    match s.t.timedGate s.core cls a n false with
    | .error x => .error x
    | .ok _ =>
      match s.poisonCheck a n with
      | .error x => .error x
      | .ok _ => landS 4 (.ll (BitVec.ofNat 64 (s.spadNum a n))) 0 s

/-- A timed store of the low `n` bytes of a value, at issue (R120). -/
def storeTimed (cls n : Nat) (e : Int) (v : Word) : Operation := fun s =>
  match s.t.timedCheck e n 0 with
  | .error x => .error x
  | .ok a =>
    match s.t.timedGate s.core cls a n true with
    | .error x => .error x
    | .ok _ => .ok { s := s.spadStore a (leBytes n v.toNat) }

/-- The edges of an access that names window bytes (R31). -/
def State.placeEdges (s : State) (p : Place) (n : Nat) (write : Bool) : Except Stop Unit :=
  match p with
  | .win key => s.t.edges [{ lo := key, hi := key + n, write := write }]
  | _ => .ok ()

/-- The translation at issue of an access that names a virtual address by a path (R352); the others need none. -/
def State.placePa (s : State) (p : Place) (write : Bool) (path : Nat) : Except Stop (List Nat) :=
  match p with
  | .va a =>
    match s.translate a write path with
    | .error x => .error x
    | .ok pa => .ok [pa]
  | _ => .ok []

/-- The checks and the translation of a scalar global access (R122): what it names and its physical address. -/
def State.globalAccess (s : State) (e n : Nat) (k : AccKind) (paths : List Nat) : Except Stop (Place × List Nat) :=
  match s.scalarCheck e n 0 k paths with
  | .error x => .error x
  | .ok _ =>
    let p := placeOf s.dev.pkg s.core e
    match s.placeEdges p n (k != .read) with
    | .error x => .error x
    | .ok _ =>
      match s.placePa p (k != .read) (pathOf e) with
      | .error x => .error x
      | .ok pas => .ok (p, pas)

/-- The address of a global access (R122). -/
def globalAddr (x : Word) (imm : BitVec 32) : Nat := (x + imm.signExtend 64).toNat

/-- Accesses on path 0x7 are region edges (R334). -/
def State.edgeIf (s : State) (c : Bool) : State := if c then s.markEdge else s

/-- `ldg`: the access joins the strand's program order and its value is due at k + 64 (R122). -/
def loadGlobal (i : Instr) (b : SBody) (x : Word) : Operation := fun s =>
  let e := globalAddr x b.imm
  let n := accBytes b.ty
  match s.globalAccess e n .read [0, 1, 3, 4, 5, 6, 7] with
  | .error r => .error r
  | .ok (p, pas) =>
    let l := s.landLater 64 .data
    .ok { s := (l.2.addAsync { id := 0, seq := 0, eng := .s, cls := b.px.val, instr := i, vals := [e, n], pas := pas
                               land := some l.1, level := s.homeLevel p (pas.headD 0) }).edgeIf (pathOf e == 7) }

/-- The physical addresses of the images of a mirrored store, all translated before anything performs (R281). -/
def State.imagePas (s : State) : List Nat → Except Stop (List Nat)
  | [] => .ok []
  | e :: es =>
    match s.translate (bits e 47 0) true 0 with
    | .error r => .error r
    | .ok pa => match s.imagePas es with | .error r => .error r | .ok pas => .ok (pa :: pas)

/-- `stg`: buffered in the region but on path 0x7; it completes when its bytes have performed (R122, R335). Of a mirrored store the
images go with it: `idx` and `buf` are their addresses and values (R280, R281). -/
def storeGlobal (i : Instr) (h : Hdr) (b : SBody) (x y : Word) : Operation := fun s =>
  let e := globalAddr x b.imm
  let n := accBytes b.ty
  match s.globalAccess e n .write [0, 3, 4, 5, 6, 7] with
  | .error r => .error r
  | .ok (p, pas) =>
    let imgs := s.imagesOf e n y.toNat
    match s.imagePas (imgs.map Prod.fst) with
    | .error r => .error r
    | .ok ims =>
      .ok { own := true
            s := (s.addAsync { id := 0, seq := 0, eng := .s, cls := b.px.val, instr := i, vals := [e, n, y.toNat], pas := pas ++ ims
                               idx := imgs.map Prod.fst, buf := imgs.map Prod.snd
                               spost := h.spost.val, buffered := pathOf e != 7
                               level := s.homeLevel p (pas.headD 0) }).edgeIf (pathOf e == 7) }

/-- An atomic: never buffered, a region edge, its old value due in `ll` at k + 64 (R123). -/
def atomicOp (i : Instr) (b : SBody) (x y z : Word) : Operation := fun s =>
  let e := x.toNat
  let n := accBytes b.ty
  match s.globalAccess e n .both [0, 3, 4, 6] with
  | .error r => .error r
  | .ok (p, pas) =>
    let l := s.landLater 64 .data
    .ok { s := (l.2.addAsync { id := 0, seq := 0, eng := .s, cls := b.px.val, instr := i
                               vals := [e, n, y.toNat, z.toNat], pas := pas, land := some l.1
                               level := s.homeLevel p (pas.headD 0) }).markEdge }

/-! Scopes (R255 to R257). -/

/-- Whether a scope is wider than the tenant at the strand's core (R257). -/
def State.widerThanTenant (s : State) (scope : Nat) : Bool :=
  let v := s.t.vf
  let q := (s.vf v).quads
  match scope with
  | 3 => !(List.range 16).all fun i => bit q (s.core / 64 * 16 + i)
  | 4 => !(List.range 64).all fun i => bit q i
  | 5 =>
    !((List.range 64).all fun i => bit q i) ||
      !(List.range s.dev.npkg).all fun p =>
        p == s.dev.pkg || (List.range 64).all fun i => bit ((mget (p * 64 + v) s.dev.peerQuads).getD 0) i
  | _ => false

/-- The hypervisor's policy on scopes (R257). -/
def State.scopeCheck (s : State) (scope : Nat) : Except Stop Unit :=
  let ok := bit (s.vf s.t.vf).hvscp (scope - 3)
  if 3 ≤ scope ∧ scope ≤ 5 ∧ !ok ∧ s.widerThanTenant scope then trapStop (trapSP scope) else .ok ()

/-- `fence` (R124): nothing to cover completes at issue; else a variable-latency landing, and later accesses of the
masked classes wait. -/
def fenceOp (i : Instr) (b : SBody) : Operation := fun s =>
  let mask := bits b.imm.toNat 15 0
  let scope := bits b.imm.toNat 18 16
  match s.scopeCheck scope with
  | .error x => .error x
  | .ok _ =>
    let t := s.t
    let lim := scopeLimit scope
    let ids := s.covered mask lim
    if ids.isEmpty && !t.timedLeft then .ok { s := s }
    else
      let due := Nat.max 1 (t.lastTimed - t.ctx.sclk)
      let l := s.landLater due (.fence ids lim)
      let s1 := l.2.tick.upd fun t =>
        { t with asyncs := t.asyncs ++ (if ids.isEmpty then [] else
            [{ id := l.2.fresh, seq := t.seq, eng := .s, cls := 0, instr := i, vals := ids, level := lim, fence := some mask
               region := t.region }]) }
      .ok { s := if ids.isEmpty then s1.upd fun t =>
                { t with pend := t.pend.map fun m => if m.id = l.1 then { m with arrived := true } else m
                         hpend := t.hpend.map fun m => if m.id = l.1 then { m with arrived := true } else m }
              else s1 }

/-- `waita` (R125): the word is read at issue, in its bank's chip cycle (R242), and again at each write to it since. -/
def waitOp (b : SBody) (x y : Word) : Operation := fun s =>
  let n := accBytes b.ty
  match s.t.timedCheck x.toNat n 0 with
  | .error r => .error r
  | .ok a =>
    match s.t.timedGate s.core b.px.val a n false with
    | .error r => .error r
    | .ok _ =>
      match s.poisonCheck a n with
      | .error r => .error r
      | .ok _ =>
        let thr := y.toNat % 2 ^ b.ty.width
        .ok { s := s.upd fun t =>
          t.addLanding ((Landing.meet { id := 0, seq := t.seq, due := t.clock + 4, wait := .scratch a n b.ty thr, arrived := false }
            (s.spadNum a n)).wake s s.core a (a + n)) }

/-! The instructions. -/

/-- `lds` (R120). -/
def execLds (h : Hdr) (b : SBody) : State → Host.Outcome State Fault Refusal :=
  issueS .lds h b fun x _ _ => loadTimed b.px.val (accBytes b.ty) (spadAddr x b.imm)

/-- `sts` (R120). -/
def execSts (h : Hdr) (b : SBody) : State → Host.Outcome State Fault Refusal :=
  issueS .sts h b fun x y _ => storeTimed b.px.val (accBytes b.ty) (spadAddr x b.imm) y

/-- `spl` (R121). -/
def execSpl (h : Hdr) (b : SBody) : State → Host.Outcome State Fault Refusal :=
  issueS .spl h b fun _ _ _ s => loadTimed 0 8 (spadAddr s.t.ctx.ssp b.imm) s

/-- `sps` (R121). -/
def execSps (h : Hdr) (b : SBody) : State → Host.Outcome State Fault Refusal :=
  issueS .sps h b fun x _ _ s => storeTimed 0 8 (spadAddr s.t.ctx.ssp b.imm) x s

/-- `ldg` (R122). -/
def execLdg (h : Hdr) (b : SBody) : State → Host.Outcome State Fault Refusal :=
  issueS .ldg h b fun x _ _ => loadGlobal (.ldg h b) b x

/-- `stg` (R122, R335). -/
def execStg (h : Hdr) (b : SBody) : State → Host.Outcome State Fault Refusal :=
  issueS .stg h b fun x y _ => storeGlobal (.stg h b) h b x y

/-- `aadd` (R123): the access itself is `accessPerform`'s. -/
def execAadd (h : Hdr) (b : SBody) : State → Host.Outcome State Fault Refusal :=
  issueS .aadd h b (atomicOp (.aadd h b) b)

/-- `axchg` (R123). -/
def execAxchg (h : Hdr) (b : SBody) : State → Host.Outcome State Fault Refusal :=
  issueS .axchg h b (atomicOp (.axchg h b) b)

/-- `acas` (R123). -/
def execAcas (h : Hdr) (b : SBody) : State → Host.Outcome State Fault Refusal :=
  issueS .acas h b (atomicOp (.acas h b) b)

/-- `amax` (R123). -/
def execAmax (h : Hdr) (b : SBody) : State → Host.Outcome State Fault Refusal :=
  issueS .amax h b (atomicOp (.amax h b) b)

/-- `fence` (R124). -/
def execFence (h : Hdr) (b : SBody) : State → Host.Outcome State Fault Refusal :=
  issueS .fence h b fun _ _ _ => fenceOp (.fence h b) b

/-- `waita` (R125). -/
def execWaita (h : Hdr) (b : SBody) : State → Host.Outcome State Fault Refusal :=
  issueS .waita h b fun x y _ => waitOp b x y

/-- `semadd` (R126). -/
def execSemadd (h : Hdr) (b : SBody) : State → Host.Outcome State Fault Refusal :=
  issueS .semadd h b fun _ _ _ s => .ok { s := s.raiseBy (bits b.imm.toNat 12 8) (bits b.imm.toNat 7 0) }

/-- `semrd` (R126). -/
def execSemrd (h : Hdr) (b : SBody) : State → Host.Outcome State Fault Refusal :=
  issueS .semrd h b fun _ _ _ s =>
    landS 1 (aluEff b.as (BitVec.ofNat 64 (s.sem s.core (bits b.imm.toNat 12 8)))) 0 s

end Sys2Proof.Machine
end

