-- ==== Sys2Proof/Machine/Region.lean ====
section
/-! DEFINITION. Regions (R48 to R50): descriptors and their checks, elements read and written, and the group time of a
region access (R140). -/

set_option linter.unusedVariables false

namespace Sys2Proof.Machine

/-- A region descriptor whose TYPE is a type. -/
structure Rgn where
  ty : Ty
  count : Nat
  stride : Int
  base : Nat
  deriving DecidableEq, Repr

/-- The lowest nonzero reserved bit of a descriptor (R50). -/
def rgnReserved (d : Nat) : Option Nat := lowestBit (d &&& (maskOf 63 61 ||| maskOf 23 20)) 0 64

/-- The region of a descriptor; of a reserved TYPE, none. -/
def rgnOf (d : Nat) : Option Rgn :=
  (Ty.ofCode (bits d 60 56)).map fun t =>
    { ty := t, count := bits d 55 40, stride := sext 16 (bits d 39 24), base := bits d 19 0 }

/-- Nibbles that an element occupies (R50). -/
def Rgn.size (r : Rgn) : Nat := if r.ty.width = 4 then 1 else if r.ty.width = 6 then 2 else r.ty.width / 4

/-- The nibble address of element `i` (R50). -/
def Rgn.at_ (r : Rgn) (i : Nat) : Int :=
  if r.ty.width = 4 then 2 * (r.base : Int) + i * r.stride else 2 * (r.base + i * r.stride * (r.size / 2 : Nat))

/-- The step from element to element, in nibbles. -/
def Rgn.step (r : Rgn) : Int := if r.ty.width = 4 then r.stride else r.stride * r.size

/-- The byte range of element `i`. -/
def Rgn.span (r : Rgn) (i : Nat) : Int × Int := (r.at_ i / 2, (r.at_ i + r.size + 1) / 2)

/-- Element `i` lies inside scratchpad and inside the strand's bank groups (R50, R242). -/
def Strand.elemInside (t : Strand) (r : Rgn) (i : Nat) : Bool :=
  let p := r.span i
  decide (0 ≤ p.1) && decide (p.2 ≤ spadBytes) && t.ownsBytes p.1.toNat (p.2 - p.1).toNat

/-- So do elements 0 to n − 1: else `AF 3`. -/
def Strand.rgnInside (t : Strand) (r : Rgn) (n : Nat) : Bool := (List.range n).all (t.elemInside r)

/-- The hull of elements 0 to n − 1 in bytes, for elements inside scratchpad. -/
def Rgn.hull (r : Rgn) (n : Nat) : Nat × Nat :=
  let a := r.span 0
  let b := r.span (n - 1)
  ((if a.1 ≤ b.1 then a.1 else b.1).toNat, (if a.2 ≤ b.2 then b.2 else a.2).toNat)

/-- The encoding of element `i` as scratchpad holds it. -/
def Rgn.get (r : Rgn) (s : State) (i : Nat) : Nat :=
  let a := (r.at_ i).toNat
  if r.ty.width = 4 then s.spadNum (a / 2) 1 / 16 ^ (a % 2) % 16
  else s.spadNum (a / 2) (r.size / 2) % 2 ^ r.ty.width

/-- The encoding of element `i`, of whole bytes, as an access that is no timed one finds it (R243). -/
def Rgn.present (r : Rgn) (s : State) (i : Nat) : Nat :=
  s.num .chip (chipAddr s.core ((r.at_ i).toNat / 2)) (r.size / 2) % 2 ^ r.ty.width

/-- The landing effect that writes element `i`. -/
def Rgn.put (r : Rgn) (i v : Nat) : Eff :=
  let a := (r.at_ i).toNat
  if r.ty.width = 4 then .nibble a (v % 16) else .store (a / 2) (leBytes (r.size / 2) (v % 2 ^ r.ty.width))

/-- Timed accesses to elements 0 to n − 1 in groups of `per`, the first group at strand cycle `due` (R139). -/
def Rgn.timed (r : Rgn) (n per c due : Nat) (write : Bool) : List TimedAcc :=
  if n = 0 then [] else
    [{ base := r.at_ 0, step := r.step, size := r.size, count := n, per := per, c := c, due := due, write := write }]

/-- What a word does with a region: `n` accesses, the first to element `first` and each to the next or, with `back`, to the one before;
`per` of them fall in a group, and access j in group (lead + j)/per. -/
structure Use where
  rgn : Rgn
  n : Nat
  per : Nat
  read : Bool
  first : Nat := 0
  back : Bool := false
  lead : Nat := 0
  deriving DecidableEq, Repr

/-- The element of access `j`. -/
def Use.elem (u : Use) (j : Nat) : Nat := if u.back then u.first - j else u.first + j

/-- The byte range of access `j`. -/
def Use.span (u : Use) (j : Nat) : Int × Int := u.rgn.span (u.elem j)

/-- The hull of the elements touched, in bytes, for elements inside scratchpad. R141 speaks of the hull of a region operand: here it
is that of the elements that the word touches (DESIGN CHOICE, log entry 160). -/
def Use.hull (u : Use) : Nat × Nat :=
  let a := u.span 0
  let b := u.span (u.n - 1)
  ((if a.1 ≤ b.1 then a.1 else b.1).toNat, (if a.2 ≤ b.2 then b.2 else a.2).toNat)

/-- Accesses `j` to `j + n` − 1 from strand cycle `due` on, `per` in each. -/
def Use.part (u : Use) (j n per c due : Nat) : List TimedAcc :=
  if n = 0 then []
  else
    [{ base := u.rgn.at_ (u.elem j), step := if u.back then -u.rgn.step else u.rgn.step, size := u.rgn.size, count := n, per := per
       c := c, due := due, write := !u.read }]

/-- Its timed accesses, group 0 at strand cycle `due` (R139). -/
def Use.timed (u : Use) (c due : Nat) : List TimedAcc :=
  let k := if u.lead % u.per = 0 then 0 else Nat.min u.n (u.per - u.lead % u.per)
  u.part 0 k k c (due + u.lead / u.per * c) ++ u.part k (u.n - k) u.per c (due + (u.lead + k) / u.per * c)

/-- Its reads for the pending-bit check: each at its group's strand cycle, with the first one whose writes that read does not see
(R246). -/
def Use.reads (u : Use) (c s : Nat) : List (Nat × Nat × Nat) :=
  (List.range u.n).map fun j => (s + (u.lead + j) / u.per * c + 1, (u.span j).1.toNat, (u.span j).2.toNat)

/-- The group time that a region access allows (R140). -/
def Rgn.groupTime (r : Rgn) : Nat :=
  let c :=
    if r.stride = 0 then 1
    else if r.stride = 1 ∧ r.base % 32 = 0 then 1
    else if r.stride = 1 ∨ r.stride = -1 then 2
    else 8
  if r.ty.width = 64 then 2 * c else c

/-- The region that an operand names, as its register holds it now. -/
def Strand.desc (t : Strand) : Opd → Nat
  | .g n => t.ctx.g[n].toNat
  | _ => 0

def Opd.isRegion : Opd → Bool
  | .g _ => true
  | _ => false

/-- The descriptors that a word names, checked in slot order: `IL 5` for reserved bits of any, then `IL 6` for a
reserved TYPE or a type that `ok` refuses (R50, R135). The slot numbers count from A. -/
def Strand.regionCheck (t : Strand) (os : List (Nat × Opd)) (ok : Nat → Ty → Bool) : Except Stop Unit :=
  let rs := os.filter fun x => Opd.isRegion x.2
  match rs.findSome? fun x => (rgnReserved (t.desc x.2)).map fun b => 128 + 64 * x.1 + b with
  | some d => trapStop (trapIL 5 d)
  | none =>
    match rs.find? fun x => match rgnOf (t.desc x.2) with | some r => !ok x.1 r.ty | none => true with
    | some x => trapStop (trapIL 6 x.1)
    | none => .ok ()

/-- The region of a descriptor that has passed the check. -/
def rgn (d : Nat) : Rgn := (rgnOf d).getD { ty := .i8, count := 0, stride := 0, base := 0 }

/-- The checks that follow those of the descriptors and the operand reads, for a word with timed region reads and
writes: `AF 3`, then the word's own checks of classes `TS` to `FF`, `DB 1`, edges, poison (R50, R242, R246, R141,
R359). -/
def State.regionGate (s : State) (c start : Nat) (us : List Use) (own : Except Stop Unit) : Except Stop Unit :=
  let t := s.t
  let us := us.filter fun u => u.n ≠ 0
  if !us.all fun u => (List.range u.n).all fun j => t.elemInside u.rgn (u.elem j) then trapStop (trapAF 3 3)
  else
    match own.bind fun _ => t.dbCheck (us.flatMap fun u => if u.read then u.reads c start else []) with
    | .error e => .error e
    | .ok _ =>
      match t.edges (us.map fun u => winRange s.core u.hull.1 u.hull.2 (!u.read)) with
      | .error e => .error e
      | .ok _ =>
        match us.findSome? fun u =>
            if u.read then
              (List.range u.n).findSome? fun j =>
                s.poisoned .chip (chipAddr s.core (u.span j).1.toNat) ((u.span j).2 - (u.span j).1).toNat
            else none with
        | some u => trapStop { trapEC 16 with addr := 3 * 2 ^ 60 + (8 * u - chipAddr s.core 0) }
        | none => .ok ()

end Sys2Proof.Machine
end

