-- ==== Sys2Proof/Machine/Streams.lean ====
section
/-! DEFINITION. The streams of classes V and F: operands and subfields (R135, R136, R138, R151), the issue of a stream
(R139 to R142, R152) and its groups' reads and landings. -/

set_option linter.unusedVariables false

namespace Sys2Proof.Machine

/-! Elements. -/

/-- A source element as read: its type and its encoding. -/
structure El where
  ty : Ty
  code : Nat
  deriving DecidableEq, Repr

/-- Its exact value. A signalling `.e5m2` NaN in a subfield is still one as it reaches the operation, which sets NV for it, though R72
has its widening set no flag (DESIGN CHOICE, log entry 161). -/
def El.x (e : El) : XReal := decode e.ty e.code

/-- Its integer value, of an integer type: that of its own format, where the operation's type does not hold it (DESIGN CHOICE, log entry
162). -/
def El.int (e : El) : Int :=
  if e.ty.signed then sext e.ty.width e.code else ((e.code % 2 ^ e.ty.width : Nat) : Int)

/-- Its encoding widened to the operation's type (R72). -/
def El.as (e : El) (ty : Ty) : Nat :=
  if e.ty = ty then e.code % 2 ^ ty.width
  else if ty.isInt then wrap ty.width e.int
  else (round ty .rne 0 e.x).1

end Sys2Proof.Machine

namespace Sys2Proof

open Sys2Proof.Machine

/-! Fields of the V layout. -/

def VBody.opd (b : VBody) (slot : Nat) : Opd :=
  match slot with | 0 => b.a | 1 => b.b | 2 => b.c | _ => b.d

def VForm.set (f : VForm) (slot : Nat) : OpSet :=
  match slot with | 0 => f.a | 1 => f.b | 2 => f.c | _ => f.d

/-- The operand of a slot that the form uses; of another, `zero`. -/
def formOpd (f : VForm) (b : VBody) (slot : Nat) : Opd := if f.set slot = .unused then .zero else b.opd slot

/-- The slot that carries a subfield, counted from 1; 0 none (R138). -/
def VBody.subSlot (b : VBody) : Nat := bits b.sub.toNat 13 12
def VBody.subTy (b : VBody) : Ty := (Ty.ofCode (bits b.sub.toNat 11 7)).getD .i8
def VBody.subOff (b : VBody) : Nat := bits b.sub.toNat 4 0

/-- The type that the destination has by NE and NF (R137). -/
def VBody.dst (b : VBody) : Ty := if b.ne then b.nf else b.ty

/-- The type test of a region operand: with a subfield, a container of 8, 16 or 32 bits that holds it (R138). -/
def VBody.tyTest (b : VBody) (req container : Nat → Ty → Bool) (slot : Nat) (t : Ty) : Bool :=
  if b.subSlot = slot + 1 then
    (t.width == 8 || t.width == 16 || t.width == 32) && decide (b.subOff + b.subTy.width ≤ t.width)
      && container slot t
  else req slot t

end Sys2Proof

namespace Sys2Proof.Machine

/-- What a form asks of its stream: the types of its regions, its count operand, which sources it reads for all n
elements, how many elements of a slot it touches, its group times, its elements a group, its draws and its own late
checks, and where its results go. -/
structure StreamForm where
  req : Nat → Ty → Bool
  /-- Beside R138's widths, the TYPE that a slot with a subfield may have (R160). -/
  container : Nat → Ty → Bool := fun _ _ => true
  cnt : Nat := 3
  whole : Nat → Bool := fun _ => true
  touch : Nat → Nat → Nat → Nat := fun _ n _ => n
  /-- The order in which a source is read, of slot, n and COUNT: its first element, whether the reads go back from there, and how many
  elements of D come before the first of them. -/
  order : Nat → Nat → Nat → Nat × Bool × Nat := fun _ _ _ => (0, false, 0)
  /-- Whether any group may read any of its elements: the first group may, so the pending-bit check takes them all as read
  at the start (R141, R246). -/
  mixed : Nat → Bool := fun _ => false
  time : Nat → Rgn → Nat := fun _ r => r.groupTime
  per : Nat
  draws : Nat → Nat
  dstOk : Rgn → Bool := fun _ => true
  late : Nat → Except Stop Unit := fun _ => .ok ()
  /-- Strand cycles from the start, beside G·c or (j + 1)·c, to a write. -/
  lat : Nat
  /-- One result at the end (R146, R149, R150). -/
  final : Bool := false
  /-- What it delivers for n = 0: nothing if none. -/
  empty : Option Nat := none

/-- The count n of a word (R136). -/
def Strand.elemCount (t : Strand) (e : Eng) (b : VBody) (cnt : Opd) : Except Stop Nat :=
  if b.lce then
    let n := t.lcount e b.lcn.val
    if 65535 < n then trapStop (trapIL 6 8) else .ok n
  else .ok (rgn (t.desc cnt)).count

/-- The region operands of a word: slot and region. -/
def Strand.regionsOf (t : Strand) (f : VForm) (b : VBody) : List (Nat × Rgn) :=
  ((List.range 4).map fun i => (i, formOpd f b i)).filterMap fun x =>
    if Opd.isRegion x.2 then some (x.1, rgn (t.desc x.2)) else none

/-- The checks on regions and count, `IL 5` and `IL 6` (R135, R136, R150): n and the regions. -/
def Strand.streamCheck (t : Strand) (e : Eng) (f : VForm) (b : VBody) (k : StreamForm) :
    Except Stop (Nat × List (Nat × Rgn)) :=
  match t.regionCheck ((List.range 4).map fun i => (i, formOpd f b i)) (b.tyTest k.req k.container) with
  | .error x => .error x
  | .ok _ =>
    let rs := t.regionsOf f b
    if rs.any fun x => x.1 == 3 && !k.dstOk x.2 then trapStop (trapIL 6 3)
    else
      match t.elemCount e b (b.opd k.cnt) with
      | .error x => .error x
      | .ok n =>
        if b.lce then .ok (n, rs)
        else
          match rs.find? fun x => x.1 != 3 && x.1 != k.cnt && k.whole x.1 && decide (x.2.count < n) with
          | some x => trapStop (trapIL 6 x.1)
          | none => .ok (n, rs)

/-- The strand cycle at which the engine's last stream ends. -/
def Strand.streamEnd (t : Strand) (e : Eng) : Nat := if e = .v then t.vEnd else t.fEnd

def Strand.setStreamEnd (t : Strand) (e : Eng) (k : Nat) : Strand :=
  if e = .v then { t with vEnd := k } else { t with fEnd := k }

/-- The scalar operands of slots A to C and the reservation of a push (R43, R44). -/
def Strand.streamOperands (t : Strand) (e : Eng) (f : VForm) (h : Hdr) (b : VBody) : Except Stop (List Word × Strand) :=
  match t.readOpds e 0 [(formOpd f b 0, h.peekA), (formOpd f b 1, h.peekB), (formOpd f b 2, h.peekC)] with
  | .error x => .error x
  | .ok (vs, t1) =>
    match b.d with
    | .q n =>
      match t1.reserveQ n.val t.seq with
      | .error x => .error x
      | .ok t2 => .ok (vs, t2)
    | _ => .ok (vs, t1)

/-- Where a single result goes: its queue register, or element 0 of the region D. -/
def Strand.resultEff (t : Strand) (b : VBody) (v : Nat) : Eff :=
  match b.d with
  | .q n => .push (t.physQ n.val) t.seq (BitVec.ofNat 64 v)
  | d => (rgn (t.desc d)).put 0 v

/-- Elements of a region operand that a word of n elements touches. -/
def StreamForm.cells (k : StreamForm) (n : Nat) (x : Nat × Rgn) : Nat :=
  if n = 0 && !(k.final && x.1 == 3 && k.empty.isSome) then 0 else k.touch x.1 n x.2.count

/-- What a word does with a region operand. -/
def StreamForm.use (k : StreamForm) (n : Nat) (x : Nat × Rgn) : Use :=
  let o := k.order x.1 n x.2.count
  { rgn := x.2, n := k.cells n x, per := if k.mixed x.1 then k.cells n x else k.per, read := x.1 != 3, first := o.1, back := o.2.1
    lead := o.2.2 }

/-- The timed accesses of a word of n elements to a region operand, in `g` groups of `c` strand cycles from `start` on (R139): a source
whose order is not known at issue is read until the last of them. -/
def StreamForm.timed (k : StreamForm) (n g c start : Nat) (x : Nat × Rgn) : List TimedAcc :=
  if x.1 = 3 then
    x.2.timed (k.cells n x) (if k.final then k.cells n x else k.per) c (start + k.lat + (if k.final then g * c else c)) true
  else (k.use n x).timed c (if k.mixed x.1 then start + (g - 1) * c else start)

/-- A stream word of class V or F with a region or queue destination. -/
def streamOp (e : Eng) (i : Instr) (f : VForm) (h : Hdr) (b : VBody) (k : StreamForm) : Operation := fun s =>
  match s.t.streamCheck e f b k with
  | .error x => .error x
  | .ok (n, rs) =>
    match s.t.streamOperands e f h b with
    | .error x => .error x
    | .ok (vs, t1) =>
      let t := s.t
      let start := Nat.max t.ctx.sclk (t.streamEnd e)
      let c := rs.foldl (fun m x => Nat.max m (k.time x.1 x.2)) 1
      let g := ceilDiv n k.per
      match s.regionGate c start (rs.map (k.use n)) (k.late n) with
      | .error x => .error x
      | .ok _ =>
        let s1 := s.setStrand s.cur (t1.setStreamEnd e (start + g * c))
        if n = 0 then
          match k.empty with
          | none => .ok { s := s1 }
          | some v =>
            .ok { own := true
                  s := s1.upd fun t =>
                    { (t.addLanding { id := 0, seq := t.seq, due := start + k.lat, effs := [t.resultEff b v]
                                      spost := h.spost.val }) with
                      timed := t.timed ++ rs.flatMap fun x =>
                        if x.1 = 3 then x.2.timed (k.cells n x) (k.cells n x) 1 (start + k.lat) true else [] } }
        else
          let d := s1.draw b.rnd (k.draws n)
          .ok { own := true
                s := d.2.upd fun t =>
                  { t with timed := t.timed ++ rs.flatMap (k.timed n g c start)
                           streams := t.streams ++
                             [{ seq := t.seq, eng := e, instr := i, start := start, c := c, groups := g, n := n
                                regs := (List.range 4).map fun j => t.desc (formOpd f b j)
                                scal := vs.map BitVec.toNat, draws := d.1, spost := h.spost.val, tok := t.seq
                                phys := match b.d with | .q n => t.physQ n.val | _ => 0 }] } }

/-! Groups. -/

/-- Source element `i` of a slot, whose type by the form is `ty`: of a scalar, its low bits; with a subfield, that. -/
def Stream.el (st : Stream) (s : State) (f : VForm) (b : VBody) (ty : Ty) (slot i : Nat) : El :=
  if Opd.isRegion (formOpd f b slot) then
    let r := rgn (st.regs.getD slot 0)
    let raw := r.get s i
    if b.subSlot = slot + 1 then ⟨b.subTy, bits raw (b.subOff + b.subTy.width - 1) b.subOff⟩ else ⟨r.ty, raw⟩
  else ⟨ty, st.scal.getD slot 0 % 2 ^ ty.width⟩

/-- The stream with its word's number replaced, or taken away once its last group is read. -/
def Strand.putStream (t : Strand) (st : Stream) : Strand :=
  { t with streams := (t.streams.map fun o => if o.seq = st.seq then st else o).filter fun o => o.next < o.groups }

/-- A group's results land: of the last one, with the word's flags and its raise (R142). -/
def State.landGroup (s : State) (st : Stream) (lat per : Nat) (rs : List (Eff × Nat)) : State :=
  let fl := rs.foldl (fun m x => fOr m x.2) st.flags
  let last := decide (st.groups ≤ st.next + 1)
  let st' := { st with next := st.next + 1, flags := fl }
  s.upd fun t =>
    ({ t with pend := t.pend ++
        [{ id := 0, seq := st.seq, kind := .group, due := st.start + lat + (st.next + 1) * st.c, effs := rs.map Prod.fst
           flags := if last then fl else 0, spost := if last then st.spost else 0 }] } : Strand).putStream st'

/-- The elements of the group that is due. -/
def Stream.elems (st : Stream) (per : Nat) : List Nat :=
  (List.range (Nat.min per (st.n - st.next * per))).map fun i => st.next * per + i

/-- A group of a word whose result is element-wise: element i gets what `f` answers, or is not written. -/
def State.mapGroup (s : State) (st : Stream) (lat per : Nat) (f : Nat → Option (Nat × Nat)) : State :=
  let d := rgn (st.regs.getD 3 0)
  s.landGroup st lat per ((st.elems per).filterMap fun i =>
    match f i with
    | some r => some (d.put i r.1, r.2)
    | none => none)

/-- A group of a word with one result: the codes read join the carry; with the last group the result lands. -/
def State.foldGroup (s : State) (st : Stream) (lat per : Nat) (read : Nat → Nat)
    (finish : List Nat → Option (List Eff × Nat)) : State :=
  let carry := st.carry ++ (st.elems per).map read
  let st' := { st with next := st.next + 1, carry := carry }
  if st'.next < st.groups then s.upd fun t => t.putStream st'
  else
    match finish carry with
    | none => s.upd fun t => t.putStream st'
    | some r =>
      s.upd fun t =>
        ({ t with pend := t.pend ++
            [{ id := 0, seq := st.seq, kind := .group, due := st.start + lat + st.groups * st.c, effs := r.1
               flags := fOr st.flags r.2, spost := st.spost }] } : Strand).putStream st'

/-- The effect of a single result of a stream. -/
def Stream.result (st : Stream) (b : VBody) (v : Nat) : Eff :=
  match b.d with
  | .q _ => .push st.phys st.tok (BitVec.ofNat 64 v)
  | _ => (rgn (st.regs.getD 3 0)).put 0 v

end Sys2Proof.Machine
end

