-- ==== Sys2Proof/Machine/Commands.lean ====
section
/-! DEFINITION. What asynchronous commands share: path ranges and their checks (R199), pieces (R248), footprints and
tracker slots (R31, R33, R204), transfer identifiers (R200), flag operands (R203). -/

set_option linter.unusedVariables false

namespace Sys2Proof.Machine

/-! Addresses. -/

/-- The paths that C forms read and write (R199). -/
def readPaths : List Nat := [0, 1, 3, 4, 5, 6]
def writePaths : List Nat := [0, 3, 4, 5, 6]

/-- The checks of a range of `n` bytes from a path address (R199); a range of no bytes passes. -/
def State.rangeCheck (s : State) (e n : Nat) (k : AccKind) : Except Stop Unit :=
  if n = 0 then .ok () else s.pathCheck e n k (if k = .read then readPaths else writePaths)

/-- The hull of rows of `b` bytes at `e + r·pitch` (R207): unbounded lowest address and length. -/
def rowsHull (e rows b : Nat) (pitch : Int) : Int × Nat :=
  let d := pitch * ((rows : Int) - 1)
  (e + (if d < 0 then d else 0), b + d.natAbs)

/-- The range of a package-wide window that a path address range covers, if it counts toward a footprint (R204): path
0x3, or 0x4. -/
def footRange (core e n : Nat) (write : Bool) : List FpRange :=
  if n = 0 then []
  else match pathOf e with
    | 3 => [{ lo := chipAddr core (bits e 20 0), hi := chipAddr core (bits e 20 0) + n, write := write }]
    | 4 => [{ lo := bits e 28 0, hi := bits e 28 0 + n, write := write }]
    | _ => []

/-! Pieces. -/

/-- The pieces of `n` bytes from path address `e`, one for each aligned 8-byte unit, placed in the buffer from `off`
(R248); `fuel` bounds the units. -/
def piecesOf (el off e n : Nat) : Nat → List Piece
  | 0 => []
  | fuel + 1 =>
    if n = 0 then []
    else
      let k := Nat.min n (8 - e % 8)
      { el := el, off := off, addr := e, len := k } :: piecesOf el (off + k) (e + k) (n - k) fuel

/-- All the pieces of a range. -/
def pieces (el off e n : Nat) : List Piece := piecesOf el off e n (n / 8 + 2)

/-- A buffer of bytes not yet read. -/
def unread (n : Nat) : List Nat := List.replicate n 256

/-- Bytes placed in a buffer. -/
def fillBuf (buf : List Nat) (off : Nat) (bs : List Byte) : List Nat :=
  buf.take off ++ bs.map BitVec.toNat ++ buf.drop (off + bs.length)

/-- The bytes of a buffer, read. -/
def bufBytes (buf : List Nat) (off n : Nat) : List Byte := ((buf.drop off).take n).map (BitVec.ofNat 8)

/-- A little-endian number in a buffer. -/
def bufNum (buf : List Nat) (off n : Nat) : Nat := leNat (bufBytes buf off n)

/-- An entry of the strand's list. -/
def Strand.entry (t : Strand) (id : Nat) : Option Async := t.asyncs.find? fun a => a.id == id

def Strand.setEntry (t : Strand) (id : Nat) (f : Async → Async) : Strand :=
  { t with asyncs := t.asyncs.map fun a => if a.id = id then f a else a }

/-! Commands. -/

/-- Whether a written range reaches beyond the own core's scratchpad, tiles and accumulators (R334). -/
def State.reachesOut (s : State) (e n : Nat) : Bool :=
  decide (n ≠ 0) &&
    match winKey s.dev.pkg s.core e with
    | some key => !(decide (key / 2 ^ 21 = s.core) && decide (key % 2 ^ 21 + n ≤ 0x120000))
    | none => true

/-- The identifier that a channel's next command takes (R200). -/
def State.takeXid (s : State) (ch : Nat) : Nat × State :=
  let c := s.chan s.core ch
  (c.next, s.updCore s.core fun k => { k with chans := mset ch { c with next := (c.next + 1) % 2 ^ 32 } k.chans })

/-- DONE moved over the completed identifiers that follow it; `fuel` bounds them. -/
def ChanState.advance (c : ChanState) : Nat → ChanState
  | 0 => c
  | fuel + 1 =>
    if c.ahead.contains c.done then
      ChanState.advance { c with done := (c.done + 1) % 2 ^ 32, ahead := c.ahead.filter fun k => k != c.done } fuel
    else c

/-- The command of an identifier has completed (R200, R201). -/
def ChanState.complete (c : ChanState) (xid : Nat) : ChanState :=
  { c with ahead := c.ahead ++ [xid] }.advance (c.ahead.length + 1)

/-- A command's edges, its tracker slot and the timed accesses that its footprint meets (R31 to R33, R141): its slot,
and the hints it costs. -/
def Strand.footGate (t : Strand) (core trk : Nat) (fp : List FpRange) : Except Stop (Nat × Nat) :=
  match t.edges fp with
  | .error x => .error x
  | .ok _ =>
    let clash := fp.any fun f =>
      decide (f.lo / 2 ^ 21 = core) && t.conflicts (f.lo % 2 ^ 21) (f.lo % 2 ^ 21 + (f.hi - f.lo)) f.write
    if clash && t.dbg then trapStop (trapSC 1 0)
    else if fp.isEmpty then .ok (0, b2n clash)
    else
      match t.takeSlot trk with
      | .error x => .error x
      | .ok (k, n) => .ok (k, n + b2n clash)

/-- A command issued: its edges and slot, its translations `pas`, its identifier and its place in program order, and its first access
set to perform; a 33rd command of a channel is a landing that has not arrived (R200). In debug mode a TRK of a command without a
footprint traps before a translation does (R34, R40). -/
def issueGated (h : Hdr) (a : Async) (k : State → State) (gate : List FpRange) (pas : Except Stop Unit) : Operation := fun s =>
  match s.t.footGate s.core h.trk.val gate with
  | .error x => .error x
  | .ok (slot, hints) =>
    if s.t.dbg && gate.isEmpty && h.trk.val != 0 then trapStop (trapSC 4 h.trk.val)
    else
      match pas with
      | .error x => .error x
      | .ok _ =>
        let s1 := s.upd fun t => { t with hmis := t.hmis + BitVec.ofNat 64 hints }
        let x : Nat × State := match a.chan with | some ch => s1.takeXid ch | none => (0, s1)
        let full := match a.chan with | some ch => decide (32 ≤ inChannel s.t.asyncs ch) | none => false
        let s2 := if full then (x.2.landLater 1 (.channel (a.chan.getD 0))).2 else x.2
        .ok { own := true, trk := slot != 0
              s := k (s2.addAsync { a with xid := x.1, trk := slot, spost := h.spost.val }) }

/-- A command whose edges are those of its footprint. -/
def issueCommand (h : Hdr) (a : Async) (k : State → State := id) : Operation := issueGated h a k a.fp (.ok ())

/-- The flag operand of a form (R203): its address and value, of a form with `.fw`. -/
def flagOf (fw : Bool) (v : Nat) : Option (Nat × Nat) := if fw then some (bits v 19 0, bits v 63 32) else none

/-- The checks of a flag operand (R203). -/
def flagCheck (fw : Bool) (v size : Nat) : Except Stop Unit :=
  if !fw then .ok ()
  else if spadBytes < bits v 19 0 + size then trapStop (trapAF 3 3)
  else check (bits v 19 0 % size == 0) (trapAF 4 3)

/-- The footprint of a flag word (R204). -/
def flagRange (core : Nat) (f : Option (Nat × Nat)) (size : Nat) : List FpRange :=
  match f with
  | some (a, _) => [winRange core a (a + size) true]
  | none => []

/-- A push reserved for a value that an event brings, due at k + `lat` (R27): the landing's number and the state. -/
def State.pushLater (s : State) (q : Fin 32) (lat : Nat) : Except Stop (Nat × State) :=
  match s.t.reserveQ q.val s.t.seq with
  | .error x => .error x
  | .ok t1 =>
    let l := (s.setStrand s.cur t1).landLater lat .data
    .ok (l.1, l.2.upd fun t =>
      { t with pend := t.pend.map fun m => if m.id = l.1 then { m with vals := [t.physQ q.val] } else m
               hpend := t.hpend.map fun m => if m.id = l.1 then { m with vals := [t.physQ q.val] } else m })

/-! Performing. -/

/-- Whether an asynchronous access of the strand still has to perform. -/
def Strand.unperformed (t : Strand) (id : Nat) : Bool := t.asyncs.any fun a => a.id == id && !a.performed

/-- Fences that have nothing left to wait for are done (R124, R256): `vals` are the accesses a fence covers, `level` its scope. -/
def State.settleFences (s : State) : State :=
  if s.t.asyncs.any fun a => a.fence.isSome then
    s.upd fun t => { t with asyncs := t.asyncs.filter fun a => !(a.fence.isSome && !s.anyLeft a.vals a.level) }
  else s

/-- Whether a write of an access of strand `x` still waits at a boundary of the strand it goes to (R60). -/
def State.writeWaits (s : State) (x id : Nat) : Bool :=
  s.strands.any fun e => e.2.deferred.any fun w => w.src == some (x, id)

/-- A command whose accesses have all performed: its footprint is its flag word alone, and its completion falls (R201).
A write to registers performs when its home applies it (R247): until then the command has not performed. -/
def State.performed (s : State) (id : Nat) : State :=
  let flagFp (a : Async) : List FpRange := match a.flag with | some _ => a.fp.drop (a.fp.length - 1) | none => []
  if s.writeWaits s.cur id then s.upd fun t => t.setEntry id fun a => { a with phase := applying }
  else
    ((s.upd fun t => t.setEntry id fun a => { a with performed := true, fp := flagFp a }).settleFences).schedule s.now
      (.commandCompletion s.cur id)

/-- The value of a landing that has been read; its arrival follows. -/
def State.deliver (s : State) (l : Option Nat) (effs : List Eff) : State :=
  match l with
  | none => s
  | some id =>
    let f (m : Landing) : Landing := if m.id = id then { m with effs := effs } else m
    (s.upd fun t =>
      { t with pend := t.pend.map f, hpend := t.hpend.map f }.inCheckpoint fun k => { k with pend := k.pend.map f }).later
      (.variableLatencyArrival s.cur id)

/-- The new value of an atomic's word (R123). -/
def atomicValue (i : Instr) (ty : Ty) (old b c : Nat) : Nat :=
  let w := ty.width
  match i with
  | .aadd _ _ => (old + b) % 2 ^ w
  | .acas _ _ => if old = c % 2 ^ w then b % 2 ^ w else old
  | .amax _ _ =>
    if ty.signed then (if sext w old < sext w b then b % 2 ^ w else old) else Nat.max old (b % 2 ^ w)
  | _ => b % 2 ^ w

/-- The type of an atomic's word. -/
def atomicTy : Instr → Ty
  | .aadd _ b | .acas _ b | .amax _ b | .axchg _ b => b.ty
  | _ => .n64

/-- A waiting write of the strand acted on applied; an atomic reads its word now, writes it and delivers the old value (R123). -/
def State.applyWaiting (s : State) (w : DeferredWrite) : State :=
  match w.rmw with
  | some (i, b, c) =>
    let n := w.bs.length
    let old := leNat (s.windowRead s.core w.off n)
    let s1 := s.windowApply s.t.rights s.core w.off (leBytes n (atomicValue i (atomicTy i) old b c))
    match w.src.bind fun p => ((s.strandAt p.1).entry p.2).map fun a => (p.1, a.land) with
    | some (x, l) => { ({ s1 with cur := x } : State).deliver l [.ll (BitVec.ofNat 64 old)] with cur := s.cur }
    | none => s1
  | none => s.windowApply s.t.rights s.core w.off w.bs

/-- The window writes that waited for the strand's boundary, in their order of arrival (R60): each performs now. -/
def State.flushDeferred (s : State) : State :=
  let s1 := s.t.deferred.foldl (fun s w => s.applyWaiting w) (s.upd fun t => { t with deferred := [] })
  let s2 := s.t.deferred.foldl
    (fun (s : State) w =>
      match w.src with
      | none => s
      | some p => match (s.strandAt p.1).entry p.2 with
        | none => s
        | some a => if a.phase = applying ∧ !a.performed then ({ s with cur := p.1 } : State).performed p.2 else s)
    s1
  { s2 with cur := s.cur }

end Sys2Proof.Machine
end

