-- ==== Sys2Proof/Machine/Tiles.lean ====
section
/-! DEFINITION. Tiles and accumulators (R51, R52, R185), their elements, and the sums of the matrix array (R77 to R82,
R184). -/

set_option linter.unusedVariables false

namespace Sys2Proof.Machine

/-! Tiles. -/

/-- A tile as its configuration describes it. -/
structure Tile where
  n : Nat
  ty : Ty
  rows : Nat
  cols : Nat
  /-- The configuration is valid (R51). -/
  ok : Bool
  deriving DecidableEq, Repr

/-- Bits that an element takes in a tile: six-bit elements take 8 (R50, R186). -/
def tileBits (ty : Ty) : Nat := if ty.width = 6 then 8 else ty.width

/-- The row pitch P (R51). -/
def Tile.pitch (t : Tile) : Nat := ceilDiv (t.cols * tileBits t.ty) 256 * 32

/-- Bytes of a tile that its shape uses. -/
def Tile.bytes (t : Tile) : Nat := t.rows * t.pitch

def tileOf (n cfg : Nat) : Tile :=
  let ty := (Ty.ofCode (bits cfg 31 27)).getD .i8
  let t : Tile := { n := n, ty := ty, rows := bits cfg 9 0, cols := bits cfg 26 16, ok := false }
  { t with ok := tyMatrix.contains (bits cfg 31 27) && decide (1 ≤ t.rows) && decide (1 ≤ t.cols) && decide (t.bytes ≤ 16384) }

/-- The window offset of a tile. -/
def Tile.base (t : Tile) : Nat := 0xC0000 + 0x4000 * t.n

/-- The window bytes of a tile. -/
def Tile.range (t : Tile) : Nat × Nat := (t.base, t.base + t.bytes)

/-- The number of a tile operand. -/
def Opd.tileNum : Opd → Nat
  | .t n => n.val
  | _ => 0

def Opd.accNum : Opd → Nat
  | .acc n => n.val
  | _ => 0

/-- The tile of an operand, as its configuration register stands. -/
def Strand.tile (t : Strand) (o : Opd) : Tile := tileOf (Opd.tileNum o) (vget t.ctx.tcfg (Opd.tileNum o) 0).toNat

/-- Element (i, j) of a tile of a core. -/
def State.tileCode (s : State) (core : Nat) (t : Tile) (i j : Nat) : Nat :=
  let a := chipAddr core (t.base + i * t.pitch)
  let w := tileBits t.ty
  if w = 4 then s.num .chip (a + j / 2) 1 / 16 ^ (j % 2) % 16 else s.num .chip (a + j * (w / 8)) (w / 8) % 2 ^ t.ty.width

def State.tileEl (s : State) (core : Nat) (t : Tile) (i j : Nat) : El := ⟨t.ty, s.tileCode core t i j⟩

/-- The effects that write a row of a tile's elements. -/
def Tile.rowEffs (t : Tile) (i : Nat) (codes : List Nat) : List Eff :=
  let a := t.base + i * t.pitch
  let w := tileBits t.ty
  if w = 4 then
    let full := codes.length / 2
    .store a (leBytes full (packElems 4 codes)) ::
      (if codes.length % 2 = 1 then [.nibble (2 * (a + full)) (codes.getD (2 * full) 0)] else [])
  else [.store a (leBytes (codes.length * (w / 8)) (packElems w (codes.map fun c => c % 2 ^ t.ty.width)))]

/-! Accumulators. -/

/-- The window offset of an accumulator element. -/
def accAt (a i j : Nat) : Nat := 0x100000 + 0x10000 * a + (i * 128 + j) * 8

/-- The window bytes of an accumulator. -/
def accRange (a : Nat) : Nat × Nat := (accAt a 0 0, accAt a 64 0)

/-- An accumulator's element as a word reads it at its start: with V = 0, zero (R183). -/
def State.accCode (s : State) (a i j : Nat) : Nat :=
  if accV (s.coreAt s.core).acm a then s.num .chip (chipAddr s.core (accAt a i j)) 8 else 0

/-- The exact value of an accumulator element. -/
def accX (intMode : Bool) (c : Nat) : XReal := if intMode then .ofInt (sext 64 c) else decode .f64 c

/-- An accumulator element converted once into a type (R195): `.f64` from binary64 and `.i64` from int64 are copies. -/
def accOut (intMode : Bool) (ty : Ty) (mode : Rnd) (draw c : Nat) : Nat × Nat :=
  if (ty = .f64 && !intMode) || (ty = .i64 && intMode) then (c, 0) else narrow ty mode draw (accX intMode c)

/-! Pairings (R185). -/

/-- How a pairing of formats sums: int64 mode, the tree of R80, and the rate in half strand cycles for each of K. -/
structure Pairing where
  intMode : Bool
  tree : Bool
  rate : Nat
  deriving DecidableEq, Repr

def isSmallFp : Ty → Bool
  | .f16 | .bf16 | .e5m2 | .e4m3 | .e3m2 | .e2m3 | .e2m1 | .sp2 => true
  | _ => false

def isMatInt : Ty → Bool
  | .i16 | .i8 | .i4 => true
  | _ => false

/-- The rate of a format alone: 1 the 4-bit class, 2 the 8-bit, 4 the 16-bit. -/
def rateOf : Ty → Nat
  | .f16 | .bf16 | .i16 => 4
  | .e5m2 | .e4m3 | .i8 => 2
  | _ => 1

def pairing (a b : Ty) : Option Pairing :=
  if isSmallFp a && isSmallFp b then some ⟨false, false, Nat.max (rateOf a) (rateOf b)⟩
  else if isMatInt a && isMatInt b then some ⟨true, false, Nat.max (rateOf a) (rateOf b)⟩
  else if a = .f32 && b = .f32 then some ⟨false, true, 16⟩
  else none

/-- B of a multiply-accumulate word of depth K (R181). -/
def Pairing.busy (p : Pairing) (k : Nat) : Nat := ceilDiv (p.rate * k) 2

/-! Sums (R77 to R81, R184). -/

def Elem.x (e : Elem) : XReal := (decode e.ty e.code).scale e.scale

/-- The exact integer of an element. -/
def Elem.int (e : Elem) : Int := sext e.ty.width e.code

/-- An exact sum of products with its flags, −0 only if every product is −0 (R78). -/
def exactSum : List (XReal × Nat) → XReal × Nat
  | [] => (.zero false, 0)
  | p :: ps => ps.foldl (fun m q => let r := XReal.add false m.1 q.1; (r.1, fOr (fOr m.2 q.2) r.2)) p

/-- NV of infinite products of both signs, whatever other products there are (R81). -/
def infClash (ps : List (XReal × Nat)) : Nat :=
  if ps.any (fun p => p.1 == .inf false) && ps.any (fun p => p.1 == .inf true) then fNV else 0

/-- The sum of one output element in binary64 mode: exact, or by the tree (R78, R80, R81). -/
def floatSum (tree : Bool) (a b : List Elem) : XReal × Nat :=
  let ps := (a.zip b).map fun p => XReal.mul p.1.x p.2.x
  let t : XReal × Nat :=
    if tree then
      let t := treeSum 11 (ps.map Prod.fst)
      (t.1, ps.foldl (fun m p => fOr m p.2) t.2)
    else exactSum ps
  (t.1, fOr t.2 (infClash ps))

/-- The sum in int64 mode (R79). -/
def intSum (a b : List Elem) : Int := (a.zip b).foldl (fun m p => m + p.1.int * p.2.int) 0

/-- Addition into int64 with wrap: encoding and whether it wrapped (R79). -/
def accAddInt (acc : Nat) (t : Int) : Nat × Bool :=
  let v := sext 64 acc + t
  (wrap 64 v, decide (v < -(2 ^ 63 : Nat)) || decide (((2 ^ 63 : Nat) : Int) - 1 < v))

/-- One output element: from zero or from the accumulator: encoding, flags and whether it wrapped (R78 to R80, R184). -/
def macElem (init intMode tree : Bool) (acc : Nat) (a b : List Elem) : Nat × Nat × Bool :=
  if intMode then
    let r := accAddInt (if init then 0 else acc) (intSum a b)
    (r.1, if r.2 then fIOVF else 0, r.2)
  else
    let t := floatSum tree a b
    let x : XReal × Nat := if init then t else
      let r := XReal.add false (decode .f64 acc) t.1
      (r.1, fOr t.2 r.2)
    let q := round .f64 .rne 0 x.1
    (q.1, fOr x.2 q.2, false)

/-- An accumulator's elements, as they stand. -/
def State.accRaw (s : State) (a : Nat) : List Nat :=
  let bs := s.bytes .chip (chipAddr s.core (accAt a 0 0)) 65536
  chunk 8192 bs
where
  chunk : Nat → List Byte → List Nat
    | 0, _ => []
    | n + 1, bs => leNat (bs.take 8) :: chunk n (bs.drop 8)

/-- V, M and OV of an accumulator set. -/
def State.setAcm (s : State) (a : Nat) (v m clearOv ov : Bool) : State :=
  s.updCore s.core fun k =>
    let x := acmPut k.acm a v m clearOv
    { k with acm := if ov then putBits x (4 * a + 2) 1 1 else x }

/-- A multiply-accumulate delivery: the accumulator read and written (R183, R184), with the word's flags. -/
def State.applyMac (s : State) (j : MacJob) : State × Nat :=
  let a := j.acc.val
  let old := (s.accRaw a).toArray
  let as := j.a.toArray
  let bs := j.b.toArray
  let m := j.a.length
  let n := j.b.length
  let out : List (Nat × Nat × Bool) := (List.range 64).flatMap fun i => (List.range 128).map fun k =>
    if i < m ∧ k < n then macElem j.init j.intMode j.tree (old.getD (i * 128 + k) 0) (as.getD i []) (bs.getD k [])
    else (if j.init then 0 else old.getD (i * 128 + k) 0, 0, false)
  let s1 := s.chipWrite s.core (accAt a 0 0) (out.flatMap fun r => leBytes 8 r.1)
  (s1.setAcm a true j.intMode false (out.any fun r => r.2.2), out.foldl (fun f r => fOr f r.2.1) 0)

/-- `macp.add` at its delivery (R196). -/
def State.applyMacp (s : State) (d : Nat) (intMode : Bool) (xs : List Nat) : State × Nat :=
  let out := ((s.accRaw d).zip xs).map fun p =>
    if intMode then
      let r := accAddInt p.1 (sext 64 p.2)
      (r.1, if r.2 then fIOVF else 0, r.2)
    else
      let x := XReal.add false (decode .f64 p.1) (decode .f64 p.2)
      let q := round .f64 .rne 0 x.1
      (q.1, fOr x.2 q.2, false)
  let s1 := s.chipWrite s.core (accAt d 0 0) (out.flatMap fun r => leBytes 8 r.1)
  (if out.any fun r => r.2.2 then s1.setAcm d (accV (s.coreAt s.core).acm d) (accM (s.coreAt s.core).acm d) false true else s1,
   out.foldl (fun f r => fOr f r.2.1) 0)

/-- A 4-bit element written in its byte. -/
def State.nibbleWrite (s : State) (time core at_ v : Nat) : State :=
  let b := s.num .chip (chipAddr core (at_ / 2)) 1
  s.chipWriteAt time core (at_ / 2) [BitVec.ofNat 8 (putBits b (4 * (at_ % 2)) 4 v)]

/-- What a landing's effect does to its core: storage, lineage masks and accumulators; with the flags that it finds. -/
def State.applyEff (s : State) (handler : Bool) (e : Eff) : State × Nat :=
  match e with
  | .store off bs => (if off < spadBytes then s.spadStore off bs else s.chipWrite s.core off bs, 0)
  | .nibble at_ v =>
    -- a tile's lands with the rest of its row (R181), a scratchpad's in the cycle of its bank (R242)
    let x := if at_ / 2 < spadBytes then s.t.bankCycle (at_ / 2) else s.now
    (if x ≤ s.now then s.nibbleWrite x s.core at_ v
     else s.updCore s.core fun k => { k with bankPend := k.bankPend ++ [⟨x, .nibble at_ v⟩] }, 0)
  | .dvMask n m => (s.updCore s.core fun k => { k with dvm := mset n.val m.toNat k.dvm }, 0)
  | .accBits a v m c => (s.setAcm a.val v m c false, 0)
  | .mac j => s.applyMac j
  | .macpAdd d m xs => s.applyMacp d.val m xs
  | .poison off => (s.mark .chip (chipAddr s.core off), 0)
  | e => (s.upd fun t => t.applyEff handler e, 0)

/-- The effects of a landing in order, and the flags they find. -/
def State.applyEffs (s : State) (handler : Bool) : List Eff → State × Nat
  | [] => (s, 0)
  | e :: es =>
    let r := s.applyEff handler e
    let q := r.1.applyEffs handler es
    (q.1, fOr r.2 q.2)

end Sys2Proof.Machine
end

