-- ==== Sys2Proof/Machine/Matrix.lean ====
section
/-! DEFINITION. Class M: the issue of timed words (R180 to R183), multiply-accumulate words (R184 to R186), transforms,
conversions, block forms and drains (R193 to R196), and what each does at its start. -/

set_option linter.unusedVariables false

namespace Sys2Proof.Machine

/-! Issue of a timed word (R181 to R183). -/

/-- What a timed word is, once its form has been read: occupancy, latency, draws, its regions (region, elements,
reads), the own-window ranges of tiles and accumulators that it reads and writes, the ranges it reads of other cores,
and the values that its start needs. -/
structure MPlan where
  busy : Nat
  lat : Nat
  draws : Nat := 0
  rgns : List (Rgn × Nat × Bool) := []
  rd : List (Nat × Nat) := []
  wr : List (Nat × Nat) := []
  /-- What the word writes at its start: the clear of `mdrt.clr` (R182, R195). -/
  clear : List (Nat × Nat) := []
  far : List FpRange := []
  /-- The accumulator that the delivery writes, with V and M as the word leaves them at issue (R52). -/
  acc : Option (Nat × Bool) := none
  vals : List Nat := []

/-- Whether a read of window bytes at strand cycle `k` meets poison (R359). -/
def State.rangePoison (s : State) (core : Nat) (r : Nat × Nat) : Option Nat :=
  s.poisoned .chip (chipAddr core r.1) (r.2 - r.1)

/-- `EC 1` of poison in ranges of other cores' windows that a word reads (R359). -/
def State.farPoison (s : State) (rs : List FpRange) : Except Stop Unit :=
  match rs.findSome? fun r => s.poisoned .chip r.lo (r.hi - r.lo) with
  | some u => trapStop { trapEC 16 with addr := 3 * 2 ^ 60 + 8 * u % 2 ^ 21 }
  | none => .ok ()

/-- The gates of a timed word: `AF 3`, its own checks, pending bits, edges, poison (R182, R246, R32, R359). -/
def State.mGate (s : State) (start : Nat) (p : MPlan) (own : Except Stop Unit) : Except Stop Unit :=
  let t := s.t
  let rs := p.rgns.filter fun x => x.2.1 ≠ 0
  let reads := (rs.flatMap fun x => if x.2.2 then [x.1.hull x.2.1] else []) ++ p.rd
  let writes := (rs.flatMap fun x => if x.2.2 then [] else [x.1.hull x.2.1]) ++ p.wr ++ p.clear
  if !rs.all fun x => t.rgnInside x.1 x.2.1 then trapStop (trapAF 3 3)
  else
    match own.bind fun _ => t.dbCheck (reads.map fun r => (start + 1, r.1, r.2)) with
    | .error e => .error e
    | .ok _ =>
      match t.edges ((reads.map fun r => winRange s.core r.1 r.2 false) ++
          (writes.map fun r => winRange s.core r.1 r.2 true) ++ p.far) with
      | .error e => .error e
      | .ok _ =>
        match reads.findSome? fun r => s.rangePoison s.core r with
        | some u => trapStop { trapEC 16 with addr := 3 * 2 ^ 60 + (8 * u - chipAddr s.core 0) }
        | none => s.farPoison p.far

/-- The strand cycle after the last pending write of an accumulator by an earlier M word, if one is pending (R183). -/
def Strand.accPending (t : Strand) (a : Nat) : Nat :=
  let r := accRange a
  t.timed.foldl
    (fun m x => if x.write && x.touches (t.ctx.sclk + 1) r.1 r.2 then Nat.max m (x.last + 1) else m) 0

/-- V and M of an accumulator as the issued words leave them (R52). -/
def Strand.accView (t : Strand) (a : Nat) : Bool × Bool := t.accIss.getD a (false, false)

/-- Elements written over the delivery of a whole range. -/
def rangeTimed (r : Nat × Nat) (due : Nat) (write : Bool) : TimedAcc := timedRange r.1 r.2 due write

/-- A timed M word (R181): its gates, then its place in the array's order. -/
def mIssue (h : Hdr) (i : Instr) (rnd : Rnd) (p : MPlan) (own : Except Stop Unit) : Operation := fun s =>
  let t := s.t
  let start := Nat.max t.ctx.sclk t.mEnd
  match s.mGate start p own with
  | .error x => .error x
  | .ok _ =>
    let due := match p.acc with
      | some a => Nat.max (start + p.lat) (t.accPending a.1)
      | none => start + p.lat
    let d := s.draw rnd p.draws
    let rs := p.rgns.filter fun x => x.2.1 ≠ 0
    .ok { own := true
          s := d.2.upd fun t =>
            { t with
              mEnd := start + p.busy
              mpend := t.mpend ++
                [{ seq := t.seq, instr := i, start := start, busy := p.busy, deliver := due, vals := p.vals, acc := p.acc
                   draws := d.1, spost := h.spost.val }]
              accIss := match p.acc with
                | some a => t.accIss.set a.1 (true, a.2)
                | none => t.accIss
              timed := t.timed ++
                (rs.flatMap fun x =>
                  if x.2.2 then x.1.timed x.2.1 x.2.1 1 start false else x.1.timed x.2.1 x.2.1 1 due true) ++
                (p.rd.map fun r => rangeTimed r start false) ++ (p.wr.map fun r => rangeTimed r due true) ++
                (p.clear.map fun r => rangeTimed r start true) } }

/-- The scalar operands of an M word, in slot order (R43, R180). -/
def mOperands (op : MOp) (h : Hdr) (b : MBody) (k : List Nat → Operation) : Operation := fun s =>
  let f := op.form
  let opd (st : OpSet) (o : Opd) : Opd := if st = .sc then o else .zero
  match s.t.readOpds .m 0 [(opd f.a b.a, h.peekA), (opd f.b b.b, h.peekB), (opd f.c b.c, h.peekC)] with
  | .error x => .error x
  | .ok (vs, t1) => k (vs.map BitVec.toNat) (s.setStrand s.cur t1)

def issueM (op : MOp) (h : Hdr) (b : MBody) (k : Operation) (s : State) : Host.Outcome State Fault Refusal :=
  .next (s.issue (.m op h b) k)

/-- `TS 1` for a tile. -/
def tileCheck (ok : Bool) (n : Nat) : Except Stop Unit := check ok (trapTS n)

/-- The pairing of a record's format, if it is one, with a tile's, which R185 has to accept: else `TS 1` (R188). -/
def pairsWith (ty : Ty) (n : Nat) (f : Option Ty) : Except Stop Unit := tileCheck (f.any fun t => (pairing t ty).isSome) n

/-- Checks one after another. -/
def allOf : List (Except Stop Unit) → Except Stop Unit
  | [] => .ok ()
  | x :: xs => match x with | .ok _ => allOf xs | e => e

/-! Multiply-accumulate words. -/

/-- The core of a gang's position (R192). -/
def State.gangCore (s : State) (gi gj : Nat) : Nat :=
  let t := s.t
  match s.strands.find? fun e => e.2.gang == t.gang && e.2.rank == gi * t.cols + gj with
  | some e => coreOf e.1
  | none => s.core

/-- The cores that hold the tiles of slots A and B: for a gang form, those of its row and its column (R192). -/
def State.macCores (s : State) (gang : Bool) : Nat × Nat :=
  if gang then (s.gangCore (s.t.rank / s.t.cols) 0, s.gangCore 0 (s.t.rank % s.t.cols)) else (s.core, s.core)

/-- `TS 1` of an accumulating word into the other mode (R52, R185). -/
def Strand.modeCheck (t : Strand) (a : Nat) (init intMode : Bool) : Except Stop Unit :=
  let v := t.accView a
  check (init || !v.1 || v.2 == intMode) (trapTS (16 + a))

/-- The shape and pairing checks on two tiles (R185, R186). -/
def tilesCheck (ta tb : Tile) : Except Stop Unit :=
  allOf [tileCheck ta.ok ta.n, tileCheck (ta.rows ≤ 64) ta.n, tileCheck tb.ok tb.n, tileCheck (tb.rows ≤ 128) tb.n,
    tileCheck (ta.cols == tb.cols) tb.n, tileCheck (pairing ta.ty tb.ty).isSome tb.n]

/-- The range of a tile of a core, as an own-window range or as one of another core. -/
def State.tileReads (s : State) (core : Nat) (t : Tile) : List (Nat × Nat) × List FpRange :=
  if core = s.core then ([t.range], []) else ([], [winRange core t.range.1 t.range.2 false])

/-- `mmi`, `mma`, `gmmi` and `gmma` (R184, R192). -/
def macOp (op : MOp) (gang fromZero : Bool) (h : Hdr) (b : MBody) : Operation := fun s =>
  let t := s.t
  let ta := t.tile b.a
  let tb := t.tile b.b
  let a := Opd.accNum b.d
  let p := (pairing ta.ty tb.ty).getD ⟨false, false, 1⟩
  let init := fromZero || !(t.accView a).1
  let c := s.macCores gang
  let ra := s.tileReads c.1 ta
  let rb := s.tileReads c.2 tb
  let busy := p.busy ta.cols
  mIssue h (op.instr h b) .rne
    { busy := busy, lat := 8 + busy + (if gang then s.horizon else 0), rd := ra.1 ++ rb.1, wr := [accRange a]
      far := ra.2 ++ rb.2, acc := some (a, p.intMode)
      vals := [(vget t.ctx.tcfg ta.n 0).toNat, (vget t.ctx.tcfg tb.n 0).toNat, c.1, c.2, b2n init] }
    (allOf [tilesCheck ta tb, t.modeCheck a fromZero p.intMode]) s

/-- A row of a tile as the array reads it. -/
def State.tileRow (s : State) (core : Nat) (t : Tile) (i : Nat) : List Elem :=
  (List.range t.cols).map fun j => { ty := t.ty, code := s.tileCode core t i j }

/-- Rows of a tile as the array reads them. -/
def State.tileRows (s : State) (core : Nat) (t : Tile) : List (List Elem) := (List.range t.rows).map fun i => s.tileRow core t i

/-- What the array gets at the start of a multiply-accumulate word. -/
def State.macStart (s : State) (m : MPend) (b : MBody) : List Eff :=
  let ta := tileOf (Opd.tileNum b.a) (m.vals.getD 0 0)
  let tb := tileOf (Opd.tileNum b.b) (m.vals.getD 1 0)
  let p := (pairing ta.ty tb.ty).getD ⟨false, false, 1⟩
  match b.d with
  | .acc n =>
    [.mac { acc := n, init := m.vals.getD 4 0 == 1, intMode := p.intMode, tree := p.tree
            a := s.tileRows (m.vals.getD 2 0) ta, b := s.tileRows (m.vals.getD 3 0) tb }]
  | _ => []

/-! Handle words (R187 to R190). -/

/-- A layout record (R187). -/
structure LayoutRec where
  base : Nat
  n : List Nat
  s : List Int
  gen : Nat
  valid : Bool
  edge : Bool
  ndim : Nat
  fmt : Nat
  kblk : Nat
  o2 : Nat
  o3 : Nat
  deriving DecidableEq, Repr

/-- The record in 64 bytes. -/
def layoutOf (x : Nat) : LayoutRec :=
  { base := bits x 511 448, n := [bits x 351 320, bits x 383 352, bits x 415 384, bits x 447 416]
    s := [sext 64 (bits x 127 64), sext 64 (bits x 191 128), sext 64 (bits x 255 192), sext 64 (bits x 319 256)]
    gen := bits x 63 52, valid := bit x 51, edge := bit x 50, ndim := bits x 49 48, fmt := bits x 47 43
    kblk := bits x 42 36, o2 := bits x 31 16, o3 := bits x 15 0 }

def LayoutRec.ty (r : LayoutRec) : Ty := (Ty.ofCode r.fmt).getD .i8

/-- The index of a coordinate in a dimension of extent n (R189). -/
def mirror (edge : Bool) (n : Nat) (x : Int) : Nat :=
  if edge then
    let m := (x % (2 * n : Nat)).toNat
    if m < n then m else 2 * n - 1 - m
  else if n = 1 then 0
  else
    let m := (x % (2 * n - 2 : Nat)).toNat
    if m < n then m else 2 * n - 2 - m

/-- The index of a coordinate of a dimension; beyond NDIM it is 0 (R187). -/
def LayoutRec.index (r : LayoutRec) (d : Nat) (x : Int) : Nat :=
  if d ≤ r.ndim then mirror r.edge (r.n.getD d 1) x else 0

/-- The byte offset that dimension `d` adds. -/
def LayoutRec.step (r : LayoutRec) (d : Nat) (x : Int) : Int :=
  if d ≤ r.ndim then (r.index d x : Int) * r.s.getD d 0 else 0

/-- The byte offset of row coordinate `y`, dimensions 1 to 3 (R189). -/
def LayoutRec.rowOff (r : LayoutRec) (y : Int) : Int := r.step 1 y + r.step 2 r.o2 + r.step 3 r.o3

/-- A path address moved by an offset. -/
def moveAddr (e : Nat) (d : Int) : Nat := wrap 64 ((e : Int) + d)

/-- The distinct blocks that a row of K elements from column `x0` touches, in the order they are met (R189). A KBLK of 0 counts as 1
(DESIGN CHOICE, log entry 159: R187 gives 1 to 124, and no check names 0). -/
def LayoutRec.rowBlocks (r : LayoutRec) (x0 : Int) (k : Nat) : List Nat :=
  (List.range k).foldl
    (fun (l : List Nat) (c : Nat) =>
      let b := r.index 0 (x0 + (c : Int)) / (Nat.max r.kblk 1)
      if l.contains b then l else l ++ [b]) []

/-- The fetch's reads (R189, R190): rows `y0` on, columns `x0` on. On path 0x2 whole blocks. -/
def LayoutRec.fetch (r : LayoutRec) (rows : Nat) (y0 x0 : Int) (k : Nat) : List Piece :=
  if pathOf r.base = 2 then
    ((List.range rows).flatMap fun (i : Nat) =>
      (r.rowBlocks x0 k).map fun (b : Nat) =>
        (i, moveAddr r.base (64 * (b : Int) + r.rowOff (y0 + (i : Int))))).zipIdx.map fun x =>
        { el := x.1.1, off := 64 * x.2, addr := x.1.2, len := 64 }
  else
    let w := r.ty.width / 8
    (List.range rows).flatMap fun (i : Nat) => (List.range k).map fun (c : Nat) =>
      { el := i, off := (i * k + c) * w, addr := moveAddr r.base (r.step 0 (x0 + (c : Int)) + r.rowOff (y0 + (i : Int)))
        len := w }

/-- The hull of the fetched bytes, if the tensor is on path 0x3 or 0x4 (R190, R204). -/
def fetchHull (core : Nat) (ps : List Piece) : List FpRange :=
  match ps with
  | [] => []
  | p :: r =>
    if pathOf p.addr = 3 ∨ pathOf p.addr = 4 then
      let lo := r.foldl (fun m q => Nat.min m q.addr) p.addr
      let hi := r.foldl (fun m q => Nat.max m (q.addr + q.len)) (p.addr + p.len)
      footRange core lo (hi - lo) false
    else []

/-- The record of a handle, read whole at issue, as a number of 512 bits (R187, R188): one that has not arrived is a variable-latency
item, for which the strand stalls (R29). Its address is translated for a read, and written for `hbind` by its own access. -/
def State.record (s : State) (slot : Nat) : Except Stop Nat :=
  let va := bits ((s.vf s.t.vf).ltb + 64 * slot) 47 0
  let whole (pa x : Nat) : Except Stop Nat :=
    match s.poisoned .dram pa 64 with
    | some _ => trapStop { trapEC (pa / 2 ^ 36) with addr := va }
    | none => .ok x
  match s.t.recFetch with
  | some f => match f.val with | some x => whole f.pa x | none => stallStop .landing
  | none =>
    match s.translate va false 0 with
    | .error x => .error x
    | .ok pa => if s.latency.1 = 0 then whole pa (s.num .dram pa 64) else .error (.record pa)

/-- The latency of a record that arrived at once, used up. -/
def State.recordTaken (s : State) : State := if s.t.recFetch.isSome then s else s.latency.2

/-- The byte count that a fetch posts (R190). -/
def LayoutRec.posted (r : LayoutRec) (rows k : Nat) : Nat :=
  if pathOf r.base = 2 then rows * ceilDiv k (Nat.max r.kblk 1) * 64 else rows * ceilDiv (k * r.ty.width) 8

/-- The checks on a handle's record (R188): slot and validity, generation, pairing, path and format, alignment. -/
def State.handleCheck (s : State) (hnd : Nat) (pairs : Option Ty → Except Stop Unit) (slotNo : Nat) : Except Stop LayoutRec :=
  let slot := bits hnd 31 12
  let hf (n : Nat) : Trap := trapHF n (slot % 65536)
  if (s.vf s.t.vf).ltl ≤ slot then trapStop (hf 2)
  else
    match s.record slot with
    | .error x => .error x
    | .ok x =>
      let r := layoutOf x
      if !r.valid then trapStop (hf 2)
      else if r.gen ≠ bits hnd 11 0 then trapStop (hf 1)
      else
        match pairs (Ty.ofCode r.fmt) with
        | .error e => .error e
        | .ok _ =>
          let p := pathOf r.base
          if 6 < p ∨ (p ≠ 2 ∧ r.ty.width < 8) then trapStop (hf 2)
          else
            let w : Nat := if p = 2 then 64 else r.ty.width / 8
            let strides := if p = 2 then r.s.drop 1 else r.s
            let used := (strides.zipIdx.filter fun x => decide (x.2 + (if p = 2 then 1 else 0) ≤ r.ndim)).map Prod.fst
            if r.base % w ≠ 0 ∨ used.any fun d => d % (w : Int) != 0 then trapStop (trapAF 4 slotNo) else .ok r

/-- The origin operand (R189): channel, row and column. -/
def originOf (v : Nat) : Nat × Int × Int := (bits v 63 62, sext 30 (bits v 61 32), sext 32 (bits v 31 0))

/-- `mmih`, `mmah`, `gmmih` and `gmmah` (R184, R189, R190, R192). -/
def handleOp (op : MOp) (gang fromZero : Bool) (h : Hdr) (b : MBody) : Operation :=
  mOperands op h b fun vs s =>
    let t := s.t
    let inA := decide (b.a = .handle)
    let tile := t.tile (if inA then b.b else b.a)
    let cfg := (vget t.ctx.tcfg tile.n 0).toNat
    let a := Opd.accNum b.d
    let rows := bits b.mx.toNat 6 0 + 1
    let org := originOf (vs.getD 2 0)
    let pos := if gang then (if inA then 64 * (t.rank / t.cols) else 128 * (t.rank % t.cols)) else 0
    let core := if inA then (s.macCores gang).2 else (s.macCores gang).1
    if !bit t.channels org.1 then trapStop (trapIL 6 8)
    else
      match allOf [tileCheck tile.ok tile.n, tileCheck (tile.rows ≤ (if inA then 128 else 64)) tile.n] with
      | .error x => .error x
      | .ok _ =>
        match s.handleCheck b.hnd.toNat (pairsWith tile.ty tile.n) (if inA then 0 else 1) with
        | .error x => .error x
        | .ok r =>
          let p := (pairing r.ty tile.ty).getD ⟨false, false, 1⟩
          match t.modeCheck a fromZero p.intMode with
          | .error x => .error x
          | .ok _ =>
            let y0 := org.2.1 + pos
            let rd := r.fetch rows y0 org.2.2 tile.cols
            let init := fromZero || !(t.accView a).1
            let pend := t.accPending a
            issueCommand h
              { id := 0, seq := 0, eng := .m, cls := 0, instr := op.instr h b, chan := some org.1
                vals := [rows, cfg, core, b2n init, b2n p.intMode, wrap 64 org.2.2, Nat.max pend t.lastTimed, r.base, r.fmt, r.kblk,
                  r.ndim, b2n r.edge, r.n.getD 0 1]
                rd := rd, buf := unread ((rd.map Piece.len).sum), posted := r.posted rows tile.cols
                fp := [winRange s.core (accRange a).1 (accRange a).2 true, winRange core tile.range.1 tile.range.2 false] ++
                  fetchHull s.core rd
                level := 1 }
              (fun s => s.upd fun t => { t with accIss := t.accIss.set a (true, p.intMode) }) s.recordTaken

/-! Transforms, conversions and moves (R193 to R196). -/

/-- The block size of a Hadamard form. -/
def hadSize (b : MBody) : Nat := 16 * 2 ^ bits b.mx.toNat 1 0
def hadShift (b : MBody) : Nat := bits b.mx.toNat 7 2

/-- Output `i` of a run of a Hadamard transform, exact (R193). -/
def hadamard (sh : Nat) (run : List XReal) (i : Nat) : XReal :=
  if run.any XReal.isNan then .nan true
  else
    match run.filter XReal.isInf with
    | x :: r => if r.any fun y => y.neg != x.neg then .nan true else x
    | [] =>
      let s := run.zipIdx.foldl
        (fun (m : XReal) x =>
          let odd := popCount 7 (i &&& x.2) % 2 = 1
          (XReal.add false m (if odd then x.1.negate else x.1)).1) (.zero false)
      s.scale (-(sh : Int))

/-- A row transformed run by run. -/
def hadRow (hsize sh : Nat) (row : List XReal) : List XReal :=
  (List.range (row.length / hsize)).flatMap fun r =>
    let run := (row.drop (r * hsize)).take hsize
    (List.range hsize).map fun i => hadamard sh run i

/-- A row of exact values of a tile. -/
def State.tileReals (s : State) (t : Tile) (i : Nat) : List XReal :=
  (List.range t.cols).map fun j => (s.tileEl s.core t i j).x

/-- Rows of exact values rounded into a tile, draws in row-major order: effects and flags. -/
def intoTile (d : Tile) (rnd : Rnd) (draws : List Nat) (rows : List (List XReal)) : List Eff × Nat :=
  let ds := draws.toArray
  let out := rows.zipIdx.map fun r =>
    (r.2, r.1.zipIdx.map fun x => narrow d.ty rnd (ds.getD (r.2 * d.cols + x.2) 0) x.1)
  (out.flatMap fun r => d.rowEffs r.1 (r.2.map Prod.fst), out.foldl (fun f r => r.2.foldl (fun f x => fOr f x.2) f) 0)

/-- Rows of exact values written as blocks of `kb` elements (R194): bytes and flags. -/
def intoBlocks (fmt : Ty) (rnd : Rnd) (kb cols : Nat) (draws : List Nat) (rows : List (List XReal)) : List Byte × Nat :=
  let ds := draws.toArray
  let out := rows.zipIdx.flatMap fun r => (List.range (cols / kb)).map fun q =>
    let xs := (r.1.drop (q * kb)).take kb
    let e := blockScale fmt xs
    let cs := xs.zipIdx.map fun x => blockElem fmt rnd (ds.getD (r.2 * cols + q * kb + x.2) 0) e x.1
    (blockBytes fmt e (cs.map Prod.fst), cs.foldl (fun f x => fOr f x.2) 0)
  (out.flatMap Prod.fst, out.foldl (fun f x => fOr f x.2) 0)

/-- The region checks of a block form's D, `IL 6` with DETAIL 3 (R194). -/
def blockRegionOk (r : Rgn) (blocks : Nat) : Bool :=
  r.ty == .n8 && r.stride == 1 && r.base % 64 == 0 && decide (64 * blocks ≤ r.count)

/-- The checks of a block form and its issue (R194): `fmtOk` says that its format is a matrix format. -/
def blockOp (op : MOp) (h : Hdr) (b : MBody) (fmtCode kb kbSlot rows cols : Nat) (rowsOk : Bool) (src : List (Nat × Nat))
    (ts : Except Stop Unit) (vals : List Nat) : Operation := fun s =>
  match s.t.regionCheck [(3, b.d)] fun _ _ => true with
  | .error x => .error x
  | .ok _ =>
    let d := rgn (s.t.desc b.d)
    let blocks := rows * (cols / Nat.max kb 1)
    if !(decide (1 ≤ kb) && decide (kb ≤ 124) && cols % kb == 0) then trapStop (trapIL 6 kbSlot)
    else if !rowsOk then trapStop (trapIL 6 2)
    else if !blockRegionOk d blocks then trapStop (trapIL 6 3)
    else if !tyMatrix.contains fmtCode then trapStop (trapIL 6 8)
    else
      let fmt := (Ty.ofCode fmtCode).getD .i8
      let busy := ceilDiv (rows * cols) 512
      mIssue h (op.instr h b) b.rnd
        { busy := busy, lat := 8 + busy, draws := rows * cols, rgns := [(d, 64 * blocks, false)], rd := src, vals := vals }
        (allOf [ts, check (kb ≤ blockCapacity fmt) (trapFF 1 fmtCode)]) s

/-- A form from a tile to a tile of the same count of elements (R193). -/
def tileToTile (op : MOp) (h : Hdr) (b : MBody) (ts : Tile → Tile → Except Stop Unit) (draws : Bool) : Operation := fun s =>
  let ta := s.t.tile b.a
  let td := s.t.tile b.d
  let n := ta.rows * ta.cols
  let busy := ceilDiv n 1024
  mIssue h (op.instr h b) b.rnd
    { busy := busy, lat := 6 + busy, draws := if draws then n else 0, rd := [ta.range], wr := [td.range]
      vals := [(vget s.t.ctx.tcfg ta.n 0).toNat, (vget s.t.ctx.tcfg td.n 0).toNat] }
    (allOf [tileCheck ta.ok ta.n, tileCheck td.ok td.n, ts ta td]) s

/-- The values of tiles A and D that a start needs. -/
def MPend.tiles (m : MPend) (b : MBody) : Tile × Tile :=
  (tileOf (Opd.tileNum b.a) (m.vals.getD 0 0), tileOf (Opd.tileNum b.d) (m.vals.getD 1 0))

/-- `mdrt` (R195). -/
def drainTileOp (h : Hdr) (b : MBody) : Operation := fun s =>
  let a := Opd.accNum b.a
  let td := s.t.tile b.d
  let c := 32 * bits b.mx.toNat 1 0
  let n := td.rows * td.cols
  let busy := ceilDiv n 1024
  let clr := bit b.mx.toNat 2
  let cells := (accAt a 0 c, accAt a (td.rows - 1) (c + td.cols))
  mIssue h (.mdrt h b) b.rnd
    { busy := busy, lat := 4 + busy, draws := n, rd := [cells], wr := [td.range], clear := if clr then [cells] else []
      vals := [0, (vget s.t.ctx.tcfg td.n 0).toNat] }
    (allOf [tileCheck td.ok td.n, tileCheck (td.rows ≤ 64 && decide (c + td.cols ≤ 128)) td.n]) s

/-- `mdrs` (R195). -/
def drainRegionOp (h : Hdr) (b : MBody) : Operation := fun s =>
  let okTy (_ : Nat) (t : Ty) : Bool := t.isMatrix || t == .f64 || t == .i64
  match s.t.regionCheck [(3, b.d)] okTy with
  | .error x => .error x
  | .ok _ =>
    let d := rgn (s.t.desc b.d)
    let n := 128 * bits b.mx.toNat 5 0
    if 8192 - n < d.count then trapStop (trapIL 6 3)
    else
      let a := Opd.accNum b.a
      let busy := ceilDiv d.count 1024
      mIssue h (.mdrs h b) b.rnd
        { busy := busy, lat := 4 + busy, draws := d.count, rgns := [(d, d.count, false)]
          rd := if d.count = 0 then [] else [(accAt a 0 n, accAt a 0 (n + d.count))], vals := [s.t.desc b.d] }
        (.ok ()) s

/-- `mclr` (R196). -/
def clearOp (h : Hdr) (b : MBody) : Operation :=
  let a := Opd.accNum b.d
  mIssue h (.mclr h b) .rne { busy := 1, lat := 2, wr := [accRange a], acc := some (a, bit b.mx.toNat 0) } (.ok ())

/-- The mode that a delivery leaves an accumulator in. -/
def Eff.accMode (a : Nat) : Eff → Option Bool
  | .mac j => if j.acc.val = a then some j.intMode else none
  | .accBits n _ m _ => if n.val = a then some m else none
  | .macpAdd d m _ => if d.val = a then some m else none
  | _ => none

/-- The mode of an accumulator at strand cycle `k`, as the deliveries due by then leave it; `acm` holds it now (R52, R183). -/
def Strand.modeAt (t : Strand) (acm a k : Nat) : Bool :=
  let landed := t.pend.filterMap fun l => if l.due ≤ k then l.effs.findSome? (Eff.accMode a) else none
  let coming := t.mpend.filterMap fun m => if m.deliver ≤ k then m.acc.bind fun x => if x.1 = a then some x.2 else none else none
  (landed ++ coming).getLastD (accM acm a)

/-- `macp` (R196): D takes A's elements in the mode that A has as they are read, at the word's start (R183); the mode check of `.add`
and its addition go by the modes as the words issued before leave them (R52). -/
def copyAccOp (op : MOp) (h : Hdr) (b : MBody) (add : Bool) : Operation := fun s =>
  let a := Opd.accNum b.a
  let d := Opd.accNum b.d
  let init := !add || !(s.t.accView d).1
  let mode := if init then s.t.modeAt (s.coreAt s.core).acm a (Nat.max s.t.ctx.sclk s.t.mEnd) else (s.t.accView a).2
  mIssue h (op.instr h b) .rne
    { busy := 8, lat := 12, rd := [accRange a], wr := [accRange d], acc := some (d, mode), vals := [b2n init, b2n mode] }
    (s.t.modeCheck d init (s.t.accView a).2) s

/-- `mtld` and `mtst` (R196). -/
def tileMoveOp (op : MOp) (h : Hdr) (b : MBody) (load : Bool) : Operation := fun s =>
  let slot := if load then 0 else 3
  let ro := if load then b.a else b.d
  let t := s.t.tile (if load then b.d else b.a)
  match s.t.regionCheck [(slot, ro)] fun _ ty => ty == .n8 with
  | .error x => .error x
  | .ok _ =>
    let r := rgn (s.t.desc ro)
    if r.stride != 1 || (t.ok && decide (r.count < t.bytes)) then trapStop (trapIL 6 slot)
    else
      let busy := ceilDiv t.bytes 2048
      mIssue h (op.instr h b) .rne
        { busy := busy, lat := 4 + busy, rgns := if t.ok then [(r, t.bytes, load)] else []
          rd := if load then [] else [t.range], wr := if load then [t.range] else []
          vals := [s.t.desc ro, (vget s.t.ctx.tcfg t.n 0).toNat] }
        (tileCheck t.ok t.n) s

/-! What each form does at its start (R181). -/

/-- Accumulator elements as a drain reads them, converted once into a type. -/
def State.drained (s : State) (a : Nat) (ty : Ty) (rnd : Rnd) (cells : List (Nat × Nat × Nat)) : List (Nat × Nat) :=
  let m := accM (s.coreAt s.core).acm a
  cells.map fun c => accOut m ty rnd c.2.2 (s.accCode a c.1 c.2.1)

/-- The exact values of rows of an accumulator. -/
def State.accReals (s : State) (a rows : Nat) : List (List XReal) :=
  (List.range rows).map fun i => (List.range 128).map fun j =>
    accX (accM (s.coreAt s.core).acm a) (s.accCode a i j)

/-- The effects that a timed word delivers and the flags it has found at its start. -/
def State.mEffs (s : State) (op : MOp) (b : MBody) (m : MPend) : List Eff × Nat :=
  let td := m.tiles b
  match op with
  | .mmi | .mma | .gmmi | .gmma => (s.macStart m b, 0)
  | .mmih | .mmah | .gmmih | .gmmah => ([], 0)
  | .mhad =>
    intoTile td.2 b.rnd m.draws ((List.range td.1.rows).map fun i => hadRow (hadSize b) (hadShift b) (s.tileReals td.1 i))
  | .mtrn =>
    ((List.range td.2.rows).flatMap fun j =>
      td.2.rowEffs j ((List.range td.2.cols).map fun i => s.tileCode s.core td.1 i j), 0)
  | .mtcv => intoTile td.2 b.rnd m.draws ((List.range td.1.rows).map fun i => s.tileReals td.1 i)
  | .mqnt =>
    let r := intoBlocks ((Ty.ofCode (b.mx.toNat % 32)).getD .i8) b.rnd (m.vals.getD 2 1) td.1.cols m.draws
      ((List.range td.1.rows).map fun i => s.tileReals td.1 i)
    ([.store (rgn (m.vals.getD 1 0)).base r.1], r.2)
  | .mhadq =>
    let r := intoBlocks ((Ty.ofCode (m.vals.getD 3 0)).getD .i8) b.rnd (m.vals.getD 2 1) td.1.cols m.draws
      ((List.range td.1.rows).map fun i => hadRow (hadSize b) (hadShift b) (s.tileReals td.1 i))
    ([.store (rgn (m.vals.getD 1 0)).base r.1], r.2)
  | .mdrb =>
    let r := intoBlocks ((Ty.ofCode (b.mx.toNat % 32)).getD .i8) b.rnd (m.vals.getD 1 1) 128 m.draws
      (s.accReals (Opd.accNum b.a) (m.vals.getD 2 0))
    ([.store (rgn (m.vals.getD 0 0)).base r.1], r.2)
  | .mdrt =>
    let c := 32 * bits b.mx.toNat 1 0
    let out := (List.range td.2.rows).map fun i =>
      s.drained (Opd.accNum b.a) td.2.ty b.rnd
        ((List.range td.2.cols).map fun j => (i, c + j, m.draws.getD (i * td.2.cols + j) 0))
    (out.zipIdx.flatMap fun r => td.2.rowEffs r.2 (r.1.map Prod.fst), out.foldl (fun f r => r.foldl (fun f x => fOr f x.2) f) 0)
  | .mdrs =>
    let d := rgn (m.vals.getD 0 0)
    let n := 128 * bits b.mx.toNat 5 0
    let out := s.drained (Opd.accNum b.a) d.ty b.rnd
      ((List.range d.count).map fun i => ((n + i) / 128, (n + i) % 128, m.draws.getD i 0))
    (out.zipIdx.map fun x => d.put x.2 x.1.1, out.foldl (fun f x => fOr f x.2) 0)
  | .mclr =>
    match b.d with
    | .acc n => ([.store (accAt n.val 0 0) (List.replicate 65536 0), .accBits n true (bit b.mx.toNat 0) true], 0)
    | _ => ([], 0)
  | .macpCpy | .macpAdd =>
    let xs := (List.range 64).flatMap fun i => (List.range 128).map fun j => s.accCode (Opd.accNum b.a) i j
    let mode := m.vals.getD 1 0 == 1
    match b.d with
    | .acc n =>
      if m.vals.getD 0 0 = 1 then
        ([.store (accAt n.val 0 0) (xs.flatMap (leBytes 8)), .accBits n true mode false], 0)
      else ([.macpAdd n mode xs], 0)
    | _ => ([], 0)
  | .mtld =>
    let t := tileOf (Opd.tileNum b.d) (m.vals.getD 1 0)
    ([.store t.base (s.spadBytes_ (rgn (m.vals.getD 0 0)).base t.bytes)], 0)
  | .mtst =>
    let t := tileOf (Opd.tileNum b.a) (m.vals.getD 1 0)
    ([.store (rgn (m.vals.getD 0 0)).base (s.bytes .chip (chipAddr s.core t.base) t.bytes)], 0)

/-- The elements that `mdrt.clr` clears at its start (R195). -/
def State.mClear (s : State) (op : MOp) (b : MBody) (m : MPend) : State :=
  if op = .mdrt ∧ bit b.mx.toNat 2 then
    let t := (m.tiles b).2
    (List.range t.rows).foldl
      (fun s i => s.chipWrite s.core (accAt (Opd.accNum b.a) i (32 * bits b.mx.toNat 1 0)) (List.replicate (8 * t.cols) 0)) s
  else s

/-- The start of the timed word that is due: it reads, and its result is set to be delivered. -/
def State.mStart (s : State) : State :=
  match s.t.mpend with
  | [] => s
  | m :: r =>
    match m.instr.view with
    | some (.m op _ b) =>
      let e := s.mEffs op b m
      (s.mClear op b m).upd fun t =>
        { t with mpend := r
                 pend := t.pend ++ [{ id := 0, seq := m.seq, kind := .matrix, due := m.deliver, effs := e.1, flags := e.2
                                      spost := m.spost }] }
    | _ => s.upd fun t => { t with mpend := r }

/-! The instructions. -/

/-- `mmi` (R184). -/
def execMmi (h : Hdr) (b : MBody) : State → Host.Outcome State Fault Refusal := issueM .mmi h b (macOp .mmi false true h b)

/-- `mma` (R184). -/
def execMma (h : Hdr) (b : MBody) : State → Host.Outcome State Fault Refusal := issueM .mma h b (macOp .mma false false h b)

/-- `mmih` (R184, R190): served by `handleWordServe`. -/
def execMmih (h : Hdr) (b : MBody) : State → Host.Outcome State Fault Refusal :=
  issueM .mmih h b (handleOp .mmih false true h b)

/-- `mmah` (R184, R190). -/
def execMmah (h : Hdr) (b : MBody) : State → Host.Outcome State Fault Refusal :=
  issueM .mmah h b (handleOp .mmah false false h b)

/-- `gmmi` (R192). -/
def execGmmi (h : Hdr) (b : MBody) : State → Host.Outcome State Fault Refusal := issueM .gmmi h b (macOp .gmmi true true h b)

/-- `gmma` (R192). -/
def execGmma (h : Hdr) (b : MBody) : State → Host.Outcome State Fault Refusal := issueM .gmma h b (macOp .gmma true false h b)

/-- `gmmih` (R192). -/
def execGmmih (h : Hdr) (b : MBody) : State → Host.Outcome State Fault Refusal :=
  issueM .gmmih h b (handleOp .gmmih true true h b)

/-- `gmmah` (R192). -/
def execGmmah (h : Hdr) (b : MBody) : State → Host.Outcome State Fault Refusal :=
  issueM .gmmah h b (handleOp .gmmah true false h b)

/-- Whether two tiles have one shape. -/
def sameShape (a d : Tile) : Bool := a.rows == d.rows && a.cols == d.cols

/-- `mhad` (R193). -/
def execMhad (h : Hdr) (b : MBody) : State → Host.Outcome State Fault Refusal :=
  issueM .mhad h b (tileToTile .mhad h b (fun a d => tileCheck (sameShape a d && a.cols % hadSize b == 0) a.n) true)

/-- `mtrn` (R193): bit for bit. -/
def execMtrn (h : Hdr) (b : MBody) : State → Host.Outcome State Fault Refusal :=
  issueM .mtrn h b
    (tileToTile .mtrn h b (fun a d => tileCheck (d.rows == a.cols && d.cols == a.rows && d.ty == a.ty) d.n) false)

/-- `mtcv` (R193). -/
def execMtcv (h : Hdr) (b : MBody) : State → Host.Outcome State Fault Refusal :=
  issueM .mtcv h b (tileToTile .mtcv h b (fun a d => tileCheck (sameShape a d) d.n) true)

/-- `mqnt` (R194). -/
def execMqnt (h : Hdr) (b : MBody) : State → Host.Outcome State Fault Refusal :=
  issueM .mqnt h b (mOperands .mqnt h b fun vs s =>
    let ta := s.t.tile b.a
    let kb := vs.getD 1 0
    blockOp .mqnt h b (b.mx.toNat % 32) kb 1 ta.rows ta.cols true [ta.range] (tileCheck ta.ok ta.n)
      [(vget s.t.ctx.tcfg ta.n 0).toNat, s.t.desc b.d, kb] s)

/-- `mhadq` (R194). -/
def execMhadq (h : Hdr) (b : MBody) : State → Host.Outcome State Fault Refusal :=
  issueM .mhadq h b (mOperands .mhadq h b fun vs s =>
    let ta := s.t.tile b.a
    let kb := vs.getD 1 0
    let fmt := vs.getD 2 0 % 32
    blockOp .mhadq h b fmt kb 1 ta.rows ta.cols true [ta.range] (tileCheck (ta.ok && ta.cols % hadSize b == 0) ta.n)
      [(vget s.t.ctx.tcfg ta.n 0).toNat, s.t.desc b.d, kb, fmt] s)

/-- `mdrb` (R194). -/
def execMdrb (h : Hdr) (b : MBody) : State → Host.Outcome State Fault Refusal :=
  issueM .mdrb h b (mOperands .mdrb h b fun vs s =>
    let a := Opd.accNum b.a
    let kb := vs.getD 1 0
    let rows := vs.getD 2 0
    blockOp .mdrb h b (b.mx.toNat % 32) kb 1 rows 128 (decide (1 ≤ rows) && decide (rows ≤ 64))
      [(accAt a 0 0, accAt a rows 0)] (.ok ()) [s.t.desc b.d, kb, rows] s)

/-- `mdrt` (R195). -/
def execMdrt (h : Hdr) (b : MBody) : State → Host.Outcome State Fault Refusal := issueM .mdrt h b (drainTileOp h b)

/-- `mdrs` (R195). -/
def execMdrs (h : Hdr) (b : MBody) : State → Host.Outcome State Fault Refusal := issueM .mdrs h b (drainRegionOp h b)

/-- `mclr` (R196). -/
def execMclr (h : Hdr) (b : MBody) : State → Host.Outcome State Fault Refusal := issueM .mclr h b (clearOp h b)

/-- `macp.cpy` (R196). -/
def execMacpCpy (h : Hdr) (b : MBody) : State → Host.Outcome State Fault Refusal :=
  issueM .macpCpy h b (copyAccOp .macpCpy h b false)

/-- `macp.add` (R196). -/
def execMacpAdd (h : Hdr) (b : MBody) : State → Host.Outcome State Fault Refusal :=
  issueM .macpAdd h b (copyAccOp .macpAdd h b true)

/-- `mtld` (R196). -/
def execMtld (h : Hdr) (b : MBody) : State → Host.Outcome State Fault Refusal := issueM .mtld h b (tileMoveOp .mtld h b true)

/-- `mtst` (R196). -/
def execMtst (h : Hdr) (b : MBody) : State → Host.Outcome State Fault Refusal := issueM .mtst h b (tileMoveOp .mtst h b false)

end Sys2Proof.Machine
end

