-- ==== Sys2Proof/Machine/Copy.lean ====
section
/-! DEFINITION. Class C: copies, fetches, gathers, weight streams and handles (R197 to R214). A word's meaning is its
issue; the accesses themselves are `accessPerform`'s. -/

set_option linter.unusedVariables false

namespace Sys2Proof.Machine

/-! Operands (R197). -/

/-- The operands of a C word in slot order, an immediate zero-extended; slot D is read where the form uses it as a
value. -/
def cOperands (f : CForm) (h : Hdr) (b : CBody) (k : List Nat → Operation) : Operation := fun s =>
  let imm : Word := b.imm.setWidth 64
  let use (st : OpSet) (o : Opd) : Opd := match st with | .sc => o | .nv => o | _ => .zero
  let d : Opd := if f.flag && b.fw then b.d else use f.d b.d
  match s.t.readOpds .c imm [(use f.a b.a, h.peekA), (use f.b b.b, h.peekB), (use f.c b.c, h.peekC), (d, h.peekD)] with
  | .error x => .error x
  | .ok (vs, t1) => k (vs.map BitVec.toNat) (s.setStrand s.cur t1)

/-- A C word issued. -/
def issueC (op : COp) (h : Hdr) (b : CBody) (k : List Nat → Operation) (s : State) : Host.Outcome State Fault Refusal :=
  .next (s.issue (.c op h b) (cOperands op.form h b k))

/-- The translation at issue of the first and the last byte of a range (R199, R352). -/
def State.rangeTranslate (s : State) (e n : Nat) (write : Bool) : Except Stop Unit :=
  if n = 0 then .ok ()
  else
    match placeOf s.dev.pkg s.core e, placeOf s.dev.pkg s.core (e + n - 1) with
    | .va a, .va z =>
      match s.translate a write (pathOf e) with
      | .error x => .error x
      | .ok _ => match s.translate z write (pathOf e) with | .error x => .error x | .ok _ => .ok ()
    | _, _ => .ok ()

/-- Both checks of a range, in the order of R122: the checks first, then the translation. -/
structure Range where
  e : Nat
  n : Nat
  kind : AccKind
  deriving DecidableEq, Repr

/-- Whether the ends of a range that lie among a window's registers fall on whole registers (R237). -/
def State.wholeRegisters (s : State) (r : Range) : Bool :=
  let reg (e : Nat) : Bool := match winKey s.dev.pkg s.core e with | some k => decide (0x130000 ≤ k % 2 ^ 21) | none => false
  r.n == 0 || ((!reg r.e || r.e % 8 == 0) && (!reg (r.e + r.n - 1) || (r.e + r.n) % 8 == 0))

/-- The checks of a range, in the order of R122; of no bytes, none. -/
def State.rangeFails (s : State) (r : Range) (slot : Nat) : Except Stop Unit :=
  match s.rangeCheck r.e r.n r.kind with
  | .error e => .error e
  | .ok _ => check (s.wholeRegisters r) (trapAF 4 slot)

/-- The checks of ranges; the operands' slots count from A. Of two operands that fail, the trap table's order decides (R34, R199). -/
def State.rangesCheck (s : State) (rs : List Range) : Except Stop Unit :=
  firstOf (rs.zipIdx.map fun x => s.rangeFails x.1 x.2)

def State.rangesTranslate (s : State) (rs : List Range) : Except Stop Unit :=
  allOf (rs.map fun r => s.rangeTranslate r.e r.n (r.kind != .read))

/-- A command of count 0 (R199): it completes at issue with its flag write, its identifier taken and counted done. Its flag word is
its footprint (R204), so its TRK is one, and it is free again at once. -/
def finishNow (h : Hdr) (b : CBody) (flag : Option (Nat × Nat)) (size : Nat) : Operation := fun s =>
  match s.t.footGate s.core h.trk.val (flagRange s.core flag size) with
  | .error e => .error e
  | .ok (slot, hints) =>
    let s0 := s.upd fun t => { t with hmis := t.hmis + BitVec.ofNat 64 hints }
    let x := s0.takeXid b.ch.val
    let s1 := x.2.updCore s.core fun k => { k with chans := mset b.ch.val ((x.2.chan s.core b.ch.val).complete x.1) k.chans }
    .ok { trk := slot != 0, s := match flag with | some (a, v) => s1.chipWrite s.core a (leBytes size v) | none => s1 }

/-- A command over checked ranges: a count of 0, or its issue. -/
def rangeCommand (h : Hdr) (b : CBody) (flag : Option (Nat × Nat)) (size n : Nat) (rs : List Range) (a : Async) :
    Operation := fun s =>
  if n = 0 then finishNow h b flag size s
  else
    let edge := rs.any fun r => r.kind != .read && s.reachesOut r.e r.n
    let fp := (rs.flatMap fun r => footRange s.core r.e r.n (r.kind != .read)) ++ a.fp ++ flagRange s.core flag size
    issueGated h
      { a with eng := .c, cls := b.oc.val, chan := some b.ch.val, flag := flag
               fp := fp
               level := (rs.map fun r => s.windowLevel r.e).foldl Nat.min 5 }
      (fun s => if edge then s.markEdge else s) fp (s.rangesTranslate rs) s

/-- The largest byte count (R199). -/
def maxCount : Nat := 2 ^ 32 - 1

/-! Copies (R206 to R208). -/

/-- `cpy` once its operands are read. -/
def copyOp (h : Hdr) (b : CBody) (vs : List Nat) : Operation := fun s =>
  let dst := vs.getD 0 0
  let src := vs.getD 1 0
  let n := vs.getD 2 0
  if maxCount < n then trapStop (trapIL 6 2)
  else
    let rs : List Range := [⟨dst, n, .write⟩, ⟨src, n, .read⟩]
    match firstOf [s.rangesCheck rs, flagCheck b.fw (vs.getD 3 0) 4] with
    | .error x => .error x
    | .ok _ =>
      rangeCommand h b (flagOf b.fw (vs.getD 3 0)) 4 n rs
        { id := 0, seq := 0, eng := .c, cls := 0, instr := .cpy h b, rd := pieces 0 0 src n, wr := pieces 0 0 dst n
          buf := unread n } s

/-- `cfill` once its operands are read. -/
def fillOp (h : Hdr) (b : CBody) (vs : List Nat) : Operation := fun s =>
  let dst := vs.getD 0 0
  let n := vs.getD 2 0
  if maxCount < n then trapStop (trapIL 6 2)
  else
    let rs : List Range := [⟨dst, n, .write⟩]
    match firstOf [s.rangesCheck rs, flagCheck b.fw (vs.getD 3 0) 4] with
    | .error x => .error x
    | .ok _ =>
      rangeCommand h b (flagOf b.fw (vs.getD 3 0)) 4 n rs
        { id := 0, seq := 0, eng := .c, cls := 0, instr := .cfill h b, wr := pieces 0 0 dst n
          buf := (List.range n).map fun i => bits (vs.getD 1 0) (8 * (i % 8) + 7) (8 * (i % 8)) } s

/-- The range of rows, as the check sees it: of a hull that falls below its path's address 0, a range that no path
holds. -/
def rowsRange (e rows b : Nat) (pitch : Int) (k : AccKind) : Range :=
  let r := rowsHull (lowAddr e) rows b pitch
  if r.1 < 0 then ⟨e, 2 ^ 60, k⟩ else ⟨e - lowAddr e + r.1.toNat, r.2, k⟩

/-- `cprm` once its operands are read (R207). The path and the low bits of a row's address move together. -/
def permuteOp (h : Hdr) (b : CBody) (vs : List Nat) : Operation := fun s =>
  let dst := vs.getD 0 0
  let src := vs.getD 1 0
  let rows := bits (vs.getD 2 0) 63 32
  let n := bits (vs.getD 2 0) 31 0
  let dp := sext 32 (bits (vs.getD 3 0) 63 32)
  let sp := sext 32 (bits (vs.getD 3 0) 31 0)
  if 65535 < rows then trapStop (trapIL 6 2)
  else
    let empty := rows = 0 ∨ n = 0
    let hull (e : Nat) (p : Int) (k : AccKind) : Range := if empty then ⟨e, 0, k⟩ else rowsRange e rows n p k
    let rs := [hull dst dp .write, hull src sp .read]
    match s.rangesCheck rs with
    | .error x => .error x
    | .ok _ =>
      rangeCommand h b none 4 (if empty then 0 else n) rs
        { id := 0, seq := 0, eng := .c, cls := 0, instr := .cprm h b
          rd := (List.range rows).flatMap fun (r : Nat) => pieces r (r * n) (moveAddr src ((r : Int) * sp)) n
          wr := (List.range rows).flatMap fun (r : Nat) => pieces r (r * n) (moveAddr dst ((r : Int) * dp)) n
          buf := unread (rows * n) } s

/-! Tile fetches (R209, R210). -/

/-- The rounding mode in CX[9:7]. -/
def cxRnd (b : CBody) : Rnd := (Rnd.ofCode (bits b.cx.toNat 9 7)).getD .rne

/-- What `cpt` and `cpf` issue: `follow` gives the follow-on word's checks, values, footprint and effect on the
accumulator's bits. -/
structure Follow where
  checks : Except Stop Unit := .ok ()
  vals : List Nat := []
  fp : List FpRange := []
  acc : Option (Nat × Bool) := none

/-- `cpt` and `cpf` once the origin and the flag operand are read. -/
def fetchOp (i : Instr) (h : Hdr) (b : CBody) (fo : Follow) (vs : List Nat) : Operation := fun s =>
  let td := s.t.tile b.a
  let rows := bits b.cx.toNat 6 0 + 1
  let org := originOf (vs.getD 2 0)
  let flag := flagOf b.fw (vs.getD 3 0)
  match firstOf [flagCheck b.fw (vs.getD 3 0) 4, fo.checks, tileCheck td.ok td.n, tileCheck (decide (rows ≤ td.rows)) td.n] with
  | .error x => .error x
  | .ok _ =>
    match s.handleCheck b.imm.toNat (pairsWith td.ty td.n) 1 with
    | .error x => .error x
    | .ok r =>
      let plain := pathOf r.base ≠ 2
      if plain ∧ bits b.cx.toNat 9 7 ≠ 0 then trapStop (trapIL 6 7)
      else if plain ∧ r.ty ≠ td.ty then trapStop (trapTS td.n)
      else
        let rd := r.fetch rows org.2.1 org.2.2 td.cols
        let d := s.recordTaken.draw (cxRnd b) (if plain then 0 else rows * td.cols)
        issueCommand h
          { id := 0, seq := 0, eng := .c, cls := b.oc.val, instr := i, chan := some b.ch.val, flag := flag
            vals := [rows, (vget s.t.ctx.tcfg td.n 0).toNat, wrap 64 org.2.2, r.base, r.fmt, r.kblk, r.ndim, b2n r.edge,
              r.n.getD 0 1] ++ fo.vals
            draws := d.1, rd := rd, buf := unread ((rd.map Piece.len).sum), posted := r.posted rows td.cols
            fp := fetchHull s.core rd ++ [winRange s.core td.range.1 td.range.2 true] ++ fo.fp ++ flagRange s.core flag 4
            level := 1 }
          (fun s => match fo.acc with
            | some a => s.upd fun t => { t with accIss := t.accIss.set a.1 (true, a.2) }
            | none => s) d.2

/-- The follow-on word as an M word (R210). -/
def followBody (fo : FollowOn) : MBody :=
  { g := .always, a := .t fo.ta, b := .t fo.tb, c := .zero, d := .acc fo.acc, mx := 0, rnd := .rne, hnd := 0 }

/-- What the follow-on word adds to its `cpf` (R210, R185, R186). -/
def State.follow (s : State) (fo : FollowOn) : Follow :=
  let t := s.t
  let b := followBody fo
  let ta := t.tile b.a
  let tb := t.tile b.b
  let a := fo.acc.val
  let p := (pairing ta.ty tb.ty).getD ⟨false, false, 1⟩
  let init := !fo.mma || !(t.accView a).1
  { checks := allOf [tilesCheck ta tb, t.modeCheck a init p.intMode]
    vals := [(vget t.ctx.tcfg ta.n 0).toNat, (vget t.ctx.tcfg tb.n 0).toNat, b2n init, b2n p.intMode,
      Nat.max (t.accPending a) t.lastTimed]
    fp := [winRange s.core ta.range.1 ta.range.2 false, winRange s.core tb.range.1 tb.range.2 false,
      winRange s.core (accRange a).1 (accRange a).2 true]
    acc := some (a, p.intMode) }

/-! Gathers and scatters (R211, R212). -/

/-- Every index word lies in scratchpad and in the strand's reach (R244): the command reads them as window accesses. -/
def State.indexesOk (s : State) (x : Rgn) (n : Nat) : Bool :=
  (List.range n).all fun i =>
    let p := x.span i
    decide (0 ≤ p.1) && decide (p.2 ≤ spadBytes) && s.windowOk (3 * 2 ^ 60 + p.1.toNat) 4 .read

/-- `gth` and `sct` once their operands are read. -/
def indexedOp (i : Instr) (gather : Bool) (h : Hdr) (b : CBody) (vs : List Nat) : Operation := fun s =>
  match s.t.regionCheck [(2, b.c)] fun _ ty => ty == .n32 with
  | .error x => .error x
  | .ok _ =>
    let x := rgn (s.t.desc b.c)
    let z := 2 ^ bits b.cx.toNat 2 0
    let bound := b.imm.toNat
    let n := x.count
    let dst := vs.getD 0 0
    let src := vs.getD 1 0
    let rs : List Range :=
      if gather then [⟨dst, n * z, .write⟩, ⟨src, bound * z, .read⟩] else [⟨dst, bound * z, .write⟩, ⟨src, n * z, .read⟩]
    let al := Nat.min z 8
    match firstOf [s.rangesCheck rs, check (dst % al == 0) (trapAF 4 0), check (src % al == 0) (trapAF 4 1),
        check (s.indexesOk x n) (trapAF 3 3), flagCheck b.fw (vs.getD 3 0) 8] with
    | .error e => .error e
    | .ok _ =>
      rangeCommand h b (flagOf b.fw (vs.getD 3 0)) 8 n rs
        { id := 0, seq := 0, eng := .c, cls := 0, instr := i, vals := [dst, src, z, bound], regs := [s.t.desc b.c]
          idx := List.range n, buf := unread (n * z)
          fp := [winRange s.core (x.hull n).1 (x.hull n).2 false] } s

/-! Weight streams (R213). -/

/-- `wstr` once its operands are read. -/
def streamWeights (h : Hdr) (b : CBody) (vs : List Nat) : Operation := fun s =>
  let src := vs.getD 1 0
  let lim := vs.getD 2 0
  let td := s.t.tile b.a
  if maxCount < lim then trapStop (trapIL 6 2)
  else
    match firstOf [s.pathCheck src (Nat.max lim 1) .read [1], flagCheck b.fw (vs.getD 3 0) 4, tileCheck td.ok td.n] with
    | .error x => .error x
    | .ok _ =>
      let d := s.draw (cxRnd b) (td.rows * td.cols)
      let flag := flagOf b.fw (vs.getD 3 0)
      let fp := winRange s.core td.range.1 td.range.2 true :: flagRange s.core flag 4
      issueGated h
        { id := 0, seq := 0, eng := .c, cls := b.oc.val, instr := .wstr h b, chan := some b.ch.val, flag := flag
          vals := [src, lim, (vget s.t.ctx.tcfg td.n 0).toNat], draws := d.1
          fp := fp, level := 1 } id fp (s.rangeTranslate src lim false) d.2

/-! Handles (R214). -/

/-- The slot operand of `hbind` and `hfree`. -/
def State.slotCheck (s : State) (v : Nat) : Except Stop Nat :=
  if v / 2 ^ 20 ≠ 0 ∨ (s.vf s.t.vf).ltl ≤ v % 2 ^ 20 then trapStop (trapHF 2 (v % 65536)) else .ok (v % 2 ^ 20)

/-- `hbind` once its operands are read: the image is read and the record written by its accesses. -/
def bindOp (h : Hdr) (b : CBody) (vs : List Nat) : Operation := fun s =>
  let img := vs.getD 0 0
  match b.d with
  | .q q =>
    match s.pushLater q 64 with
    | .error x => .error x
    | .ok (l, s1) =>
      match s.pathCheck img 64 .read [3] with
      | .error x => .error x
      | .ok _ =>
        if img % 64 ≠ 0 then trapStop (trapAF 4 0)
        else
          match s.slotCheck (vs.getD 1 0) with
          | .error x => .error x
          | .ok slot =>
            issueCommand h
              { id := 0, seq := 0, eng := .c, cls := b.oc.val, instr := .hbind h b, chan := some b.ch.val, land := some l
                vals := [slot], rd := pieces 0 0 img 64, buf := unread 64, fp := footRange s.core img 64 false
                level := s.addrLevel (bits ((s.vf s.t.vf).ltb + 64 * slot) 47 0) true }
              State.markEdge s1
  | _ => .ok { s := s }

/-- `hfree` once its operand is read. -/
def freeOp (h : Hdr) (b : CBody) (vs : List Nat) : Operation := fun s =>
  match s.slotCheck (vs.getD 0 0) with
  | .error x => .error x
  | .ok slot =>
    issueCommand h
      { id := 0, seq := 0, eng := .c, cls := 0, instr := .hfree h b, chan := some b.ch.val, vals := [slot]
        level := s.addrLevel (bits ((s.vf s.t.vf).ltb + 64 * slot) 47 0) true }
      State.markEdge s

/-! The instructions. -/

/-- `cpy` (R206, R208). -/
def execCpy (h : Hdr) (b : CBody) : State → Host.Outcome State Fault Refusal := issueC .cpy h b (copyOp h b)

/-- `cfill` (R206). -/
def execCfill (h : Hdr) (b : CBody) : State → Host.Outcome State Fault Refusal := issueC .cfill h b (fillOp h b)

/-- `cprm` (R207). -/
def execCprm (h : Hdr) (b : CBody) : State → Host.Outcome State Fault Refusal := issueC .cprm h b (permuteOp h b)

/-- `cpt` (R209). -/
def execCpt (h : Hdr) (b : CBody) : State → Host.Outcome State Fault Refusal := issueC .cpt h b (fetchOp (.cpt h b) h b {})

/-- `cpf` and its follow-on word (R98, R210). -/
def execCpf (h : Hdr) (b : CBody) (fo : FollowOn) : State → Host.Outcome State Fault Refusal := fun s =>
  .next (s.issueOn (.cpf h b fo) .c 2
    (cOperands cpfForm h b fun vs s => fetchOp (.cpf h b fo) h b (s.follow fo) vs s))

/-- `gth` (R211). -/
def execGth (h : Hdr) (b : CBody) : State → Host.Outcome State Fault Refusal :=
  issueC .gth h b (indexedOp (.gth h b) true h b)

/-- `sct` (R211). -/
def execSct (h : Hdr) (b : CBody) : State → Host.Outcome State Fault Refusal :=
  issueC .sct h b (indexedOp (.sct h b) false h b)

/-- `wstr` (R213). -/
def execWstr (h : Hdr) (b : CBody) : State → Host.Outcome State Fault Refusal := issueC .wstr h b (streamWeights h b)

/-- `hbind` (R214). -/
def execHbind (h : Hdr) (b : CBody) : State → Host.Outcome State Fault Refusal := issueC .hbind h b (bindOp h b)

/-- `hfree` (R214). -/
def execHfree (h : Hdr) (b : CBody) : State → Host.Outcome State Fault Refusal := issueC .hfree h b (freeOp h b)

end Sys2Proof.Machine
end

