-- ==== Sys2Proof/Machine/Rows.lean ====
section
/-! DEFINITION. Class C: quoins (R215 to R219) and scan units (R220 to R222). A word's meaning is its issue; what a
command does when it is carried out is `accessPerform`'s. -/

set_option linter.unusedVariables false

namespace Sys2Proof.Machine

/-! Quoin addresses (R215). -/

structure Quoin where
  ch : Nat
  /-- The bank number 0 to 15: bank group in its low two bits. -/
  bank : Nat
  row : Nat
  deriving DecidableEq, Repr

def quoinOf (v : Nat) : Quoin := { ch := bits v 8 0, bank := bits v 12 9, row := bits v 47 16 }

/-- The physical address of a byte of a row (R364). -/
def Quoin.pa (q : Quoin) (o : Nat) : Nat := channelAddr q.ch (q.row * 2 ^ 15 + q.bank * 2 ^ 11 + o)

/-- The path under which pieces name stack bytes. -/
def stackPath (pa : Nat) : Nat := 15 * 2 ^ 60 + pa

/-- A strand's quota on a channel. -/
def Strand.quota (t : Strand) (ch : Nat) : Nat := (mget ch t.quotas).getD 0

/-- `IL 6` for a channel without quota (R215). -/
def Strand.channelCheck (t : Strand) (ch : Nat) : Except Stop Unit := check (t.quota ch != 0) (trapIL 6 8)

/-- The checks of a quoin address. -/
def Strand.quoinCheck (t : Strand) (q : Quoin) : Except Stop Unit :=
  match t.channelCheck q.ch with
  | .error x => .error x
  | .ok _ => check (decide (q.row < bankRows)) (trapAF 3 0)

/-- The quoin that a row command of the strand names. -/
def Async.quoin (a : Async) : Quoin := quoinOf (a.vals.getD 0 0)

/-- The strand's pin of a row. -/
def Strand.pinOf (t : Strand) (q : Quoin) : Option Pin :=
  t.pins.find? fun p => p.ch == q.ch && p.bank == q.bank && p.row == q.row

/-- The quoin address of a pin. -/
def Pin.quoin (p : Pin) : Nat := p.row * 2 ^ 16 + p.bank * 2 ^ 9 + p.ch

def Async.isPin (a : Async) : Bool := match a.instr with | .rowpin _ _ => true | _ => false

/-- Rows that the strand pins or has asked to pin, by quoin (R216). -/
def Strand.pinned (t : Strand) : List Quoin :=
  (t.pins.map fun p => ⟨p.ch, p.bank, p.row⟩) ++ (t.asyncs.filter fun a => a.isPin && !a.performed).map Async.quoin

/-- The quota and bank rules of `rowpin` (R216). -/
def Strand.pinCheck (t : Strand) (q : Quoin) : Except Stop Unit :=
  let ps := t.pinned
  if ps.contains q then .ok ()
  else
    check (decide ((ps.filter fun p => p.ch == q.ch).length < t.quota q.ch) &&
      !ps.any fun p => p.ch == q.ch && p.bank == q.bank) (trapIL 6 8)

/-- The narrowest scope that holds a channel (R255). -/
def stackLevel (core ch : Nat) : Nat := if ch / 128 = core / 64 then 3 else 4

/-- A row command without data (R216). -/
def rowOp (i : Instr) (h : Hdr) (b : CBody) (own : Strand → Quoin → Except Stop Unit) (vs : List Nat) : Operation := fun s =>
  let q := quoinOf (vs.getD 0 0)
  match s.t.channelCheck q.ch with
  | .error x => .error x
  | .ok _ =>
    match own s.t q with
    | .error x => .error x
    | .ok _ =>
      match s.t.quoinCheck q with
      | .error x => .error x
      | .ok _ =>
        issueCommand h
          { id := 0, seq := 0, eng := .c, cls := 0, instr := i, chan := some b.ch.val, vals := [vs.getD 0 0]
            level := stackLevel s.core q.ch } id s

/-- The span operand: offset and byte count, `IL 6` for any other (R217). -/
def spanOk (v : Nat) : Bool :=
  let o := bits v 15 0
  let n := bits v 31 16
  decide (1 ≤ n) && decide (o + n ≤ 2048)

/-- The latency of a `rowrd` (R217). -/
def rowLatency (core ch n : Nat) : Nat := (if ch / 32 / 4 = core / 64 then 96 else 160) + ceilDiv n 64

/-- `rowrd` once its operands are read (R217, R141): a timed write of scratchpad at the start of strand cycle k + L. -/
def rowReadOp (h : Hdr) (b : CBody) (vs : List Nat) : Operation := fun s =>
  let dst := vs.getD 0 0
  let q := quoinOf (vs.getD 1 0)
  let o := bits (vs.getD 2 0) 15 0
  let n := bits (vs.getD 2 0) 31 16
  let a := bits dst 20 0
  if !spanOk (vs.getD 2 0) then trapStop (trapIL 6 2)
  else
    match s.t.channelCheck q.ch with
    | .error x => .error x
    | .ok _ =>
      match firstOf [s.pathCheck dst n .write [3], check (decide (a + n ≤ spadBytes) && s.t.ownsBytes a n) (trapAF 3 3),
          s.t.quoinCheck q] with
      | .error x => .error x
      | .ok _ =>
        match s.t.edges [winRange s.core a (a + n) true] with
        | .error x => .error x
        | .ok _ =>
          match s.t.takeSlot h.trk.val with
          | .error x => .error x
          | .ok (slot, hints) =>
            let lat := rowLatency s.core q.ch n
            let l := s.landLater lat (.row q.ch q.bank q.row)
            let due := s.t.clock + lat
            let s1 := l.2.upd fun t => { t with hmis := t.hmis + BitVec.ofNat 64 hints }
            let s2 := s1.addAsync
              { id := 0, seq := 0, eng := .c, cls := b.oc.val, instr := .rowrd h b, vals := [a], land := some l.1
                trk := slot, rd := pieces 0 0 (stackPath (q.pa o)) n, buf := unread n
                level := stackLevel s.core q.ch }
            .ok { trk := slot != 0, s := s2.upd fun t => { t with timed := t.timed ++ [timedRange a (a + n) due true] } }

/-- `rowwr` once its operands are read (R217): the source is read at issue, with its poison marks. -/
def rowWriteOp (h : Hdr) (b : CBody) (vs : List Nat) : Operation := fun s =>
  let q := quoinOf (vs.getD 0 0)
  let src := vs.getD 1 0
  let o := bits (vs.getD 2 0) 15 0
  let n := bits (vs.getD 2 0) 31 16
  if !spanOk (vs.getD 2 0) then trapStop (trapIL 6 2)
  else
    match s.t.channelCheck q.ch with
    | .error x => .error x
    | .ok _ =>
      match firstOf [s.t.quoinCheck q, s.pathCheck src n .read [3], check (s.wholeRegisters ⟨src, n, .read⟩) (trapAF 4 1),
          flagCheck b.fw (vs.getD 3 0) 4] with
      | .error x => .error x
      | .ok _ =>
        let flag := flagOf b.fw (vs.getD 3 0)
        let off := bits src 20 0
        let bad := (List.range n).filter fun i => (s.poisoned .chip (chipAddr s.core (off + i)) 1).isSome
        issueGated h
          { id := 0, seq := 0, eng := .c, cls := b.oc.val, instr := .rowwr h b, chan := some b.ch.val, flag := flag
            vals := [vs.getD 0 0], wr := pieces 0 0 (stackPath (q.pa o)) n, bad := bad
            buf := (s.windowRead s.core off n).map BitVec.toNat
            fp := flagRange s.core flag 4, level := stackLevel s.core q.ch }
          State.markEdge (winRange s.core off (off + n) false :: flagRange s.core flag 4) (.ok ()) s

/-- A command whose value is pushed (R219, R222): due k + 64, read when it is carried out. The push is checked between the channel
and the row (R40). -/
def pushOp (i : Instr) (h : Hdr) (b : CBody) (row : Bool) (vs : List Nat) : Operation := fun s =>
  let q := quoinOf (vs.getD 0 0)
  match b.d with
  | .q d =>
    match s.t.channelCheck q.ch with
    | .error x => .error x
    | .ok _ =>
      match s.pushLater d 64 with
      | .error x => .error x
      | .ok (l, s1) =>
        match if row then s.t.quoinCheck q else .ok () with
        | .error x => .error x
        | .ok _ =>
          .ok { s := s1.addAsync { id := 0, seq := 0, eng := .c, cls := 0, instr := i, vals := [vs.getD 0 0], land := some l
                                   level := stackLevel s.core q.ch } }
  | _ => .ok { s := s }

/-! Scan units (R220 to R222). -/

/-- The scan unit that a channel number names (R372). -/
def State.unit (s : State) (ch : Nat) : ScanUnit := (mget (s.dev.physCh ch) s.dev.units).getD {}

def State.setUnit (s : State) (ch : Nat) (u : ScanUnit) : State :=
  { s with dev := { s.dev with units := mset (s.dev.physCh ch) u s.dev.units } }

/-- The strand's view of a unit. -/
def Strand.scan (t : Strand) (ch : Nat) : ScanStat := (mget ch t.scans).getD {}

def Strand.setScan (t : Strand) (ch : Nat) (f : ScanStat → ScanStat) : Strand :=
  { t with scans := mset ch (f (t.scan ch)) t.scans }

/-- Whether another strand has claimed a unit. -/
def State.unitTaken (s : State) (ch : Nat) : Bool :=
  match (s.unit ch).owner with
  | some o => o.1 != s.cur
  | none => false

/-- The element types of a scan unit (R220). -/
def scanTy (n : Nat) : Ty :=
  match n with | 0 => .f32 | 1 => .f16 | 2 => .bf16 | 3 => .i32 | 4 => .i16 | _ => .i8

/-- Whether an element exceeds the threshold strictly (R221). -/
def scanHit (ty : Ty) (x thr : Nat) : Bool :=
  if ty.isInt then decide (sext ty.width thr < sext ty.width x)
  else (decode ty (thr % 2 ^ ty.width)).lt (decode ty x)

/-- `scnthr` once its operands are read (R220). -/
def thresholdOp (b : CBody) (vs : List Nat) : Operation := fun s =>
  let ch := bits (vs.getD 0 0) 8 0
  match s.t.channelCheck ch with
  | .error x => .error x
  | .ok _ =>
    if s.unitTaken ch then .ok { s := s.upd fun t => t.setScan ch fun v => { v with busy := true } }
    else
      let ty := bits b.cx.toNat 2 0
      .ok { s := s.setUnit ch { s.unit ch with ty := ty, thr := vs.getD 1 0 % 2 ^ (scanTy ty).width } }

/-- `scngo` once its operands are read (R221). -/
def scanOp (h : Hdr) (b : CBody) (vs : List Nat) : Operation := fun s =>
  let q := quoinOf (vs.getD 0 0)
  let rows := vs.getD 1 0
  let dst := vs.getD 2 0
  let cap := b.imm.toNat
  match s.t.channelCheck q.ch with
  | .error x => .error x
  | .ok _ =>
    match firstOf [s.t.quoinCheck q, check (decide (q.row + rows ≤ bankRows)) (trapAF 3 0),
        s.pathCheck dst (Nat.max 1 (8 * cap)) .write [3], check (dst % 8 == 0) (trapAF 4 2), flagCheck b.fw (vs.getD 3 0) 4] with
    | .error x => .error x
    | .ok _ =>
      let flag := flagOf b.fw (vs.getD 3 0)
      if rows = 0 then finishNow h b flag 4 s
      else
        let edge := s.reachesOut dst (8 * cap)
        issueCommand h
          { id := 0, seq := 0, eng := .c, cls := b.oc.val, instr := .scngo h b, chan := some b.ch.val, flag := flag
            vals := [vs.getD 0 0, rows, dst, cap], fp := footRange s.core dst (8 * cap) true ++ flagRange s.core flag 4
            level := 1 } (fun s => if edge then s.markEdge else s) s

/-- `scnstp` once its operand is read (R222). -/
def stopOp (vs : List Nat) : Operation := fun s =>
  let ch := bits (vs.getD 0 0) 8 0
  match s.t.channelCheck ch with
  | .error x => .error x
  | .ok _ =>
    .ok { s := if (s.t.scan ch).run then s.upd fun t => t.setScan ch fun v => { v with stop := true, halt := true } else s }

/-! The instructions. -/

/-- `rowopn` (R216). -/
def execRowopn (h : Hdr) (b : CBody) : State → Host.Outcome State Fault Refusal :=
  issueC .rowopn h b (rowOp (.rowopn h b) h b fun _ _ => .ok ())

/-- `rowpin` (R216). -/
def execRowpin (h : Hdr) (b : CBody) : State → Host.Outcome State Fault Refusal :=
  issueC .rowpin h b (rowOp (.rowpin h b) h b Strand.pinCheck)

/-- `rowrel` (R216). -/
def execRowrel (h : Hdr) (b : CBody) : State → Host.Outcome State Fault Refusal :=
  issueC .rowrel h b (rowOp (.rowrel h b) h b fun _ _ => .ok ())

/-- `rowrd` (R217). -/
def execRowrd (h : Hdr) (b : CBody) : State → Host.Outcome State Fault Refusal := issueC .rowrd h b (rowReadOp h b)

/-- `rowwr` (R217). -/
def execRowwr (h : Hdr) (b : CBody) : State → Host.Outcome State Fault Refusal := issueC .rowwr h b (rowWriteOp h b)

/-- `rowst` (R219). -/
def execRowst (h : Hdr) (b : CBody) : State → Host.Outcome State Fault Refusal :=
  issueC .rowst h b (pushOp (.rowst h b) h b true)

/-- `scnthr` (R220). -/
def execScnthr (h : Hdr) (b : CBody) : State → Host.Outcome State Fault Refusal := issueC .scnthr h b (thresholdOp b)

/-- `scngo` (R221). -/
def execScngo (h : Hdr) (b : CBody) : State → Host.Outcome State Fault Refusal := issueC .scngo h b (scanOp h b)

/-- `scnrd` (R222). -/
def execScnrd (h : Hdr) (b : CBody) : State → Host.Outcome State Fault Refusal :=
  issueC .scnrd h b (pushOp (.scnrd h b) h b false)

/-- `scnstp` (R222). -/
def execScnstp (h : Hdr) (b : CBody) : State → Host.Outcome State Fault Refusal := issueC .scnstp h b stopOp

/-- `scnst` (R222). -/
def execScnst (h : Hdr) (b : CBody) : State → Host.Outcome State Fault Refusal :=
  issueC .scnst h b (pushOp (.scnst h b) h b false)

end Sys2Proof.Machine
end

