-- ==== Sys2Proof/Machine/Net.lean ====
section
/-! DEFINITION. Class N: circuits and the reel (R225 to R229), barriers (R230), collectives (R231, R232) and their forms
(R223 to R234). -/

set_option linter.unusedVariables false

namespace Sys2Proof.Machine

/-! Circuits (R225 to R227). -/

def State.circuit (s : State) (core slot : Nat) : Circuit := (mget slot (s.coreAt core).circuits).getD {}

def State.setCircuit (s : State) (core slot : Nat) (f : Circuit → Circuit) : State :=
  s.updCore core fun k => { k with circuits := mset slot (f (s.circuit core slot)) k.circuits }

/-- A packet under way to a core's receiving end. -/
def State.flying (s : State) (core slot id : Nat) : Option Packet := (s.circuit core slot).fly.find? fun p => p.id == id

/-- The first chip cycle from `t` on at which slot `slot` opens (R226). -/
def State.opening (s : State) (slot t : Nat) : Nat :=
  let base := s.dev.reel % 768 + 3 * slot
  t + (768 + base % 768 - t % 768) % 768

/-- A packet formed among those that wait at its end, ready or not: in the order in which they were formed, but bytes of an `nput`
before the messages that its strand has issued after it (R234). -/
def queuePacket (p : Packet) : List Packet → List Packet
  | [] => [p]
  | q :: r =>
    if p.kind = 1 ∧ q.kind = 0 ∧ q.strand = p.strand ∧ p.cmd < q.cmd then p :: q :: r else q :: queuePacket p r

/-- A packet formed at a sending end: it leaves at an opening of its slot from the chip cycle on at which it is ready. -/
def State.formPacket (s : State) (core slot : Nat) (p : Packet) : State :=
  let c := s.circuit core slot
  let s1 := s.setCircuit core slot fun c => { c with wait := queuePacket { p with id := s.fresh } c.wait, armed := true }
  let s2 := s1.tick
  if c.armed then s2 else s2.schedule (s2.opening slot p.ready) (.packetDepart core slot)

/-- An N command's entry in the strand's order; `peer` is the core whose window it reaches beside its own, if any (R255). -/
def nEntry (i : Instr) (b : NBody) (h : Hdr) (level : Nat) : Async :=
  { id := 0, seq := 0, eng := .n, cls := b.oc.val, instr := i, spost := h.spost.val, level := level }

/-! Sends and receives (R228). -/

/-- Bytes of a region of STRIDE 1. -/
def Rgn.bytes (r : Rgn) : Nat := (r.count * r.size + 1) / 2

/-- The word that a send forms its packet from: the entry of its command, which makes no later access. -/
def sendPacket (i : Instr) (h : Hdr) (b : NBody) (bs : List Byte) : Operation := fun s =>
  let id := s.fresh
  let s1 := s.tick.upd fun t =>
    { t with asyncs := t.asyncs ++ [{ nEntry i b h 1 with id := id, seq := t.seq, performed := true, region := t.region }] }
  .ok { own := true
        s := (s1.formPacket s.core (NBody_cir b)
          { id := 0, kind := 0, bytes := bs, off := 0, strand := s.cur, cmd := id, last := true
            ready := s.t.wordCycle .n + 3 }).markEdge }

/-- Whether a point-to-point word, `nget` or the circuit selector of `nstat` names circuits that it may not use (R225,
R229, R233). -/
def State.circuitsBad (s : State) (op : NOp) (b : NBody) : Bool :=
  let cir := NBody_cir b
  let ret := bits b.imm.toNat 7 0
  match op with
  | .nsnd | .nput => !s.circuitOk cir false false
  | .nrcv => !s.circuitOk cir true false
  | .nget =>
    !s.circuitOk cir false false || !s.circuitOk ret true false ||
      bits (s.slotEntry s.core cir) 26 13 != bits (s.slotEntry s.core ret) 26 13
  | .xsnd => !s.circuitOk cir false true
  | .xrcv => !s.circuitOk cir true true
  | .nstat => bits b.nx.toNat 2 0 == 3 && !s.holdsEntry ret
  | _ => false

/-- An operation over circuits: `IL 6` with DETAIL 8 when one is not the word's to use. The checks of R225 are checks of the
operation, so a word whose guard is false makes none of them (R320). -/
def overCircuits (op : NOp) (b : NBody) (f : Operation) : Operation := fun s =>
  if s.circuitsBad op b then trapStop (trapIL 6 8) else f s

/-- `nsnd` and `xsnd`. -/
def sendOp (i : Instr) (h : Hdr) (b : NBody) (xpkg : Bool) : Operation := fun s =>
  let scope : Except Stop Unit := if xpkg then s.scopeCheck 5 else .ok ()
  match b.a with
  | .g n =>
    match s.t.regionCheck [(0, b.a)] fun _ _ => true with
    | .error x => .error x
    | .ok _ =>
      let r := rgn s.t.ctx.g[n].toNat
      if r.stride ≠ 1 ∨ 256 < r.bytes then trapStop (trapIL 6 0)
      else
        match s.regionGate 1 s.t.ctx.sclk [⟨r, r.count, Nat.max r.count 1, true, 0, false, 0⟩] scope with
        | .error x => .error x
        | .ok _ =>
          let bs := if r.count = 0 then [] else s.spadBytes_ (r.hull r.count).1 r.bytes
          sendPacket i h b bs s
  | _ =>
    match s.t.readOpd .n (b.imm.signExtend 64) h.peekA b.a with
    | .error x => .error x
    | .ok (v, t1) =>
      match scope with
      | .error x => .error x
      | .ok _ => sendPacket i h b (leBytes 8 v.toNat) (s.setStrand s.cur t1)

/-- `nrcv` and `xrcv`: the landing pops the circuit's oldest packet. -/
def receiveOp (i : Instr) (h : Hdr) (b : NBody) (xpkg : Bool) : Operation := fun s =>
  let scope : Except Stop Unit := if xpkg then s.scopeCheck 5 else .ok ()
  let land (vals : List Nat) (s : State) : Done :=
    { s := s.tick.upd fun t => t.addLanding
        { id := s.fresh, seq := t.seq, due := t.clock + 2, wait := .recv (NBody_cir b), arrived := false, instr := some i
          vals := vals } }
  match b.d with
  | .g n =>
    match s.t.regionCheck [(3, b.d)] fun _ _ => true with
    | .error x => .error x
    | .ok _ =>
      let d := s.t.ctx.g[n].toNat
      let r := rgn d
      if r.stride ≠ 1 then trapStop (trapIL 6 3)
      else
        match s.regionGate 1 s.t.ctx.sclk [⟨r, r.count, Nat.max r.count 1, false, 0, false, 0⟩] scope with
        | .error x => .error x
        | .ok _ =>
          let l := land [1, d] s
          .ok { l with s := l.s.upd fun t =>
            { t with timed := t.timed ++ r.timed r.count (Nat.max r.count 1) 1 (t.ctx.sclk + 2) true } }
  | .q n =>
    match s.t.reserveQ n.val s.t.seq with
    | .error x => .error x
    | .ok t1 =>
      match scope with
      | .error x => .error x
      | .ok _ => .ok (land [0, s.t.physQ n.val, s.t.seq] (s.setStrand s.cur t1))
  | _ => .ok { s := s }

/-! Puts and gets (R229). -/

/-- The scalar operands of an N word in slot order. -/
def nOperands (op : NOp) (h : Hdr) (b : NBody) (imm : Word) (k : List Nat → Operation) : Operation := fun s =>
  let f := op.form
  let use (st : OpSet) (o : Opd) : Opd := match st with | .sc => o | .nv => o | .val => o | _ => .zero
  match s.t.readOpds .n imm [(use f.a b.a, h.peekA), (use f.b b.b, h.peekB), (use f.c b.c, h.peekC)] with
  | .error x => .error x
  | .ok (vs, t1) => k (vs.map BitVec.toNat) (s.setStrand s.cur t1)

/-- What `nput` and `nget` share: checks of the local range, of the peer's and of its reach, in operand order (R229, R244). -/
def transferOp (i : Instr) (get : Bool) (h : Hdr) (b : NBody) (loc roff n : Nat) : Operation := fun s =>
  let entry := s.slotEntry s.core (NBody_cir b)
  let far := 4 * 2 ^ 60 + chipAddr (peerCore entry) roff
  let path := if 8 ≤ pathOf loc then trapAF 1 (pathOf loc) else if bits loc 59 57 ≠ 0 then trapAF 2 (pathOf loc) else trapAF 3 (pathOf loc)
  let inside := decide (roff + n ≤ spadBytes)
  match firstOf [check (pathOf loc == 3) path, check inside (trapAF 3 3),
      s.rangesCheck (if get then [⟨loc, n, .write⟩, ⟨far, if inside then n else 0, .read⟩]
        else [⟨far, if inside then n else 0, .write⟩, ⟨loc, n, .read⟩])] with
  | .error x => .error x
  | .ok _ =>
    if n = 0 then .ok { s := s.markEdge }
    else
      -- the request of an `nget` is formed as the word issues, if nothing holds it (R226)
      issueCommand h
        { nEntry i b h (if get then 1 else spanOf s.core (peerCore entry) + 1) with
          vals := [loc, roff, n, entry, s.t.wordCycle .n], fp := footRange s.core loc n get }
        (fun u => (if get then u.schedule s.now (.accessPerform s.cur s.fresh) else u).markEdge) s

/-- `nput` once its operands are read: its packets are formed as its reads are made. -/
def putOp (h : Hdr) (b : NBody) : Operation :=
  nOperands .nput h b (b.imm.setWidth 64) fun vs => transferOp (.nput h b) false h b (vs.getD 1 0) (vs.getD 0 0) (vs.getD 2 0)

/-- `nget` once its operands are read: its request is formed when its class lets it go. -/
def getOp (h : Hdr) (b : NBody) : Operation :=
  nOperands .nget h b 0 fun vs => transferOp (.nget h b) true h b (vs.getD 0 0) (vs.getD 1 0) (vs.getD 2 0)

/-! Gangs and barriers (R224, R230). -/

/-- The level of a scope: `.lane` acts as `.core` (R223). -/
def levelOf (c : Scope) : Nat := Nat.max 1 c.code

/-- The unit of a level that holds a core; cores of another package are numbered from 256·(its number + 1). -/
def unitOf (level core : Nat) : Nat := if level = 1 then core else if level = 2 then core / 4 else if level = 3 then core / 64 else core / 256

/-- Whether the instance of a level is the whole gang (R224). -/
def Gang.whole (g : Gang) (level : Nat) : Bool := level == 6 || decide (g.widest < level) || level == 5

/-- The unit by which an instance is known. -/
def Gang.unit (g : Gang) (level core : Nat) : Nat := if g.whole level then 0 else unitOf level core

/-- The ranks and strands of an instance, in ascending rank. -/
def Gang.instance_ (g : Gang) (level unit : Nat) : List (Nat × Nat) :=
  ((g.members.zipIdx).filter fun m => g.whole level || unitOf level (coreOf m.1) == unit).map fun m => (m.2, m.1)

/-- A member's arrival count at a level. -/
def Gang.count (g : Gang) (rank level : Nat) : Nat := (mget (rank * 8 + level) g.arr).getD 0

/-- The count that has been released to a member. -/
def Gang.released (g : Gang) (rank level : Nat) : Nat := (mget (rank * 8 + level) g.rel).getD 0

/-- The least count of an instance. -/
def Gang.least (g : Gang) (level unit : Nat) : Nat :=
  match g.instance_ level unit with
  | [] => 0
  | m :: r => r.foldl (fun x y => Nat.min x (g.count y.1 level)) (g.count m.1 level)

/-- One arrival: the count, and the release that it sets off H chip cycles after its opportunity when it is the last (R20, R230); of
counts that come round to 0 the least falls, and that reaches the members in the same time. -/
def State.arrive (s : State) (level : Nat) : Nat × State :=
  let t := s.t
  let g := s.gang t.gang
  let u := g.unit level s.core
  let c := (g.count t.rank level + 1) % 2 ^ 32
  let g1 := { g with arr := mset (t.rank * 8 + level) c g.arr }
  let s1 := s.setGang t.gang g1
  (c, if g.least level u = g1.least level u then s1
    else s1.schedule (Nat.max s1.now (t.wordCycle .n + g.horizon level)) (.barrierRelease t.gang level u (g1.least level u)))

/-- The wait of `barw` and `bar`: arrived at once if the count has been released. -/
def waitBarrier (i : Instr) (level a : Nat) : Operation := fun s =>
  let done := decide (a ≤ (s.gang s.t.gang).released s.t.rank level)
  .ok { s := s.tick.upd fun t => t.addLanding
          { id := s.fresh, seq := t.seq, due := t.clock + 1, wait := .barrier level a, arrived := done, instr := some i } }

/-- `bara` (R230): it completes at issue, its push landing a strand cycle later. -/
def arriveOp (b : NBody) : Operation := fun s =>
  match b.d with
  | .q n =>
    match s.t.reserveQ n.val s.t.seq with
    | .error x => .error x
    | .ok t1 =>
      match s.scopeCheck b.scp.code with
      | .error x => .error x
      | .ok _ =>
        let r := (s.setStrand s.cur t1).arrive (levelOf b.scp)
        .ok { atIssue := true
              s := (r.2.upd fun t => t.land 1 [.push (t.physQ n.val) t.seq (BitVec.ofNat 64 r.1)]).markEdge }
  | _ =>
    match s.scopeCheck b.scp.code with
    | .error x => .error x
    | .ok _ => .ok { s := (s.arrive (levelOf b.scp)).2.markEdge }

/-! Collectives (R231, R232). -/

/-- A collective's form, op and root. -/
structure CollForm where
  form : Nat
  op : Nat
  root : Nat := 0

/-- Every element of a region lies in scratchpad and in the strand's reach (R231, R244). -/
def State.elemsOk (s : State) (r : Rgn) (k : AccKind) : Bool :=
  (List.range r.count).all fun i =>
    let p := r.span i
    decide (0 ≤ p.1) && decide (p.2 ≤ spadBytes) && s.windowOk (3 * 2 ^ 60 + p.1.toNat) (r.size / 2) k

/-- The footprint of a region. -/
def Rgn.foot (r : Rgn) (core : Nat) (write : Bool) : List FpRange :=
  if r.count = 0 then [] else [winRange core (r.hull r.count).1 (r.hull r.count).2 write]

/-- The collective that a strand's next one at a level joins. -/
def Gang.coll (g : Gang) (level unit ord : Nat) : Coll :=
  (g.colls.find? fun c => c.level == level && c.unit == unit && c.ord == ord).getD ⟨level, unit, ord, []⟩

/-- The chip cycles from the last contribution of an instance to its completion in exact mode, where the launch's schedule fixes
them: the same in every run (R232). -/
def State.exactCompletion (s : State) (level unit ord : Nat) : Nat :=
  match s.dev.launches.find? fun l => l.q == s.t.node.1 && l.slot == s.t.node.2 with
  | some l => Config.exactCollective l.img l.members (8 * ord + level) unit
  | none => Config.exactCollective [] [] (8 * ord + level) unit

/-- A member's contribution joins; with the last of the instance the collective's completion is set (R231, R232). -/
def State.contribute (s : State) (level ord : Nat) (c : Contrib) : State :=
  let g := s.gang s.t.gang
  let u := g.unit level s.core
  let k := g.coll level u ord
  let k1 := { k with parts := k.parts ++ [c] }
  let s1 := s.setGang s.t.gang
    { g with colls := k1 :: g.colls.filter fun x => !(x.level == level && x.unit == u && x.ord == ord) }
  let done : Ev := .collectiveComplete s.t.gang level u ord
  if k1.parts.length < (g.instance_ level u).length then s1
  else if s.t.exact then s1.schedule (s1.now + s.exactCompletion level u ord) done
  else
    let d := s1.latency
    let most := if level = 6 ∧ (k1.parts.all fun p => decide (p.codes.length ≤ 32)) then 15000 else d.1
    d.2.schedule (d.2.now + Nat.min d.1 most) done

/-- The A of a collective read through the second port of its banks and contributed: in the chip cycle of its issue, or once the
accesses before it have been made. -/
def State.joinCollective (s : State) (id : Nat) : State :=
  match s.t.entry id with
  | none => s
  | some a =>
    let r := rgn (a.regs.getD 0 0)
    let v (i : Nat) : Nat := a.vals.getD i 0
    let c : Contrib := { rank := s.t.rank, strand := s.cur, cmd := id, form := v 2, op := v 3, root := v 4, ty := r.ty
                         codes := (List.range r.count).map fun i => r.present s i }
    (s.upd fun t => t.setEntry id fun a => { a with phase := 1, fp := a.fp.filter fun f => f.write }).contribute (v 0) (v 1) c

/-- A collective word (R231, R232). -/
def collectiveOp (i : Instr) (h : Hdr) (b : NBody) (level : Nat) (scope : Nat) (k : CollForm) : Operation := fun s =>
  match s.t.regionCheck [(0, b.a), (3, b.d)] fun _ ty => ty == .f32 || ty == .f64 with
  | .error x => .error x
  | .ok _ =>
    let ra := rgn (s.t.desc b.a)
    let rd := rgn (s.t.desc b.d)
    if !s.elemsOk ra .read ∨ !s.elemsOk rd .write then trapStop (trapAF 3 3)
    else
      match s.scopeCheck scope with
      | .error x => .error x
      | .ok _ =>
        let ord := (mget level s.t.collOrd).getD 0
        let id := s.fresh
        let e : Async := { nEntry i b h 1 with vals := [level, ord, k.form, k.op, k.root], regs := [s.t.desc b.a, s.t.desc b.d]
                                               fp := ra.foot s.core false ++ rd.foot s.core true }
        match s.t.footGate s.core h.trk.val e.fp with
        | .error x => .error x
        | .ok (slot, hints) =>
          let s1 := s.tick.upd fun t =>
            { t with hmis := t.hmis + BitVec.ofNat 64 hints, collOrd := mset level (ord + 1) t.collOrd
                     asyncs := t.asyncs ++ [{ e with id := id, seq := t.seq, after := t.lastTimed, early := t.lastWrites, region := t.region, trk := slot }] }
          .ok { own := true, trk := slot != 0, s := (s1.schedule s1.now (.accessPerform s.cur id)).markEdge }

/-- The reduction op of a word. -/
def nOpCode (b : NBody) : Nat := bits b.nx.toNat 1 0

/-! Status (R233). -/

/-- The word that `nstat` pushes. -/
def State.netStatus (s : State) (sel cir : Nat) : Nat :=
  let c := s.circuit s.core cir
  match sel with
  | 0 => s.t.rank
  | 1 => (s.gang s.t.gang).members.length
  | 2 => (s.t.wordCycle .n + 768 - s.dev.reel % 768) % 768 / 3
  | _ =>
    if bit (s.slotEntry s.core cir) 30 then c.buffer.length
    else Nat.min 3 (c.wait.filter fun p => p.strand == s.cur).length + 4 * c.credits

/-! The instructions. -/

def issueN (op : NOp) (h : Hdr) (b : NBody) (k : Operation) (s : State) : Host.Outcome State Fault Refusal :=
  .next (s.issue (.n op h b) k)

/-- `nsnd` (R228). -/
def execNsnd (h : Hdr) (b : NBody) : State → Host.Outcome State Fault Refusal :=
  issueN .nsnd h b (overCircuits .nsnd b (sendOp (.nsnd h b) h b false))

/-- `nrcv` (R228). -/
def execNrcv (h : Hdr) (b : NBody) : State → Host.Outcome State Fault Refusal :=
  issueN .nrcv h b (overCircuits .nrcv b (receiveOp (.nrcv h b) h b false))

/-- `nput` (R229). -/
def execNput (h : Hdr) (b : NBody) : State → Host.Outcome State Fault Refusal := issueN .nput h b (overCircuits .nput b (putOp h b))

/-- `nget` (R229). -/
def execNget (h : Hdr) (b : NBody) : State → Host.Outcome State Fault Refusal := issueN .nget h b (overCircuits .nget b (getOp h b))

/-- `bar` (R230): an arrival and the wait for its new count. -/
def execBar (h : Hdr) (b : NBody) : State → Host.Outcome State Fault Refusal :=
  issueN .bar h b fun s =>
    match s.scopeCheck b.scp.code with
    | .error x => .error x
    | .ok _ =>
      let r := s.arrive (levelOf b.scp)
      waitBarrier (.bar h b) (levelOf b.scp) r.1 r.2.markEdge

/-- `bara` (R230). -/
def execBara (h : Hdr) (b : NBody) : State → Host.Outcome State Fault Refusal := issueN .bara h b (arriveOp b)

/-- `barw` (R230). -/
def execBarw (h : Hdr) (b : NBody) : State → Host.Outcome State Fault Refusal :=
  issueN .barw h b (nOperands .barw h b (b.imm.signExtend 64) fun vs s =>
    match s.scopeCheck b.scp.code with
    | .error x => .error x
    | .ok _ => waitBarrier (.barw h b) (levelOf b.scp) (vs.getD 0 0 % 2 ^ 32) s)

/-- `ared` (R231). -/
def execAred (h : Hdr) (b : NBody) : State → Host.Outcome State Fault Refusal :=
  issueN .ared h b (collectiveOp (.ared h b) h b (levelOf b.scp) b.scp.code ⟨0, nOpCode b, 0⟩)

/-- `rscat` (R231). -/
def execRscat (h : Hdr) (b : NBody) : State → Host.Outcome State Fault Refusal :=
  issueN .rscat h b (collectiveOp (.rscat h b) h b (levelOf b.scp) b.scp.code ⟨1, nOpCode b, 0⟩)

/-- `agth` (R231). -/
def execAgth (h : Hdr) (b : NBody) : State → Host.Outcome State Fault Refusal :=
  issueN .agth h b (collectiveOp (.agth h b) h b (levelOf b.scp) b.scp.code ⟨2, 0, 0⟩)

/-- `bcst` (R231). -/
def execBcst (h : Hdr) (b : NBody) : State → Host.Outcome State Fault Refusal :=
  issueN .bcst h b (collectiveOp (.bcst h b) h b (levelOf b.scp) b.scp.code ⟨3, 0, bits b.imm.toNat 15 0⟩)

/-- `xsnd` (R228). -/
def execXsnd (h : Hdr) (b : NBody) : State → Host.Outcome State Fault Refusal :=
  issueN .xsnd h b (overCircuits .xsnd b (sendOp (.xsnd h b) h b true))

/-- `xrcv` (R228). -/
def execXrcv (h : Hdr) (b : NBody) : State → Host.Outcome State Fault Refusal :=
  issueN .xrcv h b (overCircuits .xrcv b (receiveOp (.xrcv h b) h b true))

/-- `xred` (R231): `ared` over the whole gang. -/
def execXred (h : Hdr) (b : NBody) : State → Host.Outcome State Fault Refusal :=
  issueN .xred h b (collectiveOp (.xred h b) h b 5 5 ⟨0, nOpCode b, 0⟩)

/-- `nflsh` (R233): it arrives when every earlier N command of the strand has completed. -/
def execNflsh (h : Hdr) (b : NBody) : State → Host.Outcome State Fault Refusal :=
  issueN .nflsh h b fun s =>
    let l : Landing :=
      { id := s.fresh, seq := s.t.seq, due := s.t.clock + 1, wait := .flush s.t.seq, arrived := false
        instr := some (.nflsh h b) }
    .ok { atIssue := true, s := s.tick.upd fun t => t.addLanding l }

/-- `nstat` (R233). -/
def execNstat (h : Hdr) (b : NBody) : State → Host.Outcome State Fault Refusal :=
  issueN .nstat h b <| overCircuits .nstat b fun s =>
    match b.d with
    | .q n =>
      match s.t.reserveQ n.val s.t.seq with
      | .error x => .error x
      | .ok t1 =>
        .ok { atIssue := true
              s := (s.setStrand s.cur t1).upd fun t =>
                t.land 1 [.push (t.physQ n.val) t.seq (BitVec.ofNat 64 (s.netStatus (bits b.nx.toNat 2 0) (bits b.imm.toNat 7 0)))] }
    | _ => .ok { s := s }

end Sys2Proof.Machine
end

