-- ==== Sys2Proof/Machine/Control.lean ====
section
/-! DEFINITION. Control: branches, calls and returns (R127 to R129), loop registers and regions (R130, R131, R133),
control registers (R132), traps and their return (R134), and the words of every class: `nop`, `halt` (R99), loop
back-edges (R259 to R261) and break words (R97). -/

set_option linter.unusedVariables false

namespace Sys2Proof.Machine

/-- The queue continues at an index modulo L; the target's own IDLE applies (R23, R127). -/
def Strand.jump (t : Strand) (e : Eng) (i : Nat) : Strand :=
  let c := t.ctl e
  t.setCtl e { c with idx := i % c.len, owe := none, waited := 0, word := none, fixed := false }

def jumpOp (i : Nat) : Operation := fun s => .ok { s := s.upd fun t => t.jump .s i }

/-- `call` and `callr` once their operand is read (R128). -/
def callOp (frame target : Nat) : Operation := fun s =>
  let t := s.t
  let ssp := t.ctx.ssp.toNat
  if ssp % 8 ≠ 0 then trapStop (trapAF 4 0)
  else
    let n : Int := ssp - frame
    if n < 0 ∨ (spadBytes : Int) < n + 8 then trapStop (trapAF 3 3)
    else if !t.ownsBytes n.toNat 8 then trapStop (trapAF 3 3)
    else if n < t.ctx.slim.toNat then trapStop trapSL
    else
      let a := n.toNat
      match t.timedGate s.core 0 a 8 true with
      | .error x => .error x
      | .ok _ =>
        -- the queue already stands at the next word
        let s1 := s.spadStore a (leBytes 8 ((t.ctl .s).idx + frame * 2 ^ 14))
        .ok { s := s1.upd fun t => (t.updCtx fun c => { c with ssp := BitVec.ofNat 64 a }).jump .s target }

/-- `ret` (R129). -/
def retOp : Operation := fun s =>
  let t := s.t
  let a := t.ctx.ssp.toNat
  if a % 8 ≠ 0 then trapStop (trapAF 4 0)
  else if spadBytes < a + 8 then trapStop (trapAF 3 3)
  else if !t.ownsBytes a 8 then trapStop (trapAF 3 3)
  else
    match t.timedGate s.core 0 a 8 false with
    | .error x => .error x
    | .ok _ =>
      match s.poisonCheck a 8 with
      | .error x => .error x
      | .ok _ =>
        let link := s.spadNum a 8
        .ok { s := s.upd fun t =>
          (t.updCtx fun c => { c with ssp := BitVec.ofNat 64 (a + bits link 29 14) }).jump .s (bits link 13 0) }

/-- `jmp` (R127). -/
def execJmp (h : Hdr) (b : SBody) : State → Host.Outcome State Fault Refusal :=
  issueS .jmp h b fun _ _ _ => jumpOp (bits b.imm.toNat 13 0)

/-- `jmpr` (R127). -/
def execJmpr (h : Hdr) (b : SBody) : State → Host.Outcome State Fault Refusal :=
  issueS .jmpr h b fun x _ _ => jumpOp x.toNat

/-- `call` (R128). -/
def execCall (h : Hdr) (b : SBody) : State → Host.Outcome State Fault Refusal :=
  issueS .call h b fun _ _ _ => callOp (frameOf b) (bits b.imm.toNat 13 0)

/-- `callr` (R128). -/
def execCallr (h : Hdr) (b : SBody) : State → Host.Outcome State Fault Refusal :=
  issueS .callr h b fun x _ _ => callOp (frameOf b) x.toNat

/-- `ret` (R129). -/
def execRet (h : Hdr) (b : SBody) : State → Host.Outcome State Fault Refusal := issueS .ret h b fun _ _ _ => retOp

/-- `lset` (R130). -/
def execLset (h : Hdr) (b : SBody) : State → Host.Outcome State Fault Refusal :=
  issueS .lset h b fun x _ _ s =>
    match b.b, Eng.ofNum (b.imm.toNat % 8) with
    | .lc n, some e => landS 1 (.loop e n (x.setWidth 32)) 0 s
    | _, _ => .ok { s := s }

/-- `idem` (R131, R332): the boundary falls at the opening of its strand cycle; if that has not been taken there, it is
taken now. In a handler it has no effect on the region. -/
def execIdem (h : Hdr) (b : SBody) : State → Host.Outcome State Fault Refusal :=
  issueS .idem h b fun _ _ _ s => .ok { s := if s.t.frozen || s.t.opened then s else s.boundary }

/-- The register number of a control move (R132). -/
def cregNum (b : SBody) : Nat := bits b.imm.toNat 8 0

/-- `mfc` (R132). -/
def execMfc (h : Hdr) (b : SBody) : State → Host.Outcome State Fault Refusal :=
  issueS .mfc h b fun _ _ _ s => landS 1 (aluEff b.as (s.ctrl (cregNum b))) 0 s

/-- `mtc` (R132, R55). -/
def execMtc (h : Hdr) (b : SBody) : State → Host.Outcome State Fault Refusal :=
  issueS .mtc h b fun x _ _ s =>
    if cregNum b = 0x0A ∧ !s.t.rot then trapStop (trapQU 3 0x0A) else .ok { s := s.setCtrl (cregNum b) x }

/-- `setg` (R133). -/
def execSetg (h : Hdr) (b : SBody) : State → Host.Outcome State Fault Refusal :=
  issueS .setg h b fun x y _ s =>
    match b.c with
    | .g n => landS 1 (.region n ((y.setWidth 32).append (x.setWidth 32))) 0 s
    | _ => .ok { s := s }

/-- `sett` (R133): reserved bits of the configuration are not written (R7). -/
def execSett (h : Hdr) (b : SBody) : State → Host.Outcome State Fault Refusal :=
  issueS .sett h b fun x _ _ s =>
    match b.c with
    | .t n => landS 1 (.tcfg n (x &&& 0xFFFF03FF)) 0 s
    | _ => .ok { s := s }

/-- `swi` (R134): `SW 1` stands above the `QU 2` of a transport that finds no room (R40). -/
def execSwi (h : Hdr) (b : SBody) : State → Host.Outcome State Fault Refusal := fun s =>
  .next (s.issue (.s .swi h b) fun _ => trapStop (trapSW (bits b.imm.toNat 15 0)))

/-- `tret` (R134): in a handler the freeze ends; elsewhere nothing beyond the header. -/
def execTret (h : Hdr) (b : SBody) : State → Host.Outcome State Fault Refusal :=
  issueS .tret h b fun _ _ _ s => .ok { s := if s.t.frozen then s.handlerReturn else s }

/-! Words of every class. -/

/-- `nop` (R99). -/
def execNop (e : Cls) (h : Hdr) (g : Guard) : State → Host.Outcome State Fault Refusal := fun s =>
  .next (s.issue (.nop e h g) fun s => .ok { s := s })

/-- `halt` (R99): the queue issues no further word. -/
def execHalt (e : Cls) (h : Hdr) (g : Guard) : State → Host.Outcome State Fault Refusal := fun s =>
  .next (s.issue (.halt e h g) fun s =>
    .ok { s := s.upd fun t => t.setCtl e.eng { t.ctl e.eng with halted := true } })

/-- The transport of a back-edge word of class S (R259). -/
def Strand.loopTransport (t : Strand) (l : LoopBody) : Except Stop Strand :=
  match l.xl with
  | .none => .ok t
  | xl =>
    match t.reserveQ l.xq.val t.seq with
    | .error x => .error x
    | .ok t1 => .ok (t1.land 1 [.push (t.physQ l.xq.val) t.seq (t.xlatch xl)])

/-- One back-edge applied, at the close of the strand cycle (R260, R261). -/
def Strand.applyBackEdge (t : Strand) (b : BackEdge) : Strand :=
  t.updCtx fun x =>
    let x1 := x.setLc b.eng.num b.lc.val (BitVec.ofNat 32 b.count)
    match b.stages with
    | none => x1
    | some (ps, rrb) =>
      { x1 with p := Vector.ofFn fun i : Fin 16 => if 8 ≤ i.val then ps.getD (i.val - 8) x.p[i] else x.p[i]
                rrb := BitVec.ofNat 64 rrb }

/-- What a back-edge word of an engine does, from the state that the back-edges before it in its strand cycle leave: its effect,
and whether it is taken; `stages` is the stage count of `rlbr` (R260 to R262). -/
def Strand.backEdge (t : Strand) (e : Eng) (n : Fin 8) (stages : Option Nat) : BackEdge × Bool :=
  let u := t.closing.foldl (fun t b => t.applyBackEdge b) t
  let c := u.lcount e n.val
  match stages with
  | none => ({ eng := e, lc := n, count := c - 1, stages := none }, decide (2 ≤ c))
  | some k =>
    let ps := (List.range k).map fun j => if j = 0 then decide (1 ≤ c - 1) else u.pred (8 + j - 1)
    ({ eng := e, lc := n, count := c - 1, stages := some (ps, (u.ctx.rrb.toNat + 15) % 16) }, ps.any id)

/-- A back-edge word (R260, R261): its effect is computed now, its queue stands at the word that follows it, and its registers
are written at the close of the strand cycle. SPOST is raised at issue, or with the transport's landing (DESIGN CHOICE: R24
leaves open whether the writes of the close count among a word's results). -/
def loopOp (e : Cls) (l : LoopBody) (stages : Option Nat) : Operation := fun s =>
  match (if e = .s then s.t.loopTransport l else .ok s.t) with
  | .error x => .error x
  | .ok t1 =>
    let b := t1.backEdge e.eng l.lc stages
    let t2 := { t1 with closing := t1.closing ++ [b.1] }
    .ok { s := s.setStrand s.cur (if b.2 then t2.jump e.eng l.target.toNat else t2) }

/-- `lbr` (R260). -/
def execLbr (e : Cls) (h : Hdr) (l : LoopBody) : State → Host.Outcome State Fault Refusal := fun s =>
  .next (s.issue (.lbr e h l) (loopOp e l none))

/-- `rlbr` (R261, R55): `QU 3` outside rotating mode. -/
def execRlbr (e : Cls) (h : Hdr) (l : LoopBody) : State → Host.Outcome State Fault Refusal := fun s =>
  .next (s.issue (.rlbr e h l) fun s =>
    match loopOp e l (some (l.stg.val + 1)) s with
    | .error x => .error x
    | .ok d => if s.t.rot then .ok d else trapStop (trapQU 3 0x0A))

/-- A break word (R97). -/
def execBrk (h : Hdr) (code : BitVec 16) : State → Host.Outcome State Fault Refusal := fun s =>
  .next (s.issueOn (.brk h code) s.t.placeEng 1 fun _ => trapStop (trapBK code.toNat))

end Sys2Proof.Machine
end

