-- ==== Sys2Proof/Machine/Points.lean ====
section
/-! DEFINITION. The arithmetic of distribution lanes: validity (R167), pairing (R170, R171), condensation (R173), maps,
mixtures, moments and quantiles (R174 to R178). -/

set_option linter.unusedVariables false

namespace Sys2Proof.Machine

/-- A point of positive weight: its value, the value's encoding and its weight. -/
structure Pt where
  v : XReal
  code : Nat
  w : Mag
  deriving DecidableEq, Repr

/-- Whether a point, value and weight encodings of one type, makes its lane invalid (R167). -/
def badPoint (ty : Ty) (p : Nat × Nat) : Bool :=
  (decode ty p.1).isNan ||
    match decode ty p.2 with
    | .fin s m => s && !m.isZero
    | _ => true

/-- The points of positive weight of a lane in the order of their indexes; of an invalid lane, none. -/
def lanePoints (ty : Ty) (ps : List (Nat × Nat)) : Option (List Pt) :=
  if ps.any (badPoint ty) then none
  else some ((ps.map fun p => { v := decode ty p.1, code := p.1, w := (decode ty p.2).mag : Pt }).filter fun p => !p.w.isZero)

/-- What a lane delivers: value and weight encodings of each point. -/
inductive LaneOut where
  | invalid
  | points (ps : List (Nat × Nat))
  deriving DecidableEq, Repr

/-! Sorting by value, lower index first among equal values (R171, R173). -/

def insertPt (p : Pt) : List Pt → List Pt
  | [] => [p]
  | q :: r => if q.v.lt p.v then q :: insertPt p r else p :: q :: r

/-- The points in ascending order; the fold from the right keeps equal values in the order of their indexes. -/
def sortPts (ps : List Pt) : List Pt := ps.foldr insertPt []

/-- Weights counted in units of one power of two: the exponent and each weight's count. -/
def weightUnits (ps : List Pt) : Int × List Nat :=
  let e := ps.foldl (fun (m : Int) p => if p.w.exp < m then p.w.exp else m) ((ps.head?.map fun p => p.w.exp).getD 0)
  (e, ps.map fun p => p.w.num * 2 ^ (p.w.exp - e).toNat)

/-! Condensation (R173). -/

/-- The part of `[c, c + w)` inside `[lo, hi)`. -/
def overlap (c w lo hi : Nat) : Nat := Nat.min (c + w) hi - Nat.max c lo

/-- One group's value: the sum of its parts times their values, over the sum of its parts. -/
def groupValue (s lo : Nat) (ps : List (Pt × Nat × Nat)) : XReal × Nat :=
  let parts := (ps.map fun p => (p.1.v, overlap p.2.1 (8 * p.2.2) lo (lo + s))).filter fun p => p.2 ≠ 0
  let terms := parts.map fun p => match p.1 with | .fin n m => XReal.fin n (m.mul (.ofNat p.2)) | x => x
  match terms with
  | [] => (.zero false, 0)
  | x :: r =>
    let t := r.foldl (fun m y => let q := XReal.add false m.1 y; (q.1, fOr m.2 q.2)) (x, 0)
    match t.1 with
    | .fin n m => (.fin n (m.div (.ofNat s)), t.2)
    | y => (y, t.2)

/-- Each point with the mass before it, counted in eighths of a unit. -/
def cumulate : Nat → List (Pt × Nat) → List (Pt × Nat × Nat)
  | _, [] => []
  | c, (p, w) :: r => (p, c, w) :: cumulate (c + 8 * w) r

/-- Condensation of the points of one lane, in index order (R173). -/
def condense (ps : List Pt) : LaneOut × Nat :=
  if ps.any fun p => p.v.isNan then (.invalid, fNV)
  else if ps.isEmpty then (.points (List.replicate 8 (0, 0)), 0)
  else
    let sorted := sortPts ps
    let u := weightUnits sorted
    let total := u.2.sum
    let cs := cumulate 0 (sorted.zip u.2)
    let w := round .f32 .rne 0 (.fin false ((Mag.dyadic total u.1).scale (-3)))
    let out := (List.range 8).map fun g =>
      let x := groupValue total (g * total) cs
      let r := round .f32 .rne 0 x.1
      (r.1, fOr x.2 r.2)
    (.points (out.map fun r => (r.1, w.1)), out.foldl (fun m r => fOr m r.2) w.2)

/-! Pairing. -/

/-- The five pairing operations. -/
inductive PairOp where
  | add | sub | mul | max | min
  deriving DecidableEq, Repr

/-- One pair's value in binary64: encoding and flags. -/
def pairValue (o : PairOp) (x y : XReal) : Nat × Nat :=
  let x64 := (round .f64 .rne 0 x).1
  let y64 := (round .f64 .rne 0 y).1
  let r : XReal × Nat :=
    match o with
    | .add => XReal.add false x y
    | .sub => XReal.add false x y.negate
    | .mul => XReal.mul x y
    | .max => (decode .f64 (fpMinMax .f64 true x64 y64).1, 0)
    | .min => (decode .f64 (fpMinMax .f64 false x64 y64).1, 0)
  let q := round .f64 .rne 0 r.1
  (q.1, fOr r.2 q.2)

/-- A pair: its slot, its value in binary64 and its weight. -/
structure Pair where
  slot : Nat
  code : Nat
  w : Mag
  deriving DecidableEq, Repr

def Pair.pt (p : Pair) : Pt := { v := decode .f64 p.code, code := p.code, w := p.w }

/-- All pairs of two independent lanes, points given with their indexes (R170). -/
def pairAll (o : PairOp) (as bs : List (Nat × Pt)) : List Pair × Nat :=
  let ps := as.flatMap fun a => bs.map fun b =>
    let v := pairValue o a.2.v b.2.v
    (({ slot := 8 * a.1 + b.1, code := v.1, w := a.2.w.mul b.2.w } : Pair), v.2)
  (ps.map Prod.fst, ps.foldl (fun m p => fOr m p.2) 0)

/-- The walk of R171: points with their cumulated mass on a common scale; `u` the mass walked, `t` the next slot. -/
def couple (o : PairOp) (e : Int) : Nat → List (Pt × Nat) → List (Pt × Nat) → Nat → Nat → List Pair × Nat
  | fuel + 1, (a, fa) :: ar, (b, fb) :: br, u, t =>
    let u' := Nat.min fa fb
    let as := if fa = u' then ar else (a, fa) :: ar
    let bs := if fb = u' then br else (b, fb) :: br
    if u < u' then
      let v := pairValue o a.v b.v
      let w := round .f64 .rne 0 (.fin false (.dyadic (u' - u) e))
      let r := couple o e fuel as bs u' (t + 1)
      ({ slot := t, code := v.1, w := (decode .f64 w.1).mag } :: r.1, fOr (fOr v.2 w.2) r.2)
    else couple o e fuel as bs u' t
  | _, _, _, _, _ => ([], 0)

/-- Running sums. -/
def sums : Nat → List Nat → List Nat
  | _, [] => []
  | c, w :: r => (c + w) :: sums (c + w) r

/-- The comonotone pairs of two dependent lanes (R171). -/
def pairSorted (o : PairOp) (as bs : List Pt) : List Pair × Nat :=
  let a := sortPts as
  let b := sortPts bs
  let ua := weightUnits a
  let ub := weightUnits b
  let ta := ua.2.sum
  let tb := ub.2.sum
  couple o (ua.1 + ub.1) 16 (a.zip ((sums 0 ua.2).map (tb * ·))) (b.zip ((sums 0 ub.2).map (ta * ·))) 0 0

/-- The pairs of two lanes of binary32 points: none for an invalid lane. -/
def pairLane (o : PairOp) (dependent : Bool) (as bs : List (Nat × Nat)) : Option (List Pair × Nat) :=
  if (as ++ bs).any (badPoint .f32) then none
  else
    let pts (l : List (Nat × Nat)) : List (Nat × Pt) :=
      (l.zipIdx.map fun p => (p.2, ({ v := decode .f32 p.1.1, code := p.1.1, w := (decode .f32 p.1.2).mag } : Pt))).filter
        fun p => !p.2.w.isZero
    if dependent then some (pairSorted o ((pts as).map Prod.snd) ((pts bs).map Prod.snd))
    else some (pairAll o (pts as) (pts bs))

/-! Maps and mixtures (R174, R175). -/

/-- A lane written as empty if every weight is zero (R167). -/
def emptied (ps : List (Nat × Nat)) : List (Nat × Nat) :=
  if ps.all fun p => (decode .f32 p.2).isZero then List.replicate 8 (0, 0) else ps

/-- `daff` on one lane, with the draws of its points (R174). -/
def affineLane (mode : Rnd) (b c : XReal) (draws : List Nat) (ps : List (Nat × Nat)) : LaneOut × Nat :=
  if ps.any (badPoint .f32) then (.invalid, fNV)
  else
    let out := ps.zipIdx.map fun p =>
      let x := XReal.fma (mode == .rd) b (decode .f32 p.1.1) c
      let r := round .f32 mode (draws.getD p.2 0) x.1
      ((r.1, p.1.2), if x.1.isNan then fOr fNV (fOr x.2 r.2) else fOr x.2 r.2)
    (.points (emptied (out.map Prod.fst)), out.foldl (fun m r => fOr m r.2) 0)

/-- `dmix` on one lane (R175). -/
def mixLane (alpha : XReal) (as bs : List (Nat × Nat)) : LaneOut × Nat :=
  match alpha, lanePoints .f32 as, lanePoints .f32 bs with
  | .fin s m, some pa, some pb =>
    if (s && !m.isZero) || Mag.lt (.ofNat 1) m then (.invalid, fNV)
    else
      let rest := Mag.sub (.ofNat 1) m
      condense (((pa.map fun (p : Pt) => { p with w := m.mul p.w }) ++ (pb.map fun (p : Pt) => { p with w := rest.mul p.w })).filter
        fun p => !p.w.isZero)
  | _, _, _ => (.invalid, fNV)

/-! Moments and quantiles (R177, R178). -/

/-- A sum of quantities with the IEEE rules for infinities. -/
def sumReal (xs : List XReal) : XReal × Nat :=
  xs.foldl (fun m y => let q := XReal.add false m.1 y; (q.1, fOr m.2 q.2)) (.zero false, 0)

def timesMag (x : XReal) (w : Mag) : XReal := match x with | .fin s m => .fin s (m.mul w) | y => y
def overMag (x : XReal) (w : Mag) : XReal := match x with | .fin s m => .fin s (m.div w) | y => y

/-- `dmom` on one lane: encoding and flags. -/
def momentLane (k : Nat) (mode : Rnd) (draw : Nat) (ps : List (Nat × Nat)) : Nat × Nat :=
  match lanePoints .f32 ps with
  | none => (nanCode .f32, fNV)
  | some [] => (nanCode .f32, fNV)
  | some pts =>
    let t := pts.foldl (fun (m : Mag) p => m.add p.w) (.ofNat 0)
    let s := sumReal (pts.map fun p => timesMag p.v p.w)
    let mu := overMag s.1 t
    if k = 0 then
      let r := round .f32 mode draw mu
      (r.1, fOr s.2 r.2)
    else if pts.any fun p => p.v.isInf then (nanCode .f32, fNV)
    else
      let terms := pts.map fun p =>
        let d := (XReal.add false p.v mu.negate).1
        timesMag ((List.range k).foldl (fun m _ => (XReal.mul m d).1) d) p.w
      round .f32 mode draw (overMag (sumReal terms).1 t)

/-- `dqnt` on one lane: encoding and flags. -/
def quantileLane (p : XReal) (ps : List (Nat × Nat)) : Nat × Nat :=
  match p, lanePoints .f32 ps with
  | .fin s m, some (q :: qs) =>
    if (s && !m.isZero) || Mag.lt (.ofNat 1) m then (nanCode .f32, fNV)
    else
      let pts := sortPts (q :: qs)
      let t := pts.foldl (fun (a : Mag) x => a.add x.w) (.ofNat 0)
      let need := m.mul t
      let below (v : XReal) : Mag :=
        pts.foldl (fun (a : Mag) x => if v.lt x.v then a else a.add x.w) (.ofNat 0)
      match pts.find? fun x => !(below x.v).lt need with
      | some x => (((q :: qs).find? fun y => y.v.eq x.v).map Pt.code |>.getD x.code, 0)
      | none => ((pts.getLast?.map Pt.code).getD 0, 0)
  | _, _ => (nanCode .f32, fNV)

end Sys2Proof.Machine
end

