-- ==== Sys2Proof/Machine/Dist.lean ====
section
/-! DEFINITION. Class D: lane counts and operands (R162 to R166), the forms (R168 to R178) and their landings (R165). -/

set_option linter.unusedVariables false

namespace Sys2Proof.Machine

/-! Registers. -/

/-- The window offset of lane `l` of `dv`n (R53). -/
def dvLaneAt (n l : Nat) : Nat := 0x120000 + 0x1000 * n + 64 * l

/-- The eight points of a lane: value and weight encodings. -/
def State.dvLane (s : State) (n l : Nat) : List (Nat × Nat) :=
  (List.range 8).map fun j =>
    (s.num .chip (chipAddr s.core (dvLaneAt n l + 8 * j)) 4, s.num .chip (chipAddr s.core (dvLaneAt n l + 8 * j + 4)) 4)

/-- The number of a distribution register operand. -/
def Opd.dvNum : Opd → Nat
  | .dv n => n.val
  | _ => 0

/-- Eight points as the landing of a lane writes them. -/
def laneEff (n l : Nat) (ps : List (Nat × Nat)) : Eff :=
  .store (dvLaneAt n l) (ps.flatMap fun p => leBytes 4 p.1 ++ leBytes 4 p.2)

/-- The points of an invalid lane in binary32 (R167). -/
def invalidLane : List (Nat × Nat) := List.replicate 8 (nanCode .f32, nanCode .f32)

def LaneOut.pts : LaneOut → List (Nat × Nat)
  | .invalid => invalidLane
  | .points ps => ps

/-! Lanes and region operands. -/

/-- The lanes of a word: the first and how many (R163). -/
def Strand.lanes (t : Strand) (b : VBody) : Except Stop (Nat × Nat) :=
  let nl := bits b.vx.toNat 17 12
  match b.d with
  | .q _ => .ok (nl, 1)
  | _ =>
    if b.lce then
      let n := t.lcount .v b.lcn.val
      if 64 < n then trapStop (trapIL 6 8) else .ok (0, n)
    else .ok (0, nl + 1)

/-- What a D form asks of a region in a slot: its TYPE and its least COUNT for n lanes (R164). -/
abbrev RegionNeed := Nat → Nat → Ty × Nat

/-- The checks on lanes and regions: `IL 5`, a reserved TYPE, more than 64 lanes, then `AF 3`, then TYPE, STRIDE and
COUNT (R163, R164): the first lane, how many, and the regions. -/
def State.dRegions (s : State) (f : VForm) (b : VBody) (need : RegionNeed) :
    Except Stop (Nat × Nat × List (Nat × Rgn)) :=
  let t := s.t
  match t.regionCheck ((List.range 4).map fun i => (i, formOpd f b i)) fun _ _ => true with
  | .error x => .error x
  | .ok _ =>
    match t.lanes b with
    | .error x => .error x
    | .ok (l0, n) =>
      let rs := t.regionsOf f b
      if !rs.all fun x => t.rgnInside x.2 (need x.1 n).2 then trapStop (trapAF 3 3)
      else
        match rs.find? fun x => x.2.ty != (need x.1 n).1 || x.2.stride != 1 || decide (x.2.count < (need x.1 n).2) with
        | some x => trapStop (trapIL 6 x.1)
        | none => .ok (l0, n, rs)

/-- What a D word delivers: effects and flags. -/
structure DOut where
  effs : List Eff
  flags : Nat := 0
  deriving DecidableEq, Repr

/-- The regions and scalars that a form's meaning reads: binary32 element or scalar of a slot for lane `l`, and the
region of a slot. -/
structure DIn where
  real : Nat → Nat → XReal
  low : Nat → Nat
  rg : Nat → Rgn

/-- `EC 1` of poison in the lanes of a distribution register that a word takes as an operand (R359). -/
def State.lanePoison (s : State) (b : VBody) (l0 n : Nat) : Except Stop Unit :=
  let lanes (o : Opd) : Option Nat := match o with | .dv r => s.poisoned .chip (chipAddr s.core (dvLaneAt r.val l0)) (64 * n) | _ => none
  match (lanes b.a).orElse fun _ => lanes b.b with
  | some u => trapStop { trapEC 16 with addr := 3 * 2 ^ 60 + (8 * u - chipAddr s.core 0) }
  | none => .ok ()

/-- A D word (R165): its checks, its reads, its draws and one landing for its whole result; with n = 0 it has no effect
(R163). -/
def dOp (f : VForm) (h : Hdr) (b : VBody) (lat : Nat → Nat) (need : RegionNeed) (draws : Nat)
    (k : State → DIn → List Nat → List Nat → DOut) : Operation := fun s =>
  match s.dRegions f b need with
  | .error x => .error x
  | .ok (l0, n, rs) =>
    if n = 0 then .ok { s := s }
    else
      match s.t.streamOperands .v f h b with
      | .error x => .error x
      | .ok (vs, t1) =>
        let t := s.t
        match (s.regionGate 0 t.ctx.sclk (rs.map fun x => ⟨x.2, (need x.1 n).2, 1, x.1 != 3, 0, false, 0⟩) (.ok ())).bind fun _ =>
            s.lanePoison b l0 n with
        | .error x => .error x
        | .ok _ =>
          let d := (s.setStrand s.cur t1).draw b.rnd (draws * n)
          let rg (i : Nat) : Rgn := ((rs.find? fun x => x.1 == i).map Prod.snd).getD (rgn 0)
          let inp : DIn :=
            { rg := rg, low := fun i => (vs.getD i 0).toNat
              real := fun i l =>
                if Opd.isRegion (formOpd f b i) then decode .f32 ((rg i).get s l)
                else decode .f32 (vs.getD i 0).toNat }
          let o := k s inp ((List.range n).map (l0 + ·)) d.1
          let due := t.ctx.sclk + lat n
          .ok { s := d.2.upd fun t =>
                  { (t.addLanding { id := 0, seq := t.seq, due := due, effs := o.effs, flags := o.flags }) with
                    timed := t.timed ++ (rs.flatMap fun x =>
                      if x.1 = 3 then x.2.timed (need 3 n).2 (need 3 n).2 1 due true else []) } }

/-- No region. -/
def noNeed : RegionNeed := fun _ _ => (.f32, 0)

/-- Per-lane operands: a binary32 region of n elements. -/
def laneNeed : RegionNeed := fun _ n => (.f32, n)

/-- The lineage mask that the landing writes (R166). -/
def maskEff (o : Opd) (m : Nat) : List Eff := match o with | .dv n => [.dvMask n (BitVec.ofNat 16 m)] | _ => []

/-- Lanes into a distribution register, with its mask. -/
def dvOut (o : Opd) (mask : Nat) (ls : List (Nat × LaneOut × Nat)) : DOut :=
  { effs := (ls.map fun x => laneEff (Opd.dvNum o) x.1 x.2.1.pts) ++ maskEff o mask
    flags := ls.foldl (fun m x => fOr m x.2.2) 0 }

/-- One number a lane into a region of binary32 or a queue register. -/
def laneNumbers (t : Strand) (b : VBody) (rg : Rgn) (ls : List (Nat × Nat × Nat)) : DOut :=
  { effs := ls.map fun x =>
      match b.d with
      | .q n => .push (t.physQ n.val) t.seq (BitVec.ofNat 64 x.2.1)
      | _ => rg.put x.1 x.2.1
    flags := ls.foldl (fun m x => fOr m x.2.2) 0 }

def issueD (op : DOp) (h : Hdr) (b : VBody) (f : Operation) (s : State) : Host.Outcome State Fault Refusal :=
  .next (s.issue (.d op h b) f)

/-! Pairing forms (R170 to R172). -/

/-- The 64 slots of a raw lane. -/
def rawSlots (r : Option (List Pair × Nat)) : List (Nat × Nat) :=
  match r with
  | none => List.replicate 64 (nanCode .f64, nanCode .f64)
  | some p =>
    (List.range 64).map fun t =>
      match p.1.find? fun x => x.slot == t with
      | some x => (x.code, (round .f64 .rne 0 (.fin false x.w)).1)
      | none => (0, 0)

/-- A pairing form. -/
def pairingOp (op : DOp) (o : PairOp) (h : Hdr) (b : VBody) : Operation :=
  let raw := Opd.isRegion b.d
  dOp op.form h b (fun _ => if raw then 16 else 40) (fun _ n => (.f64, 128 * n)) 0 fun s inp ls _ =>
    let ma := s.dvMask s.core (Opd.dvNum b.a)
    let mb := s.dvMask s.core (Opd.dvNum b.b)
    let dep := ma &&& mb ≠ 0
    let pairs := ls.map fun l =>
      (l, pairLane o dep (s.dvLane (Opd.dvNum b.a) l) (s.dvLane (Opd.dvNum b.b) l))
    let out : DOut :=
      if raw then
        { effs := pairs.flatMap fun x =>
            (rawSlots x.2).zipIdx.flatMap fun p =>
              [(inp.rg 3).put (128 * x.1 + 2 * p.2) p.1.1, (inp.rg 3).put (128 * x.1 + 2 * p.2 + 1) p.1.2]
          flags := pairs.foldl (fun m x => fOr m (match x.2 with | none => fNV | some p => p.2)) 0 }
      else
        dvOut b.d (ma ||| mb) (pairs.map fun x =>
          match x.2 with
          | none => (x.1, .invalid, fNV)
          | some p =>
            let c := condense (p.1.map Pair.pt |>.filter fun q => !q.w.isZero)
            (x.1, c.1, fOr p.2 c.2))
    { out with flags := if dep then fOr out.flags fDEP else out.flags }

/-! The instructions. -/

/-- `dld` (R168). -/
def execDld (h : Hdr) (b : VBody) : State → Host.Outcome State Fault Refusal :=
  issueD .dld h b (dOp (DOp.form .dld) h b (fun _ => 4) (fun _ n => (.f32, 16 * n)) 0 fun s inp ls _ =>
    dvOut b.d (inp.low 1) (ls.map fun l =>
      (l, .points ((List.range 8).map fun j =>
        ((inp.rg 0).get s (16 * l + 2 * j), (inp.rg 0).get s (16 * l + 2 * j + 1))), 0)))

/-- `dsto` (R168). -/
def execDsto (h : Hdr) (b : VBody) : State → Host.Outcome State Fault Refusal :=
  issueD .dsto h b (dOp (DOp.form .dsto) h b (fun _ => 4) (fun _ n => (.f32, 16 * n)) 0 fun s inp ls _ =>
    { effs := ls.flatMap fun l =>
        (s.dvLane (Opd.dvNum b.a) l).zipIdx.flatMap fun p =>
          [(inp.rg 3).put (16 * l + 2 * p.2) p.1.1, (inp.rg 3).put (16 * l + 2 * p.2 + 1) p.1.2] })

/-- `dadd` (R170). -/
def execDadd (h : Hdr) (b : VBody) : State → Host.Outcome State Fault Refusal :=
  issueD .dadd h b (pairingOp .dadd .add h b)

/-- `dsub` (R170). -/
def execDsub (h : Hdr) (b : VBody) : State → Host.Outcome State Fault Refusal :=
  issueD .dsub h b (pairingOp .dsub .sub h b)

/-- `dmul` (R170). -/
def execDmul (h : Hdr) (b : VBody) : State → Host.Outcome State Fault Refusal :=
  issueD .dmul h b (pairingOp .dmul .mul h b)

/-- `dmax` (R170). -/
def execDmax (h : Hdr) (b : VBody) : State → Host.Outcome State Fault Refusal :=
  issueD .dmax h b (pairingOp .dmax .max h b)

/-- `dmin` (R170). -/
def execDmin (h : Hdr) (b : VBody) : State → Host.Outcome State Fault Refusal :=
  issueD .dmin h b (pairingOp .dmin .min h b)

/-- `daff` (R174). -/
def execDaff (h : Hdr) (b : VBody) : State → Host.Outcome State Fault Refusal :=
  issueD .daff h b (dOp (DOp.form .daff) h b (fun _ => 8) laneNeed 8 fun s inp ls draws =>
    dvOut b.d (s.dvMask s.core (Opd.dvNum b.a)) (ls.map fun l =>
      (l, affineLane b.rnd (inp.real 1 l) (inp.real 2 l) (draws.drop (8 * l)) (s.dvLane (Opd.dvNum b.a) l))))

/-- `dmix` (R175). -/
def execDmix (h : Hdr) (b : VBody) : State → Host.Outcome State Fault Refusal :=
  issueD .dmix h b (dOp (DOp.form .dmix) h b (fun _ => 24) laneNeed 0 fun s inp ls _ =>
    let na := Opd.dvNum b.a
    let nb := Opd.dvNum b.b
    dvOut b.d (s.dvMask s.core na ||| s.dvMask s.core nb) (ls.map fun l =>
      (l, mixLane (inp.real 2 l) (s.dvLane na l) (s.dvLane nb l))))

/-- `dsmp` (R176). -/
def execDsmp (h : Hdr) (b : VBody) : State → Host.Outcome State Fault Refusal :=
  let c := bits b.vx.toNat 9 0
  issueD .dsmp h b (dOp (DOp.form .dsmp) h b (fun n => 24 + ceilDiv (c * n) 64) (fun _ n => (.f32, c * n)) 0
    fun s inp ls _ =>
      dvOut b.d (inp.low 2) (ls.map fun l =>
        let ps := (List.range c).map fun m => ((inp.rg 0).get s (c * l + m), inp.low 1 % 2 ^ 32)
        let r := match lanePoints .f32 ps with
          | none => (LaneOut.invalid, fNV)
          | some pts => condense pts
        (l, r.1, r.2)))

/-- `dcond` (R176). -/
def execDcond (h : Hdr) (b : VBody) : State → Host.Outcome State Fault Refusal :=
  issueD .dcond h b (dOp (DOp.form .dcond) h b (fun _ => 24) (fun _ n => (.f64, 128 * n)) 0 fun s inp ls _ =>
    dvOut b.d (inp.low 1) (ls.map fun l =>
      let ps := (List.range 64).map fun t =>
        ((inp.rg 0).get s (128 * l + 2 * t), (inp.rg 0).get s (128 * l + 2 * t + 1))
      let r := match lanePoints .f64 ps with
        | none => (LaneOut.invalid, fNV)
        | some pts => condense pts
      (l, r.1, r.2)))

/-- `dmom` (R177). -/
def execDmom (h : Hdr) (b : VBody) : State → Host.Outcome State Fault Refusal :=
  issueD .dmom h b (dOp (DOp.form .dmom) h b (fun _ => 12) laneNeed 1 fun s inp ls draws =>
    laneNumbers s.t b (inp.rg 3) (ls.zipIdx.map fun l =>
      (l.1, momentLane (b.vx.toNat % 4) b.rnd (draws.getD l.2 0) (s.dvLane (Opd.dvNum b.a) l.1))))

/-- `dqnt` (R178). -/
def execDqnt (h : Hdr) (b : VBody) : State → Host.Outcome State Fault Refusal :=
  issueD .dqnt h b (dOp (DOp.form .dqnt) h b (fun _ => 12) laneNeed 0 fun s inp ls _ =>
    laneNumbers s.t b (inp.rg 3) (ls.map fun l =>
      (l, quantileLane (inp.real 1 l) (s.dvLane (Opd.dvNum b.a) l))))

/-- `dlin.set` (R169): the mask alone, at k + 1. -/
def execDlinSet (h : Hdr) (b : VBody) : State → Host.Outcome State Fault Refusal :=
  issueD .dlinSet h b (dOp (DOp.form .dlinSet) h b (fun _ => 1) noNeed 0 fun s inp _ _ =>
    { effs := maskEff b.d (inp.low 1) })

/-- `dlin.get` (R169): a push of the mask, due at k + 1. -/
def execDlinGet (h : Hdr) (b : VBody) : State → Host.Outcome State Fault Refusal :=
  issueD .dlinGet h b (dOp (DOp.form .dlinGet) h b (fun _ => 1) noNeed 0 fun s inp _ _ =>
    { effs := match b.d with
        | .q n => [.push (s.t.physQ n.val) s.t.seq (BitVec.ofNat 64 (s.dvMask s.core (Opd.dvNum b.a)))]
        | _ => [] })

end Sys2Proof.Machine
end

