-- ==== Sys2Proof/Machine/Functions.lean ====
section
/-! DEFINITION. Square roots, seeds and the faithful functions of class F (R154 to R159): fixed-point approximations with
320 fraction bits, close enough to tell the two binary32 neighbours of every result. -/

set_option linter.unusedVariables false

namespace Sys2Proof.Machine

/-! Square roots. -/

/-- ⌊√n⌋, by its bits from bit `i` − 1 down, `r` being found so far. -/
def isqrtFrom (n : Nat) : Nat → Nat → Nat
  | 0, r => r
  | i + 1, r => let q := r + 2 ^ i; isqrtFrom n i (if q * q ≤ n then q else r)

def isqrt (n : Nat) : Nat := isqrtFrom n (Nat.log2 n / 2 + 1) 0

/-- √m as a dyadic magnitude of over 100 bits; a root that is not exact has a one in a bit below all of them, so that
every rounding of it is that of the exact root. -/
def sqrtMag (m : Mag) : Mag :=
  if m.isZero then .ofNat 0
  else
    let n := if m.exp % 2 = 0 then m.num else 2 * m.num
    let e := if m.exp % 2 = 0 then m.exp else m.exp - 1
    let k := 140 + Nat.log2 m.den
    let r := isqrt (n * 2 ^ (2 * k) / m.den)
    let exact := r * r * m.den = n * 2 ^ (2 * k)
    .dyadic (2 * r + (if exact then 0 else 1)) (e / 2 - k - 1)

/-- A nonzero magnitude rounded to `p` significant bits, to nearest even, exponent unbounded. -/
def roundSig (p : Nat) (m : Mag) : Mag :=
  let u := m.floorLog2 + 1 - p
  .dyadic (roundNat .rne false 0 (m.split u)) u

/-- The result of a seed for a nonzero finite exact value (R156). -/
def seedCode (neg : Bool) (m : Mag) : Nat :=
  let w := roundSig 12 m
  if !w.lt (.dyadic 1 128) then signBit .f32 neg + infMag .f32
  else (round .f32 .rne 0 (.fin neg w)).1

/-! Fixed-point numbers with 320 fraction bits. -/

def fxBits : Nat := 320
def fxOne : Int := ((2 ^ fxBits : Nat) : Int)

def fxMul (a b : Int) : Int := a * b / fxOne
def fxDiv (a b : Int) : Int := a * fxOne / b

/-- A finite quantity with at most 320 fraction bits. -/
def fxOf (neg : Bool) (m : Mag) : Int :=
  let p := m.split (-(fxBits : Int))
  if neg then -(p.1 : Int) else (p.1 : Int)

/-- Terms of a power series: term k + 1 is term k times `step` of k. -/
def fxSeries (step : Nat → Int → Int) : Nat → Nat → Int → Int
  | 0, _, _ => 0
  | fuel + 1, k, t => t + fxSeries step fuel (k + 1) (step k t)

/-- Σ z^(2k+1)/(2k+1) with alternating signs if `alt`. -/
def fxOdd (alt : Bool) (z : Int) : Nat → Nat → Int → Int
  | 0, _, _ => 0
  | fuel + 1, k, p =>
    let t := p / (2 * k + 1 : Nat)
    (if alt && k % 2 == 1 then -t else t) + fxOdd alt z fuel (k + 1) (fxMul p (fxMul z z))

def fxAtanh (z : Int) (terms : Nat) : Int := fxOdd false z terms 0 z
def fxAtan (z : Int) (terms : Nat) : Int := fxOdd true z terms 0 z

def fxPi : Int := 16 * fxAtan (fxOne / 5) 80 - 4 * fxAtan (fxOne / 239) 30
def fxLn2 : Int := 2 * fxAtanh (fxOne / 3) 110

/-- e^r for 0 ≤ r < 1. -/
def fxExpSmall (r : Int) : Int := fxSeries (fun k t => fxMul t r / (k + 1 : Nat)) 90 0 fxOne

/-- e^x as e^r · 2^k. -/
def fxExp (x : Int) : Int × Int :=
  let k := x / fxLn2
  (fxExpSmall (x - k * fxLn2), k)

/-- sin r and cos r for |r| ≤ 1. -/
def fxSinSmall (r : Int) : Int :=
  fxSeries (fun k t => -(fxMul t (fxMul r r)) / ((2 * k + 2) * (2 * k + 3) : Nat)) 50 0 r
def fxCosSmall (r : Int) : Int :=
  fxSeries (fun k t => -(fxMul t (fxMul r r)) / ((2 * k + 1) * (2 * k + 2) : Nat)) 50 0 fxOne

/-- sin (x + q·π/2). -/
def fxSin (x : Int) (q : Int) : Int :=
  let h := fxPi / 2
  let k := (2 * x + h) / (2 * h)
  let r := x - k * h
  match (k + q) % 4 with
  | 0 => fxSinSmall r
  | 1 => fxCosSmall r
  | 2 => -fxSinSmall r
  | _ => -fxCosSmall r

/-- erf x for 0 < x < 4, by the Taylor series. -/
def fxErf (x : Int) : Int :=
  let s := fxSeriesOdd x
  let rootPi := (isqrt (fxPi.toNat * 2 ^ fxBits) : Int)
  2 * s * fxOne / rootPi
where
  /-- Σ (−1)^k x^(2k+1) / (k!·(2k+1)) -/
  fxSeriesOdd (x : Int) : Int := go x 160 0 x
  go (x : Int) : Nat → Nat → Int → Int
    | 0, _, _ => 0
    | fuel + 1, k, p => p / (2 * k + 1 : Nat) + go x fuel (k + 1) (-(fxMul p (fxMul x x)) / (k + 1 : Nat))

/-! Faithful results (R154). -/

/-- The encoding of the greatest binary32 magnitude not above a fixed-point number times 2^k. -/
def floorCode (v k : Int) : Nat := (roundFinite .f32 .rz 0 false (.dyadic v.toNat (k - fxBits))).1

/-- One of the two neighbours of a result that is no binary32 value, the smaller in magnitude having the encoding `c`:
encoding and flags. -/
def faithful (code operand : Nat) (neg : Bool) (c : Nat) : Nat × Nat :=
  let r := if Config.faithfulUp code operand then c + 1 else c
  (signBit .f32 neg + r, if r < 2 ^ 23 then fOr fNX fUF else fNX)

/-- 2^a for a finite a (R157). -/
def exp2Of (op : Nat) (neg : Bool) (m : Mag) : Nat × Nat :=
  let p := m.split 0
  let x : Int := if neg then -(p.1 : Int) else p.1
  if p.2.1 = 0 ∧ -149 ≤ x ∧ x ≤ 127 then round .f32 .rne 0 (.fin false (.dyadic 1 x))
  else if !neg ∧ 128 ≤ p.1 then (infMag .f32, fOr fOF fNX)
  else if neg ∧ 152 ≤ p.1 then faithful 5 op false 0
  else
    let v := fxOf neg m
    let k := v / fxOne
    faithful 5 op false (floorCode (fxExpSmall (fxMul (v - k * fxOne) fxLn2)) k)

/-- log2 a for a positive a (R157). -/
def log2Of (op : Nat) (m : Mag) : Nat × Nat :=
  let e := m.floorLog2
  let z := m.split (e - fxBits)
  let f : Int := z.1
  if f = fxOne then round .f32 .rne 0 (.ofInt e)
  else
    let ln := 2 * fxAtanh (fxDiv (f - fxOne) (f + fxOne)) 110
    let v := e * fxOne + fxDiv ln fxLn2
    faithful 6 op (v < 0) (floorCode v.natAbs 0)

/-- Whether a magnitude is below 2^−12. -/
def tiny (m : Mag) : Bool := m.lt (.dyadic 1 (-12))

/-- sin a for |a| ≤ 2^30, a ≠ 0; of a tiny a the result lies just below it. -/
def sinOf (op : Nat) (neg : Bool) (m : Mag) : Nat × Nat :=
  if tiny m then faithful 7 op neg (op % 2 ^ 31 - 1)
  else
    let v := fxSin (fxOf neg m) 0
    faithful 7 op (v < 0) (floorCode v.natAbs 0)

/-- cos a for |a| ≤ 2^30, a ≠ 0; of a tiny a the result lies just below 1. -/
def cosOf (op : Nat) (neg : Bool) (m : Mag) : Nat × Nat :=
  if tiny m then faithful 8 op false 0x3F7FFFFF
  else
    let v := fxSin (fxOf neg m) 1
    faithful 8 op (v < 0) (floorCode v.natAbs 0)

/-- tanh a, a ≠ 0; of a tiny a the result lies just below it, of |a| ≥ 10 just below 1 in magnitude. -/
def tanhOf (op : Nat) (neg : Bool) (m : Mag) : Nat × Nat :=
  if tiny m then faithful 9 op neg (op % 2 ^ 31 - 1)
  else if !m.lt (.ofNat 10) then faithful 9 op neg 0x3F7FFFFF
  else
    let e := fxExp (2 * fxOf false m)
    let x := e.1 * 2 ^ e.2.toNat
    faithful 9 op neg (floorCode (fxDiv (x - fxOne) (x + fxOne)) 0)

/-- erf a, a ≠ 0; of |a| ≥ 4 the result lies just below 1 in magnitude. -/
def erfOf (op : Nat) (neg : Bool) (m : Mag) : Nat × Nat :=
  if !m.lt (.ofNat 4) then faithful 10 op neg 0x3F7FFFFF
  else faithful 10 op neg (floorCode (fxErf (fxOf false m)) 0)

end Sys2Proof.Machine
end

