-- ==== Sys2Proof/Machine/Vector.lean ====
section
/-! DEFINITION. Class V: element-wise forms (R143 to R145), reductions and scans (R146, R147), permutes (R148) and the
block quantisation slots (R149, R150). -/

set_option linter.unusedVariables false

namespace Sys2Proof.Machine

/-! Results. -/

/-- A floating-point result rounded once into the destination (R137, R143). -/
def fltOut (b : VBody) (draw : Nat) (v : XReal × Nat) : Nat × Nat :=
  let r := narrow b.dst b.rnd draw v.1
  (r.1, fOr v.2 r.2)

/-- An integer clamped to a type's range. -/
def clampTy (t : Ty) (v : Int) : Int :=
  let r := intRange t
  if v < r.1 then r.1 else if r.2 < v then r.2 else v

/-- An exact integer result: narrowed with saturation, clamped with `.sat`, or wrapped (R143). -/
def intOut (b : VBody) (v : Int) : Nat × Nat :=
  if b.ne then toIntTy b.nf .rz 0 (.ofInt v)
  else if bit b.vx.toNat 0 then (wrap b.ty.width (clampTy b.ty v), 0)
  else (wrap b.ty.width v, 0)

/-- A form with an integer and a floating-point meaning. -/
def arith (b : VBody) (draw : Nat) (i : Int) (f : XReal × Nat) : Nat × Nat :=
  if b.ty.isInt then intOut b i else fltOut b draw f

/-- The smaller or the larger of two elements (R118, R144). -/
def pick (b : VBody) (wantMax : Bool) (x y : El) : Nat × Nat :=
  if b.ty.isInt then
    ((if (if wantMax then decide (x.int < y.int) else decide (y.int < x.int)) then y.as b.ty else x.as b.ty), 0)
  else
    let r := fpMinMax b.ty wantMax (x.as b.ty) (y.as b.ty)
    (r.1, fOr r.2 (XReal.snanFlag [x.x, y.x]))

/-- A sign form of a floating-point element (R118). -/
def signForm (b : VBody) (f : Nat → Nat) (x : El) : Nat × Nat :=
  if x.x.isNan then (nanCode b.ty, XReal.snanFlag [x.x]) else (f (x.as b.ty), 0)

/-- A shift of an element, its count the low 8 bits of the other (R112, R143). -/
def shiftForm (b : VBody) (f : Ty → Word → Nat → Int) (x y : El) : Nat × Nat :=
  (wrap b.ty.width (f b.ty (BitVec.ofNat 64 (x.as b.ty)) (y.as b.ty % 256)), 0)

/-- A compare (R144). -/
def compare (b : VBody) (i : Int → Int → Bool) (f : XReal → XReal → Bool) (quiet : Bool) (x y : El) : Nat × Nat :=
  if b.ty.isInt then (b2n (i x.int y.int), 0)
  else (b2n (f x.x y.x), if quiet then XReal.snanFlag [x.x, y.x] else if x.x.isNan || y.x.isNan then fNV else 0)

/-- The element-wise forms: element `i` of the result and its flags, from the elements of A, B and C and a draw. -/
def vElem (op : VOp) (b : VBody) (i : Nat) (x y z : El) (draw : Nat) : Nat × Nat :=
  let down := b.rnd == .rd
  let w := b.ty.width
  match op with
  | .vadd => arith b draw (x.int + y.int) (XReal.add down x.x y.x)
  | .vsub => arith b draw (x.int - y.int) (XReal.add down x.x y.x.negate)
  | .vfma => fltOut b draw (XReal.fma down x.x y.x z.x)
  | .vmul => arith b draw (x.int * y.int) (XReal.mul x.x y.x)
  | .vmin => pick b false x y
  | .vmax => pick b true x y
  | .vabs => if b.ty.isInt then intOut b x.int.natAbs else signForm b (fpAbs b.ty) x
  | .vneg => if b.ty.isInt then intOut b (-x.int) else signForm b (fpNeg b.ty) x
  | .vand => (x.as b.ty &&& y.as b.ty, 0)
  | .vor => (x.as b.ty ||| y.as b.ty, 0)
  | .vxor => (x.as b.ty ^^^ y.as b.ty, 0)
  | .vshl => shiftForm b shlInt x y
  | .vshr => shiftForm b shrInt x y
  | .vsar => shiftForm b sarInt x y
  | .vmov | .vfill => (x.as b.ty, 0)
  | .vclamp =>
    let m := pick b true x y
    let r := pick b false ⟨b.ty, m.1⟩ z
    let q := arith b draw (El.int ⟨b.ty, r.1⟩) (decode b.ty r.1, 0)
    (q.1, fOr (fOr m.2 r.2) q.2)
  | .vmad => intOut b (x.int * y.int + z.int)
  | .viota => (wrap w (x.int + i * y.int), 0)
  | .vceq => compare b (fun m n => m == n) XReal.eq true x y
  | .vcne => compare b (fun m n => m != n) (fun m n => !XReal.eq m n) true x y
  | .vclt => compare b (fun m n => decide (m < n)) XReal.lt false x y
  | .vcle => compare b (fun m n => decide (m ≤ n)) XReal.le false x y
  | .vcun => compare b (fun _ _ => false) (fun m n => m.isNan || n.isNan) true x y
  | .vsel => (if z.x.isZero then y.as b.ty else x.as b.ty, 0)
  | .vcvt => fltOut b draw (x.x, 0)
  -- a subfield is widened to the 32-bit word whose bytes the form takes (DESIGN CHOICE, log entry 165)
  | .vdp4 => (wrap 32 (dot4 b.ty (x.as .n32) (y.as .n32) z.int), 0)
  | _ => (0, 0)

/-! What each form asks of its stream. -/

/-- The unsigned type of a width, in which a scalar mask is tested. -/
def maskTy (w : Nat) : Ty := if w = 8 then .n8 else if w = 16 then .n16 else if w = 32 then .n32 else .n64

/-- The types that a form gives its slots (R135, R144 to R150). -/
def vReq (op : VOp) (b : VBody) (slot : Nat) (t : Ty) : Bool :=
  match op, slot with
  | .vcvt, 0 => t.code == b.vx.toNat % 32
  | .vsel, 2 => t == .n8
  | .vdp4, 0 | .vdp4, 1 => t == .n32
  | .vdp4, _ => t == (if b.ty = .i8 then .i32 else .n32)
  | .vceq, 3 | .vcne, 3 | .vclt, 3 | .vcle, 3 | .vcun, 3 => t == .n8
  | .vrarg, 3 => t == .n32
  | .vperm, 1 => t == .n8
  | .vgthl, 1 => t == .n16 || t == .n32
  | .vqcvt, 3 => t == .n8
  | _, 3 => t == b.dst
  | _, _ => t == b.ty

/-- The type of a scalar operand of a slot. -/
def vScalTy (op : VOp) (b : VBody) (slot : Nat) : Ty :=
  match op, slot with
  | .vcvt, 0 => (Ty.ofCode (b.vx.toNat % 32)).getD .i8
  | .vsel, 2 => maskTy b.ty.width
  | .vdp4, 2 => if b.ty = .i8 then .i32 else .n32
  | .vqcvt, 1 => .n8
  | _, _ => b.ty

/-- The constant index of `vbcast`. -/
def bcastIdx (b : VBody) : Nat := bits b.vx.toNat 15 0

/-- Elements that a form touches of a slot, of n and the region's COUNT (R135, R148, R150). Of a source that data choose from, all
that they can choose count: of `vgthl` the table, of `vperm` its blocks of 64 up to COUNT (DESIGN CHOICE, log entry 163). -/
def vTouch (op : VOp) (b : VBody) (slot n count : Nat) : Nat :=
  match op, slot with
  | .vperm, 0 => Nat.min count (64 * ceilDiv n 64)
  | .vgthl, 0 => count
  | .vbcast, 0 => if bcastIdx b < count then 1 else 0
  | .vrev, 0 => Nat.min n count
  | .vqcvt, 3 => 64
  | .vrsum, 3 | .vrmax, 3 | .vrmin, 3 | .vrarg, 3 => 1
  | _, _ => n

/-- The order in which a permute reads its A (R148): `vrev` reads element n − 1 − i with element i of D. -/
def vOrder (op : VOp) (b : VBody) (slot n count : Nat) : Nat × Bool × Nat :=
  match op, slot with
  | .vbcast, 0 => (bcastIdx b, false, 0)
  | .vrev, 0 => (Nat.min n count - 1, true, n - count)
  | _, _ => (0, false, 0)

/-- Numbers drawn for a word of n elements (R142): one for each that is rounded, a narrowed integer too (R71, R72). -/
def vDraws (op : VOp) (b : VBody) (n : Nat) : Nat :=
  match op with
  | .vcvt | .vqcvt => n
  | .vrsum => if b.ty.isInt && !b.ne then 0 else 1
  | .vadd | .vsub | .vfma | .vmul | .vclamp | .vscan => if b.ty.isInt && !b.ne then 0 else n
  | _ => 0

/-- The value that a reduction delivers for n = 0 (R136, R146, R149). -/
def vEmpty (op : VOp) (b : VBody) : Option Nat :=
  match op with
  | .vrsum => some (if b.ty.isInt then 0 else (fltOut b 0 (.zero false, 0)).1)
  | .vrmax => some (if b.ty.isInt then wrap b.ty.width (intRange b.ty).1 else signBit b.ty true + infMag b.ty)
  | .vrmin => some (if b.ty.isInt then wrap b.ty.width (intRange b.ty).2 else infMag b.ty)
  | .vrarg => some 0xFFFFFFFF
  | .vqmax => some 127
  | _ => none

/-- The strand cycles from the start to the result, beside the groups' (R139, R146, R149, R150). -/
def vLat : VOp → Nat
  | .vrsum | .vrmax | .vrmin | .vrarg => 8
  | .vqmax => 7
  | .vqcvt => 6
  | _ => 5

/-- Whether a form has one result at the end. -/
def vFinal (op : VOp) : Bool := vLat op != 5

/-- The format of a block slot. -/
def slotFmt (b : VBody) : Ty := (Ty.ofCode (b.vx.toNat % 32)).getD .i8

/-- What a V form asks of its stream. -/
def vForm (op : VOp) (b : VBody) : StreamForm :=
  { req := vReq op b, cnt := if vFinal op then 0 else 3
    whole := fun slot => !((op == .vperm || op == .vgthl || op == .vbcast || op == .vrev) && slot == 0)
    touch := vTouch op b, order := vOrder op b, mixed := fun slot => slot == 0 && op == .vgthl
    time := fun slot r =>
      if op = .vgthl ∧ slot = 0 then (if r.ty.width = 64 then 16 else 8) else r.groupTime
    per := 64, draws := vDraws op b
    dstOk := fun r => !(op == .vqcvt) || (r.stride == 1 && r.base % 64 == 0)
    late := fun n => check (!(op == .vqcvt && decide (blockCapacity (slotFmt b) < n))) (trapFF 1 (slotFmt b).code)
    lat := vLat op, final := vFinal op, empty := vEmpty op b }

/-! Groups. -/

/-- The largest or smallest of the elements (R146). -/
def reducePick (b : VBody) (wantMax : Bool) (es : List El) : Nat × Nat :=
  match es with
  | [] => ((vEmpty (if wantMax then .vrmax else .vrmin) b).getD 0, 0)
  | e :: r =>
    let first : Nat × Nat := if !b.ty.isInt && e.x.isNan then (nanCode b.ty, XReal.snanFlag [e.x]) else (e.as b.ty, 0)
    r.foldl (fun m y => let q := pick b wantMax ⟨b.ty, m.1⟩ y; (q.1, fOr m.2 q.2)) first

/-- Whether element `y` beats `x` in an index reduction. -/
def beats (b : VBody) (wantMax : Bool) (y x : El) : Bool :=
  if b.ty.isInt then (if wantMax then decide (x.int < y.int) else decide (y.int < x.int))
  else if wantMax then fpBelow b.ty (x.as b.ty) (y.as b.ty) else fpBelow b.ty (y.as b.ty) (x.as b.ty)

/-- The index of the first largest or smallest element; NaN elements are never chosen (R146). -/
def reduceArg (b : VBody) (es : List El) : Nat × Nat :=
  let wantMax := !bit b.vx.toNat 0
  let best := es.zipIdx.foldl
    (fun (m : Option (El × Nat)) e =>
      if !b.ty.isInt && e.1.x.isNan then m
      else match m with
        | none => some e
        | some x => if beats b wantMax e.1 x.1 then some e else m)
    none
  (match best with | some x => x.2 | none => 0xFFFFFFFF, if b.ty.isInt then 0 else XReal.snanFlag (es.map El.x))

/-- The sum of the elements (R80, R146). -/
def reduceSum (b : VBody) (draw : Nat) (es : List El) : Nat × Nat :=
  if b.ty.isInt then intOut b (es.foldl (fun m e => m + e.int) 0)
  else fltOut b draw (treeSum 17 (es.map El.x))

/-- The running sum of a scan, as its carry holds it (R147): sign and magnitude, or a binary64 encoding. -/
def scanCarry (b : VBody) (carry : List Nat) : Int :=
  if b.ty.isInt then (if carry.getD 0 0 = 1 then -(carry.getD 1 0 : Int) else carry.getD 1 0) else carry.getD 0 0

/-- A scan over the elements of a group: results, flags and the carry after it. -/
def scanOver (b : VBody) : Int → List (El × Nat) → List (Nat × Nat) × Int
  | t, [] => ([], t)
  | t, (e, draw) :: r =>
    if b.ty.isInt then
      let t' := t + e.int
      let q := scanOver b t' r
      (intOut b t' :: q.1, q.2)
    else
      let a := XReal.add false (decode .f64 t.toNat) e.x
      let m := round .f64 .rne 0 a.1
      let o := fltOut b draw (decode .f64 m.1, fOr a.2 m.2)
      let q := scanOver b m.1 r
      (o :: q.1, q.2)

/-- The index that element `i` of slot B gives a permute; whether it is all ones (R148). Of a subfield, its code widened to the
operation's type serves, all ones at that width (DESIGN CHOICE, log entry 164). -/
def permIndex (b : VBody) (y : El) : Nat × Bool :=
  if b.subSlot = 2 then (y.as b.ty, y.as b.ty + 1 == 2 ^ b.ty.width) else (y.code, y.code + 1 == 2 ^ y.ty.width)

/-- The group of a V stream that is due: its sources read, its results landed or carried. -/
def State.vGroup (s : State) (op : VOp) (b : VBody) (st : Stream) : State :=
  let f := op.form
  let el (slot i : Nat) : El := st.el s f b (vScalTy op b slot) slot i
  let tab := rgn (st.regs.getD 0 0)
  let move (j : Nat) : Nat × Nat := if j < tab.count then ((el 0 j).as b.ty, 0) else (0, 0)
  let codes (cs : List Nat) : List El := cs.map fun c => ⟨(el 0 0).ty, c⟩
  let fold (fin : List El → List Eff × Nat) : State :=
    s.foldGroup st (vLat op) 64 (fun i => (el 0 i).code) fun cs => some (fin (codes cs))
  let one (r : Nat × Nat) : List Eff × Nat := ([st.result b r.1], r.2)
  match op with
  | .vrsum => fold fun es => one (reduceSum b (st.draws.getD 0 0) es)
  | .vrmax => fold fun es => one (reducePick b true es)
  | .vrmin => fold fun es => one (reducePick b false es)
  | .vrarg => fold fun es => one (reduceArg b es)
  | .vqmax => fold fun es => one (blockScale (slotFmt b) (es.map El.x), XReal.snanFlag (es.map El.x))
  | .vqcvt =>
    fold fun es =>
      let e := (el 1 0).code % 256
      let rs := es.zipIdx.map fun x => blockElem (slotFmt b) b.rnd (st.draws.getD x.2 0) e x.1.x
      ([.store (rgn (st.regs.getD 3 0)).base (blockBytes (slotFmt b) e (rs.map Prod.fst))],
       rs.foldl (fun m r => fOr m r.2) 0)
  | .vscan =>
    let is := st.elems 64
    let r := scanOver b (scanCarry b st.carry) (is.map fun i => (el 0 i, st.draws.getD i 0))
    let d := rgn (st.regs.getD 3 0)
    s.landGroup { st with carry := if b.ty.isInt then [b2n (decide (r.2 < 0)), r.2.natAbs] else [r.2.toNat] } 5 64
      ((is.zip r.1).map fun x => (d.put x.1 x.2.1, x.2.2))
  | .vperm => s.mapGroup st 5 64 fun i => some (move (64 * (i / 64) + (permIndex b (el 1 i)).1 % 64))
  | .vgthl =>
    s.mapGroup st 5 64 fun i =>
      let j := permIndex b (el 1 i)
      if j.2 then none else some (move j.1)
  -- an element beyond COUNT of A is zero here too (DESIGN CHOICE, log entry 57)
  | .vrev => s.mapGroup st 5 64 fun i => some (move (st.n - 1 - i))
  | .vbcast =>
    -- A[idx] is read once, with the first group
    let v := match st.carry with | [v] => v | _ => (move (bcastIdx b)).1
    s.mapGroup { st with carry := [v] } 5 64 fun _ => some (v, 0)
  | op => s.mapGroup st 5 64 fun i => some (vElem op b i (el 0 i) (el 1 i) (el 2 i) (st.draws.getD i 0))

/-- A V word issued. -/
def issueV (op : VOp) (h : Hdr) (b : VBody) (s : State) : Host.Outcome State Fault Refusal :=
  .next (s.issue (.v op h b) (streamOp .v (op.instr h b) op.form h b (vForm op b)))

/-! The instructions. -/

/-- `vadd` (R143): a + b. -/
def execVadd (h : Hdr) (b : VBody) : State → Host.Outcome State Fault Refusal := issueV .vadd h b

/-- `vsub` (R143): a − b. -/
def execVsub (h : Hdr) (b : VBody) : State → Host.Outcome State Fault Refusal := issueV .vsub h b

/-- `vfma` (R143): a·b + c. -/
def execVfma (h : Hdr) (b : VBody) : State → Host.Outcome State Fault Refusal := issueV .vfma h b

/-- `vmul` (R143): a·b. -/
def execVmul (h : Hdr) (b : VBody) : State → Host.Outcome State Fault Refusal := issueV .vmul h b

/-- `vmin` (R143): the smaller. -/
def execVmin (h : Hdr) (b : VBody) : State → Host.Outcome State Fault Refusal := issueV .vmin h b

/-- `vmax` (R143): the larger. -/
def execVmax (h : Hdr) (b : VBody) : State → Host.Outcome State Fault Refusal := issueV .vmax h b

/-- `vabs` (R143): |a|. -/
def execVabs (h : Hdr) (b : VBody) : State → Host.Outcome State Fault Refusal := issueV .vabs h b

/-- `vneg` (R143): −a. -/
def execVneg (h : Hdr) (b : VBody) : State → Host.Outcome State Fault Refusal := issueV .vneg h b

/-- `vand` (R143): and. -/
def execVand (h : Hdr) (b : VBody) : State → Host.Outcome State Fault Refusal := issueV .vand h b

/-- `vor` (R143): or. -/
def execVor (h : Hdr) (b : VBody) : State → Host.Outcome State Fault Refusal := issueV .vor h b

/-- `vxor` (R143): exclusive or. -/
def execVxor (h : Hdr) (b : VBody) : State → Host.Outcome State Fault Refusal := issueV .vxor h b

/-- `vshl` (R143): shift left. -/
def execVshl (h : Hdr) (b : VBody) : State → Host.Outcome State Fault Refusal := issueV .vshl h b

/-- `vshr` (R143): shift right. -/
def execVshr (h : Hdr) (b : VBody) : State → Host.Outcome State Fault Refusal := issueV .vshr h b

/-- `vsar` (R143): arithmetic shift right. -/
def execVsar (h : Hdr) (b : VBody) : State → Host.Outcome State Fault Refusal := issueV .vsar h b

/-- `vmov` (R143): the copy. -/
def execVmov (h : Hdr) (b : VBody) : State → Host.Outcome State Fault Refusal := issueV .vmov h b

/-- `vclamp` (R143): min(max(a, b), c). -/
def execVclamp (h : Hdr) (b : VBody) : State → Host.Outcome State Fault Refusal := issueV .vclamp h b

/-- `vfill` (R143): the fill. -/
def execVfill (h : Hdr) (b : VBody) : State → Host.Outcome State Fault Refusal := issueV .vfill h b

/-- `vmad` (R143): a·b + c. -/
def execVmad (h : Hdr) (b : VBody) : State → Host.Outcome State Fault Refusal := issueV .vmad h b

/-- `viota` (R143): a + i·b. -/
def execViota (h : Hdr) (b : VBody) : State → Host.Outcome State Fault Refusal := issueV .viota h b

/-- `vceq` (R144). -/
def execVceq (h : Hdr) (b : VBody) : State → Host.Outcome State Fault Refusal := issueV .vceq h b

/-- `vcne` (R144). -/
def execVcne (h : Hdr) (b : VBody) : State → Host.Outcome State Fault Refusal := issueV .vcne h b

/-- `vclt` (R144). -/
def execVclt (h : Hdr) (b : VBody) : State → Host.Outcome State Fault Refusal := issueV .vclt h b

/-- `vcle` (R144). -/
def execVcle (h : Hdr) (b : VBody) : State → Host.Outcome State Fault Refusal := issueV .vcle h b

/-- `vcun` (R144). -/
def execVcun (h : Hdr) (b : VBody) : State → Host.Outcome State Fault Refusal := issueV .vcun h b

/-- `vsel` (R145). -/
def execVsel (h : Hdr) (b : VBody) : State → Host.Outcome State Fault Refusal := issueV .vsel h b

/-- `vcvt` (R145). -/
def execVcvt (h : Hdr) (b : VBody) : State → Host.Outcome State Fault Refusal := issueV .vcvt h b

/-- `vdp4` (R145). -/
def execVdp4 (h : Hdr) (b : VBody) : State → Host.Outcome State Fault Refusal := issueV .vdp4 h b

/-- `vrsum` (R146). -/
def execVrsum (h : Hdr) (b : VBody) : State → Host.Outcome State Fault Refusal := issueV .vrsum h b

/-- `vrmax` (R146). -/
def execVrmax (h : Hdr) (b : VBody) : State → Host.Outcome State Fault Refusal := issueV .vrmax h b

/-- `vrmin` (R146). -/
def execVrmin (h : Hdr) (b : VBody) : State → Host.Outcome State Fault Refusal := issueV .vrmin h b

/-- `vrarg` (R146). -/
def execVrarg (h : Hdr) (b : VBody) : State → Host.Outcome State Fault Refusal := issueV .vrarg h b

/-- `vscan` (R147). -/
def execVscan (h : Hdr) (b : VBody) : State → Host.Outcome State Fault Refusal := issueV .vscan h b

/-- `vperm` (R148). -/
def execVperm (h : Hdr) (b : VBody) : State → Host.Outcome State Fault Refusal := issueV .vperm h b

/-- `vbcast` (R148). -/
def execVbcast (h : Hdr) (b : VBody) : State → Host.Outcome State Fault Refusal := issueV .vbcast h b

/-- `vgthl` (R148). -/
def execVgthl (h : Hdr) (b : VBody) : State → Host.Outcome State Fault Refusal := issueV .vgthl h b

/-- `vrev` (R148). -/
def execVrev (h : Hdr) (b : VBody) : State → Host.Outcome State Fault Refusal := issueV .vrev h b

/-- `vqmax` (R149). -/
def execVqmax (h : Hdr) (b : VBody) : State → Host.Outcome State Fault Refusal := issueV .vqmax h b

/-- `vqcvt` (R150). -/
def execVqcvt (h : Hdr) (b : VBody) : State → Host.Outcome State Fault Refusal := issueV .vqcvt h b

end Sys2Proof.Machine
end

