-- ==== Sys2Proof/Machine/Special.lean ====
section
/-! DEFINITION. Class F: latch words and streams (R151 to R153) and the forms (R154 to R161). -/

set_option linter.unusedVariables false

namespace Sys2Proof.Machine

/-! Latencies and types. -/

/-- L of R153. -/
def fLat : FOp → Nat
  | .frcpe | .frsqe => 4
  | .fexp2 | .flog2 => 8
  | .fsin | .fcos | .ftanh | .ferf => 10
  | .frcp | .fsqrt => 12
  | _ => 2

/-- The types that a form gives its slots (R151, R160). -/
def fReq (op : FOp) (b : VBody) (slot : Nat) (t : Ty) : Bool :=
  match op, slot with
  | .fscl, 1 => t == .i32
  | .fcvt, 0 => t.code == b.vx.toNat % 32
  | .fcvt, 3 => t == b.ty
  | .fxtrExp, 3 => t == .i32
  | .fcls, 3 => t == .n32
  | _, 3 => t == b.dst
  | _, _ => t == .f32

/-- The type of a scalar operand of a slot. -/
def fScalTy (op : FOp) (b : VBody) (slot : Nat) : Ty :=
  match op, slot with
  | .fscl, 1 => .i32
  | .fcvt, 0 => (Ty.ofCode (b.vx.toNat % 32)).getD .f32
  | _, _ => .f32

/-- Whether a word rounds in RND: its elements then draw in mode `.rs`. -/
def fRounds (op : FOp) (b : VBody) : Bool := rndUsed op.form.rnd b.ty.code b.ne

def fForm (op : FOp) (b : VBody) : StreamForm :=
  { req := fReq op b
    container := fun slot t => !(op == .fscl && slot == 1) || t == .i32 || t == .n32
    per := 16, draws := fun n => if fRounds op b then n else 0, lat := fLat op - 1 }

/-! Results. -/

/-- A result rounded once from its exact value (R151). -/
def fExact (b : VBody) (draw : Nat) (x : XReal) (flags : Nat := 0) : Nat × Nat :=
  let r := narrow (if b.ne then b.nf else .f32) b.rnd draw x
  (r.1, fOr flags r.2)

/-- A binary32 result, narrowed where NE says so (R151). -/
def fNarrow (b : VBody) (draw : Nat) (r : Nat × Nat) : Nat × Nat :=
  if b.ne then fExact b draw (decode .f32 r.1) r.2 else r

def nan32 : Nat := nanCode .f32
def inf32 (neg : Bool) : Nat := signBit .f32 neg + infMag .f32

/-- A function of a binary32 operand: canonical NaN for a NaN (with NV for a signalling one), else by its kind. -/
def onReal (x : El) (fin : Bool → Mag → Nat × Nat) (inf : Bool → Nat × Nat) : Nat × Nat :=
  match x.x with
  | .nan s => (nan32, if s then fNV else 0)
  | .inf s => inf s
  | .fin s m => fin s m

/-- `frnd` (R160): an integral value with the operand's sign. -/
def roundIntegral (mode : Rnd) (draw : Nat) (x : XReal) : XReal × Nat :=
  match x with
  | .fin s m =>
    let p := m.split 0
    (.fin s (.ofNat (roundNat mode s draw p)), if p.2.1 = 0 then 0 else fNX)
  | y => (y, XReal.snanFlag [y])

/-- One element of an F form: encoding and flags, from the elements of A, B and C and a draw. -/
def fElem (op : FOp) (b : VBody) (x y z : El) (draw : Nat) : Nat × Nat :=
  let c := x.as .f32
  match op with
  | .frcp =>
    match x.x with
    | .fin s m => if m.isZero then fExact b draw (.inf s) fDZ else fExact b draw (.fin s (Mag.div (.ofNat 1) m))
    | .inf s => fExact b draw (.zero s)
    | .nan s => fExact b draw (.nan s)
  | .fsqrt =>
    match x.x with
    | .fin s m =>
      if m.isZero then fExact b draw (.zero s) else if s then fExact b draw (.nan true) else fExact b draw (.fin false (sqrtMag m))
    | .inf s => if s then fExact b draw (.nan true) else fExact b draw (.inf false)
    | .nan s => fExact b draw (.nan s)
  | .frcpe =>
    fNarrow b draw (onReal x
      (fun s m => if m.isZero then (inf32 s, fDZ) else (seedCode s (Mag.div (.ofNat 1) m), 0))
      (fun s => (signBit .f32 s, 0)))
  | .frsqe =>
    fNarrow b draw (onReal x
      (fun s m =>
        if m.isZero then (inf32 s, fDZ) else if s then (nan32, fNV)
        else (seedCode false (sqrtMag (Mag.div (.ofNat 1) m)), 0))
      (fun s => if s then (nan32, fNV) else (0, 0)))
  | .fexp2 => fNarrow b draw (onReal x (fun s m => exp2Of c s m) (fun s => (if s then 0 else inf32 false, 0)))
  | .flog2 =>
    fNarrow b draw (onReal x
      (fun s m => if m.isZero then (inf32 true, fDZ) else if s then (nan32, fNV) else log2Of c m)
      (fun s => if s then (nan32, fNV) else (inf32 false, 0)))
  | .fsin =>
    fNarrow b draw (onReal x
      (fun s m =>
        if m.isZero then (c, 0) else if Mag.lt (.dyadic 1 30) m then (nan32, fRANGE) else sinOf c s m)
      (fun _ => (nan32, fNV)))
  | .fcos =>
    fNarrow b draw (onReal x
      (fun s m =>
        if m.isZero then (0x3F800000, 0) else if Mag.lt (.dyadic 1 30) m then (nan32, fRANGE) else cosOf c s m)
      (fun _ => (nan32, fNV)))
  | .ftanh =>
    fNarrow b draw (onReal x (fun s m => if m.isZero then (c, 0) else tanhOf c s m)
      (fun s => (signBit .f32 s + 0x3F800000, 0)))
  | .ferf =>
    fNarrow b draw (onReal x (fun s m => if m.isZero then (c, 0) else erfOf c s m)
      (fun s => (signBit .f32 s + 0x3F800000, 0)))
  | .fscl =>
    -- a scale beyond 1000 binary places rounds as that one does
    let k := if y.int < -1000 then -1000 else if 1000 < y.int then 1000 else y.int
    fExact b draw (x.x.scale k)
  | .fxtrExp =>
    match x.x with
    | .fin _ m => if m.isZero then (0x80000000, fNV) else (wrap 32 m.floorLog2, 0)
    | .inf _ => (0x7FFFFFFF, fNV)
    | .nan _ => (0x80000000, fNV)
  | .fxtrMan =>
    fNarrow b draw (onReal x
      (fun s m => if m.isZero then (c, 0) else round .f32 .rne 0 (.fin s (m.scale (-m.floorLog2))))
      (fun _ => (c, 0)))
  | .frnd =>
    let r := roundIntegral b.rnd draw x.x
    fExact b draw r.1 r.2
  | .fcls =>
    let bitNo :=
      match x.x with
      | .inf s => if s then 0 else 7
      | .nan s => if s then 8 else 9
      | .fin s m =>
        if m.isZero then (if s then 3 else 4)
        else if m.lt (.dyadic 1 (-126)) then (if s then 2 else 5)
        else if s then 1 else 6
    (2 ^ bitNo, 0)
  | .fcvt => narrow b.ty b.rnd draw x.x
  | .fmov => (c, 0)
  | .fsgn =>
    let sx := bit c 31
    let sy := bit (y.as .f32) 31
    let s := match b.vx.toNat % 4 with | 0 => sy | 1 => !sy | _ => sx != sy
    (c % 2 ^ 31 + signBit .f32 s, 0)
  | .fmag =>
    let es := x :: ((if b.b = .absent then [] else [y]) ++ (if b.c = .absent then [] else [z]))
    let fl := XReal.snanFlag (es.map El.x)
    fNarrow b draw
      (if es.any fun e => e.x.isNan then (nan32, fl)
       else (es.foldl (fun m e => Nat.max m (e.as .f32 % 2 ^ 31)) 0, fl))

/-- `fmov` and `fsgn` carry NaN payloads, so their operand is the 32 bits as they stand; a subfield has none. -/
def State.fGroup (s : State) (op : FOp) (b : VBody) (st : Stream) : State :=
  let el (slot i : Nat) : El := st.el s op.form b (fScalTy op b slot) slot i
  s.mapGroup st (fLat op - 1) 16 fun i => some (fElem op b (el 0 i) (el 1 i) (el 2 i) (st.draws.getD i 0))

/-- A latch-mode word: its result due at s + L, its end s + 1 (R152). -/
def latchOp (op : FOp) (h : Hdr) (b : VBody) (n : Fin 16) : Operation := fun s =>
  match s.t.streamOperands .f op.form h b with
  | .error x => .error x
  | .ok (vs, t1) =>
    let start := Nat.max s.t.ctx.sclk s.t.fEnd
    let d := (s.setStrand s.cur { t1 with fEnd := start + 1 }).draw b.rnd (if fRounds op b then 1 else 0)
    let el (slot : Nat) : El := ⟨fScalTy op b slot, (vs.getD slot 0).toNat % 2 ^ (fScalTy op b slot).width⟩
    let r := fElem op b (el 0) (el 1) (el 2) (d.1.headD 0)
    .ok { s := d.2.upd fun t => t.addLanding
            { id := 0, seq := t.seq, due := start + fLat op, effs := [.lf n (BitVec.ofNat 64 r.1)], flags := r.2 } }

/-- An F word issued: in latch mode or in stream mode by its destination (R151). -/
def issueF (op : FOp) (h : Hdr) (b : VBody) (s : State) : Host.Outcome State Fault Refusal :=
  .next (s.issue (.f op h b)
    (match b.d with
     | .lf n => latchOp op h b n
     | _ => streamOp .f (op.instr h b) op.form h b (fForm op b)))

/-! The instructions. -/

/-- `frcp` (R155). -/
def execFrcp (h : Hdr) (b : VBody) : State → Host.Outcome State Fault Refusal := issueF .frcp h b

/-- `fsqrt` (R155). -/
def execFsqrt (h : Hdr) (b : VBody) : State → Host.Outcome State Fault Refusal := issueF .fsqrt h b

/-- `frcpe` (R156). -/
def execFrcpe (h : Hdr) (b : VBody) : State → Host.Outcome State Fault Refusal := issueF .frcpe h b

/-- `frsqe` (R156). -/
def execFrsqe (h : Hdr) (b : VBody) : State → Host.Outcome State Fault Refusal := issueF .frsqe h b

/-- `fexp2` (R157). -/
def execFexp2 (h : Hdr) (b : VBody) : State → Host.Outcome State Fault Refusal := issueF .fexp2 h b

/-- `flog2` (R157). -/
def execFlog2 (h : Hdr) (b : VBody) : State → Host.Outcome State Fault Refusal := issueF .flog2 h b

/-- `fsin` (R158). -/
def execFsin (h : Hdr) (b : VBody) : State → Host.Outcome State Fault Refusal := issueF .fsin h b

/-- `fcos` (R158). -/
def execFcos (h : Hdr) (b : VBody) : State → Host.Outcome State Fault Refusal := issueF .fcos h b

/-- `ftanh` (R159). -/
def execFtanh (h : Hdr) (b : VBody) : State → Host.Outcome State Fault Refusal := issueF .ftanh h b

/-- `ferf` (R159). -/
def execFerf (h : Hdr) (b : VBody) : State → Host.Outcome State Fault Refusal := issueF .ferf h b

/-- `fscl` (R160). -/
def execFscl (h : Hdr) (b : VBody) : State → Host.Outcome State Fault Refusal := issueF .fscl h b

/-- `fxtrExp` (R160). -/
def execFxtrExp (h : Hdr) (b : VBody) : State → Host.Outcome State Fault Refusal := issueF .fxtrExp h b

/-- `fxtrMan` (R160). -/
def execFxtrMan (h : Hdr) (b : VBody) : State → Host.Outcome State Fault Refusal := issueF .fxtrMan h b

/-- `frnd` (R160). -/
def execFrnd (h : Hdr) (b : VBody) : State → Host.Outcome State Fault Refusal := issueF .frnd h b

/-- `fcls` (R160). -/
def execFcls (h : Hdr) (b : VBody) : State → Host.Outcome State Fault Refusal := issueF .fcls h b

/-- `fcvt` (R160). -/
def execFcvt (h : Hdr) (b : VBody) : State → Host.Outcome State Fault Refusal := issueF .fcvt h b

/-- `fmov` (R161). -/
def execFmov (h : Hdr) (b : VBody) : State → Host.Outcome State Fault Refusal := issueF .fmov h b

/-- `fsgn` (R161). -/
def execFsgn (h : Hdr) (b : VBody) : State → Host.Outcome State Fault Refusal := issueF .fsgn h b

/-- `fmag` (R161). -/
def execFmag (h : Hdr) (b : VBody) : State → Host.Outcome State Fault Refusal := issueF .fmag h b

end Sys2Proof.Machine
end

