-- ==== Sys2Proof/Machine/Cycle.lean ====
section
/-! DEFINITION. The strand cycle (R20 to R30): the places it runs through, what falls at each, the events of a strand's
own time (landings, streams, matrix words, interrupts, watchdogs, holds) and the choice of the strand that acts next. -/

set_option linter.unusedVariables false

namespace Sys2Proof.Machine

/-! Landings. -/

/-- Whether what a landing waits for has come (R27). -/
def State.landingReady (s : State) (l : Landing) : Bool :=
  let t := s.t
  let ls := if t.frozen then t.hpend else t.pend
  match l.wait with
  | .none => true
  | .data => l.arrived
  | .scratch _ _ _ _ => l.arrived
  | .fence ids lim => if ids.isEmpty then l.arrived else !s.anyLeft ids lim
  | .recv slot =>
    let ahead := ls.filter fun m => m.seq < l.seq && (match m.wait with | .recv k => k == slot | _ => false)
    decide (ahead.length < (s.circuit s.core slot).buffer.length)
  | .barrier level a => decide (a ≤ (s.gang t.gang).released t.rank level)
  | .flush seq =>
    (t.asyncs.all fun a => !(a.eng == .n && decide (a.seq < seq) && a.open_)) &&
      ls.all fun m => !(decide (m.seq < seq) &&
        (match m.wait with | .recv _ | .barrier _ _ | .flush _ => true | _ => false))
  | .channel ch => decide (inChannel t.asyncs ch ≤ 32)
  | .row _ _ _ => !t.asyncs.any fun a => a.land == some l.id && !a.performed

/-- The landings whose due cycle has come, of the handler's clock while it runs. -/
def Strand.dueLandings (t : Strand) : List Landing :=
  (if t.frozen then t.hpend else t.pend).filter fun l => decide (l.due ≤ t.clock)

/-- The due landing whose word issued first (R26). -/
def firstIssued : List Landing → Option Landing
  | [] => none
  | l :: r => some (r.foldl (fun m x => if x.seq < m.seq then x else m) l)

/-- A landing taken from its list. -/
def Strand.takeLanding (t : Strand) (l : Landing) : Strand :=
  if t.frozen then { t with hpend := t.hpend.erase l } else { t with pend := t.pend.erase l }

/-- The oldest packet of a circuit goes to a receive's destination, and its credit starts back (R227, R228). -/
def State.takePacket (s : State) (l : Landing) (slot : Nat) : List Eff × State :=
  let c := s.circuit s.core slot
  match c.buffer with
  | [] => ([], s)
  | bs :: rest =>
    let e := s.slotEntry s.core slot
    let bad := c.bufBad.headD []
    let s1 := (s.setCircuit s.core slot fun c => { c with buffer := rest, bufBad := c.bufBad.drop 1 }).upd fun t =>
      { t with popped := t.popped ++ [(slot, bs, bad)] }
    let s2 :=
      if peerPkg e = s.dev.pkg then s1.schedule (s1.opening slot s1.now) (.creditReturn (peerCore e) slot) else s1
    match l.vals with
    | [1, d] =>
      let r := rgn d
      let at_ := (r.at_ 0 / 2).toNat
      (if r.count = 0 then []
       else .store at_ (bs.take r.bytes) ::
         (bad.filter fun i => decide (i < bs.length) && decide (i < r.bytes)).map fun i => .poison (at_ + i), s2)
    | [_, q, tok] => ([.push q tok (BitVec.ofNat 64 (leNat (bs.take 8)))], s2)
    | _ => ([], s2)

/-- A landing lands: its effects, its flags, and the raise of its word (R24, R25, R59). -/
def State.land (s : State) (l : Landing) : State :=
  let h := s.t.frozen
  let s1 := s.upd fun t => t.takeLanding l
  let p := match l.wait with
    | .recv slot => s1.takePacket l slot
    | .row _ _ _ => ([], s1.upd fun t => { t with asyncs := t.asyncs.filter fun a => a.land != some l.id })
    | _ => ([], s1)
  let r := p.2.applyEffs h (l.effs ++ p.1)
  (r.1.upd fun t => t.setFlags (fOr l.flags r.2)).raise l.spost

/-- Whether a receive would deliver a poisoned unit of its packet into a queue register (R359, R383). -/
def State.packetStruck (s : State) (l : Landing) : Bool :=
  match l.wait, l.vals with
  | .recv slot, [0, _, _] => ((s.circuit s.core slot).bufBad.headD []).any fun i => decide (i < 8)
  | _, _ => false

/-- The next landing of the strand acted on, if it is due and everything due has come; of one kind. -/
def State.landNext (s : State) (k : LandKind) : State :=
  let due := s.t.dueLandings
  if due.all s.landingReady then
    match firstIssued due with
    | some l =>
      if l.kind = k then if s.packetStruck l then s.takeTrap (trapEC 16) Eng.n.num 0 else s.land l
      else s
    | none => s
  else s

/-- `LANDING` (R25, R26). -/
def execLanding (x : Nat) (s : State) : Host.Outcome State Fault Refusal := .next ({ s with cur := x }.landNext .word)

/-- `STREAM_GROUP_WRITE` (R139). -/
def execStreamGroupWrite (x : Nat) (s : State) : Host.Outcome State Fault Refusal :=
  .next ({ s with cur := x }.landNext .group)

/-- `MATRIX_DELIVERY` (R181). -/
def execMatrixDelivery (x : Nat) (s : State) : Host.Outcome State Fault Refusal :=
  .next ({ s with cur := x }.landNext .matrix)

/-- `VARIABLE_LATENCY_ARRIVAL` (R27, R188): the landing's data has come, or the layout record that a word waits for, read now. -/
def execVariableLatencyArrival (x id : Nat) (s : State) : Host.Outcome State Fault Refusal :=
  let f (l : Landing) : Landing := if l.id = id then { l with arrived := true } else l
  let g (r : RecFetch) : RecFetch := if r.id = id then { r with val := some (s.num .dram r.pa 64) } else r
  let t := s.strandAt x
  .next (s.setStrand x ({ t with pend := t.pend.map f, hpend := t.hpend.map f, recFetch := t.recFetch.map g }.inCheckpoint
    fun k => { k with pend := k.pend.map f }))

/-! Streams and matrix words. -/

/-- The stream of an engine with a group due in this strand cycle (R139). -/
def Strand.dueStream (t : Strand) (e : Eng) : Option Stream :=
  t.streams.find? fun st => st.eng == e && decide (st.start + st.next * st.c ≤ t.ctx.sclk)

/-- `STREAM_START` (R139, R152). -/
def execStreamStart (x : Nat) (e : Eng) (s : State) : Host.Outcome State Fault Refusal :=
  let t := s.strandAt x
  .next (match t.dueStream e with
    | some st => s.setStrand x (t.putStream { st with started := true })
    | none => s)

/-- The group of a stream that is due. -/
def State.groupRead (s : State) (st : Stream) : State :=
  match st.instr.view with
  | some (.v op _ b) => s.vGroup op b st
  | some (.f op _ b) => s.fGroup op b st
  | _ => s.upd fun t => t.putStream { st with next := st.groups }

/-- `STREAM_GROUP_READ` (R139). -/
def execStreamGroupRead (x : Nat) (e : Eng) (s : State) : Host.Outcome State Fault Refusal :=
  let s1 : State := { s with cur := x }
  .next (match s1.t.dueStream e with
    | some st => s1.groupRead st
    | none => s1)

/-- `MATRIX_WORD_START` (R181, R182). -/
def execMatrixWordStart (x : Nat) (s : State) : Host.Outcome State Fault Refusal := .next { s with cur := x }.mStart

/-- Whether a timed M word starts in this strand cycle. -/
def Strand.mDue (t : Strand) : Bool :=
  match t.mpend with
  | m :: _ => decide (m.start ≤ t.ctx.sclk)
  | [] => false

/-! Interrupts, watchdogs, holds and windows. -/

/-- The lowest pending interrupt (R38). -/
def Strand.pendingInt (t : Strand) : Option Nat := [1, 2, 3].find? fun n => t.ctx.inten.getLsbD (7 + n)

/-- `DEBUG_HALT_REQUEST` (R38). -/
def execDebugHaltRequest (x : Nat) (s : State) : Host.Outcome State Fault Refusal :=
  .next (if s.held x then s.setStrand x ((s.strandAt x).fire 1) else s)

/-- `SCLK_COMPARE_MATCH` (R38): at the boundary at which `sclk`, after advancing, equals `sclkcmp`. -/
def execSclkCompareMatch (x : Nat) (s : State) : Host.Outcome State Fault Refusal :=
  .next (s.setStrand x { (s.strandAt x).fire 3 with micro := 0 })

/-- `INTERRUPT_TAKEN` (R38): DETAIL of `IN 2` is the signal's number. -/
def execInterruptTaken (x : Nat) (s : State) : Host.Outcome State Fault Refusal :=
  let s1 : State := { s with cur := x }
  .next (match s1.t.pendingInt with
    | some n => s1.takeInterrupt n (if n = 2 then s1.t.signal else 0) (if s1.t.stall.isSome || s1.t.back then s1.t.micro else 0)
    | none => s1)

/-- QUEUE of a trap that falls at a place: the engine's, or 7 outside the engines' places. -/
def placeQueue (micro : Nat) : Nat := if 1 ≤ micro ∧ micro ≤ 6 then micro - 1 else 7

/-- `STALL_WATCHDOG_EXPIRY` (R29): `WD 2` for a stall of one cause that has lasted 2^24 chip cycles. -/
def execStallWatchdogExpiry (x : Nat) (s : State) : Host.Outcome State Fault Refusal :=
  let s1 : State := { s with cur := x }
  .next (match s1.t.stall with
    | some (c, since) =>
      if since + 2 ^ 24 ≤ s1.now then
        s1.unstall.takeTrap (trapWD 2 (Config.causeCode c.num).toNat) (placeQueue s1.t.micro) s1.t.micro
      else s1
    | none => s1)

/-- `REGION_WATCHDOG_EXPIRY` (R336): `WD 1`. -/
def execRegionWatchdogExpiry (x : Nat) (s : State) : Host.Outcome State Fault Refusal :=
  let s1 : State := { s with cur := x }
  .next (if s1.t.regionAt + 2 ^ 20 ≤ s1.t.ctx.sclk then s1.takeTrap (trapWD 1 0) 7 0 else s1)

/-- `HOLD_RELEASE_RESUME` (R30). -/
def execHoldReleaseResume (x src : Nat) (s : State) : Host.Outcome State Fault Refusal :=
  let t := s.strandAt x
  .next (s.setStrand x { t with holds := t.holds.filter fun h =>
    !(h.src == src && (match h.released with | some r => decide (r ≤ s.now) | none => false)) })

/-- `REPHASE_HOLD_END` (R295). -/
def execRephaseHoldEnd (x : Nat) (s : State) : Host.Outcome State Fault Refusal :=
  let t := s.strandAt x
  .next (if t.heldUntil ≤ s.now then s.setStrand x { t with heldUntil := 0 } else s)

/-- `CONTEXT_WRITE_EFFECT` (R60, R245). -/
def execContextWriteEffect (x : Nat) (s : State) : Host.Outcome State Fault Refusal :=
  .next { s with cur := x }.flushDeferred

/-- `WINDOW_WRITE` (R245): of an agent that is no strand. -/
def execWindowWrite (core off n val : Nat) (s : State) : Host.Outcome State Fault Refusal :=
  .next (if 256 ≤ core ∨ 0x200000 < off + n then s
    else if s.underReset core then s.schedule (s.now + 1) (.windowWrite core off n val)
    else s.windowWrite none core off (leBytes n val))

/-- `WINDOW_READ` (R245): the value goes to the reader, and nothing of the core changes. -/
def execWindowRead (core off n : Nat) (s : State) : Host.Outcome State Fault Refusal := .next s

/-! Held commands (R191, R205). -/

/-- The oldest incomplete command that a fault found after issue holds. -/
def Strand.heldCommand (t : Strand) : Option Async := t.asyncs.find? fun a => a.open_ && a.held.isSome

/-- Whether a command parses a weight stream, and whether it goes by index words. -/
def Async.isStream (a : Async) : Bool := match a.instr with | .wstr _ _ => true | _ => false
def Async.isIndexed (a : Async) : Bool := match a.instr with | .gth _ _ => true | .sct _ _ => true | _ => false

/-- A held command back at its first element (R191, R205, R354), from which it starts when the freeze or the suspension
ends. -/
def Async.restart (a : Async) : Async :=
  let a1 := { a with held := none, paused := true, phase := 0, oor := 0, service := none }
  if a.isStream then { a1 with buf := [], idx := [], rd := [], regs := [], ahead := [] }
  else if a.isIndexed then
    let n := (rgn (a.regs.getD 0 0)).count
    { a1 with rd := [], wr := [], idx := List.range n, buf := unread a.buf.length, bad := [] }
  else
    { a1 with rd := a.rd0, wr := a.wr0, buf := if a.rd0.isEmpty then a.buf else unread a.buf.length
              bad := if a.rd0.isEmpty then a.bad else [] }

/-- `HELD_COMMAND_TRAP` (R191, R205): QUEUE 3 for a handle word, 4 for a C command. The command starts again when the
freeze ends or the strand is resumed. -/
def execHeldCommandTrap (x : Nat) (s : State) : Host.Outcome State Fault Refusal :=
  let s1 : State := { s with cur := x }
  .next (match s1.t.heldCommand with
    | some a =>
      match a.held with
      | some tr =>
        ((s1.dropFaults tr.addr).upd fun t => t.setEntry a.id Async.restart).takeTrap tr
          (if a.eng = .m then 3 else if a.eng = .c then 4 else a.eng.num) (if s1.t.stall.isSome then s1.t.micro else 0)
      | none => s1
    | none => s1)

/-! The strand cycle. -/

/-- What the strand does next: an instruction or an event at a state, or a state of its own. -/
inductive Plan where
  | word (i : Instr) (s : State)
  | event (e : Ev) (s : State)
  | goOn (s : State)

/-- The word an engine reads next, with the one after it in the ring. -/
def State.decodeNext (s : State) (e : Eng) : Except DecErr Instr :=
  let c := s.t.ctl e
  decodeWord e (s.fetched c) (if c.fixed then c.after else s.prefetched c (c.idx + 1) (4 * c.pick + 2))

/-- Whether an engine's word is due in this strand cycle. -/
def State.wordDue (s : State) (e : Eng) : Bool :=
  let c := s.t.ctl e
  !c.halted && s.stillOwed c == 0

/-- The strand's registers as the landings due now and the window writes that wait will leave them. -/
def State.ahead (s : State) : State :=
  let effs := s.t.dueLandings.flatMap fun l => l.effs
  (s.upd fun t => effs.foldl (fun t e => t.applyEff t.frozen e) t).flushDeferred

/-- The ordering classes of the accesses that a word makes at its issue or asynchronously: those of S memory words, of
C and N commands with their class, of matrix words by handle (class 0); none for the others (R120, R199, R206, R234). -/
def wordClasses : View → List Nat
  | .s op _ b =>
    match op with
    | .lds | .sts | .ldg | .stg | .aadd | .axchg | .acas | .amax | .waita => [b.px.val]
    | .spl | .sps | .call | .callr | .ret => [0]
    | _ => []
  | .m op _ _ =>
    match op with
    | .mmih | .mmah | .gmmih | .gmmah => [0]
    | _ => []
  | .c op _ b =>
    match op with
    | .rowopn | .rowpin | .rowrel | .rowst | .scnthr | .scnrd | .scnstp | .scnst => []
    | .hfree => [0]
    | _ => [b.oc.val]
  | .cpf _ b _ => [b.oc.val]
  | .n op _ b =>
    match op with
    | .nput | .nget | .ared | .rscat | .agth | .bcst | .xred | .nsnd | .xsnd => [b.oc.val]
    | _ => []
  | _ => []

/-- The address of the global access that an S word will make. -/
def State.addressAhead (s : State) (op : SOp) (h : Hdr) (b : SBody) : Option Nat :=
  match s.t.readOpds .s (immVal b.ty b.imm) (sSlots op h b) with
  | .ok (vs, _) => some (globalAddr (vs.getD 0 0) b.imm)
  | .error _ => none

/-- Whether a word due in this strand cycle, its guard true, forces a release at the cycle's opening (R332, R335): a store is
buffered itself but on path 0x7, and a load on path 0x1 or 0x2 is not ordered after a store to its bytes (R258). -/
def State.forcesRelease (s : State) (v : View) : Bool :=
  let t := s.t
  let buf := t.asyncs.filter fun a => a.buffered
  t.guard v.grd &&
    (match v with
     | .s .idem _ _ => !t.frozen
     | .s .stg h b =>
       decide (64 ≤ buf.length) ||
         (((s.addressAhead .stg h b).map pathOf) == some 7 && buf.any fun a => classesOrder a.cls b.px.val)
     | .s .ldg h b =>
       buf.any fun a => classesOrder a.cls b.px.val && (match s.addressAhead .ldg h b with
         | some e => (a.touches s.dev.pkg).any fun x => !x.frees (touchOf s.dev.pkg false e (accBytes b.ty))
         | none => true)
     | .s .fence _ b => buf.any fun a => bit b.imm.toNat a.cls || a.cls == 0
     | v => buf.any fun a => (wordClasses v).any fun c => classesOrder a.cls c)

/-- Whether an engine's word is due and forces a release. -/
def State.releasesAt (s : State) (p : State) (e : Eng) : Bool :=
  s.wordDue e && (match s.decodeNext e with
    | .ok i => match i.view with | some v => p.forcesRelease v | none => false
    | .error _ => false)

/-- Whether a word due in the strand cycle that opens makes a boundary at its opening (R332, R335). -/
def State.opensRegion (s : State) : Bool :=
  let p := s.ahead
  [Eng.s, .v, .f, .m, .c, .n].any (s.releasesAt p)

/-- A handler's word that forces a release lets the buffered stores go as its cycle opens, and the region ends as after a region edge,
once the handler has returned: a boundary falls inside no handler (DESIGN CHOICE: R335 places none there). -/
def State.handlerReleases (s : State) : Bool := s.t.asyncs.any (fun a => a.buffered) && s.releasesAt s.ahead .s

/-- Whether the strand's work is all done (R99). -/
def Strand.finished (t : Strand) : Bool :=
  t.closed && t.pend.isEmpty && t.streams.isEmpty && t.mpend.isEmpty && t.asyncs.isEmpty

/-- The strand goes on to a place of its cycle. -/
def State.goto (s : State) (m : Nat) : State := s.upd fun t => { t with micro := m }

/-- The asynchronous read of a row that a landing due now waits for and the strand can make (R217). -/
def State.rowRead (s : State) : Option Nat :=
  let t := s.t
  t.dueLandings.findSome? fun l =>
    match l.wait with
    | .row ch bank row =>
      if (t.pinOf ⟨ch, bank, row⟩).isSome then
        ((t.asyncs.find? fun a => a.land == some l.id && !a.performed && !s.mustWait a)).map Async.id
      else none
    | _ => none

/-- The landings of an opening: each in turn once all that is due has come, or a stall (R25 to R27). -/
def State.openLandings (s : State) (x : Nat) (next : State → Plan) : Plan :=
  let due := s.t.dueLandings
  if due.all s.landingReady then
    match firstIssued due with
    | some l =>
      .event (match l.kind with | .word => .landing x | .group => .streamGroupWrite x | .matrix => .matrixDelivery x) s
    | none => next s
  else
    match s.rowRead with
    | some id => .event (.accessPerform x id) s
    | none => .goOn (s.stallAt .landing)

/-- Window writes and raises that waited take effect while the strand waits, in the order of a boundary: the writes before the raises,
of which R56 fixes no order (DESIGN CHOICE, log 167). Of the writes that arrived while it ran, R60 gives the boundary and the stall
both: the implementation chose (DESIGN CHOICE, log 40). -/
def State.whileWaiting (s : State) : State :=
  (if s.t.deferred.isEmpty then s
   else if Config.waitsForBoundary s.fresh then s.tick
   else s.tick.flushDeferred).applyRaises

/-- What the strand does once a number of chip cycles of its strand cycle have come. -/
def State.whenCome (s : State) (n : Nat) (p : Plan) : Plan :=
  if s.t.offset < n then .goOn (s.upd fun t => { t with offset := n }) else p

/-- The opening of a strand cycle. -/
def State.opening_ (s : State) (x : Nat) : Plan :=
  let t := s.t
  if t.holds.any fun h => decide (h.stopAt ≤ t.ctx.sclk) then
    .goOn (s.whileWaiting.upd fun t => { t with origin := t.origin + t.stride })
  else if t.heldUntil ≠ 0 then .event (.rephaseHoldEnd x) { s with now := Nat.max s.now t.heldUntil }
  else if t.regionAt + 2 ^ 20 ≤ t.ctx.sclk then .event (.regionWatchdogExpiry x) s
  else if t.rephase.isSome && t.ctx.sclk != 0 && (t.opened || t.regionAt == t.ctx.sclk) then
    .event (.rephasePointApply x) s
  else if t.rephase.isSome && !t.opened && s.opensRegion then
    .goOn (s.boundary.upd fun t => { t with opened := true })
  else if t.pendingInt.isSome then .event (.interruptTaken x) s
  else if t.heldCommand.isSome then .event (.heldCommandTrap x) s
  else if !t.opened && s.opensRegion then .goOn (s.boundary.upd fun t => { t with opened := true })
  else
    (if t.stall.isSome then s.whileWaiting else s).openLandings x fun s =>
      if s.t.deferred.isEmpty then .goOn (s.unstall.applyRaises.goto 1) else .event (.contextWriteEffect x) s

/-- What reads at a place before its own engine's word: the streams of the engine before it, and matrix words. -/
def State.readsBefore (s : State) (x m : Nat) : Option Plan :=
  let stream (e : Eng) : Option Plan :=
    (s.t.dueStream e).map fun st =>
      s.whenCome (s.t.readOffset e) (if st.started then .event (.streamGroupRead x e) s else .event (.streamStart x e) s)
  if m = 3 then stream .v
  else if m = 4 then stream .f
  else if m = 5 then (if s.t.mDue then some (s.whenCome (s.t.readOffset .m) (.event (.matrixWordStart x) s)) else none)
  else none

/-- How many chip cycles of the strand cycle have to come before an engine's place is taken: the engine's phase for a word that is due,
at which it acts unless R22 puts it after a word that acts later (R20); and for one that reads scratchpad at issue those of the bank
groups (R242). -/
def State.placeOffset (s : State) (e : Eng) : Nat :=
  let t := s.t
  if !s.wordDue e then 0
  else
    match e with
    | .s =>
      (match s.decodeNext .s with
       | .ok (.sts _ _) | .ok (.sps _ _) | .ok (.call _ _) | .ok (.callr _ _) => t.storeOffset .s
       | .ok (.lds _ _) | .ok (.spl _ _) | .ok (.waita _ _) | .ok (.ret _ _) => t.readOffset .s
       | _ => vget t.phi 0 0)
    | .c => vget t.phi 4 0
    | .n =>
      (match s.decodeNext .n with
       | .ok (.nsnd _ _) | .ok (.xsnd _ _) => t.readOffset .n
       | _ => vget t.phi 5 0)
    | e => t.readOffset e

/-- An engine's place: its word, if it is due. -/
def State.enginePlace (s : State) (e : Eng) : Plan :=
  let c := s.t.ctl e
  let after : Nat := if s.t.frozen then 7 else e.num + 2
  if c.halted then .goOn (s.goto after)
  else if s.stillOwed c = 0 then
    match s.decodeNext e with
    | .ok i => .word i s
    | .error d => .goOn (s.conclude e (trapStop (trapIL d.n d.detail)))
  else .goOn ((s.upd fun t => t.setCtl e { c with waited := c.waited + 1, word := some (s.fetched c) }).goto after)

/-- An engine's place once its chip cycle has come. -/
def State.timedPlace (s : State) (e : Eng) : Plan := s.whenCome (s.placeOffset e) (s.enginePlace e)

/-- The close of a strand cycle: its back-edges, over which window writes of that strand cycle win (R263), the clock, and the
boundaries that fall there (R260, R332); a strand whose work is all done ends as it closes (R99). -/
def State.close (s : State) : State :=
  let t0 := s.t
  let t1 :=
    { t0.overBack.foldl (fun t w => t.setPage w.1 w.2) (t0.closing.foldl (fun t b => t.applyBackEdge b) t0) with
      closing := [], overBack := [], back := false }
  let k := t1.ctx.sclk + 1
  let halted := t1.queues.toList.all fun c => c.halted
  let t2 : Strand :=
    { t1 with ctx := { t1.ctx with sclk := k }, opened := false, edge := false, closed := halted
              timed := t1.timed.filter fun a => decide (k ≤ a.last), offset := 0
              micro := if t1.ctx.sclkcmp.toNat = k then 8 else 0 }
  let s1 := s.setStrand s.cur t2
  let s2 := if t0.edge || (halted && !t0.closed) then s1.boundary else s1
  if s2.t.finished then s2.goto 9 else s2

/-- The close of a handler's cycle: the origin rises by the stride (R20, R35). -/
def State.handlerClose (s : State) : State :=
  s.upd fun t =>
    { t with ctx := { t.ctx with hclk := t.ctx.hclk + 1 }, origin := t.origin + t.stride, micro := 0, offset := 0 }

/-- What a running or frozen strand does next. -/
def State.strandPlan (s : State) : Plan :=
  let x := s.cur
  let t := s.t
  let stuck := match t.stall with | some (_, since) => decide (since + 2 ^ 24 ≤ s.now) | none => false
  if stuck then .event (.stallWatchdogExpiry x) s
  else if t.frozen then
    let s0 := s.whileWaiting
    match t.micro with
    | 0 =>
      if s0.handlerReleases then .goOn s0.releaseStores.markEdge
      else s0.openLandings x fun s => .goOn (s.unstall.goto 1)
    | 1 => s0.timedPlace .s
    | _ => .goOn s0.handlerClose
  else
    match t.micro with
    | 0 => s.opening_ x
    | 7 => .goOn s.close
    | 8 => .event (.sclkCompareMatch x) s
    | 9 => .event (.strandEnd x) s
    | m =>
      if (t.stall.isSome || t.back) && t.pendingInt.isSome then .event (.interruptTaken x) s
      else if t.back then .goOn (s.upd fun t => { t with back := false })
      else if t.stall.isSome && t.heldCommand.isSome then .event (.heldCommandTrap x) s
      else
        let s0 := if t.stall.isSome then s.whileWaiting else s
        match s0.readsBefore x m with
        | some p => p
        | none => match Eng.ofNum (m - 1) with | some e => s0.timedPlace e | none => .goOn (s0.goto 0)

/-! Whose turn it is. -/

/-- The chip cycle of what the strand does next (R20); a strand that does not run has none. -/
def Strand.key (t : Strand) : Option Nat :=
  match t.mode with
  | .run | .frozen => some (t.openCycle + t.offset)
  | _ => none

/-- The strand with the least key, with that key. -/
def State.nextStrand (s : State) : Option (Nat × Nat) :=
  s.strands.foldl
    (fun m e =>
      match e.2.key, m with
      | none, m => m
      | some k, none => some (e.1, k)
      | some k, some (x, j) => if k < j then some (e.1, k) else some (x, j))
    none

end Sys2Proof.Machine
end

