-- ==== Sys2Proof/Machine/Views.lean ====
section
/-! DEFINITION. The register views: the tenant's on path 0x7 and VF BAR0 (R240, R298, R322 to R327, R341, R354 to R363,
R365, R381) and the management view of PF BAR0 (R357, R369, R372 to R377, R380, R384 to R386, R390, R395). -/

set_option linter.unusedVariables false

namespace Sys2Proof.Machine

/-! Time (R1, R387). -/

/-- 3,000ths of a microsecond since start-up: the chip clock runs at 1.5 GHz in the proof service, else at 3 GHz. -/
def State.ticks (s : State) : Nat :=
  let p := s.dev.pf
  p.tickBase + (s.now - p.tickAt) * (if p.proof then 2 else 1)

def State.micros (s : State) : Nat := s.ticks / 3000

/-- Chip cycles of so many microseconds at the clock that runs now. -/
def State.cyclesOf (s : State) (us : Nat) : Nat := us * (if s.dev.pf.proof then 1500 else 3000)

/-! Compositor queues, rings and the physical function. -/

/-- The number of a compositor queue: 64·die + m. -/
def State.cq (s : State) (q : Nat) : Option Cq := mget q s.dev.cqs

def State.setCq (s : State) (q : Nat) (f : Cq → Cq) : State :=
  match s.cq q with
  | some c => { s with dev := { s.dev with cqs := mset q (f c) s.dev.cqs } }
  | none => s

def State.ring (s : State) (v h : Nat) : HostRing := (mget h (s.vf v).rings).getD {}

def State.setRing (s : State) (v h : Nat) (f : HostRing → HostRing) : State :=
  s.setVf v fun k => { k with rings := mset h (f (s.ring v h)) k.rings }

def State.setPf (s : State) (f : Pf → Pf) : State := { s with dev := { s.dev with pf := f s.dev.pf } }

/-- ORIG of a compositor queue's event (R361): queue and die. -/
def cqOrig (q : Nat) : Nat := q % 64 + q / 64 % 4 * 64

/-- Whether a pending hand-over keeps the work of a handler waiting (R391). -/
def State.handlerHeld (s : State) (h : Nat) : Bool := match s.dev.pf.handover with | some o => bit o.hmask h | none => false

/-- An entry of the PF's log (R384), which is known as the ring of function 64. -/
def State.logPf (s : State) (src cls num detail addr info : Nat) : State :=
  s.report { vf := 64, addr := addr, src := src, cls := cls, num := num, detail := detail, info := info }

/-- SRC and ORIG of an event about a post (R361). -/
def Poster.source : Poster → Nat × Nat
  | .strand x _ => (0, origOf x)
  | .node q _ | .prologue q _ => (1, cqOrig q)
  | .host _ => (2, 0)

/-- A poster's place in the order of R326 and R329 among those of one chip cycle: the host, nodes and prologues, strands by core. -/
def Poster.rank : Poster → Nat
  | .strand x _ => 2 + coreOf x
  | .node _ _ | .prologue _ _ => 1
  | .host _ => 0

/-- The list with a post in its place: behind those of earlier chip cycles and those of its own that go first (R329). -/
def postAdd (p : Post) : List Post → List Post
  | [] => [p]
  | q :: r => if q.time = p.time ∧ p.by_.rank < q.by_.rank then p :: q :: r else q :: postAdd p r

/-- What follows at once on an access that has performed: nothing comes between (R323, R331). -/
def State.actNow (s : State) (e : Ev) : State := { s with inputs := e :: s.inputs }

/-- A doorbell (R326): the host's is taken at once, ahead of those that others ring in the chip cycle, which are kept by source
until it ends: prologues before strands (DESIGN CHOICE: R326 gives them no place), strands by core. -/
def State.ring_ (s : State) (src q val : Nat) : State :=
  if src = 0 then s.actNow (.doorbell q val)
  else
    let before := s.dev.bells.filter fun b => decide (b.1 ≤ src)
    { s with dev := { s.dev with bells := before ++ (src, q, val) :: s.dev.bells.drop before.length } }

/-- A post to a result ring (R329): it waits for a record, or the ring is disabled. -/
def State.post (s : State) (v h : Nat) (p : Post) : State :=
  if (s.ring v h).ctl % 16 = 0 then
    (s.setRing v h fun r => { r with stat := r.stat ||| 2 }).report
      { vf := v, src := p.by_.source.1, orig := p.by_.source.2, cls := ascii2 'C' 'E', num := 3 }
  else (s.setRing v h fun r => { r with posts := postAdd { p with time := s.now } r.posts }).schedule s.now (.ringRecordWrite v h)

/-- LOG2 as a write stores it: 1 to 3 store 4 (R327). -/
def ringLog (v : Nat) : Nat := if 1 ≤ v % 16 ∧ v % 16 ≤ 3 then v / 16 * 16 + 4 else v

/-- The fields of `hrctl` and of `erctl` that a write sets. -/
def hrctlMask : Nat := maskOf 63 32 ||| maskOf 21 16 ||| maskOf 8 8 ||| maskOf 3 0
def erctlMask : Nat := maskOf 21 16 ||| maskOf 8 8 ||| maskOf 3 0

/-- An error ring's registers by offset (R360). -/
def ErrRing.reg (r : ErrRing) (o : Nat) : Nat :=
  match o with | 0x00 => r.base | 0x08 => r.ctl | 0x10 => r.prod | 0x18 => r.cons | 0x20 => r.lost | _ => 0

def ErrRing.set (r : ErrRing) (o v : Nat) : ErrRing :=
  match o with
  | 0x00 => { r with base := v &&& maskOf 63 12 }
  | 0x08 => { r with ctl := ringLog (v &&& erctlMask) }
  | 0x18 => { r with cons := v % 2 ^ 32 }
  | _ => r

/-! The tenant's view. -/

/-- The compositor queue whose block holds an offset, if it is the tenant's, with the offset in the block (R298). -/
def State.queueAt (s : State) (v off : Nat) : Option (Nat × Nat) :=
  if off < 0x010000 ∨ 0x020000 ≤ off then none
  else
    let q := (off - 0x010000) / 0x4000 * 64 + (off - 0x010000) % 0x4000 / 0x100
    match s.cq q with
    | some c => if c.vf = v then some (q, off % 0x100) else none
    | none => none

def Cq.reg (c : Cq) (o : Nat) : Nat :=
  if 0x20 ≤ o ∧ o < 0x60 then c.wins.getD ((o - 0x20) / 8) 0
  else
    match o with
    | 0x00 => c.base | 0x08 => c.len | 0x10 => c.prog | 0x18 => c.nprog | 0x60 => c.done | 0x68 => c.err
    | 0x78 => c.save | 0x80 => c.savn | _ => 0

/-- `stkgeo` of a stack (R365). -/
def Device.stkgeo (d : Device) (k : Nat) : Nat :=
  let x := d.stk k
  packFields [(16, 0xC000), (4, x.state), (4, x.rate), (8, 0), (32, x.don)]

def State.link (s : State) (l : Nat) : Link := (mget l s.dev.links).getD {}

def State.setLink (s : State) (l : Nat) (f : Link → Link) : State :=
  { s with dev := { s.dev with links := mset l (f (s.link l)) s.dev.links } }

/-- The retry distance D of a link, which its alignment fixes: whole reels no shorter than 2·LAT + 32 chip cycles (R382). -/
def Link.retry (l : Link) : Nat := if l.state ≠ 2 ∧ l.lat = 0 then 0 else ceilDiv (2 * l.lat + 32) 768

/-- `spstat` of a link (R381). -/
def Link.stat (l : Link) : Nat :=
  packFields [(16, Nat.min l.uncor 65535), (16, Nat.min l.corr 65535), (12, l.lat), (4, l.retry), (6, l.peerPkg), (5, l.peerLink),
    (3, 0), (2, l.state)]

/-- `afc` (R313). -/
def Device.afcReg (d : Device) : Nat := ((List.range 4).map fun k => (mget k d.afc).getD 0 % 65536 * 2 ^ (16 * k)).sum

/-- The 8 bytes of the tenant's view at an aligned offset. -/
def State.viewReg (s : State) (v off : Nat) : Nat :=
  let f := s.vf v
  match s.queueAt v off with
  | some (q, o) => (s.cq q).elim 0 fun c => c.reg o
  | none =>
    if 0x200 ≤ off ∧ off < 0x280 then s.dev.stkgeo ((off - 0x200) / 8)
    else if 0x300 ≤ off ∧ off < 0x390 then (s.link ((off - 0x300) / 8)).stat
    else if 0x020000 ≤ off ∧ off < 0x020400 then
      let r := s.ring v ((off - 0x020000) / 0x40)
      match off % 0x40 with
      | 0x00 => r.base | 0x08 => r.ctl | 0x10 => r.prod | 0x18 => r.cons | 0x20 => r.sig | 0x28 => r.stat | _ => 0
    else if 0xF200 ≤ off ∧ off < 0xF228 then f.err.reg (off - 0xF200)
    else if 0xF310 ≤ off ∧ off < 0xF330 then bits f.vaerhdr (8 * (off - 0xF310) + 63) (8 * (off - 0xF310))
    else
      match off with
      | 0x100 => s.dev.afcReg
      | 0xF000 => f.ltb | 0xF008 => f.ltl | 0xF010 => f.apbase | 0xF018 => f.hvscp | 0xF020 => f.quads | 0xF028 => f.s1root
      | 0xF030 => 2 * b2n f.s1ovf + b2n (f.invals.any fun i => !i.stage2)
      | 0xF300 => f.vaerus | 0xF308 => f.vaerum
      | _ => 0

/-- `CQERR_READ`, `HRSTAT_READ`, `ERLOST_READ` and `SPSTAT_READ`: what a read clears. -/
def State.clearCqerr (s : State) (q : Nat) : State := s.setCq q fun c => { c with err := 0 }
def State.clearHrstat (s : State) (v h : Nat) : State := s.setRing v h fun r => { r with stat := 0 }
def State.clearErlost (s : State) (v : Nat) : State := s.setVf v fun f => { f with err := { f.err with lost := 0 } }
def State.clearSpstat (s : State) (l : Nat) : State := s.setLink l fun k => { k with uncor := 0, corr := 0 }

/-- What a read of a register of the tenant's view clears (R6, R240). -/
def State.viewCleared (s : State) (v off : Nat) : State :=
  match s.queueAt v off with
  | some (q, o) => if o = 0x68 then s.clearCqerr q else s
  | none =>
    if 0x020000 ≤ off ∧ off < 0x020400 ∧ off % 0x40 = 0x28 then s.clearHrstat v ((off - 0x020000) / 0x40)
    else if 0x300 ≤ off ∧ off < 0x390 then s.clearSpstat ((off - 0x300) / 8)
    else if off = 0xF220 then s.clearErlost v
    else if off = 0xF030 then s.setVf v fun f => { f with s1ovf := false }
    else s

/-- A write of the addressed half of a register, or of all of it: the new value of a field that is read and written. -/
def merge (old off n val : Nat) : Nat := if n = 8 then val else putBits old (8 * (off % 8)) 32 (val % 2 ^ 32)

/-- The bits that a write names, zero elsewhere: for W1C fields. -/
def named (off n val : Nat) : Nat := if n = 8 then val else val % 2 ^ 32 * 2 ^ (8 * (off % 8))

/-- `tresume` (R354). -/
def tresumeEvent (v val : Nat) (byPf : Bool) : Ev := if bit val 16 then .tresumeEnd v val byPf else .tresumeResume v val byPf

/-- A write of the tenant's view (R240, R298): plain registers take their value, and a register with an action of its own acts at
once. A post is `State.post`'s; `src` is a doorbell's source. -/
def State.viewWrite (s : State) (v off n val : Nat) (src : Nat := 0) : State :=
  let o8 := off - off % 8
  let whole := n == 8
  let at_ (e : Ev) : State := s.actNow e
  match s.queueAt v o8 with
  | some (q, o) =>
    let c := (s.cq q).getD { vf := v }
    let x := merge (c.reg o) off n val
    if 0x20 ≤ o ∧ o < 0x60 then
      s.setCq q fun c => { c with wins := c.wins.set ((o - 0x20) / 8) (if o % 16 = 0 then x else x % 2 ^ 34) }
    else
      match o with
      | 0x00 => s.setCq q fun c => { c with base := x }
      | 0x08 => s.setCq q fun c => { c with len := x % 16 }
      | 0x10 => at_ (.cqprogWrite q x)
      | 0x18 => at_ (.cqnprogWrite q (x % 1024))
      | 0x70 => if whole then s.ring_ src q val else s
      | 0x78 => s.setCq q fun c => { c with save := x &&& maskOf 63 12 }
      | 0x80 => if whole then at_ (.cqsavnWrite q (val % 512)) else s
      | _ => s
  | none =>
    let x := merge (s.viewReg v o8) off n val
    if 0x020000 ≤ o8 ∧ o8 < 0x020400 then
      let h := (o8 - 0x020000) / 0x40
      match o8 % 0x40 with
      | 0x00 => s.setRing v h fun r => { r with base := x &&& maskOf 63 12 }
      | 0x08 => at_ (.hrctlWrite v h (x &&& hrctlMask))
      | 0x18 => at_ (.hrconsWrite v h (x % 2 ^ 32))
      | 0x30 => if whole then at_ (.hrpostWrite v h val 3 0) else s
      | _ => s
    else if 0xF200 ≤ o8 ∧ o8 < 0xF228 then s.setVf v fun f => { f with err := f.err.set (o8 - 0xF200) x }
    else
      match o8 with
      | 0xF000 => s.setVf v fun f => { f with ltb := x }
      | 0xF008 => s.setVf v fun f => { f with ltl := x }
      | 0xF010 => s.setVf v fun f => { f with apbase := x &&& maskOf 47 32 }
      | 0xF028 => s.setVf v fun f => { f with s1root := x &&& maskOf 47 12 }
      | 0xF030 => if whole then at_ (.s1inv v val) else s
      | 0xF038 => if whole then at_ (tresumeEvent v val false) else s
      | 0xF300 => s.setVf v fun f => { f with vaerus := f.vaerus - (f.vaerus &&& named off n val) }
      | 0xF308 => s.setVf v fun f => { f with vaerum := x % 32 }
      | _ => s

/-- A read of `n` bytes of the tenant's view: the value, and the state with what the read clears. -/
def State.viewRead (s : State) (v off n : Nat) : Nat × State :=
  let o8 := off - off % 8
  let x := s.viewReg v o8
  ((if n = 8 then x else x / 2 ^ (8 * (off % 8)) % 2 ^ 32), s.viewCleared v o8)

/-! The management view. -/

/-- `bootst` (R386). ROMVER is the implementation's. -/
def Pf.bootst (p : Pf) : Nat :=
  packFields [(28, 0), (4, p.cause), (16, p.supver), (8, Config.romVersion.toNat), (2, 0), (1, b2n (p.hmask != 0)), (1, b2n p.proof),
    (4, p.stage)]

/-- TMAX (R395): 0 in the chip cycle of the reset, and no less than 105 in one in which a die reaches 105 °C. -/
def State.hottest (s : State) : Nat :=
  max (if s.now = 0 then 0 else (Config.hottest s.now).toNat) (if s.dev.pf.warmAt = some s.now then 105 else 0)

/-- The 8 bytes of the management view at an aligned offset. -/
def State.pfReg (s : State) (off : Nat) : Nat :=
  let p := s.dev.pf
  if 0x100000 ≤ off ∧ off < 0x140000 then
    let f := s.vf ((off - 0x100000) / 0x1000)
    match off % 0x1000 with
    | 0x00 => f.quads | 0x08 => f.hvscp | 0x10 => f.s2root
    | 0x18 => 2 * b2n f.s2ovf + b2n (f.invals.any fun i => i.stage2)
    | 0x30 => f.pstitch | 0x38 => 2 * b2n (f.prst != 0)
    | 0x40 => f.slots % 2 ^ 64 | 0x48 => f.slots / 2 ^ 64 % 2 ^ 64 | 0x50 => f.slots / 2 ^ 128 % 2 ^ 64
    | 0x58 => f.slots / 2 ^ 192 % 2 ^ 64
    | _ => 0
  else if 0x200000 ≤ off ∧ off < 0x200080 then (s.dev.stk ((off - 0x200000) / 8)).res * 64
  else if 0x200400 ≤ off ∧ off < 0x200428 then p.log.reg (off - 0x200400)
  else
    match off with
    | 0x200100 => b2n p.retire.isSome * 2 ^ 63 + p.chRes * 2 ^ 61 + p.chGen % 65536 * 2 ^ 32
    | 0x200200 => s.dev.pkg * 2 ^ 16 + (s.dev.npkg - 1) * 2 ^ 10 + 2 * b2n p.aligned + b2n p.root
    | 0x200500 => p.bootst
    | 0x200600 => p.fwaddr | 0x200608 => p.fwlen | 0x200618 => p.fwst
    | 0x200700 => s.hottest * 256 + p.warn % 16
    | _ => 0

/-- A firmware command: the mailbox is busy with it, or notes one that came too soon (R390); an unknown code is
refused. -/
def State.fwCommand (s : State) (val : Nat) : State :=
  let p := s.dev.pf
  if p.fwst % 4 = 1 then s.setPf fun p => { p with fwst := p.fwst ||| 4 }
  else
    let go (e : Ev) : State := (s.setPf fun p => { p with fwst := 1 }).later e
    match val % 16 with
    | 1 => go .fwcmdLoad
    | 2 => go .fwcmdQuote
    | 3 => go .fwcmdLog
    | 4 => go .fwcmdCert
    | _ => (s.setPf fun p => { p with fwst := 3 }).logPf 3 (ascii2 'F' 'W') 1 0 0 0

/-- What a read of a register of the management view clears (R6): `erlost` of the PF's log and OVF of `s2inv`. -/
def State.pfCleared (s : State) (off : Nat) : State :=
  if off = 0x200420 then s.setPf fun p => { p with log := { p.log with lost := 0 } }
  else if 0x100000 ≤ off ∧ off < 0x140000 ∧ off % 0x1000 = 0x18 then s.setVf ((off - 0x100000) / 0x1000) fun f => { f with s2ovf := false }
  else s

/-- A write of the management view. -/
def State.pfWrite (s : State) (off n val : Nat) : State :=
  let o8 := off - off % 8
  let whole := n == 8
  let x := merge (s.pfReg o8) off n val
  let at_ (e : Ev) : State := s.actNow e
  if 0x100000 ≤ o8 ∧ o8 < 0x140000 then
    let v := (o8 - 0x100000) / 0x1000
    match o8 % 0x1000 with
    | 0x00 => at_ (.vfquadsWrite v x)
    | 0x08 => s.setVf v fun f => { f with hvscp := x % 8 }
    | 0x10 => s.setVf v fun f => { f with s2root := x &&& maskOf 39 12 }
    | 0x18 => if whole then at_ (.s2inv v val) else s
    | 0x28 => if whole then at_ (tresumeEvent v val true) else s
    | 0x30 => at_ (.pstitchWrite v (x % 65536))
    | 0x38 => if whole then at_ (.partitionReset v (val % 2)) else s
    | 0x40 => at_ (.vfslotsWrite v 0 x)
    | 0x48 => at_ (.vfslotsWrite v 1 x)
    | 0x50 => at_ (.vfslotsWrite v 2 x)
    | 0x58 => at_ (.vfslotsWrite v 3 x)
    | _ => s
  else if 0x200000 ≤ o8 ∧ o8 < 0x200080 then
    if whole then at_ (.stkrateWrite ((o8 - 0x200000) / 8) val) else s
  else if 0x200400 ≤ o8 ∧ o8 < 0x200428 then s.setPf fun p => { p with log := p.log.set (o8 - 0x200400) x }
  else
    match o8 with
    | 0x200100 => if whole then at_ (.chretWrite val) else s
    | 0x200200 => s.setPf fun p => { p with root := if off % 8 = 0 then bit val 0 else p.root }
    | 0x200300 => if whole then at_ (if bit val 27 then .pmreqResume val else .pmreqPreempt val) else s
    | 0x200600 => s.setPf fun p => { p with fwaddr := x }
    | 0x200608 => s.setPf fun p => { p with fwlen := x % 2 ^ 24 }
    | 0x200610 => if whole then s.fwCommand val else s
    | 0x200700 => s.setPf fun p => { p with warn := p.warn - (p.warn &&& named off n val % 16) }
    | _ => s

/-! The events of registers. -/

/-- An entry of a function's MSI-X table: 64·function + vector (R324). -/
def State.msix (s : State) (k : Nat) : MsixEntry := (mget k s.dev.msix).getD {}

def State.setMsix (s : State) (k : Nat) (f : MsixEntry → MsixEntry) : State :=
  { s with dev := { s.dev with msix := mset k (f (s.msix k)) s.dev.msix } }

/-- Vectors of a function: 64 of the PF, 32 of a VF. -/
def vectorsOf (fn : Nat) : Nat := if fn = 64 then 64 else 32

/-- The 8 bytes at an aligned offset of BAR4 (R322, R324): the MSI-X table, and from 0x800 the pending bits. -/
def State.msixReg (s : State) (fn off : Nat) : Nat :=
  if off < 16 * vectorsOf fn then
    let e := s.msix (fn * 64 + off / 16)
    if off % 16 = 0 then e.addr else e.data + b2n e.masked * 2 ^ 32
  else if off = 0x800 then ((List.range (vectorsOf fn)).map fun i => b2n (s.dev.pba.contains (fn * 64 + i)) * 2 ^ i).sum
  else 0

/-- A host read of 4 or 8 aligned bytes through a BAR (R240, R322), with views as `REGISTER_WRITE` has them: the value that goes to
the host, and the state with what the read clears. -/
def State.barRead (s : State) (view off n : Nat) : Nat × State :=
  let o8 := off - off % 8
  let half (x : Nat) : Nat := if n = 8 then x else x / 2 ^ (8 * (off % 8)) % 2 ^ 32
  if (n ≠ 4 ∧ n ≠ 8) ∨ off % n ≠ 0 ∨ (64 < view ∧ view < 128) ∨ 192 < view then (0, s)
  else if view < 64 then s.viewRead view off n
  else if view = 64 then (half (s.pfReg o8), s.pfCleared o8)
  else (half (s.msixReg (view - 128) o8), s)

/-- The host reads a register through a BAR. -/
def State.registerRead (s : State) (view off n : Nat) : State := (s.barRead view off n).2

/-- A write of 4 bytes of a function's MSI-X table in BAR4 (R322, R324): address, data and the mask bit of an entry;
clearing the mask unmasks the vector. -/
def State.msixWrite (s : State) (fn off val : Nat) : State :=
  let k := fn * 64 + off / 16
  if 16 * vectorsOf fn ≤ off then s
  else
    match off % 16 with
    | 0 => s.setMsix k fun e => { e with addr := putBits e.addr 0 32 val }
    | 4 => s.setMsix k fun e => { e with addr := putBits e.addr 32 32 val }
    | 8 => s.setMsix k fun e => { e with data := val % 2 ^ 32 }
    | _ =>
      if bit val 0 then s.setMsix k fun e => { e with masked := true }
      else if (s.msix k).masked then s.actNow (.msixUnmask fn (off / 16)) else s

/-- `REGISTER_WRITE` (R6, R240, R322): a host write through BAR0 of a VF, or of the PF as view 64; views from 128 on are
BAR4 of function view − 128. -/
def execRegisterWrite (view off n val : Nat) (s : State) : Host.Outcome State Fault Refusal :=
  .next (if (n ≠ 4 ∧ n ≠ 8) ∨ off % n ≠ 0 then s
    else if view < 64 then s.viewWrite view off n (val % 2 ^ 64)
    else if view = 64 then s.pfWrite off n (val % 2 ^ 64)
    else if view < 128 ∨ 192 < view then s
    else if n = 4 then s.msixWrite (view - 128) off (val % 2 ^ 32)
    else (s.msixWrite (view - 128) off (val % 2 ^ 32)).msixWrite (view - 128) (off + 4) (val / 2 ^ 32 % 2 ^ 32))

/-- `CQERR_READ` (R298). -/
def execCqerrRead (q : Nat) (s : State) : Host.Outcome State Fault Refusal := .next (s.clearCqerr q)

/-- `HRSTAT_READ` (R327). -/
def execHrstatRead (v ring : Nat) (s : State) : Host.Outcome State Fault Refusal := .next (s.clearHrstat v ring)

/-- `ERLOST_READ` (R360); the PF log is function 64's ring. -/
def execErlostRead (v : Nat) (s : State) : Host.Outcome State Fault Refusal :=
  .next (if v < 64 then s.clearErlost v else s.setPf fun p => { p with log := { p.log with lost := 0 } })

/-- `SPSTAT_READ` (R381). -/
def execSpstatRead (l : Nat) (s : State) : Host.Outcome State Fault Refusal := .next (s.clearSpstat l)

end Sys2Proof.Machine
end

