-- ==== Sys2Proof/Machine/Perform.lean ====
section
/-! DEFINITION. Asynchronous accesses at their homes (R201 to R203, R247, R248, R355, R359): where an access goes, its
reads and writes piece by piece, and the completion of commands. -/

set_option linter.unusedVariables false

namespace Sys2Proof.Machine

/-! Sites. -/

/-- Where an access is served (R247). -/
inductive Site where
  | mem (sp : Space) (a : Nat)
  | win (core off : Nat)
  | reg (off : Nat)
  deriving DecidableEq, Repr

/-- D of the stage-2 leaf set before the first write through it (R355), `own` the entry that gave the access its address where the cache
has it no more: the address to write to, which is that one unless the entry in memory has changed; then the walk made again gives
it, or its fault ends the access. -/
def State.markDirty (s : State) (va path p : Nat) (own : Option TlbEntry) : Except Stop (Nat × State) :=
  match (s.tlb s.core s.t.vf va true).orElse fun _ => own with
  | none => .ok (p, s)
  | some e =>
    if e.d then .ok (p, s)
    else
      match s.walk s.t.vf va true with
      | .error x => trapStop (walkTrap va path true x)
      | .ok f =>
        let s1 := if f.d then s else s.writeNum .dram f.leaf 8 (s.num .dram f.leaf 8 ||| 32)
        if f.pa = e.pa ∧ f.size = e.size ∧ f.leaf = e.leaf then
          .ok (p, s1.updCore s.core fun k =>
            { k with tlb := k.tlb.map fun o => if o.leaf == e.leaf && o.vf == e.vf then { o with d := true } else o })
        else .ok (f.paOf va, s1.tlbFill s.core { f with d := true })

/-- The site of a path address, translated now or as its word translated it. -/
def State.site (s : State) (e : Nat) (write : Bool) (pa : Option Nat) (own : Option TlbEntry := none) : Except Stop (Site × State) :=
  match placeOf s.dev.pkg s.core e with
  | .va a =>
    match (match pa with | some p => (.ok p : Except Stop Nat) | none => s.translate a write (pathOf e)) with
    | .error x => .error x
    | .ok p =>
      if write then
        match s.markDirty a (pathOf e) p own with
        | .error x => .error x
        | .ok r => .ok (.mem .dram r.1, r.2)
      else .ok (.mem .dram p, s)
  | .win key => .ok (.win (key / 2 ^ 21) (key % 2 ^ 21), s)
  | .host a => .ok (.mem .host a, s)
  | .peer a => .ok (.mem .peer a, s)
  | .reg off => .ok (.reg off, s)
  | .stack p => .ok (.mem .dram p, s)

/-- The channel, bank and row of a stack byte, of the channel that serves it (R364). -/
def Device.cell (d : Device) (pa : Nat) : Nat × Nat × Nat :=
  let u := pa % 2 ^ 36 % channelBytes
  (d.physCh (channelOf pa), u / 2 ^ 11 % 16, u / 2 ^ 15)

/-- Whether a stack byte's bank holds a pin of another row by a strand other than `own` (R217). -/
def State.pinElsewhere (s : State) (own : Option Nat) (a : Nat) : Bool :=
  let c := s.dev.cell a
  s.strands.any fun e => some e.1 != own && e.2.pins.any fun p =>
    s.dev.physCh p.ch == c.1 && p.bank == c.2.1 && p.row != c.2.2

/-- Whether a stack byte lies in a stack that is being retrained (R370). -/
def State.retraining (s : State) (a : Nat) : Bool := (s.dev.stk ((s.dev.cell a).1 / 32)).state == 4

/-- Whether a stack byte lies in a channel that is being retired, whose home holds new writes (R372). -/
def State.retiring (s : State) (a : Nat) : Bool := match s.dev.pf.retire with | some r => channelOf a == r.ch | none => false

/-- Whether an access to a stack byte has to wait, one of strand `own` or of another agent (R217, R370, R372). -/
def State.stackWaits (s : State) (own : Option Nat) (a : Nat) (write : Bool) : Bool :=
  s.pinElsewhere own a || s.retraining a || (write && s.retiring a)

/-- Whether the strand's own tenant's partitions, with the core among them, are being reset: what the strand has issued performs before
they are cleared (R377). -/
def State.ownsReset (s : State) (core : Nat) : Bool := (s.vf s.t.vf).prst != 0 && s.inTenant s.t.vf core

/-- Whether an access of the strand acted on has to wait at its site: at a stack, or for the end of a core's reset (R244, R377). -/
def State.siteWaits (s : State) (site : Site) (write : Bool) : Bool :=
  match site with
  | .mem .dram a => s.stackWaits (some s.cur) a write
  | .win core _ => s.underReset core && !s.ownsReset core
  | _ => false

/-- The wait of an access at its site; a write at a channel under retirement waits there in the order of arrival. -/
def State.siteStall {α : Type} (s : State) (site : Site) (write : Bool) : Except Stop α :=
  match site with
  | .mem .dram a => stallStop (if write && s.retiring a then .retiring else .window)
  | _ => stallStop .window

/-- The row of a bank that an access has activated (R216). -/
def State.activate (s : State) (a : Nat) : State :=
  let c := s.dev.cell a
  { s with dev := { s.dev with rows := mset (c.1 * 16 + c.2.1) (some c.2.2) s.dev.rows } }

/-- Failed completions of a VF among host bytes, consumed by the read that meets them (R325). -/
def State.consumeFailed (s : State) (v a n : Nat) : State :=
  { s with dev := { s.dev with failed := s.dev.failed.filter fun e => !(e.1 == v && decide (a / 8 ≤ e.2) && decide (e.2 * 8 < a + n)) } }

/-- Bytes read at a site, which of them carry a poison mark, and the state after the read. A physical address that no stack has,
which reads that check P only can reach (R350), gives free bytes. -/
def State.siteRead (s : State) (site : Site) (n : Nat) : List Byte × List Nat × State :=
  match site with
  | .mem .dram a =>
    if s.dev.paValid a then
      (s.bytes .dram a n, (List.range n).filter fun i => (s.poisoned .dram (a + i) 1).isSome, s.activate a)
    else ((List.range n).map (Config.absentByte s.fresh), [], s.tick)
  | .mem .host a =>
    let bad (i : Nat) : Bool := (s.poisoned .host (a + i) 1).isSome || s.dev.failed.contains (s.t.vf, (a + i) / 8)
    (s.bytes .host a n, (List.range n).filter bad, s.consumeFailed s.t.vf a n)
  | .mem sp a => (s.bytes sp a n, (List.range n).filter fun i => (s.poisoned sp (a + i) 1).isSome, s)
  | .win c off =>
    (s.windowRead c off n,
     if off < 0x140000 then (List.range n).filter fun i => (s.poisoned .chip (chipAddr c (off + i)) 1).isSome else [], s)
  | .reg off =>
    let r := s.viewRead s.t.vf off n
    (leBytes n r.1, [], r.2)

/-- Bytes written at a site, with the poison marks that come with them. A write to another package's memory, of KIND 1, may be
rejected there (R239, R373). -/
def State.siteWrite (s : State) (id : Nat) (site : Site) (bs : List Byte) (bad : List Nat) (addr : Nat) : State :=
  match site with
  | .mem .peer a =>
    if bit a 50 && Config.peerRejects s.fresh then
      s.tick.report { vf := s.t.vf, addr := addr, src := 0, orig := origOf s.cur, cls := ascii2 'C' 'E', num := 7 }
    else s.tick.write .peer a bs
  | .mem .dram a => bad.foldl (fun s i => s.mark .dram (a + i)) ((s.activate a).write .dram a bs)
  | .mem sp a => bad.foldl (fun s i => s.mark sp (a + i)) (s.write sp a bs)
  | .win c off =>
    let s1 := s.windowWrite (some (s.cur, id)) c off bs
    if off < 0x140000 then bad.foldl (fun s i => s.mark .chip (chipAddr c (off + i))) s1 else s1
  | .reg off => s.viewWrite s.t.vf off bs.length (leNat bs) (s.core + 2)

/-- DETAIL of `EC 1` (R359): the stack, 16 for on-chip storage, 17 for the host link. -/
def Site.stackCode : Site → Nat
  | .mem .dram a => a / 2 ^ 36
  | .mem .host _ => 17
  | .mem .peer _ => 17
  | _ => 16

/-! Completion. -/

/-- A command from before the boundary has completed in the region: the checkpoint's flags and semaphores hear of it too,
for a restore does not issue it again (R338). -/
def Strand.noteDone (t : Strand) (a : Async) : Strand :=
  if a.region < t.region ∧ t.mode ≠ .stopped then
    t.inCheckpoint fun k =>
      { k with ctx := { k.ctx with flg := k.ctx.flg ||| BitVec.ofNat 64 a.flags }
               sems := if a.spost = 0 then k.sems else mset a.spost (Nat.min 255 ((mget a.spost k.sems).getD 0 + 1)) k.sems }
  else t

/-- `COMMAND_COMPLETION` (R201): DONE, the tracker slot, flags and SPOST; the entry leaves the list, once its flag write and its count
in the point ring have been made. -/
def execCommandCompletion (x id : Nat) (s : State) : Host.Outcome State Fault Refusal :=
  let s1 : State := { s with cur := x }
  .next (match s1.t.entry id with
    | none => s1
    | some a =>
      if !a.performed || !a.open_ then s1
      else
        let s2 := match a.chan with
          | some ch => s1.updCore s1.core fun k => { k with chans := mset ch ((s1.chan s1.core ch).complete a.xid) k.chans }
          | none => s1
        let s3 := (s2.upd fun t => (t.setFlags a.flags).noteDone a).raiseAsync a.spost
        match a.flag with
        | some _ => (s3.upd fun t => t.setEntry id fun a => { a with open_ := false }).schedule s3.now (.flagWrite x id)
        | none =>
          s3.upd fun t =>
            if a.count.isSome then t.setEntry id fun a => { a with open_ := false }
            else { t with asyncs := t.asyncs.filter fun a => a.id != id })

/-- Bytes of a command's flag word: 8 for `gth` and `sct` (R203). -/
def Async.flagSize (a : Async) : Nat := if a.isIndexed then 8 else 4

/-- `FLAG_WRITE` (R203, R211): a class-0 write of the scratchpad, which wakes `waita`. -/
def execFlagWrite (x id : Nat) (s : State) : Host.Outcome State Fault Refusal :=
  let s1 : State := { s with cur := x }
  .next (match s1.t.entry id with
    | none => s1
    | some a =>
      if a.open_ then s1
      else
        let s2 := match a.flag with
          | some (at_, v) => s1.chipWrite s1.core at_ (leBytes a.flagSize (v % 2 ^ 32 + a.oor % 2 ^ 32 * 2 ^ 32))
          | none => s1
        s2.upd fun t => { t with asyncs := t.asyncs.filter fun a => a.id != id })

/-- A command held by a fault (R191, R205). -/
def State.holdEntry (s : State) (id : Nat) (tr : Trap) : State :=
  s.upd fun t => t.setEntry id fun a => { a with held := some tr }

/-- `EC 1` of data read from a site at a path address (R359). -/
def ecTrap (site : Site) (addr : Nat) : Trap := { trapEC site.stackCode with addr := addr }

/-- The push that a landing's entry was reserved for. -/
def State.deliverPush (s : State) (l : Option Nat) (v : Nat) : State :=
  match l with
  | none => s
  | some id =>
    match (s.t.pend ++ s.t.hpend).find? fun m => m.id == id with
    | some m => s.deliver l [.push (m.vals.getD 0 0) m.seq (BitVec.ofNat 64 v)]
    | none => s

/-! Scalar accesses (R122, R123). -/

/-- A read of a naturally aligned word that delivers a value: the value, or what stops it. -/
def State.wordRead (s : State) (e n : Nat) (write : Bool) (pa : Option Nat) (own : Option TlbEntry := none) :
    Except Stop (Nat × Site × State) :=
  match s.site e write pa own with
  | .error x => .error x
  | .ok (site, s1) =>
    if s1.siteWaits site write then s1.siteStall site write
    else
      let r := s1.siteRead site n
      if r.2.1.isEmpty then .ok (leNat r.1, site, r.2.2) else trapStop (ecTrap site e)

/-- `ldg`. -/
def State.performLoad (s : State) (a : Async) : Except Stop State :=
  match s.wordRead (a.vals.getD 0 0) (a.vals.getD 1 0) false a.pas.head? with
  | .error x => .error x
  | .ok (v, _, s1) => .ok ((s1.performed a.id).deliver a.land [.ll (BitVec.ofNat 64 v)])

/-- The header words of a strand's point ring, counted up by the counterproof unit (R279): offset 16 MIRR, 24 SKIP. -/
def State.countRing (s : State) (b : Sym) (o n : Nat) : State :=
  let a := b.rbase + o
  s.chipWrite s.core a (leBytes 8 (s.num .chip (chipAddr s.core a) 8 + n))

/-- Whether a word of the header is covered by an occupied slot's footprint (R279, R141). -/
def State.ringBusy (s : State) (b : Sym) (o : Nat) : Bool :=
  (s.t.edgeSlot [winRange s.core (b.rbase + o) (b.rbase + o + 8) true]).isSome

/-- A count in the point ring that follows a store or an atomic that has performed. -/
def State.countLater (s : State) (id o n : Nat) : State :=
  (s.upd fun t => t.setEntry id fun a => { a with count := some (o, n) }).schedule s.now (.accessPerform s.cur id)

/-- The count made once no footprint covers the header (R279); a mirrored store completes with it (R281). -/
def State.countStep (s : State) (a : Async) (o n : Nat) : State :=
  match s.symOf s.t with
  | none => s.upd fun t => { t with asyncs := t.asyncs.filter fun b => b.id != a.id }
  | some b =>
    if s.ringBusy b o then s.schedule (s.now + 1) (.accessPerform s.cur a.id)
    else
      let s1 := s.countRing b o n
      if a.open_ then (s1.upd fun t => t.setEntry a.id fun a => { a with count := none }).schedule s1.now (.commandCompletion s.cur a.id)
      else s1.upd fun t => { t with asyncs := t.asyncs.filter fun b => b.id != a.id }

/-- A store or an atomic that has performed, counted in SKIP where the rules count it (R282). -/
def State.performedSkip (s : State) (a : Async) (store : Bool) : State :=
  let s1 := s.performed a.id
  if s.skips (a.vals.getD 0 0) (a.vals.getD 1 0) (a.vals.getD 2 0) store then s1.countLater a.id 24 1 else s1

/-- The strand at whose boundary an atomic's word is changed, if its write has to wait there (R60). -/
def State.atomicWaits (s : State) : Site → Option Nat
  | .win c off => match s.boundaryOwner s.cur c off with
    | some x => if (s.strandAt x).putsOff then some x else none
    | none => none
  | _ => none

/-- An atomic: read and write as one, at the boundary where the word's owner lets a write take effect (R123). -/
def State.performAtomic (s : State) (a : Async) : Except Stop State :=
  let e := a.vals.getD 0 0
  let n := a.vals.getD 1 0
  match s.wordRead e n true a.pas.head? a.trs.head? with
  | .error x => .error x
  | .ok (old, site, s1) =>
    let b := match site with | .win _ off => off | _ => 0
    match s1.atomicWaits site with
    | some x =>
      .ok ((s1.putOff x
        { off := b, bs := List.replicate n 0, src := some (s1.cur, a.id)
          rmw := some (a.instr, a.vals.getD 2 0, a.vals.getD 3 0) }).performed a.id)
    | none =>
      let s2 := s1.siteWrite a.id site (leBytes n (atomicValue a.instr (atomicTy a.instr) old (a.vals.getD 2 0) (a.vals.getD 3 0))) [] e
      .ok ((s2.performedSkip a false).deliver a.land [.ll (BitVec.ofNat 64 old)])

/-- The ring of an `hrpost` register in the tenant's view. -/
def postRing (off : Nat) : Option Nat :=
  if 0x020000 ≤ off ∧ off < 0x020400 ∧ off % 0x40 = 0x30 then some ((off - 0x020000) / 0x40) else none

/-- A plain store's one write. -/
def State.storeWord (s : State) (id e n v : Nat) (pa : Option Nat) (own : Option TlbEntry) : Except Stop State :=
  match s.site e true pa own with
  | .error x => .error x
  | .ok (site, s1) => if s1.siteWaits site true then s1.siteStall site true else .ok (s1.siteWrite id site (leBytes n v) [] e)

/-- A mirrored store with `k` images written and these left: after the last, the store has performed, and completes when MIRR has
been counted up (R281). -/
def State.imagesLeft (s : State) (a : Async) (ads vs pas : List Nat) (k : Nat) : State :=
  let s1 := s.upd fun t => t.setEntry a.id fun a =>
    { a with phase := 1, idx := ads, buf := vs, pas := pas, trs := a.trs.drop 1, oor := k }
  if ads.isEmpty then
    ((s1.upd fun t => t.setEntry a.id fun a => { a with performed := true }).settleFences).countLater a.id 16 k
  else s1

/-- `stg` (R122): a post waits for a record (R329); a store of a symmetric launch is mirrored or counted (R280 to
R282); phase 1 writes its images one by one, phase 2 waits for its post, phase 3 has it. -/
def State.performStore (s : State) (a : Async) : Except Stop State :=
  let e := a.vals.getD 0 0
  let n := a.vals.getD 1 0
  let v := a.vals.getD 2 0
  match a.phase with
  | 0 =>
    match (if pathOf e = 7 ∧ n = 8 then postRing (bits e 23 0) else none) with
    | some h =>
      let p : Post := { val := v, src := 1, orig := s.core + s.cur % 16 * 256, by_ := .strand s.cur a.id }
      if (s.ring s.t.vf h).ctl % 16 = 0 then .ok ((s.post s.t.vf h p).performed a.id)
      else .ok ((s.upd fun t => t.setEntry a.id fun a => { a with phase := 2 }).post s.t.vf h p)
    | none =>
      match s.storeWord a.id e n v a.pas.head? a.trs.head? with
      | .error x => .error x
      | .ok s1 =>
        .ok (if a.idx.isEmpty then s1.performedSkip a true else s1.imagesLeft a a.idx a.buf (a.pas.drop 1) 0)
  | 1 =>
    match a.idx, a.buf, a.pas with
    | ad :: ads, v :: vs, pa :: pas =>
      match s.storeWord a.id ad n v (some pa) a.trs.head? with
      | .error x => .error x
      | .ok s1 => .ok (s1.imagesLeft a ads vs pas (a.oor + 1))
    | _, _, _ => .ok (s.performed a.id)
  | 3 => .ok (s.performed a.id)
  | _ => stallStop .channel

/-! Pieces. -/

/-- The base address of the tensor that a command fetches. -/
def Async.fetchBase (a : Async) : Option Nat :=
  match a.instr with
  | .cpt _ _ | .cpf _ _ _ => some (a.vals.getD 3 0)
  | .mmih _ _ | .mmah _ _ | .gmmih _ _ | .gmmah _ _ => some (a.vals.getD 7 0)
  | _ => none

/-- `AF 3` of a fetched address beyond the path of its tensor (R191). -/
def State.fetchReach (s : State) (a : Async) (p : Piece) : Except Stop Unit :=
  match a.fetchBase with
  | none => .ok ()
  | some e =>
    check (pathOf p.addr == pathOf e && bits p.addr 59 57 == 0 && s.inRange p.addr p.len && s.windowOk p.addr p.len .read)
      (trapAF 3 (pathOf e))

/-- A read of a piece: its bytes go to the command's buffer, with their poison marks. -/
def State.readPiece (s : State) (a : Async) (p : Piece) (consumes : Bool) : Except Stop State :=
  match (s.fetchReach a p).bind fun _ => s.site p.addr false none with
  | .error x => .error x
  | .ok (site, s1) =>
    if s1.siteWaits site false then stallStop .window
    else
      let r := s1.siteRead site p.len
      if consumes && !r.2.1.isEmpty then trapStop (ecTrap site p.addr)
      else
        .ok (r.2.2.upd fun t => t.setEntry a.id fun a =>
          { a with rd := a.rd.erase p, buf := fillBuf a.buf p.off r.1, bad := a.bad ++ r.2.1.map fun i => p.off + i })

def State.readPieces (s : State) (a : Async) (consumes : Bool) : List Piece → Except Stop State
  | [] => .ok s
  | p :: r => (s.readPiece a p consumes).bind fun s1 => s1.readPieces a consumes r

/-- The read of a piece, and on the read-only paths with it that of all that the command reads of the same unit, whole (R236). -/
def State.pieceRead (s : State) (a : Async) (p : Piece) (consumes : Bool) : Except Stop State :=
  if pathOf p.addr = 1 ∨ pathOf p.addr = 2 then s.readPieces a consumes (a.rd.filter fun q => q.addr / 8 == p.addr / 8)
  else s.readPiece a p consumes

/-- Whether a scratchpad byte lies in a ring that a queue of a strand of its core runs (R84). -/
def State.inRing (s : State) (core off : Nat) : Bool :=
  s.strands.any fun e => coreOf e.1 == core && s.held e.1 &&
    e.2.queues.toList.any fun c => decide (c.base ≤ off) && decide (off < c.base + 16 * c.len)

/-- Whether no two pieces share a byte. -/
def apart (ps : List Piece) : Bool :=
  ps.all fun p => ps.all fun q => p == q || decide (p.addr + p.len ≤ q.addr) || decide (q.addr + q.len ≤ p.addr)

/-- The writes that are made with that of a piece: in a ring, all that the command still writes of the word, whose engine is never left
with a mix of the old word and the new (R85); of writes that overlap, those of the piece's own element. -/
def State.wordPieces (s : State) (a : Async) (p : Piece) : List Piece :=
  match winKey s.dev.pkg s.core p.addr with
  | none => [p]
  | some key =>
    if key % 2 ^ 21 < spadBytes ∧ s.inRing (key / 2 ^ 21) (key % 2 ^ 21) then
      let word := a.wr.filter fun q => q.addr / 16 == p.addr / 16
      if apart word then word else word.filter fun q => q.el == p.el
    else [p]

/-- A write of a piece from the command's buffer. -/
def State.pieceWrite (s : State) (a : Async) (p : Piece) : Except Stop State :=
  match s.site p.addr true none with
  | .error x => .error x
  | .ok (site, s1) =>
    if s1.siteWaits site true then s1.siteStall site true
    else
      let bad := (List.range p.len).filter fun i => a.bad.contains (p.off + i)
      .ok ((s1.siteWrite a.id site (bufBytes a.buf p.off p.len) bad p.addr).upd fun t =>
        t.setEntry a.id fun a => { a with wr := a.wr.erase p })

def State.pieceWrites (s : State) (a : Async) : List Piece → Except Stop State
  | [] => .ok s
  | p :: r => (s.pieceWrite a p).bind fun s1 => s1.pieceWrites a r

/-- Whether a write can be made: its bytes have been read, and no earlier element's write to bytes of it is still to
come (R207, R211). -/
def Async.writable (a : Async) (p : Piece) : Bool :=
  ((a.buf.drop p.off).take p.len).all (fun b => b != 256) &&
    !(a.wr.any fun q => decide (q.el < p.el) && decide (q.addr < p.addr + p.len) && decide (p.addr < q.addr + q.len)) &&
    !(match a.instr with | .sct _ _ => a.idx.any fun i => decide (i < p.el) | _ => false)

/-- An index word's element (R211): what it still reads and writes. -/
def Async.index (a : Async) (i x : Nat) : Async :=
  let dst := a.vals.getD 0 0
  let src := a.vals.getD 1 0
  let z := a.vals.getD 2 0
  let a1 := { a with idx := a.idx.erase i }
  let gather := match a.instr with | .gth _ _ => true | _ => false
  if x = 0xFFFFFFFF then a1
  else if a.vals.getD 3 0 ≤ x then
    let a2 := { a1 with oor := a.oor + 1 }
    if gather then { a2 with wr := a2.wr ++ pieces i (i * z) (dst + i * z) z, buf := fillBuf a2.buf (i * z) (List.replicate z 0) }
    else a2
  else if gather then
    { a1 with rd := a1.rd ++ pieces i (i * z) (src + x * z) z, wr := a1.wr ++ pieces i (i * z) (dst + i * z) z }
  else { a1 with rd := a1.rd ++ pieces i (i * z) (src + i * z) z, wr := a1.wr ++ pieces i (i * z) (dst + x * z) z }

/-- An index word read, once and whole (R212); a poisoned one is consumed. -/
def State.indexRead (s : State) (a : Async) (i : Nat) : Except Stop State :=
  let r := rgn (a.regs.getD 0 0)
  let off := (r.span i).1.toNat
  match s.poisoned .chip (chipAddr s.core off) 4 with
  | some _ => trapStop (ecTrap (.win s.core off) (3 * 2 ^ 60 + off))
  | none =>
    let x := s.num .chip (chipAddr s.core off) 4
    .ok (s.upd fun t => t.setEntry a.id fun a => a.index i x)

/-- The pieces that earlier entries do not hold back (R251, R258). -/
def State.freePieces (s : State) (a : Async) (write : Bool) (ps : List Piece) : List Piece :=
  ps.filter fun p => s.mayTouch a (touchOf s.dev.pkg write p.addr p.len)

/-- One indivisible action of a command made of pieces, as the implementation picks it among those that nothing holds back (R202,
R248). -/
def State.pieceStep (s : State) (a : Async) (consumes : Bool) (done : State → Except Stop State) : Except Stop State :=
  if a.idx.isEmpty && a.rd.isEmpty && a.wr.isEmpty then done s
  else
    let is := if s.mayTouch a Touch.other then a.idx else []
    let rs := s.freePieces a false a.rd
    let ws := s.freePieces a true (a.wr.filter fun p => (s.wordPieces a p).all a.writable)
    let n := is.length + rs.length + ws.length
    if n = 0 then stallStop .order
    else
      let k := Config.pick s.fresh % n
      let s := s.tick
      match is[k]? with
      | some i => s.indexRead a i
      | none =>
        match rs[k - is.length]? with
        | some p => s.pieceRead a p consumes
        | none =>
          match ws[k - is.length - rs.length]? with
          | some p => s.pieceWrites a (s.wordPieces a p)
          | none => stallStop .order

end Sys2Proof.Machine
end

