-- ==== Sys2Proof/Machine/Engines.lean ====
section
/-! DEFINITION. What each asynchronous command does when it is carried out: tile fetches and handle words (R189 to R191,
R209, R210), weight streams (R213), handles (R214), rows and scans (R216 to R222), puts, gets and collectives (R229,
R231); `ACCESS_PERFORM` chooses among them. -/

set_option linter.unusedVariables false

namespace Sys2Proof.Machine

/-! Fetched elements (R74, R75, R189). -/

/-- The part of a layout record that a fetch keeps, from place `k` of its values on. -/
def fetchRec (vs : List Nat) (k : Nat) : LayoutRec :=
  { base := vs.getD k 0, fmt := vs.getD (k + 1) 0, kblk := vs.getD (k + 2) 0, ndim := vs.getD (k + 3) 0
    edge := vs.getD (k + 4) 0 == 1, n := [vs.getD (k + 5) 1], s := [], gen := 0, valid := true, o2 := 0, o3 := 0 }

/-- The integer formats, for the families of R185. -/
def sameFamily (a b : Ty) : Bool := isMatInt a == isMatInt b

/-- The check of a block's format byte against the record's K and the family of the tile's format (R74, R191). -/
def blockCheck (fmt k : Nat) (partner : Option Ty) : Except Stop Ty :=
  match (if 32 ≤ fmt ∨ !tyMatrix.contains fmt then none else Ty.ofCode fmt) with
  | none => trapStop (trapFF 2 fmt)
  | some t =>
    if blockCapacity t < k then trapStop (trapFF 1 fmt)
    else
      match partner with
      | some p => if sameFamily t p then .ok t else trapStop (trapTS 18)
      | none => .ok t

/-- Offsets in the buffer of the pieces of row `i`, in the order of the fetch. -/
def Async.rowOffs (a : Async) (i : Nat) : List Nat := (a.rd0.filter fun p => p.el == i).map Piece.off

/-- Row `i` of a fetch of K elements from column `x0`, elements in order. -/
def Async.fetchedRow (a : Async) (r : LayoutRec) (x0 : Int) (k : Nat) (partner : Option Ty) (i : Nat) :
    Except Stop (List Elem) :=
  if pathOf r.base = 2 then
    let blocks := r.rowBlocks x0 k
    let offs := (a.rowOffs i).toArray
    match allOf (offs.toList.map fun o =>
        match blockCheck (a.buf.getD o 0) r.kblk partner with | .ok _ => .ok () | .error e => .error e) with
    | .error e => .error e
    | .ok _ =>
      .ok ((List.range k).map fun (c : Nat) =>
        let x := r.index 0 (x0 + (c : Int))
        let kb := Nat.max r.kblk 1
        let o := offs.getD (blocks.idxOf (x / kb)) 0
        let ty := (Ty.ofCode (a.buf.getD o 0 % 32)).getD .i8
        let e := blockElemAt ty (bufNum a.buf o 64) (x % kb)
        { ty := ty, code := e.1, scale := e.2 })
  else
    let w := r.ty.width / 8
    .ok ((List.range k).map fun (c : Nat) => { ty := r.ty, code := bufNum a.buf ((i * k + c) * w) w })

/-- Rows of a fetch; the first fault in the order of rows stops it. -/
def Async.fetchedRows (a : Async) (r : LayoutRec) (x0 : Int) (k rows : Nat) (partner : Option Ty) :
    Except Stop (List (List Elem)) :=
  (List.range rows).foldr
    (fun i m => match a.fetchedRow r x0 k partner i with
      | .error e => .error e
      | .ok row => match m with | .error e => .error e | .ok rs => .ok (row :: rs))
    (.ok [])

/-- An element's exact value, of any format. -/
def Elem.value (e : Elem) : XReal := if isMatInt e.ty then .ofInt e.int else e.x

/-! Handle words (R190). -/

/-- The accumulator, tile and row count of a handle word. R78 or R80 sums by the record's FMT, also where a fetched block
carries a format of the other class, a case the spec does not settle (DESIGN CHOICE, log entry 144). -/
def Async.matrixServe (a : Async) (s : State) (b : MBody) : Except Stop (List Eff) :=
  let v (i : Nat) : Nat := a.vals.getD i 0
  let inA := decide (b.a = .handle)
  let tile := tileOf (Opd.tileNum (if inA then b.b else b.a)) (v 1)
  let r := fetchRec a.vals 7
  match a.fetchedRows r (sext 64 (v 5)) tile.cols (v 0) (some tile.ty) with
  | .error e => .error e
  | .ok rows =>
    let ts := s.tileRows (v 2) tile
    let tree := match pairing r.ty tile.ty with | some p => p.tree | none => false
    match b.d with
    | .acc n =>
      .ok [.mac { acc := n, init := v 3 == 1, intMode := v 4 == 1, tree := tree
                  a := if inA then rows else ts, b := if inA then ts else rows }]
    | _ => .ok []

/-- The follow-on word of a `cpf` (R210): it reads its tiles as it is served. -/
def Async.followServe (a : Async) (s : State) (fo : FollowOn) : List Eff :=
  let v (i : Nat) : Nat := a.vals.getD (9 + i) 0
  let ta := tileOf fo.ta.val (v 0)
  let tb := tileOf fo.tb.val (v 1)
  let p := (pairing ta.ty tb.ty).getD ⟨false, false, 1⟩
  [.mac { acc := fo.acc, init := v 2 == 1, intMode := v 3 == 1, tree := p.tree
          a := s.tileRows s.core ta, b := s.tileRows s.core tb }]

/-- Whether a command waits for the array, its bytes having come. -/
def Async.serves (a : Async) : Bool := (a.eng == .m) || (match a.instr with | .cpf _ _ _ => true | _ => false)

/-- The strand cycle after which a handle or follow-on word may be served: that of earlier deliveries to its
accumulator and of earlier timed accesses (R183, R253). -/
def Async.serveAfter (a : Async) : Nat := if a.eng = .m then a.vals.getD 6 0 else a.vals.getD 13 0

/-- Whether the array is free for a word in the strand cycle that runs: no timed word holds it, and the handle words before it have
been served. While the strand stalls, a timed word holds it with its occupancy (R181). -/
def Strand.arrayFree (t : Strand) (a : Async) : Bool :=
  t.mpend.isEmpty && decide (t.mEnd ≤ t.ctx.sclk) && decide (a.serveAfter ≤ t.ctx.sclk) &&
    (t.before a.id).all fun b => !(b.serves && !b.performed)

/-- The strand cycles that the array takes to serve a word: by the rate class of the widest format fetched, or of the follow-on
word's tiles (R181, R185, R190). A pair that R185 does not list, of a binary32 block and a small format, has the `.f32` class. -/
def Async.serveTime (a : Async) (es : List Eff) : Nat :=
  match es with
  | [.mac j] =>
    let k := ((j.a.map List.length) ++ (j.b.map List.length)).foldl Nat.max 0
    let pairs := (j.a.flatten.map Elem.ty).eraseDups.flatMap fun x =>
      (j.b.flatten.map Elem.ty).eraseDups.map fun y => (pairing x y).getD ⟨false, true, 16⟩
    pairs.foldl (fun m p => Nat.max m (p.busy k)) 1
  | _ => 1

/-- What a word delivers, of operands as they are when the array takes it up. -/
def Async.serveEffs (a : Async) (s : State) : Except Stop (List Eff) :=
  match a.instr with
  | .cpf _ _ fo => .ok (a.followServe s fo)
  | i => match i.view with | some (.m _ _ b) => a.matrixServe s b | _ => .ok []

/-- `HANDLE_WORD_SERVE` (R190, R210): the array takes the word up, works on it in strand cycles in which it holds no timed word, one a
stride of chip cycles, and after a variable latency the word completes. -/
def execHandleWordServe (x id : Nat) (s : State) : Host.Outcome State Fault Refusal :=
  let s1 : State := { s with cur := x }
  let again (s : State) : State := s.schedule (s.now + s.t.stride) (.handleWordServe x id)
  .next (match s1.t.entry id with
    | none => s1
    | some a =>
      if a.performed || a.phase != 1 then s1
      else if a.held.isSome || a.paused || !s1.t.arrayFree a then again s1
      else
        match a.service with
        | none =>
          -- the tile that the word reads is taken now, poison and all (R359)
          match (s1.farPoison (a.fp.filter fun r => !r.write && decide (0xC0000 ≤ r.lo % 2 ^ 21))).bind fun _ => a.serveEffs s1 with
          | .ok es => again (s1.upd fun t => t.setEntry id fun a => { a with service := some ⟨a.serveTime es, es⟩ })
          | .error (.trap tr) =>
            -- held like any other: it is taken up again, from its first element, once it has been let go
            ((s1.holdEntry id tr).upd fun t => t.setEntry id fun a => { a with phase := 0 }).schedule (s1.now + 1) (.accessPerform x id)
          | .error _ => s1
        | some v =>
          if 1 < v.left then again (s1.upd fun t => t.setEntry id fun a => { a with service := some { v with left := v.left - 1 } })
          else if v.left = 1 then
            (s1.upd fun t => t.setEntry id fun a => { a with service := some { v with left := 0 } }).later (.handleWordServe x id)
          else
            let q := s1.applyEffs false v.effs
            (q.1.upd fun t => t.setEntry id fun a => { a with flags := fOr a.flags q.2 }).performed id)

/-! Tile fetches (R209, R210, R213). -/

/-- The rows of a fetch written into its tile: bits copied on a plain path, else each value rounded once. -/
def Async.intoTile (a : Async) (r : LayoutRec) (tile : Tile) (rnd : Rnd) (rows : List (List Elem)) : List Eff × Nat :=
  if pathOf r.base = 2 then Machine.intoTile tile rnd a.draws (rows.map fun row => row.map Elem.value)
  else (rows.zipIdx.flatMap fun x => tile.rowEffs x.2 (x.1.map Elem.code), 0)

/-- A fetch whose bytes have all come, into its tile; then `cpt` is done and `cpf` waits for the array. -/
def State.fetchDone (s : State) (a : Async) (b : CBody) (more : Bool) : Except Stop State :=
  let v (i : Nat) : Nat := a.vals.getD i 0
  let tile := tileOf (Opd.tileNum b.a) (v 1)
  let r := fetchRec a.vals 3
  match a.fetchedRows r (sext 64 (v 2)) tile.cols (v 0) (some tile.ty) with
  | .error e => .error e
  | .ok rows =>
    let w := a.intoTile r tile (cxRnd b) rows
    let q := s.applyEffs false w.1
    let s1 := q.1.upd fun t => t.setEntry a.id fun a => { a with flags := fOr a.flags (fOr w.2 q.2), phase := 1 }
    .ok (if more then s1.schedule s1.now (.handleWordServe s.cur a.id) else s1.performed a.id)

/-- The elements of an expanded weight block (R213): 512 stands for a byte of a zero block. -/
def streamElem (buf : List Nat) (block i : Nat) : XReal :=
  let o := 64 * block
  if buf.getD o 0 = 512 then .zero false
  else
    let ty := (Ty.ofCode (buf.getD o 0 % 32)).getD .i8
    let e := blockElemAt ty (bufNum buf o 64) i
    Elem.value { ty := ty, code := e.1, scale := e.2 }

/-- One piece of the header or block that a weight stream reads, into `regs` (R248); its unit is read whole, and what follows the item
in it is kept for the next one (R236). -/
def State.streamRead (s : State) (a : Async) : Except Stop State :=
  let ps := s.freePieces a false a.rd
  match ps[Config.pick s.fresh % Nat.max 1 ps.length]? with
  | none => stallStop .order
  | some p =>
    match s.tick.site p.addr false none with
    | .error x => .error x
    | .ok (site, s1) =>
      if s1.siteWaits site false then stallStop .window
      else
        let n := Nat.max p.len (Nat.min (8 - p.addr % 8) (a.vals.getD 0 0 + a.vals.getD 1 0 - p.addr))
        let r := s1.siteRead site n
        if r.2.1.any fun i => decide (i < p.len) then trapStop (ecTrap site p.addr)
        else
          let rest := ((r.1.take (r.2.1.headD n)).drop p.len).map BitVec.toNat
          .ok (r.2.2.upd fun t => t.setEntry a.id fun a =>
            { a with rd := a.rd.erase p, regs := fillBuf a.regs p.off (r.1.take p.len)
                     ahead := if p.off + p.len = a.regs.length then rest else a.ahead })

/-- The header or the block of a weight stream that has been read: `buf` holds the blocks expanded so far, `idx` the blocks left of
a unit; with the last block of the tile the command goes on to its write, in phase 1. -/
def State.streamUnit (s : State) (a : Async) (total k : Nat) (tile : Ty) : Except Stop State :=
  let have_ := a.buf.length / 64
  let go (blocks idx : List Nat) : Except Stop State :=
    .ok (s.upd fun t => t.setEntry a.id fun a =>
      { a with buf := a.buf ++ blocks, oor := a.oor + a.regs.length, regs := [], idx := idx
               phase := if total ≤ (a.buf.length + blocks.length) / 64 then 1 else 0 })
  match a.idx with
  | left :: _ =>
    match blockCheck (a.regs.getD 0 0) k (some tile) with
    | .error x => .error x
    | .ok _ => go a.regs (if left ≤ 1 then [] else [left - 1])
  | [] =>
    let h := bufNum a.regs 0 2
    let n := h % 2 ^ 15
    if n = 0 then trapStop (trapFF 2 0)
    else if bit h 15 then go (List.replicate (64 * Nat.min n (total - have_)) 512) []
    else go [] [n]

/-- One action of a weight stream (R213): a piece of its next header or block, which may not pass the limit, or what it makes of
that, or its tile's write; `oor` is the place in the stream. -/
def State.streamStep (s : State) (a : Async) (b : CBody) : Except Stop State :=
  let tile := tileOf (Opd.tileNum b.a) (a.vals.getD 2 0)
  let k := bits b.cx.toNat 6 0
  let q := ceilDiv tile.cols k
  if a.phase = 1 then
    let rows := (List.range tile.rows).map fun r => (List.range tile.cols).map fun c => streamElem a.buf (r * q + c / k) (c % k)
    let w := intoTile tile (cxRnd b) a.draws rows
    let r := s.applyEffs false w.1
    .ok ((r.1.upd fun t => t.setEntry a.id fun a => { a with flags := fOr a.flags (fOr w.2 r.2), buf := [], oor := 0 }).performed
      a.id)
  else if !a.rd.isEmpty then s.streamRead a
  else if a.regs.isEmpty then
    let n := if a.idx.isEmpty then 2 else 64
    if a.vals.getD 1 0 < a.oor + n then trapStop (trapAF 3 1)
    else
      let k := Nat.min n a.ahead.length
      let a1 := { a with rd := pieces 0 k (a.vals.getD 0 0 + a.oor + k) (n - k), regs := a.ahead.take k ++ unread (n - k)
                         ahead := a.ahead.drop k }
      let s1 := s.upd fun t => t.setEntry a.id fun _ => a1
      if a1.rd.isEmpty then .ok s1 else s1.streamRead a1
  else s.streamUnit a (tile.rows * q) k tile.ty

/-! Handles (R214). -/

/-- A layout record written whole: what `f` makes of the record as it stands. -/
def State.writeRecord (s : State) (slot : Nat) (f : Nat → Nat) : Except Stop (Nat × State) :=
  let va := bits ((s.vf s.t.vf).ltb + 64 * slot) 47 0
  match s.site va true none with
  | .error x => .error x
  | .ok (site, s1) =>
    if s1.siteWaits site true then s1.siteStall site true
    else
      match site with
      | .mem sp a =>
        let x := f (s1.num sp a 64)
        .ok (x, s1.writeNum sp a 64 x)
      | _ => .ok (0, s1)

/-- `hbind` with its image read. -/
def State.bindDone (s : State) (a : Async) : Except Stop State :=
  let slot := a.vals.getD 0 0
  let img := bufNum a.buf 0 64
  match s.writeRecord slot fun old =>
      putBits (putBits img 52 12 ((bits old 63 52 + 1) % 4096)) 51 1 1 with
  | .error x => .error x
  | .ok (x, s1) => .ok ((s1.performed a.id).deliverPush a.land (slot * 2 ^ 12 + bits x 63 52))

/-- `hfree`. -/
def State.freeHandle (s : State) (a : Async) : Except Stop State :=
  match s.writeRecord (a.vals.getD 0 0) fun old => putBits old 51 1 0 with
  | .error x => .error x
  | .ok (_, s1) => .ok (s1.performed a.id)

/-! Rows (R216 to R219, R368). -/

/-- tREFI of a stack in chip cycles: 3.9 µs or 1.95 µs at the clock that runs (R1, R368). -/
def Device.trefi (d : Device) (stack : Nat) : Nat :=
  (if (d.stk stack).hot then 5850 else 11700) / (if d.pf.proof then 2 else 1)

/-- Whether another strand pins a row of the bank. -/
def State.bankTaken (s : State) (q : Quoin) : Bool :=
  s.strands.any fun e => e.1 != s.cur && e.2.pins.any fun p => s.dev.physCh p.ch == s.dev.physCh q.ch && p.bank == q.bank

/-- The status bits of a row for the strand. -/
def Strand.rowStat (t : Strand) (q : Quoin) : RowStat :=
  (t.rowStats.find? fun r => r.ch == q.ch && r.bank == q.bank && r.row == q.row).getD ⟨q.ch, q.bank, q.row, false, false⟩

def Strand.setRowStat (t : Strand) (q : Quoin) (broke busy : Bool) : Strand :=
  let rest := t.rowStats.filter fun r => !(r.ch == q.ch && r.bank == q.bank && r.row == q.row)
  { t with rowStats := if broke || busy then ⟨q.ch, q.bank, q.row, broke, busy⟩ :: rest else rest }

/-- A pin of a row, whose hold budget starts now (R216, R218). -/
def State.pin (s : State) (q : Quoin) : State :=
  if (s.t.pinOf q).isSome then s
  else
    let at_ := s.now + s.dev.trefi (s.dev.physCh q.ch / 32)
    (s.upd fun t =>
      { (t.setRowStat q false (t.rowStat q).busy) with
        pins := t.pins ++ [{ ch := q.ch, bank := q.bank, row := q.row, left := 8, next := at_ }] }).schedule at_
      (.refreshInterval q.ch q.bank)

/-- A pin taken away (R216). -/
def Strand.unpin (t : Strand) (q : Quoin) : Strand :=
  { t with pins := t.pins.filter fun p => !(p.ch == q.ch && p.bank == q.bank && p.row == q.row) }

/-- The bank of a quoin, as `rows` of the device numbers it. -/
def State.bankKey (s : State) (q : Quoin) : Nat := s.dev.physCh q.ch * 16 + q.bank

/-- A bank precharged: no row of it is open (R216, R218). -/
def State.precharge (s : State) (q : Quoin) : State :=
  { s with dev := { s.dev with rows := mset (s.bankKey q) none s.dev.rows } }

/-- A strand's pins dropped: their rows are precharged and their quota units free (R291, R344). -/
def State.dropPins (s : State) (x : Nat) : State :=
  let t := s.strandAt x
  (t.pins.foldl (fun (s : State) p => s.precharge (quoinOf p.quoin)) s).setStrand x { t with pins := [] }

/-- A row command carried out. -/
def State.rowCommand (s : State) (a : Async) : State :=
  let q := a.quoin
  let busy := s.upd fun t => t.setRowStat q (t.rowStat q).broke true
  match a.instr with
  | .rowopn _ _ => if s.bankTaken q then busy else s.activate (q.pa 0)
  | .rowpin _ _ => if s.bankTaken q then busy else (s.activate (q.pa 0)).pin q
  | .rowrel _ _ => if (s.t.pinOf q).isSome then (s.upd fun t => t.unpin q).precharge q else s
  | _ => s

/-- Whether a row is open (R216, R219): a pinned row is, and then no other row of its bank. Of an unpinned bank the row that was
activated last may be open, as page policy has it, and no other; after a precharge none is. -/
def State.rowIsOpen (s : State) (q : Quoin) : Bool :=
  let pins := s.strands.flatMap fun e => e.2.pins.filter fun p => s.dev.physCh p.ch == s.dev.physCh q.ch && p.bank == q.bank
  if pins.isEmpty then
    match mget (s.bankKey q) s.dev.rows with
    | some none => false
    | some (some r) => r == q.row && Config.rowOpen s.fresh
    | none => !s.dev.rowsKnown && Config.rowOpen s.fresh
  else pins.any fun p => p.row == q.row

/-- The whole refresh intervals of a pin's budget that are left (R219). -/
def State.pinLeft (s : State) (p : Pin) : Nat :=
  p.left - 1 + (p.next - s.now) / Nat.max 1 (s.dev.trefi (s.dev.physCh p.ch / 32))

/-- `rowst` (R219): the status word, of which BROKE and BUSY are cleared. -/
def State.rowStatus (s : State) (q : Quoin) : Nat × State :=
  let t := s.t
  let r := t.rowStat q
  let p := t.pinOf q
  let open_ := s.rowIsOpen q
  ((match p with | some p => s.pinLeft p * 256 | none => 0) + 8 * b2n r.broke + 4 * b2n r.busy + 2 * b2n open_ + b2n p.isSome,
   s.tick.upd fun t => t.setRowStat q false false)

/-- The pins of a kind, each with its strand, in the order of the strands. -/
def State.pinsOf (s : State) (on : Pin → Bool) : List (Nat × Pin) := s.strands.flatMap fun e => (e.2.pins.filter on).map fun p => (e.1, p)

/-- A pin of a strand changed. -/
def State.setPin (s : State) (x : Nat) (p q : Pin) : State :=
  s.setStrand x { s.strandAt x with pins := (s.strandAt x).pins.map fun o => if o = p then q else o }

/-- A refresh interval of a pin elapsed: its budget is one less, and ends with the last (R218). -/
def State.elapse (s : State) (x : Nat) (p : Pin) : State :=
  let at_ := s.now + s.dev.trefi (s.dev.physCh p.ch / 32)
  let s1 := s.setPin x p { p with left := p.left - 1, next := at_ }
  if p.left ≤ 1 then s1.schedule s1.now (.holdBudgetExpiry x p.quoin) else s1.schedule at_ (.refreshInterval p.ch p.bank)

/-- `REFRESH_INTERVAL` (R218, R368): the pins of a bank lose an interval of their budget; refreshes of an unpinned bank
change nothing that a program reads. -/
def execRefreshInterval (ch bank : Nat) (s : State) : Host.Outcome State Fault Refusal :=
  .next ((s.pinsOf fun p => p.ch == ch && p.bank == bank && decide (p.next ≤ s.now) && p.left != 0).foldl (fun s e => s.elapse e.1 e.2) s)

/-- A pin broken: its quota unit is free and the strand is told (R218, R372). -/
def Strand.breakPin (t : Strand) (q : Quoin) : Strand :=
  if (t.pinOf q).isSome then ((t.unpin q).setFlags fHOLDBROKE).setRowStat q true (t.rowStat q).busy else t

/-- A pin of a strand broken and its row precharged, if the strand has it (R218, R370, R372). -/
def State.breakPin (s : State) (x : Nat) (q : Quoin) : State :=
  if ((s.strandAt x).pinOf q).isSome then (s.setStrand x ((s.strandAt x).breakPin q)).precharge q else s

/-- `HOLD_BUDGET_EXPIRY` (R218). -/
def execHoldBudgetExpiry (x quoin : Nat) (s : State) : Host.Outcome State Fault Refusal :=
  .next (if s.held x then s.breakPin x (quoinOf quoin) else s)

/-- The interval of a pin that runs, `old` long, made `new` long (R368). -/
def State.retime (s : State) (old new x : Nat) (p : Pin) : State :=
  let at_ := Nat.max s.now (p.next - old + new)
  (s.setPin x p { p with next := at_ }).schedule at_ (.refreshInterval p.ch p.bank)

/-- `TEMPERATURE_CROSSING` (R368): an interval that runs gets the length it has when it elapses. -/
def execTemperatureCrossing (stack : Nat) (hot : Bool) (s : State) : Host.Outcome State Fault Refusal :=
  let k := s.dev.stk stack
  let old := s.dev.trefi stack
  let s1 : State := { s with dev := { s.dev with stks := mset stack { k with hot := hot } s.dev.stks } }
  let new := s1.dev.trefi stack
  .next (if k.hot = hot then s1
    else (s1.pinsOf fun p => s1.dev.physCh p.ch / 32 == stack).foldl (fun s e => s.retime old new e.1 e.2) s1)

/-- `rowrd` with its bytes read: they land with their poison marks (R217, R359). -/
def State.rowRead_ (s : State) (a : Async) : State :=
  let off := a.vals.getD 0 0
  let f (m : Landing) : Landing :=
    if some m.id = a.land then
      { m with arrived := true, effs := .store off (bufBytes a.buf 0 a.buf.length) :: a.bad.map fun i => .poison (off + i) }
    else m
  (s.upd fun t => ({ (t.setEntry a.id fun a => { a with performed := true }) with
                     pend := t.pend.map f, hpend := t.hpend.map f } : Strand).inCheckpoint fun k =>
                       { k with pend := k.pend.map f }).settleFences

/-! Scans (R220 to R222). -/

/-- Elements of a unit of 8 bytes. -/
def unitElems (ty : Ty) (x : Nat) : List Nat := (List.range (64 / ty.width)).map fun i => x / 2 ^ (ty.width * i) % 2 ^ ty.width

/-- A scan's end: the unit is free, OVF and the count stand. -/
def State.scanEnd (s : State) (a : Async) (ch : Nat) : State :=
  let cap := a.vals.getD 3 0
  ((s.setUnit ch { s.unit ch with owner := none }).upd fun t =>
    t.setScan ch fun v => { v with run := false, halt := false, ovf := decide (cap < v.count) }).performed a.id

/-- One step of a scan: its claim, 8 bytes of its rows, or its end. -/
def State.scanStep (s : State) (a : Async) : Except Stop State :=
  let q := quoinOf (a.vals.getD 0 0)
  let rows := a.vals.getD 1 0
  let dst := a.vals.getD 2 0
  let cap := a.vals.getD 3 0
  let u := s.unit q.ch
  match a.phase with
  | 0 =>
    if s.unitTaken q.ch then
      .ok ((s.upd fun t => t.setScan q.ch fun v => { v with busy := true }).performed a.id)
    else if u.owner.isSome then stallStop .channel
    else
      .ok ((s.setUnit q.ch { u with owner := some (s.cur, a.id) }).upd fun t =>
        (t.setScan q.ch fun v => { v with count := 0, run := true, ovf := false, stop := false, halt := false }).setEntry a.id
          fun a => { a with phase := 1, regs := [u.ty, u.thr], idx := [0] })
  | _ =>
    let k := a.idx.getD 0 0
    if (s.t.scan q.ch).halt || decide (rows * 2048 ≤ k) then .ok (s.scanEnd a q.ch)
    else if (s.dev.stk (s.dev.physCh q.ch / 32)).state = 4 then stallStop .window
    else
      let ty := scanTy (a.regs.getD 0 0)
      let site : Site := .mem .dram (({ q with row := q.row + k / 2048 } : Quoin).pa (k % 2048))
      if s.siteWaits site false then stallStop .window
      else
        let r := s.siteRead site 8
        let es := unitElems ty (leNat r.1)
        let out := (es.zipIdx).foldl
          (fun (m : State × Nat) x =>
            if scanHit ty x.1 (a.regs.getD 1 0) then
              let e := k / (ty.width / 8) + x.2
              (if m.2 < cap then
                  m.1.windowWrite (some (s.cur, a.id)) s.core (bits dst 20 0 + 8 * m.2) (leBytes 8 (e % 2 ^ 32 + x.1 * 2 ^ 32))
                else m.1, m.2 + 1)
            else m)
          (r.2.2, (s.t.scan q.ch).count)
        .ok (out.1.upd fun t =>
          (t.setScan q.ch fun v => { v with count := out.2 }).setEntry a.id fun a => { a with idx := [k + 8] })

/-- The status word of `scnst`, whose BUSY is cleared (R222). -/
def State.scanStatus (s : State) (ch : Nat) : Nat × State :=
  let v := s.t.scan ch
  (b2n v.run + 2 * b2n v.busy + 4 * b2n v.ovf + 8 * b2n v.stop, s.upd fun t => t.setScan ch fun v => { v with busy := false })

/-! Puts, gets and collectives (R229, R231). -/

/-- The next packet of an `nput`, read from its source as it is formed. -/
def State.putStep (s : State) (a : Async) (cir : Nat) : Except Stop State :=
  let loc := a.vals.getD 0 0
  let roff := a.vals.getD 1 0
  let n := a.vals.getD 2 0
  if n ≤ a.oor then stallStop .channel
  else
    let k := Nat.min 256 (n - a.oor)
    let r := s.siteRead (.win s.core (bits loc 20 0 + a.oor)) k
    .ok ((r.2.2.formPacket s.core cir
      { id := 0, kind := 1, bytes := r.1, bad := r.2.1, off := roff + a.oor, strand := s.cur, cmd := a.id
        last := decide (n ≤ a.oor + k), ready := s.now + 3 }).upd fun t =>
      t.setEntry a.id fun a => { a with oor := a.oor + k, fp := if n ≤ a.oor + k then [] else a.fp }).settleFences

/-- The request of an `nget`. -/
def State.getStep (s : State) (a : Async) (cir : Nat) : Except Stop State :=
  if a.phase ≠ 0 then stallStop .channel
  else
    -- ready 3 chip cycles after its issue (R226); one that has been held since leaves at an opening from now on
    let ready := a.vals.getD 4 0 + 3
    .ok ((s.formPacket s.core cir
      { id := 0, kind := 2, bytes := [], off := a.vals.getD 1 0, strand := s.cur, cmd := a.id, last := true
        ready := if ready + maxStride ≤ s.now then s.now else ready }).upd fun t => t.setEntry a.id fun a => { a with phase := 1 })

/-! The choice. -/

/-- One action of an entry whose turn it is. -/
def State.entryStep (s : State) (a : Async) : Except Stop State :=
  let plain (s : State) : Except Stop State := .ok (s.performed a.id)
  match a.instr with
  | .ldg _ _ => s.performLoad a
  | .stg _ _ => s.performStore a
  | .aadd _ _ | .axchg _ _ | .acas _ _ | .amax _ _ => s.performAtomic a
  | .cpy _ _ | .cfill _ _ | .cprm _ _ | .gth _ _ | .sct _ _ | .rowwr _ _ => s.pieceStep a false plain
  | .cpt _ b => s.pieceStep a true fun s => s.fetchDone a b false
  | .cpf _ b _ => if a.phase = 0 then s.pieceStep a true fun s => s.fetchDone a b true else stallStop .channel
  | .mmih _ _ | .mmah _ _ | .gmmih _ _ | .gmmah _ _ =>
    if a.phase = 0 then
      s.pieceStep a true fun s =>
        .ok ((s.upd fun t => t.setEntry a.id fun a => { a with phase := 1 }).schedule s.now (.handleWordServe s.cur a.id))
    else stallStop .channel
  | .wstr _ b => s.streamStep a b
  | .hbind _ _ => s.pieceStep a true fun s => s.bindDone a
  | .hfree _ _ => s.freeHandle a
  | .rowopn _ _ | .rowpin _ _ | .rowrel _ _ =>
    if s.retraining (a.quoin.pa 0) then stallStop .window else .ok ((s.rowCommand a).performed a.id)
  | .rowrd _ _ => s.pieceStep a false fun s => .ok (s.rowRead_ a)
  | .rowst _ _ =>
    let r := s.rowStatus a.quoin
    .ok ((r.2.performed a.id).deliverPush a.land r.1)
  | .scngo _ _ => s.scanStep a
  | .scnrd _ _ => .ok ((s.performed a.id).deliverPush a.land (s.t.scan (bits (a.vals.getD 0 0) 8 0)).count)
  | .scnst _ _ =>
    let r := s.scanStatus (bits (a.vals.getD 0 0) 8 0)
    .ok ((r.2.performed a.id).deliverPush a.land r.1)
  | .nput _ b => s.putStep a (NBody_cir b)
  | .nget _ b => s.getStep a (NBody_cir b)
  | .ared _ _ | .rscat _ _ | .agth _ _ | .bcst _ _ | .xred _ _ =>
    if a.phase = 0 then .ok (s.joinCollective a.id) else stallStop .channel
  | _ => plain s

/-- Whether an entry has more to do of itself: one that waits for the array, for a packet, for its gang or for its post
is taken up again by those. -/
def Async.waitsOn (a : Async) : Bool :=
  a.phase == applying ||
  match a.instr with
  | .cpf _ _ _ | .mmih _ _ | .mmah _ _ | .gmmih _ _ | .gmmah _ _ => a.phase != 0
  | .nput _ _ => decide (a.vals.getD 2 0 ≤ a.oor)
  | .nget _ _ | .ared _ _ | .rscat _ _ | .agth _ _ | .bcst _ _ | .xred _ _ => a.phase != 0
  | .stg _ _ => a.phase == 2
  | _ => false

/-- What waits at a channel under retirement takes its place behind what waits there already (R372). -/
def State.park (s : State) (e : Ev) : State :=
  if s.dev.parked.contains e then s else { s with dev := { s.dev with parked := s.dev.parked ++ [e] } }

/-- What has waited there is taken up, in the order of its arrival and ahead of what comes later. -/
def State.unpark (s : State) : State :=
  { s with agenda := (s.dev.parked.map fun e => (s.now, e)) ++ s.agenda, dev := { s.dev with parked := [] } }

/-- A failed completion of a read of host memory is consumed by the strand that takes `EC 1` of it (R325). -/
def State.ecTaken (s : State) (t : Trap) : State :=
  if t.cls = (trapEC 0).cls ∧ t.num = 1 ∧ pathOf t.addr = 5 then s.consumeFailed s.t.vf (lowAddr t.addr) 1 else s

/-- `ACCESS_PERFORM` (R202, R247 to R252, R355): the entry's next action at its home, once nothing before it holds it
back; a miss walks and tries again, and a fault holds the command. -/
def execAccessPerform (x id : Nat) (s : State) : Host.Outcome State Fault Refusal :=
  let s1 : State := { s with cur := x }
  let again (s : State) : State := s.schedule (s.now + 1) (.accessPerform x id)
  .next (match s1.t.entry id with
    | none => s1
    | some a =>
      if a.performed then (match a.count with | some c => s1.countStep a c.1 c.2 | none => s1)
      else if a.fence.isSome || a.waitsOn || a.buffered then s1
      else if s1.mustWait a then again s1
      else
        match s1.entryStep a with
        | .ok s2 => if s2.t.unperformed id then s2.settleFences.later (.accessPerform x id) else s2
        | .error (.trap tr) => again ((s1.ecTaken tr).holdEntry id tr)
        | .error (.miss va w p) => again (s1.requestWalk va w p)
        | .error (.record _) => again s1
        | .error (.stall .retiring) => s1.park (.accessPerform x id)
        | .error (.stall _) => again s1)

end Sys2Proof.Machine
end

