-- ==== Sys2Proof/Machine/Flits.lean ====
section
/-! DEFINITION. Speat flits (R378), their places in a reel (R379), and what a link keeps of those that it has sent and received
(R382). -/

set_option linter.unusedVariables false

namespace Sys2Proof.Machine

/-! The CRC: ECMA-182's polynomial, the most significant bit of each byte first, from zero and without a last inversion (DESIGN CHOICE:
R378 names the polynomial alone). -/

def crcBit (r : Nat) : Nat := if 2 ^ 63 ≤ r then (2 * r) % 2 ^ 64 ^^^ 0x42F0E1EBA9EA3693 else 2 * r

def crcByte (r b : Nat) : Nat := (List.range 8).foldl (fun r _ => crcBit r) (r ^^^ (b * 2 ^ 56))

def crc64 (bs : List Nat) : Nat := bs.foldl crcByte 0

/-! A flit is a number of 256 bytes, byte 0 its lowest. -/

def flSeq (x : Nat) : Nat := bits x 15 0
def flCore (x : Nat) : Nat := bits x 23 16
def flSlot (x : Nat) : Nat := bits x 31 24
def flLen (x : Nat) : Nat := bits x 39 32
def flRetry (x : Nat) : Nat := bits x 46 40
def flPart (x : Nat) : Nat := bits x 48 47
def flPair (x : Nat) : Nat := bits x 55 49
def flRseq (x : Nat) : Nat := bits x 59 56
def flKind (x : Nat) : Nat := bits x 63 60

/-- The flit of a header of 8 bytes, a payload of 240 and a CRC of 8 (R378). -/
def flitOf (head payload crc : Nat) : Nat := head % 2 ^ 64 + payload % 2 ^ 1920 * 2 ^ 64 + crc % 2 ^ 64 * 2 ^ 1984

/-- Bytes 0 to 247, which the CRC covers. -/
def flBody (x : Nat) : List Nat := (List.range 248).map fun i => bits x (8 * i + 7) (8 * i)

/-- Whether a flit passes its CRC. -/
def flGood (x : Nat) : Bool := bits x 2047 1984 == crc64 (flBody x)

/-- The LEN + 1 bytes that a flit carries, of the 240 that it can. -/
def flPayload (x : Nat) : List Byte := leBytes (Nat.min 240 (flLen x + 1)) (bits x 1983 64)

/-- A circuit's flit with its CRC; it names no other (RETRY 0). -/
def circuitFlit (pair part core slot reel : Nat) (bs : List Byte) : Nat :=
  let h := packFields [(4, 1), (4, 0), (7, pair), (2, part), (7, 0), (8, bs.length - 1), (8, slot), (8, core), (16, reel % 2 ^ 16)]
  let x := h + leNat (bs.take 240) * 2 ^ 64
  x + crc64 (flBody x) * 2 ^ 1984

/-- The flits of a packet: one of the pair, or both (R379). -/
def packetFlits (pair core slot reel : Nat) (bs : List Byte) : List Nat :=
  if bs.length ≤ 240 then [circuitFlit pair 0 core slot reel bs]
  else [circuitFlit pair 1 core slot reel (bs.take 240), circuitFlit pair 2 core slot reel (bs.drop 240)]

/-! Flit times: 224 to a reel, numbered from reel 0 on; pair f has 2f and 2f + 1 of each reel (R379). -/

/-- The number of the reel that runs (R226). -/
def State.reelNow (s : State) : Nat := (s.now - s.dev.reel) / 768

/-- The chip cycle at which a flit pair is sent in a reel. -/
def State.pairTime (s : State) (pair reel : Nat) : Nat := s.dev.reel + 768 * reel + 2 * pair * 768 / 224

/-- The flit that comes in now over a link was sent LAT chip cycles ago. -/
def State.flitNow (s : State) (l : Nat) : Nat :=
  let t := s.now - (s.link l).lat - s.dev.reel
  t / 768 * 224 + (7 * (t % 768 + 1) - 1) / 24

def flitPair (n : Nat) : Nat := n % 224 / 2
def flitReel (n : Nat) : Nat := n / 224

/-- The reel in which a pair has its next turn. -/
def State.nextReel (s : State) (pair : Nat) : Nat :=
  if s.now ≤ s.pairTime pair s.reelNow then s.reelNow else s.reelNow + 1

/-! What the sender keeps (R382). -/

/-- Flits kept from their sending on; those sent more than D reels before are dropped. -/
def Link.keep (k : Link) (reel : Nat) (fs : List (Nat × Nat)) : Link :=
  { k with kept := (k.kept.filter fun e => decide (reel ≤ flitReel e.1 + k.retry)) ++ fs }

/-- A packet that leaves for another package goes over the links of its circuit in the pairs that it has there (R379). -/
def State.sendFlits (s : State) (core slot : Nat) (bs : List Byte) (peer : Nat) : State :=
  match s.dev.routes.find? fun r => r.slot == slot && r.src == core with
  | none => s
  | some r =>
    r.pairs.foldl
      (fun (s : State) e =>
        if 32 ≤ e.1 then s
        else
          let reel := s.nextReel e.2
          s.setLink e.1 fun k =>
            k.keep s.reelNow (((packetFlits e.2 peer slot reel bs).zipIdx).map fun f => (224 * reel + 2 * e.2 + f.2, f.1)))
      s

/-- A pair's flits of a reel are sent again D reels later, and kept from then on. -/
def Link.resend (k : Link) (pair reel : Nat) : Link :=
  { k with kept := k.kept.map fun e =>
      if flitPair e.1 = pair ∧ flitReel e.1 = reel then (e.1 + 224 * k.retry, e.2) else e }

/-! What the receiver keeps (R382). -/

/-- The flit of which an arriving one is a resend, or the other of whose pair was named: the flit time of its first sending. -/
def Link.origin (k : Link) (n : Nat) : Nat :=
  match k.fails.find? fun f => (f.sent + 224 * k.retry) / 2 == n / 2 with
  | some f => f.first / 2 * 2 + n % 2
  | none => n

/-- Whether an arriving flit has been received before: it comes again only for the sake of its pair's other flit, which carries nothing
of its packet. -/
def Link.repeated (k : Link) (n x : Nat) : Bool :=
  k.origin n != n && flPart x == 0 && !(k.fails.any fun f => f.sent + 224 * k.retry == n)

/-- A pair some flit of which is still to come: what its circuit or its gang's tree carries is held behind it. -/
def Link.blocked (k : Link) (pair : Nat) : Bool := k.fails.any fun f => flitPair f.first == pair

/-- A flit among those that are held: in the order of first sending, one of each. -/
def heldAdd (n x : Nat) : List (Nat × Nat) → List (Nat × Nat)
  | [] => [(n, x)]
  | e :: r => if e.1 < n then e :: heldAdd n x r else if e.1 = n then (n, x) :: r else (n, x) :: e :: r

/-- A flit that has passed its CRC takes its place among those held; its own failure is over. -/
def Link.take (k : Link) (n x : Nat) : Link :=
  { k with fails := k.fails.filter fun f => f.sent + 224 * k.retry != n, held := heldAdd (k.origin n) x k.held }

/-- Those held flits that no failed one of their pair precedes, and the link without them. -/
def Link.release (k : Link) : List Nat × Link :=
  let waits (e : Nat × Nat) : Bool := k.fails.any fun f => flitPair f.first == flitPair e.1 && decide (f.first ≤ e.1)
  ((k.held.filter fun e => !waits e).map Prod.snd, { k with held := k.held.filter waits })

/-- A flit that has failed: the count of its failures. -/
def Link.failure (k : Link) (n : Nat) : FlitFail :=
  match k.fails.find? fun f => f.sent + 224 * k.retry == n with
  | some f => { sent := n, first := f.first, count := f.count + 1 }
  | none => { sent := n, first := k.origin n, count := 1 }

/-! Gang trees (R379, R382). -/

/-- A launch's hold on the trees of its gang stands: a link of them is down, or a flit of its pair there is still to come. -/
def State.treeDown (s : State) (gang : Nat) : Bool :=
  s.dev.launches.any fun l => l.gang == gang && l.pairs.any fun e => (s.link e.1).state != 2

def State.treeLate (s : State) (gang : Nat) : Bool :=
  s.dev.launches.any fun l => l.gang == gang && l.pairs.any fun e => (s.link e.1).blocked e.2

/-- Whether the instance of a level takes in members on other packages. -/
def Gang.podWide (g : Gang) (level unit : Nat) : Bool := (g.instance_ level unit).any fun m => decide (4096 ≤ m.2)

end Sys2Proof.Machine
end

