-- ==== Sys2Proof/Machine/Fabric.lean ====
section
/-! DEFINITION. Packets under way: departures, arrivals and credits (R226 to R229, R234), barrier releases (R230) and the
completion of collectives (R83, R231, R232). -/

set_option linter.unusedVariables false

namespace Sys2Proof.Machine

/-- The state with another strand acted on. -/
def State.on (s : State) (x : Nat) : State := { s with cur := x }

/-! Departures and credits. -/

/-- Whether an entry is an `nput` on a circuit some of whose packets have not been formed (R234). -/
def Async.putsOn (a : Async) (slot : Nat) : Bool :=
  match a.instr with
  | .nput _ b => NBody_cir b == slot && decide (a.oor < a.vals.getD 2 0) && !a.performed
  | _ => false

/-- Whether a message has to wait for earlier accesses of its strand, or for the packets of an earlier `nput` on its circuit (R228,
R234). -/
def State.packetHeld (s : State) (slot : Nat) (p : Packet) : Bool :=
  p.kind == 0 &&
    (match (s.strandAt p.strand).entry p.cmd with
     | some a => ((s.strandAt p.strand).before p.cmd).any fun b => b.holdsBack a s.dev.pkg Touch.other || b.putsOn slot
     | none => false)

/-- Whether a circuit runs over a Speat link that is down (R382): links stand in routes as 1000 and their number, 32 more
inwards. -/
def State.circuitDown (s : State) (core slot : Nat) : Bool :=
  s.dev.routes.any fun r => r.slot == slot && (r.src == core || r.dst == core) &&
    r.links.any fun l => l.1 == 1000 && (s.link (l.2 % 32)).state != 2

/-- A message that has left: its command completes (R228). -/
def State.sent (s : State) (p : Packet) : State :=
  if p.kind = 0 then s.schedule s.now (.commandCompletion p.strand p.cmd) else s

/-- The latest opening of a slot, of the last few chip cycles: a word's place in the strand cycle can come after the chip cycle at
which it issues, by less than a stride (R20, R22). -/
def State.lastOpening (s : State) (slot : Nat) : Nat := s.opening slot (s.now - (maxStride - 1))

/-- Whether the first packet of a sending end leaves at the opening that is served now. -/
def State.mayLeave (s : State) (core slot : Nat) (p : Packet) : Bool :=
  decide (p.ready ≤ s.lastOpening slot) && decide (s.lastOpening slot ≤ s.now) && decide (0 < (s.circuit core slot).credits) &&
    (s.circuit core slot).used != some (s.lastOpening slot) && !s.packetHeld slot p && !s.circuitDown core slot

/-- A packet leaves: it takes a credit and reaches the other end TRANSIT chip cycles later (R226, R227); one for another package goes
over its link's flits (R379). -/
def State.leave (s : State) (core slot : Nat) (p : Packet) (rest : List Packet) : State :=
  let e := s.slotEntry core slot
  let s1 := (s.setCircuit core slot fun c =>
    { c with credits := c.credits - 1, wait := rest, used := some (s.lastOpening slot) }).sent p
  if peerPkg e = s.dev.pkg then
    (s1.setCircuit (peerCore e % 256) slot fun c => { c with fly := c.fly ++ [p] }).schedule (s.lastOpening slot + e % 2 ^ 12)
      (.packetArrive (peerCore e % 256) slot p.id)
  else s1.sendFlits core slot p.bytes (peerCore e % 256)

/-- The next departure of a sending end is set while packets wait there. -/
def State.arm (s : State) (core slot : Nat) : State :=
  if (s.circuit core slot).wait.isEmpty then s.setCircuit core slot fun c => { c with armed := false }
  else s.schedule (s.opening slot (s.now + 1)) (.packetDepart core slot)

/-- `PACKET_DEPART` (R226, R227): at an opening; a credit that returns at the same opening counts. -/
def execPacketDepart (core slot : Nat) (s : State) : Host.Outcome State Fault Refusal :=
  .next (if s.agenda.any fun e => decide (e.1 ≤ s.now) && e.2 == Ev.creditReturn core slot then
      s.schedule s.now (.packetDepart core slot)
    else
      match (s.circuit core slot).wait with
      | p :: rest => if s.mayLeave core slot p then (s.leave core slot p rest).arm core slot else s.arm core slot
      | [] => s.arm core slot)

/-- `CREDIT_RETURN` (R227). -/
def execCreditReturn (core slot : Nat) (s : State) : Host.Outcome State Fault Refusal :=
  .next (s.setCircuit core slot fun c => { c with credits := Nat.min 2 (c.credits + 1) })

/-- A credit starts back to the sending end of a packet that came in at a core (R227, R229). -/
def State.returnCredit (s : State) (core slot : Nat) : State :=
  let e := s.slotEntry core slot
  if peerPkg e = s.dev.pkg then s.schedule (s.opening slot s.now) (.creditReturn (peerCore e % 256) slot) else s

/-! Arrivals. -/

/-- Whether bytes of a core's window lie in the footprint of a command of a strand there (R31, R229). -/
def State.footBusy (s : State) (core off n : Nat) (write : Bool) : Bool :=
  s.strands.any fun e => coreOf e.1 == core && (e.2.edgeSlot [winRange core off (off + n) write]).isSome

def State.dropFlying (s : State) (core slot id : Nat) : State :=
  s.setCircuit core slot fun c => { c with fly := c.fly.filter fun p => p.id != id }

/-- The packet's bytes have performed: its credit returns, and the last completes the command (R229). -/
def State.bytesPlaced (s : State) (core slot : Nat) (p : Packet) : State :=
  let s1 := (s.dropFlying core slot p.id).returnCredit core slot
  if p.last && ((s1.strandAt p.strand).entry p.cmd).isSome then (s1.on p.strand).performed p.cmd else s1

/-- The bytes of a put or a get at their destination, with their poison marks, as window writes of the strand that issued it (R229,
R244); those that wait there for a boundary have performed when they take effect (R60, R247). -/
def State.placeBytes (s : State) (core slot : Nat) (p : Packet) : State :=
  let s1 := s.windowWrite (some (p.strand, p.cmd)) core p.off p.bytes
  let s2 := p.bad.foldl (fun s i => s.mark .chip (chipAddr core (p.off + i))) s1
  if s2.writeWaits p.strand p.cmd then
    (s2.setCircuit core slot fun c =>
      { c with fly := c.fly.map fun q => if q.id = p.id then { q with kind := 5 } else q }).schedule (s2.now + 1) (.packetArrive core slot p.id)
  else s2.bytesPlaced core slot p

/-- A message in the receive buffer, with its poison marks. -/
def Circuit.enter (c : Circuit) (bs : List Byte) (bad : List Nat) : Circuit :=
  { c with buffer := c.buffer ++ [bs], bufBad := c.bufBad ++ [bad] }

/-- `PACKET_ARRIVE` (R226 to R229, R234): a message enters the receive buffer; bytes perform at their destination once
no footprint there holds them back, before anything later of the circuit; a request is accepted. A packet that no core of the package
sent and no flit brought comes from another one, unless its circuit's link is down (R382): its bytes are free. -/
def execPacketArrive (core slot id : Nat) (s : State) : Host.Outcome State Fault Refusal :=
  .next (match s.flying core slot id with
    | none =>
      let e := s.slotEntry core slot
      if bit e 31 && bit e 30 && bit e 29 && decide ((s.circuit core slot).buffer.length < 2) && !s.circuitDown core slot then
        s.tick.setCircuit core slot fun c => c.enter ((Config.remotePacket s.fresh).take 256) []
      else s
    | some p =>
      if ((s.circuit core slot).fly.takeWhile fun q => q.id != id).any fun q => q.kind != 2 then
        s.schedule (s.now + 1) (.packetArrive core slot id)
      else
        match p.kind with
        | 0 => (s.dropFlying core slot id).setCircuit core slot fun c => c.enter p.bytes p.bad
        | 2 => s.schedule s.now (.ngetRequestAccept core slot id)
        | 4 => s.dropFlying core slot id
        | 5 =>
          if s.writeWaits p.strand p.cmd then s.schedule (s.now + 1) (.packetArrive core slot id) else s.bytesPlaced core slot p
        | k =>
          if k = 1 && s.footBusy core p.off p.bytes.length true then s.schedule (s.now + 1) (.packetArrive core slot id)
          else s.placeBytes core slot p)

/-- The return circuit of an `nget` word. -/
def returnSlot (i : Instr) : Nat := match i with | .nget _ b => bits b.imm.toNat 7 0 | _ => 0

/-- `NGET_REQUEST_ACCEPT` (R229): the request's credit returns, and its data packets are formed one after another, each
read from the peer's scratchpad as it is formed; `off` of the request is the place reached. -/
def execNgetRequestAccept (core slot id : Nat) (s : State) : Host.Outcome State Fault Refusal :=
  .next (match s.flying core slot id with
    | none => s
    | some p =>
      match (s.strandAt p.strand).entry p.cmd with
      | none => s.dropFlying core slot id
      | some a =>
        let roff := a.vals.getD 1 0
        let n := a.vals.getD 2 0
        let k := p.off - roff
        let m := Nat.min 256 (n - k)
        if s.footBusy core p.off m false then s.schedule (s.now + 1) (.ngetRequestAccept core slot id)
        else
          let ret := returnSlot a.instr
          let s1 := if k = 0 then s.returnCredit core slot else s
          let r := s1.siteRead (.win core p.off) m
          let s2 := r.2.2.formPacket core ret
            { id := 0, kind := 3, bytes := r.1, bad := r.2.1, off := bits (a.vals.getD 0 0) 20 0 + k, strand := p.strand
              cmd := p.cmd, last := decide (n ≤ k + m), ready := s1.now + 3 }
          if n ≤ k + m then s2.dropFlying core slot id
          else
            (s2.setCircuit core slot fun c =>
              { c with fly := c.fly.map fun q => if q.id = id then { q with off := q.off + m } else q }).later
              (.ngetRequestAccept core slot id))

/-! Barriers (R230). -/

/-- Whether a gang's launch is being pre-empted or is pre-empted: a release that has not come by then comes after its
resume (R340). -/
def State.paused (s : State) (gang : Nat) : Bool :=
  s.dev.launches.any fun l => l.gang == gang && (l.stage == .saving || l.stage == .saved || l.stage == .resuming)

/-- `BARRIER_RELEASE` (R230): the least count of the instance, as it was H chip cycles before, reaches every member. Over a Speat link
that is down none comes, and behind a flit of the tree that is to be sent again it waits (R382). -/
def execBarrierRelease (gang level unit count : Nat) (s : State) : Host.Outcome State Fault Refusal :=
  let g := s.gang gang
  let set (r : List (Nat × Nat)) (m : Nat × Nat) : List (Nat × Nat) := mset (m.1 * 8 + level) count r
  .next (if g.members.isEmpty ∨ s.paused gang ∨ (g.podWide level unit ∧ s.treeDown gang) then s
    else if g.podWide level unit ∧ s.treeLate gang then s.schedule (s.now + 1) (.barrierRelease gang level unit count)
    else s.setGang gang { g with rel := (g.instance_ level unit).foldl set g.rel })

/-! Collectives (R83, R231). -/

/-- The identity of an op, in binary64. -/
def identity (op : Nat) : Nat := match op with | 1 => 0xFFF0000000000000 | 2 => 0x7FF0000000000000 | _ => 0

/-- Element `e` of a member's contribution, as a value; a missing one is the identity of the op. -/
def Contrib.elem (c : Contrib) (op e : Nat) : XReal :=
  match c.codes[e]? with
  | some x => decode c.ty x
  | none => decode .f64 (identity op)

/-- Values combined over the reduction ranks: the value before its last rounding, and the flags (R83). -/
def combine (op : Nat) (xs : List XReal) : XReal × Nat :=
  if op = 0 then treeSum 20 xs
  else
    let codes := xs.map fun x => (round .f64 .rne 0 x)
    if xs.any fun x => x.isNan then (.nan false, XReal.snanFlag xs)
    else
      match codes.map Prod.fst with
      | [] => (.zero false, 0)
      | c :: cs => (decode .f64 (cs.foldl (fun a b => (fpMinMax .f64 (op == 1) a b).1) c), 0)

/-- What one member of the instance receives: for each of its elements the encoding in its D type, and the flags. -/
structure Share where
  vals : List (XReal × Option (Ty × Nat))
  flags : Nat

/-- An element in a D type: the encoding itself where it has that type already. -/
def intoD (ty : Ty) (x : XReal × Option (Ty × Nat)) : Nat × Nat :=
  match x.2 with
  | some (t, c) => if t = ty then (c, 0) else round ty .rne 0 x.1
  | none => round ty .rne 0 x.1

/-- The share of the member of reduction rank `i` of `n`, whose own word names `root` (R231). The flags that a member receives are those
of the joins of its own share (DESIGN CHOICE: R83 has the flags ORed and set at each member's completion, and does not say whether
those of the elements that another member of an `rscat` receives count). -/
def shareOf (form op root m n i : Nat) (parts : List Contrib) : Share :=
  -- a binary64 element is passed on as it is; one of binary32 is widened (R63, R231)
  let copied (c : Contrib) (e : Nat) : XReal × Option (Ty × Nat) :=
    (c.elem 0 e, if c.ty = .f64 then (c.codes[e]?).map fun x => (c.ty, x) else none)
  let reduced (lo hi : Nat) : Share :=
    let rs := (List.range (hi - lo)).map fun k => combine op (parts.map fun c => c.elem op (lo + k))
    { vals := rs.map fun r => (r.1, none), flags := rs.foldl (fun f r => fOr f r.2) 0 }
  match form with
  | 0 => reduced 0 m
  | 1 => let q := ceilDiv m n; reduced (i * q) (Nat.min ((i + 1) * q) m)
  | 2 => { vals := parts.flatMap fun c => (List.range m).map (copied c), flags := 0 }
  | _ => { vals := match parts[root]? with | some c => (List.range (Nat.min m c.codes.length)).map (copied c) | none => []
           flags := 0 }

/-- A member's D written whole, in its first COUNT elements, through the second port of its banks (R243), its flags and its
completion. -/
def State.receiveShare (s : State) (x cmd : Nat) (h : Share) : State :=
  let s1 := s.on x
  match s1.t.entry cmd with
  | none => s1
  | some a =>
    let r := rgn (a.regs.getD 1 0)
    let out := (h.vals.take r.count).map (intoD r.ty)
    let s2 := (out.zipIdx).foldl
      (fun (s : State) e => s.chipWrite s.core ((r.at_ e.2).toNat / 2) (leBytes (r.size / 2) e.1.1)) s1
    let f := out.foldl (fun f e => fOr f e.2) h.flags
    (s2.upd fun t => t.setEntry cmd fun a => { a with flags := fOr a.flags f }).performed cmd

/-- A member's contribution; of a member on another package everything in it is free. -/
def Coll.partOf (k : Coll) (fresh rank m : Nat) : Contrib :=
  (k.parts.find? fun c => c.rank == rank).getD
    { rank := rank, strand := 2 ^ 20, cmd := 0, form := Config.remoteWord fresh 0 % 4, op := Config.remoteWord fresh 1 % 3
      root := Config.remoteWord fresh 2 % 2 ^ 16, ty := .f64
      codes := (List.range m).map fun e => Config.remoteElement (fresh + rank) e % 2 ^ 64 }

/-- The element count that the member of reduction rank 0 fixes: its A COUNT; of one on another package, a free one. -/
def Coll.width (k : Coll) (fresh rank : Nat) : Nat :=
  match k.parts.find? fun c => c.rank == rank with
  | some c => c.codes.length
  | none => Config.remoteWord fresh 3 % 2 ^ 16

/-- `COLLECTIVE_COMPLETE` (R231, R232): the member of reduction rank 0 fixes op, form and count; the root is each word's own. Over a
Speat link that is down none completes, and behind a flit of the tree that is to be sent again it waits (R382). -/
def execCollectiveComplete (gang level unit ord : Nat) (s : State) : Host.Outcome State Fault Refusal :=
  let g := s.gang gang
  .next (match g.colls.find? fun c => c.level == level && c.unit == unit && c.ord == ord with
    | none => s
    | some k =>
      if g.podWide level unit ∧ s.treeDown gang then s
      else if g.podWide level unit ∧ s.treeLate gang then s.schedule (s.now + 1) (.collectiveComplete gang level unit ord)
      else
      let ms := g.instance_ level unit
      let rank0 := (ms.headD (0, 0)).1
      let first := k.partOf s.fresh rank0 1
      let m := k.width s.fresh rank0
      let parts := ms.map fun r => k.partOf s.fresh r.1 m
      let s1 := { s with fresh := s.fresh + g.members.length }.setGang gang
        { g with colls := g.colls.filter fun c => !(c.level == level && c.unit == unit && c.ord == ord) }
      (parts.zipIdx).foldl
        (fun s p => s.receiveShare p.1.strand p.1.cmd (shareOf first.form first.op p.1.root m parts.length p.2 parts)) s1)

end Sys2Proof.Machine
end

