-- ==== Sys2Proof/Machine/Tenant.lean ====
section
/-! DEFINITION. A tenant's memory as the compositor and the host link reach it (R322, R348, R353), walks that end
(R351), invalidations (R356), the answers to suspensions (R354), link events and virtual AER (R325, R363). -/

set_option linter.unusedVariables false

namespace Sys2Proof.Machine

/-! Accesses that are not a strand's. -/

/-- Whether bytes lie on path 0x0 (R235). -/
def pathZero (e n : Nat) : Bool := pathOf e == 0 && bits e 59 57 == 0 && decide (lowAddr e + n ≤ 2 ^ 48)

/-- The physical address of a byte of path 0x0 for a VF; for a write, with D set (R348, R355). -/
def State.tenantPa (s : State) (v e : Nat) (write : Bool) : Except Trap (Nat × State) :=
  let va := bits e 47 0
  match s.walk v va write with
  | .error x => .error (walkTrap va 0 write x)
  | .ok f =>
    .ok (f.paOf va, if write && !f.d then s.writeNum .dram f.leaf 8 (s.num .dram f.leaf 8 ||| 32) else s)

/-- `n` bytes of a VF's path 0x0, page by page; `fuel` bounds the pages. -/
def State.tenantRead (s : State) (v e n : Nat) : Nat → Except Trap (List Byte)
  | 0 => .ok []
  | fuel + 1 =>
    if n = 0 then .ok []
    else
      let k := Nat.min n (4096 - e % 4096)
      match s.tenantPa v e false with
      | .error x => .error x
      | .ok (pa, _) =>
        match s.tenantRead v (e + k) (n - k) fuel with
        | .error x => .error x
        | .ok bs => .ok (s.bytes .dram pa k ++ bs)

/-- A little-endian number there. -/
def State.tenantNum (s : State) (v e n : Nat) : Except Trap Nat :=
  match s.tenantRead v e n (n / 4096 + 2) with
  | .error x => .error x
  | .ok bs => .ok (leNat bs)

/-- Bytes written to a VF's path 0x0; a fault leaves the pages before it written. -/
def State.tenantWrite (s : State) (v e : Nat) (bs : List Byte) : Nat → State × Option Trap
  | 0 => (s, none)
  | fuel + 1 =>
    if bs.isEmpty then (s, none)
    else
      let k := Nat.min bs.length (4096 - e % 4096)
      match s.tenantPa v e true with
      | .error x => (s, some x)
      | .ok (pa, s1) => (s1.write .dram pa (bs.take k)).tenantWrite v (e + k) (bs.drop k) fuel

/-- The first bytes of `n` bytes of path 0x0 in each row that they may lie in. -/
def rowHeads (e n : Nat) : List Nat :=
  (List.range ((e % 2048 + n + 2047) / 2048)).map fun i => if i = 0 then e else e / 2048 * 2048 + 2048 * i

/-- Whether a kind of stack byte is among `n` bytes of a VF's path 0x0. -/
def State.tenantAny (s : State) (v e n : Nat) (on : Nat → Bool) : Bool :=
  (rowHeads e n).any fun a => match s.tenantPa v a false with | .ok (pa, _) => on pa | .error _ => false

/-- Whether an access to bytes of path 0x0 that is no strand's has to wait: behind a strand's pin (R217), for a stack that is being
retrained (R370), or, a write, at a channel under retirement (R372). -/
def State.tenantHeld (s : State) (v e n : Nat) (write : Bool) : Bool := s.tenantAny v e n fun pa => s.stackWaits none pa write

/-- What waits so is taken up again in the next chip cycle, or, a write at a channel under retirement, in the order of arrival. -/
def State.waitFor (s : State) (v e n : Nat) (i : Ev) : State :=
  if s.tenantAny v e n s.retiring then s.park i else s.schedule (s.now + 1) i

/-- A fault of work that is not a strand's: a host fault goes to the PF's log too (R353). -/
def State.reportFault (s : State) (v src orig : Nat) (t : Trap) : State :=
  let r : EventRec :=
    { vf := v, addr := t.addr, src := src, orig := orig, cls := t.cls, num := t.num, detail := t.recDetail.getD t.detail, info := t.info }
  let s1 := s.report r
  if t.host then s1.report { r with vf := 64 } else s1

/-! Walks (R351 to R353). -/

def State.setWalks (s : State) (w : List (Nat × Walk)) : State := { s with dev := { s.dev with walks := w } }

/-- A slot that falls free goes to the walk of the die that has waited longest. -/
def State.startWalk (s : State) (die : Nat) : State :=
  match s.dev.walks.find? fun w => w.2.die == die && !w.2.active with
  | some w => (s.setWalks (mset w.1 (w.2.start (s.vf w.2.vf)) s.dev.walks)).later (.walkComplete w.1)
  | none => s

/-- The state as a walk sees it, with the roots that it started from (R357). -/
def State.asWalked (s : State) (w : Walk) : State := s.setVf w.vf fun f => { f with s1root := w.root1, s2root := w.root2 }

/-- A walk's end for one of the misses that share it: the translation enters its core's cache, or the fault, with the miss's own
address (R361), waits for the word to retry. -/
def State.endMiss (s : State) (w : Walk) (m : Miss) : State :=
  match (s.asWalked w).walkFor w.vf m.va m.write m.path with
  | .ok e => s.tlbFill (coreOf m.x) e
  | .error x =>
    let t := walkTrap m.va m.path m.write x
    { s with dev := { s.dev with faults := s.dev.faults ++
        [{ x := m.x, vf := w.vf, va := m.va, write := m.write, path := m.path, trap := t, host := t.host }] } }

/-- `WALK_COMPLETE` (R351, R353). -/
def execWalkComplete (walk : Nat) (s : State) : Host.Outcome State Fault Refusal :=
  .next (match mget walk s.dev.walks with
    | none => s
    | some w =>
      (w.misses.foldl (fun s m => s.endMiss w m) (s.setWalks (mdel walk s.dev.walks))).startWalk w.die)

/-! Invalidation (R356). -/

/-- The bytes of a span code. -/
def spanBytes (k : Nat) : Nat := match k with | 0 => 2 ^ 12 | 1 => 2 ^ 21 | 2 => 2 ^ 30 | _ => 2 ^ 48

/-- Whether an address range meets the span. -/
def Inval.covers (i : Inval) (a n : Nat) : Bool :=
  let lo := if i.span = 3 then 0 else i.addr / spanBytes i.span * spanBytes i.span
  decide (a < lo + spanBytes i.span) && decide (lo < a + n)

/-- A request queued; a 17th is dropped (R356). -/
def State.queueInval (s : State) (v : Nat) (i : Inval) : State :=
  let q := (s.vf v).invals
  if 16 ≤ (q.filter fun j => j.stage2 == i.stage2).length then
    if i.stage2 then s.setVf v fun f => { f with s2ovf := true }
    else
      (s.setVf v fun f => { f with s1ovf := true }).report { vf := v, src := 255, cls := ascii2 'C' 'E', num := 6 }
  else
    let s1 := s.setVf v fun f => { f with invals := q ++ [i] }
    if q.isEmpty then s1.later (.invalidationComplete v) else s1

/-- `S1INV` (R356). -/
def execS1inv (v val : Nat) (s : State) : Host.Outcome State Fault Refusal :=
  .next (s.queueInval v { stage2 := false, addr := bits val 47 12 * 4096, span := bits val 3 2 })

/-- `S2INV` (R356). -/
def execS2inv (v val : Nat) (s : State) : Host.Outcome State Fault Refusal :=
  .next (s.queueInval v { stage2 := true, addr := bits val 47 12 * 4096, span := bits val 3 2 })

/-- Whether a cached entry is derived from a span. -/
def Inval.hits (i : Inval) (e : TlbEntry) : Bool := i.covers (if i.stage2 then e.ipa else e.va) (2 ^ e.size)

/-- Whether an access translated at its issue still goes by an entry derived from the span. -/
def Inval.busy (i : Inval) (a : Async) : Bool := !a.performed && a.trs.any i.hits

/-- `INVALIDATION_COMPLETE` (R356): entries derived from the span leave every core's cache, and the request completes
once every access that went by one has performed. -/
def execInvalidationComplete (v : Nat) (s : State) : Host.Outcome State Fault Refusal :=
  .next (match (s.vf v).invals with
    | [] => s
    | i :: rest =>
      let keep (e : TlbEntry) : Bool := e.vf != v || !i.hits e
      let s1 := { s with cores := s.cores.map fun (c : Nat × CoreState) => (c.1, { c.2 with tlb := c.2.tlb.filter keep }) }
      if s1.strands.any fun e => e.2.vf == v && e.2.asyncs.any i.busy then
        s1.schedule (s1.now + 1) (.invalidationComplete v)
      else
        let s2 := s1.setVf v fun f => { f with invals := rest }
        if rest.isEmpty then s2 else s2.later (.invalidationComplete v))

/-! Suspended strands (R354). -/

/-- The origin moved on by whole strides so that nothing of the strand lies in the past. -/
def Strand.catchUp (t : Strand) (now : Nat) : Strand :=
  match t.key with
  | some k => if k < now then { t with origin := t.origin + t.stride * ceilDiv (now - k) (Nat.max 1 t.stride) } else t
  | none => t

/-- The strand that a `tresume` names. -/
def resumeTarget (val : Nat) : Nat := bits val 7 0 * 16 + bits val 11 8

/-- An ignored `tresume`, reported. -/
def State.ignoredResume (s : State) (v : Nat) : State := s.report { vf := v, src := 255, cls := ascii2 'C' 'E', num := 5 }

/-- Whether the strand is suspended, of the VF, and on the named die. -/
def State.resumable (s : State) (v val : Nat) : Bool :=
  let t := s.strandAt (resumeTarget val)
  t.mode == .suspended && t.vf == v && bits val 7 6 == bits val 13 12

/-- `WD 1` and `HX 1` are not resumed. -/
def Trap.final (t : Trap) : Bool := (t.cls == ascii2 'W' 'D' && t.num == 1) || t.cls == ascii2 'H' 'X'

/-- `TRESUME_RESUME` (R354): the strand runs again at its next opportunity, from the word that faulted. -/
def execTresumeResume (v val : Nat) (byPf : Bool) (s : State) : Host.Outcome State Fault Refusal :=
  let x := resumeTarget val
  let t := s.strandAt x
  let final := match t.suspendedBy with | some tr => tr.final | none => false
  .next (if !s.resumable v val || final || (t.hostFault && !byPf) then s.ignoredResume v
    else
      let s1 := s.setStrand x
        (({ t with mode := .run, micro := t.resumeAt, offset := 0, suspendedBy := none, hostFault := false
                   asyncs := t.asyncs.map fun a => { a with paused := false } } : Strand).catchUp s.now)
      { { s1 with cur := x }.releaseHold (((s1.strandAt x).key).getD s1.now) with cur := s.cur })

/-! Virtual AER (R325, R363). -/

/-- Bytes of a poisoned posted write to a VF's aperture, written poisoned. -/
def State.poisonedWrite (s : State) (v addr : Nat) (bs : List Byte) : State :=
  bs.zipIdx.foldl
    (fun (s : State) b =>
      match s.tenantPa v (addr + b.2) true with
      | .ok (pa, s1) => (s1.write .dram pa [b.1]).mark .dram pa
      | .error _ => s)
    s

/-- Whether PCIe classes a link event of the PF as fatal, its default severities (PRESUMED: R325 leaves the classes to PCIe). -/
def linkFatal : LinkEventKind → Bool
  | .linkDown => true
  | _ => false

/-- The function whose accesses a host access is one of (R323): 64 is the PF. -/
def State.hostFn (s : State) : Ev → Option Nat
  | .registerWrite view _ _ _ | .registerRead view _ _ => some (if view < 128 then view else view - 128)
  | .apertureAccess v _ _ _ _ | .hrstatRead v _ | .erlostRead v | .hrconsWrite v _ _ | .hrctlWrite v _ _ => some v
  | .linkEvent (.poisonedPostedWrite _ _) v _ => some v
  | .cqerrRead q => (s.cq q).map Cq.vf
  | .hrpostWrite v _ _ src _ => if src = 3 then some v else none
  | .spstatRead _ | .vfquadsWrite _ _ | .pstitchWrite _ _ | .vfslotsWrite _ _ _ | .stkrateWrite _ _ | .chretWrite _ => some 64
  | .partitionReset _ val => if bit val 0 then some 64 else none
  | _ => none

/-- The function's first host access that waits. -/
def State.hostHead (s : State) (fn : Nat) : Option Ev := s.dev.hostWait.find? fun e => s.hostFn e == some fn

/-- Whether a host access frees records of a result ring. -/
def freesRecords : Ev → Bool
  | .hrconsWrite _ _ _ => true
  | .registerWrite view off _ _ => decide (view < 64) && decide (0x20000 ≤ off) && decide (off < 0x20400) && off / 8 % 8 == 3
  | _ => false

/-- Whether an access is a post. -/
def isPost : Ev → Bool
  | .hrpostWrite _ _ _ _ _ => true
  | _ => false

/-- Whether a host access has to wait behind one of its function's that is held (R323). A write of `hrcons` does not wait behind a post,
for which it may free the record (DESIGN CHOICE: R323 and R329 leave the two to wait for each other). -/
def State.hostQueued (s : State) (e : Ev) : Bool :=
  match s.hostFn e with
  | some fn => match s.hostHead fn with | some h => !(isPost h && freesRecords e) | none => false
  | none => false

/-- A host access that is held waits, with those of its function behind it, and is tried again; at a channel under retirement it keeps
its place among all that waits there. -/
def State.hostHold (s : State) (fn : Nat) (e : Ev) (retiring : Bool := false) : State :=
  let s1 : State := if s.hostHead fn = some e then s else { s with dev := { s.dev with hostWait := s.dev.hostWait ++ [e] } }
  if retiring then s1.park e else s1.schedule (s1.now + 1) e

/-- A host access that has performed: if it was held, those of its function behind it follow in their order. -/
def State.hostGoOn (s : State) (fn : Nat) (e : Ev) : State :=
  if s.hostHead fn = some e then
    let mine := s.dev.hostWait.filter fun e => s.hostFn e == some fn
    { s with inputs := mine.drop 1 ++ s.inputs, dev := { s.dev with hostWait := s.dev.hostWait.filter fun e => s.hostFn e != some fn } }
  else s

/-- A write of the PF that a handler serves waits for a hand-over that supersedes it (R391), and the PF's later accesses behind it. -/
def State.pfServed (s : State) (h : Nat) (e : Ev) (act : State → State) : State :=
  if s.handlerHeld h then s.hostHold 64 e else act (s.hostGoOn 64 e)

/-- `HRPOST_WRITE` (R329): a post of the host, behind which its function's later accesses wait until it performs (R323), or of another
agent that waits for nothing. -/
def execHrpostWrite (v ring val src orig : Nat) (s : State) : Host.Outcome State Fault Refusal :=
  let fn := if src = 3 then v else 65
  let s1 := s.post v ring { val := val, src := src, orig := orig, by_ := .host fn }
  .next (if fn = 65 ∨ (s.ring v ring).ctl % 16 = 0 then s1
    else { s1 with dev := { s1.dev with hostWait := s1.dev.hostWait ++ [.hrpostWrite v ring val src orig] } })

/-- A post of the host has performed: what its function does next follows. -/
def State.hostPosted (s : State) (fn : Nat) : State :=
  match s.hostHead fn with
  | some e => if isPost e then s.hostGoOn fn e else s
  | none => s

/-- `LINK_EVENT` (R325): of a failed completion, the next read of the bytes by the VF consumes it. -/
def execLinkEvent (kind : LinkEventKind) (v addr : Nat) (s : State) : Host.Outcome State Fault Refusal :=
  let fails : State := { s with dev := { s.dev with failed := s.dev.failed ++ [(v, addr / 8)] } }
  let e : Ev := .linkEvent kind v addr
  .next (match kind with
    | .receiverError | .flitReplay | .linkDown | .linkRetrain =>
      s.setPf fun p => { p with aer := p.aer ++ [(kind, linkFatal kind)] }
    | .unsupportedRequest => s.setVaer v 0 addr
    | .completerAbort => s.setVaer v 1 addr
    | .completionTimeout => fails.setVaer v 2 addr
    | .poisonedCompletion => fails.setVaer v 3 addr
    | .poisonedPostedWrite n val =>
      if s.tenantHeld v addr n true then s.hostHold v e (s.tenantAny v addr n s.retiring)
      else ((s.hostGoOn v e).poisonedWrite v addr (leBytes n val)).setVaer v 3 addr)

/-- `APERTURE_ACCESS` (R322, R323, R353): the host reads or writes the tenant's path 0x0 through VF BAR2; a fault is
reported in the virtual AER registers. -/
def execApertureAccess (v off n : Nat) (write : Bool) (val : Nat) (s : State) : Host.Outcome State Fault Refusal :=
  let addr := (s.vf v).apbase + off
  let fail (t : Trap) (s : State) : State :=
    let s1 := s.setVaer v 1 addr
    if t.host then
      s1.report { vf := 64, addr := t.addr, src := 2, cls := t.cls, num := t.num, detail := t.recDetail.getD 0, info := t.info }
    else s1
  .next (if 2 ^ 32 ≤ off then s
    else
      let e : Ev := .apertureAccess v off n write val
      if s.tenantHeld v addr n write then s.hostHold v e (write && s.tenantAny v addr n s.retiring)
      else
        let s1 := s.hostGoOn v e
        if write then
          match s1.tenantWrite v addr (leBytes n val) (n / 4096 + 2) with
          | (s2, none) => s2
          | (s2, some t) => fail t s2
        else
          match s1.tenantRead v addr n (n / 4096 + 2) with
          | .ok _ => s1
          | .error t => fail t s1)

/-! The model's own events: what other parts of the world do to memory. -/

def State.hostMemory (s : State) (addr n val : Nat) : State := s.write .host addr (leBytes n val)
def State.peerMemory (s : State) (addr n val : Nat) : State := s.write .peer addr (leBytes n val)

/-- Whether a generation is from before the fence of a channel's retirement (R373). -/
def Pf.outdated (p : Pf) (ch gen : Nat) : Bool :=
  match mget ch p.fences with
  | some f => decide ((p.chGen + 2 ^ 16 - f) % 2 ^ 16 < (p.chGen + 2 ^ 16 - gen % 2 ^ 16) % 2 ^ 16)
  | none => false

/-- A write on path 0x6 that another package has made (R348, R373): into a window, or the tenant's memory. One to a channel that is or
has been under retirement is rejected if it carries a generation from before the fence; else it is held as the package's own are. -/
def State.peerWrite (s : State) (v addr n val gen : Nat) : State :=
  if bit addr 50 then
    let e := bits addr 47 0
    if s.tenantAny v e n fun pa => s.dev.pf.outdated (channelOf pa) gen then s
    else if s.tenantHeld v e n true then s.waitFor v e n (.peerWrite v addr n val gen)
    else (s.tenantWrite v e (leBytes n val) (n / 4096 + 2)).1
  else if s.underReset (bits addr 28 21) then s.schedule (s.now + 1) (.peerWrite v addr n val gen)
  else s.windowWrite none (bits addr 28 21) (bits addr 20 0) (leBytes n val)

def State.setPeerQuads (s : State) (key mask : Nat) : State :=
  { s with dev := { s.dev with peerQuads := mset key mask s.dev.peerQuads } }

end Sys2Proof.Machine
end

