-- ==== Sys2Proof/Machine/Rings.lean ====
section
/-! DEFINITION. Interrupt messages (R324), error rings (R360, R361, R384), result rings and their coalescing (R327, R328,
R331). -/

set_option linter.unusedVariables false

namespace Sys2Proof.Machine

/-! MSI-X (R324). -/

/-- Whether a function sends no message on any vector: MSI-X Enable is clear or Function Mask set in its message control, which is 0
after a reset (R324, as PCIe's MSI-X has it: PRESUMED). -/
def State.functionMasked (s : State) (fn : Nat) : Bool :=
  let c := (mget fn s.dev.msixCtl).getD 0
  !bit c 15 || bit c 14

/-- A message sent on a function's vector, or its pending bit set while it or its function is masked. -/
def State.sendMsix (s : State) (fn vec : Nat) : State :=
  let k := fn * 64 + vec
  let e := s.msix k
  if e.masked || s.functionMasked fn then
    if s.dev.pba.contains k then s else { s with dev := { s.dev with pba := s.dev.pba ++ [k] } }
  else s.writeNum .host e.addr 4 e.data

/-- A vector's pending bit gives its message another try. -/
def State.sendPending (s : State) (fn vec : Nat) : State :=
  let k := fn * 64 + vec
  if s.dev.pba.contains k then { s with dev := { s.dev with pba := s.dev.pba.filter fun j => j != k } }.sendMsix fn vec else s

/-- A host write of a function's MSI-X message control; what it unmasks is sent. -/
def State.msixControl (s : State) (fn val : Nat) : State :=
  let s1 : State := { s with dev := { s.dev with msixCtl := mset fn (val % 2 ^ 16 / 2 ^ 14 * 2 ^ 14) s.dev.msixCtl } }
  if s1.functionMasked fn then s1 else (List.range (vectorsOf fn)).foldl (fun s i => s.sendPending fn i) s1

/-- The MSI-X state of a function as a reset of the function leaves it (R321, R324): every vector masked, nothing pending. -/
def State.resetMsix (s : State) (fn : Nat) : State :=
  { s with dev := { s.dev with
      msix := s.dev.msix.filter fun e => e.1 / 64 != fn
      pba := s.dev.pba.filter fun k => k / 64 != fn
      msixCtl := s.dev.msixCtl.filter fun e => e.1 != fn } }

/-- `MSIX_UNMASK` (R324). -/
def execMsixUnmask (fn vec : Nat) (s : State) : Host.Outcome State Fault Refusal :=
  .next ((s.setMsix (fn * 64 + vec) fun e => { e with masked := false }).sendPending fn vec)

/-! Ring records (R328, R330). -/

/-- The records of a ring. -/
def ringSize (ctl : Nat) : Nat := 2 ^ (ctl % 16)

/-- The META word of record `i`. -/
def metaWord (ctl i src orig : Nat) : Nat :=
  packFields [(1, 1 - i / ringSize ctl % 2), (7, 0), (8, src), (16, orig), (32, i % 2 ^ 32)]

/-- A record written: bytes 0–15 and 24–31, then META. -/
def State.writeRing (s : State) (base ctl i lo hi top m : Nat) : State :=
  let a := base + 32 * (i % ringSize ctl)
  (((s.writeNum .host a 8 lo).writeNum .host (a + 8) 8 hi).writeNum .host (a + 24) 8 top).writeNum .host (a + 16) 8 m

/-- Records that the host has not consumed. -/
def ringUsed (prod cons : Nat) : Nat := (prod + 2 ^ 32 - cons % 2 ^ 32) % 2 ^ 32

/-! Error rings. -/

/-- The error ring of a function: 64 is the PF's log. -/
def State.errRing (s : State) (v : Nat) : ErrRing := if v < 64 then (s.vf v).err else s.dev.pf.log

def State.setErrRing (s : State) (v : Nat) (f : ErrRing → ErrRing) : State :=
  if v < 64 then s.setVf v fun k => { k with err := f k.err } else s.setPf fun p => { p with log := f p.log }

/-- Whether a class is one of a strand's traps of delivery T. -/
def EventRec.isTrap (r : EventRec) : Bool :=
  r.cls == ascii2 'P' 'F' || r.cls == ascii2 'E' 'C' || r.cls == ascii2 'W' 'D' || r.cls == ascii2 'H' 'X'

/-- The classes whose INFO the spec gives: stage-2 `PF`, `CQ`, and those of the PF's log (R361, R384). -/
def EventRec.hasInfo (r : EventRec) : Bool :=
  (r.cls == ascii2 'P' 'F' && bit r.detail 6) || r.cls == ascii2 'C' 'Q' || r.cls == ascii2 'S' 'E' ||
    r.cls == ascii2 'F' 'W' || r.cls == ascii2 'T' 'H' || r.cls == ascii2 'P' 'M'

/-- An event record with what the spec gives of it, and free values elsewhere (R361). -/
def EventRec.words (r : EventRec) (fresh : Nat) : Nat × Nat × Nat × Nat :=
  let queue := if r.isTrap then r.queue else (Config.eventQueue fresh).toNat
  let detail := if r.isTrap || (r.cls == ascii2 'S' 'E' && r.num == 1) then r.detail else (Config.eventDetail fresh).toNat
  (if r.hasInfo then r.info % 2 ^ 64 else (Config.eventInfo fresh).toNat,
   packFields [(16, if r.cls = 0 then (Config.eventClass fresh).toNat else r.cls),
     (8, if r.cls = 0 then (Config.eventNum fresh).toNat else r.num), (8, queue % 8), (32, detail % 2 ^ 32)],
   if r.src = 255 then (Config.eventSrc fresh).toNat else r.src,
   if r.src ≤ 1 then r.orig else (Config.eventOrig fresh).toNat)

/-- An event written to its error ring, or dropped and counted (R360). -/
def State.errorRecord (s : State) (r : EventRec) : State :=
  let k := s.errRing r.vf
  if k.ctl % 16 = 0 ∨ ringSize k.ctl ≤ ringUsed k.prod k.cons then
    s.setErrRing r.vf fun k => { k with lost := (k.lost + 1) % 2 ^ 32 }
  else
    let w := r.words s.fresh
    let s1 := s.tick.writeRing k.base k.ctl k.prod w.1 w.2.1 (r.addr % 2 ^ 64) (metaWord k.ctl k.prod w.2.2.1 w.2.2.2)
    let s2 := s1.setErrRing r.vf fun k => { k with prod := (k.prod + 1) % 2 ^ 32 }
    if bit k.ctl 8 && decide (bits k.ctl 21 16 < 32) then s2.sendMsix r.vf (bits k.ctl 21 16) else s2

/-- The oldest event of a function. -/
def State.nextReport (s : State) (v : Nat) : State :=
  match s.dev.reports.find? fun r => r.vf == v with
  | some r => { s with dev := { s.dev with reports := s.dev.reports.erase r } }.errorRecord r
  | none => s

/-! Result rings (R331). -/

/-- The interrupt of a ring fires. -/
def State.fireRing (s : State) (v h : Nat) : State :=
  let vec := bits (s.ring v h).ctl 21 16
  if vec < 32 then (s.setRing v h fun r => { r with sig := r.prod, timer := none }).sendMsix v vec
  else s.setRing v h fun r => { r with sig := r.prod, timer := none, stat := r.stat ||| 4 }

/-- The timer of a ring started, if T is not 0. -/
def State.startTimer (s : State) (v h : Nat) : State :=
  let t := bits (s.ring v h).ctl 47 32
  if t = 0 then s
  else
    let at_ := s.now + s.cyclesOf t
    (s.setRing v h fun r => { r with timer := some at_ }).schedule at_ (.ringTimerExpiry v h)

/-- Whether the count threshold has been reached. -/
def HostRing.countReached (r : HostRing) : Bool :=
  let n := bits r.ctl 63 48
  n != 0 && decide (n ≤ ringUsed r.prod r.sig)

/-- A post written as a record, and what R331 does after it. -/
def State.postRecord (s : State) (v h : Nat) (p : Post) : State :=
  let r := s.ring v h
  let s1 := s.writeRing r.base r.ctl r.prod (p.val % 2 ^ 64) (p.tag % 2 ^ 64) 0 (metaWord r.ctl r.prod p.src p.orig)
  let s2 := s1.setRing v h fun r => { r with prod := (r.prod + 1) % 2 ^ 32 }
  if bit r.ctl 8 then
    let s3 := if ringUsed (s2.ring v h).prod r.sig = 1 then s2.startTimer v h else s2
    if (s3.ring v h).countReached then s3.fireRing v h else s3
  else s2

/-- `RING_TIMER_EXPIRY` (R331). -/
def execRingTimerExpiry (v h : Nat) (s : State) : Host.Outcome State Fault Refusal :=
  .next (match (s.ring v h).timer with
    | some t => if t ≤ s.now then s.fireRing v h else s
    | none => s)

/-- Waiting posts are looked at again. -/
def State.retryPosts (s : State) (v h : Nat) : State :=
  if (s.ring v h).posts.isEmpty then s else s.schedule s.now (.ringRecordWrite v h)

/-- `HRCONS_WRITE` (R327). -/
def execHrconsWrite (v h val : Nat) (s : State) : Host.Outcome State Fault Refusal :=
  let r := s.ring v h
  .next (if ringUsed val r.cons ≤ ringUsed r.prod r.cons then
      (s.setRing v h fun r => { r with cons := val % 2 ^ 32 }).retryPosts v h
    else
      (s.setRing v h fun r => { r with stat := r.stat ||| 1 }).report
        { vf := v, src := 255, cls := ascii2 'C' 'E', num := 4 })

/-- `HRCTL_WRITE` (R331). -/
def execHrctlWrite (v h val : Nat) (s : State) : Host.Outcome State Fault Refusal :=
  let old := (s.ring v h).ctl
  let s1 := s.setRing v h fun r => { r with ctl := ringLog (val &&& hrctlMask) }
  let s2 :=
    if bit old 8 && !bit val 8 then s1.setRing v h fun r => { r with timer := none }
    else if !bit old 8 && bit val 8 && (s1.ring v h).prod != (s1.ring v h).sig then
      let s3 := s1.startTimer v h
      if (s3.ring v h).countReached then s3.fireRing v h else s3
    else s1
  .next (s2.retryPosts v h)

end Sys2Proof.Machine
end

