-- ==== Sys2Proof/Machine/Compositor.lean ====
section
/-! DEFINITION. Compositor queues: node records (R299, R300, R326), credits, failure notices and completion (R301 to R303),
and the kinds of node that are not launches (R302, R312, R314 to R319, R329). -/

set_option linter.unusedVariables false

namespace Sys2Proof.Machine

/-! Node records (R299). -/

def recArg (x : Nat) : Nat := bits x 511 448
def recArg2 (x : Nat) : Nat := bits x 447 384
def recSucc (x i : Nat) : Nat := bits x (383 - 16 * i) (368 - 16 * i)
def recNsucc (x : Nat) : Nat := bits x 255 252
def recNtrue (x : Nat) : Nat := bits x 251 248
def recKind (x : Nat) : Nat := bits x 247 244
def recPcount (x : Nat) : Nat := bits x 231 216
def recTag (x : Nat) : Nat := bits x 127 64

/-- The successors, the true set and the false set. -/
def recSuccs (x : Nat) : List Nat := (List.range (recNsucc x)).map (recSucc x)
def recTrue (x : Nat) : List Nat := (recSuccs x).take (recNtrue x)
def recFalse (x : Nat) : List Nat := (recSuccs x).drop (recNtrue x)

/-- The byte offset of the field by which a record is malformed (R300). -/
def recBad (x len : Nat) : Option Nat :=
  if 6 < recKind x then some 30
  else if bits x 243 232 ≠ 0 then some 29
  else if bits x 215 200 ≠ 0 then some 25
  else if bits x 63 0 ≠ 0 then some 0
  else if 8 < recNsucc x then some 31
  else if recNsucc x < recNtrue x then some 31
  else ((List.range (recNsucc x)).find? fun i => decide (2 ^ len ≤ recSucc x i)).map fun i => 46 - 2 * i

/-- STATUS (R299): LRC, DETAIL and collision code. -/
def statusOf (lrc detail code : Nat) : Nat := packFields [(8, lrc), (24, detail % 2 ^ 24), (32, code % 2 ^ 32)]

/-! Slots. -/

def Cq.slot (c : Cq) (k : Nat) : Slot := (mget k c.slots).getD {}

def State.slotAt (s : State) (q k : Nat) : Slot := ((s.cq q).map fun c => c.slot k).getD {}

def State.setSlot (s : State) (q k : Nat) (f : Slot → Slot) : State :=
  s.setCq q fun c => { c with slots := mset k (f (c.slot k)) c.slots }

/-- The tenant of a queue. -/
def State.cqVf (s : State) (q : Nat) : Nat := ((s.cq q).map Cq.vf).getD 0

/-- An event of a queue for its tenant's error ring. -/
def State.cqEvent (s : State) (q cls num info : Nat) : State :=
  s.report { vf := s.cqVf q, src := 1, orig := cqOrig q, cls := cls, num := num, info := info }

/-- Whether a write of the compositor waits at a stack. -/
def compositorWaits : Ev → Bool
  | .compositorWrite _ _ _ _ => true
  | _ => false

/-- A write of a queue's compositor to its tenant's path 0x0: it waits at a stack as every other write does (R217, R370, R372), behind
those that wait already; a fault is reported. -/
def State.compositorWrite (s : State) (q e n v : Nat) (behind : Bool) : State :=
  let i : Ev := .compositorWrite q e n v
  if s.tenantHeld (s.cqVf q) e n true then s.waitFor (s.cqVf q) e n i
  else if behind && ((s.agenda.any fun a => compositorWaits a.2) || s.dev.parked.any compositorWaits) then s.schedule (s.now + 1) i
  else
    match s.tenantWrite (s.cqVf q) e (leBytes n v) 2 with
    | (s1, none) => s1
    | (s1, some t) => s1.reportFault (s.cqVf q) 1 (cqOrig q) t

/-- Bytes of a slot's record written by the compositor. -/
def State.writeSlot (s : State) (q k off n v : Nat) : State := s.compositorWrite q ((s.slotAt q k).addr + off) n v true

/-- STATE of a slot, in the compositor's copy and in memory. -/
def State.setSt (s : State) (q k st : Nat) : State := (s.setSlot q k fun x => { x with st := st }).writeSlot q k 24 1 st

/-- Whether a slot lies in the body of a loop node that has decided and has made no false decision since (R318). -/
def Cq.bound (c : Cq) (k : Nat) : Bool :=
  c.stuck.contains k || c.slots.any fun e => match e.2.body with | some b => b.contains k | none => false

/-! Readiness (R301, R302). -/

/-- The event that takes a node. -/
def nodeEvent (q k x : Nat) : Ev :=
  match recKind x with
  | 0 => .joinNode q k | 1 => .launchNode q k | 2 => .conditionalNode q k | 3 => .loopNode q k | 4 => .hostSignalNode q k
  | 5 => .signalNode q k | _ => .rephaseNode q k

/-- The ready node that a die's compositor takes next. -/
def Device.headOf (d : Device) (die : Nat) : Option (Nat × Nat × Nat) := d.ready.find? fun e => e.2.1 / 64 == die

/-- The taking of a die's first ready node is set. -/
def State.armDie (s : State) (die : Nat) : State :=
  match s.dev.headOf die with
  | some e => s.later (nodeEvent e.2.1 e.2.2 (s.slotAt e.2.1 e.2.2).copy)
  | none => s

/-- The list with a node that becomes ready now: in order of time, then of slot index. -/
def readyAdd (now q k : Nat) : List (Nat × Nat × Nat) → List (Nat × Nat × Nat)
  | [] => [(now, q, k)]
  | e :: r => if e.1 < now ∨ e.2.2 ≤ k then e :: readyAdd now q k r else (now, q, k) :: e :: r

/-- A node becomes ready (R301): its count returns to 0, and it keeps the queue's programs and windows as they stand
(R298, R308). -/
def State.makeReady (s : State) (q k : Nat) : State :=
  match s.cq q with
  | none => s
  | some c =>
    let s1 := (s.setSlot q k fun x =>
      { x with count := 0, progs := c.progs, nprog := c.nprog, wins := c.wins }).setSt q k 2
    let idle := (s1.dev.headOf (q / 64)).isNone
    let s2 := { s1 with dev := { s1.dev with ready := readyAdd s1.now q k s1.dev.ready } }
    if idle then s2.armDie (q / 64) else s2

/-! Completion (R302, R303). -/

/-- What a completing node sends to a slot: a credit, or the notice of a failed slot. -/
abbrev Sent := Nat × Option Nat

/-- STATUS, STATE = 4, `cqdone`, `cqerr` and the event of a failure; a body slot stays held, after a failure of its loop node too:
only the false decision releases it (R302, R303, R318). -/
def State.finishNode (s : State) (q k lrc detail code : Nat) : State :=
  let st := statusOf lrc detail code
  let body := (s.slotAt q k).body.getD []
  let s1 := (s.writeSlot q k 16 8 st).setSlot q k fun x => { x with body := none, decisions := 0 }
  let s2 := (s1.setSt q k 4).setCq q fun c =>
    { c with done := (c.done + 1) % 2 ^ 64, err := st
             stuck := if lrc = 0 then c.stuck.filter fun j => !body.contains j else (c.stuck ++ body).eraseDups }
  let s3 := s2.setCq q fun c =>
    { c with slots := c.slots.map fun e =>
        if (e.1 = k ∨ body.contains e.1) ∧ e.2.st = 4 ∧ !c.bound e.1 then (e.1, { e.2 with held := false }) else e }
  if lrc ≤ 1 then s3 else s3.cqEvent q (ascii2 'C' 'Q') lrc (lrc * 2 ^ 16 + k)

/-- Those that a node completed by a notice sends notices to: of a loop node that has decided, its false set (R319). -/
def State.noticed (s : State) (q k : Nat) : List Nat :=
  let x := s.slotAt q k
  if recKind x.copy = 3 ∧ x.body.isSome then recFalse x.copy else recSuccs x.copy

/-- Whether a slot lies in the body of a loop node that has decided and has made no false decision since. -/
def State.inBody (s : State) (q k : Nat) : Bool := ((s.cq q).map fun c => c.bound k).getD false

/-- A credit or a notice reaches a slot (R301): the state, and what a node that completes by it sends on. The notice of a body slot does
not enter a slot in STATE 4 again (R319): its loop node, which is not held any more, does not keep it. -/
def State.giveSlot (s : State) (q : Nat) (m : Sent) : State × List Sent :=
  let k := m.1
  let x := s.slotAt q k
  let excess : State × List Sent := (s.cqEvent q (ascii2 'C' 'E') 1 0, [])
  match m.2 with
  | none =>
    if !x.held then (s.setSlot q k fun x => { x with count := x.count + 1 }, [])
    else if x.st ≠ 1 then excess
    else if x.need ≤ x.count + 1 then (s.makeReady q k, [])
    else (s.setSlot q k fun x => { x with count := x.count + 1 }, [])
  | some w =>
    if !x.held then
      if x.st = 4 ∧ s.inBody q w then (s, []) else (s.setSlot q k fun x => { x with notice := some (x.notice.getD w) }, [])
    else if x.st ≠ 1 then excess
    else
      let to_ := s.noticed q k
      ((s.setSlot q k fun x => { x with count := 0 }).finishNode q k 0x0C w 0, to_.map (fun j => (j, some k)))

/-- Credits and notices delivered one after another; `fuel` bounds them: each slot completes by a notice at most once. -/
def State.giveAll (s : State) (q : Nat) : List Sent → Nat → State
  | [], _ => s
  | _, 0 => s
  | m :: ms, fuel + 1 =>
    let r := s.giveSlot q m
    r.1.giveAll q (ms ++ r.2) fuel

/-- Slots of a queue sent credits, or notices of slot `k`. -/
def State.sendOn (s : State) (q k lrc : Nat) (to_ : List Nat) : State :=
  let n := ((s.cq q).map fun c => c.slots.length).getD 0
  s.giveAll q (to_.map fun j => (j, if lrc ≤ 1 then none else some k)) (8 * (n + 2))

/-- A node completes, and its successors hear of it, all of them (R303). -/
def State.completeNode (s : State) (q k lrc detail code : Nat) : State :=
  (s.finishNode q k lrc detail code).sendOn q k lrc (recSuccs (s.slotAt q k).copy)

/-- A node completes with LRC 0x00 and credits a set of its successors. -/
def State.completeWith (s : State) (q k detail : Nat) (to_ : List Nat) : State :=
  (s.finishNode q k 0 detail 0).sendOn q k 0 to_

/-! The doorbell (R300, R326). -/

def State.ignoredDoorbell (s : State) (q : Nat) : State := s.cqEvent q (ascii2 'C' 'E') 2 0

/-- A slot's record read at its doorbell. -/
def State.readRecord (s : State) (q k addr x len : Nat) : State :=
  let old := s.slotAt q k
  let s1 := s.setSlot q k fun o =>
    { held := true, copy := x, st := 1, count := o.count, notice := none, need := recPcount x, addr := addr }
  match recBad x len with
  | some d => s1.finishNode q k 2 d 0
  | none =>
    match old.notice with
    | some w => (s1.setSlot q k fun o => { o with count := 0 }).completeNode q k 0x0C w 0
    | none =>
      if recPcount x ≤ old.count then
        ((List.range (old.count - recPcount x)).foldl (fun s _ => s.cqEvent q (ascii2 'C' 'E') 1 0) s1).makeReady q k
      else s1

/-- `DOORBELL` (R326): while the VF's partitions are being reset it waits (R377). -/
def execDoorbell (q val : Nat) (s : State) : Host.Outcome State Fault Refusal :=
  .next (match s.cq q with
    | none => s
    | some c =>
      let k := val % 2 ^ 16
      if (s.vf c.vf).prst ≠ 0 then s.schedule (s.now + 1) (.doorbell q val)
      else if bits val 63 16 ≠ 0 ∨ 2 ^ c.len ≤ k ∨ (c.slot k).held then s.ignoredDoorbell q
      else
        let addr := c.base + 64 * k
        if !pathZero addr 64 then s.ignoredDoorbell q
        else if s.tenantHeld c.vf addr 64 false then s.schedule (s.now + 1) (.doorbell q val)
        else
          match s.tenantNum c.vf addr 64 with
          | .error t => (s.reportFault c.vf 1 (cqOrig q) t).ignoredDoorbell q
          | .ok x => if bits x 199 192 = 1 then s.readRecord q k addr x c.len else s.ignoredDoorbell q)

/-! Taking a node (R302). -/

/-- Whether the taking of a node has to wait: for a hand-over that supersedes one of the handlers it needs (R391), for
the reset of its partitions (R377), or for a channel under retirement that holds its record (R372). -/
def State.nodeWaits (s : State) (q k : Nat) (handlers : List Nat) : Bool :=
  handlers.any s.handlerHeld ||
    (s.vf (s.cqVf q)).prst != 0 || s.tenantHeld (s.cqVf q) (s.slotAt q k).addr 64 false

/-- A ready node leaves the list, and the taking of the next one is set. -/
def State.unready (s : State) (q k : Nat) : State :=
  ({ s with dev := { s.dev with ready := s.dev.ready.filter fun e => !(e.2.1 == q && e.2.2 == k) } }).armDie (q / 64)

/-- A node of a kind is taken, if it is the first ready one of its die; else the first one's turn comes. -/
def State.takeNode (s : State) (q k kind : Nat) (ev : Ev) (handlers : List Nat) (act : State → State) : State :=
  match s.dev.headOf (q / 64) with
  | none => s
  | some e =>
    if e.2 = (q, k) ∧ recKind (s.slotAt q k).copy = kind then
      if s.nodeWaits q k handlers then s.schedule (s.now + 1) ev else act (s.unready q k)
    else if s.dev.ready.any fun e => e.2.1 == q && e.2.2 == k then s.schedule s.now (nodeEvent e.2.1 e.2.2 (s.slotAt e.2.1 e.2.2).copy)
    else s

/-- `JOIN_NODE` (R302). -/
def execJoinNode (q k : Nat) (s : State) : Host.Outcome State Fault Refusal :=
  .next (s.takeNode q k 0 (.joinNode q k) [0] fun s => s.completeNode q k 0 0 0)

/-- The predicate word of a node (R314, R315); none where the node completes with LRC 0x02. -/
def State.predicate (s : State) (q k : Nat) : Option Nat × State :=
  let a := recArg (s.slotAt q k).copy
  if !pathZero a 8 ∨ a % 8 ≠ 0 then (none, s)
  else
    match s.tenantNum (s.cqVf q) a 8 with
    | .ok v => (some v, s)
    | .error t => (none, s.reportFault (s.cqVf q) 1 (cqOrig q) t)

/-- `CONDITIONAL_NODE` (R314, R315). -/
def execConditionalNode (q k : Nat) (s : State) : Host.Outcome State Fault Refusal :=
  .next (s.takeNode q k 2 (.conditionalNode q k) [0] fun s =>
    let x := (s.slotAt q k).copy
    let p := s.predicate q k
    match p.1 with
    | none => p.2.completeNode q k 2 56 0
    | some v => if v = 0 then p.2.completeWith q k 0 (recFalse x) else p.2.completeWith q k 1 (recTrue x))

/-! Loop nodes (R316 to R318). -/

/-- The slots reachable from a list without passing through slot `l`; none where one has had no record read or they are
more than 256; `fuel` bounds the walk. -/
def Cq.reach (c : Cq) (l : Nat) : Nat → List Nat → List Nat → Option (List Nat)
  | 0, _, _ => none
  | _, [], seen => some seen
  | fuel + 1, k :: ks, seen =>
    if k = l ∨ seen.contains k then c.reach l fuel ks seen
    else if (c.slot k).st = 0 ∨ 256 ≤ seen.length then none
    else c.reach l fuel (ks ++ recSuccs (c.slot k).copy) (seen ++ [k])

/-- The body of a loop node (R317). -/
def Cq.bodyOf (c : Cq) (l : Nat) : Option (List Nat) :=
  match c.reach l 2400 (recTrue (c.slot l).copy) [] with
  | some b => if b.any fun k => (recSuccs (c.slot k).copy).contains l then some b else none
  | none => none

/-- A body slot in STATE 4 gets its copy back, which counts as the read of its record (R318): a notice kept with the slot completes
the node at once (R301). -/
def State.rearm (s : State) (q k : Nat) : State :=
  let x := s.slotAt q k
  if x.st ≠ 4 then s
  else
    let s1 := (s.setSlot q k fun x =>
      { held := true, copy := x.copy, need := recPcount x.copy, addr := x.addr, again := true }).setSt q k 1
    match x.notice with
    | some w => s1.completeNode q k 0x0C w 0
    | none => if recPcount x.copy = 0 then s1.makeReady q k else s1

/-- A true decision: STATUS, `cqdone`, the body and the node itself armed again, and credits for the true set. -/
def State.loopTrue (s : State) (q k : Nat) (body : List Nat) : State :=
  let x := s.slotAt q k
  let st := statusOf 0 (x.decisions + 1) 0
  let s1 := (s.writeSlot q k 16 8 st).setCq q fun c => { c with done := (c.done + 1) % 2 ^ 64, err := st }
  let s2 := s1.setSlot q k fun x => { x with body := some body, decisions := x.decisions + 1 }
  let s3 := body.foldl (fun s j => s.rearm q j) s2
  let s4 := (s3.setSlot q k fun x => { x with count := 0, need := 1 }).setSt q k 1
  s4.sendOn q k 0 (recTrue x.copy)

/-- `LOOP_NODE` (R316). -/
def execLoopNode (q k : Nat) (s : State) : Host.Outcome State Fault Refusal :=
  .next (s.takeNode q k 3 (.loopNode q k) [0] fun s =>
    let x := s.slotAt q k
    let p := s.predicate q k
    match p.1 with
    | none => p.2.completeNode q k 2 56 0
    | some 0 => p.2.completeWith q k x.decisions (recFalse x.copy)
    | some _ =>
      match (match x.body with | some b => some b | none => (s.cq q).bind fun c => c.bodyOf k) with
      | some b => p.2.loopTrue q k b
      | none => p.2.completeNode q k 2 32 0)

/-! Signals and posts (R312, R329). -/

/-- `HOST_SIGNAL_NODE` (R329): the node completes when its post does. -/
def execHostSignalNode (q k : Nat) (s : State) : Host.Outcome State Fault Refusal :=
  .next (s.takeNode q k 4 (.hostSignalNode q k) [0] fun s =>
    let x := (s.slotAt q k).copy
    let h := recArg2 x
    if 15 < h then s.completeNode q k 2 48 0
    else
      let s1 := (s.setSt q k 3).post (s.cqVf q) h { val := recArg x, src := 0, orig := k, tag := recTag x, by_ := .node q k }
      if (s.ring (s.cqVf q) h).ctl % 16 = 0 then s1.completeNode q k 2 48 0 else s1)

/-- `SIGNAL_NODE` (R312). -/
def execSignalNode (q k : Nat) (s : State) : Host.Outcome State Fault Refusal :=
  .next (s.takeNode q k 5 (.signalNode q k) [0] fun s =>
    let x := (s.slotAt q k).copy
    let s1 := s.strands.foldl
      (fun (s : State) e =>
        if e.2.node = (q, recArg x % 2 ^ 16) ∧ e.2.mode ≠ .ended ∧ e.2.mode ≠ .loading ∧ e.2.ctx.inten.getLsbD 1 then
          s.setStrand e.1 { e.2.fire 2 with signal := recArg2 x % 256 }
        else s)
      s
    s1.completeNode q k 0 0 0)

/-! Posts (R329, R330). -/

/-- A post has performed: what waited for it goes on. -/
def State.posted (s : State) : Poster → State
  | .strand x id => ((s.on x).upd fun t => t.setEntry id fun a => { a with phase := 3 }).schedule s.now (.accessPerform x id)
  | .node q k => s.completeNode q k 0 0 0
  | .prologue q k =>
    { s with dev := { s.dev with prologues := s.dev.prologues.map fun p =>
        if p.q = q ∧ p.slot = k then { p with waiting := false, next := s.now + 2 } else p } }
  | .host fn => s.hostPosted fn

/-- A waiting post that finds its ring disabled (R329). -/
def State.disposed (s : State) (v h : Nat) (p : Post) : State :=
  let s1 := s.post v h p
  match p.by_ with
  | .node q k => s1.completeNode q k 2 48 0
  | w => s1.posted w

/-- `RING_RECORD_WRITE` (R330, R360): the oldest event of an error ring (ring 16), or the oldest post of a result ring,
which waits while the ring is full. -/
def execRingRecordWrite (v ring : Nat) (s : State) : Host.Outcome State Fault Refusal :=
  .next (if ring = 16 then s.nextReport v
    else
      let r := s.ring v ring
      match r.posts with
      | [] => s
      | p :: ps =>
        if r.ctl % 16 = 0 then ((s.setRing v ring fun r => { r with posts := ps }).disposed v ring p).retryPosts v ring
        else if ringSize r.ctl ≤ ringUsed r.prod r.cons then s
        else
          (((s.setRing v ring fun r => { r with posts := ps }).postRecord v ring p).posted p.by_).retryPosts v ring)

/-- `COMPOSITOR_QUEUE_CREATE` (R298): a new queue, bound to a tenant. -/
def execCompositorQueueCreate (q v : Nat) (s : State) : Host.Outcome State Fault Refusal :=
  .next (if q < 256 ∧ v < 64 ∧ (s.cq q).isNone then
      { s with dev := { s.dev with cqs := mset q { vf := v } s.dev.cqs } }
    else s)

end Sys2Proof.Machine
end

