-- ==== Sys2Proof/Machine/Stick.lean ====
section
/-! DEFINITION. Stick code: the check of programs at their load (R308), a prologue's run word by word (R307, R309) and the
launches that wait for it. -/

set_option linter.unusedVariables false

namespace Sys2Proof.Machine

/-! Launches. -/

/-- The launch of a node. -/
def State.launchOf (s : State) (q k : Nat) : Option Launch := s.dev.launches.find? fun l => l.q == q && l.slot == k

/-- The launch of a node with another content. -/
def State.setLaunch (s : State) (l : Launch) : State :=
  { s with dev := { s.dev with launches := s.dev.launches.map fun m => if m.q = l.q ∧ m.slot = l.slot then l else m } }

def State.dropLaunch (s : State) (q k : Nat) : State :=
  { s with dev := { s.dev with launches := s.dev.launches.filter fun l => !(l.q == q && l.slot == k) } }

/-- The standby sets that were filled for a node, discarded (R311). -/
def State.dropStandby (s : State) (q k : Nat) : State :=
  { s with cores := s.cores.map fun (c : Nat × CoreState) =>
      match c.2.standby with
      | some b => if b.q = q ∧ b.slot = k then (c.1, { c.2 with standby := none }) else c
      | none => c }

/-- A launch that ends before any strand of it has started: its node completes. -/
def State.endLaunch (s : State) (q k lrc detail code : Nat) : State :=
  ((s.dropStandby q k).dropLaunch q k).completeNode q k lrc detail code

/-! Registers and pc of a run. -/

/-- `x`n; `x0` reads as zero. -/
def Prologue.reg (p : Prologue) (n : Fin 16) : Word := if n.val = 0 then 0 else p.regs.getD n.val 0

/-- `x`n written; a write of `x0` is ignored. -/
def Prologue.put (p : Prologue) (n : Fin 16) (v : Word) : Prologue :=
  if n.val = 0 then p else { p with regs := p.regs.set n.val v }

/-- The run that acts now. -/
def State.run (s : State) : Option Prologue := s.dev.prologues[s.dev.prol]?

def State.setRun (s : State) (p : Prologue) : State :=
  { s with dev := { s.dev with prologues := s.dev.prologues.set s.dev.prol p } }

def State.dropRun (s : State) : State := { s with dev := { s.dev with prologues := s.dev.prologues.eraseIdx s.dev.prol } }

/-- The run ends with LRC 0x04 and a fault kind (R309). -/
def State.runFault (s : State) (p : Prologue) (kind : Nat) : State :=
  s.dropRun.endLaunch p.q p.slot 4 (p.steps + kind * 2 ^ 20) 0

/-- One word of the run: a step, in two chip cycles, unless the 4,096 steps are spent (R307, R309). -/
def State.stickStep (s : State) (act : Prologue → State) : Host.Outcome State Fault Refusal :=
  .next (match s.run with
    | none => s
    | some p =>
      if 4096 ≤ p.steps then s.runFault p 1
      else act { p with steps := p.steps + 1, pc := p.pc + 1, next := p.next + 2 })

/-- A word that changes registers alone. -/
def State.stickSet (s : State) (f : Prologue → Prologue) : Host.Outcome State Fault Refusal :=
  s.stickStep fun p => s.setRun (f p)

/-- The pc moved on by a distance from the word itself. -/
def Prologue.jump (p : Prologue) (taken : Bool) (dist : Nat) : Prologue :=
  if taken then { p with pc := p.pc - 1 + dist } else p

/-! The words (R307). -/

/-- `end`: the launch goes on with the copy as the run left it. -/
def execStickEnd (s : State) : Host.Outcome State Fault Refusal :=
  s.stickStep fun p =>
    let s1 := s.dropRun
    (match s1.launchOf p.q p.slot with
     | some l => s1.setLaunch { l with copy := p.copy, reps := p.rept }
     | none => s1).later (.repetitionStart p.q p.slot)

/-- `li`. -/
def execStickLi (d : Fin 16) (imm : BitVec 19) (s : State) : Host.Outcome State Fault Refusal :=
  s.stickSet fun p => p.put d (imm.signExtend 64)

/-- `lhi`. -/
def execStickLhi (d a : Fin 16) (imm : BitVec 19) (s : State) : Host.Outcome State Fault Refusal :=
  s.stickSet fun p => p.put d (p.reg a <<< 19 ||| imm.setWidth 64)

/-- `add`. -/
def execStickAdd (d a b : Fin 16) (s : State) : Host.Outcome State Fault Refusal :=
  s.stickSet fun p => p.put d (p.reg a + p.reg b)

/-- `addi`. -/
def execStickAddi (d a : Fin 16) (imm : BitVec 19) (s : State) : Host.Outcome State Fault Refusal :=
  s.stickSet fun p => p.put d (p.reg a + imm.signExtend 64)

/-- `sub`. -/
def execStickSub (d a b : Fin 16) (s : State) : Host.Outcome State Fault Refusal :=
  s.stickSet fun p => p.put d (p.reg a - p.reg b)

/-- `and`. -/
def execStickAnd (d a b : Fin 16) (s : State) : Host.Outcome State Fault Refusal :=
  s.stickSet fun p => p.put d (p.reg a &&& p.reg b)

/-- `or`. -/
def execStickOr (d a b : Fin 16) (s : State) : Host.Outcome State Fault Refusal :=
  s.stickSet fun p => p.put d (p.reg a ||| p.reg b)

/-- `xor`. -/
def execStickXor (d a b : Fin 16) (s : State) : Host.Outcome State Fault Refusal :=
  s.stickSet fun p => p.put d (p.reg a ^^^ p.reg b)

/-- `shl`. -/
def execStickShl (d a : Fin 16) (n : BitVec 6) (s : State) : Host.Outcome State Fault Refusal :=
  s.stickSet fun p => p.put d (p.reg a <<< n.toNat)

/-- `shr`. -/
def execStickShr (d a : Fin 16) (n : BitVec 6) (s : State) : Host.Outcome State Fault Refusal :=
  s.stickSet fun p => p.put d (p.reg a >>> n.toNat)

/-- `mul`. -/
def execStickMul (d a b : Fin 16) (s : State) : Host.Outcome State Fault Refusal :=
  s.stickSet fun p => p.put d (p.reg a * p.reg b)

/-- `divu`: all ones when the divisor is 0. -/
def execStickDivu (d a b : Fin 16) (s : State) : Host.Outcome State Fault Refusal :=
  s.stickSet fun p => p.put d (if p.reg b = 0 then 0xFFFFFFFFFFFFFFFF else p.reg a / p.reg b)

/-- `minu`. -/
def execStickMinu (d a b : Fin 16) (s : State) : Host.Outcome State Fault Refusal :=
  s.stickSet fun p => p.put d (if (p.reg a).toNat ≤ (p.reg b).toNat then p.reg a else p.reg b)

/-- `maxu`. -/
def execStickMaxu (d a b : Fin 16) (s : State) : Host.Outcome State Fault Refusal :=
  s.stickSet fun p => p.put d (if (p.reg a).toNat ≤ (p.reg b).toNat then p.reg b else p.reg a)

/-- Word `i` of a launch record (R304). -/
def recordWord (x i : Nat) : Nat := bits x (64 * i + 63) (64 * i)

/-- `lrd`. -/
def execStickLrd (d : Fin 16) (i : Fin 16) (s : State) : Host.Outcome State Fault Refusal :=
  s.stickSet fun p => p.put d (BitVec.ofNat 64 (recordWord p.copy i.val))

/-- `lwr`. -/
def execStickLwr (a : Fin 16) (i : Fin 16) (s : State) : Host.Outcome State Fault Refusal :=
  s.stickSet fun p => { p with copy := putBits p.copy (64 * i.val) 64 (p.reg a).toNat }

/-- `bz`. -/
def execStickBz (a : Fin 16) (imm : BitVec 19) (s : State) : Host.Outcome State Fault Refusal :=
  s.stickSet fun p => p.jump (p.reg a == 0) imm.toNat

/-- `bnz`. -/
def execStickBnz (a : Fin 16) (imm : BitVec 19) (s : State) : Host.Outcome State Fault Refusal :=
  s.stickSet fun p => p.jump (p.reg a != 0) imm.toNat

/-- `bltu`. -/
def execStickBltu (a b : Fin 16) (off : BitVec 15) (s : State) : Host.Outcome State Fault Refusal :=
  s.stickSet fun p => p.jump (decide ((p.reg a).toNat < (p.reg b).toNat)) off.toNat

/-- `loop`. -/
def execStickLoop (a : Fin 16) (imm : BitVec 19) (s : State) : Host.Outcome State Fault Refusal :=
  s.stickSet fun p => if p.reg a = 0 then p else { (p.put a (p.reg a - 1)) with pc := p.pc - 1 - imm.toNat }

/-- `cancel`: the node completes with LRC 0x01 and the step count. -/
def execStickCancel (s : State) : Host.Outcome State Fault Refusal :=
  s.stickStep fun p => s.dropRun.endLaunch p.q p.slot 1 p.steps 0

/-- `rept`: a count outside 1 to 256 is fault kind 3 (R309). -/
def execStickRept (a : Fin 16) (s : State) : Host.Outcome State Fault Refusal :=
  s.stickStep fun p =>
    let n := (p.reg a).toNat
    if n = 0 ∨ 256 < n then s.runFault p 3 else s.setRun { p with rept := n }

/-- `clk`. -/
def execStickClk (d : Fin 16) (s : State) : Host.Outcome State Fault Refusal :=
  s.stickSet fun p => p.put d (BitVec.ofNat 64 s.micros)

/-! Windows (R298, R308, R309). -/

/-- The address of 8 bytes of a window of a node, or fault kind 2; a right that the window has lost since the program's
load counts as the same fault. -/
def State.windowAddr (s : State) (p : Prologue) (a : Fin 16) (w : Fin 4) (off : BitVec 17) (write : Bool) : Option Nat :=
  let wins := (s.slotAt p.q p.slot).wins
  let base := wins.getD (2 * w.val) 0
  let desc := wins.getD (2 * w.val + 1) 0
  let o := (p.reg a + off.setWidth 64).toNat
  if o % 8 ≠ 0 ∨ desc % 2 ^ 32 < o + 8 ∨ base % 8 ≠ 0 ∨ (pathOf base ≠ 0 ∧ pathOf base ≠ 7) ∨ !bit desc (if write then 33 else 32)
  then none
  else some (base + o)

/-- Whether 8 bytes lie in the tenant's register view. -/
def pathSeven (e : Nat) : Bool := pathOf e == 7 && bits e 59 57 == 0 && decide (lowAddr e + 8 ≤ 0x1000000)

/-- `ld`. -/
def execStickLd (d a : Fin 16) (w : Fin 4) (off : BitVec 17) (s : State) : Host.Outcome State Fault Refusal :=
  s.stickStep fun p =>
    let v := s.cqVf p.q
    match s.windowAddr p a w off false with
    | none => s.runFault p 2
    | some e =>
      if pathSeven e then
        let r := s.viewRead v (bits e 23 0) 8
        r.2.setRun (p.put d (BitVec.ofNat 64 r.1))
      else if !pathZero e 8 then s.runFault p 4
      else if s.tenantHeld v e 8 false then s.setRun { p with steps := p.steps - 1, pc := p.pc - 1, next := p.next - 1 }
      else
        match s.tenantNum v e 8 with
        | .ok x => s.setRun (p.put d (BitVec.ofNat 64 x))
        | .error t => (s.reportFault v 1 (cqOrig p.q) t).runFault p 4

/-- A prologue's post (R307, R329): the run waits for its record, unless the ring is disabled. -/
def State.runPost (s : State) (p : Prologue) (h val : Nat) : State :=
  let v := s.cqVf p.q
  let s1 := s.setRun { p with waiting := (s.ring v h).ctl % 16 != 0 }
  s1.post v h { val := val, src := 2, orig := p.slot, by_ := .prologue p.q p.slot }

/-- `st`. -/
def execStickSt (d a : Fin 16) (w : Fin 4) (off : BitVec 17) (s : State) : Host.Outcome State Fault Refusal :=
  s.stickStep fun p =>
    let v := s.cqVf p.q
    let x := (p.reg d).toNat
    match s.windowAddr p a w off true with
    | none => s.runFault p 2
    | some e =>
      if pathSeven e then
        match postRing (bits e 23 0) with
        | some h => s.runPost p h x
        | none => (s.setRun p).viewWrite v (bits e 23 0) 8 x 1
      else if !pathZero e 8 then s.runFault p 4
      else if s.tenantHeld v e 8 true then
        s.setRun { p with steps := p.steps - 1, pc := p.pc - 1, next := p.next - 1 }
      else
        match (s.setRun p).tenantWrite v e (leBytes 8 x) 2 with
        | (s1, none) => s1
        | (s1, some t) => (s1.reportFault v 1 (cqOrig p.q) t).runFault p 4

/-! The check at load (R308). -/

/-- The register that a word writes. -/
def stickWrites : Instr → Option (Fin 16)
  | .stickLi d _ | .stickLhi d _ _ | .stickAdd d _ _ | .stickAddi d _ _ | .stickSub d _ _ | .stickAnd d _ _ | .stickOr d _ _
  | .stickXor d _ _ | .stickShl d _ _ | .stickShr d _ _ | .stickMul d _ _ | .stickDivu d _ _ | .stickMinu d _ _
  | .stickMaxu d _ _ | .stickLd d _ _ _ | .stickLrd d _ | .stickClk d => some d
  | .stickLoop a _ => some a
  | _ => none

/-- The target of a word that branches, at index `i`; one before the program's start stands as a number beyond its end. -/
def stickTarget (i : Nat) : Instr → Option Nat
  | .stickBz _ m | .stickBnz _ m => some (i + m.toNat)
  | .stickBltu _ _ m => some (i + m.toNat)
  | .stickLoop _ m => some (if m.toNat ≤ i then i - m.toNat else 2 ^ 20)
  | _ => none

/-- Check 3: a forward branch stays within the program. -/
def stickForward (ws : List Instr) (i : Nat) : Instr → Bool
  | .stickBz _ m | .stickBnz _ m => decide (1 ≤ m.toNat) && decide (i + m.toNat < ws.length)
  | .stickBltu _ _ m => decide (1 ≤ m.toNat) && decide (i + m.toNat < ws.length)
  | _ => true

/-- Check 4: a `loop` runs a counted body that nothing else enters and whose count nothing else writes. -/
def stickBounded (ws : List Instr) (i : Nat) : Instr → Bool
  | .stickLoop a m =>
    let t := i - m.toNat
    decide (1 ≤ m.toNat) && decide (m.toNat < i) &&
      (match ws[t - 1]? with
       | some (.stickLi d n) => d == a && decide (0 ≤ n.toInt) && decide (n.toInt ≤ 65535)
       | _ => false) &&
      ((ws.drop t).take (i - t)).all (fun w => stickWrites w != some a) &&
      (ws.zipIdx).all fun w =>
        (decide (t ≤ w.2) && decide (w.2 ≤ i)) ||
          (match stickTarget w.2 w.1 with | some u => !(decide (t < u) && decide (u ≤ i)) | none => true)
  | _ => true

/-- Check 5: an access names a window with its right, inside its length. -/
def stickWindow (wins : List Nat) : Instr → Bool
  | .stickLd _ _ w off => inside w off 32
  | .stickSt _ _ w off => inside w off 33
  | _ => true
where
  inside (w : Fin 4) (off : BitVec 17) (right : Nat) : Bool :=
    let d := wins.getD (2 * w.val + 1) 0
    bit d right && off.toNat % 8 == 0 && decide (off.toNat + 8 ≤ d % 2 ^ 32)

/-- Whether a program's last word may stand there. -/
def stickEnds : Option Instr → Bool
  | some .stickEnd | some .stickCancel => true
  | _ => false

/-- The index of the word at which a program fails its checks, which are made one after another (R308). -/
def verifyProgram (words wins : List Nat) : Option Nat :=
  let n := words.length
  if 1024 < n ∨ !stickEnds ((words.getLast?).bind decodeStick) then some (n - 1)
  else
    match words.findIdx? fun w => (decodeStick w).isNone with
    | some i => some i
    | none =>
      let ws := words.filterMap decodeStick
      let first (ok : Nat → Instr → Bool) : Option Nat := ((ws.zipIdx).find? fun w => !ok w.2 w.1).map Prod.snd
      match first (stickForward ws) with
      | some i => some i
      | none =>
        match first (stickBounded ws) with
        | some i => some i
        | none => first fun _ w => stickWindow wins w

/-- Bytes as 32-bit words. -/
def words32 (bs : List Byte) : List Nat := (List.range (bs.length / 4)).map fun i => leNat ((bs.drop (4 * i)).take 4)

/-- A program read from a table entry of its queue; a translation fault is reported. -/
def State.readProgram (s : State) (q p : Nat) (c : Cq) : Prog × State :=
  let bad : Prog := { fail := some (statusOf 4 (4 * 2 ^ 20) 0) }
  let a := c.prog + 16 * p
  let fault (t : Trap) : Prog × State := (bad, s.reportFault c.vf 1 (cqOrig q) t)
  if !pathZero a 16 then (bad, s)
  else
    match s.tenantNum c.vf a 16 with
    | .error t => fault t
    | .ok x =>
      let e := bits x 127 64
      let n := 4 * bits x 9 0
      if !pathZero e n then (bad, s)
      else
        match s.tenantRead c.vf e n (n / 4096 + 2) with
        | .error t => fault t
        | .ok bs =>
          let ws := words32 bs
          match verifyProgram ws c.wins with
          | none => ({ words := ws }, s)
          | some i => ({ fail := some (statusOf 4 i 0) }, s)

/-- The program table loaded (R308): `cqerr` holds the last failure. -/
def State.loadPrograms (s : State) (q : Nat) : State :=
  match s.cq q with
  | none => s
  | some c =>
    let s1 := s.setCq q fun c => { c with progs := [] }
    (List.range c.nprog).foldl
      (fun (s : State) p =>
        let r := s.readProgram q p c
        r.2.setCq q fun c => { c with progs := mset p r.1 c.progs, err := r.1.fail.getD c.err })
      s1

/-- `CQPROG_WRITE` (R308). -/
def execCqprogWrite (q val : Nat) (s : State) : Host.Outcome State Fault Refusal :=
  .next ((s.setCq q fun c => { c with prog := val }).loadPrograms q)

/-- `CQNPROG_WRITE` (R308). -/
def execCqnprogWrite (q val : Nat) (s : State) : Host.Outcome State Fault Refusal :=
  .next ((s.setCq q fun c => { c with nprog := val % 1024 }).loadPrograms q)

end Sys2Proof.Machine
end

