-- ==== Sys2Proof/Machine/Imposer.lean ====
section
/-! DEFINITION. Launch records and galley images (R304, R305, R320), where a gang lies (R304, R306), the routes of its
circuits (R374 to R376, R379) and the Imposer's tests (R284 to R289). -/

set_option linter.unusedVariables false

namespace Sys2Proof.Machine

/-! The launch record (R304). -/

def lrImg (x : Nat) : Nat := bits x 1023 960
def lrSymb (x : Nat) : Nat := bits x 959 896
def lrParam (x : Nat) : Nat := bits x 895 832
def lrSeed (x : Nat) : Nat := bits x 831 768
/-- The descriptor of engine `e`'s queue. -/
def lrQueue (x e : Nat) : Nat := bits x (767 - 48 * e) (720 - 48 * e)
def lrOwna (x : Nat) : Nat := bits x 479 446
def lrOwns (x : Nat) : Nat := bits x 445 415 * 2
def lrSsp (x : Nat) : Nat := bits x 414 395
def lrSlim (x : Nat) : Nat := bits x 394 375
def lrTvec (x : Nat) : Nat := bits x 374 361
def lrCbase (x : Nat) : Nat := bits x 359 352
def lrNpkg (x : Nat) : Nat := bits x 351 346
def lrPkg0 (x : Nat) : Nat := bits x 345 340
def lrRows (x : Nat) : Nat := bits x 339 336 + 1
def lrCols (x : Nat) : Nat := bits x 335 332 + 1
def lrExact (x : Nat) : Bool := bit x 328
def lrDbg (x : Nat) : Bool := bit x 327
def lrRot (x : Nat) : Bool := bit x 326
def lrNowait (x : Nat) : Bool := bit x 325
def lrAct (x : Nat) : Nat := bits x 323 316
def lrPlen (x : Nat) : Nat := bits x 315 300
def lrPdst (x : Nat) : Nat := bits x 299 280
def lrProl (x : Nat) : Nat := bits x 279 264
def lrBudget (x : Nat) : Nat := bits x 263 232
def lrWset (x : Nat) : Nat := bits x 231 168
def lrWsn (x : Nat) : Nat := bits x 167 152

/-- The strands on each package, and in the gang. -/
def lrEach (x : Nat) : Nat := lrRows x * lrCols x
def lrSize (x : Nat) : Nat := lrEach x * (lrNpkg x + 1)

/-- The package and the core of a gang rank. -/
def lrPlace (x r : Nat) : Nat × Nat := (lrPkg0 x + r / lrEach x, lrCbase x + r % lrEach x)

/-- The cores on each package. -/
def lrCores (x : Nat) : List Nat := (List.range (lrEach x)).map fun i => lrCbase x + i

/-- Whether the gang has strands on a package. -/
def lrOn (x pkg : Nat) : Bool := decide (lrPkg0 x ≤ pkg) && decide (pkg ≤ lrPkg0 x + lrNpkg x)

/-- Base, length and entry index of a queue's ring (R84). -/
def ringBase (d : Nat) : Nat := bits d 47 28
def ringLen (d : Nat) : Nat := if bits d 27 14 = 0 then 16384 else bits d 27 14

/-! The galley image (R305). -/

def imHdr (b : List Byte) : Nat := leNat (b.take 64)
def ihStride (h : Nat) : Nat := bits h 479 477
def ihPhi (h e : Nat) : Nat := bits h (471 - 4 * e) (468 - 4 * e)
def ihPhiBg (h g : Nat) : Nat := bits h (403 + 4 * g) (400 + 4 * g)
def ihBanks (h : Nat) : Nat := bits h 379 368
def ihChans (h : Nat) : Nat := bits h 367 364
def ihNseg (h : Nat) : Nat := bits h 363 352
def ihNslot (h : Nat) : Nat := bits h 351 343
def ihNquo (h : Nat) : Nat := bits h 342 333
def ihNfoot (h : Nat) : Nat := bits h 332 325
def ihGlvl (h : Nat) : Nat := bits h 324 322
def ihNlay (h : Nat) : Nat := bits h 313 302

/-- Byte offsets of the lists. -/
def ihSlots (h : Nat) : Nat := 64 + 16 * ihNseg h
def ihQuos (h : Nat) : Nat := ihSlots h + 8 * ihNslot h
def ihFoots (h : Nat) : Nat := ihQuos h + 4 * ihNquo h
def ihLays (h : Nat) : Nat := ihFoots h + 16 * ihNfoot h
def ihBytes (h : Nat) : Nat := ihLays h + 72 * ihNlay h

/-- `n` entries of `w` bytes from an offset on, each with its own offset. -/
def imList (b : List Byte) (off n w : Nat) : List (Nat × Nat) :=
  (List.range n).map fun i => (off + w * i, leNat ((b.drop (off + w * i)).take w))

def imSegs (b : List Byte) : List (Nat × Nat) := imList b 64 (ihNseg (imHdr b)) 16
def imSlots (b : List Byte) : List (Nat × Nat) := imList b (ihSlots (imHdr b)) (ihNslot (imHdr b)) 8
def imQuos (b : List Byte) : List (Nat × Nat) := imList b (ihQuos (imHdr b)) (ihNquo (imHdr b)) 4
def imFoots (b : List Byte) : List (Nat × Nat) := imList b (ihFoots (imHdr b)) (ihNfoot (imHdr b)) 16
def imLays (b : List Byte) : List (Nat × Nat) := imList b (ihLays (imHdr b)) (ihNlay (imHdr b)) 72

/-- Destination, byte count and source offset of a segment. -/
def segDst (x : Nat) : Nat := bits x 127 108
def segLen (x : Nat) : Nat := bits x 107 88
def segSrc (x : Nat) : Nat := bits x 63 0

/-- The quotas of the galley, by channel. -/
def imQuotas (b : List Byte) : List (Nat × Nat) :=
  (imQuos b).foldl (fun m e => mset (bits e.2 24 16) ((mget (bits e.2 24 16) m).getD 0 + bits e.2 4 0) m) []

/-! Where the gang lies. -/

/-- The level of the smallest unit that holds the gang's cores (R30): 1 core to 5 pod. -/
def lrWidest (x : Nat) : Nat :=
  let a := lrCbase x
  let b := lrCbase x + lrEach x - 1
  if lrNpkg x ≠ 0 then 5 else if a = b then 1 else if a / 4 = b / 4 then 2 else if a / 64 = b / 64 then 3 else 4

/-- Whether a core of a package lies in a partition of a VF (R357). -/
def State.tenantCore (s : State) (v pkg c : Nat) : Bool :=
  if pkg = s.dev.pkg then s.inTenant v c else bit ((mget (pkg * 64 + v) s.dev.peerQuads).getD 0) (c / 4)

/-! Slot entries (R225, R320). -/

def seSlot (x : Nat) : Nat := bits x 63 56
def seRk (x : Nat) : Nat := bits x 55 41
def sePeer (x : Nat) : Nat := bits x 26 13
def seRecv (x : Nat) : Bool := bit x 30

/-- Whether an entry is written on the core of a gang rank. -/
def seOn (x r : Nat) : Bool := seRk x == 0 || seRk x == r + 1

/-- The place that an entry names as its other end: package and core. -/
def sePlace (rec x : Nat) : Nat × Nat := if seRk x = 0 then (sePeer x / 256, sePeer x % 256) else lrPlace rec (sePeer x)

/-! Routes (R374, R375). Links are directed pairs of routers: 0 to 63 the quads, 200 to 203 the compute dies, 204 the hub
die, 3000 and more the stitched wires of a quad; (1000, l) is Speat link l outwards, (1000, l + 32) inwards. -/

/-- Hops from one place to another, by a rule for the next one; `fuel` bounds them. -/
def hops (next : Nat → Nat) (to_ : Nat) : Nat → Nat → List (Nat × Nat)
  | 0, _ => []
  | fuel + 1, a => if a = to_ then [] else (a, next a) :: hops next to_ fuel (next a)

/-- The next place on a ring of `n`, the shorter way round. -/
def ringNext (n to_ a : Nat) : Nat :=
  let fwd := (to_ + n - a) % Nat.max 1 n
  if fwd ≤ n - fwd then (a + 1) % Nat.max 1 n else (a + n - 1) % Nat.max 1 n

/-- The next router of a mesh: along the row to the column first. -/
def meshNext (to_ a : Nat) : Nat :=
  if a % 4 < to_ % 4 then a + 1 else if to_ % 4 < a % 4 then a - 1 else if a < to_ then a + 4 else a - 4

/-- The ancestor of a tree's place whose parent is `a`, if there is one. -/
def childToward (a : Nat) : Nat → Nat → Option Nat
  | 0, _ => none
  | fuel + 1, b => if b = 0 then none else if (b - 1) / 2 = a then some b else childToward a fuel ((b - 1) / 2)

def treeNext (to_ a : Nat) : Nat := match childToward a 8 to_ with | some b => b | none => (a - 1) / 2

/-- The next place of a torus of `w` columns and `h` rows, columns first. -/
def torusNext (w h to_ a : Nat) : Nat :=
  if a % w ≠ to_ % w then a / w * w + ringNext w (to_ % w) (a % w) else ringNext h (to_ / w) (a / w) * w + a % w

/-- The quads of a VF on a die, in the order that its stitch mode places them. -/
def Vf.placed (f : Vf) (die : Nat) : List Nat :=
  let qs := (List.range 16).filter fun k => bit f.quads (16 * die + k)
  let root := bits f.pstitch 15 12
  if f.pstitch % 16 = 2 ∧ qs.contains root then root :: qs.filter (fun k => k != root) else qs

/-- The links between two quads of a die (R375). -/
def Vf.dieRoute (f : Vf) (die a b : Nat) : List (Nat × Nat) :=
  let mesh : List (Nat × Nat) := (hops (meshNext b) b 16 a).map fun l => (16 * die + l.1, 16 * die + l.2)
  let qs := f.placed die
  match f.pstitch % 16, qs.findIdx? (fun k => k == a), qs.findIdx? (fun k => k == b) with
  | 0, _, _ => mesh
  | m, some i, some j =>
    let w := bits f.pstitch 7 4 + 1
    let next : Nat → Nat :=
      if m = 1 then ringNext qs.length j else if m = 2 then treeNext j else torusNext w (bits f.pstitch 11 8 + 1) j
    (hops next j 32 i).map fun l => (3000 + 16 * die + qs.getD l.1 0, 3000 + 16 * die + qs.getD l.2 0)
  | _, _, _ => mesh

/-- The Speat link to a package: one whose far end it is, else the first that is up. -/
def State.linkTo (s : State) (pkg : Nat) : Nat :=
  let up := (List.range 18).filter fun l => (s.link l).state == 2
  match up.find? fun l => (s.link l).peerPkg == pkg with
  | some l => l
  | none => up.headD 0

/-- Σ(40 + LAT) of the Speat links to a package: what lies beyond the first link is free. -/
def State.linkCycles (s : State) (pkg : Nat) : Nat :=
  let l := s.link (s.linkTo pkg)
  40 + l.lat + (if l.state = 2 ∧ l.peerPkg = pkg then 0 else Config.farTransit pkg)

/-- The links on this package of a circuit from one place to another, and its TRANSIT. -/
def State.route (s : State) (v : Nat) (src dst : Nat × Nat) : List (Nat × Nat) × Nat :=
  let here := s.dev.pkg
  let a := src.2 / 4
  let b := dst.2 / 4
  if src.1 = dst.1 then
    if a / 16 = b / 16 then
      let r := (s.vf v).dieRoute (a / 16) (a % 16) (b % 16)
      (if src.1 = here then r else [], 18 + 4 * r.length)
    else (if src.1 = here then [(a, 200 + b / 16)] else [], 58)
  else
    let far := if src.1 = here then dst.1 else src.1
    let t := 98 + s.linkCycles far
    if src.1 = here then ([(a, 204), (1000, s.linkTo far)], t)
    else if dst.1 = here then ([(1000, s.linkTo far + 32), (204, b)], t)
    else ([], t)

/-- A circuit that an entry of a rank makes on this package: its slot, its ends' cores there and its links; a receiving
end adds nothing to a circuit within the package. -/
def State.circuitOf (s : State) (v rec r x : Nat) : Option Route :=
  let me := lrPlace rec r
  let other := sePlace rec x
  let here := s.dev.pkg
  let src := if seRecv x then other else me
  let dst := if seRecv x then me else other
  if me.1 ≠ here ∨ (seRecv x ∧ other.1 = here) then none
  else some { slot := seSlot x, src := if src.1 = here then src.2 else 256, dst := if dst.1 = here then dst.2 else 256
              links := (s.route v src dst).1, strand := r }

/-- The circuits of a gang, in order of rank. -/
def State.circuitsOf (s : State) (v rec : Nat) (b : List Byte) : List Route :=
  (List.range (lrSize rec)).flatMap fun r =>
    (imSlots b).filterMap fun e => if seOn e.2 r then s.circuitOf v rec r e.2 else none

/-! Collision codes (R288). -/

def collision (kind frgn res core ctx : Nat) : Nat :=
  packFields [(4, kind), (1, frgn), (2, 0), (9, res), (8, if frgn = 0 then core else 0), (4, if frgn = 0 then ctx else 0), (4, 0)]

/-- The code whose holder is a strand, as a tenant sees it. -/
def State.held_ (s : State) (v kind res x : Nat) : Nat :=
  collision kind (b2n ((s.strandAt x).vf != v)) res (coreOf x) (x % 16)

/-- The first of the circuits that meets another in one slot on one link, with the code and the core of its own end
(R376, R379). Speat links carry 104 circuits each. -/
def State.routeClash (s : State) (v : Nat) (rec : Nat) : List Route → List Route → Option (Nat × Nat)
  | [], _ => none
  | r :: rs, mine =>
    let core := if r.src < 256 then r.src else r.dst
    let meets (o : Route) : Bool := o.slot == r.slot && o.links.any fun l => l.1 != 1000 && r.links.contains l
    let full (l : Nat × Nat) : Bool :=
      l.1 == 1000 && decide (104 ≤ ((s.dev.routes ++ mine).filter fun o => o.links.contains l).length)
    match s.dev.routes.find? meets with
    | some o => some (s.held_ v 5 o.slot o.strand, core)
    | none =>
      if mine.any meets then some (collision 5 0 r.slot 0 0, core)
      else if r.links.any full then some (collision 5 0 256 0 0, core)
      else s.routeClash v rec rs (r :: mine)

/-- The first pair of a range that is not taken. -/
def freePair (taken : List Nat) (lo n : Nat) : Nat := ((List.range' lo n).find? fun p => !taken.contains p).getD lo

/-- Routes with a pair on each Speat link of theirs (R379): the first of 0 to 103 that no circuit has there (DESIGN CHOICE: the rule does
not say which). -/
def State.pairUp (s : State) : List Route → List Route → List Route
  | [], done => done
  | r :: rs, done =>
    let taken (l : Nat) : List Nat :=
      ((s.dev.routes ++ done).flatMap Route.pairs).filterMap fun e => if e.1 = l then some e.2 else none
    let mine := r.links.filterMap fun l => if l.1 = 1000 then some (l.2, freePair (taken l.2) 0 104) else none
    s.pairUp rs (done ++ [{ r with pairs := mine }])

/-- The Speat links of the tree of a gang of several packages: those to its other packages. -/
def State.treeLinks (s : State) (rec : Nat) : List Nat :=
  if lrNpkg rec = 0 ∨ !lrOn rec s.dev.pkg then []
  else
    (((List.range (lrSize rec)).map fun r => (lrPlace rec r).1).filter fun p => p != s.dev.pkg).eraseDups.map s.linkTo |>.eraseDups

/-- The pairs that gangs hold on a link. -/
def State.treePairs (s : State) (l : Nat) : List Nat :=
  s.dev.launches.flatMap fun k =>
    if k.stage = .saved then [] else k.pairs.filterMap fun e => if e.1 = l then some e.2 else none

/-- Whether a gang of several packages finds none of pairs 104 to 111 left on a link of its tree (R379). -/
def State.podFull (s : State) (rec : Nat) : Bool := (s.treeLinks rec).any fun l => decide (8 ≤ (s.treePairs l).length)

/-- The pair of a gang on each link of its tree: the first that is free there. -/
def State.podPairs (s : State) (rec : Nat) : List (Nat × Nat) :=
  (s.treeLinks rec).map fun l => (l, freePair (s.treePairs l) 104 8)

/-! The Imposer (R284 to R287). -/

/-- What a galley asks of a core: stride, phases, bank groups, channels, slot entries, quotas and tenant. -/
structure Ask where
  stride : Nat
  phi : List Nat
  phiBg : List Nat
  banks : Nat
  chans : Nat
  slots : List Nat
  quotas : List (Nat × Nat)
  vf : Nat
  deriving DecidableEq, Repr

/-- What a launch asks for its strand of a rank. -/
def askOf (v rec : Nat) (b : List Byte) (r : Nat) : Ask :=
  let h := imHdr b
  { stride := 2 ^ ihStride h, phi := (List.range 6).map (ihPhi h), phiBg := (List.range 12).map (ihPhiBg h), banks := ihBanks h
    chans := ihChans h, slots := ((imSlots b).filter fun e => seOn e.2 r).map fun e => seSlot e.2, quotas := imQuotas b, vf := v }

/-- Malformed holdings: KIND 0x7. -/
def askBad (b : List Byte) : Bool :=
  let h := imHdr b
  let s := 2 ^ ihStride h
  (List.range 6).any (fun e => decide (s ≤ ihPhi h e)) || (List.range 12).any (fun g => decide (s ≤ ihPhiBg h g)) ||
    (List.range 4).any (fun c => decide (s ≤ bits h (387 + 4 * c) (384 + 4 * c))) || decide (s ≤ bits h 383 380) ||
    (imQuotas b).any fun q => decide (16 < q.2)

/-- The shifts by which a resident strand's phases count: its own, and that of a pending re-phase (R287). -/
def Strand.shifts (t : Strand) : List Nat := match t.rephase with | some r => [0, r.1] | none => [0]

/-- Whether a held phase meets one of a resident strand (R285, R286). -/
def Strand.meets (t : Strand) (stride psi phi : Nat) : Bool :=
  let g := Nat.gcd stride t.stride
  t.shifts.any fun d => psi % g == (t.origin + d + phi) % g

/-- The resident strands of a core, in ascending context. -/
def State.residents (s : State) (c : Nat) : List (Nat × Strand) := s.strands.filter fun e => coreOf e.1 == c && e.2.mode != .ended

/-- The phase test of R287 on issue resources, then on bank groups, against some residents. -/
def State.phaseTest (s : State) (v stride : Nat) (phi phiBg : List Nat) (banks : Nat) (rs : List (Nat × Strand)) : Option Nat :=
  match (List.range 6).findSome? fun r =>
      (rs.find? fun e => e.2.meets stride (phi.getD r 0) (vget e.2.phi r 0)).map fun e => s.held_ v 2 r e.1 with
  | some c => some c
  | none =>
    (List.range 12).findSome? fun g =>
      if bit banks g then
        (rs.find? fun e => bit e.2.banks g && e.2.meets stride (phiBg.getD g 0) (vget e.2.phiBg g 0)).map fun e => s.held_ v 3 g e.1
      else none

/-- The test of R287 on a core, but for quoins. -/
def State.imposeCore (s : State) (a : Ask) (c : Nat) : Option Nat :=
  let rs := s.residents c
  if 16 ≤ rs.length then some (collision 1 0 0 0 0)
  else
    match s.phaseTest a.vf a.stride a.phi a.phiBg a.banks rs with
    | some k => some k
    | none =>
      match (List.range 4).findSome? fun ch =>
          if bit a.chans ch then (rs.find? fun e => bit e.2.channels ch).map fun e => s.held_ a.vf 4 ch e.1 else none with
      | some k => some k
      | none =>
        (List.range 256).findSome? fun e =>
          if a.slots.contains e then (rs.find? fun x => x.2.slots.contains e).map fun x => s.held_ a.vf 5 e x.1 else none

/-- The quoin test of a gang with so many members on the package (R289). -/
def State.imposeQuoins (s : State) (a : Ask) (members : Nat) : Option Nat :=
  (a.quotas.filter fun q => q.2 != 0).findSome? fun q =>
    let hs := s.strands.filter fun e => e.2.mode != .ended && decide (0 < e.2.quota q.1)
    if 16 < (hs.map fun e => e.2.quota q.1).sum + q.2 * members then
      some (match hs with | [] => collision 6 0 q.1 0 0 | e :: _ => s.held_ a.vf 6 q.1 e.1)
    else none

/-- The ranks of a gang on this package. -/
def State.ranksHere (s : State) (rec : Nat) : List Nat := (List.range (lrSize rec)).filter fun r => (lrPlace rec r).1 == s.dev.pkg

/-- Ranks of a gang on this package tested, in their order: the core that refuses and its code (R289). -/
def State.impose (s : State) (v rec : Nat) (b : List Byte) (ranks : List Nat) : Option (Nat × Nat) :=
  let core (r : Nat) : Nat := (lrPlace rec r).2
  match ranks with
  | [] => none
  | r0 :: _ =>
    if askBad b then some (core r0, collision 7 0 0 0 0)
    else
      let own (r : Nat) : Option (Nat × Nat) := (s.imposeCore (askOf v rec b r) (core r)).map fun k => (core r, k)
      match own r0 with
      | some k => some k
      | none =>
        match s.imposeQuoins (askOf v rec b r0) ranks.length with
        | some k => some (core r0, k)
        | none => ranks.findSome? own

/-- The refusal of a core of another package, if one refuses: its package, its core and its code are free (R289). -/
def State.farRefusal (s : State) (rec : Nat) : Option (Nat × Nat × Nat) :=
  if (List.range (lrSize rec)).any fun r => (lrPlace rec r).1 != s.dev.pkg then Config.farRefusal s.fresh else none

/-- The whole gang's test (R289): of the cores that refuse, the one of the lowest package and there of the lowest index. -/
def State.gangRefusal (s : State) (v rec : Nat) (b : List Byte) (ranks : List Nat) : Option (Nat × Nat) :=
  match s.farRefusal rec with
  | none => s.impose v rec b ranks
  | some (p, c, k) => if p < s.dev.pkg then some (c, k) else some ((s.impose v rec b ranks).getD (c, k))

/-- The conflict of a launch's circuits with those of others (R376), or the lack of a pair for a gang of several packages (R379): the
code and the core of the launch's own end. -/
def State.routeRefusal (s : State) (v rec : Nat) (b : List Byte) : Option (Nat × Nat) :=
  match s.routeClash v rec (s.circuitsOf v rec b) [] with
  | some k => some k
  | none => if s.podFull rec then some (collision 5 0 360 0 0, lrCbase rec) else none

/-- A core on which a resident strand's ownership masks overlap the launch's (R41). -/
def State.masksClash (s : State) (rec : Nat) (ranks : List Nat) : Option Nat :=
  (ranks.map fun r => (lrPlace rec r).2).find? fun c =>
    (s.residents c).any fun e => e.2.ctx.owna.toNat &&& lrOwna rec != 0 || e.2.ctx.owns.toNat &&& lrOwns rec != 0

end Sys2Proof.Machine
end

