-- ==== Sys2Proof/Machine/Launch.lean ====
section
/-! DEFINITION. Launch nodes: the record and its prologue (R304, R306), the checks of step 2, staging (R310), standby sets
(R311), admission (R289, R290, R297), loading, and the start of the strands. -/

set_option linter.unusedVariables false

namespace Sys2Proof.Machine

/-! Reading a tenant's memory for a launch. -/

/-- The fault that reading or writing `n` bytes of path 0x0 would meet; `fuel` bounds the pages. -/
def State.tenantFault (s : State) (v e n : Nat) (write : Bool) : Nat → Option Trap
  | 0 => none
  | fuel + 1 =>
    if n = 0 then none
    else
      let k := Nat.min n (4096 - e % 4096)
      match s.tenantPa v e write with
      | .error x => some x
      | .ok _ => s.tenantFault v (e + k) (n - k) write fuel

/-- Bytes of path 0x0 copied into a core's scratchpad with their poison marks, of bytes that can be read. -/
def State.loadBytes (s : State) (v e core off n : Nat) : Nat → State
  | 0 => s
  | fuel + 1 =>
    if n = 0 then s
    else
      let k := Nat.min n (4096 - e % 4096)
      match s.tenantPa v e false with
      | .error _ => s
      | .ok (pa, _) =>
        let bad := (List.range k).filter fun i => (s.poisoned .dram (pa + i) 1).isSome
        let s1 := bad.foldl (fun (s : State) i => s.mark .chip (chipAddr core (off + i))) (s.chipWrite core off (s.bytes .dram pa k))
        s1.loadBytes v (e + k) core (off + k) (n - k) fuel

/-- Fuel for the pages of `n` bytes. -/
def pages (n : Nat) : Nat := n / 4096 + 2

/-! What a check finds: LRC, DETAIL and collision code, with the state after its reports. -/

/-- A refusal of a launch. -/
structure Verdict where
  s : State
  lrc : Nat
  detail : Nat
  code : Nat := 0

abbrev Checked := Except Verdict State

/-- A malformed launch record, by the byte offset of the field. -/
def State.badRecord (s : State) (off : Nat) : Checked := .error ⟨s, 3, off, 0⟩

/-- A malformed image. -/
def State.badImage (s : State) (off : Nat) : Checked := .error ⟨s, 3, 2 ^ 23 + off % 2 ^ 23, 0⟩

/-- The first of several findings, by offset. -/
def State.firstBad (s : State) (bad : Nat → State → Checked) (fs : List (Bool × Nat)) : Checked :=
  match firstFail fs with
  | some off => bad off s
  | none => .ok s

/-- Reserved fields of the record (R304). -/
def State.checkRecord (s : State) (x : Nat) : Checked :=
  s.firstBad (fun o s => s.badRecord o)
    [(bits x 360 360 != 0, 45), (bits x 331 329 != 0, 41), (bits x 324 324 != 0, 40), (bits x 151 0 != 0, 0)]

/-- Header and lists of the image, and whether its segments can be read: DETAIL 120 where not. -/
def State.readImage (s : State) (v src orig x : Nat) : Except Verdict (List Byte) :=
  let e := lrImg x
  let fault (t : Trap) : Except Verdict (List Byte) := .error ⟨s.reportFault v src orig t, 3, 120, 0⟩
  if e % 64 ≠ 0 ∨ !pathZero e 64 then .error ⟨s, 3, 120, 0⟩
  else
    match s.tenantRead v e 64 2 with
    | .error t => fault t
    | .ok h =>
      let n := ihBytes (leNat h)
      if !pathZero e n then .error ⟨s, 3, 120, 0⟩
      else
        match s.tenantRead v e n (pages n) with
        | .error t => fault t
        | .ok b =>
          let segs := (imSegs b).filter fun g => segLen g.2 != 0
          if segs.any fun g => !pathZero (e + segSrc g.2) (segLen g.2) then .error ⟨s, 3, 120, 0⟩
          else
            match segs.findSome? fun g => s.tenantFault v (e + segSrc g.2) (segLen g.2) false (pages (segLen g.2)) with
            | some t => fault t
            | none => .ok b

/-- Reserved fields, MAGIC and codes of the header (R305). -/
def State.checkHeader (s : State) (h : Nat) : Checked :=
  s.firstBad (fun o s => s.badImage o)
    [(bits h 475 472 != 0, 59), (bits h 301 0 != 0, 0), (bits h 511 480 != 0x3147584F, 60), (decide (4 < ihStride h), 59),
     (decide (256 < ihNslot h), 42), (decide (512 < ihNquo h), 41), (ihGlvl h == 7, 40)]

/-- Ring descriptors (R84). -/
def State.checkRings (s : State) (x : Nat) : Checked :=
  s.firstBad (fun o s => s.badRecord o) ((List.range 6).map fun e =>
    let d := lrQueue x e
    (ringBase d % 16 != 0 || decide (ringLen d < 2) || decide (spadBytes < ringBase d + 16 * ringLen d), 90 - 6 * e))

/-- Parameter placement (R306); a block that cannot be read is a fault of PARAM. -/
def State.checkParams (s : State) (v src orig x banks : Nat) : Checked :=
  let n := lrPlen x
  let d := lrPdst x
  if n % 8 ≠ 0 then s.badRecord 37
  else if d % 8 ≠ 0 ∨ (n ≠ 0 ∧ (spadBytes < d + n ∨ !inGroups banks d n 4096)) then s.badRecord 35
  else if lrParam x = 0 ∨ n = 0 then .ok s
  else if !pathZero (lrParam x) n then s.badRecord 104
  else
    match s.tenantFault v (lrParam x) n false (pages n) with
    | some t => (s.reportFault v src orig t).badRecord 104
    | none => .ok s

/-- Segments, and reserved fields of the other lists (R305, R320). -/
def State.checkLists (s : State) (b : List Byte) (size : Nat) : Checked :=
  let h := imHdr b
  s.firstBad (fun o s => s.badImage o)
    (((imSegs b).flatMap fun g =>
        [(bits g.2 87 64 != 0, g.1 + 8),
         (segLen g.2 != 0 && (decide (spadBytes < segDst g.2 + segLen g.2) || !inGroups (ihBanks h) (segDst g.2) (segLen g.2) 4096),
          g.1 + 13)])
      ++ ((imSlots b).flatMap fun e =>
        [(bits e.2 40 32 != 0, e.1 + 4), (decide (size < seRk e.2), e.1 + 5), (bits e.2 28 27 != 0, e.1 + 3), (bit e.2 12, e.1 + 1),
         (bit e.2 29, e.1 + 3), (bits e.2 11 0 != 0, e.1), (seRk e.2 != 0 && decide (size ≤ sePeer e.2), e.1 + 1)])
      ++ ((imQuos b).flatMap fun q => [(bits q.2 31 25 != 0, q.1 + 3), (bits q.2 15 5 != 0, q.1)])
      ++ ((imFoots b).flatMap fun f => [(bits f.2 63 32 != 0, f.1 + 4), (bits f.2 1 0 == 0, f.1)])
      ++ ((imLays b).flatMap fun l =>
        [(bits l.2 31 20 != 0, l.1 + 2), (bits l.2 47 44 != 0, l.1 + 5), (bits l.2 63 48 != 0, l.1 + 6),
         (bits l.2 99 96 != 0, l.1 + 12)]))

/-- Whether the cores of one package lie in one unit of a scope level (R306). -/
def inUnit (x level : Nat) : Bool :=
  let a := lrCbase x
  let b := lrCbase x + lrEach x - 1
  match level with
  | 1 => lrNpkg x == 0 && a == b
  | 2 => lrNpkg x == 0 && a / 4 == b / 4
  | 3 => lrNpkg x == 0 && a / 64 == b / 64
  | 4 => lrNpkg x == 0
  | _ => true

/-- Exact mode and the gang's shape (R306): 0x08 and 0x09. -/
def State.checkGang (s : State) (x h : Nat) : Checked :=
  let no (lrc : Nat) : Checked := .error ⟨s, lrc, 0, 0⟩
  if (lrExact x ∧ ihStride h ≠ 0) ∨ (lrNpkg x ≠ 0 ∧ !lrExact x) then no 8
  else if bit h 476 ∧ (!inUnit x 3 ∨ 8 < lrRows x ∨ 6 < lrCols x) then no 9
  else if 255 < lrCbase x + lrEach x - 1 then no 9
  else if s.dev.npkg ≤ lrPkg0 x + lrNpkg x then no 9
  else if ihGlvl h ≠ 0 ∧ (lrRows x ≠ bits h 317 314 + 1 ∨ lrCols x ≠ bits h 321 318 + 1 ∨ !inUnit x (ihGlvl h)) then no 9
  else .ok s

/-- The symmetry block (R275, R277): the block of a symmetric launch. -/
def State.checkSymmetry (s : State) (v src orig x banks : Nat) : Except Verdict (Option Nat × State) :=
  let a := lrSymb x
  if a = 0 then .ok (none, s)
  else if !pathZero a 64 then .error ⟨s, 3, 112, 0⟩
  else
    match s.tenantNum v a 64 with
    | .error t => .error ⟨s.reportFault v src orig t, 3, 112, 0⟩
    | .ok k => if (Machine.symOf k).ok banks then .ok (some k, s) else .error ⟨s, 10, 0, 0⟩

/-- The tenant's partitions and slots, and TRANSIT of the circuits (R306, R375, R376). Circuits of the launch's own that meet in one
slot on one link refuse it here, whatever NOWAIT is: no wait would part them (DESIGN CHOICE: R306 names no step for it). -/
def State.checkPlace (s : State) (v x : Nat) (b : List Byte) : Checked :=
  if (List.range (lrSize x)).any fun r => !s.tenantCore v (lrPlace x r).1 (lrPlace x r).2 then s.badRecord 44
  else
    match (imSlots b).find? fun e => !bit (s.vf v).slots (seSlot e.2) with
    | some e => s.badImage (e.1 + 7)
    | none =>
      let long (e : Nat × Nat) : Bool := (List.range (lrSize x)).any fun r =>
        seOn e.2 r &&
          (let me := lrPlace x r
           let o := sePlace x e.2
           decide (4095 < (if seRecv e.2 then s.route v o me else s.route v me o).2))
      match (imSlots b).find? long with
      | some e => s.badImage e.1
      | none =>
        match ({ s with dev := { s.dev with routes := [] } } : State).routeClash v x (s.circuitsOf v x b) [] with
        | some k => .error ⟨s, 5, k.2, k.1⟩
        | none => .ok s

/-- A layout entry bound in the tenant's layout table (R305). -/
def State.bindLayout (s : State) (v src orig : Nat) (e : Nat × Nat) : Checked :=
  let f := s.vf v
  let slot := bits e.2 19 0
  let gen := bits e.2 43 32
  let a := f.ltb + 64 * slot
  let clean (r : Nat) : Nat := putBits r 51 13 0
  if f.ltl ≤ slot ∨ !pathZero a 64 then s.badImage e.1
  else
    match s.tenantNum v a 64 with
    | .error t => (s.reportFault v src orig t).badImage e.1
    | .ok r =>
      if bit r 51 then
        if bits r 63 52 = gen ∧ clean r = clean (e.2 / 2 ^ 64) then .ok s else s.badImage e.1
      else
        match s.tenantWrite v a (leBytes 64 (putBits (putBits (e.2 / 2 ^ 64) 52 12 gen) 51 1 1)) 2 with
        | (s1, none) => .ok s1
        | (s1, some t) => (s1.reportFault v src orig t).badImage e.1

/-- The layout list bound, in its order. -/
def State.bindLayouts (s : State) (v src orig : Nat) : List (Nat × Nat) → Checked
  | [] => .ok s
  | e :: es =>
    match s.bindLayout v src orig e with
    | .error k => .error k
    | .ok s1 => s1.bindLayouts v src orig es

/-- Step 2 of R306: the image and the symmetry block, or the refusal. Of R12, by which alignment completes before any launch, and
R387, which refuses before it the launches with NPKG > 0 alone, the model follows R387; alignment then waits until no strand is
resident, so that none sees `cid` change (DESIGN CHOICE). -/
def State.checkLaunch (s : State) (v src orig x : Nat) : Except Verdict (List Byte × Option Nat × State) :=
  if lrNpkg x ≠ 0 ∧ !s.dev.pf.aligned then .error ⟨s, 3, 0, 0⟩
  else
    match s.checkRecord x with
    | .error k => .error k
    | .ok s1 =>
      match s1.readImage v src orig x with
      | .error k => .error k
      | .ok b =>
        let h := imHdr b
        match s1.checkHeader h with
        | .error k => .error k
        | .ok s2 =>
          match s2.checkRings x with
          | .error k => .error k
          | .ok s3 =>
            match s3.checkParams v src orig x (ihBanks h) with
            | .error k => .error k
            | .ok s4 =>
              match s4.checkLists b (lrSize x) with
              | .error k => .error k
              | .ok s5 =>
                match s5.checkGang x h with
                | .error k => .error k
                | .ok s6 =>
                  match s6.checkSymmetry v src orig x (ihBanks h) with
                  | .error k => .error k
                  | .ok (sym, s7) =>
                    match s7.checkPlace v x b with
                    | .error k => .error k
                    | .ok s8 =>
                      match s8.bindLayouts v src orig (imLays b) with
                      | .error k => .error k
                      | .ok s9 => .ok (b, sym, s9)

/-! Taking a launch node. -/

/-- Step 1 of R306: the record is read and its prologue, if it has one, begins. -/
def State.beginLaunch (s : State) (q k : Nat) : State :=
  let x := s.slotAt q k
  let v := s.cqVf q
  let a := recArg x.copy
  let no (s : State) : State := (s.dropStandby q k).completeNode q k 2 56 0
  if a % 64 ≠ 0 ∨ !pathZero a 128 then no s
  else
    match s.tenantNum v a 128 with
    | .error t => no (s.reportFault v 1 (cqOrig q) t)
    | .ok r =>
      let s1 := (s.setSt q k 3)
      let l : Launch := { q := q, slot := k, stage := .prologue, copy := r }
      let s2 := { s1 with dev := { s1.dev with launches := s1.dev.launches ++ [l] } }
      if lrProl r = 0 then s2.later (.repetitionStart q k)
      else if x.nprog ≤ lrProl r then s2.endLaunch q k 3 33 0
      else
        match mget (lrProl r) x.progs with
        | none => s2.endLaunch q k 3 33 0
        | some g =>
          match g.fail with
          | some st => s2.endLaunch q k (st / 2 ^ 56) (bits st 55 32) (bits st 31 0)
          | none =>
            let p : Prologue := { q := q, slot := k, words := g.words, copy := r, next := s2.now + 2 }
            { s2 with dev := { s2.dev with prologues := s2.dev.prologues ++ [p] } }

/-- `LAUNCH_NODE` (R304, R306). -/
def execLaunchNode (q k : Nat) (s : State) : Host.Outcome State Fault Refusal :=
  .next (s.takeNode q k 1 (.launchNode q k) [0, 1] fun s => s.beginLaunch q k)

/-- Whether a launch stages a working set. -/
def Launch.stages (l : Launch) : Bool := lrWset l.copy != 0 && lrWsn l.copy != 0

/-- Whether two nodes of a die are being staged, or have been, and do not run yet: then no other begins (R310). -/
def State.stagingFull (s : State) (die : Nat) : Bool :=
  decide (2 ≤ (s.dev.launches.filter fun l =>
    l.q / 64 == die && (l.stage == .staging || l.stage == .admission) && l.stages).length)

/-- `REPETITION_START` (R306): the checks of step 2, then staging. -/
def execRepetitionStart (q k : Nat) (s : State) : Host.Outcome State Fault Refusal :=
  .next (match s.launchOf q k with
    | none => s
    | some l =>
      if l.stage ≠ .prologue ∨ (s.dev.prologues.any fun p => p.q == q && p.slot == k) then s
      else if s.handlerHeld 1 || (l.stages && (s.handlerHeld 2 || s.stagingFull (q / 64))) then
        s.schedule (s.now + 1) (.repetitionStart q k)
      else
        match s.checkLaunch (s.cqVf q) 1 (cqOrig q) l.copy with
        | .error e => e.s.endLaunch q k e.lrc e.detail e.code
        | .ok (b, sym, s1) =>
          (s1.setLaunch { l with stage := .staging, img := b, staged := 0
                                 symm := sym.map fun (k : Nat) => { block := k } }).later (.stagingComplete q k))

/-! Staging (R310). -/

/-- Bytes of host memory copied to a stack with their poison marks; those whose completion has failed arrive poisoned (R325). -/
def State.stageBytes (s : State) (v src pa n : Nat) : State :=
  let bad := (List.range n).filter fun i => s.dev.failed.contains (v, (src + i) / 8)
  bad.foldl (fun s i => s.mark .dram (pa + i)) ((s.consumeFailed v src n).moveBytes .host src .dram pa n)

/-- Bytes of host memory copied to path 0x0, page by page, with their poison marks. -/
def State.stageCopy (s : State) (v src e n : Nat) : Nat → State × Option Trap
  | 0 => (s, none)
  | fuel + 1 =>
    if n = 0 then (s, none)
    else
      let k := Nat.min n (4096 - e % 4096)
      match s.tenantPa v e true with
      | .error x => (s, some x)
      | .ok (pa, s1) => (s1.stageBytes v src pa k).stageCopy v (src + k) (e + k) (n - k) fuel

/-- One working-set entry staged: the state, and whether it failed. -/
def State.stageEntry (s : State) (q v wset j : Nat) : State × Bool :=
  let a := wset + 32 * j
  let fault (s : State) (t : Trap) : State × Bool := (s.reportFault v 1 (cqOrig q) t, true)
  if !pathZero a 32 then (s, true)
  else
    match s.tenantNum v a 32 with
    | .error t => fault s t
    | .ok x =>
      let src := bits x 63 0
      let dst := bits x 127 64
      let n := bits x 191 128
      if x / 2 ^ 192 ≠ 0 ∨ pathOf src ≠ 5 ∨ bits src 59 57 ≠ 0 ∨ 2 ^ 57 < lowAddr src + n ∨ !pathZero dst n then (s, true)
      else
        match s.stageCopy v (lowAddr src) dst n (pages n) with
        | (s1, none) => (s1, false)
        | (s1, some t) => fault s1 t

/-- Whether bytes that working-set entries are staged to cannot be written yet (R217, R370, R372). -/
def State.stagingHeld (s : State) (v wset n : Nat) : Bool :=
  (List.range n).any fun j =>
    match s.tenantNum v (wset + 32 * j) 32 with
    | .ok x => pathZero (bits x 127 64) (bits x 191 128) && s.tenantHeld v (bits x 127 64) (bits x 191 128) true
    | .error _ => false

/-- The entries from `j` on; the number of the one that fails. -/
def State.stageAll (s : State) (q v wset : Nat) : Nat → Nat → State × Option Nat
  | 0, _ => (s, none)
  | n + 1, j =>
    let r := s.stageEntry q v wset j
    if r.2 then (r.1, some j) else r.1.stageAll q v wset n (j + 1)

/-! Loading (R306 steps 4 to 6). -/

/-- The lowest free context of a core. -/
def State.freeContext (s : State) (c : Nat) : Nat :=
  ((List.range 16).find? fun k => !(s.residents c).any fun e => e.1 % 16 == k).getD 0

/-- The chip cycle at which a gang starts (R290, R297): in exact mode the common instant that the reel gives. -/
def State.startCycle (s : State) (exact : Bool) : Nat :=
  ceilDiv (if exact then s.opening 0 (s.now + 32) else s.now + 32) 16 * 16

/-- `smode` (R58). -/
def modeOf (x h ctx : Nat) : Nat :=
  packFields [(4, ihPhi h 5), (4, ihPhi h 4), (4, ihPhi h 3), (4, ihPhi h 2), (4, ihPhi h 1), (4, ihPhi h 0), (4, 0), (4, ctx), (2, 0),
    (1, b2n (lrRot x)), (1, b2n (lrExact x)), (1, b2n (lrDbg x)), (3, ihStride h)]

/-- The registers of a strand at launch (R57). -/
def launchCtx (x h ctx : Nat) : Ctx :=
  let w (n : Nat) : Word := BitVec.ofNat 64 n
  { Ctx.zero with tvec := w (lrTvec x), ssp := w (lrSsp x), slim := w (lrSlim x), srseed := w (lrSeed x), smode := w (modeOf x h ctx)
                  owna := w (lrOwna x), owns := w (lrOwns x) }

/-- The strand of a rank as its launch makes it. An entry index at or beyond L counts modulo L, as R84 has branch targets count
(DESIGN CHOICE: R84 says neither that nor that it is refused). -/
def State.newStrand (s : State) (l : Launch) (v gang r core ctx c0 : Nat) : Strand :=
  let x := l.copy
  let b := l.img
  let h := imHdr b
  let a := askOf v x b r
  let q (e : Nat) : QCtl :=
    let d := lrQueue x e
    { base := ringBase d, len := ringLen d, idx := bits d 13 0 % ringLen d, halted := false, pick := s.fresh + e }
  { Strand.idle with
    ctx := launchCtx x h ctx, queues := Vector.ofFn fun e : Fin 6 => q e.val, mode := .loading, origin := c0, heldUntil := c0, stride := a.stride
    phi := Vector.ofFn fun e : Fin 6 => ihPhi h e.val, phiBg := Vector.ofFn fun g : Fin 12 => ihPhiBg h g.val, vf := v
    node := (l.q, l.slot), gang := gang, rank := r, cols := lrCols x, banks := a.banks, channels := a.chans, quotas := a.quotas
    slots := a.slots, accIss := let m := (s.coreAt core).acm; [(false, accM m 0), (false, accM m 1)]
    foots := (imFoots b).map fun f => { addr := bits f.2 127 64, bytes := bits f.2 31 2 * 4, kind := bits f.2 1 0 } }

/-- The pieces of large state that a strand holds (R343). -/
def holdsPiece (banks owna : Nat) (p : Nat × Nat) : Bool :=
  match p.1 with
  | 0 => bit banks (p.2 / 16)
  | 1 => bit owna (p.2 / 4)
  | 2 => bit owna (32 + p.2 / 16)
  | _ => bit owna (16 + p.2)

/-- A core lent to a new strand: semaphores, accumulator bits, masks and channels at their start (R52, R53, R56, R200), and
nothing of its holdings dirty. -/
def CoreState.lend (k : CoreState) (owna owns banks chans : Nat) : CoreState :=
  let acm (a m : Nat) : Nat := if bit owna (32 + a) then putBits (putBits m (4 * a) 1 0) (4 * a + 2) 1 0 else m
  { k with
    sems := k.sems.filter fun e => !bit owns e.1, acm := acm 1 (acm 0 k.acm), dvm := k.dvm.filter fun e => !bit owna (16 + e.1)
    chans := k.chans.filter fun e => !bit chans e.1, dirty := k.dirty.filter fun p => !holdsPiece banks owna p }

/-- A slot entry written on a core (R225, R320). -/
def State.writeEntry (s : State) (v x r core : Nat) (e : Nat) : State :=
  let me := lrPlace x r
  let o := sePlace x e
  let t := (if seRecv e then s.route v o me else s.route v me o).2
  let w := packFields [(1, 1), (1, b2n (seRecv e)), (1, b2n (me.1 != o.1)), (2, 0), (6, o.1 % 64), (8, o.2 % 256), (1, 0), (12, t)]
  (s.updCore core fun k => { k with slots := mset (seSlot e) w k.slots }).setCircuit core (seSlot e)
    fun c => { fly := c.fly.filter fun p => p.kind != 0 }

/-- A strand's bank groups, tiles, accumulators and distribution registers without what an earlier pass of a loop has left there
(R318): they read as zero (DESIGN CHOICE: the rule says that nothing passes, and no value). -/
def State.clearLarge (s : State) (core banks owna : Nat) : State :=
  let mine (a : Nat) : Bool :=
    a / 2 ^ 21 == core && decide (a % 2 ^ 21 < 0x130000) && holdsPiece banks owna (pieceOf (a % 2 ^ 21))
  let mode (a m : Nat) : Nat := if bit owna (32 + a) then putBits m (4 * a + 1) 1 0 else m
  { s with onchip := s.onchip.filter fun c => !mine c.1, poisonChip := s.poisonChip.filter fun u => !mine (8 * u) }.updCore core
    fun k => { k with acm := mode 1 (mode 0 k.acm) }

/-- The image's segments, from a standby set that was filled for this node from this image, or from memory (R311). -/
def State.loadSegments (s : State) (l : Launch) (v core : Nat) : State :=
  let e := lrImg l.copy
  let ready := match (s.coreAt core).standby with
    | some b => if b.q = l.q ∧ b.slot = l.slot ∧ b.record = recArg (s.slotAt l.q l.slot).copy ∧ b.img = e then b.segs else []
    | none => []
  ((imSegs l.img).zipIdx).foldl
    (fun (s : State) g =>
      match mget g.2 ready with
      | some bs => s.chipWrite core (segDst g.1.2) bs
      | none => s.loadBytes v (e + segSrc g.1.2) core (segDst g.1.2) (segLen g.1.2) (pages (segLen g.1.2)))
    s

/-- The parameter block, its word 0 the repetition's number. -/
def State.loadParams (s : State) (l : Launch) (v core : Nat) : State :=
  let x := l.copy
  if lrParam x = 0 ∨ lrPlen x = 0 then s
  else
    (s.loadBytes v (lrParam x) core (lrPdst x) (lrPlen x) (pages (lrPlen x))).chipWrite core (lrPdst x) (leBytes 8 l.rep)

/-- The header of a strand's point ring, zero at launch (R279). -/
def State.loadRing (s : State) (l : Launch) (core : Nat) : State :=
  match l.symm with
  | some y => s.chipWrite core (Machine.symOf y.block).rbase (leBytes 32 0)
  | none => s

/-- A rank of this package loaded: its strand, the core and what the launch puts there. -/
def State.loadRank (s : State) (l : Launch) (v gang c0 r : Nat) : State :=
  let core := (lrPlace l.copy r).2
  let ctx := s.freeContext core
  let x := core * 16 + ctx
  let s := if (s.slotAt l.q l.slot).again then s.clearLarge core (askOf v l.copy l.img r).banks (lrOwna l.copy) else s
  let t := s.newStrand l v gang r core ctx c0
  let s1 := { ((s.freshPage x).setStrand x t) with fresh := s.fresh + 6 }
  let s2 := s1.updCore core fun k => k.lend (lrOwna l.copy) (lrOwns l.copy) t.banks t.channels
  let s3 := ((imSlots l.img).filter fun e => seOn e.2 r).foldl (fun (s : State) e => s.writeEntry v l.copy r core e.2) s2
  (((s3.loadSegments l v core).loadParams l v core).loadRing l core).schedule c0 (.strandStart x)

/-- Routes that hold their strand's rank until it is known get its number; a circuit that comes in is its receiver's. -/
def Route.own (members : List Nat) (r : Route) : Route := { r with strand := members.getD r.strand 0 }

/-- Admission granted: contexts, loading, the start cycle, the budget and the walker (R306 steps 4 to 6). -/
def State.admitLaunch (s : State) (l : Launch) (v : Nat) : State :=
  let x := l.copy
  let gang := s.fresh
  let c0 := s.startCycle (lrExact x)
  let place (r : Nat) : Nat :=
    let p := lrPlace x r
    if p.1 = s.dev.pkg then p.2 * 16 + s.freeContext p.2 else ((p.1 + 1) * 256 + p.2) * 16
  let members := (List.range (lrSize x)).map place
  let mine := s.ranksHere x
  let routes := s.pairUp ((s.circuitsOf v x l.img).map (Route.own members)) []
  let g : Gang := { members := members, rows := lrRows x, cols := lrCols x, widest := lrWidest x }
  let s1 := (s.tick.setGang gang g)
  let s2 := { s1 with dev := { s1.dev with routes := s1.dev.routes ++ routes } }
  let s3 := mine.foldl (fun (s : State) r => s.loadRank l v gang c0 r) s2
  let s4 := (s3.dropStandby l.q l.slot).setLaunch
    { l with stage := .running, gang := gang, members := mine.map fun r => members.getD r 0, ended := [], since := c0
             pairs := s.podPairs x }
  let s5 := if lrBudget x = 0 then s4 else s4.schedule (c0 + s4.cyclesOf (lrBudget x)) (.budgetExpiry l.q l.slot)
  let s6 := if l.symm.isSome then s5.schedule (c0 + 1) (.walkerDeal gang) else s5
  s6

/-- Whether nothing may start on the launch's cores yet: a stack of their dies is untrained or in training (R367), full
service has been asked for (R387), or the tenant's partitions are being reset (R377). -/
def State.startWaits (s : State) (v x : Nat) : Bool :=
  s.dev.pf.closing || (s.vf v).prst != 0 ||
    (lrOn x s.dev.pkg && (lrCores x).any fun c =>
      (List.range 4).any fun k => (s.dev.stk (c / 64 * 4 + k)).state != 3 && (s.dev.stk (c / 64 * 4 + k)).state != 0)

/-- What can no longer be read when the launch is loaded. -/
def State.loadFault (s : State) (v src orig : Nat) (l : Launch) : Option Verdict :=
  let x := l.copy
  match (imSegs l.img).findSome? fun g =>
      s.tenantFault v (lrImg x + segSrc g.2) (segLen g.2) false (pages (segLen g.2)) with
  | some t => some ⟨s.reportFault v src orig t, 3, 120, 0⟩
  | none =>
    match (if lrParam x = 0 then none else s.tenantFault v (lrParam x) (lrPlen x) false (pages (lrPlen x))) with
    | some t => some ⟨s.reportFault v src orig t, 3, 104, 0⟩
    | none => none

/-- A refusal of step 4 (R306): it ends the launch with NOWAIT = 1, else the launch waits to ask again. -/
def State.refuseAdmission (s : State) (l : Launch) (core code : Nat) : State :=
  if lrNowait l.copy then s.endLaunch l.q l.slot 5 core code else s.setLaunch { l with stage := .admission }

/-- Step 4 of R306: the whole gang or nothing. A refused gang asks again when a strand ends on one of its cores; a gang that another
package has refused, in the next chip cycle, for nothing here tells of the ends there. -/
def State.askAdmission (s : State) (l : Launch) : State :=
  let v := s.cqVf l.q
  let x := l.copy
  match s.masksClash x (s.ranksHere x) with
  | some c => s.endLaunch l.q l.slot 7 c 0
  | none =>
    match s.gangRefusal v x l.img (s.ranksHere x) with
    | some k =>
      if (s.farRefusal x).isSome ∧ !lrNowait x then
        (s.tick.setLaunch { l with stage := .admission }).schedule (s.now + 1) (.stagingComplete l.q l.slot)
      else s.refuseAdmission l k.1 k.2
    | none =>
      match s.routeRefusal v x l.img with
      | some k => s.refuseAdmission l k.2 k.1
      | none =>
        if s.startWaits v x then (s.setLaunch { l with stage := .admission }).schedule (s.now + 1) (.stagingComplete l.q l.slot)
        else
          match s.loadFault v 1 (cqOrig l.q) l with
          | some e => e.s.endLaunch l.q l.slot e.lrc e.detail e.code
          | none => s.admitLaunch l v

/-- `STAGING_COMPLETE` (R310): every staged byte has performed, and admission is asked for; later ones ask again. -/
def execStagingComplete (q k : Nat) (s : State) : Host.Outcome State Fault Refusal :=
  .next (match s.launchOf q k with
    | none => s
    | some l =>
      match l.stage with
      | .staging =>
        let n := if lrWset l.copy = 0 then 0 else lrWsn l.copy
        if s.stagingHeld (s.cqVf q) (lrWset l.copy) n then s.schedule (s.now + 1) (.stagingComplete q k)
        else
          match s.stageAll q (s.cqVf q) (lrWset l.copy) n 0 with
          | (s1, some j) => s1.endLaunch q k 6 j 0
          | (s1, none) => s1.askAdmission l
      | .admission => s.askAdmission l
      | _ => s)

/-- `STRAND_START` (R290, R332): the first region opens with strand cycle 0. -/
def execStrandStart (x : Nat) (s : State) : Host.Outcome State Fault Refusal :=
  let t := s.strandAt x
  .next (if t.mode = .loading ∧ t.heldUntil ≤ s.now then
      ({ (s.setStrand x { t with mode := .run, heldUntil := 0 }) with cur := x }).boundary
    else s)

/-! Standby sets (R311). -/

/-- The bank group that holds all bytes of a segment. -/
def segGroup (x : Nat) : Option Nat :=
  let g := groupOf (segDst x)
  if segLen x ≠ 0 ∧ segDst x + segLen x ≤ spadBytes ∧ inGroups (2 ^ g) (segDst x) (segLen x) 4096 then some g else none

/-- The record of a launch node that is ready, staging or waiting for admission. -/
def State.coming (s : State) (q k : Nat) : Option Nat :=
  match s.launchOf q k with
  | some l => if l.stage = .staging ∨ l.stage = .admission then some l.copy else none
  | none =>
    if (s.dev.ready.any fun e => e.2.1 == q && e.2.2 == k) && recKind (s.slotAt q k).copy == 1 then
      let a := recArg (s.slotAt q k).copy
      match s.tenantNum (s.cqVf q) a 128 with
      | .ok r => if a % 64 = 0 ∧ pathZero a 128 then some r else none
      | .error _ => none
    else none

/-- Whether a launch names a core of this package. -/
def State.names (s : State) (x c : Nat) : Bool := lrOn x s.dev.pkg && (lrCores x).contains c

/-- `STANDBY_FILL` (R311): an empty set is filled for a node that names the core, with the segments of the first bank
group that holds whole ones. -/
def execStandbyFill (core q k : Nat) (s : State) : Host.Outcome State Fault Refusal :=
  .next (match (s.coreAt core).standby, s.coming q k with
    | none, some x =>
      if !s.names x core then s
      else if s.handlerHeld 2 then s.schedule (s.now + 1) (.standbyFill core q k)
      else
        let v := s.cqVf q
        match s.readImage v 1 (cqOrig q) x with
        | .error _ => s
        | .ok b =>
          let segs := ((imSegs b).zipIdx).filterMap fun g => (segGroup g.1.2).map fun k => (k, g.2, g.1.2)
          match segs.map (fun g => g.1) with
          | [] => s
          | g0 :: gs =>
            let g := gs.foldl Nat.min g0
            let data := (segs.filter fun e => e.1 == g).map fun e =>
              (e.2.1, match s.tenantRead v (lrImg x + segSrc e.2.2) (segLen e.2.2) (pages (segLen e.2.2)) with
                | .ok bs => bs
                | .error _ => [])
            s.updCore core fun c =>
              { c with standby := some { q := q, slot := k, record := recArg (s.slotAt q k).copy, group := g, img := lrImg x, segs := data } }
    | _, _ => s)

/-! The activity forecast (R313). -/

/-- Whether a running launch will still run 10 µs from now, as far as its budget tells. -/
def State.lasts (s : State) (l : Launch) : Bool :=
  lrBudget l.copy == 0 || decide (s.now + s.cyclesOf 10 < l.since + s.cyclesOf (lrBudget l.copy))

/-- What a core counts. -/
def State.activity (s : State) (c : Nat) : Nat :=
  match s.dev.launches.find? fun l => l.stage == .running && (l.members.any fun x => coreOf x == c && !l.ended.contains x) && s.lasts l with
  | some l => lrAct l.copy
  | none =>
    let staged := s.dev.launches.filterMap fun l => if l.stage = .staging ∨ l.stage = .admission then some l.copy else none
    let ready := s.dev.ready.filterMap fun e => s.coming e.2.1 e.2.2
    match (staged ++ ready).find? fun x => s.names x c with
    | some x => lrAct x
    | none => 0

/-- `AFC_UPDATE` (R313). -/
def execAfcUpdate (s : State) : Host.Outcome State Fault Refusal :=
  let sum (d : Nat) : Nat := ((List.range 64).map fun i => s.activity (64 * d + i)).sum
  .next ({ s with dev := { s.dev with afc := (List.range 4).map fun d => (d, sum d) } }.schedule (s.now + s.cyclesOf 1) .afcUpdate)

end Sys2Proof.Machine
end

