-- ==== Sys2Proof/Machine/Strands.lean ====
section
/-! DEFINITION. The end of a strand and of a launch (R99, R291, R302, R354), run budgets (R306), re-phases (R294, R295, R312)
and the walker of a symmetric launch (R278, R279). -/

set_option linter.unusedVariables false

namespace Sys2Proof.Machine

/-! Ends. -/

/-- The request word that resumes a launch (R337). -/
def Launch.resumeRequest (l : Launch) (v : Nat) : Nat := packFields [(6, v), (2, l.q / 64), (6, l.q % 64), (1, 1), (11, 0), (16, l.slot)]

/-- Launches of a kind that wait for admission, or to be resumed, ask again. -/
def State.askAgain (s : State) (which : Launch → Bool) : State :=
  s.dev.launches.foldl
    (fun (s : State) l =>
      if !which l then s
      else if l.stage = .admission then s.schedule s.now (.stagingComplete l.q l.slot)
      else if l.stage = .resuming then s.schedule s.now (.pmreqResume (l.resumeRequest (s.cqVf l.q)))
      else s)
    s

/-- As a strand ends on a core, launches that wait for it ask again (R306, R339); if it held circuits, so do all that have some, for
one on other cores may have refused them (DESIGN CHOICE: R306 names the gang's own cores alone). -/
def State.retryAdmission (s : State) (c : Nat) (circuits : Bool) : State :=
  s.askAgain fun l => s.names l.copy c || (circuits && ihNslot (imHdr l.img) != 0)

/-- A strand's holdings released (R291): its context, slot entries, circuits and routes, its scan units, its rows with
their quotas, and a pending re-phase, whose node hears of it (R295). What its slot entries say but for VALID stays until another
strand takes them: the `nput`s and `nget`s of its peers that are under way go on (DESIGN CHOICE: no rule says what becomes of
them). -/
def State.releaseStrand (s : State) (x : Nat) : State :=
  let s := { { s with cur := x }.flushDeferred with cur := s.cur }
  let t := s.strandAt x
  let s := s.dropPins x
  let c := coreOf x
  let mine (e : Nat × Circuit) : Nat × Circuit :=
    if t.slots.contains e.1 then
      (e.1, { e.2 with
        fly := e.2.fly.filter fun p => p.kind != 0, wait := e.2.wait.filter fun p => p.kind != 0, buffer := [], bufBad := [] })
    else e
  let free (e : Nat × Nat) : Nat × Nat := if t.slots.contains e.1 then (e.1, e.2 % 2 ^ 31) else e
  let s1 := { s with strands := mdel x s.strands }.updCore c fun k =>
    { k with circuits := k.circuits.map mine, slots := k.slots.map free }
  let unit (u : Nat × ScanUnit) : Nat × ScanUnit :=
    match u.2.owner with | some o => if o.1 = x then (u.1, { u.2 with owner := none }) else u | none => u
  let routes : List Route := s1.dev.routes.filter fun r => r.strand != x
  let held : Bool := decide (routes.length < s1.dev.routes.length)
  let s2 := { s1 with dev := { s1.dev with routes := routes, units := s1.dev.units.map unit } }
  let s3 := match t.rephase with
    | some (_, some n) => s2.completeNode n.1 n.2 0x0D 0 0
    | _ => s2
  (if (s3.gangStrands t.gang).isEmpty then { s3 with dev := { s3.dev with gangs := mdel t.gang s3.dev.gangs } } else s3).retryAdmission c held

/-- Whether all of a launch's strands on this package have ended. -/
def Launch.allEnded (l : Launch) : Bool := l.members.all fun x => l.ended.contains x

/-- A strand that has ended leaves its launch; the last one of a launch that lies wholly on this package completes the
repetition. -/
def State.leaveLaunch (s : State) (node : Nat × Nat) (x : Nat) : State :=
  match s.launchOf node.1 node.2 with
  | none => s
  | some l =>
    let l1 := { l with ended := l.ended ++ [x] }
    let s1 := s.setLaunch l1
    if l1.allEnded ∧ lrNpkg l.copy = 0 ∧ lrPkg0 l.copy = s.dev.pkg then s1.schedule s1.now (.launchComplete l.q l.slot) else s1

/-- A scalar access of a strand that has been issued and still has to perform. -/
def Async.flying (a : Async) : Bool := a.eng == .s && !a.performed && !a.buffered && a.held.isNone && a.fence.isNone

/-- A strand that the compositor ends: it issues nothing more, and of its work only scalar accesses already issued go on. A hold that it
announced is released by `execTresumeEnd`, which ends one strand of a gang that goes on (DESIGN CHOICE, log entry 166). -/
def State.stopStrand (s : State) (x : Nat) : State :=
  let s := { { s with cur := x }.flushDeferred with cur := s.cur }
  let t := s.strandAt x
  let s := s.dropMisses x
  s.setStrand x { t with mode := .stopped, ckpt := none, pend := [], hpend := [], streams := [], mpend := [], timed := [], deferred := []
                         closing := [], overBack := [], suspendedBy := none, asyncs := t.asyncs.filter Async.flying }

/-- `STRAND_END` (R99, R302): of a strand that the compositor ends, once its issued accesses have performed. -/
def execStrandEnd (x : Nat) (s : State) : Host.Outcome State Fault Refusal :=
  let t := s.strandAt x
  .next (if t.mode = .ended then s
    else if t.mode = .stopped then
      if t.asyncs.any Async.flying then s.schedule (s.now + 1) (.strandEnd x) else (s.releaseStrand x).leaveLaunch t.node x
    else if t.finished then (s.releaseStrand x).leaveLaunch t.node x
    else s)

/-- A node's launch ends with a STATUS; the pairs of one of several packages fall free for others that wait (R379). -/
def State.finishLaunch (s : State) (l : Launch) (st : Nat) : State :=
  let s1 := (s.dropLaunch l.q l.slot).completeNode l.q l.slot (st / 2 ^ 56) (bits st 55 32) (bits st 31 0)
  if lrNpkg l.copy = 0 then s1 else s1.askAgain fun m => lrNpkg m.copy != 0

/-- `LAUNCH_COMPLETE` (R302, R306): the repetition has ended on every package; the next one begins, or the node completes. -/
def execLaunchComplete (q k : Nat) (s : State) : Host.Outcome State Fault Refusal :=
  .next (match s.launchOf q k with
    | none => s
    | some l =>
      if l.stage ≠ .running ∨ !l.allEnded then s
      else
        match l.fate with
        | some st => s.finishLaunch l st
        | none =>
          if l.rep + 1 < l.reps then
            (s.setLaunch { l with stage := .prologue, rep := l.rep + 1, members := [], ended := [], symm := none, img := [] }).later
              (.repetitionStart q k)
          else s.finishLaunch l (statusOf 0 l.reps 0))

/-- The fate of a launch, unless it has one. -/
def State.setFate (s : State) (node : Nat × Nat) (st : Nat) : State :=
  match s.launchOf node.1 node.2 with
  | some l => s.setLaunch { l with fate := some (l.fate.getD st) }
  | none => s

/-- `TRESUME_END` (R354): the strand ends and its launch completes with LRC 0x0E. A hold that it announced ends with it: it announces its
release here (DESIGN CHOICE, log entry 166: R30 speaks of a release when the cause clears alone). -/
def execTresumeEnd (v val : Nat) (byPf : Bool) (s : State) : Host.Outcome State Fault Refusal :=
  let x := resumeTarget val
  .next (if !s.resumable v val then s.ignoredResume v
    else
      let s1 := { { s with cur := x }.releaseHold s.now with cur := s.cur }
      ((s1.setFate (s1.strandAt x).node (statusOf 0x0E (coreOf x) 0)).stopStrand x).schedule s.now (.strandEnd x))

/-- `BUDGET_EXPIRY` (R306, R338): the launch is stopped without an image; DETAIL is the microseconds that it has run. -/
def execBudgetExpiry (q k : Nat) (s : State) : Host.Outcome State Fault Refusal :=
  .next (match s.launchOf q k with
    | none => s
    | some l =>
      let b := lrBudget l.copy
      if l.stage ≠ .running ∨ b = 0 ∨ s.now < l.since + s.cyclesOf b then s
      else if s.handlerHeld 3 then s.schedule (s.now + 1) (.budgetExpiry q k)
      else
        (s.setLaunch { l with stage := .stopping, saveBy := none, quoins := []
                              fate := some (l.fate.getD (statusOf 0x0B ((s.now - l.since) / s.cyclesOf 1) 0)) }).schedule
          s.now (.preemptSave q k))

/-! Re-phases. -/

/-- The refusals of KIND 0x8 (R294); a strand of another tenant counts as not resident. -/
def State.rephaseBad (s : State) (v x d : Nat) : Bool :=
  let t := s.strandAt x
  t.mode == .ended || t.vf != v || t.exact || t.rephase.isSome || d == 0 || decide (t.stride ≤ d)

/-- The phase test of a re-phase against every other resident strand (R294). -/
def State.rephaseTest (s : State) (v x d : Nat) : Option Nat :=
  let t := s.strandAt x
  let at_ (f : Nat) : Nat := (t.origin + d + f) % Nat.max 1 t.stride
  s.phaseTest v t.stride ((List.range 6).map fun e => at_ (vget t.phi e 0)) ((List.range 12).map fun g => at_ (vget t.phiBg g 0))
    t.banks ((s.residents (coreOf x)).filter fun e => e.1 != x)

/-- `REPHASE_NODE` (R294, R312): an accepted re-phase completes the node when it is applied. -/
def execRephaseNode (q k : Nat) (s : State) : Host.Outcome State Fault Refusal :=
  .next (s.takeNode q k 6 (.rephaseNode q k) [0] fun s =>
    let r := (s.slotAt q k).copy
    let core := recArg r % 2 ^ 8
    let x := core * 16 + bits (recArg r) 11 8
    let d := recArg2 r
    let v := s.cqVf q
    if s.rephaseBad v x d then s.completeNode q k 5 core (collision 8 0 0 0 0)
    else
      match s.rephaseTest v x d with
      | some c => s.completeNode q k 5 core c
      | none => (s.setSt q k 3).setStrand x { s.strandAt x with rephase := some (d, some (q, k)) })

/-- `REPHASE_POINT_APPLY` (R295): the origin moves on by Δ, and the strand is held until the strand cycle opens there. -/
def execRephasePointApply (x : Nat) (s : State) : Host.Outcome State Fault Refusal :=
  let t := s.strandAt x
  .next (match t.rephase with
    | none => s
    | some (d, n) =>
      let t1 : Strand := { t with origin := t.origin + d, rephase := none }
      let s1 := s.setStrand x { t1 with heldUntil := (t1.key).getD 0 }
      match n with
      | some k => s1.completeNode k.1 k.2 0 0 0
      | none => s1)

/-! The walker (R278, R279). -/

/-- Whether no occupied slot's footprint covers 8 bytes of the strand's scratchpad (R141, R279). -/
def Strand.unitFree (t : Strand) (c at_ : Nat) : Bool := (t.edgeSlot [winRange c at_ (at_ + 8) true]).isNone

/-- The scratchpad offset of entry `m` of a point ring. -/
def Sym.entryAt (b : Sym) (m : Nat) : Nat := b.rbase + 32 + 8 * (m % 2 ^ b.ring)

/-- Whether an entry can be written to a strand's ring: TAKEN leaves room for entry `m`, and no footprint covers its bytes. -/
def State.dealReady (s : State) (b : Sym) (x m : Nat) : Bool :=
  decide (m + 1 ≤ s.num .chip (chipAddr (coreOf x) (b.rbase + 8)) 8 + 2 ^ b.ring) && (s.strandAt x).unitFree (coreOf x) (b.entryAt m)

/-- Entry `m` of a strand's ring written. -/
def State.deal (s : State) (b : Sym) (x m v : Nat) : State := s.chipWrite (coreOf x) (b.entryAt m) (leBytes 8 v)

/-- The entries that a strand's ring has been dealt, as its header says: from there the walker goes on, also after a resume (R283). -/
def State.dealtOf (s : State) (b : Sym) (x : Nat) : Nat := s.num .chip (chipAddr (coreOf x) b.rbase) 8

/-- Whether a member of a gang is a strand of this package that still runs. -/
def State.living (s : State) (l : Launch) (x : Nat) : Bool :=
  decide (x < 4096) && (s.strandAt x).mode != .ended && (s.strandAt x).gang == l.gang

/-- The end marker for the first rank that can take it; a rank of another package, or one that has ended, needs none. -/
def State.dealEnd (s : State) (b : Sym) (l : Launch) (g : Gang) (y : Symm) : Option (State × Symm) :=
  let n := g.members.length
  ((List.range n).find? fun r =>
      let x := g.members.getD r 0
      !y.ended.contains r && (!s.living l x || s.dealReady b x (s.dealtOf b x))).map fun r =>
    let x := g.members.getD r 0
    if s.living l x then
      (s.deal b x (s.dealtOf b x) 0xFFFFFFFFFFFFFFFF, { y with ended := y.ended ++ [r], owed := some (r, s.dealtOf b x + 1) })
    else (s, { y with ended := y.ended ++ [r] })

/-- `WALKER_DEAL` (R278, R279): one point tested in a chip cycle, and dealt to its rank if it is in the domain; after the last one the
end markers. Each entry is followed by DEALT, once no footprint covers that. -/
def execWalkerDeal (gang : Nat) (s : State) : Host.Outcome State Fault Refusal :=
  .next (match s.dev.launches.find? fun l => l.gang == gang && l.stage == .running && !l.members.isEmpty with
    | none => s
    | some l =>
      match l.symm with
      | none => s
      | some y =>
        let b := Machine.symOf y.block
        let g := s.gang gang
        let n := Nat.max 1 g.members.length
        let again (s : State) (y : Symm) : State :=
          let d := (s.setLaunch { l with symm := some y }).latency
          d.2.schedule (d.2.now + 1 + d.1) (.walkerDeal gang)
        let wait : State := s.schedule (s.now + 1) (.walkerDeal gang)
        match y.owed with
        | some (r, m) =>
          let x := g.members.getD r 0
          let done (s : State) : State := again s { y with owed := none }
          if !s.living l x then done s
          else if (s.strandAt x).unitFree (coreOf x) b.rbase then done (s.chipWrite (coreOf x) b.rbase (leBytes 8 m))
          else wait
        | none =>
        if y.point < b.points then
          let p := b.point y.point
          let next (j : Nat) : Symm := { y with point := y.point + 1, dealt := j }
          if !b.inDomain p then again s (next y.dealt)
          else
            let x := g.members.getD (y.dealt % n) 0
            if !s.living l x then again s (next (y.dealt + 1))
            else if s.dealReady b x (s.dealtOf b x) then
              again (s.deal b x (s.dealtOf b x) (b.entry p)) { next (y.dealt + 1) with owed := some (y.dealt % n, s.dealtOf b x + 1) }
            else wait
        else if n ≤ y.ended.length then s
        else match s.dealEnd b l g y with | some r => again r.1 r.2 | none => wait)

end Sys2Proof.Machine
end

