-- ==== Sys2Proof/Machine/Preempt.lean ====
section
/-! DEFINITION. Pre-emption: requests (R337), the stop, discard and drain of strands (R338), context images and their coding
(R341 to R346), and the resume (R339, R340, R344). -/

set_option linter.unusedVariables false

namespace Sys2Proof.Machine

/-! The stop (R338). -/

/-- Whether a strand stops now: at a strand-cycle boundary, or while it waits with no region edge behind it in the strand
cycle; a handler is abandoned, and a suspended strand stands still already. -/
def Strand.atStop (t : Strand) : Bool :=
  match t.mode with
  | .run => t.micro == 0 || (t.stall.isSome && !t.edge)
  | .frozen => t.micro == 0 || t.stall.isSome
  | .suspended => true
  | _ => false

/-- The strand back at its checkpoint, with the work from before the boundary still under way; what waited at the boundary for its
landings waits in the checkpoint until the strand starts again. -/
def Strand.toCheckpoint (t : Strand) (k : Checkpoint) : Strand :=
  { t with
    ctx := k.ctx, queues := k.queues, pend := k.pend, streams := k.streams, mpend := k.mpend, timed := k.timed, vEnd := k.vEnd
    fEnd := k.fEnd, mEnd := k.mEnd, accIss := k.accIss, mode := .stopped, micro := 0, offset := 0, stall := none, hpend := []
    closing := [], overBack := []
    deferred := [], raises := [], regionAt := k.ctx.sclk, edge := false, opened := false
    closed := k.queues.toList.all (fun c => c.halted), rephase := none, heldUntil := 0, holds := [], announced := false
    suspendedBy := none, hostFault := false, pins := [], popped := []
    scans := t.scans.map fun e => if e.2.run then (e.1, { e.2 with stop := true, halt := true }) else e
    asyncs := t.asyncs.filter fun a => decide (a.region < t.region) && !a.buffered }

/-- The strand's part of its core back at the checkpoint: semaphores, NEXT and accumulator bits (R332). -/
def CoreState.toCheckpoint (c : CoreState) (t : Strand) (k : Checkpoint) : CoreState :=
  let acm (a m : Nat) : Nat := if t.ctx.owna.getLsbD (32 + a) then putBits m (4 * a) 3 (k.acm / 2 ^ (4 * a) % 8) else m
  { c with
    sems := k.sems.foldl (fun m e => mset e.1 e.2 m) (c.sems.filter fun e => !t.ownsSem e.1)
    chans := k.next.foldl (fun m e => mset e.1 { (mget e.1 m).getD {} with next := e.2 } m) c.chans
    acm := acm 1 (acm 0 c.acm) }

/-- Running scans of the open region, whose commands are discarded, stopped: STOP set and their units free (R338, R371). -/
def State.stopDropped (s : State) (x : Nat) : State :=
  let t := s.strandAt x
  t.asyncs.foldl
    (fun (s : State) a =>
      match a.instr with
      | .scngo _ _ =>
        let ch := (quoinOf (a.vals.getD 0 0)).ch
        if a.region < t.region ∨ a.performed ∨ !(t.scan ch).run then s
        else
          let s1 := s.setUnit ch { s.unit ch with owner := none }
          s1.setStrand x ((s1.strandAt x).setScan ch fun v =>
            { v with run := false, stop := true, halt := false, ovf := decide (a.vals.getD 3 0 < v.count) })
      | _ => s)
    s

/-- One strand stopped, its packets taken in the region given back, its rows noted and let go (R338, R344). Window writes that wait
at it take effect first: those to its registers are lost with the region, those to its large state stay. -/
def State.stopAt (s : State) (q k x : Nat) : State :=
  let s := { { s with cur := x }.flushDeferred with cur := s.cur }
  let t := s.strandAt x
  match t.ckpt with
  | none => s
  | some c =>
    let s0 := ((s.stopDropped x).dropPins x).dropMisses x
    let s1 := (s0.setStrand x ((s0.strandAt x).toCheckpoint c)).updCore (coreOf x) fun d => d.toCheckpoint t c
    let s2 := t.popped.foldr
      (fun p (s : State) => s.setCircuit (coreOf x) p.1 fun d =>
        { d with buffer := p.2.1 :: d.buffer, bufBad := p.2.2 :: d.bufBad }) s1
    let s3 := match s2.launchOf q k with
      | some l => s2.setLaunch { l with quoins := l.quoins ++ t.pins.map fun p => (x, p.quoin) }
      | none => s2
    match t.rephase with
    | some (_, some n) => s3.completeNode n.1 n.2 0x0D 0 0
    | _ => s3

/-! The drain. -/

/-- Whether a command is saved and not drained: a send that lacks a credit, a collective that some member has not joined, a
row read that its strand cycle makes, a command held by a fault, or a wait of its own (R338). -/
def State.isSaved (s : State) (x : Nat) (a : Async) : Bool :=
  let t := s.strandAt x
  match a.instr with
  | .nsnd _ b | .xsnd _ b =>
    let c := s.circuit (coreOf x) (NBody_cir b)
    (c.wait.drop c.credits).any fun p => p.strand == x && p.cmd == a.id
  | .ared _ _ | .rscat _ _ | .agth _ _ | .bcst _ _ | .xred _ _ =>
    a.phase == 0 || (let g := s.gang t.gang
      g.colls.any fun c => (c.parts.any fun p => p.strand == x && p.cmd == a.id) &&
        decide (c.parts.length < (g.instance_ c.level c.unit).length))
  | .rowrd _ _ => !a.performed
  | _ => a.fence.isSome || a.held.isSome || a.paused || (!a.performed && a.after != 0 && decide (t.ctx.sclk ≤ a.after))

/-- The entries that are left once everything else has completed: those saved, and those that wait behind them. -/
def State.leftOver (s : State) (x : Nat) : List Async → List Async → List Async
  | [], _ => []
  | a :: r, kept =>
    let behind (y : Touch) : Bool := kept.any fun b => b.holdsBack a s.dev.pkg y
    if s.isSaved x a || (!a.performed && (a.nexts s.dev.pkg).all behind) then a :: s.leftOver x r (kept ++ [a])
    else s.leftOver x r kept

/-- Whether a stopped strand's drain has ended, its circuits at rest. -/
def State.atRest (s : State) (x : Nat) : Bool :=
  let t := s.strandAt x
  let c := coreOf x
  t.asyncs.length == (s.leftOver x t.asyncs []).length &&
    t.slots.all fun k =>
      (s.circuit c k).fly.isEmpty && !s.agenda.any fun e => e.2 == Ev.creditReturn c k

/-! The coding of records (R345). -/

/-- The length of a run of one word, at most 64. -/
def runOf (w : Nat) : List Nat → Nat → Nat
  | x :: xs, n + 1 => if x = w then runOf w xs n + 1 else 0
  | _, _ => 0

/-- The words of a literal run: it ends before a word that is zero or equals its predecessor, and at 128. -/
def literalOf (prev : Nat) : List Nat → Nat → List Nat
  | x :: xs, n + 1 => if x = 0 ∨ x = prev then [] else x :: literalOf x xs n
  | _, _ => []

/-- The coded bytes of a list of words; `fuel` bounds the tokens. -/
def codeWords (prev : Nat) : List Nat → Nat → List Byte
  | [], _ => []
  | _, 0 => []
  | w :: ws, fuel + 1 =>
    if w = 0 then
      let n := runOf 0 (w :: ws) 64
      BitVec.ofNat 8 (0x80 + n - 1) :: codeWords 0 (ws.drop (n - 1)) fuel
    else if w = prev then
      let n := runOf w (w :: ws) 64
      BitVec.ofNat 8 (0xC0 + n - 1) :: codeWords w (ws.drop (n - 1)) fuel
    else
      let l := w :: literalOf w ws 127
      (BitVec.ofNat 8 (l.length - 1) :: l.flatMap (leBytes 8)) ++ codeWords (l.getLastD 0) (ws.drop (l.length - 1)) fuel

/-- Bytes as 64-bit words. -/
def words64 (bs : List Byte) : List Nat := (List.range ((bs.length + 7) / 8)).map fun i => leNat ((bs.drop (8 * i)).take 8)

/-- The words of a coded list; `fuel` bounds the tokens. -/
def decodeWords (prev : Nat) : List Byte → Nat → List Nat
  | [], _ => []
  | _, 0 => []
  | t :: bs, fuel + 1 =>
    let n := t.toNat % 64 + 1
    if t.toNat < 0x80 then
      let n := t.toNat + 1
      let ws := words64 (bs.take (8 * n))
      ws ++ decodeWords (ws.getLastD prev) (bs.drop (8 * n)) fuel
    else if t.toNat < 0xC0 then List.replicate n 0 ++ decodeWords 0 bs fuel
    else List.replicate n prev ++ decodeWords prev bs fuel

/-- A record: its head and its coded words, padded (R342). -/
def imageRecord (kind index : Nat) (ws : List Nat) : List Byte :=
  let b := codeWords 0 ws (ws.length + 1)
  leBytes 8 (packFields [(4, kind), (8, 0), (20, index), (8, 0), (24, b.length)]) ++ b ++
    List.replicate ((8 - b.length % 8) % 8) 0

/-- The records of an image behind its header: kind, index and words; `fuel` bounds them. -/
def imageRecords : List Byte → Nat → List (Nat × Nat × List Nat)
  | _, 0 => []
  | bs, fuel + 1 =>
    let h := leNat (bs.take 8)
    let n := bits h 23 0
    (bits h 63 60, bits h 51 32, decodeWords 0 ((bs.drop 8).take n) n) :: imageRecords (bs.drop (8 + (n + 7) / 8 * 8)) fuel

/-! Pieces (R343). -/

/-- The window ranges of a piece: offset and length. -/
def pieceRanges (p : Nat × Nat) : List (Nat × Nat) :=
  match p.1 with
  | 0 => (List.range 16).map fun i => ((16 * (p.2 % 16) + i) * 3072 + p.2 / 16 * 256, 256)
  | 1 => [(0xC0000 + p.2 * 4096, 4096)]
  | 2 => [(0x100000 + p.2 * 4096, 4096)]
  | _ => [(0x120000 + p.2 * 4096, 4096)]

def State.pieceBytes (s : State) (core : Nat) (p : Nat × Nat) : List Byte :=
  (pieceRanges p).flatMap fun r => s.bytes .chip (chipAddr core r.1) r.2

/-- The poisoned units of a piece, by window offset. -/
def State.pieceBad (s : State) (core : Nat) (p : Nat × Nat) : List Nat :=
  (pieceRanges p).flatMap fun r =>
    ((List.range (r.2 / 8)).map fun i => r.1 + 8 * i).filter fun o => (s.poisoned .chip (chipAddr core o) 8).isSome

/-- All pieces of a strand's holdings. -/
def piecesHeld (banks owna : Nat) : List (Nat × Nat) :=
  (((List.range 192).map fun i => (0, i)) ++ ((List.range 64).map fun i => (1, i)) ++ ((List.range 32).map fun i => (2, i)) ++
    (List.range 16).map fun i => (3, i)).filter (holdsPiece banks owna)

/-- Pieces in order of kind and index. -/
def inOrder (ps : List (Nat × Nat)) : List (Nat × Nat) :=
  ((List.range 4).flatMap fun k => (List.range 192).map fun i => (k, i)).filter fun p => ps.contains p

/-- The bytes of a piece written back. -/
def State.putPiece (s : State) (core : Nat) (p : Nat × Nat) (bs : List Byte) : State :=
  ((pieceRanges p).foldl
    (fun (m : State × List Byte) r => (m.1.write .chip (chipAddr core r.1) (m.2.take r.2), m.2.drop r.2)) (s, bs)).1

/-! The image (R341, R342). -/

/-- What is saved of a stopped and drained strand. -/
def State.savedOf (s : State) (l : Launch) (x : Nat) : SavedStrand :=
  let t := s.strandAt x
  let c := coreOf x
  let k := s.coreAt c
  let ps := inOrder (k.dirty.filter (holdsPiece t.banks t.ctx.owna.toNat))
  -- rows pinned by a command that was drained are let go too (R344)
  { rank := t.rank, core := c, strand := { t with pins := [] }, sems := k.sems.filter fun e => t.ownsSem e.1
    chans := k.chans.filter fun e => bit t.channels e.1, acm := k.acm, dvm := k.dvm.filter fun e => t.ctx.owna.getLsbD (16 + e.1)
    circuits := k.circuits.filter fun e => t.slots.contains e.1, pieces := ps.map fun p => (p, s.pieceBytes c p)
    bad := ps.flatMap (s.pieceBad c), quoins := ((l.quoins.filter fun e => e.1 == x).map Prod.snd) ++ t.pins.map Pin.quoin }

/-- The checkpoint record of an image; what the spec gives no layout for is free. -/
def checkpointRecord (no : Nat) (g : Gang) (t : Strand) : List Byte :=
  let page := (List.range 512).map fun i => (t.page (8 * i)).toNat
  let items := ((Config.checkpointItems (no + t.rank)).take 4096).map BitVec.toNat
  let counts := words64 ([1, 2, 3, 4, 5].flatMap fun l => leBytes 4 (g.count t.rank l))
  imageRecord 4 0 (page ++ items ++ counts)

/-- The record of a piece. -/
def pieceRecord (p : (Nat × Nat) × List Byte) : List Byte := imageRecord p.1.1 p.1.2 (words64 p.2)

/-- The places in an image, from that of its first piece record on, of the coded bytes of a poisoned unit: the marks move with the data
(R359). -/
def imageBad (bad : List Nat) : List ((Nat × Nat) × List Byte) → Nat → List Nat
  | [], _ => []
  | p :: ps, at_ =>
    let ws := words64 p.2
    let place (i : Nat) : Nat := (codeWords 0 (ws.take i) (i + 1)).length
    let units := (pieceRanges p.1).flatMap fun r => (List.range (r.2 / 8)).map fun i => r.1 + 8 * i
    let hit := (units.zipIdx.filter fun u => bad.contains u.1).map Prod.snd
    (hit.flatMap fun i => (List.range (Nat.max 1 (place (i + 1) - place i))).map fun j => at_ + 8 + place i + j) ++
      imageBad bad ps (at_ + (pieceRecord p).length)

/-- The bytes of an image; what the spec gives no layout for is free. -/
def imageOf (no : Nat) (g : Gang) (v : SavedStrand) (x : Nat) (lost : Bool) : List Byte :=
  let t := v.strand
  let cmds := if t.asyncs.isEmpty then [] else [imageRecord 6 0 (((Config.savedCommands (no + t.rank)).take 4096).map BitVec.toNat)]
  let quoins := if v.quoins.isEmpty then [] else [imageRecord 5 0 v.quoins]
  let recs := [checkpointRecord no g t] ++ (v.pieces.map pieceRecord) ++ quoins ++ cmds
  let body := recs.flatten
  leBytes 64 (packFields [(32, 0x3143584F), (1, b2n lost), (15, 0), (16, t.rank), (8, v.core), (4, x % 16), (20, 0), (32, recs.length),
    (64, 64 + body.length), (64, t.ctx.sclk), (256, 0)]) ++ body

/-- Bytes written to the pinned pages of a save area; `fuel` bounds them. -/
def State.writePinned (s : State) (pages : List Nat) (off : Nat) (bs : List Byte) : Nat → State
  | 0 => s
  | fuel + 1 =>
    if bs.isEmpty then s
    else
      let k := Nat.min bs.length (4096 - off % 4096)
      (s.write .dram (pages.getD (off / 4096) 0 + off % 4096) (bs.take k)).writePinned pages (off + k) (bs.drop k) fuel

/-- Bytes of the save area that a strand has. -/
def imageSlot : Nat := 1310720

/-- Bytes read from the pinned pages; `fuel` bounds them. -/
def State.readPinned (s : State) (pages : List Nat) (off n : Nat) : Nat → List Byte
  | 0 => []
  | fuel + 1 =>
    if n = 0 then []
    else
      let k := Nat.min n (4096 - off % 4096)
      s.bytes .dram (pages.getD (off / 4096) 0 + off % 4096) k ++ s.readPinned pages (off + k) (n - k) fuel

/-- The records of a rank's image in the save area: BYTES of its header bounds them, NREC counts them. -/
def State.savedRecords (s : State) (pages : List Nat) (rank : Nat) : List (Nat × Nat × List Nat) :=
  let h := leNat (s.readPinned pages (imageSlot * rank) 64 2)
  let n := Nat.min (bits h 383 320) imageSlot - 64
  imageRecords (s.readPinned pages (imageSlot * rank + 64) n (n / 4096 + 2)) (bits h 415 384)

/-- The stack bytes of the save area that a member's image takes up as it stands now: in each page the first one, and how many. -/
def State.imageParts (s : State) (l : Launch) (x : Nat) : List (Nat × Nat) :=
  let n := (imageOf l.imageNo (s.gang l.gang) (s.savedOf l x) x false).length
  ((((s.cq l.q).map Cq.pages).getD []).drop (320 * (s.strandAt x).rank)).take (ceilDiv n 4096) |>.zipIdx.map fun p =>
    (p.1, Nat.min 4096 (n - 4096 * p.2))

/-- Steps 4 of R338 for one strand: its image, its holdings released, and what is kept of it. -/
def State.saveStrand (s : State) (l : Launch) (pages : List Nat) (x : Nat) : State :=
  let g := s.gang l.gang
  let v := s.savedOf l x
  let bs := imageOf l.imageNo g v x (l.lost.contains v.rank)
  let marks := imageBad v.bad v.pieces (64 + (checkpointRecord l.imageNo g v.strand).length)
  let at_ (i : Nat) : Nat := let o := imageSlot * v.rank + i; pages.getD (o / 4096) 0 + o % 4096
  let s0 := marks.foldl (fun (s : State) i => s.mark .dram (at_ i)) (s.writePinned pages (imageSlot * v.rank) bs (bs.length / 4096 + 2))
  let s1 := (s0.releaseStrand x).setGang l.gang g
  match s1.launchOf l.q l.slot with
  | some m => s1.setLaunch { m with saved := m.saved ++ [v] }
  | none => s1

/-- Whether a page that the images of strands take up cannot be written yet: then the save's writes wait (R217, R347, R370, R372). -/
def State.saveWaits (s : State) (l : Launch) (xs : List Nat) : Bool :=
  xs.any fun x => (s.imageParts l x).any fun p => s.stackWaits none p.1 true || s.stackWaits none (p.1 + 2048) true

/-- An image that an error has hit: the strand's context is reported as lost, and the node ends (R346). -/
def State.loseImages (s : State) (l : Launch) : State :=
  match s.launchOf l.q l.slot with
  | none => s
  | some m =>
    let bad := m.saved.filter fun v => l.lost.contains v.rank
    let s1 := bad.foldl
      (fun (s : State) v =>
        let x := v.core * 16 + v.strand.ctx.smode.toNat / 2 ^ 8 % 16
        (s.noteEc (trapEC 16) v.strand.vf).report
          { vf := v.strand.vf, src := 0, orig := origOf x, cls := ascii2 'E' 'C', num := 1, queue := 7, detail := 16 }) s
    (s1.finishLaunch m (statusOf 0x0E ((bad.map SavedStrand.core).headD 0) 0)).setSlot l.q l.slot fun x => { x with lost := true }

/-- The images of all stopped strands written, then STATE 5 (R338, R341). -/
def State.saveLaunch (s : State) (l : Launch) (xs : List Nat) : State :=
  let pages := ((s.cq l.q).map Cq.pages).getD []
  if s.saveWaits l xs then s.schedule (s.now + 1) (.preemptSave l.q l.slot)
  else
    let s1 := xs.foldl (fun (s : State) x => s.saveStrand l pages x) s
    if l.lost.isEmpty then
      match s1.launchOf l.q l.slot with
      | some m =>
        (s1.setLaunch { m with stage := .saved, saveBy := none, quoins := [], members := [], ended := [], since := s.now - l.since }).setSt
          l.q l.slot 5
      | none => s1
    else s1.loseImages l

/-- The stop, drain and end of a launch's strands. -/
def State.proceedStop (s : State) (l : Launch) : State :=
  let xs := l.members.filter fun x => !l.ended.contains x
  let s1 := xs.foldl (fun (s : State) x => if (s.strandAt x).atStop then s.stopAt l.q l.slot x else s) s
  let still (x : Nat) : Bool := (s1.strandAt x).mode == .stopped && (s1.strandAt x).ckpt.isSome && s1.atRest x
  if !xs.all still then s1.schedule (s1.now + 1) (.preemptSave l.q l.slot)
  else
    match s1.launchOf l.q l.slot with
    | none => s1
    | some m =>
      if l.stage = .stopping then
        (xs.foldl (fun (s : State) x => s.releaseStrand x) s1).finishLaunch m (m.fate.getD (statusOf 0x0B 0 0))
      else s1.saveLaunch m xs

/-- `PREEMPT_SAVE` (R338, R341): looked at in every chip cycle until the strands have stopped and drained. A launch whose
strands have not started waits for them; one that waits for admission has none to save. -/
def execPreemptSave (q k : Nat) (s : State) : Host.Outcome State Fault Refusal :=
  .next (match s.launchOf q k with
    | none => s
    | some l =>
      match l.stage with
      | .saving | .stopping => s.proceedStop l
      | .running => if l.saveBy.isSome then (s.setLaunch { l with stage := .saving }).proceedStop { l with stage := .saving } else s
      | .admission =>
        if l.saveBy.isSome then (s.setLaunch { l with stage := .saved, saveBy := none }).setSt q k 5 else s
      | .saved | .resuming => s
      | _ => if l.saveBy.isSome then s.schedule (s.now + 1) (.preemptSave q k) else s)

/-! Requests (R337). -/

def pmVf (v : Nat) : Nat := bits v 41 36
def pmQueue (v : Nat) : Nat := bits v 35 34 * 64 + bits v 33 28
def pmSlot (v : Nat) : Nat := bits v 15 0

/-- A refused request (R337, R384). -/
def State.refusePm (s : State) (n val : Nat) : State := s.logPf 255 (ascii2 'P' 'M') n 0 0 (val % 2 ^ 64)

/-- The launch that a request names, in a queue of the VF it names. -/
def State.pmLaunch (s : State) (val : Nat) : Option Launch :=
  match s.cq (pmQueue val) with
  | some c => if c.vf = pmVf val then s.launchOf (pmQueue val) (pmSlot val) else none
  | none => none

/-- `PMREQ_PREEMPT` (R337). -/
def execPmreqPreempt (val : Nat) (s : State) : Host.Outcome State Fault Refusal :=
  .next (if s.handlerHeld 3 then s.schedule (s.now + 1) (.pmreqPreempt val)
    else
      match s.pmLaunch val with
      | none => s.refusePm 1 val
      | some l =>
        if (s.slotAt l.q l.slot).st ≠ 3 then s.refusePm 1 val
        else if l.saveBy.isSome ∨ l.stage = .stopping then s.refusePm 2 val
        else if ((s.cq l.q).map Cq.savn).getD 0 < lrSize l.copy then s.refusePm 3 val
        else
          let d := if bits val 63 48 = 0 then 200 else bits val 63 48
          ({ s with fresh := s.fresh + 256 }.setLaunch
            { l with saveBy := some (s.now + s.cyclesOf d), quoins := [], lost := [], imageNo := s.fresh }).schedule s.now
            (.preemptSave l.q l.slot))

/-! The resume (R339, R340, R344). -/

/-- The chip cycle at which a resumed strand's checkpointed strand cycle opens, and its origin: strands of an exact gang
take one origin. -/
def resumeOrigin (l : Launch) (c0 : Nat) (v : SavedStrand) : Nat :=
  if lrExact l.copy then c0 - (l.saved.foldl (fun m w => Nat.min m w.strand.ctx.sclk) v.strand.ctx.sclk)
  else c0 - v.strand.ctx.sclk * v.strand.stride

/-- The row of a quoin list pinned again, unless its bank is held (R344). -/
def State.repin (s : State) (x quoin : Nat) : State :=
  let s1 := s.on x
  let q := quoinOf quoin
  if s1.bankTaken q then s1.upd fun t => t.setRowStat q (t.rowStat q).broke true else s1.pin q

/-- A saved command issued again: one that has not performed is taken up, a held one from its first element. -/
def Async.reissue (a : Async) : Async := if a.held.isSome ∨ a.paused then { a.restart with paused := false } else a

/-- A strand's registers as the checkpoint record of its image gives them: the context page, at whose other items the image has what
was saved, for the spec gives them no layout. -/
def Strand.fromImage (t : Strand) (recs : List (Nat × Nat × List Nat)) : Strand :=
  match recs.find? fun r => r.1 == 4 with
  | none => t
  | some r =>
    ((r.2.2.take 512).zipIdx).foldl
      (fun t w => if w.1 = (t.page (8 * w.2)).toNat then t else t.setPage (8 * w.2) (BitVec.ofNat 64 w.1)) t

/-- A strand as its checkpoint starts it again: what waited at the boundary waits again. -/
def Strand.atCheckpoint (t : Strand) : Strand :=
  match t.ckpt with
  | none => t
  | some k => { t with raises := k.raises, deferred := k.deferred, micro := if k.matched then 8 else 0 }

/-- One strand restored on its core from its image. -/
def State.restoreStrand (s : State) (l : Launch) (vf c0 : Nat) (v : SavedStrand) : State :=
  let c := v.core
  let ctx := s.freeContext c
  let x := c * 16 + ctx
  let o := resumeOrigin l c0 v
  let at_ := o + v.strand.ctx.sclk * v.strand.stride
  let recs := s.savedRecords (((s.cq l.q).map Cq.pages).getD []) v.rank
  let pieces := (recs.filter fun r => decide (r.1 ≤ 3)).map fun r => ((r.1, r.2.1), r.2.2.flatMap (leBytes 8))
  let quoins := (recs.filter fun r => r.1 == 5).flatMap fun r => r.2.2
  let t0 : Strand :=
    { v.strand.atCheckpoint.fromImage recs with
      mode := .loading, origin := o, heldUntil := at_, rephase := none, asyncs := v.strand.asyncs.map Async.reissue }
  let t : Strand := t0.updCtx fun k => { k with smode := BitVec.ofNat 64 (putBits k.smode.toNat 8 4 ctx) }
  let owna := t.ctx.owna.toNat
  let s1 := ((s.freshPage x).setStrand x t).updCore c fun k => k.lend owna t.ctx.owns.toNat t.banks t.channels
  let s2 := ((imSlots l.img).filter fun e => seOn e.2 v.rank).foldl (fun (s : State) e => s.writeEntry vf l.copy v.rank c e.2) s1
  let own (d : Circuit) : Circuit := { d with wait := d.wait.map fun p => { p with strand := x }, armed := !d.wait.isEmpty }
  let acm (a m : Nat) : Nat := if bit owna (32 + a) then putBits m (4 * a) 4 (v.acm / 2 ^ (4 * a) % 16) else m
  let s3 := s2.updCore c fun k =>
    { k with sems := v.sems.foldl (fun m e => mset e.1 e.2 m) k.sems, chans := v.chans.foldl (fun m e => mset e.1 e.2 m) k.chans
             dvm := v.dvm.foldl (fun m e => mset e.1 e.2 m) k.dvm, acm := acm 1 (acm 0 k.acm)
             circuits := v.circuits.foldl (fun m e => mset e.1 (own e.2) m) k.circuits, dirty := k.dirty ++ pieces.map Prod.fst }
  let s4 := (piecesHeld t.banks owna).foldl (fun (s : State) p => s.putPiece c p (List.replicate 4096 0)) s3
  let s5 := pieces.foldl (fun (s : State) p => s.putPiece c p.1 p.2) s4
  let s6 := v.bad.foldl (fun (s : State) off => s.mark .chip (chipAddr c off)) s5
  let s7 := quoins.foldl (fun (s : State) k => s.repin x k) s6
  let s8 := v.circuits.foldl (fun (s : State) e => if e.2.wait.isEmpty then s else s.schedule (s.opening e.1 at_) (.packetDepart c e.1)) s7
  let s9 := (t.asyncs.filter fun a => !a.performed).foldl (fun (s : State) a => s.schedule at_ (.accessPerform x a.id)) s8
  let s10 := t.pend.foldl (fun (s : State) m => match m.wait with | .scratch a n _ _ => s.wake c a (a + n) | _ => s) s9
  let g := s10.gang l.gang
  let part (p : Contrib) : Contrib := if p.rank = v.rank then { p with strand := x } else p
  let s11 := s10.setGang l.gang
    { g with members := g.members.set v.rank x, colls := g.colls.map fun k => { k with parts := k.parts.map part } }
  s11.schedule at_ (.strandStart x)

/-- Releases whose last arrival came before the stop reach the gang's members again, H chip cycles after its last start
(R340). -/
def State.rereleases (s : State) (gang at_ : Nat) : State :=
  let g := s.gang gang
  [1, 2, 3, 4, 5, 6].foldl
    (fun (s : State) level =>
      ((g.members.map fun x => g.unit level (coreOf x)).eraseDups).foldl
        (fun (s : State) u =>
          let n := g.least level u
          if (g.instance_ level u).any fun m => g.released m.1 level != n then
            s.schedule (at_ + g.horizon level) (.barrierRelease gang level u n)
          else s) s)
    s

/-- The launch runs again. -/
def State.restoreLaunch (s : State) (l : Launch) (vf : Nat) : State :=
  let c0 := s.startCycle (lrExact l.copy)
  let s1 := l.saved.foldl (fun (s : State) v => s.restoreStrand l vf c0 v) s
  let g := s1.gang l.gang
  let ranks := l.saved.map SavedStrand.rank
  let routes := s1.pairUp (((s1.circuitsOf vf l.copy l.img).filter fun r => ranks.contains r.strand).map (Route.own g.members)) []
  let s2 := { s1 with dev := { s1.dev with routes := s1.dev.routes ++ routes } }
  let last := l.saved.foldl (fun m v => Nat.max m (resumeOrigin l c0 v + v.strand.ctx.sclk * v.strand.stride)) c0
  let since := c0 - l.since
  let s3 := ((s2.rereleases l.gang last).setLaunch
    { l with stage := .running, members := ranks.map fun r => g.members.getD r 0, ended := [], saved := [], since := since
             pairs := s.podPairs l.copy }).setSt
      l.q l.slot 3
  let s4 := if lrBudget l.copy = 0 then s3 else s3.schedule (since + s3.cyclesOf (lrBudget l.copy)) (.budgetExpiry l.q l.slot)
  -- the walker goes on as one chain of events
  let s5 : State := { s4 with agenda := s4.agenda.filter fun e => e.2 != .walkerDeal l.gang }
  if l.symm.isSome then s5.schedule (c0 + 1) (.walkerDeal l.gang) else s5

/-- Re-admission (R339): refused, it is asked for again as with NOWAIT = 0. -/
def State.tryResume (s : State) (l : Launch) (val : Nat) : State :=
  let v := s.cqVf l.q
  let x := l.copy
  let ranks := l.saved.map SavedStrand.rank
  let s1 := s.setLaunch { l with stage := .resuming }
  if (s.masksClash x ranks).isSome ∨ (s.impose v x l.img ranks).isSome then s1
  else if (s.farRefusal x).isSome then s1.tick.schedule (s1.now + 1) (.pmreqResume val)
  else if (s.routeRefusal v x l.img).isSome ∨ s.startWaits v x then s1.schedule (s1.now + 1) (.pmreqResume val)
  else s1.restoreLaunch { l with stage := .resuming } v

/-- `PMREQ_RESUME` (R337, R339). -/
def execPmreqResume (val : Nat) (s : State) : Host.Outcome State Fault Refusal :=
  .next (if s.handlerHeld 3 then s.schedule (s.now + 1) (.pmreqResume val)
    else
      match s.pmLaunch val with
      | none => s.refusePm (if (s.slotAt (pmQueue val) (pmSlot val)).lost then 4 else 1) val
      | some l =>
        match l.stage with
        | .saved =>
          if l.saved.isEmpty then
            ((s.setLaunch { l with stage := .admission }).setSt l.q l.slot 3).askAdmission { l with stage := .admission }
          else s.tryResume l val
        | .resuming => s.tryResume l val
        | _ => s.refusePm 1 val)

/-! The save area (R341). -/

/-- Pages from an address on, each translated for writing; `n` of them. -/
def State.pinPages (s : State) (v e : Nat) : Nat → List Nat → Except (State × Trap) (List Nat × State)
  | 0, acc => .ok (acc.reverse, s)
  | n + 1, acc =>
    match s.tenantPa v e true with
    | .error t => .error (s, t)
    | .ok (pa, s1) => s1.pinPages v (e + 4096) n (pa :: acc)

/-- `CQSAVN_WRITE` (R341). -/
def execCqsavnWrite (q val : Nat) (s : State) : Host.Outcome State Fault Refusal :=
  .next (match s.cq q with
    | none => s
    | some c =>
      let none_ (s : State) : State := s.setCq q fun c => { c with savn := 0, pages := [] }
      if 256 < val ∨ (val ≠ 0 ∧ !pathZero c.save (imageSlot * val)) then none_ s
      else
        match s.pinPages c.vf c.save (320 * val) [] with
        | .error r => (none_ r.1).reportFault c.vf 1 (cqOrig q) r.2
        | .ok (ps, s1) => s1.setCq q fun c => { c with savn := val, pages := ps })

end Sys2Proof.Machine
end

