-- ==== Sys2Proof/Machine/Partition.lean ====
section
/-! DEFINITION. Partitions: their quads, stitch mode and slots (R357, R374, R376), and their reset (R321, R377). -/

set_option linter.unusedVariables false

namespace Sys2Proof.Machine

/-! Partitions. -/

/-- Whether a launch of a VF runs: its node has been taken, and it is not pre-empted. -/
def State.vfRuns (s : State) (v : Nat) : Bool :=
  s.dev.launches.any fun l => s.cqVf l.q == v && l.stage != .saved && l.stage != .resuming

/-- A write that is ignored and entered in the PF's log; the spec gives the entry no class. -/
def State.logIgnored (s : State) : State := s.logPf 255 0 0 0 0 0

/-- Whether another VF has a bit of a mask. -/
def State.othersHave (s : State) (v mask : Nat) (of : Vf → Nat) : Bool :=
  s.dev.vfs.any fun f => f.1 != v && (of f.2 &&& mask) != 0

/-- `VFQUADS_WRITE` (R357). -/
def execVfquadsWrite (v val : Nat) (s : State) : Host.Outcome State Fault Refusal :=
  .next (s.pfServed 7 (.vfquadsWrite v val) fun s =>
    if s.othersHave v val Vf.quads then s.logIgnored
    else if s.vfRuns v then s
    else s.setVf v fun f => { f with quads := val })

/-- The quads of a mask on a die. -/
def quadsOn (mask die : Nat) : Nat := mask / 2 ^ (16 * die) % 2 ^ 16

/-- Whether a stitch mode is refused (R374). -/
def State.stitchBad (s : State) (v val : Nat) : Bool :=
  let mask := (s.vf v).quads
  let n := (bits val 7 4 + 1) * (bits val 11 8 + 1)
  decide (3 < bits val 3 0) ||
    !((List.range 4).any fun d => bit (quadsOn mask d) (bits val 15 12)) ||
    (bits val 3 0 == 3 && (List.range 4).any fun d => quadsOn mask d != 0 && popCount 16 (quadsOn mask d) != n) ||
    s.vfRuns v

/-- `PSTITCH_WRITE` (R374). -/
def execPstitchWrite (v val : Nat) (s : State) : Host.Outcome State Fault Refusal :=
  .next (s.pfServed 7 (.pstitchWrite v val) fun s =>
    if s.stitchBad v val then s.logIgnored else s.setVf v fun f => { f with pstitch := val })

/-- `VFSLOTS_WRITE` (R376): one of the mask's four words. -/
def execVfslotsWrite (v word val : Nat) (s : State) : Host.Outcome State Fault Refusal :=
  let m := putBits (s.vf v).slots (64 * word) 64 val
  .next (s.pfServed 7 (.vfslotsWrite v word val) fun s =>
    if s.othersHave v m Vf.slots then s.logIgnored else s.setVf v fun f => { f with slots := m })

/-! Partition reset (R377). -/

/-- Whether a strand of the VF can be ended now. -/
def Strand.resetStop (t : Strand) : Bool := t.atStop || t.mode == .loading || (t.mode == .stopped && t.ckpt.isSome)

/-- A strand ended by the reset, with the packets that wait at its circuits. -/
def State.resetStrand (s : State) (x : Nat) : State :=
  let t := s.strandAt x
  let quiet (e : Nat × Circuit) : Nat × Circuit := if t.slots.contains e.1 then (e.1, { e.2 with wait := [] }) else e
  (((s.setFate t.node (statusOf 0x0E (coreOf x) 0)).stopStrand x).updCore (coreOf x)
    fun k => { k with circuits := k.circuits.map quiet }).schedule s.now (.strandEnd x)

/-- A pre-emption or a stop that was under way gives way to the reset. -/
def State.yieldStops (s : State) (v : Nat) : State :=
  let yield (l : Launch) : Launch :=
    if s.cqVf l.q ≠ v then l
    else if l.stage = .saving ∨ l.stage = .stopping then { l with stage := .running, saveBy := none }
    else { l with saveBy := none }
  { s with dev := { s.dev with launches := s.dev.launches.map yield } }

/-- The VF's cores. -/
def State.coresOf (s : State) (v : Nat) : List Nat := (List.range 256).filter (s.inTenant v)

/-- Packets on their way in the VF's partitions are dropped at their ejection. -/
def State.condemn (s : State) (v : Nat) : State :=
  let dead (e : Nat × Circuit) : Nat × Circuit :=
    (e.1, { e.2 with wait := [], fly := e.2.fly.map fun p => { p with kind := 4, last := false } })
  let hit (c : Nat × CoreState) : Nat × CoreState :=
    if s.inTenant v c.1 then (c.1, { c.2 with circuits := c.2.circuits.map dead }) else c
  { s with cores := s.cores.map hit }

/-- The VF's nodes in STATE 5 complete, and its compositor queues' registers return to their reset values. -/
def State.resetQueues (s : State) (v : Nat) : State :=
  let out := s.dev.launches.filter fun l => s.cqVf l.q == v && (l.stage == .saved || l.stage == .resuming)
  let s1 := out.foldl
    (fun (s : State) l => s.finishLaunch l (statusOf 0x0E ((l.saved.map SavedStrand.core).headD 0) 0)) s
  let clear (e : Nat × Cq) : Nat × Cq := if e.2.vf = v then (e.1, { vf := v, slots := e.2.slots }) else e
  { s1 with dev := { s1.dev with cqs := s1.dev.cqs.map clear } }

/-- Step 1 looked at: once no strand of the VF is left, the queues are reset and step 2 begins. -/
def State.resetStep (s : State) (v : Nat) : State :=
  let xs := (s.strands.filter fun e => e.2.vf == v && e.2.mode != .ended).map Prod.fst
  let s1 := xs.foldl (fun (s : State) x => if (s.strandAt x).resetStop then s.resetStrand x else s) s
  if xs.isEmpty then
    (((s1.condemn v).resetQueues v).setVf v fun f => { f with prst := 2 }).schedule s1.now (.partitionResetClear v)
  else s1.schedule (s1.now + 1) (.partitionReset v 0)

/-- Step 1 begun, of a function-level reset too, which a hand-over can hold. -/
def State.beginReset (s : State) (v : Nat) : State :=
  if (s.vf v).prst ≠ 0 then s
  else if s.handlerHeld 7 then s.schedule (s.now + 1) (.partitionReset v 2)
  else ((s.yieldStops v).setVf v fun f => { f with prst := 1 }).resetStep v

/-- `PARTITION_RESET` (R377): 1 is a write of GO; with 0 the strands are looked at again while a reset's first step runs, and with 2 the
reset of a function goes on once the hand-over that has held it is over. -/
def execPartitionReset (v val : Nat) (s : State) : Host.Outcome State Fault Refusal :=
  .next (if bit val 0 then s.pfServed 7 (.partitionReset v val) fun s => s.beginReset v
    else if bit val 1 then s.beginReset v
    else if (s.vf v).prst = 1 then s.resetStep v
    else s)

/-- Whether the VF's partitions have drained: no packet is on its way, and no access of its cores has still to perform. -/
def State.resetDrained (s : State) (v : Nat) : Bool :=
  s.cores.all fun c => !s.inTenant v c.1 || c.2.circuits.all fun e => e.2.fly.isEmpty

/-- A core cleared (R377, step 3). -/
def CoreState.cleared (k : CoreState) : CoreState :=
  { k with acm := 0, dvm := [], chans := [], slots := k.slots.map fun e => (e.1, e.2 % 2 ^ 31), circuits := [], dirty := [], standby := none }

/-- On-chip storage and contexts of the VF's cores zeroed. -/
def State.clearCores (s : State) (v : Nat) : State :=
  let mine (a : Nat) : Bool := s.inTenant v (a / 2 ^ 21)
  let clear (c : Nat × CoreState) : Nat × CoreState := if s.inTenant v c.1 then (c.1, c.2.cleared) else c
  { s with onchip := s.onchip.filter fun c => !mine c.1, poisonChip := s.poisonChip.filter fun u => !mine (8 * u)
           cores := s.cores.map clear }

/-- `PARTITION_RESET_CLEAR` (R377): step 3, once step 2 has ended. -/
def execPartitionResetClear (v : Nat) (s : State) : Host.Outcome State Fault Refusal :=
  .next (if (s.vf v).prst ≠ 2 then s
    else if !s.resetDrained v then s.schedule (s.now + 1) (.partitionResetClear v)
    else (s.clearCores v).setVf v fun f => { f with prst := 0 })

/-- Every ring register of a VF at its reset value; posts that wait find their rings disabled (R327, R329). -/
def State.resetRings (s : State) (v : Nat) : State :=
  let s1 := s.setVf v fun f => { f with err := {}, rings := f.rings.map fun r => (r.1, { posts := r.2.posts }) }
  (List.range 16).foldl (fun (s : State) h => s.retryPosts v h) s1

/-- Nothing is left of a function's host accesses under way, nor of its failed completions. -/
def State.dropHost (s : State) (fn : Nat) : State :=
  { s with agenda := s.agenda.filter fun e => s.hostFn e.2 != some fn
           dev := { s.dev with hostWait := s.dev.hostWait.filter fun e => s.hostFn e != some fn
                               parked := s.dev.parked.filter fun e => s.hostFn e != some fn
                               failed := s.dev.failed.filter fun e => e.1 != fn } }

/-- The state of a virtual function as a reset of the function leaves it (R321, R324, R327): its rings, its interrupt vectors, its
virtual AER registers, its aperture and its stage-1 and layout tables at their reset values, nothing of its host accesses under way.
What the PF has set for it stays: its partitions, their stage-2 tables and its scope policy. -/
def State.resetFunction (s : State) (v : Nat) : State :=
  let s1 := ((s.resetRings v).resetMsix v).setVf v fun f =>
    { f with vaerus := 0, vaerum := 0, vaerhdr := 0, apbase := 0, s1root := 0, ltb := 0, ltl := 0, s1ovf := false }
  s1.dropHost v

/-- `FUNCTION_LEVEL_RESET` (R321, R327, R377). -/
def execFunctionLevelReset (v : Nat) (s : State) : Host.Outcome State Fault Refusal := .next ((s.resetFunction v).beginReset v)

end Sys2Proof.Machine
end

