-- ==== Sys2Proof/Machine/Stacks.lean ====
section
/-! DEFINITION. Stacks over time: training and rate changes (R366, R369, R370), channel retirement (R372) and its generations
(R373). -/

set_option linter.unusedVariables false

namespace Sys2Proof.Machine

def State.setStk (s : State) (k : Nat) (f : Stk → Stk) : State :=
  { s with dev := { s.dev with stks := mset k (f (s.dev.stk k)) s.dev.stks } }

/-- Whether firmware may ask for full service: every present stack is trained and the pod is aligned (R387). -/
def State.serviceReady (s : State) : Bool :=
  s.dev.pf.stage == 1 && s.dev.pf.aligned &&
    (List.range 16).all fun k => (s.dev.stk k).state == 3 || (s.dev.stk k).state == 0

/-- Firmware asks for full service as soon as it may. -/
def State.offerService (s : State) : State := if s.serviceReady then s.schedule s.now .fullServiceEntry else s

/-- The digest of a training record's serial number, rate code and lane results; the order and the widths in which they are hashed are
the model's (DESIGN CHOICE, log entry 168: R366 gives none). -/
def recordDigest (serial rate : Nat) (lanes : List Byte) : List Byte := Config.shake256 (leBytes 8 serial ++ leBytes 1 rate ++ lanes) 64

/-- The record of a training of a stack that has come to a rate code, with its lane results (R366). -/
def trainRecord (k rate no : Nat) : TrainRecord :=
  let serial := (Config.stackSerial k).toNat
  let lanes := Config.laneResults no
  { serial := serial, rate := rate, lanes := lanes, digest := recordDigest serial rate lanes }

/-- Whether a record can be used for a stack: its digest matches, it is the stack's, and the first read-back check passes (R367). -/
def TrainRecord.good (r : TrainRecord) (k no : Nat) : Bool :=
  r.digest == recordDigest r.serial r.rate r.lanes && r.serial == (Config.stackSerial k).toNat && !Config.readBackFails no

/-- A stack trained at a rate code: it serves, and the record is stored (R366, R370). -/
def State.trained (s : State) (k rate : Nat) : State :=
  (s.tick.setStk k fun x => { x with state := 3, rate := rate, record := some (trainRecord k rate s.fresh) }).offerService

/-- `STACK_TRAINING_COMPLETE` (R366): the code at which the stack trains, 0 to 3. -/
def execStackTrainingComplete (k rate : Nat) (s : State) : Host.Outcome State Fault Refusal :=
  .next (if (s.dev.stk k).state = 2 ∧ rate ≤ 3 then s.trained k rate else s)

/-! Pins and scans of channels. -/

/-- Every pin on channels of a kind broken as at expiry (R218). -/
def State.breakPins (s : State) (on : Nat → Bool) : State :=
  (s.pinsOf fun p => on p.ch).foldl (fun s e => s.breakPin e.1 (quoinOf e.2.quoin)) s

/-- Every running scan on channels of a kind stopped (R371). -/
def State.stopScans (s : State) (on : Nat → Bool) : State :=
  let halt (e : Nat × ScanStat) : Nat × ScanStat :=
    if on e.1 && e.2.run then (e.1, { e.2 with stop := true, halt := true }) else e
  { s with strands := s.strands.map fun (e : Nat × Strand) => (e.1, { e.2 with scans := e.2.scans.map halt }) }

/-! Data rates (R369, R370). -/

/-- Whether a save that still has its deadline's priority writes to a stack (R347). -/
def State.saving (s : State) (k : Nat) : Bool :=
  s.dev.launches.any fun l =>
    l.stage == .saving && (match l.saveBy with | some d => decide (s.now < d) | none => false) &&
      l.members.any fun x => !l.ended.contains x && (s.imageParts l x).any fun p => s.dev.physCh (channelOf p.1) / 32 == k

/-- Whether a rate request is refused (R369). -/
def State.rateBad (s : State) (k new : Nat) : Bool :=
  decide (3 < new) || (s.dev.stk k).state != 3 ||
    (match s.dev.pf.retire with | some r => r.ch / 32 == k || r.donor / 32 == k | none => false)

/-- `STKRATE_WRITE` (R369, R370): refused, DEFERRED or running. -/
def execStkrateWrite (k val : Nat) (s : State) : Host.Outcome State Fault Refusal :=
  let new := val % 16
  .next (s.pfServed 4 (.stkrateWrite k val) fun s =>
    if s.rateBad k new then s.setStk k fun x => { x with res := 3 }
    else if s.saving k then s.setStk k fun x => { x with res := 1 }
    else
      ((s.setStk k fun x => { x with res := 2, want := new, state := 4 }).breakPins fun ch => s.dev.physCh ch / 32 == k).later
        (.retrainingComplete k))

/-- `RETRAINING_COMPLETE` (R370): scans that wait for the stack go on by themselves. -/
def execRetrainingComplete (k : Nat) (s : State) : Host.Outcome State Fault Refusal :=
  .next (if (s.dev.stk k).state = 4 then (s.setStk k fun x => { x with res := 0 }).trained k (s.dev.stk k).want else s)

/-! Channel retirement (R372). -/

/-- Whether a channel is a donor or retired already. -/
def Device.spent (d : Device) (ch : Nat) : Bool := bit (d.stk (ch / 32)).don (ch % 32) || (mget ch d.remaps).isSome

def State.retireBad (s : State) (ch donor : Nat) : Bool :=
  s.dev.pf.retire.isSome || ch == donor || s.dev.spent ch || s.dev.spent donor ||
    (s.dev.stk (ch / 32)).state != 3 || (s.dev.stk (donor / 32)).state != 3

/-- `CHRET_WRITE` (R372): step 1. -/
def execChretWrite (val : Nat) (s : State) : Host.Outcome State Fault Refusal :=
  let ch := bits val 8 0
  let donor := bits val 17 9
  let on (c : Nat) : Bool := c == ch || c == donor
  .next (s.pfServed 5 (.chretWrite val) fun s =>
    if s.retireBad ch donor then s.setPf fun p => { p with chRes := 2 }
    else
      (((s.setPf fun p =>
        { p with chGen := (p.chGen + 1) % 2 ^ 16, chRes := 0, retire := some { ch := ch, donor := donor, step := 1 }
                 fences := mset ch ((p.chGen + 1) % 2 ^ 16) p.fences }).breakPins on).stopScans on).later .retirementDrainDone)

/-- `RETIREMENT_DRAIN_DONE` (R372): a write that the model has accepted has performed, so step 2 ends at once. -/
def execRetirementDrainDone (s : State) : Host.Outcome State Fault Refusal :=
  .next (match s.dev.pf.retire with
    | some r => if r.step = 1 then (s.setPf fun p => { p with retire := some { r with step := 3 } }).later .retirementCopyDone else s
    | none => s)

/-- Stack cells with one channel's moved over another's. -/
def moveChannel (m : List Host.Cell) (ch donor : Nat) : List Host.Cell :=
  let a := channelAddr ch 0
  let b := channelAddr donor 0
  let inside (lo : Nat) (c : Host.Cell) : Bool := decide (lo ≤ c.1) && decide (c.1 < lo + channelBytes)
  let rest := m.filter fun c => !inside a c && !inside b c
  (rest.takeWhile fun c => decide (c.1 < b)) ++ (m.filter (inside a)).map (fun c => (c.1 - a + b, c.2)) ++
    rest.dropWhile fun c => decide (c.1 < b)

/-- Poisoned units likewise. -/
def moveMarks (m : List Nat) (ch donor : Nat) : List Nat :=
  let a := channelAddr ch 0 / 8
  let b := channelAddr donor 0 / 8
  let inside (lo u : Nat) : Bool := decide (lo ≤ u) && decide (u < lo + channelBytes / 8)
  (m.filter fun u => !inside a u && !inside b u) ++ (m.filter (inside a)).map fun u => u - a + b

/-- `RETIREMENT_COPY_DONE` (R372): steps 3 and 4; the writes that are held perform in the donor, in the order of their arrival. -/
def execRetirementCopyDone (s : State) : Host.Outcome State Fault Refusal :=
  .next (match s.dev.pf.retire with
    | some r =>
      if r.step ≠ 3 then s
      else
        let s1 := { s with dram := moveChannel s.dram r.ch r.donor, poisonDram := moveMarks s.poisonDram r.ch r.donor }
        let s2 := s1.setStk (r.donor / 32) fun x => { x with don := x.don ||| 2 ^ (r.donor % 32) }
        let s3 := { s2 with dev := { s2.dev with remaps := mset r.ch r.donor s2.dev.remaps } }
        (s3.setPf fun p => { p with retire := none, chRes := 1 }).unpark
    | none => s)

/-- `GENERATION_BROADCAST` (R373): this package's copy of a peer's generation. -/
def execGenerationBroadcast (pkg gen : Nat) (s : State) : Host.Outcome State Fault Refusal :=
  .next (s.setPf fun p => { p with peerGen := mset pkg (gen % 2 ^ 16) p.peerGen })

end Sys2Proof.Machine
end

