-- ==== Sys2Proof/Machine/Boot.lean ====
section
/-! DEFINITION. Resets and bring-up (R321, R366, R367, R386, R387, R395). -/

set_option linter.unusedVariables false

namespace Sys2Proof.Machine

/-! Resets. -/

/-- The package reset: what lies outside it stays, and so do its stacks as `stks` has them. -/
def State.restart (s : State) (cause : Nat) (stks : List (Nat × Stk)) : State :=
  { State.reset with
    fresh := s.fresh, latencies := s.latencies, inputs := s.inputs, host := s.host, peer := s.peer, poisonHost := s.poisonHost
    dev := { State.reset.dev with stks := stks, peerQuads := s.dev.peerQuads, pf := { State.reset.dev.pf with cause := cause } } }

/-- `COLD_RESET` (R6, R366, R386): every present stack is untrained. -/
def execColdReset (s : State) : Host.Outcome State Fault Refusal :=
  let cold (e : Nat × Stk) : Nat × Stk :=
    (e.1, { state := if e.2.state = 0 then 0 else 1, record := e.2.record, hot := e.2.hot })
  .next (s.restart 0 (s.dev.stks.map cold))

/-- A reset that finds training records (R367): a stack whose record passes its checks is trained again by it. -/
def State.warm (s : State) (cause : Nat) : State :=
  let load (e : Nat × Stk) : Nat × Stk :=
    let good := e.2.record.filter fun r => r.good e.1 (s.fresh + e.1)
    (e.1, { state := if e.2.state = 0 then 0 else if good.isSome then 3 else 1, rate := (good.map TrainRecord.rate).getD 0
            record := e.2.record, hot := e.2.hot })
  ({ s with fresh := s.fresh + 16 } : State).restart cause (s.dev.stks.map load)

/-- `WARM_RESET` (R367). -/
def execWarmReset (s : State) : Host.Outcome State Fault Refusal := .next (s.warm 1)

/-- `THERMAL_TRIP` (R395): strands end without a save. -/
def execThermalTrip (s : State) : Host.Outcome State Fault Refusal := .next (s.warm 2)

/-- `HOT_RESET` (R386). -/
def execHotReset (s : State) : Host.Outcome State Fault Refusal := .next (s.warm 3)

/-- `PF_FUNCTION_LEVEL_RESET` (R321, R388): the PF's own function registers, the supplement and a pending hand-over, which no reset
leaves, and the VFs, which cease with their PF. -/
def execPfFunctionLevelReset (s : State) : Host.Outcome State Fault Refusal :=
  let s1 := (s.dropHost 64).setPf fun p => { p with log := {}, aer := [], handover := none, hmask := 0, supver := 0 }
  let known (s : State) (v : Nat) : Bool := s.dev.vfs.any fun f => f.1 == v
  .next ((List.range 64).foldl
    (fun (s : State) v => if known s v then (s.resetFunction v).beginReset v else (s.resetMsix v).dropHost v) (s1.resetMsix 64))

/-! Bring-up (R387). -/

/-- `SELF_TEST_PASS` (R366, R380, R387): the proof service begins, and the links and the stacks without a trained rate train. -/
def execSelfTestPass (s : State) : Host.Outcome State Fault Refusal :=
  let train (s : State) (k : Nat) : State := if (s.dev.stk k).state = 1 then s.setStk k fun x => { x with state := 2 } else s
  let link (s : State) (l : Nat) : State := if (s.link l).state = 0 then s.setLink l fun x => { x with state := 1 } else s
  .next (if s.dev.pf.stage = 0 then
      ((List.range 18).foldl link ((List.range 16).foldl train (s.setPf fun p => { p with stage := 1, proof := true }))).offerService
    else s)

/-- A time of the proof service's clock in chip cycles of the full service's. -/
def State.stretch (s : State) (t : Nat) : Nat := if t < s.now then t else s.now + 2 * (t - s.now)

/-- What waits for a time given in microseconds waits for it still (R1, R387). -/
def State.rescale (s : State) : State :=
  let ring (r : Nat × HostRing) : Nat × HostRing := (r.1, { r.2 with timer := r.2.timer.map s.stretch })
  let vf (f : Nat × Vf) : Nat × Vf := (f.1, { f.2 with rings := f.2.rings.map ring })
  let ho (h : HandOver) : HandOver := { h with deadline := s.stretch h.deadline }
  let moved (e : Nat × Ev) : Bool :=
    match e.2 with
    | .ringTimerExpiry _ _ | .afcUpdate | .handoverAbandon => true
    | _ => false
  -- a saved launch holds the chip cycles that it has run
  let launch (l : Launch) : Launch := if l.stage = .saved ∨ l.stage = .resuming then { l with since := 2 * l.since } else l
  let s1 : State :=
    { s with agenda := s.agenda.filter fun e => !moved e
             dev := { s.dev with vfs := s.dev.vfs.map vf, launches := s.dev.launches.map launch
                                 pf := { s.dev.pf with handover := s.dev.pf.handover.map ho } } }
  (s.agenda.filter moved).foldl (fun (t : State) e => t.schedule (s.stretch e.1) e.2) s1

/-- The clock becomes 3 GHz in one chip cycle. -/
def State.enterService (s : State) : State :=
  let t := s.ticks
  s.rescale.setPf fun p => { p with stage := 2, proof := false, closing := false, tickBase := t, tickAt := s.now }

/-- `FULL_SERVICE_ENTRY` (R387): from firmware's request on no launch starts; the service begins when no strand runs. -/
def execFullServiceEntry (s : State) : Host.Outcome State Fault Refusal :=
  .next (if !s.serviceReady then s
    else if s.strands.any fun e => e.2.mode != .ended then
      (s.setPf fun p => { p with closing := true }).schedule (s.now + 1) .fullServiceEntry
    else s.enterService)

end Sys2Proof.Machine
end

