-- ==== Sys2Proof/Machine/Pod.lean ====
section
/-! DEFINITION. The pod: start-up alignment (R380), Speat links and their resends (R378 to R382). -/

set_option linter.unusedVariables false

namespace Sys2Proof.Machine

/-! Alignment (R380). -/

/-- Whether the walk can have numbered this package so (R380): the root is package 0 and begins it, another one has its number from a
parent of a lower number over link `parent`, which is up, and every link that is up leads to a numbered package. -/
def State.numbered (s : State) (pkg npkg parent : Nat) : Bool :=
  let up := (List.range 18).filter fun l => (s.link l).state == 2
  decide (1 ≤ npkg ∧ npkg ≤ 64 ∧ pkg < npkg) && (s.dev.pf.root == decide (pkg = 0)) &&
    (pkg == 0 || (up.contains parent && decide ((s.link parent).peerPkg < pkg))) && (npkg == 1 || !up.isEmpty) &&
    up.all fun l => decide ((s.link l).peerPkg < npkg) && (s.link l).peerPkg != pkg

/-- `POD_ALIGNMENT` (R12, R380): the package's number and the pod's package count, and the chip cycle of reel 0 that the root's word
names, as it is read here on arrival: the links to the parent and the link to here have made it late by their LAT.
PKG is written once, and under no launch that has a strand (R12). -/
def execPodAlignment (pkg npkg : Nat) (walk : AlignWalk) (s : State) : Host.Outcome State Fault Refusal :=
  let lag := if pkg = 0 then 0 else walk.path + (s.link walk.parent).lat
  .next (if s.dev.pf.aligned ∨ s.dev.pf.placed ∨ !s.numbered pkg npkg walk.parent ∨ walk.named < lag then s
    else if s.handlerHeld 6 || s.strands.any (fun e => e.2.mode != .ended) ||
        s.dev.launches.any (fun l => l.stage == .saved || l.stage == .resuming) then
      s.schedule (s.now + 1) (.podAlignment pkg npkg walk)
    else
      ({ s with dev := { s.dev with pkg := pkg, npkg := npkg, reel := walk.named - lag } } : State).setPf fun p => { p with placed := true })

/-- `ALIGNMENT_RELEASE` (R380): DONE is set, once the package is numbered and its reel runs with the pod's. -/
def execAlignmentRelease (s : State) : Host.Outcome State Fault Refusal :=
  .next (if s.dev.pf.placed then (s.setPf fun p => { p with aligned := true }).offerService else s)

/-! Links. -/

/-- `SPEAT_LINK_TRAINED` (R381): a link in training is up, with its latency and far end. -/
def execSpeatLinkTrained (l lat peerPkg peerLink : Nat) (s : State) : Host.Outcome State Fault Refusal :=
  .next (if 18 ≤ l ∨ (s.link l).state ≠ 1 then s
    else s.setLink l fun k =>
      { k with state := 2, lat := lat % 2 ^ 12, peerPkg := peerPkg % 64, peerLink := peerLink % 32 })

/-- A link goes down, which the PF's log notes (R382); what is under way on it is lost. -/
def State.linkDown (s : State) (l : Nat) : State :=
  (s.setLink l fun k => { k with state := 0, named := [], fails := [], held := [], parts := [], kept := [] }).logIgnored

/-- A flit that has failed its CRC: counted and named in the first flit of the reverse direction; with its third failure, or the
sixteenth within a reel, the link goes down. -/
def State.flitFailed (s : State) (l : Nat) : State :=
  let k := s.link l
  let n := s.flitNow l
  let f := k.failure n
  let m := if k.reel = s.reelNow then k.reelFails + 1 else 1
  let s1 := s.setLink l fun k =>
    { k with uncor := k.uncor + 1, reel := s.reelNow, reelFails := m, notice := some (s.now + 4, flitPair n + 1, flitReel n % 16)
             fails := (k.fails.filter fun e => e.sent + 224 * k.retry != n) ++ [f] }
  if 3 ≤ f.count ∨ 16 ≤ m then s1.linkDown l else s1

/-- A packet that has come over a link goes on to its core: a fixed number of chip cycles for a circuit, which is left open. -/
def State.bringIn (s : State) (x : Nat) (bs : List Byte) : State :=
  let c := flCore x
  let p : Packet := { id := s.fresh, kind := 0, bytes := bs, off := 0, strand := 0, cmd := 0, last := false, ready := s.now }
  let e := s.slotEntry c (flSlot x)
  if bit e 31 && bit e 30 && bit e 29 then
    (s.tick.setCircuit c (flSlot x) fun d => { d with fly := d.fly ++ [p] }).schedule (s.now + Config.inwardHop (c * 256 + flSlot x))
      (.packetArrive c (flSlot x) p.id)
  else s

/-- A circuit's flit is passed on: a packet in one, or the second of two with what the first brought (R378, R379). What trees, alignment
and control carry stands outside the machine (DESIGN CHOICE: the spec gives their payloads no layout). -/
def State.passFlit (s : State) (l x : Nat) : State :=
  let k := s.link l
  if flKind x ≠ 1 then s
  else
    match flPart x with
    | 0 => s.bringIn x (flPayload x)
    | 1 => s.setLink l fun k => { k with parts := mset (flPair x) (flPayload x) k.parts }
    | 2 =>
      match mget (flPair x) k.parts with
      | some b => (s.setLink l fun k => { k with parts := mdel (flPair x) k.parts }).bringIn x (b ++ flPayload x)
      | none => s
    | _ => s

/-- A flit that has passed its CRC: it is passed on, unless a failed one of its pair is to be sent again before it (R382). -/
def State.flitPassed (s : State) (l x : Nat) : State :=
  let n := s.flitNow l
  if (s.link l).repeated n x then s
  else
    let r := ((s.link l).take n x).release
    r.1.foldl (fun (s : State) x => s.passFlit l x) (s.setLink l fun _ => r.2)

/-- `FLIT_RECEIVE` (R378, R381, R382): the 256 bytes that a link has brought, as its lane code leaves them. A retry notice in the header
reaches the sender; a flit of no kind, or whose pair is not that of its place in the reel, is discarded (DESIGN CHOICE of the latter). -/
def execFlitReceive (l head payload crc : Nat) (corrected : Bool) (s : State) : Host.Outcome State Fault Refusal :=
  let flit := flitOf head payload crc
  .next (if (s.link l).state ≠ 2 then s
    else
      let s1 := s.setLink l fun k => { k with corr := if corrected then k.corr + 1 else k.corr }
      if !flGood flit then s1.flitFailed l
      else if 4 < flKind flit ∨ flPair flit ≠ flitPair (s.flitNow l) then s1
      else
        let s2 := s1.flitPassed l flit
        if 1 ≤ flRetry flit ∧ flRetry flit ≤ 112 then s2.schedule s.now (.retryNotice l (flRetry flit - 1) (flRseq flit)) else s2)

/-- `RETRY_NOTICE` (R382): the named flit was sent in the latest reel with those four low bits in which its pair has had its turn;
it is due again D reels after. -/
def execRetryNotice (l pair rseq : Nat) (s : State) : Host.Outcome State Fault Refusal :=
  let k := s.link l
  let last := if s.pairTime pair s.reelNow ≤ s.now then s.reelNow else s.reelNow - 1
  let reel := last - (last + 16 - rseq % 16) % 16
  .next (if k.state ≠ 2 ∨ 112 ≤ pair ∨ k.named.contains (pair, reel) then s
    else
      (s.setLink l fun k => { k with named := k.named ++ [(pair, reel)] }).schedule
        (Nat.max s.now (s.pairTime pair (reel + k.retry))) (.flitResend l pair reel))

/-- `FLIT_RESEND` (R382): the flits that the pair carried in that reel leave again, and are kept from now on. -/
def execFlitResend (l pair reel : Nat) (s : State) : Host.Outcome State Fault Refusal :=
  .next (s.setLink l fun k => { k.resend pair reel with named := k.named.filter fun e => !(e.1 == pair && e.2 == reel) })

end Sys2Proof.Machine
end

