-- ==== Sys2Proof/Machine/Health.lean ====
section
/-! DEFINITION. Soft errors (R346, R383, R384) and temperature (R395). -/

set_option linter.unusedVariables false

namespace Sys2Proof.Machine

/-- `SOFT_ERROR_CORRECTED` (R383, R384): places 0 to 15 are the stacks, 16 is on-chip storage; every 4,096th is logged. -/
def execSoftErrorCorrected (place : Nat) (s : State) : Host.Outcome State Fault Refusal :=
  let n := (mget place s.dev.pf.soft).getD 0 + 1
  let s1 := s.setPf fun p => { p with soft := mset place n p.soft }
  .next (if 16 < place then s else if n % 4096 = 0 then s1.logPf 4 (ascii2 'S' 'E') 1 place 0 n else s1)

/-- Whether the stage-2 tables from a table on map a physical address (R348). -/
def State.mapsPa (s : State) (pa : Nat) : Nat → Nat → Nat → Bool
  | 0, _, _ => false
  | fuel + 1, level, table =>
    (List.range 512).any fun i =>
      match readEntry false true level (s.num .dram (table + 8 * i) 8) with
      | .ok (true, addr) => decide (addr ≤ pa) && decide (pa < addr + 2 ^ levelSize level)
      | .ok (false, addr) => s.mapsPa pa fuel (level + 1) addr
      | .error _ => false

/-- The VF that a unit belongs to, or 0xFF (R384): of a core its tenant, of a stack byte the VF whose tables map it. -/
def State.unitOwner (s : State) (chip : Bool) (addr : Nat) : Nat :=
  ((s.dev.vfs.find? fun f => if chip then s.inTenant f.1 (addr / 2 ^ 21) else s.mapsPa addr 4 0 f.2.s2root).map Prod.fst).getD 255

/-- Whether a save under way reads or writes a unit: dirty pieces that the strand holds, its context page, or the pages that its image
takes up (R342, R343, R346). -/
def State.saveTouches (s : State) (l : Launch) (x : Nat) (chip : Bool) (addr : Nat) : Bool :=
  let t := s.strandAt x
  let off := addr % 2 ^ 21
  if chip then
    coreOf x == addr / 2 ^ 21 &&
      ((decide (0x130000 ≤ off) && off / 0x1000 == 0x130 + x % 16) ||
        ((s.coreAt (coreOf x)).dirty.filter (holdsPiece t.banks t.ctx.owna.toNat)).any fun p =>
          (pieceRanges p).any fun r => decide (r.1 ≤ off) && decide (off < r.1 + r.2))
  else (s.imageParts l x).any fun p => decide (p.1 / 8 ≤ addr / 8) && decide (addr / 8 * 8 < p.1 + p.2)

/-- The ranks of saves that an uncorrectable error hits. -/
def State.noteLost (s : State) (chip : Bool) (addr : Nat) : State :=
  let note (l : Launch) : Launch :=
    if l.stage = .saving then
      { l with lost := l.lost ++
          ((l.members.filter fun x => !l.ended.contains x && s.saveTouches l x chip addr).map fun x => (s.strandAt x).rank) }
    else l
  { s with dev := { s.dev with launches := s.dev.launches.map note } }

/-- The bytes of a packet that lie in its 8-byte unit `u`, besides those that carry a mark. -/
def struck (bs : List Byte) (bad : List Nat) (u : Nat) : List Nat :=
  bad ++ ((List.range 8).map (8 * u + ·)).filter fun i => decide (i < bs.length) && !bad.contains i

/-- A unit of a packet in a router buffer struck (R383): of the `k`-th in the receive buffer of a core's slot, and behind those of the
packets that are on their way there. -/
def State.strikePacket (s : State) (core slot k u : Nat) : State :=
  s.setCircuit core slot fun c =>
    match c.buffer[k]? with
    | some bs =>
      let marks := (List.range c.buffer.length).map fun i => c.bufBad.getD i []
      { c with bufBad := marks.set k (struck bs (marks.getD k []) u) }
    | none =>
      { c with fly := c.fly.zipIdx.map fun p =>
          if p.2 + c.buffer.length = k then { p.1 with bad := struck p.1.bytes p.1.bad u } else p.1 }

/-- `SOFT_ERROR_UNCORRECTABLE` (R359, R383, R384): space 0 is on-chip storage, as core · 2^21 + window offset, space 2 the router
buffers, as core, slot, the packet's place and its unit in 8, 8, 3 and 5 bits, any other a stack address. -/
def execSoftErrorUncorrectable (space addr : Nat) (s : State) : Host.Outcome State Fault Refusal :=
  let chip := decide (space = 0)
  let core := addr / 2 ^ 16
  .next (if space = 2 then
      if 256 ≤ core then s
      else (s.strikePacket core (addr / 2 ^ 8 % 256) (addr / 2 ^ 5 % 8) (addr % 32)).logPf 4 (ascii2 'S' 'E') 2 0 0
        (s.unitOwner true (core * 2 ^ 21))
    else if chip ∧ 2 ^ 29 ≤ addr then s
    else
      ((s.mark (if chip then .chip else .dram) addr).logPf 4 (ascii2 'S' 'E') 2 0 (if chip then addr % 2 ^ 21 else addr)
        (s.unitOwner chip addr)).noteLost chip addr)

/-- `THERMAL_WARN` (R395). -/
def execThermalWarn (die : Nat) (s : State) : Host.Outcome State Fault Refusal :=
  .next (if 4 ≤ die then s
    else (s.setPf fun p => { p with warn := p.warn ||| 2 ^ die, warmAt := some s.now }).logPf 255 (ascii2 'T' 'H') 1 0 0 die)

end Sys2Proof.Machine
end

