-- ==== Sys2Proof/Machine/Firmware.lean ====
section
/-! DEFINITION. The firmware mailbox (R389, R390), hand-over (R388, R391), the measurement log (R393), identity and quotes
(R392, R394). -/

set_option linter.unusedVariables false

namespace Sys2Proof.Machine

/-! The measurement log (R393). -/

/-- Exactly `n` bytes of a list. -/
def padTo (n : Nat) (bs : List Byte) : List Byte := bs.take n ++ List.replicate (n - bs.length) 0

/-- SHAKE256 with 64 bytes of output. -/
def digestOf (bs : List Byte) : List Byte := padTo 64 (Config.shake256 bs 64)

/-- Entry 0 measures the ROM. -/
def romEntry : LogEntry :=
  { kind := 1, version := Config.romVersion.toNat, secver := Config.romSecver.toNat, digest := Config.romDigest.toNat }

/-- The log's entries; the ROM's is always the first. -/
def Pf.entries (p : Pf) : List LogEntry := romEntry :: p.mlog

/-- The 80 bytes of entry `n`. -/
def LogEntry.bytes (e : LogEntry) (n : Nat) : List Byte :=
  leBytes 80 (packFields [(8, e.kind), (16, e.version % 2 ^ 16), (16, e.secver % 2 ^ 16), (24, 0), (32, n % 2 ^ 32), (32, 0),
    (512, e.digest % 2 ^ 512)])

/-- An entry appended; the log holds at most 256. -/
def Pf.append (p : Pf) (e : LogEntry) : Pf := if 256 ≤ p.entries.length then p else { p with mlog := p.mlog ++ [e] }

/-- The running value over the entries (R393). -/
def runningHash (es : List LogEntry) : List Byte :=
  es.zipIdx.foldl (fun h e => digestOf (h ++ e.1.bytes e.2)) (List.replicate 64 0)

/-! The mailbox (R390). -/

/-- The command ends: done, or refused for a reason, which the PF's log notes. -/
def State.fwDone (s : State) : State := s.setPf fun p => { p with fwst := 2 + p.fwst / 4 % 2 * 4 }

def State.fwRefuse (s : State) (reason : Nat) : State :=
  (s.setPf fun p => { p with fwst := 3 + p.fwst / 4 % 2 * 4 + reason * 256 }).logPf 3 (ascii2 'F' 'W') 1 0 0 reason

/-! Supplements (R389, R390). -/

def suMagic (h : Nat) : Nat := bits h 511 480
def suVersion (h : Nat) : Nat := bits h 479 464
def suSecver (h : Nat) : Nat := bits h 463 448
def suHmask (h : Nat) : Nat := bits h 447 384
def suLen (h : Nat) : Nat := bits h 383 360

/-- The reason that refuses an image, of the first check that fails. -/
def State.loadRefused (s : State) (img : List Byte) : Option Nat :=
  let p := s.dev.pf
  let h := leNat (img.take 64)
  if suMagic h ≠ 0x31505553 ∨ bits h 359 0 ≠ 0 then some 1
  else if p.fwlen ≠ 64 + suLen h + 114 then some 2
  else if !Config.ed448Verify (img.take (64 + suLen h)) (img.drop (64 + suLen h)) then some 3
  else if suSecver h < Config.fusedSecver.toNat then some 4
  else if suHmask h = 0 ∨ 256 ≤ suHmask h then some 5
  else if p.handover.isSome then some 6
  else if 256 ≤ p.entries.length then some 7
  else none

/-- `FWCMD_LOAD` (R390, R391): the hand-over is pending for at most 100 ms. -/
def execFwcmdLoad (s : State) : Host.Outcome State Fault Refusal :=
  let img := s.bytes .host s.dev.pf.fwaddr s.dev.pf.fwlen
  let h := leNat (img.take 64)
  let dig := leNat (digestOf img)
  let at_ := s.now + s.cyclesOf 100000
  .next (match s.loadRefused img with
    | some r => s.fwRefuse r
    | none =>
      (((s.fwDone.setPf fun p =>
        { p.append { kind := 2, version := suVersion h, secver := suSecver h, digest := dig } with
          handover := some { version := suVersion h, secver := suSecver h, hmask := suHmask h, digest := dig, deadline := at_ } }).schedule
            s.now .handoverCommit).schedule at_ .handoverAbandon))

/-! Hand-over (R391). -/

/-- Whether a handler runs on a compositor or on the hub (R388); what is one event of the model never runs between two. -/
def State.handlerRuns (s : State) (h : Nat) : Bool :=
  let stage (f : LaunchStage → Bool) : Bool := s.dev.launches.any fun l => f l.stage
  match h with
  | 1 => stage fun g => g == .prologue || g == .staging || g == .admission || g == .loading
  | 2 => stage fun g => g == .staging
  | 3 => stage fun g => g == .saving || g == .stopping || g == .resuming
  | 4 => (List.range 16).any fun k => (s.dev.stk k).state == 2 || (s.dev.stk k).state == 4
  | 5 => s.dev.pf.retire.isSome
  | 6 => s.dev.pf.placed && !s.dev.pf.aligned
  | 7 => s.dev.vfs.any fun f => f.2.prst != 0
  | _ => false

/-- The commit, one instant. -/
def State.commit (s : State) (h : HandOver) : State :=
  (s.setPf fun p =>
    { p.append { kind := 3, version := h.version, secver := h.secver, digest := h.digest } with
      handover := none, supver := h.version, hmask := h.hmask }).logPf 3 (ascii2 'F' 'W') 2 0 0 h.version

/-- `HANDOVER_COMMIT` (R391): at the first quiescent point. -/
def execHandoverCommit (s : State) : Host.Outcome State Fault Refusal :=
  .next (match s.dev.pf.handover with
    | none => s
    | some h =>
      if (List.range 8).any fun k => bit h.hmask k && s.handlerRuns k then s.schedule (s.now + 1) .handoverCommit
      else s.commit h)

/-- `HANDOVER_ABANDON` (R391). -/
def execHandoverAbandon (s : State) : Host.Outcome State Fault Refusal :=
  .next (match s.dev.pf.handover with
    | some h =>
      if h.deadline ≤ s.now then
        (s.setPf fun p =>
          { p.append { kind := 4, version := h.version, secver := h.secver, digest := h.digest } with handover := none }).logPf
            3 (ascii2 'F' 'W') 3 0 0 0
      else s
    | none => s)

/-! Identity and attestation (R392, R394). -/

def asciiBytes (cs : List Char) : List Byte := cs.map fun c => BitVec.ofNat 8 c.toNat

/-- The seeds of the device identity key and of the attestation key. -/
def identitySeed : List Byte := Config.shake256 (Config.deviceSecret ++ asciiBytes ['O', 'X', '9', '-', 'D', 'I', 'K']) 57
def attestationSeed : List Byte :=
  Config.shake256 (Config.deviceSecret ++ leBytes 64 Config.romDigest.toNat ++ asciiBytes ['O', 'X', '9', '-', 'A', 'K']) 57

/-- Bytes 114 to 319 of a quote: what is signed. -/
def Pf.quoteBody (p : Pf) (nonce : Nat) : List Byte :=
  let es := p.entries
  let auth := ((es.filter fun e => e.kind == 3).getLast?.map LogEntry.digest).getD Config.romDigest.toNat
  let supp := p.hmask != 0
  leBytes 206 (packFields [(32, 0x3151584F), (8, b2n supp), (16, if supp then p.supver else Config.romVersion.toNat), (8, 0),
    (32, es.length), (512, auth), (512, leNat (runningHash es)), (256, nonce), (272, 0)])

/-- `FWCMD_QUOTE` (R390, R394). -/
def execFwcmdQuote (s : State) : Host.Outcome State Fault Refusal :=
  let p := s.dev.pf
  let body := p.quoteBody (s.num .host p.fwaddr 32)
  let sig := (Config.ed448Sign attestationSeed body).toNat
  .next (s.write .host p.fwaddr (leBytes 114 sig ++ body)).fwDone

/-- `FWCMD_LOG` (R390). -/
def execFwcmdLog (s : State) : Host.Outcome State Fault Refusal :=
  let p := s.dev.pf
  .next (if p.fwlen < 80 * p.entries.length then s.fwRefuse 2
    else (s.write .host p.fwaddr (p.entries.zipIdx.flatMap fun e => e.1.bytes e.2)).fwDone)

/-- `FWCMD_CERT` (R390, R392): as much of the two certificates as the buffer holds. -/
def execFwcmdCert (s : State) : Host.Outcome State Fault Refusal :=
  let p := s.dev.pf
  let certs := Config.identityCert ++ Config.attestationCert (Config.ed448Public attestationSeed) identitySeed
  .next (s.write .host p.fwaddr (certs.take p.fwlen)).fwDone

end Sys2Proof.Machine
end

