-- ==== Sys2Proof/Machine/Dispatch.lean ====
section
/-! DEFINITION. The meaning of every instruction, stick-code word and event: one direct call each. -/

namespace Sys2Proof.Machine

def exec (i : Instr) (s : State) : Host.Outcome State Fault Refusal :=
  match i with
  | .nop e h g => Sys2Proof.Machine.execNop e h g s
  | .halt e h g => Sys2Proof.Machine.execHalt e h g s
  | .lbr e h l => Sys2Proof.Machine.execLbr e h l s
  | .rlbr e h l => Sys2Proof.Machine.execRlbr e h l s
  | .brk h code => Sys2Proof.Machine.execBrk h code s
  | .add h b => Sys2Proof.Machine.execAdd h b s
  | .sub h b => Sys2Proof.Machine.execSub h b s
  | .and h b => Sys2Proof.Machine.execAnd h b s
  | .or h b => Sys2Proof.Machine.execOr h b s
  | .xor h b => Sys2Proof.Machine.execXor h b s
  | .andn h b => Sys2Proof.Machine.execAndn h b s
  | .shl h b => Sys2Proof.Machine.execShl h b s
  | .shr h b => Sys2Proof.Machine.execShr h b s
  | .sar h b => Sys2Proof.Machine.execSar h b s
  | .min h b => Sys2Proof.Machine.execMin h b s
  | .max h b => Sys2Proof.Machine.execMax h b s
  | .sel h b => Sys2Proof.Machine.execSel h b s
  | .li h b => Sys2Proof.Machine.execLi h b s
  | .lih h b => Sys2Proof.Machine.execLih h b s
  | .clz h b => Sys2Proof.Machine.execClz h b s
  | .popc h b => Sys2Proof.Machine.execPopc h b s
  | .ceq h b => Sys2Proof.Machine.execCeq h b s
  | .cne h b => Sys2Proof.Machine.execCne h b s
  | .clt h b => Sys2Proof.Machine.execClt h b s
  | .cle h b => Sys2Proof.Machine.execCle h b s
  | .ctst h b => Sys2Proof.Machine.execCtst h b s
  | .fceq h b => Sys2Proof.Machine.execFceq h b s
  | .fclt h b => Sys2Proof.Machine.execFclt h b s
  | .fcle h b => Sys2Proof.Machine.execFcle h b s
  | .fcun h b => Sys2Proof.Machine.execFcun h b s
  | .pand h b => Sys2Proof.Machine.execPand h b s
  | .por h b => Sys2Proof.Machine.execPor h b s
  | .pxor h b => Sys2Proof.Machine.execPxor h b s
  | .ppack h b => Sys2Proof.Machine.execPpack h b s
  | .punpack h b => Sys2Proof.Machine.execPunpack h b s
  | .mul h b => Sys2Proof.Machine.execMul h b s
  | .mulh h b => Sys2Proof.Machine.execMulh h b s
  | .mad h b => Sys2Proof.Machine.execMad h b s
  | .dp4 h b => Sys2Proof.Machine.execDp4 h b s
  | .fadd h b => Sys2Proof.Machine.execFadd h b s
  | .fsub h b => Sys2Proof.Machine.execFsub h b s
  | .fmul h b => Sys2Proof.Machine.execFmul h b s
  | .fma h b => Sys2Proof.Machine.execFma h b s
  | .fmin h b => Sys2Proof.Machine.execFmin h b s
  | .fmax h b => Sys2Proof.Machine.execFmax h b s
  | .fabs h b => Sys2Proof.Machine.execFabs h b s
  | .fneg h b => Sys2Proof.Machine.execFneg h b s
  | .cvt h b => Sys2Proof.Machine.execCvt h b s
  | .lds h b => Sys2Proof.Machine.execLds h b s
  | .sts h b => Sys2Proof.Machine.execSts h b s
  | .ldg h b => Sys2Proof.Machine.execLdg h b s
  | .stg h b => Sys2Proof.Machine.execStg h b s
  | .aadd h b => Sys2Proof.Machine.execAadd h b s
  | .axchg h b => Sys2Proof.Machine.execAxchg h b s
  | .acas h b => Sys2Proof.Machine.execAcas h b s
  | .amax h b => Sys2Proof.Machine.execAmax h b s
  | .fence h b => Sys2Proof.Machine.execFence h b s
  | .waita h b => Sys2Proof.Machine.execWaita h b s
  | .spl h b => Sys2Proof.Machine.execSpl h b s
  | .sps h b => Sys2Proof.Machine.execSps h b s
  | .semadd h b => Sys2Proof.Machine.execSemadd h b s
  | .semrd h b => Sys2Proof.Machine.execSemrd h b s
  | .jmp h b => Sys2Proof.Machine.execJmp h b s
  | .jmpr h b => Sys2Proof.Machine.execJmpr h b s
  | .call h b => Sys2Proof.Machine.execCall h b s
  | .callr h b => Sys2Proof.Machine.execCallr h b s
  | .ret h b => Sys2Proof.Machine.execRet h b s
  | .lset h b => Sys2Proof.Machine.execLset h b s
  | .idem h b => Sys2Proof.Machine.execIdem h b s
  | .mfc h b => Sys2Proof.Machine.execMfc h b s
  | .mtc h b => Sys2Proof.Machine.execMtc h b s
  | .setg h b => Sys2Proof.Machine.execSetg h b s
  | .sett h b => Sys2Proof.Machine.execSett h b s
  | .swi h b => Sys2Proof.Machine.execSwi h b s
  | .tret h b => Sys2Proof.Machine.execTret h b s
  | .vadd h b => Sys2Proof.Machine.execVadd h b s
  | .vsub h b => Sys2Proof.Machine.execVsub h b s
  | .vfma h b => Sys2Proof.Machine.execVfma h b s
  | .vmul h b => Sys2Proof.Machine.execVmul h b s
  | .vmin h b => Sys2Proof.Machine.execVmin h b s
  | .vmax h b => Sys2Proof.Machine.execVmax h b s
  | .vabs h b => Sys2Proof.Machine.execVabs h b s
  | .vneg h b => Sys2Proof.Machine.execVneg h b s
  | .vand h b => Sys2Proof.Machine.execVand h b s
  | .vor h b => Sys2Proof.Machine.execVor h b s
  | .vxor h b => Sys2Proof.Machine.execVxor h b s
  | .vshl h b => Sys2Proof.Machine.execVshl h b s
  | .vshr h b => Sys2Proof.Machine.execVshr h b s
  | .vsar h b => Sys2Proof.Machine.execVsar h b s
  | .vmov h b => Sys2Proof.Machine.execVmov h b s
  | .vclamp h b => Sys2Proof.Machine.execVclamp h b s
  | .vfill h b => Sys2Proof.Machine.execVfill h b s
  | .vmad h b => Sys2Proof.Machine.execVmad h b s
  | .viota h b => Sys2Proof.Machine.execViota h b s
  | .vceq h b => Sys2Proof.Machine.execVceq h b s
  | .vcne h b => Sys2Proof.Machine.execVcne h b s
  | .vclt h b => Sys2Proof.Machine.execVclt h b s
  | .vcle h b => Sys2Proof.Machine.execVcle h b s
  | .vcun h b => Sys2Proof.Machine.execVcun h b s
  | .vsel h b => Sys2Proof.Machine.execVsel h b s
  | .vcvt h b => Sys2Proof.Machine.execVcvt h b s
  | .vdp4 h b => Sys2Proof.Machine.execVdp4 h b s
  | .vrsum h b => Sys2Proof.Machine.execVrsum h b s
  | .vrmax h b => Sys2Proof.Machine.execVrmax h b s
  | .vrmin h b => Sys2Proof.Machine.execVrmin h b s
  | .vrarg h b => Sys2Proof.Machine.execVrarg h b s
  | .vscan h b => Sys2Proof.Machine.execVscan h b s
  | .vperm h b => Sys2Proof.Machine.execVperm h b s
  | .vbcast h b => Sys2Proof.Machine.execVbcast h b s
  | .vgthl h b => Sys2Proof.Machine.execVgthl h b s
  | .vrev h b => Sys2Proof.Machine.execVrev h b s
  | .vqmax h b => Sys2Proof.Machine.execVqmax h b s
  | .vqcvt h b => Sys2Proof.Machine.execVqcvt h b s
  | .dld h b => Sys2Proof.Machine.execDld h b s
  | .dsto h b => Sys2Proof.Machine.execDsto h b s
  | .dadd h b => Sys2Proof.Machine.execDadd h b s
  | .dsub h b => Sys2Proof.Machine.execDsub h b s
  | .dmul h b => Sys2Proof.Machine.execDmul h b s
  | .dmax h b => Sys2Proof.Machine.execDmax h b s
  | .dmin h b => Sys2Proof.Machine.execDmin h b s
  | .daff h b => Sys2Proof.Machine.execDaff h b s
  | .dmix h b => Sys2Proof.Machine.execDmix h b s
  | .dsmp h b => Sys2Proof.Machine.execDsmp h b s
  | .dcond h b => Sys2Proof.Machine.execDcond h b s
  | .dmom h b => Sys2Proof.Machine.execDmom h b s
  | .dqnt h b => Sys2Proof.Machine.execDqnt h b s
  | .dlinSet h b => Sys2Proof.Machine.execDlinSet h b s
  | .dlinGet h b => Sys2Proof.Machine.execDlinGet h b s
  | .frcp h b => Sys2Proof.Machine.execFrcp h b s
  | .fsqrt h b => Sys2Proof.Machine.execFsqrt h b s
  | .frcpe h b => Sys2Proof.Machine.execFrcpe h b s
  | .frsqe h b => Sys2Proof.Machine.execFrsqe h b s
  | .fexp2 h b => Sys2Proof.Machine.execFexp2 h b s
  | .flog2 h b => Sys2Proof.Machine.execFlog2 h b s
  | .fsin h b => Sys2Proof.Machine.execFsin h b s
  | .fcos h b => Sys2Proof.Machine.execFcos h b s
  | .ftanh h b => Sys2Proof.Machine.execFtanh h b s
  | .ferf h b => Sys2Proof.Machine.execFerf h b s
  | .fscl h b => Sys2Proof.Machine.execFscl h b s
  | .fxtrExp h b => Sys2Proof.Machine.execFxtrExp h b s
  | .fxtrMan h b => Sys2Proof.Machine.execFxtrMan h b s
  | .frnd h b => Sys2Proof.Machine.execFrnd h b s
  | .fcls h b => Sys2Proof.Machine.execFcls h b s
  | .fcvt h b => Sys2Proof.Machine.execFcvt h b s
  | .fmov h b => Sys2Proof.Machine.execFmov h b s
  | .fsgn h b => Sys2Proof.Machine.execFsgn h b s
  | .fmag h b => Sys2Proof.Machine.execFmag h b s
  | .mmi h b => Sys2Proof.Machine.execMmi h b s
  | .mma h b => Sys2Proof.Machine.execMma h b s
  | .mmih h b => Sys2Proof.Machine.execMmih h b s
  | .mmah h b => Sys2Proof.Machine.execMmah h b s
  | .gmmi h b => Sys2Proof.Machine.execGmmi h b s
  | .gmma h b => Sys2Proof.Machine.execGmma h b s
  | .gmmih h b => Sys2Proof.Machine.execGmmih h b s
  | .gmmah h b => Sys2Proof.Machine.execGmmah h b s
  | .mhad h b => Sys2Proof.Machine.execMhad h b s
  | .mtrn h b => Sys2Proof.Machine.execMtrn h b s
  | .mtcv h b => Sys2Proof.Machine.execMtcv h b s
  | .mqnt h b => Sys2Proof.Machine.execMqnt h b s
  | .mhadq h b => Sys2Proof.Machine.execMhadq h b s
  | .mdrb h b => Sys2Proof.Machine.execMdrb h b s
  | .mdrt h b => Sys2Proof.Machine.execMdrt h b s
  | .mdrs h b => Sys2Proof.Machine.execMdrs h b s
  | .mclr h b => Sys2Proof.Machine.execMclr h b s
  | .macpCpy h b => Sys2Proof.Machine.execMacpCpy h b s
  | .macpAdd h b => Sys2Proof.Machine.execMacpAdd h b s
  | .mtld h b => Sys2Proof.Machine.execMtld h b s
  | .mtst h b => Sys2Proof.Machine.execMtst h b s
  | .cpy h b => Sys2Proof.Machine.execCpy h b s
  | .cfill h b => Sys2Proof.Machine.execCfill h b s
  | .cprm h b => Sys2Proof.Machine.execCprm h b s
  | .cpt h b => Sys2Proof.Machine.execCpt h b s
  | .cpf h b fo => Sys2Proof.Machine.execCpf h b fo s
  | .gth h b => Sys2Proof.Machine.execGth h b s
  | .sct h b => Sys2Proof.Machine.execSct h b s
  | .wstr h b => Sys2Proof.Machine.execWstr h b s
  | .hbind h b => Sys2Proof.Machine.execHbind h b s
  | .hfree h b => Sys2Proof.Machine.execHfree h b s
  | .rowopn h b => Sys2Proof.Machine.execRowopn h b s
  | .rowpin h b => Sys2Proof.Machine.execRowpin h b s
  | .rowrel h b => Sys2Proof.Machine.execRowrel h b s
  | .rowrd h b => Sys2Proof.Machine.execRowrd h b s
  | .rowwr h b => Sys2Proof.Machine.execRowwr h b s
  | .rowst h b => Sys2Proof.Machine.execRowst h b s
  | .scnthr h b => Sys2Proof.Machine.execScnthr h b s
  | .scngo h b => Sys2Proof.Machine.execScngo h b s
  | .scnrd h b => Sys2Proof.Machine.execScnrd h b s
  | .scnstp h b => Sys2Proof.Machine.execScnstp h b s
  | .scnst h b => Sys2Proof.Machine.execScnst h b s
  | .nsnd h b => Sys2Proof.Machine.execNsnd h b s
  | .nrcv h b => Sys2Proof.Machine.execNrcv h b s
  | .nput h b => Sys2Proof.Machine.execNput h b s
  | .nget h b => Sys2Proof.Machine.execNget h b s
  | .bar h b => Sys2Proof.Machine.execBar h b s
  | .bara h b => Sys2Proof.Machine.execBara h b s
  | .barw h b => Sys2Proof.Machine.execBarw h b s
  | .ared h b => Sys2Proof.Machine.execAred h b s
  | .rscat h b => Sys2Proof.Machine.execRscat h b s
  | .agth h b => Sys2Proof.Machine.execAgth h b s
  | .bcst h b => Sys2Proof.Machine.execBcst h b s
  | .xsnd h b => Sys2Proof.Machine.execXsnd h b s
  | .xrcv h b => Sys2Proof.Machine.execXrcv h b s
  | .xred h b => Sys2Proof.Machine.execXred h b s
  | .nflsh h b => Sys2Proof.Machine.execNflsh h b s
  | .nstat h b => Sys2Proof.Machine.execNstat h b s
  | .stickEnd => Sys2Proof.Machine.execStickEnd s
  | .stickLi d imm => Sys2Proof.Machine.execStickLi d imm s
  | .stickLhi d a imm => Sys2Proof.Machine.execStickLhi d a imm s
  | .stickAdd d a b => Sys2Proof.Machine.execStickAdd d a b s
  | .stickAddi d a imm => Sys2Proof.Machine.execStickAddi d a imm s
  | .stickSub d a b => Sys2Proof.Machine.execStickSub d a b s
  | .stickAnd d a b => Sys2Proof.Machine.execStickAnd d a b s
  | .stickOr d a b => Sys2Proof.Machine.execStickOr d a b s
  | .stickXor d a b => Sys2Proof.Machine.execStickXor d a b s
  | .stickShl d a n => Sys2Proof.Machine.execStickShl d a n s
  | .stickShr d a n => Sys2Proof.Machine.execStickShr d a n s
  | .stickMul d a b => Sys2Proof.Machine.execStickMul d a b s
  | .stickDivu d a b => Sys2Proof.Machine.execStickDivu d a b s
  | .stickMinu d a b => Sys2Proof.Machine.execStickMinu d a b s
  | .stickMaxu d a b => Sys2Proof.Machine.execStickMaxu d a b s
  | .stickLd d a w off => Sys2Proof.Machine.execStickLd d a w off s
  | .stickSt d a w off => Sys2Proof.Machine.execStickSt d a w off s
  | .stickLrd d ix => Sys2Proof.Machine.execStickLrd d ix s
  | .stickLwr a ix => Sys2Proof.Machine.execStickLwr a ix s
  | .stickBz a imm => Sys2Proof.Machine.execStickBz a imm s
  | .stickBnz a imm => Sys2Proof.Machine.execStickBnz a imm s
  | .stickBltu a b off => Sys2Proof.Machine.execStickBltu a b off s
  | .stickLoop a imm => Sys2Proof.Machine.execStickLoop a imm s
  | .stickCancel => Sys2Proof.Machine.execStickCancel s
  | .stickRept a => Sys2Proof.Machine.execStickRept a s
  | .stickClk d => Sys2Proof.Machine.execStickClk d s
  | .landing x => Sys2Proof.Machine.execLanding x s
  | .variableLatencyArrival x id => Sys2Proof.Machine.execVariableLatencyArrival x id s
  | .stallWatchdogExpiry x => Sys2Proof.Machine.execStallWatchdogExpiry x s
  | .holdReleaseResume x src => Sys2Proof.Machine.execHoldReleaseResume x src s
  | .debugHaltRequest x => Sys2Proof.Machine.execDebugHaltRequest x s
  | .sclkCompareMatch x => Sys2Proof.Machine.execSclkCompareMatch x s
  | .interruptTaken x => Sys2Proof.Machine.execInterruptTaken x s
  | .streamStart x e => Sys2Proof.Machine.execStreamStart x e s
  | .streamGroupRead x e => Sys2Proof.Machine.execStreamGroupRead x e s
  | .streamGroupWrite x => Sys2Proof.Machine.execStreamGroupWrite x s
  | .matrixWordStart x => Sys2Proof.Machine.execMatrixWordStart x s
  | .matrixDelivery x => Sys2Proof.Machine.execMatrixDelivery x s
  | .handleWordServe x id => Sys2Proof.Machine.execHandleWordServe x id s
  | .heldCommandTrap x => Sys2Proof.Machine.execHeldCommandTrap x s
  | .commandCompletion x id => Sys2Proof.Machine.execCommandCompletion x id s
  | .flagWrite x id => Sys2Proof.Machine.execFlagWrite x id s
  | .strandEnd x => Sys2Proof.Machine.execStrandEnd x s
  | .windowWrite core off n val => Sys2Proof.Machine.execWindowWrite core off n val s
  | .windowRead core off n => Sys2Proof.Machine.execWindowRead core off n s
  | .contextWriteEffect x => Sys2Proof.Machine.execContextWriteEffect x s
  | .accessPerform x id => Sys2Proof.Machine.execAccessPerform x id s
  | .packetDepart core slot => Sys2Proof.Machine.execPacketDepart core slot s
  | .packetArrive core slot id => Sys2Proof.Machine.execPacketArrive core slot id s
  | .creditReturn core slot => Sys2Proof.Machine.execCreditReturn core slot s
  | .ngetRequestAccept core slot id => Sys2Proof.Machine.execNgetRequestAccept core slot id s
  | .barrierRelease gang level unit count => Sys2Proof.Machine.execBarrierRelease gang level unit count s
  | .collectiveComplete gang level unit ord => Sys2Proof.Machine.execCollectiveComplete gang level unit ord s
  | .holdBudgetExpiry x quoin => Sys2Proof.Machine.execHoldBudgetExpiry x quoin s
  | .refreshInterval ch bank => Sys2Proof.Machine.execRefreshInterval ch bank s
  | .temperatureCrossing stack hot => Sys2Proof.Machine.execTemperatureCrossing stack hot s
  | .regionWatchdogExpiry x => Sys2Proof.Machine.execRegionWatchdogExpiry x s
  | .rephasePointApply x => Sys2Proof.Machine.execRephasePointApply x s
  | .rephaseHoldEnd x => Sys2Proof.Machine.execRephaseHoldEnd x s
  | .strandStart x => Sys2Proof.Machine.execStrandStart x s
  | .doorbell q val => Sys2Proof.Machine.execDoorbell q val s
  | .joinNode q slot => Sys2Proof.Machine.execJoinNode q slot s
  | .launchNode q slot => Sys2Proof.Machine.execLaunchNode q slot s
  | .stagingComplete q slot => Sys2Proof.Machine.execStagingComplete q slot s
  | .repetitionStart q slot => Sys2Proof.Machine.execRepetitionStart q slot s
  | .launchComplete q slot => Sys2Proof.Machine.execLaunchComplete q slot s
  | .budgetExpiry q slot => Sys2Proof.Machine.execBudgetExpiry q slot s
  | .conditionalNode q slot => Sys2Proof.Machine.execConditionalNode q slot s
  | .loopNode q slot => Sys2Proof.Machine.execLoopNode q slot s
  | .hostSignalNode q slot => Sys2Proof.Machine.execHostSignalNode q slot s
  | .signalNode q slot => Sys2Proof.Machine.execSignalNode q slot s
  | .rephaseNode q slot => Sys2Proof.Machine.execRephaseNode q slot s
  | .cqprogWrite q val => Sys2Proof.Machine.execCqprogWrite q val s
  | .cqnprogWrite q val => Sys2Proof.Machine.execCqnprogWrite q val s
  | .cqerrRead q => Sys2Proof.Machine.execCqerrRead q s
  | .standbyFill core q slot => Sys2Proof.Machine.execStandbyFill core q slot s
  | .afcUpdate => Sys2Proof.Machine.execAfcUpdate s
  | .hrpostWrite vf ring val src orig => Sys2Proof.Machine.execHrpostWrite vf ring val src orig s
  | .ringRecordWrite vf ring => Sys2Proof.Machine.execRingRecordWrite vf ring s
  | .hrconsWrite vf ring val => Sys2Proof.Machine.execHrconsWrite vf ring val s
  | .hrctlWrite vf ring val => Sys2Proof.Machine.execHrctlWrite vf ring val s
  | .ringTimerExpiry vf ring => Sys2Proof.Machine.execRingTimerExpiry vf ring s
  | .hrstatRead vf ring => Sys2Proof.Machine.execHrstatRead vf ring s
  | .erlostRead vf => Sys2Proof.Machine.execErlostRead vf s
  | .s1inv vf val => Sys2Proof.Machine.execS1inv vf val s
  | .s2inv vf val => Sys2Proof.Machine.execS2inv vf val s
  | .invalidationComplete vf => Sys2Proof.Machine.execInvalidationComplete vf s
  | .walkComplete walk => Sys2Proof.Machine.execWalkComplete walk s
  | .tresumeResume vf val byPf => Sys2Proof.Machine.execTresumeResume vf val byPf s
  | .tresumeEnd vf val byPf => Sys2Proof.Machine.execTresumeEnd vf val byPf s
  | .vfquadsWrite vf val => Sys2Proof.Machine.execVfquadsWrite vf val s
  | .pstitchWrite vf val => Sys2Proof.Machine.execPstitchWrite vf val s
  | .vfslotsWrite vf word val => Sys2Proof.Machine.execVfslotsWrite vf word val s
  | .partitionReset vf val => Sys2Proof.Machine.execPartitionReset vf val s
  | .partitionResetClear vf => Sys2Proof.Machine.execPartitionResetClear vf s
  | .functionLevelReset vf => Sys2Proof.Machine.execFunctionLevelReset vf s
  | .hotReset => Sys2Proof.Machine.execHotReset s
  | .coldReset => Sys2Proof.Machine.execColdReset s
  | .warmReset => Sys2Proof.Machine.execWarmReset s
  | .stackTrainingComplete stack rate => Sys2Proof.Machine.execStackTrainingComplete stack rate s
  | .selfTestPass => Sys2Proof.Machine.execSelfTestPass s
  | .fullServiceEntry => Sys2Proof.Machine.execFullServiceEntry s
  | .pmreqPreempt val => Sys2Proof.Machine.execPmreqPreempt val s
  | .preemptSave q slot => Sys2Proof.Machine.execPreemptSave q slot s
  | .pmreqResume val => Sys2Proof.Machine.execPmreqResume val s
  | .cqsavnWrite q val => Sys2Proof.Machine.execCqsavnWrite q val s
  | .stkrateWrite stack val => Sys2Proof.Machine.execStkrateWrite stack val s
  | .retrainingComplete stack => Sys2Proof.Machine.execRetrainingComplete stack s
  | .chretWrite val => Sys2Proof.Machine.execChretWrite val s
  | .retirementDrainDone => Sys2Proof.Machine.execRetirementDrainDone s
  | .retirementCopyDone => Sys2Proof.Machine.execRetirementCopyDone s
  | .generationBroadcast pkg gen => Sys2Proof.Machine.execGenerationBroadcast pkg gen s
  | .podAlignment pkg npkg walk => Sys2Proof.Machine.execPodAlignment pkg npkg walk s
  | .alignmentRelease => Sys2Proof.Machine.execAlignmentRelease s
  | .flitReceive link head payload crc corrected => Sys2Proof.Machine.execFlitReceive link head payload crc corrected s
  | .retryNotice link pair rseq => Sys2Proof.Machine.execRetryNotice link pair rseq s
  | .flitResend link pair reel => Sys2Proof.Machine.execFlitResend link pair reel s
  | .spstatRead link => Sys2Proof.Machine.execSpstatRead link s
  | .linkEvent kind vf addr => Sys2Proof.Machine.execLinkEvent kind vf addr s
  | .apertureAccess vf off n write val => Sys2Proof.Machine.execApertureAccess vf off n write val s
  | .msixUnmask fn vec => Sys2Proof.Machine.execMsixUnmask fn vec s
  | .softErrorCorrected place => Sys2Proof.Machine.execSoftErrorCorrected place s
  | .softErrorUncorrectable space addr => Sys2Proof.Machine.execSoftErrorUncorrectable space addr s
  | .thermalWarn die => Sys2Proof.Machine.execThermalWarn die s
  | .thermalTrip => Sys2Proof.Machine.execThermalTrip s
  | .fwcmdLoad => Sys2Proof.Machine.execFwcmdLoad s
  | .fwcmdQuote => Sys2Proof.Machine.execFwcmdQuote s
  | .fwcmdLog => Sys2Proof.Machine.execFwcmdLog s
  | .fwcmdCert => Sys2Proof.Machine.execFwcmdCert s
  | .handoverCommit => Sys2Proof.Machine.execHandoverCommit s
  | .handoverAbandon => Sys2Proof.Machine.execHandoverAbandon s
  | .walkerDeal gang => Sys2Proof.Machine.execWalkerDeal gang s
  | .registerWrite view off n val => Sys2Proof.Machine.execRegisterWrite view off n val s
  | .compositorQueueCreate q vf => Sys2Proof.Machine.execCompositorQueueCreate q vf s
  | .pfFunctionLevelReset => Sys2Proof.Machine.execPfFunctionLevelReset s
  | .speatLinkTrained link lat peerPkg peerLink => Sys2Proof.Machine.execSpeatLinkTrained link lat peerPkg peerLink s

end Sys2Proof.Machine
end

