-- ==== Sys2Proof/Machine/Events.lean ====
section
/-! DEFINITION. What an event of the agenda or of the inputs does: the meaning of the constructor of `Instr` of its
name. -/

namespace Sys2Proof.Machine

def execEv (i : Ev) (s : State) : Host.Outcome State Fault Refusal :=
  match i with
  | .landing x => execLanding x s
  | .variableLatencyArrival x id => execVariableLatencyArrival x id s
  | .stallWatchdogExpiry x => execStallWatchdogExpiry x s
  | .holdReleaseResume x src => execHoldReleaseResume x src s
  | .debugHaltRequest x => execDebugHaltRequest x s
  | .sclkCompareMatch x => execSclkCompareMatch x s
  | .interruptTaken x => execInterruptTaken x s
  | .streamStart x e => execStreamStart x e s
  | .streamGroupRead x e => execStreamGroupRead x e s
  | .streamGroupWrite x => execStreamGroupWrite x s
  | .matrixWordStart x => execMatrixWordStart x s
  | .matrixDelivery x => execMatrixDelivery x s
  | .handleWordServe x id => execHandleWordServe x id s
  | .heldCommandTrap x => execHeldCommandTrap x s
  | .commandCompletion x id => execCommandCompletion x id s
  | .flagWrite x id => execFlagWrite x id s
  | .strandEnd x => execStrandEnd x s
  | .windowWrite core off n val => execWindowWrite core off n val s
  | .windowRead core off n => execWindowRead core off n s
  | .contextWriteEffect x => execContextWriteEffect x s
  | .accessPerform x id => execAccessPerform x id s
  | .packetDepart core slot => execPacketDepart core slot s
  | .packetArrive core slot id => execPacketArrive core slot id s
  | .creditReturn core slot => execCreditReturn core slot s
  | .ngetRequestAccept core slot id => execNgetRequestAccept core slot id s
  | .barrierRelease gang level unit count => execBarrierRelease gang level unit count s
  | .collectiveComplete gang level unit ord => execCollectiveComplete gang level unit ord s
  | .holdBudgetExpiry x quoin => execHoldBudgetExpiry x quoin s
  | .refreshInterval ch bank => execRefreshInterval ch bank s
  | .temperatureCrossing stack hot => execTemperatureCrossing stack hot s
  | .regionWatchdogExpiry x => execRegionWatchdogExpiry x s
  | .rephasePointApply x => execRephasePointApply x s
  | .rephaseHoldEnd x => execRephaseHoldEnd x s
  | .strandStart x => execStrandStart x s
  | .doorbell q val => execDoorbell q val s
  | .joinNode q slot => execJoinNode q slot s
  | .launchNode q slot => execLaunchNode q slot s
  | .stagingComplete q slot => execStagingComplete q slot s
  | .repetitionStart q slot => execRepetitionStart q slot s
  | .launchComplete q slot => execLaunchComplete q slot s
  | .budgetExpiry q slot => execBudgetExpiry q slot s
  | .conditionalNode q slot => execConditionalNode q slot s
  | .loopNode q slot => execLoopNode q slot s
  | .hostSignalNode q slot => execHostSignalNode q slot s
  | .signalNode q slot => execSignalNode q slot s
  | .rephaseNode q slot => execRephaseNode q slot s
  | .cqprogWrite q val => execCqprogWrite q val s
  | .cqnprogWrite q val => execCqnprogWrite q val s
  | .cqerrRead q => execCqerrRead q s
  | .standbyFill core q slot => execStandbyFill core q slot s
  | .afcUpdate => execAfcUpdate s
  | .hrpostWrite vf ring val src orig => execHrpostWrite vf ring val src orig s
  | .ringRecordWrite vf ring => execRingRecordWrite vf ring s
  | .hrconsWrite vf ring val => execHrconsWrite vf ring val s
  | .hrctlWrite vf ring val => execHrctlWrite vf ring val s
  | .ringTimerExpiry vf ring => execRingTimerExpiry vf ring s
  | .hrstatRead vf ring => execHrstatRead vf ring s
  | .erlostRead vf => execErlostRead vf s
  | .s1inv vf val => execS1inv vf val s
  | .s2inv vf val => execS2inv vf val s
  | .invalidationComplete vf => execInvalidationComplete vf s
  | .walkComplete walk => execWalkComplete walk s
  | .tresumeResume vf val byPf => execTresumeResume vf val byPf s
  | .tresumeEnd vf val byPf => execTresumeEnd vf val byPf s
  | .vfquadsWrite vf val => execVfquadsWrite vf val s
  | .pstitchWrite vf val => execPstitchWrite vf val s
  | .vfslotsWrite vf word val => execVfslotsWrite vf word val s
  | .partitionReset vf val => execPartitionReset vf val s
  | .partitionResetClear vf => execPartitionResetClear vf s
  | .functionLevelReset vf => execFunctionLevelReset vf s
  | .hotReset => execHotReset s
  | .coldReset => execColdReset s
  | .warmReset => execWarmReset s
  | .stackTrainingComplete stack rate => execStackTrainingComplete stack rate s
  | .selfTestPass => execSelfTestPass s
  | .fullServiceEntry => execFullServiceEntry s
  | .pmreqPreempt val => execPmreqPreempt val s
  | .preemptSave q slot => execPreemptSave q slot s
  | .pmreqResume val => execPmreqResume val s
  | .cqsavnWrite q val => execCqsavnWrite q val s
  | .stkrateWrite stack val => execStkrateWrite stack val s
  | .retrainingComplete stack => execRetrainingComplete stack s
  | .chretWrite val => execChretWrite val s
  | .retirementDrainDone => execRetirementDrainDone s
  | .retirementCopyDone => execRetirementCopyDone s
  | .generationBroadcast pkg gen => execGenerationBroadcast pkg gen s
  | .podAlignment pkg npkg walk => execPodAlignment pkg npkg walk s
  | .alignmentRelease => execAlignmentRelease s
  | .flitReceive link head payload crc corrected => execFlitReceive link head payload crc corrected s
  | .retryNotice link pair rseq => execRetryNotice link pair rseq s
  | .flitResend link pair reel => execFlitResend link pair reel s
  | .spstatRead link => execSpstatRead link s
  | .linkEvent kind vf addr => execLinkEvent kind vf addr s
  | .apertureAccess vf off n write val => execApertureAccess vf off n write val s
  | .msixUnmask fn vec => execMsixUnmask fn vec s
  | .softErrorCorrected place => execSoftErrorCorrected place s
  | .softErrorUncorrectable space addr => execSoftErrorUncorrectable space addr s
  | .thermalWarn die => execThermalWarn die s
  | .thermalTrip => execThermalTrip s
  | .fwcmdLoad => execFwcmdLoad s
  | .fwcmdQuote => execFwcmdQuote s
  | .fwcmdLog => execFwcmdLog s
  | .fwcmdCert => execFwcmdCert s
  | .handoverCommit => execHandoverCommit s
  | .handoverAbandon => execHandoverAbandon s
  | .walkerDeal gang => execWalkerDeal gang s
  | .registerWrite view off n val => execRegisterWrite view off n val s
  | .compositorQueueCreate q vf => execCompositorQueueCreate q vf s
  | .pfFunctionLevelReset => execPfFunctionLevelReset s
  | .speatLinkTrained link lat peerPkg peerLink => execSpeatLinkTrained link lat peerPkg peerLink s
  | .hostMemory addr n val => .next (s.hostMemory addr n val)
  | .peerMemory addr n val => .next (s.peerMemory addr n val)
  | .compositorWrite q addr n val => .next (s.compositorWrite q addr n val false)
  | .peerWrite v addr n val gen => .next (s.peerWrite v addr n val gen)
  | .peerQuads key mask => .next (s.setPeerQuads key mask)
  | .peerHold gang src stop => .next (s.spreadHold gang src stop)
  | .peerRelease gang src at_ => .next (s.spreadRelease gang src at_)
  | .registerRead view off n => .next (s.registerRead view off n)
  | .msixControl fn val => .next (s.msixControl fn val)

end Sys2Proof.Machine
end

