-- ==== Sys2Proof/Machine/Turn.lean ====
section
/-! DEFINITION. Whose turn it is (R1, R2, R20, R307): inputs first, then what is due by the earliest chip cycle, the agenda
before prologues and prologues before strands. A step is one word, one event, or one place of a strand cycle. -/

set_option linter.unusedVariables false

namespace Sys2Proof.Machine

/-! Prologues (R307). -/

/-- The prologue with the earliest next step that does not wait, by its index, with that chip cycle. -/
def State.nextRun (s : State) : Option (Nat × Nat) :=
  s.dev.prologues.zipIdx.foldl
    (fun m e =>
      if e.1.waiting then m
      else
        match m with
        | none => some (e.2, e.1.next)
        | some (i, t) => if e.1.next < t then some (e.2, e.1.next) else some (i, t))
    none

/-- What a prologue does next: its word, or a fault for one that is none (R309). -/
def State.runPlan (s : State) : Plan :=
  match s.run with
  | none => .goOn s
  | some p =>
    if 4096 ≤ p.steps then .goOn (s.runFault p 1)
    else
      match (p.words[p.pc]?).bind decodeStick with
      | some i => .word i s
      | none => .goOn (s.runFault p 0)

/-! The turn. -/

/-- A prologue's turn at a chip cycle; what is known of open rows is forgotten, for it may reach the stacks (R216). -/
def State.runTurn (s : State) (i t : Nat) : Plan :=
  ({ s with now := Nat.max s.now t, dev := { s.dev with prol := i, rows := [], rowsKnown := false } } : State).runPlan

/-- A strand's turn at a chip cycle. -/
def State.strandTurn (s : State) (x t : Nat) : Plan := ({ s with now := Nat.max s.now t, cur := x } : State).strandPlan

/-- The turn of the prologues and the strands: the earlier one, of equals the prologue. -/
def State.workTurn (s : State) : Option (Nat × Plan) :=
  match s.nextRun, s.nextStrand with
  | none, none => none
  | some (i, t), none => some (t, s.runTurn i t)
  | none, some (x, t) => some (t, s.strandTurn x t)
  | some (i, t), some (x, u) => if t ≤ u then some (t, s.runTurn i t) else some (u, s.strandTurn x u)

/-- Events that leave the stacks alone, or whose accesses there are noted with the rows that they open (R216). -/
def keepsRows : Ev → Bool
  | .landing _ | .stallWatchdogExpiry _ | .holdReleaseResume _ _ | .debugHaltRequest _ | .sclkCompareMatch _ | .interruptTaken _
  | .streamStart _ _ | .streamGroupRead _ _ | .streamGroupWrite _ | .matrixWordStart _ | .matrixDelivery _ | .handleWordServe _ _
  | .heldCommandTrap _ | .commandCompletion _ _ | .flagWrite _ _ | .strandEnd _ | .windowWrite _ _ _ _ | .windowRead _ _ _
  | .contextWriteEffect _ | .accessPerform _ _ | .packetDepart _ _ | .packetArrive _ _ _ | .creditReturn _ _
  | .ngetRequestAccept _ _ _ | .barrierRelease _ _ _ _ | .collectiveComplete _ _ _ _ | .holdBudgetExpiry _ _ | .refreshInterval _ _
  | .temperatureCrossing _ _ | .regionWatchdogExpiry _ | .rephasePointApply _ | .rephaseHoldEnd _ | .strandStart _
  | .ringRecordWrite _ _ | .ringTimerExpiry _ _ | .walkerDeal _ | .flitReceive _ _ _ _ _ | .retryNotice _ _ _ | .flitResend _ _ _
  | .afcUpdate | .hrpostWrite _ _ _ _ _ | .hrconsWrite _ _ _ | .hrctlWrite _ _ _ | .hrstatRead _ _ | .erlostRead _
  | .invalidationComplete _ | .tresumeResume _ _ _ | .tresumeEnd _ _ _ | .vfquadsWrite _ _ | .pstitchWrite _ _ | .vfslotsWrite _ _ _
  | .hotReset | .coldReset | .warmReset | .thermalTrip | .fullServiceEntry | .cqerrRead _ | .chretWrite _ | .stkrateWrite _ _
  | .generationBroadcast _ _ | .podAlignment _ _ _ | .alignmentRelease | .spstatRead _ | .msixUnmask _ _ | .softErrorCorrected _
  | .thermalWarn _ | .handoverAbandon | .compositorQueueCreate _ _ | .speatLinkTrained _ _ _ _ | .hostMemory _ _ _
  | .peerMemory _ _ _ | .peerQuads _ _ | .peerHold _ _ _ | .peerRelease _ _ _ | .msixControl _ _ => true
  | _ => false

/-- An event at a state: after any other that may reach the stacks nothing is known of their open rows. -/
def State.eventTurn (s : State) (e : Ev) : Plan :=
  .event e (if keepsRows e then s else { s with dev := { s.dev with rows := [], rowsKnown := false } })

/-- An event of the agenda, at its chip cycle. -/
def State.agendaTurn (s : State) (t : Nat) (e : Ev) (rest : List (Nat × Ev)) : Plan :=
  ({ s with now := Nat.max s.now t, agenda := rest } : State).eventTurn e

/-! Timed writes that wait for their chip cycle (R242). -/

/-- The core with the earliest timed write to make, with its chip cycle. -/
def State.nextBank (s : State) : Option (Nat × Nat) :=
  s.cores.foldl
    (fun m e =>
      e.2.bankPend.foldl
        (fun m w =>
          match m with
          | none => some (e.1, w.time)
          | some (c, t) => if w.time < t then some (e.1, w.time) else some (c, t))
        m)
    none

/-- The timed writes of a core that fall by a chip cycle, in the order of their words. -/
def State.serveBanks (s : State) (core t : Nat) : State :=
  let s0 : State := { s with now := Nat.max s.now t }
  let due := (s0.coreAt core).bankPend.filter fun w => decide (w.time ≤ t)
  let s1 := s0.updCore core fun k => { k with bankPend := k.bankPend.filter fun w => !decide (w.time ≤ t) }
  due.foldl
    (fun (s : State) w =>
      match w.eff with
      | .store off bs => s.chipWriteAt w.time core off bs
      | .nibble at_ v => s.nibbleWrite w.time core at_ v
      | _ => s)
    s1

/-- Where in its chip cycle an event falls: 0 before the strands; 1 what the bank ports and the register files serve after the timed
accesses (R243); 2 a post that takes its record, once all of the chip cycle and a write of `hrcons` have come (R329); 3 a request
that sees what has ended in the chip cycle (R291). -/
def placeOfEv : Ev → Nat
  | .accessPerform _ _ | .windowWrite _ _ _ _ | .windowRead _ _ _ | .flagWrite _ _ | .packetArrive _ _ _ | .ngetRequestAccept _ _ _
  | .collectiveComplete _ _ _ _ | .walkerDeal _ => 1
  | .ringRecordWrite _ r => if r < 16 then 2 else 0
  | .stagingComplete _ _ | .rephaseNode _ _ | .pmreqResume _ => 3
  | _ => 0

/-- Of the events at the agenda's first chip cycle, the first that falls earliest in it. -/
def firstPlaced (t : Nat) (best : Nat × Ev) : List (Nat × Ev) → Nat × Ev
  | [] => best
  | r :: rs => if r.1 = t then firstPlaced t (if placeOfEv r.2 < placeOfEv best.2 then r else best) rs else best

/-- The agenda with that event at its head. -/
def State.sortedAgenda (s : State) : List (Nat × Ev) :=
  match s.agenda with
  | [] => []
  | e :: rest =>
    let f := firstPlaced e.1 e rest
    if f = e then s.agenda else f :: s.agenda.erase f

/-- The turn of the agenda, the prologues and the strands: the agenda at equal chip cycles, but for what falls after the strands. -/
def State.mainTurn (s : State) (agenda : List (Nat × Ev)) : Plan :=
  match agenda, s.workTurn with
  | [], none => .goOn { s with now := s.now + 1 }
  | [], some w => w.2
  | (t, e) :: rest, none => s.agendaTurn t e rest
  | (t, e) :: rest, some w =>
    if t < w.1 || (t == w.1 && placeOfEv e == 0) then s.agendaTurn t e rest else w.2

/-- The earlier of two chip cycles at which something falls. -/
def earlier : Option Nat → Option Nat → Option Nat
  | none, b => b
  | a, none => a
  | some a, some b => some (Nat.min a b)

/-- The turn with no input to serve. At one chip cycle timed writes come first, then what the agenda holds and the strands, then the
ports (R243), and last the doorbells that were rung in it (R326). -/
def State.cycleTurn (s : State) : Plan :=
  let agenda := s.sortedAgenda
  let first := earlier (agenda.head?.map Prod.fst) (s.workTurn.map Prod.fst)
  let clear (t : Nat) : Bool := match first with | some u => decide (t ≤ u) | none => true
  let bank := s.nextBank.filter fun b => clear b.2
  let ends := clear (s.now + 1) && (match bank with | some b => decide (s.now < b.2) | none => true)
  match s.dev.bells, bank with
  | b :: bells, some (c, t) =>
    if ends then ({ s with dev := { s.dev with bells := bells } } : State).eventTurn (.doorbell b.2.1 b.2.2) else .goOn (s.serveBanks c t)
  | b :: bells, none =>
    if ends then ({ s with dev := { s.dev with bells := bells } } : State).eventTurn (.doorbell b.2.1 b.2.2) else s.mainTurn agenda
  | [], some (c, t) => .goOn (s.serveBanks c t)
  | [], none => s.mainTurn agenda

/-- What the package does next: an input, of which a host access waits behind one of its function's that is held (R323), or what falls
next; with nothing to do, a chip cycle passes. -/
def State.turn (s : State) : Plan :=
  match s.inputs with
  | e :: rest =>
    if s.hostQueued e then .goOn { s with inputs := rest, dev := { s.dev with hostWait := s.dev.hostWait ++ [e] } }
    else ({ s with inputs := rest } : State).eventTurn e
  | [] => s.cycleTurn

/-- The plan of a step: what `focus` names goes ahead of everything. -/
def State.plan (s : State) : Plan :=
  match s.focus with
  | none => s.turn
  | some x =>
    let s1 : State := { s with focus := none }
    if x < 4096 then ({ s1 with cur := x } : State).strandPlan else s1.runPlan

/-! A word placed to be the next one. -/

/-- A 32-bit word as the program of a prologue that runs next. -/
def State.placeStick (s : State) (w : Nat) : State :=
  let p : Prologue := { q := 0, slot := 0, words := [w % 2 ^ 32], next := s.now }
  { s with focus := some 4096, dev := { s.dev with prologues := p :: s.dev.prologues, prol := 0 } }

/-- A 128-bit word, with the words above it, at the ring position that the engine of its class reads next, in context 0 of
core 0, at that engine's place in the strand cycle. -/
def State.placeWord (s : State) (w : Nat) : State :=
  let e := engOfCls (bits w 127 124)
  let t := s.strandAt 0
  let c : QCtl := { base := (vget t.queues e.num {}).base, len := 16384, idx := 0, owe := some 0, halted := false }
  let t1 : Strand :=
    { t with mode := .run, stall := none, micro := e.num + 1, offset := t.readOffset e, streams := [], mpend := [], queues := vset t.queues e.num c }
  ({ s with focus := some 0 } : State).setStrand 0 t1 |>.write .chip (chipAddr 0 c.base) (leBytes 32 w)

end Sys2Proof.Machine
end

