-- ==== Sys2Proof/Machine/Step.lean ====
section
/-! DEFINITION. One step of the package. -/

set_option linter.unusedVariables false

namespace Sys2Proof.Machine

/-- One step: the meaning of the word or the event whose turn it is, or a place of a strand cycle without either. -/
def step (s : State) : Host.Outcome State Fault Refusal :=
  match s.plan with
  | .word i s1 => exec i s1
  | .event e s1 => execEv e s1
  | .goOn s1 => .next s1

/-- The instruction with bits `w` placed where the next step fetches: a stick-code word in a prologue that runs, a ring word
in the queue of its class, with zeros above it. -/
def State.withFetchWord (s : State) (nbits w : Nat) : State :=
  if nbits ≤ 32 then s.placeStick (w % 2 ^ nbits) else s.placeWord (w % 2 ^ nbits)

end Sys2Proof.Machine
end

