-- ==== Sys2Proof/Safety.lean ====
section
/-! DEFINITION. The terms in which claims are made: what it takes for a word to be carried out and the state that it
leaves then (R24, R33, R87, R90), and what a step must keep for a run to be safe. -/

set_option linter.unusedVariables false

namespace Sys2Proof.Machine

/-! A word that is carried out. -/

/-- The state in which a word acts: its queue at the next word, and the count that its SWAIT takes off gone (R23, R24). -/
def State.begun (s : State) (e : Eng) (words : Nat) (n : Nat) : State :=
  let s1 := s.begin e words
  if n = 0 then s1 else s1.setSem s1.core n (s1.sem s1.core n - 1)

/-- The same for a word of one ring position. -/
def State.acting (s : State) (v : View) : State := s.begun (v.engine .s) 1 v.hdr.swait.val

/-- The strand holds what a word of one engine names: the tiles, accumulators and distribution registers of its operands, and its
semaphores (R41, R87). -/
structure Holds (s : State) (v : View) : Prop where
  opds : ∀ o ∈ v.slots, o.used = true → s.t.ownsOpd o.opd = true
  swait : v.hdr.swait.val = 0 ∨ s.t.ownsSem v.hdr.swait.val = true
  spost : v.hdr.spost.val = 0 ∨ s.t.ownsSem v.hdr.spost.val = true

/-- What a word's holdings, guard and SWAIT ask of the strand before it acts (R24, R41, R87, R90). -/
structure Ready (s : State) (v : View) : Prop where
  holds : s.limits v = none
  guard : s.t.guard v.grd = true
  token : v.hdr.swait.val = 0 ∨ s.sem s.core v.hdr.swait.val ≠ 0

/-- The ignored hints of a word that has acted: PEEK bits without a queue register, and a TRK that took no slot (R33). -/
def Done.hints (d : Done) (v : View) : Nat :=
  v.peekHints.length + (if d.trk ∨ v.hdr.trk.val = 0 then 0 else 1)

/-- What lets a word that has acted in state `s` complete: no fence that holds its timed accesses back (R124, R253), and no trap of
debug mode: no ignored hint there, and no SPOST of a word that completes at issue at a count of 255, as the earlier words leave
it (R33). -/
structure Done.Quiet (d : Done) (s : State) (v : View) : Prop where
  fence : v.isTimed = false ∨ s.t.fencedOff = false ∨
    (d.s.t.timed = s.t.timed ∧ (v.readsNow = false ∨ d.s.t.pend = s.t.pend))
  hints : d.s.t.dbg = false ∨ d.hints v = 0
  post : d.own = true ∨ v.hdr.spost.val = 0 ∨ (d.atIssue = false ∧ d.s.t.awaitsOwn = true) ∨ d.s.t.dbg = false ∨
    s.sem s.core v.hdr.spost.val ≠ 255

/-- Ignored hints counted in `hmis` (R33). -/
def State.counted (s : State) (n : Nat) : State :=
  if n = 0 then s else s.upd fun t => { t with hmis := t.hmis + BitVec.ofNat 64 n }

/-- SPOST of a word: on its last landing, or at once, as for one that completes at issue (R24). -/
def State.settled (s : State) (atIssue : Bool) (n : Nat) : State :=
  if n = 0 then s
  else if !atIssue && s.t.awaitsOwn then
    s.upd fun t =>
      if t.frozen then { t with hpend := attachPost t.seq n t.hpend } else { t with pend := attachPost t.seq n t.pend }
  else s.raise n

/-- The state that a word leaves that has acted: hints counted, SPOST settled, a stall over (R24, R29, R33). -/
def Done.after (d : Done) (v : View) : State :=
  let s1 := d.s.counted (d.hints v)
  (if d.own then s1 else s1.settled d.atIssue v.hdr.spost.val).unstall

/-- What keeps a word that acts from a trap of debug mode (R33): no hint of it is ignored, and no SPOST at issue meets a
count of 255 that the earlier words leave. -/
structure Quietly (s : State) (v : View) : Prop where
  hints : s.t.dbg = false ∨ (v.peekHints = [] ∧ v.hdr.trk.val = 0)
  post : v.hdr.spost.val = 0 ∨ s.t.dbg = false ∨ s.sem s.core v.hdr.spost.val ≠ 255

/-- A word that neither traps nor stalls: it is ready, its operation answers `d`, and debug mode finds nothing in it. -/
structure Goes (s : State) (v : View) (op : Operation) (d : Done) : Prop where
  ready : Ready s v
  ok : op (s.acting v) = .ok d
  quiet : d.Quiet s v

/-! Words of class S. -/

/-- An S word that is ready, whose operands A, B and C read as `x`, `y` and `z` and whose transport finds room, which
leaves the strand as `t` (R43, R92). -/
structure SWord (s : State) (op : SOp) (h : Hdr) (b : SBody) (x y z : Word) (t : Strand) : Prop where
  ready : Ready s (.s op h b)
  quiet : Quietly s (.s op h b)
  reads : ∃ t1, (s.acting (.s op h b)).t.readOpds .s (immVal b.ty b.imm) (sSlots op h b) = .ok ([x, y, z], t1) ∧
    t1.transport b = .ok t

/-- The state in which an S word acts whose operands have been read. -/
def State.reading (s : State) (v : View) (t : Strand) : State := (s.acting v).setStrand s.cur t

/-- The state that an S word leaves whose effects land `lat` strand cycles after issue with their flags (R25, R59). -/
def State.lands (s : State) (v : View) (t : Strand) (lat : Nat) (effs : List Eff) (flags : Nat := 0) : State :=
  ({ s := s.reading v (t.land lat effs flags) } : Done).after v

/-- The state that an S word leaves that acts at issue, given the state its action leaves. -/
def State.acts (s : State) (v : View) : State := ({ s := s } : Done).after v

/-- The strand with the numbers drawn that `n` elements need in a rounding mode (R71). -/
def Strand.drawn (t : Strand) (mode : Rnd) (n : Nat) : Strand :=
  if mode = .rs then t.updCtx fun c => { c with srseed := (drawMany n t.ctx.srseed).1 } else t

/-- Those numbers. -/
def Strand.draws (t : Strand) (mode : Rnd) (n : Nat) : List Nat :=
  if mode = .rs then (drawMany n t.ctx.srseed).2 else List.replicate n 0

/-- The low `w` bits of an integer in two's-complement wrap (R9). -/
def low (w : Nat) (z : Int) : Word := BitVec.ofNat 64 (z % 2 ^ w).toNat

/-- An S word whose operands read as `x`, `y` and `z`, whose transport leaves the strand as `t`, and in whose effect `d` debug
mode finds nothing. -/
structure SDoes (s : State) (op : SOp) (h : Hdr) (b : SBody) (x y z : Word) (t : Strand) (d : Done) : Prop where
  ready : Ready s (.s op h b)
  reads : ∃ t1, (s.acting (.s op h b)).t.readOpds .s (immVal b.ty b.imm) (sSlots op h b) = .ok ([x, y, z], t1) ∧
    t1.transport b = .ok t
  quiet : d.Quiet s (.s op h b)

/-- A timed scratchpad access of `n` bytes at the exact address `e` that a strand may make now: in range, in its bank groups,
aligned, past every edge and every earlier access, and of a read, without poison (R31, R120, R242, R246, R252, R359). -/
structure TimedOk (s : State) (cls : Nat) (e : Int) (n : Nat) (write : Bool) : Prop where
  lo : 0 ≤ e
  hi : e + n ≤ 786432
  banks : s.t.ownsBytes e.toNat n = true
  align : e.toNat % n = 0
  gate : s.t.timedGate s.core cls e.toNat n write = .ok ()
  poison : write = true ∨ s.poisoned .chip (chipAddr s.core e.toNat) n = none

/-- The state that a timed M word of plan `p` leaves at its issue: it starts at max(k, the array's end), occupies the array for
its `busy`, reads at its start and is delivered `lat` strand cycles later, or once an earlier delivery to its accumulator has been
made, if that is later (R181, R183); the accumulator has V and its new M for the words after it (R52). -/
def State.timedWord (s : State) (h : Hdr) (i : Instr) (rnd : Rnd) (p : MPlan) : Done :=
  let t := s.t
  let start := Nat.max t.ctx.sclk t.mEnd
  let due := match p.acc with
    | some a => Nat.max (start + p.lat) (t.accPending a.1)
    | none => start + p.lat
  let rs := p.rgns.filter fun x => x.2.1 ≠ 0
  { own := true
    s := s.setStrand s.cur
      { t.drawn rnd p.draws with
        mEnd := start + p.busy
        mpend := t.mpend ++ [{ seq := t.seq, instr := i, start := start, busy := p.busy, deliver := due, vals := p.vals
                               acc := p.acc, draws := t.draws rnd p.draws, spost := h.spost.val }]
        accIss := match p.acc with | some a => t.accIss.set a.1 (true, a.2) | none => t.accIss
        timed := t.timed ++
          (rs.flatMap fun x => if x.2.2 then x.1.timed x.2.1 x.2.1 1 start false else x.1.timed x.2.1 x.2.1 1 due true) ++
          (p.rd.map fun r => timedRange r.1 r.2 start false) ++ (p.wr.map fun r => timedRange r.1 r.2 due true) ++
          (p.clear.map fun r => timedRange r.1 r.2 start true) } }

/-- The state in which a command has been issued: the hints of its footprint counted, its identifier taken, a 33rd command of
its channel a landing that has not arrived, its place in program order with its tracker slot (R33, R200, R201). -/
def State.commanded (s : State) (h : Hdr) (a : Async) (slot hints : Nat) : State :=
  let s1 := s.upd fun t => { t with hmis := t.hmis + BitVec.ofNat 64 hints }
  match a.chan with
  | none => s1.addAsync { a with xid := 0, trk := slot, spost := h.spost.val }
  | some ch =>
    let x := s1.takeXid ch
    let s2 := if 32 ≤ inChannel s.t.asyncs ch then (x.2.landLater 1 (.channel ch)).2 else x.2
    s2.addAsync { a with xid := x.1, trk := slot, spost := h.spost.val }

/-- All of a strand but its queue registers and its pending landings. -/
def Strand.sansQueues (t : Strand) : Strand :=
  { t with pend := [], hpend := [], ctx := { t.ctx with q := Vector.replicate 32 [], hq := Vector.replicate 4 [] } }

/-! Events. -/

/-- Whether an event is the one that an instruction names; what other parts of the world do to memory is none. -/
def eventIs (i : Instr) : Ev → Prop
  | .landing x => i = .landing x
  | .variableLatencyArrival x id => i = .variableLatencyArrival x id
  | .stallWatchdogExpiry x => i = .stallWatchdogExpiry x
  | .holdReleaseResume x src => i = .holdReleaseResume x src
  | .debugHaltRequest x => i = .debugHaltRequest x
  | .sclkCompareMatch x => i = .sclkCompareMatch x
  | .interruptTaken x => i = .interruptTaken x
  | .streamStart x e => i = .streamStart x e
  | .streamGroupRead x e => i = .streamGroupRead x e
  | .streamGroupWrite x => i = .streamGroupWrite x
  | .matrixWordStart x => i = .matrixWordStart x
  | .matrixDelivery x => i = .matrixDelivery x
  | .handleWordServe x id => i = .handleWordServe x id
  | .heldCommandTrap x => i = .heldCommandTrap x
  | .commandCompletion x id => i = .commandCompletion x id
  | .flagWrite x id => i = .flagWrite x id
  | .strandEnd x => i = .strandEnd x
  | .windowWrite core off n val => i = .windowWrite core off n val
  | .windowRead core off n => i = .windowRead core off n
  | .contextWriteEffect x => i = .contextWriteEffect x
  | .accessPerform x id => i = .accessPerform x id
  | .packetDepart core slot => i = .packetDepart core slot
  | .packetArrive core slot id => i = .packetArrive core slot id
  | .creditReturn core slot => i = .creditReturn core slot
  | .ngetRequestAccept core slot id => i = .ngetRequestAccept core slot id
  | .barrierRelease gang level unit count => i = .barrierRelease gang level unit count
  | .collectiveComplete gang level unit ord => i = .collectiveComplete gang level unit ord
  | .holdBudgetExpiry x quoin => i = .holdBudgetExpiry x quoin
  | .refreshInterval ch bank => i = .refreshInterval ch bank
  | .temperatureCrossing stack hot => i = .temperatureCrossing stack hot
  | .regionWatchdogExpiry x => i = .regionWatchdogExpiry x
  | .rephasePointApply x => i = .rephasePointApply x
  | .rephaseHoldEnd x => i = .rephaseHoldEnd x
  | .strandStart x => i = .strandStart x
  | .doorbell q val => i = .doorbell q val
  | .joinNode q slot => i = .joinNode q slot
  | .launchNode q slot => i = .launchNode q slot
  | .stagingComplete q slot => i = .stagingComplete q slot
  | .repetitionStart q slot => i = .repetitionStart q slot
  | .launchComplete q slot => i = .launchComplete q slot
  | .budgetExpiry q slot => i = .budgetExpiry q slot
  | .conditionalNode q slot => i = .conditionalNode q slot
  | .loopNode q slot => i = .loopNode q slot
  | .hostSignalNode q slot => i = .hostSignalNode q slot
  | .signalNode q slot => i = .signalNode q slot
  | .rephaseNode q slot => i = .rephaseNode q slot
  | .cqprogWrite q val => i = .cqprogWrite q val
  | .cqnprogWrite q val => i = .cqnprogWrite q val
  | .cqerrRead q => i = .cqerrRead q
  | .standbyFill core q slot => i = .standbyFill core q slot
  | .afcUpdate => i = .afcUpdate
  | .hrpostWrite vf ring val src orig => i = .hrpostWrite vf ring val src orig
  | .ringRecordWrite vf ring => i = .ringRecordWrite vf ring
  | .hrconsWrite vf ring val => i = .hrconsWrite vf ring val
  | .hrctlWrite vf ring val => i = .hrctlWrite vf ring val
  | .ringTimerExpiry vf ring => i = .ringTimerExpiry vf ring
  | .hrstatRead vf ring => i = .hrstatRead vf ring
  | .erlostRead vf => i = .erlostRead vf
  | .s1inv vf val => i = .s1inv vf val
  | .s2inv vf val => i = .s2inv vf val
  | .invalidationComplete vf => i = .invalidationComplete vf
  | .walkComplete walk => i = .walkComplete walk
  | .tresumeResume vf val byPf => i = .tresumeResume vf val byPf
  | .tresumeEnd vf val byPf => i = .tresumeEnd vf val byPf
  | .vfquadsWrite vf val => i = .vfquadsWrite vf val
  | .pstitchWrite vf val => i = .pstitchWrite vf val
  | .vfslotsWrite vf word val => i = .vfslotsWrite vf word val
  | .partitionReset vf val => i = .partitionReset vf val
  | .partitionResetClear vf => i = .partitionResetClear vf
  | .functionLevelReset vf => i = .functionLevelReset vf
  | .hotReset => i = .hotReset
  | .coldReset => i = .coldReset
  | .warmReset => i = .warmReset
  | .stackTrainingComplete stack rate => i = .stackTrainingComplete stack rate
  | .selfTestPass => i = .selfTestPass
  | .fullServiceEntry => i = .fullServiceEntry
  | .pmreqPreempt val => i = .pmreqPreempt val
  | .preemptSave q slot => i = .preemptSave q slot
  | .pmreqResume val => i = .pmreqResume val
  | .cqsavnWrite q val => i = .cqsavnWrite q val
  | .stkrateWrite stack val => i = .stkrateWrite stack val
  | .retrainingComplete stack => i = .retrainingComplete stack
  | .chretWrite val => i = .chretWrite val
  | .retirementDrainDone => i = .retirementDrainDone
  | .retirementCopyDone => i = .retirementCopyDone
  | .generationBroadcast pkg gen => i = .generationBroadcast pkg gen
  | .podAlignment pkg npkg walk => i = .podAlignment pkg npkg walk
  | .alignmentRelease => i = .alignmentRelease
  | .flitReceive link head payload crc corrected => i = .flitReceive link head payload crc corrected
  | .retryNotice link pair rseq => i = .retryNotice link pair rseq
  | .flitResend link pair reel => i = .flitResend link pair reel
  | .spstatRead link => i = .spstatRead link
  | .linkEvent kind vf addr => i = .linkEvent kind vf addr
  | .apertureAccess vf off n write val => i = .apertureAccess vf off n write val
  | .msixUnmask fn vec => i = .msixUnmask fn vec
  | .softErrorCorrected place => i = .softErrorCorrected place
  | .softErrorUncorrectable space addr => i = .softErrorUncorrectable space addr
  | .thermalWarn die => i = .thermalWarn die
  | .thermalTrip => i = .thermalTrip
  | .fwcmdLoad => i = .fwcmdLoad
  | .fwcmdQuote => i = .fwcmdQuote
  | .fwcmdLog => i = .fwcmdLog
  | .fwcmdCert => i = .fwcmdCert
  | .handoverCommit => i = .handoverCommit
  | .handoverAbandon => i = .handoverAbandon
  | .walkerDeal gang => i = .walkerDeal gang
  | .registerWrite view off n val => i = .registerWrite view off n val
  | .compositorQueueCreate q vf => i = .compositorQueueCreate q vf
  | .pfFunctionLevelReset => i = .pfFunctionLevelReset
  | .speatLinkTrained link lat peerPkg peerLink => i = .speatLinkTrained link lat peerPkg peerLink
  | .hostMemory _ _ _ => False
  | .compositorWrite _ _ _ _ => False
  | .peerMemory _ _ _ => False
  | .peerWrite _ _ _ _ _ => False
  | .peerQuads _ _ => False
  | .peerHold _ _ _ => False
  | .peerRelease _ _ _ => False
  | .registerRead _ _ _ => False
  | .msixControl _ _ => False

end Sys2Proof.Machine
end

