-- ==== Sys2Proof/Certificates/Slice0/Obligations.lean ====
section
/-! DEFINITION. What is claimed of the machine: the statements for the provers. -/

set_option linter.unusedVariables false

open Sys2Proof Sys2Proof.Machine

/-! ## Class S: results -/

/-- R112, R113: the integer ALU forms `add`, `sub`, `and`, `or`, `xor`, `andn`, `shl`, `shr`, `sar`, `min`, `max`, `sel`,
`clz`, `popc`, `li` and `lih` complete, and their result, in the low w bits, lands in the latch that AS names at k + 1
without a flag. -/
def Obligations.IntegerAluResultLands : Prop :=
  ∀ (s : State) (h : Hdr) (b : SBody) (x y z : Word) (t : Strand),
    let w := b.ty.width
    let c := y.toNat % 256
    let lands (op : SOp) (r : Word) : Host.Outcome State Fault Refusal :=
      .next (s.lands (.s op h b) t 1 [if b.as then .la1 r else .la0 r])
    (SWord s .add h b x y z t → exec (.add h b) s = lands .add (low w (x.toNat + y.toNat))) ∧
    (SWord s .sub h b x y z t → exec (.sub h b) s = lands .sub (low w ((x.toNat : Int) - y.toNat))) ∧
    (SWord s .and h b x y z t → exec (.and h b) s = lands .and (low w (x &&& y).toNat)) ∧
    (SWord s .or h b x y z t → exec (.or h b) s = lands .or (low w (x ||| y).toNat)) ∧
    (SWord s .xor h b x y z t → exec (.xor h b) s = lands .xor (low w (x ^^^ y).toNat)) ∧
    (SWord s .andn h b x y z t → exec (.andn h b) s = lands .andn (low w (x &&& ~~~y).toNat)) ∧
    (SWord s .shl h b x y z t → exec (.shl h b) s = lands .shl (if w ≤ c then 0 else low w (x.toNat * 2 ^ c))) ∧
    (SWord s .shr h b x y z t → exec (.shr h b) s = lands .shr (low w (x.toNat % 2 ^ w / 2 ^ c : Nat))) ∧
    (SWord s .sar h b x y z t → exec (.sar h b) s = lands .sar (low w (sext w x.toNat / 2 ^ c))) ∧
    (SWord s .min h b x y z t → exec (.min h b) s =
      lands .min (if opnd b.ty x ≤ opnd b.ty y then low w x.toNat else low w y.toNat)) ∧
    (SWord s .max h b x y z t → exec (.max h b) s =
      lands .max (if opnd b.ty x ≤ opnd b.ty y then low w y.toNat else low w x.toNat)) ∧
    (SWord s .sel h b x y z t → exec (.sel h b) s =
      lands .sel (if s.t.predOpd b.c then low w x.toNat else low w y.toNat)) ∧
    (SWord s .clz h b x y z t → exec (.clz h b) s =
      lands .clz (low w (if x.toNat % 2 ^ w = 0 then w else w - 1 - Nat.log2 (x.toNat % 2 ^ w) : Nat))) ∧
    (SWord s .popc h b x y z t → exec (.popc h b) s =
      lands .popc (low w (((List.range w).filter fun i => x.getLsbD i).length : Nat))) ∧
    (SWord s .li h b x y z t → exec (.li h b) s = lands .li (low w x.toNat)) ∧
    (SWord s .lih h b x y z t → exec (.lih h b) s = lands .lih (b.imm ++ y.setWidth 32))

/-- R114, R115: the compares `ceq`, `cne`, `clt`, `cle`, `ctst`, `fceq`, `fclt`, `fcle` and `fcun` and the predicate forms
`pand`, `por`, `pxor`, `ppack` and `punpack` complete: what they compute lands at k + 1 in the predicate that PX names (of
`ppack` in the latch that AS names, of `punpack` in the eight predicates of its bank), with NV as the rules say. -/
def Obligations.CompareAndPredicateResultLands : Prop :=
  ∀ (s : State) (h : Hdr) (b : SBody) (x y z : Word) (t : Strand),
    let w := b.ty.width
    let p := decode b.ty x.toNat
    let q := decode b.ty y.toNat
    let lands (op : SOp) (r : Bool) (fl : Nat) : Host.Outcome State Fault Refusal :=
      .next (s.lands (.s op h b) t 1 [.pred b.px r] fl)
    let snan := if p.isSnan || q.isSnan then fNV else 0
    let anan := if p.isNan || q.isNan then fNV else 0
    let i := b.imm.toNat % 8
    let base := if b.b = .p 8 then 8 else 0
    (SWord s .ceq h b x y z t → exec (.ceq h b) s = lands .ceq (low w x.toNat == low w y.toNat) 0) ∧
    (SWord s .cne h b x y z t → exec (.cne h b) s = lands .cne (low w x.toNat != low w y.toNat) 0) ∧
    (SWord s .clt h b x y z t → exec (.clt h b) s = lands .clt (decide (opnd b.ty x < opnd b.ty y)) 0) ∧
    (SWord s .cle h b x y z t → exec (.cle h b) s = lands .cle (decide (opnd b.ty x ≤ opnd b.ty y)) 0) ∧
    (SWord s .ctst h b x y z t → exec (.ctst h b) s = lands .ctst (decide (low w (x &&& y).toNat ≠ 0)) 0) ∧
    (SWord s .fceq h b x y z t → exec (.fceq h b) s = lands .fceq (p.eq q) snan) ∧
    (SWord s .fclt h b x y z t → exec (.fclt h b) s = lands .fclt (p.lt q) anan) ∧
    (SWord s .fcle h b x y z t → exec (.fcle h b) s = lands .fcle (p.le q) anan) ∧
    (SWord s .fcun h b x y z t → exec (.fcun h b) s = lands .fcun (p.isNan || q.isNan) snan) ∧
    (SWord s .pand h b x y z t → exec (.pand h b) s = lands .pand (s.t.predOpd b.a && s.t.predOpd b.b) 0) ∧
    (SWord s .por h b x y z t → exec (.por h b) s = lands .por (s.t.predOpd b.a || s.t.predOpd b.b) 0) ∧
    (SWord s .pxor h b x y z t → exec (.pxor h b) s = lands .pxor (s.t.predOpd b.a != s.t.predOpd b.b) 0) ∧
    (SWord s .ppack h b x y z t → ∃ r : Word,
      exec (.ppack h b) s = .next (s.lands (.s .ppack h b) t 1 [if b.as then .la1 r else .la0 r]) ∧
        (∀ j < 8, r.getLsbD (8 * i + j) = s.t.pred (base + j)) ∧
        ∀ k < 64, ¬ (8 * i ≤ k ∧ k < 8 * i + 8) → r.getLsbD k = x.getLsbD k) ∧
    (SWord s .punpack h b x y z t →
      exec (.punpack h b) s = .next (s.lands (.s .punpack h b) t 1
        ((List.finRange 16).filterMap fun n =>
          if base ≤ n.val ∧ n.val < base + 8 then some (.pred n (x.getLsbD (8 * i + (n.val - base)))) else none)))

/-- R116: the integer multiplier forms `mul`, `mulh`, `mad` and `dp4` complete, and their result lands in `lm` at k + 3
without a flag. -/
def Obligations.MultiplierResultLands : Prop :=
  ∀ (s : State) (h : Hdr) (b : SBody) (x y z : Word) (t : Strand),
    let w := b.ty.width
    let lands (op : SOp) (r : Word) : Host.Outcome State Fault Refusal := .next (s.lands (.s op h b) t 3 [.lm r])
    let byteAt (v : Word) (j : Nat) : Int :=
      if b.ty.signed then ((v >>> (8 * j)).setWidth 8 : BitVec 8).toInt else ((v >>> (8 * j)).setWidth 8 : BitVec 8).toNat
    (SWord s .mul h b x y z t → exec (.mul h b) s = lands .mul (low w (x.toNat * y.toNat))) ∧
    (SWord s .mulh h b x y z t → exec (.mulh h b) s = lands .mulh (low w (opnd b.ty x * opnd b.ty y / 2 ^ w))) ∧
    (SWord s .mad h b x y z t → exec (.mad h b) s = lands .mad (low w (x.toNat * y.toNat + z.toNat))) ∧
    (SWord s .dp4 h b x y z t → exec (.dp4 h b) s =
      lands .dp4 (low 32 (z.toNat + (byteAt x 0 * byteAt y 0 + byteAt x 1 * byteAt y 1 + byteAt x 2 * byteAt y 2
        + byteAt x 3 * byteAt y 3))))

/-- R71, R117, R118, R119: the floating-point forms `fadd`, `fsub`, `fmul`, `fma` and `cvt` complete, take one draw in
`.rs`, and their exact value, rounded once, lands in `lm` at k + 4 with the flags of the operation and of the rounding;
`fmin`, `fmax`, `fabs` and `fneg` land in the latch that AS names at k + 1. -/
def Obligations.FloatResultLands : Prop :=
  ∀ (s : State) (h : Hdr) (b : SBody) (x y z : Word) (t : Strand),
    let p := decode b.ty x.toNat
    let q := decode b.ty y.toNat
    let r := decode b.ty z.toNat
    let rounded (op : SOp) (v : XReal × Nat) : Host.Outcome State Fault Refusal :=
      let n := narrow b.ty b.rnd ((t.draws b.rnd 1).headD 0) v.1
      .next (s.lands (.s op h b) (t.drawn b.rnd 1) 4 [.lm (BitVec.ofNat 64 n.1)] (fOr v.2 n.2))
    let lands (op : SOp) (v fl : Nat) : Host.Outcome State Fault Refusal :=
      .next (s.lands (.s op h b) t 1 [if b.as then .la1 (BitVec.ofNat 64 v) else .la0 (BitVec.ofNat 64 v)] fl)
    let nv := if p.isSnan then fNV else 0
    let snan := if p.isSnan || q.isSnan then fNV else 0
    let w := b.ty.width
    (SWord s .fadd h b x y z t → exec (.fadd h b) s = rounded .fadd (XReal.add (b.rnd == .rd) p q)) ∧
    (SWord s .fsub h b x y z t → exec (.fsub h b) s = rounded .fsub (XReal.add (b.rnd == .rd) p q.negate)) ∧
    (SWord s .fmul h b x y z t → exec (.fmul h b) s = rounded .fmul (XReal.mul p q)) ∧
    (SWord s .fma h b x y z t → exec (.fma h b) s = rounded .fma (XReal.fma (b.rnd == .rd) p q r)) ∧
    (SWord s .cvt h b x y z t → ∀ sty, Ty.ofCode (b.imm.toNat % 32) = some sty →
      exec (.cvt h b) s = rounded .cvt (decode sty x.toNat, 0)) ∧
    (SWord s .fmin h b x y z t → exec (.fmin h b) s =
      lands .fmin (if p.isNan || q.isNan then nanCode b.ty
        else if fpBelow b.ty x.toNat y.toNat then x.toNat % 2 ^ w else y.toNat % 2 ^ w) snan) ∧
    (SWord s .fmax h b x y z t → exec (.fmax h b) s =
      lands .fmax (if p.isNan || q.isNan then nanCode b.ty
        else if fpBelow b.ty x.toNat y.toNat then y.toNat % 2 ^ w else x.toNat % 2 ^ w) snan) ∧
    (SWord s .fabs h b x y z t → exec (.fabs h b) s =
      lands .fabs (if p.isNan then nanCode b.ty else x.toNat % 2 ^ (w - 1)) nv) ∧
    (SWord s .fneg h b x y z t → exec (.fneg h b) s =
      lands .fneg (if p.isNan then nanCode b.ty
        else if bit (x.toNat % 2 ^ w) (w - 1) then x.toNat % 2 ^ (w - 1) else x.toNat % 2 ^ (w - 1) + 2 ^ (w - 1)) nv)

/-! ## Class S: memory -/

/-- R120, R121: `lds` and `spl` read their bytes at issue and deliver them to `ll` at k + 4; `sts` and `sps` write the low
bytes of their data at issue. Addresses are exact: Val(A) + sext(IMM), of the spill forms `ssp` + sext(IMM). -/
def Obligations.ScratchpadAccessCompletes : Prop :=
  ∀ (s : State) (h : Hdr) (b : SBody) (x y z : Word) (t : Strand),
    let n := b.ty.width / 8
    let e : Int := x.toNat + b.imm.toInt
    let sp : Int := t.ctx.ssp.toNat + b.imm.toInt
    let u (op : SOp) : State := s.reading (.s op h b) t
    let stored (op : SOp) (at_ : Int) (m : Nat) (v : Word) : Done := { s := (u op).spadStore at_.toNat (leBytes m v.toNat) }
    (SWord s .lds h b x y z t → TimedOk (u .lds) b.px.val e n false →
      exec (.lds h b) s = .next (s.lands (.s .lds h b) t 4 [.ll (BitVec.ofNat 64 ((u .lds).spadNum e.toNat n))])) ∧
    (SWord s .spl h b x y z t → TimedOk (u .spl) 0 sp 8 false →
      exec (.spl h b) s = .next (s.lands (.s .spl h b) t 4 [.ll (BitVec.ofNat 64 ((u .spl).spadNum sp.toNat 8))])) ∧
    (SDoes s .sts h b x y z t (stored .sts e n y) → TimedOk (u .sts) b.px.val e n true →
      exec (.sts h b) s = .next ((stored .sts e n y).after (.s .sts h b))) ∧
    (SDoes s .sps h b x y z t (stored .sps sp 8 x) → TimedOk (u .sps) 0 sp 8 true →
      exec (.sps h b) s = .next ((stored .sps sp 8 x).after (.s .sps h b)))

/-- R122, R123, R280, R335: `ldg`, `stg`, `aadd`, `axchg`, `acas` and `amax` complete: the access joins the strand's program order
in its class with its address, size and data, a mirrored store with its translated images; the old value of a load or an atomic
is due in `ll` at k + 64 and has not come; a store outside path 0x7 is held in the store buffer; an atomic, and an access on
path 0x7, is a region edge. Where the rules leave a point open it follows the model, as log entries 5, 42 say. -/
def Obligations.GlobalAccessCompletes : Prop :=
  ∀ (s : State) (h : Hdr) (b : SBody) (x y z : Word) (t : Strand) (p : Place) (pas ims : List Nat),
    let n := b.ty.width / 8
    let e := (x + b.imm.signExtend 64).toNat
    let u (op : SOp) : State := s.reading (.s op h b) t
    let due (op : SOp) := (u op).landLater 64 .data
    let atomic (op : SOp) (i : Instr) : Done :=
      { s := ((due op).2.addAsync
          { id := 0, seq := 0, eng := .s, cls := b.px.val, instr := i, vals := [x.toNat, n, y.toNat, z.toNat], pas := pas
            land := some (due op).1, level := s.homeLevel p (pas.headD 0) }).markEdge }
    let load : Done :=
      { s := ((due .ldg).2.addAsync
          { id := 0, seq := 0, eng := .s, cls := b.px.val, instr := .ldg h b, vals := [e, n], pas := pas
            land := some (due .ldg).1, level := s.homeLevel p (pas.headD 0) }).edgeIf (pathOf e == 7) }
    let imgs := (u .stg).imagesOf e n y.toNat
    let store : Done :=
      { own := true
        s := ((u .stg).addAsync
          { id := 0, seq := 0, eng := .s, cls := b.px.val, instr := .stg h b, vals := [e, n, y.toNat], pas := pas ++ ims
            idx := imgs.map Prod.fst, buf := imgs.map Prod.snd
            spost := h.spost.val, buffered := pathOf e != 7, level := s.homeLevel p (pas.headD 0) }).edgeIf
            (pathOf e == 7) }
    (SDoes s .ldg h b x y z t load → (u .ldg).globalAccess e n .read [0, 1, 3, 4, 5, 6, 7] = .ok (p, pas) →
      exec (.ldg h b) s = .next (load.after (.s .ldg h b))) ∧
    (SDoes s .stg h b x y z t store → (u .stg).globalAccess e n .write [0, 3, 4, 5, 6, 7] = .ok (p, pas) →
      (u .stg).imagePas (imgs.map Prod.fst) = .ok ims →
      exec (.stg h b) s = .next (store.after (.s .stg h b))) ∧
    (SDoes s .aadd h b x y z t (atomic .aadd (.aadd h b)) → (u .aadd).globalAccess x.toNat n .both [0, 3, 4, 6] = .ok (p, pas) →
      exec (.aadd h b) s = .next ((atomic .aadd (.aadd h b)).after (.s .aadd h b))) ∧
    (SDoes s .axchg h b x y z t (atomic .axchg (.axchg h b)) →
      (u .axchg).globalAccess x.toNat n .both [0, 3, 4, 6] = .ok (p, pas) →
      exec (.axchg h b) s = .next ((atomic .axchg (.axchg h b)).after (.s .axchg h b))) ∧
    (SDoes s .acas h b x y z t (atomic .acas (.acas h b)) → (u .acas).globalAccess x.toNat n .both [0, 3, 4, 6] = .ok (p, pas) →
      exec (.acas h b) s = .next ((atomic .acas (.acas h b)).after (.s .acas h b))) ∧
    (SDoes s .amax h b x y z t (atomic .amax (.amax h b)) → (u .amax).globalAccess x.toNat n .both [0, 3, 4, 6] = .ok (p, pas) →
      exec (.amax h b) s = .next ((atomic .amax (.amax h b)).after (.s .amax h b)))

/-- R124, R125, R126, R131: `fence` with nothing to cover, `waita` on a word, `idem`, `semadd` and `semrd` complete: the fence
leaves nothing, the wait is due in `ll` at k + 4 and has come if the word meets its threshold, `idem` makes the boundary of
its strand cycle, `semadd` raises its semaphore to at most 255, and `semrd` delivers the count at k + 1. A `fence` that
covers asynchronous accesses waits for them and stands in program order; one that covers timed accesses alone is due when the
last of them has been made. Where the rules leave a point open it follows the model, as log entry 41 says. -/
def Obligations.FenceWaitAndSemaphoreComplete : Prop :=
  ∀ (s : State) (h : Hdr) (b : SBody) (x y z : Word) (t : Strand),
    let u (op : SOp) : State := s.reading (.s op h b) t
    let imm := b.imm.toNat
    let n := b.ty.width / 8
    let m := bits imm 12 8
    let c := bits imm 7 0
    let v := (u .semadd).sem s.core m
    let lim := scopeLimit (bits imm 18 16)
    let ids := (u .fence).covered (bits imm 15 0) lim
    let raised : Done :=
      { s := if v + c ≤ 255 then (u .semadd).setSem s.core m (v + c)
             else ((u .semadd).setSem s.core m 255).upd fun t => { (t.setFlags fSEMSAT) with hmis := t.hmis + 1 } }
    let waits : Done :=
      { s := s.reading (.s .waita h b) (t.addLanding
          ((Landing.meet { id := 0, seq := t.seq, due := t.clock + 4, wait := .scratch x.toNat n b.ty (y.toNat % 2 ^ b.ty.width)
                           arrived := false } ((u .waita).spadNum x.toNat n)).wake (u .waita) s.core x.toNat (x.toNat + n))) }
    let l := (u .fence).landLater (Nat.max 1 (t.lastTimed - t.ctx.sclk)) (.fence ids lim)
    let come (m : Landing) : Landing := if m.id = l.1 then { m with arrived := true } else m
    let timed : Done := { s := l.2.tick.upd fun t => { t with pend := t.pend.map come, hpend := t.hpend.map come } }
    let covering : Done :=
      { s := l.2.tick.upd fun t => { t with asyncs := t.asyncs ++
          [{ id := l.2.fresh, seq := t.seq, eng := .s, cls := 0, instr := .fence h b, vals := ids, level := lim
             fence := some (bits imm 15 0), region := t.region }] } }
    let closed : Done := { s := if t.frozen || t.opened then u .idem else (u .idem).boundary }
    (SDoes s .fence h b x y z t { s := u .fence } → (u .fence).scopeCheck (bits imm 18 16) = .ok () → ids = [] →
      t.timedLeft = false → exec (.fence h b) s = .next (({ s := u .fence } : Done).after (.s .fence h b))) ∧
    (SDoes s .fence h b x y z t timed → (u .fence).scopeCheck (bits imm 18 16) = .ok () → ids = [] →
      t.timedLeft = true → exec (.fence h b) s = .next (timed.after (.s .fence h b))) ∧
    (SDoes s .fence h b x y z t covering → (u .fence).scopeCheck (bits imm 18 16) = .ok () → ids ≠ [] →
      exec (.fence h b) s = .next (covering.after (.s .fence h b))) ∧
    (SDoes s .waita h b x y z t waits → TimedOk (u .waita) b.px.val x.toNat n false →
      exec (.waita h b) s = .next (waits.after (.s .waita h b))) ∧
    (SDoes s .idem h b x y z t closed → exec (.idem h b) s = .next (closed.after (.s .idem h b))) ∧
    (SDoes s .semadd h b x y z t raised → m ≠ 0 → exec (.semadd h b) s = .next (raised.after (.s .semadd h b))) ∧
    (SWord s .semrd h b x y z t → exec (.semrd h b) s =
      .next (s.lands (.s .semrd h b) t 1
        [if b.as then .la1 (BitVec.ofNat 64 ((u .semrd).sem s.core m)) else .la0 (BitVec.ofNat 64 ((u .semrd).sem s.core m))]))

/-! ## Class S and every class: control -/

/-- R127, R128, R129: `jmp` and `jmpr` continue the S queue at their target modulo the ring length; `call` and `callr` write
the link word of the next index and the frame, lower `ssp` by the frame and continue at their target; `ret` reads the link
word at `ssp`, raises `ssp` by its frame and continues at its index. No other queue moves. -/
def Obligations.BranchCallAndReturnComplete : Prop :=
  ∀ (s : State) (h : Hdr) (b : SBody) (x y z : Word) (t : Strand),
    let u (op : SOp) : State := s.reading (.s op h b) t
    let goesTo (t : Strand) (i : Nat) : Strand :=
      t.setCtl .s { t.ctl .s with idx := i % (t.ctl .s).len, owe := none, waited := 0, word := none, fixed := false }
    let index := bits b.imm.toNat 13 0
    let f := bits b.imm.toNat 29 14
    let ssp := t.ctx.ssp.toNat
    let n : Int := ssp - f
    let framed : Prop := ssp % 8 = 0 ∧ t.ctx.slim.toNat ≤ n
    let called (op : SOp) (target : Nat) : Done :=
      { s := ((u op).spadStore n.toNat (leBytes 8 ((t.ctl .s).idx + f * 2 ^ 14))).upd fun t =>
          goesTo (t.updCtx fun c => { c with ssp := BitVec.ofNat 64 n.toNat }) target }
    let link := (u .ret).spadNum ssp 8
    let returned : Done :=
      { s := (u .ret).upd fun t =>
          goesTo (t.updCtx fun c => { c with ssp := BitVec.ofNat 64 (ssp + bits link 29 14) }) (bits link 13 0) }
    (SDoes s .jmp h b x y z t { s := s.reading (.s .jmp h b) (goesTo t index) } →
      exec (.jmp h b) s = .next (({ s := s.reading (.s .jmp h b) (goesTo t index) } : Done).after (.s .jmp h b))) ∧
    (SDoes s .jmpr h b x y z t { s := s.reading (.s .jmpr h b) (goesTo t x.toNat) } →
      exec (.jmpr h b) s = .next (({ s := s.reading (.s .jmpr h b) (goesTo t x.toNat) } : Done).after (.s .jmpr h b))) ∧
    (SDoes s .call h b x y z t (called .call index) → framed → TimedOk (u .call) 0 n 8 true →
      exec (.call h b) s = .next ((called .call index).after (.s .call h b))) ∧
    (SDoes s .callr h b x y z t (called .callr x.toNat) → framed → TimedOk (u .callr) 0 n 8 true →
      exec (.callr h b) s = .next ((called .callr x.toNat).after (.s .callr h b))) ∧
    (SDoes s .ret h b x y z t returned → TimedOk (u .ret) 0 ssp 8 false →
      exec (.ret h b) s = .next (returned.after (.s .ret h b)))

/-- R40, R128, R129, R242: what a call refuses, in the rule's order: a bad frame, a misaligned `ssp`, a frame outside scratchpad or
outside the strand's bank groups, a frame below `slim`; and all of a return: the link word it reads, the `ssp` and the index it
leaves, and its traps from a misaligned or outlying `ssp`. The trap is the word's only effect. That a frame outside the bank groups
traps before one below `slim` is the model's choice (log entry 185): R128's order does not list it. -/
def Obligations.CallAndReturnTraps : Prop :=
  ∀ (s : State) (h : Hdr) (b : SBody) (x y z : Word) (t : Strand),
    let f := bits b.imm.toNat 29 14
    let ssp := t.ctx.ssp.toNat
    let n : Int := ssp - f
    let traps (tr : Trap) : Host.Outcome State Fault Refusal := .next (s.unstall.takeTrap tr 0 1)
    let reads (op : SOp) : Prop := Ready s (.s op h b) ∧ ∃ t1,
      (s.acting (.s op h b)).t.readOpds .s (immVal b.ty b.imm) (sSlots op h b) = .ok ([x, y, z], t1) ∧ t1.transport b = .ok t
    let bad : Prop := f < 8 ∨ f % 8 ≠ 0
    let far : Prop := n < 0 ∨ n + 8 > 786432
    let r := s.reading (.s .ret h b) t
    let link := r.spadNum ssp 8
    let back (t : Strand) : Strand :=
      (t.updCtx fun c => { c with ssp := BitVec.ofNat 64 (ssp + bits link 29 14) }).setCtl .s
        { t.ctl .s with idx := bits link 13 0 % (t.ctl .s).len, owe := none, waited := 0, word := none, fixed := false }
    let returned : Done := { s := r.upd back }
    (Holds s (.s .call h b) → bad → exec (.call h b) s = traps (trapIL 6 8)) ∧
    (reads .call → ssp % 8 ≠ 0 → exec (.call h b) s = traps (trapAF 4 0)) ∧
    (reads .call → ssp % 8 = 0 → far → exec (.call h b) s = traps (trapAF 3 3)) ∧
    (reads .call → ssp % 8 = 0 → ¬ far → t.ownsBytes n.toNat 8 = false → exec (.call h b) s = traps (trapAF 3 3)) ∧
    (reads .call → ssp % 8 = 0 → ¬ far → t.ownsBytes n.toNat 8 = true → n < t.ctx.slim.toNat → exec (.call h b) s = traps trapSL) ∧
    (Holds s (.s .callr h b) → bad → exec (.callr h b) s = traps (trapIL 6 8)) ∧
    (reads .callr → ssp % 8 ≠ 0 → exec (.callr h b) s = traps (trapAF 4 0)) ∧
    (reads .callr → ssp % 8 = 0 → far → exec (.callr h b) s = traps (trapAF 3 3)) ∧
    (reads .callr → ssp % 8 = 0 → ¬ far → t.ownsBytes n.toNat 8 = false → exec (.callr h b) s = traps (trapAF 3 3)) ∧
    (reads .callr → ssp % 8 = 0 → ¬ far → t.ownsBytes n.toNat 8 = true → n < t.ctx.slim.toNat → exec (.callr h b) s = traps trapSL) ∧
    (reads .ret → ssp % 8 ≠ 0 → exec (.ret h b) s = traps (trapAF 4 0)) ∧
    (reads .ret → ssp % 8 = 0 → ssp + 8 > 786432 → exec (.ret h b) s = traps (trapAF 3 3)) ∧
    (SDoes s .ret h b x y z t returned → TimedOk r 0 ssp 8 false → exec (.ret h b) s = .next (returned.after (.s .ret h b)))

/-- R130, R132, R133: `lset`, `mfc`, `setg` and `sett` deliver at k + 1: Val(A)[31:0] to a loop register of the engine that IMM
names, a control register as it reads at issue to the latch of AS, Val(B)[31:0] above Val(A)[31:0] to a region register,
Val(A) without reserved bits to a tile configuration; `mtc` writes its register at issue. Where the rules leave a point open
it follows the model, as log entries 33, 34 say. -/
def Obligations.RegisterMovesComplete : Prop :=
  ∀ (s : State) (h : Hdr) (b : SBody) (x y z : Word) (t : Strand),
    let u (op : SOp) : State := s.reading (.s op h b) t
    let r := bits b.imm.toNat 8 0
    let v := if r < 0x20 then t.creg r else (u .mfc).coreReg s.core r
    let written : Done := { s := if r < 0x20 then s.reading (.s .mtc h b) (t.setCreg r x) else (u .mtc).setCoreReg t.rights s.core r x }
    (∀ n e, SWord s .lset h b x y z t → b.b = .lc n → Eng.ofNum (b.imm.toNat % 8) = some e →
      exec (.lset h b) s = .next (s.lands (.s .lset h b) t 1 [.loop e n (x.setWidth 32)])) ∧
    (SWord s .mfc h b x y z t →
      exec (.mfc h b) s = .next (s.lands (.s .mfc h b) t 1 [if b.as then .la1 v else .la0 v])) ∧
    (SDoes s .mtc h b x y z t written → (r = 0x0A → t.rot = true) →
      exec (.mtc h b) s = .next (written.after (.s .mtc h b))) ∧
    (∀ n, SWord s .setg h b x y z t → b.c = .g n →
      exec (.setg h b) s = .next (s.lands (.s .setg h b) t 1 [.region n (y.setWidth 32 ++ x.setWidth 32)])) ∧
    (∀ n, SWord s .sett h b x y z t → b.c = .t n →
      exec (.sett h b) s = .next (s.lands (.s .sett h b) t 1 [.tcfg n (x &&& 0xFFFF03FF)]))

/-- R57, R6: what a strand's move to a control register leaves: read-write registers hold the value, `rrb` its low four
bits and the resume points their defined bits, `flg` and the pending bits of `inten` are cleared where the value has ones,
and read-only registers keep what they held. -/
def Obligations.ControlRegisterAccess : Prop :=
  ∀ (t : Strand) (v : Word),
    (∀ n ∈ [0x02, 0x03, 0x04, 0x08, 0x09, 0x0D, 0x0F], (t.setCreg n v).creg n = v) ∧
    (t.setCreg 0x0A v).creg 0x0A = v &&& 0xF ∧
    (∀ n ∈ [0x06, 0x12, 0x13, 0x14, 0x15, 0x16], (t.setCreg n v).creg n = v &&& 0x1FFFFFF) ∧
    (t.setCreg 0x0B v).creg 0x0B = t.creg 0x0B &&& ~~~v ∧
    (t.setCreg 0x0C v).creg 0x0C = (v &&& 0x7) ||| (t.creg 0x0C &&& ~~~v &&& 0x700) ∧
    (∀ n ∈ [0x00, 0x01, 0x05, 0x07, 0x0E, 0x10, 0x11, 0x17, 0x1F], t.setCreg n v = t) ∧
    ∀ n m, n < 0x20 → m < 0x20 → n ≠ m → (t.setCreg n v).creg m = t.creg m

/-- R97, R99, R134, R259: the words of every class and the trap forms. `nop` does what its header says alone; `halt` halts its
queue; `lbr` and `rlbr` take the loop register one down, and `rlbr`, in rotating mode alone, turns the stage predicates and `rrb`,
from what the back-edges before them in the strand cycle leave: their registers are written at its close, and their queue
goes on at their target if they are taken; `tret` ends the freeze in a handler and has no effect elsewhere; `swi` raises
`SW 1` with the S queue at the next word; `brk` raises `BK 1`. Where the rules leave a point open it follows the model, as log
entries 22, 23 say. -/
def Obligations.EveryClassWordsComplete : Prop :=
  ∀ (s : State) (e : Cls) (h : Hdr) (g : Guard) (l : LoopBody) (code : BitVec 16) (b : SBody) (x y z : Word) (t : Strand),
    let halted : Done :=
      { s := (s.acting (.halt e h g)).upd fun t => t.setCtl e.eng { t.ctl e.eng with halted := true } }
    let before := t.closing.foldl (fun t b => t.applyBackEdge b) t
    let c := before.lcount e.eng l.lc.val
    let edge (v : View) (stages : Option (List Bool × Nat)) (taken : Prop) [Decidable taken] : Done :=
      let u : Strand := { t with closing := t.closing ++ [{ eng := e.eng, lc := l.lc, count := c - 1, stages := stages }] }
      { s := (s.acting v).setStrand s.cur
          (if taken then u.setCtl e.eng { u.ctl e.eng with idx := l.target.toNat % (u.ctl e.eng).len, owe := none, waited := 0
                                                           word := none, fixed := false }
           else u) }
    let turned := (List.range (l.stg.val + 1)).map fun j => if j = 0 then decide (2 ≤ c) else before.pred (7 + j)
    let loops : Done := edge (.lbr e h l) none (2 ≤ c)
    let rotates : Done := edge (.rlbr e h l) (some (turned, (before.ctx.rrb.toNat + 15) % 16)) (true ∈ turned)
    let moved (v : View) : Prop :=
      (if e = .s then (s.acting v).t.loopTransport l else .ok (s.acting v).t) = .ok t
    let back : Done := { s := if t.frozen then (s.reading (.s .tret h b) t).handlerReturn else s.reading (.s .tret h b) t }
    (Ready s (.nop e h g) → ({ s := s.acting (.nop e h g) } : Done).Quiet s (.nop e h g) →
      exec (.nop e h g) s = .next (({ s := s.acting (.nop e h g) } : Done).after (.nop e h g))) ∧
    (Ready s (.halt e h g) → halted.Quiet s (.halt e h g) →
      exec (.halt e h g) s = .next (halted.after (.halt e h g))) ∧
    (Ready s (.lbr e h l) → moved (.lbr e h l) → loops.Quiet s (.lbr e h l) →
      exec (.lbr e h l) s = .next (loops.after (.lbr e h l))) ∧
    (Ready s (.rlbr e h l) → moved (.rlbr e h l) → rotates.Quiet s (.rlbr e h l) → s.t.rot = true →
      exec (.rlbr e h l) s = .next (rotates.after (.rlbr e h l))) ∧
    (SDoes s .tret h b x y z t back → exec (.tret h b) s = .next (back.after (.s .tret h b))) ∧
    (Ready s (.s .swi h b) → s.t.frozen = false →
      exec (.swi h b) s = .next ((s.unstall.moveQueue .s ((s.t.ctl .s).idx + 1)).takeTrap (trapSW (bits b.imm.toNat 15 0)) 0 2)) ∧
    (Ready s (.brk h code) → exec (.brk h code) s =
      .next (s.unstall.takeTrap (trapBK code.toNat) s.t.placeEng.num (s.t.placeEng.num + 1)))


/-! ## Classes V, F and D -/

/-- R139, R142, R152: a V word (`vadd`, `vsub`, `vfma`, `vmul`, `vmin`, `vmax`, `vabs`, `vneg`, `vand`, `vor`, `vxor`, `vshl`,
`vshr`, `vsar`, `vmov`, `vclamp`, `vfill`, `vmad`, `viota`, `vceq`, `vcne`, `vclt`, `vcle`, `vcun`, `vsel`, `vcvt`, `vdp4`,
`vrsum`, `vrmax`, `vrmin`, `vrarg`, `vscan`, `vperm`, `vbcast`, `vgthl`, `vrev`, `vqmax`, `vqcvt`) and an F word in stream
mode (`frcp`, `fsqrt`, `frcpe`, `frsqe`, `fexp2`, `flog2`, `fsin`, `fcos`, `ftanh`, `ferf`, `fscl`, `fxtrExp`, `fxtrMan`,
`frnd`, `fcls`, `fcvt`, `fmov`, `fsgn`, `fmag`) complete: the word becomes a stream of ceil(n / 64) or ceil(n / 16) groups
that starts at max(k, the end of the engine's earlier stream) with a group every c strand cycles, holds its engine for G·c
and takes the draws of its elements; with n = 0 it holds nothing, and a reduction's value for no elements is due after its
latency. Where the rules leave a point open it follows the model, as log entry 58 says. -/
def Obligations.StreamWordsIssue : Prop :=
  ∀ (s : State) (h : Hdr) (b : VBody) (n : Nat) (rs : List (Nat × Rgn)) (vs : List Word) (t : Strand),
    let streams (e : Eng) (i : Instr) (v : View) (f : VForm) (k : StreamForm) : Prop :=
      let u := s.acting v
      let start := Nat.max u.t.ctx.sclk (u.t.streamEnd e)
      let c := rs.foldl (fun m x => Nat.max m (k.time x.1 x.2)) 1
      let g := ceilDiv n k.per
      let cells (x : Nat × Rgn) : Nat := if n = 0 && !(k.final && x.1 == 3 && k.empty.isSome) then 0 else k.touch x.1 n x.2.count
      let use (x : Nat × Rgn) : Use :=
        let o := k.order x.1 n x.2.count
        { rgn := x.2, n := cells x, per := if k.mixed x.1 then cells x else k.per, read := x.1 != 3, first := o.1, back := o.2.1
          lead := o.2.2 }
      let t1 := (t.setStreamEnd e (start + g * c)).drawn b.rnd (k.draws n)
      let timed := rs.flatMap fun x =>
        if x.1 = 3 then
          x.2.timed (cells x) (if k.final then cells x else k.per) c (start + k.lat + (if k.final then g * c else c)) true
        else (use x).timed c (if k.mixed x.1 then start + (g - 1) * c else start)
      let issued : Done :=
        { own := true
          s := u.setStrand s.cur
            { t1 with
              timed := t1.timed ++ timed
              streams := t1.streams ++
                [{ seq := t1.seq, eng := e, instr := i, start := start, c := c, groups := g, n := n
                   regs := (List.range 4).map fun j => t1.desc (formOpd f b j)
                   scal := vs.map BitVec.toNat, draws := t.draws b.rnd (k.draws n), spost := h.spost.val, tok := t1.seq
                   phys := match b.d with | .q n => t1.physQ n.val | _ => 0 }] } }
      let idle : Done := { s := u.setStrand s.cur (t.setStreamEnd e start) }
      let empty (x : Nat) : Done :=
        { own := true
          s := u.setStrand s.cur
            { (t.setStreamEnd e start).addLanding
                { id := 0, seq := t.seq, due := start + k.lat, effs := [t.resultEff b x], spost := h.spost.val } with
              timed := t.timed ++ rs.flatMap fun x =>
                if x.1 = 3 then x.2.timed (cells x) (cells x) 1 (start + k.lat) true else [] } }
      Ready s v → u.t.streamCheck e f b k = .ok (n, rs) → u.t.streamOperands e f h b = .ok (vs, t) →
      u.regionGate c start (rs.map use) (k.late n) = .ok () →
      (n ≠ 0 → issued.Quiet s v → exec i s = .next (issued.after v)) ∧
      (n = 0 → k.empty = none → idle.Quiet s v → exec i s = .next (idle.after v)) ∧
      (∀ x, n = 0 → k.empty = some x → (empty x).Quiet s v → exec i s = .next ((empty x).after v))
    (∀ op : VOp, streams .v (op.instr h b) (.v op h b) op.form (vForm op b)) ∧
    (∀ op : FOp, (∀ l, b.d ≠ .lf l) → streams .f (op.instr h b) (.f op h b) op.form (fForm op b))

/-- R152, R153: an F word in latch mode (`frcp`, `fsqrt`, `frcpe`, `frsqe`, `fexp2`, `flog2`, `fsin`, `fcos`, `ftanh`, `ferf`, `fscl`,
`fxtrExp`, `fxtrMan`, `frnd`, `fcls`, `fcvt`, `fmov`, `fsgn`, `fmag`) starts at max(k, the end of the engine's earlier word),
holds the engine for one strand cycle, and its result lands in its latch L strand cycles after its start. -/
def Obligations.SpecialFunctionLatchLands : Prop :=
  ∀ (s : State) (op : FOp) (h : Hdr) (b : VBody) (l : Fin 16) (vs : List Word) (t : Strand),
    let v : View := .f op h b
    let u := s.acting v
    let start := Nat.max u.t.ctx.sclk u.t.fEnd
    let lat : Nat :=
      if op = .frcpe ∨ op = .frsqe then 4
      else if op = .fexp2 ∨ op = .flog2 then 8
      else if op = .fsin ∨ op = .fcos ∨ op = .ftanh ∨ op = .ferf then 10
      else if op = .frcp ∨ op = .fsqrt then 12
      else 2
    let draws := if fRounds op b then 1 else 0
    let el (slot : Nat) : El := ⟨fScalTy op b slot, (vs.getD slot 0).toNat % 2 ^ (fScalTy op b slot).width⟩
    let r := fElem op b (el 0) (el 1) (el 2) ((t.draws b.rnd draws).headD 0)
    let d : Done :=
      { s := u.setStrand s.cur ((({ t with fEnd := start + 1 } : Strand).drawn b.rnd draws).addLanding
          { id := 0, seq := t.seq, due := start + lat, effs := [.lf l (BitVec.ofNat 64 r.1)], flags := r.2 }) }
    Ready s v → b.d = .lf l → u.t.streamOperands .f op.form h b = .ok (vs, t) → d.Quiet s v →
    exec (op.instr h b) s = .next (d.after v)

/-- R143, R144, R145: the element that `vadd`, `vsub`, `vmul`, `vmad`, `vabs`, `vneg`, `vmin`, `vmax`, `vclamp`, `viota`, `vand`, `vor`,
`vxor`, `vmov`, `vfill`, `vceq`, `vcne`, `vclt`, `vcle`, `vshl`, `vshr`, `vsar`, `vsel` and `vdp4` make of integer elements `x`, `y` and
`z` without NE: the exact result in the low w bits, or clamped to the type's range first with `.sat`. -/
def Obligations.VectorIntegerElements : Prop :=
  ∀ (b : VBody) (i : Nat) (x y z : El) (draw : Nat), b.ty.isInt = true → b.ne = false →
    x.ty = b.ty → y.ty = b.ty → z.ty = b.ty →
    let w := b.ty.width
    let sat (v : Int) : Int :=
      if b.vx.getLsbD 0 then max (intRange b.ty).1 (min (intRange b.ty).2 v) else v
    let elem (op : VOp) (v : Int) : Prop := vElem op b i x y z draw = ((v % 2 ^ w).toNat, 0)
    elem .vadd (sat (x.int + y.int)) ∧ elem .vsub (sat (x.int - y.int)) ∧ elem .vmul (sat (x.int * y.int)) ∧
    elem .vmad (sat (x.int * y.int + z.int)) ∧ elem .vabs (sat (if x.int < 0 then -x.int else x.int)) ∧
    elem .vneg (sat (-x.int)) ∧ elem .vmin (if x.int ≤ y.int then x.int else y.int) ∧
    elem .vmax (if x.int ≤ y.int then y.int else x.int) ∧ elem .viota (x.int + i * y.int) ∧
    elem .vand (x.code &&& y.code : Nat) ∧ elem .vor (x.code ||| y.code : Nat) ∧ elem .vxor (x.code ^^^ y.code : Nat) ∧
    elem .vmov x.code ∧ elem .vfill x.code ∧
    elem .vceq (if x.int = y.int then 1 else 0) ∧ elem .vcne (if x.int = y.int then 0 else 1) ∧
    elem .vclt (if x.int < y.int then 1 else 0) ∧ elem .vcle (if x.int ≤ y.int then 1 else 0) ∧
    elem .vshl (if w ≤ y.code % 2 ^ w % 256 then 0 else x.code * 2 ^ (y.code % 2 ^ w % 256) : Nat) ∧
    elem .vshr (x.code % 2 ^ w / 2 ^ (y.code % 2 ^ w % 256) : Nat) ∧
    elem .vsar (sext w x.code / 2 ^ (y.code % 2 ^ w % 256)) ∧
    elem .vclamp (sat (if (if x.int ≤ y.int then y.int else x.int) ≤ z.int then (if x.int ≤ y.int then y.int else x.int) else z.int)) ∧
    elem .vsel (if z.int = 0 then y.code else x.code) ∧
    (∀ p q : El, p.ty = .n32 → q.ty = .n32 →
      let byte (e : El) (j : Nat) : Int :=
        if b.ty.signed then sext 8 (e.code / 2 ^ (8 * j)) else ((e.code / 2 ^ (8 * j) % 256 : Nat) : Int)
      vElem .vdp4 b i p q z draw = (((z.int + byte p 0 * byte q 0 + byte p 1 * byte q 1 + byte p 2 * byte q 2 +
        byte p 3 * byte q 3) % 2 ^ 32).toNat, 0))

/-- R163 to R178: the D words complete: `dadd`, `dsub`, `dmul`, `dmax`, `dmin`, `daff`, `dmix`, `dsmp`, `dcond`, `dmom`, `dqnt`,
`dld`, `dsto`, `dlinSet` and `dlinGet` read their lanes at issue, and the whole result lands in one landing: of `dld` and
`dsto` at k + 4, of `daff` at k + 8, of `dmom` and `dqnt` at k + 12, of a raw pairing at k + 16, of `dmix` and `dcond` at k +
24, of `dsmp` at k + 24 + ceil(c·n / 64), of a condensed pairing at k + 40, of `dlin` at k + 1. With no lane it does nothing.
Where the rules leave a point open it follows the model, as log entries 60, 61 say. -/
def Obligations.DistributionWordsLand : Prop :=
  ∀ (s : State) (op : DOp) (h : Hdr) (b : VBody) (l0 n : Nat) (rs : List (Nat × Rgn)) (vs : List Word) (t : Strand),
    let v : View := .d op h b
    let u := s.acting v
    let c := bits b.vx.toNat 9 0
    let raw := Opd.isRegion b.d
    let lat : Nat := match op with
      | .dld | .dsto => 4
      | .daff => 8
      | .dmom | .dqnt => 12
      | .dmix | .dcond => 24
      | .dsmp => 24 + ceilDiv (c * n) 64
      | .dlinSet | .dlinGet => 1
      | _ => if raw then 16 else 40
    let need : RegionNeed := match op with
      | .dld | .dsto => fun _ n => (.f32, 16 * n)
      | .dsmp => fun _ n => (.f32, c * n)
      | .dcond | .dadd | .dsub | .dmul | .dmax | .dmin => fun _ n => (.f64, 128 * n)
      | .dlinSet | .dlinGet => noNeed
      | _ => laneNeed
    let draws : Nat := match op with | .daff => 8 | .dmom => 1 | _ => 0
    let t1 := t.drawn b.rnd (draws * n)
    let timed := rs.flatMap fun x =>
      if x.1 = 3 then x.2.timed (need 3 n).2 (need 3 n).2 1 (u.t.ctx.sclk + lat) true else []
    let rg (i : Nat) : Rgn := ((rs.find? fun x => x.1 == i).map Prod.snd).getD (rgn 0)
    let low (i : Nat) : Nat := (vs.getD i 0).toNat
    let real (i l : Nat) : XReal :=
      decode .f32 (if Opd.isRegion (formOpd op.form b i) then (rg i).get u l else low i)
    let na := Opd.dvNum b.a
    let nb := Opd.dvNum b.b
    let ma := u.dvMask s.core na
    let mb := u.dvMask s.core nb
    let ls := (List.range n).map (l0 + ·)
    let drawn := t.draws b.rnd (draws * n)
    let lanes (mask : Nat) (f : Nat → LaneOut × Nat) : DOut := dvOut b.d mask (ls.map fun l => (l, f l))
    let condensed (ps : Option (List Pt)) : LaneOut × Nat :=
      match ps with | none => (.invalid, fNV) | some pts => condense pts
    let points (l : Nat) : List (Nat × Nat) :=
      (List.range 8).map fun j => ((rg 0).get u (16 * l + 2 * j), (rg 0).get u (16 * l + 2 * j + 1))
    let pairs (o : PairOp) : DOut :=
      let dep := decide (ma &&& mb ≠ 0)
      let ps := ls.map fun l => (l, pairLane o dep (u.dvLane na l) (u.dvLane nb l))
      let out : DOut :=
        if raw then
          { effs := ps.flatMap fun x =>
              (rawSlots x.2).zipIdx.flatMap fun p =>
                [(rg 3).put (128 * x.1 + 2 * p.2) p.1.1, (rg 3).put (128 * x.1 + 2 * p.2 + 1) p.1.2]
            flags := ps.foldl (fun m x => fOr m (match x.2 with | none => fNV | some p => p.2)) 0 }
        else
          dvOut b.d (ma ||| mb) (ps.map fun x =>
            match x.2 with
            | none => (x.1, .invalid, fNV)
            | some p =>
              let c := condense (p.1.map Pair.pt |>.filter fun q => !q.w.isZero)
              (x.1, c.1, fOr p.2 c.2))
      { out with flags := if dep then fOr out.flags fDEP else out.flags }
    let o : DOut := match op with
      | .dld => lanes (low 1) fun l => (.points (points l), 0)
      | .dsto =>
        { effs := ls.flatMap fun l =>
            (u.dvLane na l).zipIdx.flatMap fun p =>
              [(rg 3).put (16 * l + 2 * p.2) p.1.1, (rg 3).put (16 * l + 2 * p.2 + 1) p.1.2] }
      | .dadd => pairs .add
      | .dsub => pairs .sub
      | .dmul => pairs .mul
      | .dmax => pairs .max
      | .dmin => pairs .min
      | .daff => lanes ma fun l => affineLane b.rnd (real 1 l) (real 2 l) (drawn.drop (8 * l)) (u.dvLane na l)
      | .dmix => lanes (ma ||| mb) fun l => mixLane (real 2 l) (u.dvLane na l) (u.dvLane nb l)
      | .dsmp => lanes (low 2) fun l =>
          condensed (lanePoints .f32 ((List.range c).map fun m => ((rg 0).get u (c * l + m), low 1 % 2 ^ 32)))
      | .dcond => lanes (low 1) fun l =>
          condensed (lanePoints .f64 ((List.range 64).map fun m =>
            ((rg 0).get u (128 * l + 2 * m), (rg 0).get u (128 * l + 2 * m + 1))))
      | .dmom => laneNumbers u.t b (rg 3) (ls.zipIdx.map fun l =>
          (l.1, momentLane (b.vx.toNat % 4) b.rnd (drawn.getD l.2 0) (u.dvLane na l.1)))
      | .dqnt => laneNumbers u.t b (rg 3) (ls.map fun l => (l, quantileLane (real 1 l) (u.dvLane na l)))
      | .dlinSet => { effs := match b.d with | .dv m => [.dvMask m (BitVec.ofNat 16 (low 1))] | _ => [] }
      | .dlinGet => { effs := match b.d with | .q q => [.push (u.t.physQ q.val) u.t.seq (BitVec.ofNat 64 ma)] | _ => [] }
    let landed : Done :=
      { s := u.setStrand s.cur
          { t1.addLanding { id := 0, seq := t.seq, due := u.t.ctx.sclk + lat, effs := o.effs, flags := o.flags } with
            timed := t.timed ++ timed } }
    let idle : Done := { s := u }
    Ready s v → u.dRegions op.form b need = .ok (l0, n, rs) →
    (n = 0 → idle.Quiet s v → exec (op.instr h b) s = .next (idle.after v)) ∧
    (n ≠ 0 → u.t.streamOperands .v op.form h b = .ok (vs, t) →
      u.regionGate 0 u.t.ctx.sclk
        (rs.map fun x => { rgn := x.2, n := (need x.1 n).2, per := 1, read := x.1 != 3 }) (.ok ()) = .ok () →
      u.lanePoison b l0 n = .ok () → landed.Quiet s v → exec (op.instr h b) s = .next (landed.after v))

/-! ## Class M -/

/-- R181, R184 to R186, R192: `mmi`, `mma`, `gmmi` and `gmma` complete: the word occupies the array for the strand cycles of its
pairing and is delivered 8 more later, of a gang form the hold horizon besides; it starts the accumulator from zero, or adds
to it if it is valid. Where the rules leave a point open it follows the model, as log entries 63, 66 say. -/
def Obligations.MultiplyAccumulateIssues : Prop :=
  ∀ (s : State) (h : Hdr) (b : MBody),
    let word (op : MOp) (gang fromZero : Bool) : Prop :=
      let v : View := .m op h b
      let u := s.acting v
      let ta := u.t.tile b.a
      let tb := u.t.tile b.b
      let a := Opd.accNum b.d
      let ca := if gang then u.gangCore (u.t.rank / u.t.cols) 0 else u.core
      let cb := if gang then u.gangCore 0 (u.t.rank % u.t.cols) else u.core
      let start := Nat.max u.t.ctx.sclk u.t.mEnd
      ∀ pr : Pairing, pairing ta.ty tb.ty = some pr →
        let init := fromZero || !(u.t.accView a).1
        let p : MPlan :=
          { busy := pr.busy ta.cols, lat := 8 + pr.busy ta.cols + (if gang then u.horizon else 0)
            rd := (u.tileReads ca ta).1 ++ (u.tileReads cb tb).1, wr := [accRange a]
            far := (u.tileReads ca ta).2 ++ (u.tileReads cb tb).2, acc := some (a, pr.intMode)
            vals := [(vget u.t.ctx.tcfg ta.n 0).toNat, (vget u.t.ctx.tcfg tb.n 0).toNat, ca, cb, b2n init] }
        let d := u.timedWord h (op.instr h b) .rne p
        Ready s v → ta.ok = true → ta.rows ≤ 64 → tb.ok = true → tb.rows ≤ 128 → ta.cols = tb.cols →
        (fromZero = true ∨ (u.t.accView a).1 = false ∨ (u.t.accView a).2 = pr.intMode) →
        u.mGate start p (.ok ()) = .ok () → d.Quiet s v → exec (op.instr h b) s = .next (d.after v)
    word .mmi false true ∧ word .mma false false ∧ word .gmmi true true ∧ word .gmma true false

/-- R193, R195, R196: the other timed words without a scalar operand complete. `mhad`, `mtcv` and `mtrn` occupy the array for
ceil(R·C / 1024) and are delivered 6 later; `mdrt` and `mdrs` for ceil(n / 1024), 4 later; `mclr` for 1 and is delivered at
2; `macp` for 8, at 12; `mtld` and `mtst` for ceil(bytes / 2048), 4 later. Where the rules leave a point open it follows the
model, as log entries 63, 64, 66 say. -/
def Obligations.MatrixMoveWordsIssue : Prop :=
  ∀ (s : State) (h : Hdr) (b : MBody),
    let word (op : MOp) (rnd : Rnd) (p : State → MPlan) (ok : State → Prop) : Prop :=
      let v : View := .m op h b
      let u := s.acting v
      let d := u.timedWord h (op.instr h b) rnd (p u)
      Ready s v → ok u → u.mGate (Nat.max u.t.ctx.sclk u.t.mEnd) (p u) (.ok ()) = .ok () → d.Quiet s v →
      exec (op.instr h b) s = .next (d.after v)
    let cfg (u : State) (o : Opd) : Nat := (vget u.t.ctx.tcfg (u.t.tile o).n 0).toNat
    let tiles (draws : Bool) (u : State) : MPlan :=
      let ta := u.t.tile b.a
      let n := ta.rows * ta.cols
      { busy := ceilDiv n 1024, lat := 6 + ceilDiv n 1024, draws := if draws then n else 0, rd := [ta.range]
        wr := [(u.t.tile b.d).range], vals := [cfg u b.a, cfg u b.d] }
    let tilesOk (shape : Tile → Tile → Prop) (u : State) : Prop :=
      (u.t.tile b.a).ok = true ∧ (u.t.tile b.d).ok = true ∧ shape (u.t.tile b.a) (u.t.tile b.d)
    let mx := b.mx.toNat
    let drt (u : State) : MPlan :=
      let td := u.t.tile b.d
      let n := td.rows * td.cols
      let c := 32 * bits mx 1 0
      { busy := ceilDiv n 1024, lat := 4 + ceilDiv n 1024, draws := n
        rd := [(accAt (Opd.accNum b.a) 0 c, accAt (Opd.accNum b.a) (td.rows - 1) (c + td.cols))], wr := [td.range]
        clear := if bit mx 2 then [(accAt (Opd.accNum b.a) 0 c, accAt (Opd.accNum b.a) (td.rows - 1) (c + td.cols))] else []
        vals := [0, cfg u b.d] }
    let drs (u : State) : MPlan :=
      let d := rgn (u.t.desc b.d)
      let n := 128 * bits mx 5 0
      { busy := ceilDiv d.count 1024, lat := 4 + ceilDiv d.count 1024, draws := d.count, rgns := [(d, d.count, false)]
        rd := if d.count = 0 then [] else [(accAt (Opd.accNum b.a) 0 n, accAt (Opd.accNum b.a) 0 (n + d.count))]
        vals := [u.t.desc b.d] }
    let cp (add : Bool) (u : State) : MPlan :=
      let init := !add || !(u.t.accView (Opd.accNum b.d)).1
      let mode :=
        if init then u.t.modeAt (u.coreAt u.core).acm (Opd.accNum b.a) (Nat.max u.t.ctx.sclk u.t.mEnd)
        else (u.t.accView (Opd.accNum b.a)).2
      { busy := 8, lat := 12, rd := [accRange (Opd.accNum b.a)], wr := [accRange (Opd.accNum b.d)]
        acc := some (Opd.accNum b.d, mode)
        vals := [b2n init, b2n mode] }
    let cpOk (add : Bool) (u : State) : Prop :=
      add = false ∨ (u.t.accView (Opd.accNum b.d)).1 = false ∨
        (u.t.accView (Opd.accNum b.d)).2 = (u.t.accView (Opd.accNum b.a)).2
    let move (load : Bool) (u : State) : MPlan :=
      let ro := if load then b.a else b.d
      let dst := if load then b.d else b.a
      let t := u.t.tile dst
      { busy := ceilDiv t.bytes 2048, lat := 4 + ceilDiv t.bytes 2048, rgns := [(rgn (u.t.desc ro), t.bytes, load)]
        rd := if load then [] else [t.range], wr := if load then [t.range] else []
        vals := [u.t.desc ro, cfg u dst] }
    let moveOk (load : Bool) (u : State) : Prop :=
      let ro := if load then b.a else b.d
      let t := u.t.tile (if load then b.d else b.a)
      let r := rgn (u.t.desc ro)
      t.ok = true ∧ r.stride = 1 ∧ t.bytes ≤ r.count ∧
        u.t.regionCheck [(if load then 0 else 3, ro)] (fun _ ty => ty == .n8) = .ok ()
    word .mhad b.rnd (tiles true) (tilesOk fun a d => a.rows = d.rows ∧ a.cols = d.cols ∧ a.cols % (16 * 2 ^ bits mx 1 0) = 0) ∧
    word .mtrn b.rnd (tiles false) (tilesOk fun a d => d.rows = a.cols ∧ d.cols = a.rows ∧ d.ty = a.ty) ∧
    word .mtcv b.rnd (tiles true) (tilesOk fun a d => a.rows = d.rows ∧ a.cols = d.cols) ∧
    word .mdrt b.rnd drt (fun u => (u.t.tile b.d).ok = true ∧ (u.t.tile b.d).rows ≤ 64 ∧ 32 * bits mx 1 0 + (u.t.tile b.d).cols ≤ 128) ∧
    word .mdrs b.rnd drs (fun u => (rgn (u.t.desc b.d)).count ≤ 8192 - 128 * bits mx 5 0 ∧
      u.t.regionCheck [(3, b.d)] (fun _ t => t.isMatrix || t == .f64 || t == .i64) = .ok ()) ∧
    word .mclr .rne (fun _ => { busy := 1, lat := 2, wr := [accRange (Opd.accNum b.d)], acc := some (Opd.accNum b.d, bit mx 0) })
      (fun _ => True) ∧
    word .macpCpy .rne (cp false) (cpOk false) ∧ word .macpAdd .rne (cp true) (cpOk true) ∧
    word .mtld .rne (move true) (moveOk true) ∧ word .mtst .rne (move false) (moveOk false)

/-- R194: `mqnt`, `mhadq` and `mdrb` complete: they write one block of Kb elements after another into their region, occupy the
array for ceil(R·C / 512) and are delivered 8 later. Where the rules leave a point open it follows the model, as log entries
65, 66 say. -/
def Obligations.BlockWordsIssue : Prop :=
  ∀ (s : State) (h : Hdr) (b : MBody) (x y z : Word) (t : Strand),
    let word (op : MOp) (fmtCode rows cols : Nat) (src : List (Nat × Nat)) (vals : List Nat) (ok : Prop) : Prop :=
      let v : View := .m op h b
      let u := (s.acting v).setStrand s.cur t
      let kb := y.toNat
      let d := rgn (t.desc b.d)
      let busy := ceilDiv (rows * cols) 512
      let blocks := rows * (cols / kb)
      let opd (st : OpSet) (o : Opd) : Opd := if st = .sc then o else .zero
      let p : MPlan :=
        { busy := busy, lat := 8 + busy, draws := rows * cols, rgns := [(d, 64 * blocks, false)], rd := src, vals := vals }
      let out := u.timedWord h (op.instr h b) b.rnd p
      Ready s v → (s.acting v).t.readOpds .m 0 [(opd op.form.a b.a, h.peekA), (opd op.form.b b.b, h.peekB), (opd op.form.c b.c, h.peekC)] =
        .ok ([x, y, z], t) →
      t.regionCheck [(3, b.d)] (fun _ _ => true) = .ok () → 1 ≤ kb → kb ≤ 124 → cols % kb = 0 → ok →
      (d.ty = .n8 ∧ d.stride = 1 ∧ d.base % 64 = 0 ∧ 64 * blocks ≤ d.count) →
      tyMatrix.contains fmtCode = true → (∀ fmt, Ty.ofCode fmtCode = some fmt → kb ≤ blockCapacity fmt) →
      u.mGate (Nat.max t.ctx.sclk t.mEnd) p (.ok ()) = .ok () → out.Quiet s v → exec (op.instr h b) s = .next (out.after v)
    let ta := t.tile b.a
    let cfg := (vget t.ctx.tcfg ta.n 0).toNat
    let code := b.mx.toNat % 32
    word .mqnt code ta.rows ta.cols [ta.range] [cfg, t.desc b.d, y.toNat] (ta.ok = true) ∧
    word .mhadq (z.toNat % 32) ta.rows ta.cols [ta.range] [cfg, t.desc b.d, y.toNat, z.toNat % 32]
      (ta.ok = true ∧ ta.cols % (16 * 2 ^ bits b.mx.toNat 1 0) = 0) ∧
    word .mdrb code z.toNat 128 [(accAt (Opd.accNum b.a) 0 0, accAt (Opd.accNum b.a) z.toNat 0)] [t.desc b.d, y.toNat, z.toNat]
      (1 ≤ z.toNat ∧ z.toNat ≤ 64)

/-- R184, R189, R190, R192: `mmih`, `mmah`, `gmmih` and `gmmah` complete: as a command of the origin's channel they read the rows
of the tensor that the handle names, whatever its record says by then, from the origin, of a gang form moved by the strand's
place in the gang, and hold the footprint of their accumulator, tile and tensor. Where the rules leave a point open it
follows the model, as log entry 41 says. -/
def Obligations.HandleWordsIssue : Prop :=
  ∀ (s : State) (h : Hdr) (b : MBody) (x y z : Word) (t : Strand) (r : LayoutRec) (slot hints : Nat),
    let word (op : MOp) (gang fromZero : Bool) : Prop :=
      let v : View := .m op h b
      let u := (s.acting v).setStrand s.cur t
      let opd (st : OpSet) (o : Opd) : Opd := if st = .sc then o else .zero
      let inA := decide (b.a = .handle)
      let tile := t.tile (if inA then b.b else b.a)
      let a := Opd.accNum b.d
      let rows := bits b.mx.toNat 6 0 + 1
      let row := sext 30 (bits z.toNat 61 32) +
        (if gang then ((if inA then 64 * (t.rank / t.cols) else 128 * (t.rank % t.cols) : Nat) : Int) else 0)
      let col := sext 32 (bits z.toNat 31 0)
      let core := if gang then (if inA then u.gangCore 0 (t.rank % t.cols) else u.gangCore (t.rank / t.cols) 0) else u.core
      let rd := r.fetch rows row col tile.cols
      ∀ pr : Pairing, pairing r.ty tile.ty = some pr →
        let cmd : Async :=
          { id := 0, seq := 0, eng := .m, cls := 0, instr := op.instr h b, chan := some (bits z.toNat 63 62)
            vals := [rows, (vget t.ctx.tcfg tile.n 0).toNat, core, b2n (fromZero || !(t.accView a).1), b2n pr.intMode, wrap 64 col,
              Nat.max (t.accPending a) t.lastTimed, r.base, r.fmt, r.kblk, r.ndim, b2n r.edge, r.n.getD 0 1]
            rd := rd, buf := unread ((rd.map Piece.len).sum), posted := r.posted rows tile.cols
            fp := [winRange u.core (accRange a).1 (accRange a).2 true, winRange core tile.range.1 tile.range.2 false] ++
              fetchHull u.core rd
            level := 1 }
        let d : Done :=
          { own := true, trk := slot != 0
            s := (u.recordTaken.commanded h cmd slot hints).upd fun t =>
              { t with accIss := t.accIss.set a (true, pr.intMode) } }
        Ready s v → (s.acting v).t.readOpds .m 0
          [(opd op.form.a b.a, h.peekA), (opd op.form.b b.b, h.peekB), (opd op.form.c b.c, h.peekC)] = .ok ([x, y, z], t) →
        bit t.channels (bits z.toNat 63 62) = true → tile.ok = true → tile.rows ≤ (if inA then 128 else 64) →
        u.handleCheck b.hnd.toNat (fun f => tileCheck (f.any fun x => (pairing x tile.ty).isSome) tile.n) (if inA then 0 else 1) = .ok r →
        (fromZero = true ∨ (t.accView a).1 = false ∨ (t.accView a).2 = pr.intMode) →
        t.footGate u.core h.trk.val cmd.fp = .ok (slot, hints) → d.Quiet s v → exec (op.instr h b) s = .next (d.after v)
    word .mmih false true ∧ word .mmah false false ∧ word .gmmih true true ∧ word .gmmah true false

/-! ## Class C -/

/-- R197 to R200, R203, R206, R207, R211: `cpy`, `cfill`, `cprm`, `gth` and `sct` complete. With a count of 0 the command
completes at issue with its flag word alone; else it takes its channel's next identifier and its place in program order with
the pieces that it reads and writes and its footprint, and closes a region whose checkpoint it would outlive. Where the rules
leave a point open it follows the model, as log entries 6, 71, 72 say. -/
def Obligations.CopyWordsIssue : Prop :=
  ∀ (s : State) (h : Hdr) (b : CBody) (w x y z : Word) (t : Strand) (flag : Option (Nat × Nat)) (slot hints : Nat),
    let word (op : COp) (size n : Nat) (rs : State → List Range) (flg : Bool) (a : State → Async) (ok : State → Prop) : Prop :=
      let v : View := .c op h b
      let u := (s.acting v).setStrand s.cur t
      let f := op.form
      let use (st : OpSet) (o : Opd) : Opd := match st with | .sc => o | .nv => o | _ => .zero
      let cmd : Async :=
        { a u with
          eng := .c, cls := b.oc.val, chan := some b.ch.val, flag := flag
          fp := ((rs u).flatMap fun r => footRange u.core r.e r.n (r.kind != .read)) ++ (a u).fp ++ flagRange u.core flag size
          level := ((rs u).map fun r => u.windowLevel r.e).foldl Nat.min 5 }
      let issued : Done :=
        { own := true, trk := slot != 0
          s := let c := u.commanded h cmd slot hints
               if (rs u).any fun r => r.kind != .read && u.reachesOut r.e r.n then c.markEdge else c }
      let hinted := u.upd fun t => { t with hmis := t.hmis + BitVec.ofNat 64 hints }
      let c1 := (hinted.takeXid b.ch.val).2
      let done := c1.updCore u.core fun k =>
        { k with chans := mset b.ch.val ((c1.chan u.core b.ch.val).complete (hinted.takeXid b.ch.val).1) k.chans }
      let finished : Done := { trk := slot != 0, s := match flag with | some p => done.chipWrite u.core p.1 (leBytes size p.2) | none => done }
      Ready s v →
      (s.acting v).t.readOpds .c (b.imm.setWidth 64)
        [(use f.a b.a, h.peekA), (use f.b b.b, h.peekB), (use f.c b.c, h.peekC),
         (if f.flag && b.fw then b.d else use f.d b.d, h.peekD)] = .ok ([w, x, y, z], t) →
      u.rangesCheck (rs u) = .ok () → flag = (if flg then flagOf b.fw z.toNat else none) →
      flagCheck (flg && b.fw) z.toNat size = .ok () → ok u →
      (n = 0 → t.footGate u.core h.trk.val (flagRange u.core flag size) = .ok (slot, hints) → finished.Quiet s v → exec (op.instr h b) s = .next (finished.after v)) ∧
      (n ≠ 0 → u.rangesTranslate (rs u) = .ok () → t.footGate u.core h.trk.val cmd.fp = .ok (slot, hints) → issued.Quiet s v →
        exec (op.instr h b) s = .next (issued.after v))
    let cmd (i : Instr) : Async := { id := 0, seq := 0, eng := .c, cls := 0, instr := i }
    let dst := w.toNat
    let src := x.toNat
    let n := y.toNat
    let rows := bits n 63 32
    let len := bits n 31 0
    let dp := sext 32 (bits z.toNat 63 32)
    let sp := sext 32 (bits z.toNat 31 0)
    let hull (e : Nat) (p : Int) (k : AccKind) : Range := if rows = 0 ∨ len = 0 then ⟨e, 0, k⟩ else rowsRange e rows len p k
    let idx := rgn (t.desc b.c)
    let m := 2 ^ bits b.cx.toNat 2 0
    let indexed (i : Instr) (u : State) : Async :=
      { cmd i with
        vals := [dst, src, m, b.imm.toNat], regs := [t.desc b.c], idx := List.range idx.count, buf := unread (idx.count * m)
        fp := [winRange u.core (idx.hull idx.count).1 (idx.hull idx.count).2 false] }
    let idxOk (u : State) : Prop :=
      t.regionCheck [(2, b.c)] (fun _ ty => ty == .n32) = .ok () ∧ dst % Nat.min m 8 = 0 ∧ src % Nat.min m 8 = 0 ∧
        u.indexesOk idx idx.count = true
    word .cpy 4 n (fun _ => [⟨dst, n, .write⟩, ⟨src, n, .read⟩]) true
      (fun _ => { cmd (.cpy h b) with rd := pieces 0 0 src n, wr := pieces 0 0 dst n, buf := unread n }) (fun _ => n < 2 ^ 32) ∧
    word .cfill 4 n (fun _ => [⟨dst, n, .write⟩]) true
      (fun _ => { cmd (.cfill h b) with
                  wr := pieces 0 0 dst n, buf := (List.range n).map fun i => bits src (8 * (i % 8) + 7) (8 * (i % 8)) })
      (fun _ => n < 2 ^ 32) ∧
    word .cprm 4 (if rows = 0 ∨ len = 0 then 0 else len) (fun _ => [hull dst dp .write, hull src sp .read]) false
      (fun _ => { cmd (.cprm h b) with
                  rd := (List.range rows).flatMap fun (r : Nat) => pieces r (r * len) (moveAddr src ((r : Int) * sp)) len
                  wr := (List.range rows).flatMap fun (r : Nat) => pieces r (r * len) (moveAddr dst ((r : Int) * dp)) len
                  buf := unread (rows * len) })
      (fun _ => rows < 2 ^ 16) ∧
    word .gth 8 idx.count (fun _ => [⟨dst, idx.count * m, .write⟩, ⟨src, b.imm.toNat * m, .read⟩]) true (indexed (.gth h b)) idxOk ∧
    word .sct 8 idx.count (fun _ => [⟨dst, b.imm.toNat * m, .write⟩, ⟨src, idx.count * m, .read⟩]) true (indexed (.sct h b)) idxOk

/-- R209, R210: `cpt` and `cpf` complete: as a command they fetch the rows of the tensor that the handle names into their tile,
with a draw for each element that is rounded; `cpf` brings its follow-on word's tiles, accumulator and footprint. -/
def Obligations.TileFetchesIssue : Prop :=
  ∀ (s : State) (h : Hdr) (b : CBody) (fo : FollowOn) (w x y z : Word) (t : Strand) (flag : Option (Nat × Nat)) (r : LayoutRec)
    (slot hints : Nat),
    let word (i : Instr) (v : View) (f : CForm) (begun : State) (f1 : State → Follow) : Prop :=
      let u := begun.setStrand s.cur t
      let use (st : OpSet) (o : Opd) : Opd := match st with | .sc => o | .nv => o | _ => .zero
      let td := t.tile b.a
      let rows := bits b.cx.toNat 6 0 + 1
      let row := sext 30 (bits y.toNat 61 32)
      let col := sext 32 (bits y.toNat 31 0)
      let rd := r.fetch rows row col td.cols
      let draws := if pathOf r.base = 2 then rows * td.cols else 0
      let drawn := u.recordTaken.draw (cxRnd b) draws
      let cmd : Async :=
        { id := 0, seq := 0, eng := .c, cls := b.oc.val, instr := i, chan := some b.ch.val, flag := flag
          vals := [rows, (vget t.ctx.tcfg td.n 0).toNat, wrap 64 col, r.base, r.fmt, r.kblk, r.ndim, b2n r.edge, r.n.getD 0 1] ++
            (f1 u).vals
          draws := drawn.1, rd := rd, buf := unread ((rd.map Piece.len).sum), posted := r.posted rows td.cols
          fp := fetchHull u.core rd ++ [winRange u.core td.range.1 td.range.2 true] ++ (f1 u).fp ++ flagRange u.core flag 4
          level := 1 }
      let c := drawn.2.commanded h cmd slot hints
      let d : Done :=
        { own := true, trk := slot != 0
          s := match (f1 u).acc with
            | some a => c.upd fun t => { t with accIss := t.accIss.set a.1 (true, a.2) }
            | none => c }
      Ready s v →
      begun.t.readOpds .c (b.imm.setWidth 64)
        [(use f.a b.a, h.peekA), (use f.b b.b, h.peekB), (use f.c b.c, h.peekC),
         (if f.flag && b.fw then b.d else use f.d b.d, h.peekD)] = .ok ([w, x, y, z], t) →
      (f1 u).checks = .ok () → flag = flagOf b.fw z.toNat → flagCheck b.fw z.toNat 4 = .ok () → td.ok = true → rows ≤ td.rows →
      u.handleCheck b.imm.toNat (fun f => tileCheck (f.any fun x => (pairing x td.ty).isSome) td.n) 1 = .ok r →
      (pathOf r.base ≠ 2 → bits b.cx.toNat 9 7 = 0 ∧ r.ty = td.ty) →
      (drawn.2.t.footGate u.core h.trk.val cmd.fp = .ok (slot, hints)) → d.Quiet s v → exec i s = .next (d.after v)
    let cpf : View := .cpf h b fo
    word (.cpt h b) (.c .cpt h b) (COp.form .cpt) (s.acting (.c .cpt h b)) (fun _ => {}) ∧
    word (.cpf h b fo) cpf cpfForm (s.begun .c 2 h.swait.val) (fun u => u.follow fo)

/-- R200, R213, R214: `wstr`, `hbind` and `hfree` complete: a weight stream as a command with its draws, a bind with its image's
pieces and a push due at k + 64 for the handle, a free with its slot; bind and free are region edges. Where the rules leave a
point open it follows the model, as log entries 67, 68 say. -/
def Obligations.StreamAndHandleCommandsIssue : Prop :=
  ∀ (s : State) (h : Hdr) (b : CBody) (w x y z : Word) (t : Strand) (flag : Option (Nat × Nat)) (slot hints : Nat),
    let u (op : COp) : State := (s.acting (.c op h b)).setStrand s.cur t
    let reads (op : COp) : Prop :=
      let f := op.form
      let use (st : OpSet) (o : Opd) : Opd := match st with | .sc => o | .nv => o | _ => .zero
      Ready s (.c op h b) ∧ (s.acting (.c op h b)).t.readOpds .c (b.imm.setWidth 64)
        [(use f.a b.a, h.peekA), (use f.b b.b, h.peekB), (use f.c b.c, h.peekC),
         (if f.flag && b.fw then b.d else use f.d b.d, h.peekD)] = .ok ([w, x, y, z], t)
    let completes (op : COp) (d : Done) : Prop :=
      d.Quiet s (.c op h b) → exec (op.instr h b) s = .next (d.after (.c op h b))
    let cmd (i : Instr) (cls level : Nat) : Async :=
      { id := 0, seq := 0, eng := .c, cls := cls, instr := i, chan := some b.ch.val, level := level }
    let td := t.tile b.a
    let ws : Async :=
      { cmd (.wstr h b) b.oc.val 1 with
        flag := flag, vals := [x.toNat, y.toNat, (vget t.ctx.tcfg td.n 0).toNat], draws := t.draws (cxRnd b) (td.rows * td.cols)
        fp := [winRange (u .wstr).core td.range.1 td.range.2 true] ++ flagRange (u .wstr).core flag 4 }
    let drawn := (u .wstr).setStrand s.cur (t.drawn (cxRnd b) (td.rows * td.cols))
    let table (op : COp) (s1 : State) (sl : Nat) : Nat := s1.addrLevel (bits (((u op).vf (u op).t.vf).ltb + 64 * sl) 47 0) true
    let bind (l : Nat) (sl : Nat) : Async :=
      { cmd (.hbind h b) b.oc.val (table .hbind (u .hbind) sl) with
        land := some l, vals := [sl], rd := pieces 0 0 w.toNat 64, buf := unread 64, fp := footRange s.core w.toNat 64 false }
    (reads .wstr → y.toNat < 2 ^ 32 → (u .wstr).pathCheck x.toNat (Nat.max y.toNat 1) .read [1] = .ok () →
      flag = flagOf b.fw z.toNat → flagCheck b.fw z.toNat 4 = .ok () → td.ok = true → (u .wstr).rangeTranslate x.toNat y.toNat false = .ok () →
      drawn.t.footGate drawn.core h.trk.val ws.fp = .ok (slot, hints) →
      completes .wstr { own := true, trk := slot != 0, s := drawn.commanded h ws slot hints }) ∧
    (∀ q l s1 sl, reads .hbind → b.d = .q q → (u .hbind).pushLater q 64 = .ok (l, s1) →
      (u .hbind).pathCheck w.toNat 64 .read [3] = .ok () → w.toNat % 64 = 0 → (u .hbind).slotCheck x.toNat = .ok sl →
      s1.t.footGate s1.core h.trk.val (bind l sl).fp = .ok (slot, hints) →
      completes .hbind { own := true, trk := slot != 0, s := (s1.commanded h (bind l sl) slot hints).markEdge }) ∧
    (∀ sl, reads .hfree → (u .hfree).slotCheck w.toNat = .ok sl → t.footGate (u .hfree).core h.trk.val [] = .ok (slot, hints) →
      completes .hfree { own := true, trk := slot != 0
                         s := ((u .hfree).commanded h { cmd (.hfree h b) 0 (table .hfree (u .hfree) sl) with vals := [sl] } slot
                           hints).markEdge })

/-- R215 to R222: the quoin and scan words complete: `rowopn`, `rowpin`, `rowrel` and `scngo` as commands, `rowwr` as one with
the bytes of its source as they are at issue, `rowrd` as a timed write of scratchpad due after the latency of its half of the
package; a `scngo` of no rows completes at issue with its flag word; `rowst`, `scnrd` and `scnst` reserve a push due at k + 64;
`scnthr` sets type and threshold of a free unit and marks the strand's view busy of a claimed one; `scnstp` asks a running
scan to halt. Where the rules leave a point open it follows the model, as log entries 16, 73, 75, 76 say. -/
def Obligations.RowAndScanWordsIssue : Prop :=
  ∀ (s : State) (h : Hdr) (b : CBody) (w x y z : Word) (t : Strand) (flag : Option (Nat × Nat)) (slot hints : Nat),
    let u (op : COp) : State := (s.acting (.c op h b)).setStrand s.cur t
    let reads (op : COp) : Prop :=
      let f := op.form
      let use (st : OpSet) (o : Opd) : Opd := match st with | .sc => o | .nv => o | _ => .zero
      Ready s (.c op h b) ∧ (s.acting (.c op h b)).t.readOpds .c (b.imm.setWidth 64)
        [(use f.a b.a, h.peekA), (use f.b b.b, h.peekB), (use f.c b.c, h.peekC),
         (if f.flag && b.fw then b.d else use f.d b.d, h.peekD)] = .ok ([w, x, y, z], t)
    let completes (op : COp) (d : Done) : Prop :=
      d.Quiet s (.c op h b) → exec (op.instr h b) s = .next (d.after (.c op h b))
    let q := quoinOf w.toNat
    let qr := quoinOf x.toNat
    let ch := bits w.toNat 8 0
    let o := bits y.toNat 15 0
    let n := bits y.toNat 31 16
    let cmd (i : Instr) (cls level : Nat) : Async :=
      { id := 0, seq := 0, eng := .c, cls := cls, instr := i, chan := some b.ch.val, vals := [w.toNat], level := level }
    let row (op : COp) (ok : Prop) : Prop :=
      reads op → t.quota q.ch ≠ 0 → q.row < bankRows → ok → t.footGate (u op).core h.trk.val [] = .ok (slot, hints) →
      completes op { own := true, trk := slot != 0, s := (u op).commanded h (cmd (op.instr h b) 0 (stackLevel s.core q.ch)) slot hints }
    let push (op : COp) (ok : Prop) : Prop := ∀ d l s1,
      reads op → b.d = .q d → ok → (u op).pushLater d 64 = .ok (l, s1) →
      completes op { s := s1.addAsync { id := 0, seq := 0, eng := .c, cls := 0, instr := op.instr h b, vals := [w.toNat]
                                        land := some l, level := stackLevel s.core q.ch } }
    let a := bits w.toNat 20 0
    let lat := (if qr.ch / 128 = s.core / 64 then 96 else 160) + ceilDiv n 64
    let l := (u .rowrd).landLater lat (.row qr.ch qr.bank qr.row)
    let rowrd : Done :=
      { trk := slot != 0
        s := ((l.2.upd fun t => { t with hmis := t.hmis + BitVec.ofNat 64 hints }).addAsync
          { id := 0, seq := 0, eng := .c, cls := b.oc.val, instr := .rowrd h b, vals := [a], land := some l.1, trk := slot
            rd := pieces 0 0 (stackPath (qr.pa o)) n, buf := unread n, level := if qr.ch / 128 = s.core / 64 then 3 else 4 }).upd
          fun t1 => { t1 with timed := t1.timed ++ [timedRange a (a + n) (t.clock + lat) true] } }
    let off := bits x.toNat 20 0
    let rowwr : Async :=
      { cmd (.rowwr h b) b.oc.val (stackLevel s.core q.ch) with
        flag := flag, wr := pieces 0 0 (stackPath (q.pa o)) n
        bad := (List.range n).filter fun i => ((u .rowwr).poisoned .chip (chipAddr s.core (off + i)) 1).isSome
        buf := ((u .rowwr).windowRead s.core off n).map BitVec.toNat, fp := flagRange s.core flag 4 }
    let scan : Async :=
      { cmd (.scngo h b) b.oc.val 1 with
        flag := flag, vals := [w.toNat, x.toNat, y.toNat, b.imm.toNat]
        fp := footRange s.core y.toNat (8 * b.imm.toNat) true ++ flagRange s.core flag 4 }
    let hinted := (u .scngo).upd fun t => { t with hmis := t.hmis + BitVec.ofNat 64 hints }
    let c1 := (hinted.takeXid b.ch.val).2
    let done := c1.updCore s.core fun k =>
      { k with chans := mset b.ch.val ((c1.chan s.core b.ch.val).complete (hinted.takeXid b.ch.val).1) k.chans }
    let stopped := if (t.scan ch).run then t.setScan ch fun v => { v with stop := true, halt := true } else t
    row .rowopn True ∧ row .rowpin (t.pinCheck q = .ok ()) ∧ row .rowrel True ∧
    (reads .rowrd → 1 ≤ n → o + n ≤ 2048 → t.quota qr.ch ≠ 0 → qr.row < bankRows →
      (u .rowrd).pathCheck w.toNat n .write [3] = .ok () → a + n ≤ 786432 → t.ownsBytes a n = true →
      t.edges [winRange s.core a (a + n) true] = .ok () → t.takeSlot h.trk.val = .ok (slot, hints) → completes .rowrd rowrd) ∧
    (reads .rowwr → 1 ≤ n → o + n ≤ 2048 → t.quota q.ch ≠ 0 → q.row < bankRows →
      (u .rowwr).pathCheck x.toNat n .read [3] = .ok () → (u .rowwr).wholeRegisters ⟨x.toNat, n, .read⟩ = true →
      flag = flagOf b.fw z.toNat → flagCheck b.fw z.toNat 4 = .ok () →
      t.footGate (u .rowwr).core h.trk.val (winRange s.core off (off + n) false :: flagRange s.core flag 4) = .ok (slot, hints) →
      completes .rowwr { own := true, trk := slot != 0, s := ((u .rowwr).commanded h rowwr slot hints).markEdge }) ∧
    push .rowst (t.quota q.ch ≠ 0 ∧ q.row < bankRows) ∧ push .scnrd (t.quota ch ≠ 0) ∧ push .scnst (t.quota ch ≠ 0) ∧
    (reads .scngo → t.quota q.ch ≠ 0 → q.row + x.toNat ≤ bankRows → q.row < bankRows →
      (u .scngo).pathCheck y.toNat (Nat.max 1 (8 * b.imm.toNat)) .write [3] = .ok () → y.toNat % 8 = 0 →
      flag = flagOf b.fw z.toNat → flagCheck b.fw z.toNat 4 = .ok () →
      (x.toNat = 0 → t.footGate s.core h.trk.val (flagRange s.core flag 4) = .ok (slot, hints) →
        completes .scngo { trk := slot != 0, s := match flag with | some p => done.chipWrite s.core p.1 (leBytes 4 p.2) | none => done }) ∧
      (x.toNat ≠ 0 → t.footGate (u .scngo).core h.trk.val scan.fp = .ok (slot, hints) →
        completes .scngo { own := true, trk := slot != 0
                           s := let c := (u .scngo).commanded h scan slot hints
                                if (u .scngo).reachesOut y.toNat (8 * b.imm.toNat) then c.markEdge else c })) ∧
    (reads .scnthr → t.quota ch ≠ 0 → (u .scnthr).unitTaken ch = false → ∀ ty, bits b.cx.toNat 2 0 = ty →
      completes .scnthr { s := (u .scnthr).setUnit ch { (u .scnthr).unit ch with ty := ty, thr := x.toNat % 2 ^ (scanTy ty).width } }) ∧
    (reads .scnthr → t.quota ch ≠ 0 → (u .scnthr).unitTaken ch = true →
      completes .scnthr { s := (u .scnthr).setStrand s.cur (t.setScan ch fun v => { v with busy := true }) }) ∧
    (reads .scnstp → t.quota ch ≠ 0 →
      completes .scnstp { s := (u .scnstp).setStrand s.cur stopped })

/-! ## Class N -/

/-- R225 to R229, R233: `nsnd`, `xsnd`, `nrcv`, `xrcv`, `nput` and `nget` complete: a send's command stands in program order with
its packet of the region's bytes or of eight bytes of a value, ready to leave three chip cycles later; a receive is a landing
due at k + 2 that waits for its circuit; a put and a get are commands over their local range. All but receives are region
edges. Where the rules leave a point open it follows the model, as log entries 18, 77 say. -/
def Obligations.CircuitWordsIssue : Prop :=
  ∀ (s : State) (h : Hdr) (b : NBody) (t : Strand) (v : Word) (n : Fin 16) (slot hints : Nat) (loc roff len : Word),
    let u (op : NOp) : State := s.acting (.n op h b)
    let completes (op : NOp) (d : Done) : Prop :=
      Ready s (.n op h b) → d.Quiet s (.n op h b) → exec (op.instr h b) s = .next (d.after (.n op h b))
    let cir := bits b.nx.toNat 7 0
    let held (op : NOp) (slot : Nat) (receive xpkg : Bool) : Prop :=
      (u op).t.slots.contains slot = true ∧ bit ((u op).slotEntry s.core slot) 31 = true ∧
        bit ((u op).slotEntry s.core slot) 30 = receive ∧ bit ((u op).slotEntry s.core slot) 29 = xpkg
    let reach (op : NOp) (xpkg : Bool) : Prop := xpkg = true → (u op).scopeCheck 5 = .ok ()
    let sent (op : NOp) (u : State) (bs : List Byte) : Done :=
      { own := true
        s := (((u.tick.upd fun t => { t with asyncs := t.asyncs ++
            [{ id := u.fresh, seq := t.seq, eng := .n, cls := b.oc.val, instr := op.instr h b, spost := h.spost.val, level := 1
               performed := true, region := t.region }] }).formPacket s.core cir
            { id := 0, kind := 0, bytes := bs, off := 0, strand := s.cur, cmd := u.fresh, last := true
              ready := u.t.wordCycle .n + 3 })).markEdge }
    let sendValue (op : NOp) (xpkg : Bool) : Prop :=
      held op cir false xpkg → (∀ n, b.a ≠ .g n) → (u op).t.readOpd .n (b.imm.signExtend 64) h.peekA b.a = .ok (v, t) →
      reach op xpkg → completes op (sent op ((u op).setStrand s.cur t) (leBytes 8 v.toNat))
    let sendRegion (op : NOp) (xpkg : Bool) : Prop :=
      let r := rgn (u op).t.ctx.g[n].toNat
      held op cir false xpkg → b.a = .g n → (u op).t.regionCheck [(0, b.a)] (fun _ _ => true) = .ok () →
      r.stride = 1 → r.bytes ≤ 256 → reach op xpkg →
      (u op).regionGate 1 (u op).t.ctx.sclk [{ rgn := r, n := r.count, per := Nat.max r.count 1, read := true }] (.ok ()) = .ok () →
      completes op (sent op (u op) (if r.count = 0 then [] else (u op).spadBytes_ (r.hull r.count).1 r.bytes))
    let waits (op : NOp) (u : State) (vals : List Nat) (timed : List TimedAcc) : Done :=
      { s := u.tick.upd fun t =>
          { t.addLanding { id := u.fresh, seq := t.seq, due := t.clock + 2, wait := .recv cir, arrived := false
                           instr := some (op.instr h b), vals := vals } with timed := t.timed ++ timed } }
    let receiveQueue (op : NOp) (xpkg : Bool) : Prop := ∀ q : Fin 32,
      held op cir true xpkg → b.d = .q q → (u op).t.reserveQ q.val (u op).t.seq = .ok t → reach op xpkg →
      completes op (waits op ((u op).setStrand s.cur t) [0, (u op).t.physQ q.val, (u op).t.seq] [])
    let receiveRegion (op : NOp) (xpkg : Bool) : Prop :=
      let r := rgn (u op).t.ctx.g[n].toNat
      held op cir true xpkg → b.d = .g n → (u op).t.regionCheck [(3, b.d)] (fun _ _ => true) = .ok () →
      r.stride = 1 → reach op xpkg →
      (u op).regionGate 1 (u op).t.ctx.sclk [{ rgn := r, n := r.count, per := Nat.max r.count 1, read := false }] (.ok ()) = .ok () →
      completes op (waits op (u op) [1, (u op).t.ctx.g[n].toNat]
        (r.timed r.count (Nat.max r.count 1) 1 ((u op).t.ctx.sclk + 2) true))
    let operands (op : NOp) (imm : Word) (vs : List Word) : Prop :=
      let f := op.form
      let use (st : OpSet) (o : Opd) : Opd := match st with | .sc => o | .nv => o | .val => o | _ => .zero
      (u op).t.readOpds .n imm [(use f.a b.a, h.peekA), (use f.b b.b, h.peekB), (use f.c b.c, h.peekC)] = .ok (vs, t)
    let transfer (op : NOp) (get : Bool) : Prop :=
      let e := (u op).slotEntry s.core cir
      let w := (u op).setStrand s.cur t
      let cmd : Async :=
        { id := 0, seq := 0, eng := .n, cls := b.oc.val, instr := op.instr h b, spost := h.spost.val
          level := if get then 1 else spanOf s.core (peerCore e) + 1
          vals := [loc.toNat, roff.toNat, len.toNat, e, w.t.wordCycle .n], fp := footRange s.core loc.toNat len.toNat get }
      let near : Range := ⟨loc.toNat, len.toNat, if get then .write else .read⟩
      let far : Range := ⟨4 * 2 ^ 60 + chipAddr (peerCore e) roff.toNat, len.toNat, if get then .read else .write⟩
      pathOf loc.toNat = 3 → roff.toNat + len.toNat ≤ 786432 →
      w.rangesCheck (if get then [near, far] else [far, near]) = .ok () →
      (len = 0 → completes op { s := w.markEdge }) ∧
      (len ≠ 0 → t.footGate s.core h.trk.val cmd.fp = .ok (slot, hints) →
        completes op { own := true, trk := slot != 0
                       s := let c := w.commanded h cmd slot hints
                            (if get then c.schedule w.now (.accessPerform s.cur w.fresh) else c).markEdge })
    sendValue .nsnd false ∧ sendValue .xsnd true ∧ sendRegion .nsnd false ∧ sendRegion .xsnd true ∧
    receiveQueue .nrcv false ∧ receiveQueue .xrcv true ∧ receiveRegion .nrcv false ∧ receiveRegion .xrcv true ∧
    (held .nput cir false false → operands .nput (b.imm.setWidth 64) [roff, loc, len] → transfer .nput false) ∧
    (held .nget cir false false → held .nget (bits b.imm.toNat 7 0) true false →
      bits ((u .nget).slotEntry s.core cir) 26 13 = bits ((u .nget).slotEntry s.core (bits b.imm.toNat 7 0)) 26 13 →
      operands .nget 0 [loc, roff, len] → transfer .nget true)

/-- R224, R230, R233: `bar`, `bara`, `barw`, `nflsh` and `nstat` complete: an arrival counts up and, as the last of its instance,
sets the release off; a wait is due at k + 1 and has come if its count has been released; a flush waits for the strand's
earlier commands; a status is pushed at k + 1. All but the waits complete at issue. Where the rules leave a point open it
follows the model, as log entry 78 says. -/
def Obligations.BarrierAndStatusWordsComplete : Prop :=
  ∀ (s : State) (h : Hdr) (b : NBody) (t : Strand) (x y z : Word),
    let u (op : NOp) : State := s.acting (.n op h b)
    let completes (op : NOp) (d : Done) : Prop :=
      Ready s (.n op h b) → d.Quiet s (.n op h b) → exec (op.instr h b) s = .next (d.after (.n op h b))
    let level := Nat.max 1 b.scp.code
    let waits (op : NOp) (u : State) (a : Nat) : Done :=
      { s := u.tick.upd fun t => t.addLanding
          { id := u.fresh, seq := t.seq, due := t.clock + 1, wait := .barrier level a
            arrived := decide (a ≤ (u.gang u.t.gang).released u.t.rank level), instr := some (op.instr h b) } }
    let a (op : NOp) : Nat × State := (u op).arrive level
    let aq := ((u .bara).setStrand s.cur t).arrive level
    let flushing : Done :=
      { atIssue := true
        s := (u .nflsh).tick.upd fun t => t.addLanding
          { id := (u .nflsh).fresh, seq := t.seq, due := t.clock + 1, wait := .flush t.seq, arrived := false
            instr := some (.nflsh h b) } }
    let sel := bits b.nx.toNat 2 0
    let cir := bits b.imm.toNat 7 0
    ((u .bar).scopeCheck b.scp.code = .ok () → completes .bar (waits .bar (a .bar).2.markEdge (a .bar).1)) ∧
    (∀ q, (u .bara).scopeCheck b.scp.code = .ok () → b.d = .q q → (u .bara).t.reserveQ q.val (u .bara).t.seq = .ok t →
      completes .bara
        { atIssue := true
          s := (aq.2.upd fun t => t.land 1 [.push (t.physQ q.val) t.seq (BitVec.ofNat 64 aq.1)]).markEdge }) ∧
    ((∀ q, b.d ≠ .q q) → (u .bara).scopeCheck b.scp.code = .ok () → completes .bara { s := (a .bara).2.markEdge }) ∧
    ((u .barw).t.readOpds .n (b.imm.signExtend 64)
        [(b.a, h.peekA), (.zero, h.peekB), (.zero, h.peekC)] = .ok ([x, y, z], t) →
      ((u .barw).setStrand s.cur t).scopeCheck b.scp.code = .ok () →
      completes .barw (waits .barw ((u .barw).setStrand s.cur t) (x.toNat % 2 ^ 32))) ∧
    completes .nflsh flushing ∧
    (∀ q, (sel = 3 → (u .nstat).t.slots.contains cir = true ∧ bit ((u .nstat).slotEntry s.core cir) 31 = true) → b.d = .q q →
      (u .nstat).t.reserveQ q.val (u .nstat).t.seq = .ok t →
      let pushed := t.land 1 [.push (t.physQ q.val) t.seq (BitVec.ofNat 64 ((u .nstat).netStatus sel cir))]
      completes .nstat { atIssue := true, s := (u .nstat).setStrand s.cur pushed })

/-- R231, R232: `ared`, `rscat`, `agth`, `bcst` and `xred` complete: a collective takes the next place of its level in the
strand's order and the footprint of its regions; its read of A is set for the chip cycle of its
issue, in which it contributes its elements if nothing holds its reads back. Where the rules leave a point open it follows the model, as log entries 18, 79, 81 say. -/
def Obligations.CollectiveWordsIssue : Prop :=
  ∀ (s : State) (h : Hdr) (b : NBody) (slot hints : Nat),
    let word (op : NOp) (level scope form code root : Nat) : Prop :=
      let v : View := .n op h b
      let u := s.acting v
      let ra := rgn (u.t.desc b.a)
      let rd := rgn (u.t.desc b.d)
      let ord := (mget level u.t.collOrd).getD 0
      let fp := ra.foot s.core false ++ rd.foot s.core true
      let cmd : Async :=
        { id := u.fresh, seq := u.t.seq, eng := .n, cls := b.oc.val, instr := op.instr h b, spost := h.spost.val, level := 1
          vals := [level, ord, form, code, root], regs := [u.t.desc b.a, u.t.desc b.d], fp := fp
          after := u.t.lastTimed, early := u.t.lastWrites, region := u.t.region, trk := slot }
      let u1 := u.tick.upd fun t =>
        { t with hmis := t.hmis + BitVec.ofNat 64 hints, collOrd := mset level (ord + 1) t.collOrd, asyncs := t.asyncs ++ [cmd] }
      let d : Done := { own := true, trk := slot != 0, s := (u1.schedule u1.now (.accessPerform s.cur u.fresh)).markEdge }
      Ready s v → u.t.regionCheck [(0, b.a), (3, b.d)] (fun _ ty => ty == .f32 || ty == .f64) = .ok () →
      u.scopeCheck scope = .ok () → u.elemsOk ra .read = true → u.elemsOk rd .write = true →
      u.t.footGate s.core h.trk.val fp = .ok (slot, hints) → d.Quiet s v →
      exec (op.instr h b) s = .next (d.after v)
    let level := Nat.max 1 b.scp.code
    let code := bits b.nx.toNat 1 0
    word .ared level b.scp.code 0 code 0 ∧ word .rscat level b.scp.code 1 code 0 ∧ word .agth level b.scp.code 2 0 0 ∧
    word .bcst level b.scp.code 3 0 (bits b.imm.toNat 15 0) ∧ word .xred 5 5 0 code 0

/-! ## Stick code -/

/-- R307: a word of a run with a step left is one step of two chip cycles and goes on at the next word; the words `li`, `lhi`,
`add`, `addi`, `sub`, `and`, `or`, `xor`, `shl`, `shr`, `mul`, `divu`, `minu`, `maxu`, `lrd` and `clk` write their register
alone, `lwr` its word of the launch record alone, and `x0` keeps reading as zero. R307, R309: `bz`, `bnz` and `bltu` go
forward by their distance where their condition holds, `loop` counts its register down and goes back while it is not zero,
else each goes on at the next word; `end` lets the launch go on with the copy as it stands, `cancel` completes its node with
LRC 0x01 and the step count, `rept` sets a count of 1 to 256 and ends the run with fault kind 3 for another. A word beyond
the 4,096th step ends the run with fault kind 1, whichever it is. Where the rules leave a point open it follows the model, as
log entry 95 says. -/
def Obligations.StickRegisterAndControlWords : Prop :=
  (∀ (s : State) (p : Prologue) (d a b i : Fin 16) (imm : BitVec 19) (n : BitVec 6),
     s.run = some p → p.steps < 4096 →
     let x := p.reg a
     let y := p.reg b
     let p1 : Prologue := { p with steps := p.steps + 1, pc := p.pc + 1, next := p.next + 2 }
     let sets (j : Instr) (v : Word) : Prop :=
       exec j s = .next (s.setRun (if d = 0 then p1 else { p1 with regs := p.regs.set d.val v }))
     sets (.stickLi d imm) (imm.signExtend 64) ∧
     sets (.stickLhi d a imm) (x <<< 19 ||| imm.setWidth 64) ∧
     sets (.stickAdd d a b) (x + y) ∧ sets (.stickAddi d a imm) (x + imm.signExtend 64) ∧ sets (.stickSub d a b) (x - y) ∧
     sets (.stickAnd d a b) (x &&& y) ∧ sets (.stickOr d a b) (x ||| y) ∧ sets (.stickXor d a b) (x ^^^ y) ∧
     sets (.stickShl d a n) (x <<< n.toNat) ∧ sets (.stickShr d a n) (x >>> n.toNat) ∧ sets (.stickMul d a b) (x * y) ∧
     sets (.stickDivu d a b) (if y = 0 then BitVec.allOnes 64 else x / y) ∧
     sets (.stickMinu d a b) (if x ≤ y then x else y) ∧ sets (.stickMaxu d a b) (if x ≤ y then y else x) ∧
     sets (.stickLrd d i) (BitVec.ofNat 64 (p.copy / 2 ^ (64 * i.val))) ∧ sets (.stickClk d) (BitVec.ofNat 64 s.micros) ∧
     exec (.stickLwr a i) s = .next (s.setRun { p1 with copy := putBits p.copy (64 * i.val) 64 x.toNat }) ∧
     p.reg 0 = 0) ∧
  (∀ (s : State) (p : Prologue) (a b : Fin 16) (imm : BitVec 19) (off : BitVec 15),
     s.run = some p →
     let x := p.reg a
     let y := p.reg b
     let p1 : Prologue := { p with steps := p.steps + 1, pc := p.pc + 1, next := p.next + 2 }
     let goes (j : Instr) (taken : Prop) [Decidable taken] (pc : Nat) : Prop :=
       exec j s = .next (s.setRun (if taken then { p1 with pc := pc } else p1))
     let ends (t : State) (lrc detail : Nat) : State := t.endLaunch p.q p.slot lrc detail 0
     let fault (t : State) (kind steps : Nat) : State := ends t.dropRun 4 (steps + kind * 2 ^ 20)
     (p.steps < 4096 →
       goes (.stickBz a imm) (x = 0) (p.pc + imm.toNat) ∧ goes (.stickBnz a imm) (x ≠ 0) (p.pc + imm.toNat) ∧
       goes (.stickBltu a b off) (x < y) (p.pc + off.toNat) ∧
       exec (.stickLoop a imm) s = .next (s.setRun
         (if x = 0 then p1 else { p1 with pc := p.pc - imm.toNat, regs := if a = 0 then p.regs else p.regs.set a.val (x - 1) })) ∧
       exec .stickEnd s = .next ((match s.dropRun.launchOf p.q p.slot with
         | some l => s.dropRun.setLaunch { l with copy := p.copy, reps := p.rept }
         | none => s.dropRun).later (.repetitionStart p.q p.slot)) ∧
       exec .stickCancel s = .next (ends s.dropRun 1 (p.steps + 1)) ∧
       exec (.stickRept a) s = .next
         (if 1 ≤ x.toNat ∧ x.toNat ≤ 256 then s.setRun { p1 with rept := x.toNat } else fault s 3 (p.steps + 1))) ∧
     (4096 ≤ p.steps → ∀ j : Instr,
       j ∈ [.stickBz a imm, .stickBnz a imm, .stickBltu a b off, .stickLoop a imm, .stickEnd, .stickCancel, .stickRept a,
         .stickLi a imm, .stickAdd a a b, .stickLrd a b, .stickLwr a b, .stickClk a] → exec j s = .next (fault s 1 p.steps)))

/-- R298, R307, R309, R329: `ld` and `st` access 8 bytes of a window of the node, in memory through the queue's translation or in
the tenant's register view, where a store to a post register posts and waits for its record; an access outside the window, or
without its right, ends the run with fault kind 2, one that translation stops with fault kind 4, its fault recorded, as one does that
leaves its path; one that has to wait at its stack takes no step and is tried again in the next chip cycle. Where the rules leave a point open it follows the model, as log entries 95, 96, 99 say. -/
def Obligations.StickWindowWords : Prop :=
  ∀ (s : State) (p : Prologue) (d a : Fin 16) (w : Fin 4) (off : BitVec 17),
    s.run = some p → p.steps < 4096 →
    let v := s.cqVf p.q
    let base := (s.slotAt p.q p.slot).wins.getD (2 * w.val) 0
    let desc := (s.slotAt p.q p.slot).wins.getD (2 * w.val + 1) 0
    let o := (p.reg a + off.setWidth 64).toNat
    let e := base + o
    let p1 : Prologue := { p with steps := p.steps + 1, pc := p.pc + 1, next := p.next + 2 }
    let q1 (x : Nat) : Prologue := if d = 0 then p1 else { p1 with regs := p.regs.set d.val (BitVec.ofNat 64 x) }
    let fault (t : State) (kind : Nat) : State := t.dropRun.endLaunch p.q p.slot 4 (p.steps + 1 + kind * 2 ^ 20) 0
    let window (right : Nat) : Prop :=
      o % 8 = 0 ∧ o + 8 ≤ desc % 2 ^ 32 ∧ base % 8 = 0 ∧ (pathOf base = 0 ∨ pathOf base = 7) ∧ bit desc right = true
    let ring := if 0x020000 ≤ bits e 23 0 ∧ bits e 23 0 < 0x020400 ∧ bits e 23 0 % 0x40 = 0x30 then
      some ((bits e 23 0 - 0x020000) / 0x40) else none
    (¬ window 32 → exec (.stickLd d a w off) s = .next (fault s 2)) ∧
    (window 32 → pathSeven e = true →
      exec (.stickLd d a w off) s = .next ((s.viewRead v (bits e 23 0) 8).2.setRun (q1 (s.viewRead v (bits e 23 0) 8).1))) ∧
    (window 32 → pathSeven e = false → pathZero e 8 = true → s.tenantHeld v e 8 false = false → ∀ x, s.tenantNum v e 8 = .ok x →
      exec (.stickLd d a w off) s = .next (s.setRun (q1 x))) ∧
    (window 32 → pathSeven e = false → pathZero e 8 = false → exec (.stickLd d a w off) s = .next (fault s 4)) ∧
    (window 32 → pathSeven e = false → pathZero e 8 = true → s.tenantHeld v e 8 false = true →
      exec (.stickLd d a w off) s = .next (s.setRun { p with next := p.next + 1 })) ∧
    (window 32 → pathSeven e = false → pathZero e 8 = true → s.tenantHeld v e 8 false = false → ∀ t, s.tenantNum v e 8 = .error t →
      exec (.stickLd d a w off) s = .next (fault (s.reportFault v 1 (cqOrig p.q) t) 4)) ∧
    (¬ window 33 → exec (.stickSt d a w off) s = .next (fault s 2)) ∧
    (window 33 → pathSeven e = true → ring = none →
      exec (.stickSt d a w off) s = .next ((s.setRun p1).viewWrite v (bits e 23 0) 8 (p.reg d).toNat 1)) ∧
    (∀ h, window 33 → pathSeven e = true → ring = some h →
      exec (.stickSt d a w off) s = .next ((s.setRun { p1 with waiting := (s.ring v h).ctl % 16 != 0 }).post v h
        { val := (p.reg d).toNat, src := 2, orig := p.slot, by_ := .prologue p.q p.slot })) ∧
    (window 33 → pathSeven e = false → pathZero e 8 = true → s.tenantHeld v e 8 true = false → ∀ t,
      (s.setRun p1).tenantWrite v e (leBytes 8 (p.reg d).toNat) 2 = (t, none) →
      exec (.stickSt d a w off) s = .next t) ∧
    (window 33 → pathSeven e = false → pathZero e 8 = true → s.tenantHeld v e 8 true = false → ∀ t tr,
      (s.setRun p1).tenantWrite v e (leBytes 8 (p.reg d).toNat) 2 = (t, some tr) →
      exec (.stickSt d a w off) s = .next (fault (t.reportFault v 1 (cqOrig p.q) tr) 4)) ∧
    (window 33 → pathSeven e = false → pathZero e 8 = false → exec (.stickSt d a w off) s = .next (fault s 4)) ∧
    (window 33 → pathSeven e = false → pathZero e 8 = true → s.tenantHeld v e 8 true = true →
      exec (.stickSt d a w off) s = .next (s.setRun { p with next := p.next + 1 }))

/-! ## Events of a strand's own time -/

/-- R24 to R26, R59, R139, R181: `landing`, `streamGroupWrite` and `matrixDelivery`: once everything due has come, the due
landing whose word issued first takes effect: it leaves its list, its effects are made, its flags are set and its word's
SPOST raises; a landing of another kind is left for its own event, and nothing lands while something due has not come. Where
the rules leave a point open it follows the model, as log entry 4 says. -/
def Obligations.LandingsTakeEffect : Prop :=
  ∀ (s : State) (x : Nat) (l : Landing),
    let u : State := { s with cur := x }
    let due := u.t.dueLandings
    let rest := if u.t.frozen then { u.t with hpend := u.t.hpend.erase l } else { u.t with pend := u.t.pend.erase l }
    let r := (u.setStrand x rest).applyEffs u.t.frozen l.effs
    let landed := (r.1.upd fun t => t.setFlags (fOr l.flags r.2)).raise l.spost
    let first : Prop := firstIssued due = some l ∧ ∀ m ∈ due, u.landingReady m = true
    let inPlace : Prop := (∀ k, l.wait ≠ .recv k) ∧ ∀ a b c, l.wait ≠ .row a b c
    (first → inPlace → l.kind = .word → exec (.landing x) s = .next landed) ∧
    (first → inPlace → l.kind = .group → exec (.streamGroupWrite x) s = .next landed) ∧
    (first → inPlace → l.kind = .matrix → exec (.matrixDelivery x) s = .next landed) ∧
    (first → l.kind ≠ .word → exec (.landing x) s = .next u) ∧
    ((∃ m ∈ due, u.landingReady m = false) → exec (.landing x) s = .next u ∧ exec (.streamGroupWrite x) s = .next u ∧
      exec (.matrixDelivery x) s = .next u)

/-- R25, R35, R59: what an effect of a landing leaves: a result latch holds the value, of a handler the handler's latch; a latch of
F, a predicate, a region register and a tile configuration register hold theirs; and each of the other registers of the context
keeps what it held. -/
def Obligations.LatchesKeepApart : Prop :=
  ∀ (t : Strand) (v : Word) (n : Fin 16) (b : Bool),
    let c := t.ctx
    (t.applyEff false (.la0 v)).ctx = { c with la0 := v } ∧ (t.applyEff true (.la0 v)).ctx = { c with hla0 := v } ∧
    (t.applyEff false (.la1 v)).ctx = { c with la1 := v } ∧ (t.applyEff true (.la1 v)).ctx = { c with hla1 := v } ∧
    (t.applyEff false (.lm v)).ctx = { c with lm := v } ∧ (t.applyEff true (.lm v)).ctx = { c with hlm := v } ∧
    (t.applyEff false (.ll v)).ctx = { c with ll := v } ∧ (t.applyEff true (.ll v)).ctx = { c with hll := v } ∧
    (∀ h, (t.applyEff h (.lf n v)).ctx = { c with lf := c.lf.set n.val v } ∧
      (t.applyEff h (.pred n b)).ctx = { c with p := c.p.set n.val b } ∧
      (t.applyEff h (.region n v)).ctx = { c with g := c.g.set n.val v } ∧
      (t.applyEff h (.tcfg n v)).ctx = { c with tcfg := c.tcfg.set n.val v }) ∧
    (t.applyEff false (.lf n v)).lf n = v ∧ (∀ m, m ≠ n → (t.applyEff false (.lf n v)).lf m = t.lf m) ∧
    (t.applyEff false (.pred n b)).pred n = b ∧
    (∀ m : Nat, m ≠ n.val → (t.applyEff false (.pred n b)).pred m = t.pred m) ∧
    (t.applyEff false (.region n v)).ctx.g[n] = v ∧ (t.applyEff false (.tcfg n v)).ctx.tcfg[n] = v

/-- R139, R140, R181, R182: `streamStart` marks the stream of the engine that is due as started; `streamGroupRead` reads a group
of it: of an element-wise V form and of an F form the result of each element of the group lands `c` strand cycles after its
start beside the form's latency, with the word's flags and SPOST in the last group alone; `matrixWordStart` takes the first
timed word from the array's order and sets its delivery with what it has read. Where the rules leave a point open it follows
the model, as log entry 58 says. -/
def Obligations.StreamsAndMatrixWordsRead : Prop :=
  ∀ (s : State) (x : Nat) (e : Eng) (st : Stream) (h : Hdr) (b : VBody) (m : MPend) (r : List MPend) (mb : MBody),
    let u : State := { s with cur := x }
    let group (lat per : Nat) (f : Nat → Nat × Nat) : State :=
      let is := (List.range (Nat.min per (st.n - st.next * per))).map fun i => st.next * per + i
      let fl := is.foldl (fun a i => fOr a (f i).2) st.flags
      let last := decide (st.groups ≤ st.next + 1)
      u.upd fun t => ({ t with pend := t.pend ++
        [{ id := 0, seq := st.seq, kind := .group, due := st.start + lat + (st.next + 1) * st.c
           effs := is.map fun i => (rgn (st.regs.getD 3 0)).put i (f i).1
           flags := if last then fl else 0, spost := if last then st.spost else 0 }] } : Strand).putStream
          { st with next := st.next + 1, flags := fl }
    (u.t.dueStream e = some st → exec (.streamStart x e) s = .next (s.setStrand x (u.t.putStream { st with started := true }))) ∧
    (∀ op : VOp, u.t.dueStream e = some st → st.instr = op.instr h b →
      op ∉ [.vrsum, .vrmax, .vrmin, .vrarg, .vscan, .vperm, .vbcast, .vgthl, .vrev, .vqmax, .vqcvt] →
      exec (.streamGroupRead x e) s = .next (group 5 64 fun i =>
        vElem op b i (st.el u op.form b (vScalTy op b 0) 0 i) (st.el u op.form b (vScalTy op b 1) 1 i)
          (st.el u op.form b (vScalTy op b 2) 2 i) (st.draws.getD i 0))) ∧
    (∀ op : FOp, u.t.dueStream e = some st → st.instr = op.instr h b →
      exec (.streamGroupRead x e) s = .next (group (fLat op - 1) 16 fun i =>
        fElem op b (st.el u op.form b (fScalTy op b 0) 0 i) (st.el u op.form b (fScalTy op b 1) 1 i)
          (st.el u op.form b (fScalTy op b 2) 2 i) (st.draws.getD i 0))) ∧
    (∀ op : MOp, u.t.mpend = m :: r → m.instr = op.instr h mb → op ≠ .mdrt →
      exec (.matrixWordStart x) s = .next (u.setStrand x
        { u.t with
          mpend := r
          pend := u.t.pend ++ [{ id := 0, seq := m.seq, kind := .matrix, due := m.deliver, effs := (u.mEffs op mb m).1
                                 flags := (u.mEffs op mb m).2, spost := m.spost }] }))

/-- R27, R29, R30, R38, R60, R188, R191, R205, R245, R295, R336: the events of a strand that name no word: `variableLatencyArrival`,
of a landing's data or of the layout record that a word waits for, `debugHaltRequest`, `sclkCompareMatch`, `interruptTaken`,
`stallWatchdogExpiry`, `regionWatchdogExpiry`, `holdReleaseResume`, `rephaseHoldEnd`, `contextWriteEffect`, `windowWrite`,
`windowRead` and `heldCommandTrap`. Where the rules leave a point open it follows the model, as log entries 39, 40, 46, 47, 50
say. -/
def Obligations.StrandEventsTakeEffect : Prop :=
  ∀ (s : State) (x src id core off n val : Nat) (c : Cause) (since : Nat) (a : Async) (tr : Trap),
    let u : State := { s with cur := x }
    let t := s.strandAt x
    let come (l : Landing) : Landing := if l.id = id then { l with arrived := true } else l
    let read (r : RecFetch) : RecFetch := if r.id = id then { r with val := some (s.num .dram r.pa 64) } else r
    let pending (k : Nat) : Bool := t.ctx.inten.getLsbD (7 + k)
    let place := if t.stall.isSome ∨ t.back = true then t.micro else 0
    let held := if t.stall.isSome then t.micro else 0
    let interrupted (k detail : Nat) : State :=
      ((u.recordTrap (trcOf (ascii2 'I' 'N') k detail 7 true false)).upd fun t => t.updCtx fun c =>
        { c with inten := c.inten &&& ~~~(1#64 <<< (7 + k)) }).freeze place
    exec (.variableLatencyArrival x id) s = .next (s.setStrand x
      { t with pend := t.pend.map come, hpend := t.hpend.map come, recFetch := t.recFetch.map read
               ckpt := t.ckpt.map fun k => { k with pend := k.pend.map come } }) ∧
    (s.held x = true → exec (.debugHaltRequest x) s = .next (s.setStrand x
      (if t.ctx.inten.getLsbD 0 then { t with ctx := { t.ctx with inten := t.ctx.inten ||| (1#64 <<< 8) } } else t))) ∧
    exec (.sclkCompareMatch x) s = .next (s.setStrand x
      { (if t.ctx.inten.getLsbD 2 then { t with ctx := { t.ctx with inten := t.ctx.inten ||| (1#64 <<< 10) } } else t) with
        micro := 0 }) ∧
    (pending 1 = true → exec (.interruptTaken x) s = .next (interrupted 1 0)) ∧
    (pending 1 = false → pending 2 = true → exec (.interruptTaken x) s = .next (interrupted 2 t.signal)) ∧
    (pending 1 = false → pending 2 = false → pending 3 = true → exec (.interruptTaken x) s = .next (interrupted 3 0)) ∧
    (t.stall = some (c, since) → since + 2 ^ 24 ≤ s.now → exec (.stallWatchdogExpiry x) s =
      .next (u.unstall.takeTrap (trapWD 2 (Config.causeCode c.num).toNat)
        (if 1 ≤ t.micro ∧ t.micro ≤ 6 then t.micro - 1 else 7) t.micro)) ∧
    (t.regionAt + 2 ^ 20 ≤ t.ctx.sclk → exec (.regionWatchdogExpiry x) s = .next (u.takeTrap (trapWD 1 0) 7 0)) ∧
    exec (.holdReleaseResume x src) s = .next (s.setStrand x { t with holds := t.holds.filter fun h =>
      !(h.src == src && (match h.released with | some r => decide (r ≤ s.now) | none => false)) }) ∧
    (t.heldUntil ≤ s.now → exec (.rephaseHoldEnd x) s = .next (s.setStrand x { t with heldUntil := 0 })) ∧
    ((∀ w ∈ t.deferred, w.src = none ∧ w.rmw = none) → exec (.contextWriteEffect x) s =
      .next { t.deferred.foldl (fun s w => s.windowApply s.t.rights s.core w.off w.bs)
                (u.upd fun t => { t with deferred := [] }) with cur := x }) ∧
    (core < 256 → off + n ≤ 0x200000 → s.underReset core = false →
      exec (.windowWrite core off n val) s = .next (s.windowWrite none core off (leBytes n val))) ∧
    exec (.windowRead core off n) s = .next s ∧
    (u.t.heldCommand = some a → a.held = some tr → exec (.heldCommandTrap x) s =
      .next (((u.dropFaults tr.addr).upd fun t => t.setEntry a.id Async.restart).takeTrap tr a.eng.num held))

/-! ## Events of asynchronous accesses -/

/-- R123, R124, R190, R201, R203, R247, R280 to R282, R354: `accessPerform` of an `ldg` reads its word and delivers it, of an `stg`
writes its bytes and, where it is mirrored, each image after them, of an atomic does both as one, at once or at the boundary of
the strand whose register or storage it changes; a store or an atomic that counts is counted in SKIP; a fault holds the access
and a missing translation is walked; a store that has to wait at its stack is tried again, at a channel under retirement in the order
of arrival; a count in the point ring is made once no footprint covers the header.
`handleWordServe` gives a handle word whose bytes have come to the array once that is free, which serves it in as many strand
cycles as its rate class has; after a latency the word completes. `commandCompletion` moves DONE, sets the flags, raises SPOST and
sends the flag word on; `flagWrite` writes it. Where the rules leave a point open it follows the model, as log entries 5, 6,
83, 85, 86 say. -/
def Obligations.AsynchronousAccessesPerform : Prop :=
  ∀ (s : State) (x id : Nat) (a : Async) (h : Hdr) (b : SBody) (mh : Hdr) (mb : MBody) (v : Nat) (site : Site) (s1 : State),
    let u : State := { s with cur := x }
    let e := a.vals.getD 0 0
    let n := a.vals.getD 1 0
    let w := b.ty.width
    let p := a.vals.getD 2 0
    let q := a.vals.getD 3 0
    let first : Prop := a.performed = false ∧ a.fence = none ∧ a.buffered = false ∧ u.mustWait a = false ∧ a.phase = 0
    let next (s2 : State) : Prop := exec (.accessPerform x id) s =
      .next (if s2.t.unperformed id then s2.settleFences.later (.accessPerform x id) else s2)
    let stops (s2 : State) : Prop := exec (.accessPerform x id) s = .next (s2.schedule (s2.now + 1) (.accessPerform x id))
    let counted (s2 : State) (store : Bool) : State :=
      if s2.skips e n p store then
        ((s2.performed a.id).upd fun t => t.setEntry a.id fun a => { a with count := some (24, 1) }).schedule (s2.performed a.id).now
          (.accessPerform (s2.performed a.id).cur a.id)
      else s2.performed a.id
    let atomic (i : SOp) (new : Nat) : Prop :=
      first → a.instr = i.instr h b → u.wordRead e n true a.pas.head? a.trs.head? = .ok (v, site, s1) → s1.atomicWaits site = none →
      next ((counted (s1.siteWrite a.id site (leBytes n new) [] e) false).deliver a.land [.ll (BitVec.ofNat 64 v)])
    let served (f : Async → Async) : State := u.upd fun t => t.setEntry id f
    let serving (op : MOp) : Prop :=
      a.instr = op.instr mh mb ∧ a.performed = false ∧ a.phase = 1 ∧ a.held = none ∧ a.paused = false ∧ u.t.arrayFree a = true
    let cycleOn (s2 : State) : State := s2.schedule (s2.now + s2.t.stride) (.handleWordServe x id)
    u.t.entry id = some a → a.id = id →
    (first → a.instr = .ldg h b → u.wordRead e n false a.pas.head? = .ok (v, site, s1) →
      next ((s1.performed id).deliver a.land [.ll (BitVec.ofNat 64 v)])) ∧
    (first → a.instr = .ldg h b → ∀ tr, u.wordRead e n false a.pas.head? = .error (.trap tr) → stops ((u.ecTaken tr).holdEntry id tr)) ∧
    (first → a.instr = .ldg h b → ∀ va wr path, u.wordRead e n false a.pas.head? = .error (.miss va wr path) →
      stops (u.requestWalk va wr path)) ∧
    (first → a.instr = .stg h b → pathOf e ≠ 7 → u.site e true a.pas.head? a.trs.head? = .ok (site, s1) → s1.siteWaits site true = false →
      a.idx = [] → next (counted (s1.siteWrite id site (leBytes n p) [] e) true)) ∧
    (first → a.instr = .stg h b → pathOf e ≠ 7 → u.site e true a.pas.head? a.trs.head? = .ok (site, s1) → s1.siteWaits site true = false →
      a.idx ≠ [] → next ((s1.siteWrite id site (leBytes n p) [] e).imagesLeft a a.idx a.buf (a.pas.drop 1) 0)) ∧
    (first → a.instr = .stg h b → pathOf e ≠ 7 → ∀ g, u.site e true a.pas.head? a.trs.head? = .ok (.mem .dram g, s1) →
      s1.siteWaits (.mem .dram g) true = true → exec (.accessPerform x id) s = .next
        (if s1.retiring g then u.park (.accessPerform x id) else u.schedule (u.now + 1) (.accessPerform x id))) ∧
    (∀ ad ads y ys pa pas, a.performed = false → a.fence = none → a.buffered = false → u.mustWait a = false →
      a.phase = 1 → a.instr = .stg h b → a.idx = ad :: ads → a.buf = y :: ys → a.pas = pa :: pas →
      u.site ad true (some pa) a.trs.head? = .ok (site, s1) → s1.siteWaits site true = false →
      next ((s1.siteWrite id site (leBytes n y) [] ad).imagesLeft a ads ys pas (a.oor + 1))) ∧
    atomic .aadd ((v + p) % 2 ^ w) ∧ atomic .axchg (p % 2 ^ w) ∧ atomic .acas (if v = q % 2 ^ w then p % 2 ^ w else v) ∧
    atomic .amax (if b.ty.signed then (if sext w v < sext w p then p % 2 ^ w else v) else max v (p % 2 ^ w)) ∧
    (∀ i ∈ [SOp.aadd, .axchg, .acas, .amax], ∀ core off y, first → a.instr = i.instr h b →
      u.wordRead e n true a.pas.head? a.trs.head? = .ok (v, .win core off, s1) → s1.atomicWaits (.win core off) = some y →
      next ((s1.putOff y { off := off, bs := List.replicate n 0, src := some (s1.cur, id), rmw := some (a.instr, p, q) }).performed id)) ∧
    (∀ sb o k, u.symOf u.t = some sb → a.performed = true → a.open_ = false → a.count = some (o, k) → u.ringBusy sb o = false →
      exec (.accessPerform x id) s = .next ((u.chipWrite u.core (sb.rbase + o)
        (leBytes 8 (u.num .chip (chipAddr u.core (sb.rbase + o)) 8 + k))).upd fun t =>
          { t with asyncs := t.asyncs.filter fun c => c.id != id })) ∧
    (∀ op es, serving op → a.service = none →
      u.farPoison (a.fp.filter fun r => !r.write && decide (0xC0000 ≤ r.lo % 2 ^ 21)) = .ok () → a.matrixServe u mb = .ok es →
      exec (.handleWordServe x id) s = .next (cycleOn (served fun a => { a with service := some ⟨a.serveTime es, es⟩ }))) ∧
    (∀ op es k, serving op → a.service = some ⟨k + 2, es⟩ →
      exec (.handleWordServe x id) s = .next (cycleOn (served fun a => { a with service := some ⟨k + 1, es⟩ }))) ∧
    (∀ op es, serving op → a.service = some ⟨1, es⟩ →
      exec (.handleWordServe x id) s = .next ((served fun a => { a with service := some ⟨0, es⟩ }).later (.handleWordServe x id))) ∧
    (∀ op es, serving op → a.service = some ⟨0, es⟩ →
      exec (.handleWordServe x id) s = .next (((u.applyEffs false es).1.upd fun t =>
        t.setEntry id fun a => { a with flags := fOr a.flags (u.applyEffs false es).2 }).performed id)) ∧
    (a.performed = true → a.open_ = true → a.flag = none → a.count = none → exec (.commandCompletion x id) s =
      .next (((((match a.chan with
        | some ch => u.updCore u.core fun k => { k with chans := mset ch ((u.chan u.core ch).complete a.xid) k.chans }
        | none => u).upd fun t => (t.setFlags a.flags).noteDone a).raiseAsync a.spost)).upd fun t =>
          { t with asyncs := t.asyncs.filter fun a => a.id != id })) ∧
    (∀ at_ f, a.open_ = false → a.flag = some (at_, f) →
      let size := match a.instr with | .gth _ _ => 8 | .sct _ _ => 8 | _ => 4
      exec (.flagWrite x id) s =
        .next ((u.chipWrite u.core at_ (leBytes size (f % 2 ^ 32 + a.oor % 2 ^ 32 * 2 ^ 32))).upd fun t =>
          { t with asyncs := t.asyncs.filter fun a => a.id != id }))

/-! ## Events of launches -/

/-- R99, R295, R302, R306, R338, R354, R379: `strandEnd` of a strand whose work is done releases its holdings and leaves its launch;
`launchComplete` begins the next repetition, or completes the node with LRC 0 and the count of repetitions, or with the fate
the launch already has, and if the launch took several packages, others that do ask for admission again; `budgetExpiry` stops
a launch whose budget has run out, with LRC 0x0B and the microseconds it has run; `tresumeEnd` ends a suspended strand, with the hold that it has
announced, and gives its launch LRC 0x0E; `rephasePointApply` moves a strand's origin on, holds it until its strand cycle opens there and completes
the node. Where the rules leave a point open it follows the model, as log entries 51, 111, 112, 166 say. -/
def Obligations.StrandsAndLaunchesEnd : Prop :=
  ∀ (s : State) (x q k v val : Nat) (byPf : Bool) (l : Launch) (d : Nat) (n : Option (Nat × Nat)),
    let t := s.strandAt x
    let moved : Strand := { t with origin := t.origin + d, rephase := none }
    let applied := s.setStrand x { moved with heldUntil := moved.key.getD 0 }
    let y := resumeTarget val
    let freed : State := { ({ s with cur := y } : State).releaseHold s.now with cur := s.cur }
    let ended (lrc detail code : Nat) : State :=
      let done := (s.dropLaunch l.q l.slot).completeNode l.q l.slot lrc detail code
      if lrNpkg l.copy = 0 then done else done.askAgain fun m => lrNpkg m.copy != 0
    (t.mode = .run → t.finished = true → exec (.strandEnd x) s = .next ((s.releaseStrand x).leaveLaunch t.node x)) ∧
    (t.mode = .stopped → (∀ a ∈ t.asyncs, a.flying = false) →
      exec (.strandEnd x) s = .next ((s.releaseStrand x).leaveLaunch t.node x)) ∧
    (t.mode = .stopped → (∃ a ∈ t.asyncs, a.flying = true) →
      exec (.strandEnd x) s = .next (s.schedule (s.now + 1) (.strandEnd x))) ∧
    (s.launchOf q k = some l → l.stage = .running → (∀ y ∈ l.members, y ∈ l.ended) → l.fate = none → l.reps ≤ l.rep + 1 →
      l.reps < 2 ^ 24 → exec (.launchComplete q k) s = .next (ended 0 l.reps 0)) ∧
    (s.launchOf q k = some l → l.stage = .running → (∀ y ∈ l.members, y ∈ l.ended) → l.fate = none → l.rep + 1 < l.reps →
      exec (.launchComplete q k) s = .next ((s.setLaunch
        { l with stage := .prologue, rep := l.rep + 1, members := [], ended := [], symm := none, img := [] }).later
          (.repetitionStart q k))) ∧
    (∀ st, s.launchOf q k = some l → l.stage = .running → (∀ y ∈ l.members, y ∈ l.ended) → l.fate = some st →
      exec (.launchComplete q k) s = .next (ended (st / 2 ^ 56) (bits st 55 32) (bits st 31 0))) ∧
    (s.launchOf q k = some l → l.stage = .running → lrBudget l.copy ≠ 0 → l.since + s.cyclesOf (lrBudget l.copy) ≤ s.now →
      s.handlerHeld 3 = false → exec (.budgetExpiry q k) s = .next ((s.setLaunch
        { l with stage := .stopping, saveBy := none, quoins := []
                 fate := some (l.fate.getD (statusOf 0x0B ((s.now - l.since) / s.cyclesOf 1) 0)) }).schedule s.now
          (.preemptSave q k))) ∧
    (s.resumable v val = true → exec (.tresumeEnd v val byPf) s =
      .next (((freed.setFate (freed.strandAt y).node (statusOf 0x0E (coreOf y) 0)).stopStrand y).schedule s.now (.strandEnd y))) ∧
    (s.resumable v val = false → exec (.tresumeEnd v val byPf) s = .next (s.ignoredResume v)) ∧
    (t.rephase = some (d, none) → exec (.rephasePointApply x) s = .next applied) ∧
    (∀ m, t.rephase = some (d, some m) → exec (.rephasePointApply x) s = .next (applied.completeNode m.1 m.2 0 0 0))

/-- R278, R279, R283: `walkerDeal` tests one point of a symmetric launch: a point outside the fundamental domain is passed over; one
inside it is written as the next entry of the ring of its rank, once TAKEN leaves room and no footprint covers the entry, and in a
chip cycle after that DEALT of the ring's header is counted up, once no footprint covers it; until then it waits a chip cycle; a
point of a rank that has ended goes to none. R289, R290, R306, R310, R311, R313,
R332: the checks of a repetition that succeed are followed by staging, those that fail end the launch with their LRC, and a third
working set of a die waits for a place, as the check and the staging do for a hand-over that supersedes their handlers; a launch whose working set has been staged asks for admission, one whose entry fails ends
with LRC 6; a loaded strand runs from its entry point; a standby set holds the segments of a coming launch's lowest bank group;
the activity forecast of each die is the sum over its cores. Where the rules leave a point open it follows the model, as log
entries 100, 107, 109, 110 say. -/
def Obligations.LaunchesStageStartAndDeal : Prop :=
  (∀ (s : State) (gang : Nat) (l : Launch) (y : Symm),
     let b := Machine.symOf y.block
     let g := s.gang gang
     let p := b.point y.point
     let n := g.members.length
     let x := g.members.getD (y.dealt % n) 0
     let c := x / 16
     let m := s.num .chip (chipAddr c b.rbase) 8
     let free (x at_ : Nat) : Prop := (s.strandAt x).edgeSlot [winRange (x / 16) at_ (at_ + 8) true] = none
     let again (s : State) (y : Symm) : State :=
       let d := (s.setLaunch { l with symm := some y }).latency
       d.2.schedule (d.2.now + 1 + d.1) (.walkerDeal gang)
     let next (j : Nat) : Symm := { y with point := y.point + 1, dealt := j }
     let entry := b.rbase + 32 + 8 * (m % 2 ^ b.ring)
     let room : Prop := m + 1 ≤ s.num .chip (chipAddr c (b.rbase + 8)) 8 + 2 ^ b.ring ∧ free x entry
     let tests : Prop := y.owed = none ∧ y.point < b.points
     (s.dev.launches.find? fun l => l.gang == gang && l.stage == .running && !l.members.isEmpty) = some l → l.symm = some y → n ≠ 0 →
     (tests → b.inDomain p = false → exec (.walkerDeal gang) s = .next (again s (next y.dealt))) ∧
     (tests → b.inDomain p = true → s.living l x = false → exec (.walkerDeal gang) s = .next (again s (next (y.dealt + 1)))) ∧
     (tests → b.inDomain p = true → s.living l x = true → room → exec (.walkerDeal gang) s =
       .next (again (s.chipWrite c entry (leBytes 8 (b.entry p))) { next (y.dealt + 1) with owed := some (y.dealt % n, m + 1) })) ∧
     (tests → b.inDomain p = true → s.living l x = true → ¬ room →
       exec (.walkerDeal gang) s = .next (s.schedule (s.now + 1) (.walkerDeal gang))) ∧
     (∀ r d, y.owed = some (r, d) → s.living l (g.members.getD r 0) = true → free (g.members.getD r 0) b.rbase →
       exec (.walkerDeal gang) s =
         .next (again (s.chipWrite (g.members.getD r 0 / 16) b.rbase (leBytes 8 d)) { y with owed := none })) ∧
     (∀ r d, y.owed = some (r, d) → s.living l (g.members.getD r 0) = true → ¬ free (g.members.getD r 0) b.rbase →
       exec (.walkerDeal gang) s = .next (s.schedule (s.now + 1) (.walkerDeal gang))) ∧
     (y.owed = none → b.points ≤ y.point → n ≤ y.ended.length → exec (.walkerDeal gang) s = .next s)) ∧
  (∀ (s : State) (q k c x v j : Nat) (l : Launch) (b : List Byte) (sym : Option Nat) (s1 : State) (e : Verdict),
     let t := s.strandAt x
     let waits : Prop := lrWset l.copy ≠ 0 ∧ lrWsn l.copy ≠ 0 ∧ (s.stagingFull (q / 64) = true ∨ s.handlerHeld 2 = true)
     let idle : Prop := s.launchOf q k = some l ∧ l.stage = .prologue ∧ ∀ p ∈ s.dev.prologues, ¬ (p.q = q ∧ p.slot = k)
     let starts : Prop := idle ∧ s.handlerHeld 1 = false ∧ ¬ waits
     let n := if lrWset l.copy = 0 then 0 else lrWsn l.copy
     let groups (b : List Byte) : List (Nat × Nat × Nat) :=
       ((imSegs b).zipIdx).filterMap fun g => (segGroup g.1.2).map fun k => (k, g.2, g.1.2)
     let segData (e : Nat × Nat × Nat) : List Byte :=
       match s.tenantRead (s.cqVf q) (lrImg v + segSrc e.2.2) (segLen e.2.2) (pages (segLen e.2.2)) with | .ok bs => bs | .error _ => []
     let filled (g : Nat) : Standby :=
       { q := q, slot := k, record := recArg (s.slotAt q k).copy, group := g, img := lrImg v
         segs := ((groups b).filter fun e => e.1 == g).map fun e => (e.2.1, segData e) }
     (starts → s.checkLaunch (s.cqVf q) 1 (cqOrig q) l.copy = .ok (b, sym, s1) → exec (.repetitionStart q k) s =
       .next ((s1.setLaunch { l with stage := .staging, img := b, staged := 0
                                     symm := sym.map fun (k : Nat) => { block := k } }).later (.stagingComplete q k))) ∧
     (idle → s.handlerHeld 1 = true ∨ waits → exec (.repetitionStart q k) s = .next (s.schedule (s.now + 1) (.repetitionStart q k))) ∧
     (starts → s.checkLaunch (s.cqVf q) 1 (cqOrig q) l.copy = .error e →
       exec (.repetitionStart q k) s = .next (e.s.endLaunch q k e.lrc e.detail e.code)) ∧
     (s.launchOf q k = some l → l.stage = .staging → s.stagingHeld (s.cqVf q) (lrWset l.copy) n = false → s.stageAll q (s.cqVf q) (lrWset l.copy) n 0 = (s1, none) →
       exec (.stagingComplete q k) s = .next (s1.askAdmission l)) ∧
     (s.launchOf q k = some l → l.stage = .staging → s.stagingHeld (s.cqVf q) (lrWset l.copy) n = false → s.stageAll q (s.cqVf q) (lrWset l.copy) n 0 = (s1, some j) →
       exec (.stagingComplete q k) s = .next (s1.endLaunch q k 6 j 0)) ∧
     (s.launchOf q k = some l → l.stage = .admission → exec (.stagingComplete q k) s = .next (s.askAdmission l)) ∧
     (t.mode = .loading → t.heldUntil ≤ s.now → exec (.strandStart x) s =
       .next ({ s.setStrand x { t with mode := .run, heldUntil := 0 } with cur := x }).boundary) ∧
     (∀ g, (s.coreAt c).standby = none → s.coming q k = some v → s.names v c = true → s.handlerHeld 2 = false →
       s.readImage (s.cqVf q) 1 (cqOrig q) v = .ok b → (∃ e ∈ groups b, e.1 = g) → (∀ e ∈ groups b, g ≤ e.1) →
       exec (.standbyFill c q k) s = .next (s.updCore c fun o => { o with standby := some (filled g) })) ∧
     exec .afcUpdate s = .next ({ s with dev := { s.dev with
       afc := (List.range 4).map fun d => (d, ((List.range 64).map fun i => s.activity (64 * d + i)).sum) } }.schedule
         (s.now + s.cyclesOf 1) .afcUpdate))

/-- R337 to R341: `pmreqPreempt` of a running launch notes the time by which its image must be saved and sets the save off, or
refuses with PM 1 to 3; `preemptSave` stops every strand that stands at a boundary and looks again a chip cycle later until
all are at rest, and has no strands to save of a launch that waits for admission; `pmreqResume` restores a saved launch, asks
for the admission of one saved without strands, leaves one to wait whose ownership or phases clash, asks again a chip cycle later
for one that another package, a circuit or the stacks hold back, and refuses with PM 1 a launch that is not saved and with PM 4 one
whose image is lost; `cqsavnWrite` pins the pages of the save area. Where the rules leave a point open it follows the model, as log
entries 114, 115, 117, 118 say. -/
def Obligations.PreemptionActs : Prop :=
  ∀ (s : State) (val q k : Nat) (l : Launch) (c : Cq),
    let d := if bits val 63 48 = 0 then 200 else bits val 63 48
    let slot := s.slotAt l.q l.slot
    let xs := l.members.filter fun x => !l.ended.contains x
    let stopped := xs.foldl (fun (s : State) x => if (s.strandAt x).atStop then s.stopAt l.q l.slot x else s) s
    let rest (x : Nat) : Bool := (stopped.strandAt x).mode == .stopped && (stopped.strandAt x).ckpt.isSome && stopped.atRest x
    let v := s.cqVf l.q
    let ranks := l.saved.map SavedStrand.rank
    let asks : Prop := s.handlerHeld 3 = false ∧ s.pmLaunch val = some l ∧ (l.stage = .saved ∧ l.saved ≠ [] ∨ l.stage = .resuming)
    let admits : Prop := s.masksClash l.copy ranks = none ∧ s.impose v l.copy l.img ranks = none ∧ s.farRefusal l.copy = none
    let asked := s.setLaunch { l with stage := .resuming }
    (s.handlerHeld 3 = false → s.pmLaunch val = none → exec (.pmreqPreempt val) s = .next (s.refusePm 1 val)) ∧
    (s.handlerHeld 3 = false → s.pmLaunch val = some l → slot.st ≠ 3 → exec (.pmreqPreempt val) s = .next (s.refusePm 1 val)) ∧
    (s.handlerHeld 3 = false → s.pmLaunch val = some l → slot.st = 3 → l.saveBy ≠ none →
      exec (.pmreqPreempt val) s = .next (s.refusePm 2 val)) ∧
    (s.handlerHeld 3 = false → s.pmLaunch val = some l → slot.st = 3 → l.saveBy = none → l.stage ≠ .stopping →
      lrSize l.copy ≤ ((s.cq l.q).map Cq.savn).getD 0 →
      exec (.pmreqPreempt val) s = .next ((({ s with fresh := s.fresh + 256 } : State).setLaunch
        { l with saveBy := some (s.now + s.cyclesOf d), quoins := [], lost := [], imageNo := s.fresh }).schedule s.now
          (.preemptSave l.q l.slot))) ∧
    (s.handlerHeld 3 = false → s.pmLaunch val = some l → slot.st = 3 → l.saveBy = none → l.stage ≠ .stopping →
      ((s.cq l.q).map Cq.savn).getD 0 < lrSize l.copy → exec (.pmreqPreempt val) s = .next (s.refusePm 3 val)) ∧
    (s.handlerHeld 3 = true → exec (.pmreqPreempt val) s = .next (s.schedule (s.now + 1) (.pmreqPreempt val)) ∧
      exec (.pmreqResume val) s = .next (s.schedule (s.now + 1) (.pmreqResume val))) ∧
    (s.launchOf q k = some l → l.stage = .saving → (∃ x ∈ xs, rest x = false) →
      exec (.preemptSave q k) s = .next (stopped.schedule (stopped.now + 1) (.preemptSave l.q l.slot))) ∧
    (s.launchOf q k = some l → l.stage = .saving → (∀ x ∈ xs, rest x = true) → ∀ m, stopped.launchOf l.q l.slot = some m →
      exec (.preemptSave q k) s = .next (stopped.saveLaunch m xs)) ∧
    (s.launchOf q k = some l → l.stage = .admission → l.saveBy ≠ none →
      exec (.preemptSave q k) s = .next ((s.setLaunch { l with stage := .saved, saveBy := none }).setSt q k 5)) ∧
    (s.handlerHeld 3 = false → s.pmLaunch val = some l → l.stage = .saved → l.saved = [] →
      exec (.pmreqResume val) s = .next (((s.setLaunch { l with stage := .admission }).setSt l.q l.slot 3).askAdmission
        { l with stage := .admission })) ∧
    (asks → admits → s.routeRefusal v l.copy l.img = none → s.startWaits v l.copy = false →
      exec (.pmreqResume val) s = .next (asked.restoreLaunch { l with stage := .resuming } v)) ∧
    (asks → (s.masksClash l.copy ranks).isSome = true ∨ (s.impose v l.copy l.img ranks).isSome = true →
      exec (.pmreqResume val) s = .next asked) ∧
    (asks → s.masksClash l.copy ranks = none → s.impose v l.copy l.img ranks = none → (s.farRefusal l.copy).isSome = true →
      exec (.pmreqResume val) s = .next (asked.tick.schedule (s.now + 1) (.pmreqResume val))) ∧
    (asks → admits → (s.routeRefusal v l.copy l.img).isSome = true ∨ s.startWaits v l.copy = true →
      exec (.pmreqResume val) s = .next (asked.schedule (s.now + 1) (.pmreqResume val))) ∧
    (s.handlerHeld 3 = false → s.pmLaunch val = some l → l.stage ≠ .saved → l.stage ≠ .resuming →
      exec (.pmreqResume val) s = .next (s.refusePm 1 val)) ∧
    (s.handlerHeld 3 = false → s.pmLaunch val = none → exec (.pmreqResume val) s =
      .next (s.refusePm (if (s.slotAt (pmQueue val) (pmSlot val)).lost then 4 else 1) val)) ∧
    (∀ ps t, s.cq q = some c → val ≤ 256 → (val ≠ 0 → pathZero c.save (1310720 * val) = true) →
      s.pinPages c.vf c.save (320 * val) [] = .ok (ps, t) →
      exec (.cqsavnWrite q val) s = .next (t.setCq q fun c => { c with savn := val, pages := ps })) ∧
    (s.cq q = some c → 256 < val → exec (.cqsavnWrite q val) s = .next (s.setCq q fun c => { c with savn := 0, pages := [] }))

/-! ## Events of compositor queues -/

/-- R302, R304, R306, R312, R314 to R318, R329, R295: the first ready node of a die is taken unless something holds it. A join
node completes; a launch node reads its record, enters STATE 3 and goes on to its prologue or to the checks; a conditional
node credits its true set with DETAIL 1, or its false set with DETAIL 0, by its predicate word; a loop node whose predicate
is not zero decides true over its body, one whose predicate is zero completes with the count of decisions and credits its
false set; a host signal node posts; a signal node signals the strands of the named launch and completes; a rephase node
leaves its strand the delta to apply. A malformed node completes with LRC 2 and the offset of the field. Where the rules
leave a point open it follows the model, as log entries 92, 93, 113 say. -/
def Obligations.NodesAreTaken : Prop :=
  ∀ (s : State) (q k at_ v : Nat) (b : List Nat) (g : Prog),
    let x := (s.slotAt q k).copy
    let r := s.unready q k
    let taken (kind : Nat) (hs : List Nat) : Prop :=
      s.dev.headOf (q / 64) = some (at_, q, k) ∧ recKind x = kind ∧ s.nodeWaits q k hs = false
    let placed : Prop := pathZero (recArg x) 8 = true ∧ recArg x % 8 = 0
    let word (n : Nat) : Prop := r.tenantNum (r.cqVf q) (recArg x) n = .ok v
    let started := r.setSt q k 3
    let l : Launch := { q := q, slot := k, stage := .prologue, copy := v }
    let begun : State := { started with dev := { started.dev with launches := started.dev.launches ++ [l] } }
    let p : Prologue := { q := q, slot := k, words := g.words, copy := v, next := begun.now + 2 }
    let h := recArg2 x
    let posted :=
      (r.setSt q k 3).post (r.cqVf q) h { val := recArg x, src := 0, orig := k, tag := recTag x, by_ := .node q k }
    let core := recArg x % 2 ^ 8
    let y := core * 16 + bits (recArg x) 11 8
    (taken 0 [0] → exec (.joinNode q k) s = .next (r.completeNode q k 0 0 0)) ∧
    (taken 1 [0, 1] → recArg x % 64 ≠ 0 ∨ pathZero (recArg x) 128 = false →
      exec (.launchNode q k) s = .next ((r.dropStandby q k).completeNode q k 2 56 0)) ∧
    (taken 1 [0, 1] → recArg x % 64 = 0 → pathZero (recArg x) 128 = true → word 128 → lrProl v = 0 →
      exec (.launchNode q k) s = .next (begun.later (.repetitionStart q k))) ∧
    (taken 1 [0, 1] → recArg x % 64 = 0 → pathZero (recArg x) 128 = true → word 128 → lrProl v ≠ 0 →
      lrProl v < (r.slotAt q k).nprog → mget (lrProl v) (r.slotAt q k).progs = some g → g.fail = none →
      exec (.launchNode q k) s =
        .next { begun with dev := { begun.dev with prologues := begun.dev.prologues ++ [p] } }) ∧
    (taken 2 [0] → placed → word 8 → v ≠ 0 → exec (.conditionalNode q k) s = .next (r.completeWith q k 1 (recTrue x))) ∧
    (taken 2 [0] → placed → word 8 → v = 0 → exec (.conditionalNode q k) s = .next (r.completeWith q k 0 (recFalse x))) ∧
    (taken 2 [0] → ¬ placed → exec (.conditionalNode q k) s = .next (r.completeNode q k 2 56 0)) ∧
    (taken 3 [0] → placed → word 8 → v ≠ 0 → (r.slotAt q k).body = some b →
      exec (.loopNode q k) s = .next (r.loopTrue q k b)) ∧
    (taken 3 [0] → placed → word 8 → v ≠ 0 → (r.slotAt q k).body = none → ((r.cq q).bind fun c => c.bodyOf k) = some b →
      exec (.loopNode q k) s = .next (r.loopTrue q k b)) ∧
    (taken 3 [0] → placed → word 8 → v ≠ 0 → (r.slotAt q k).body = none → ((r.cq q).bind fun c => c.bodyOf k) = none →
      exec (.loopNode q k) s = .next (r.completeNode q k 2 32 0)) ∧
    (taken 3 [0] → placed → word 8 → v = 0 →
      exec (.loopNode q k) s = .next (r.completeWith q k (r.slotAt q k).decisions (recFalse x))) ∧
    (taken 4 [0] → h ≤ 15 → (r.ring (r.cqVf q) h).ctl % 16 ≠ 0 → exec (.hostSignalNode q k) s = .next posted) ∧
    (taken 4 [0] → h ≤ 15 → (r.ring (r.cqVf q) h).ctl % 16 = 0 →
      exec (.hostSignalNode q k) s = .next (posted.completeNode q k 2 48 0)) ∧
    (taken 4 [0] → 15 < h → exec (.hostSignalNode q k) s = .next (r.completeNode q k 2 48 0)) ∧
    (taken 5 [0] → exec (.signalNode q k) s = .next ((r.strands.foldl
      (fun (s : State) e =>
        if e.2.node = (q, recArg x % 2 ^ 16) ∧ e.2.mode ≠ .ended ∧ e.2.mode ≠ .loading ∧ e.2.ctx.inten.getLsbD 1 then
          s.setStrand e.1 { e.2.fire 2 with signal := h % 256 }
        else s) r).completeNode q k 0 0 0)) ∧
    (taken 6 [0] → r.rephaseBad (r.cqVf q) y h = false → r.rephaseTest (r.cqVf q) y h = none →
      exec (.rephaseNode q k) s =
        .next ((r.setSt q k 3).setStrand y { r.strandAt y with rephase := some (h, some (q, k)) }))

/-- R315: a conditional or loop node whose ARG does not name an aligned word of path 0x0, or whose read faults, completes with LRC
0x02 and DETAIL 56, as its STATUS in `cqerr` shows until a successor changes it; the fault is reported as well, and every
successor receives a failure notice. -/
def Obligations.PredicateNodesRefuse : Prop :=
  ∀ (s : State) (q k at_ : Nat) (tr : Trap) (c : Cq),
    let x := (s.slotAt q k).copy
    let r := s.unready q k
    let taken (kind : Nat) : Prop :=
      s.dev.headOf (q / 64) = some (at_, q, k) ∧ recKind x = kind ∧ s.nodeWaits q k [0] = false
    let refused (s : State) : State :=
      (s.finishNode q k 2 56 0).sendOn q k 2 (recSuccs (s.slotAt q k).copy)
    let placed : Prop := pathOf (recArg x) = 0 ∧ bits (recArg x) 59 57 = 0 ∧ lowAddr (recArg x) + 8 ≤ 2 ^ 48 ∧ recArg x % 8 = 0
    let reported := r.reportFault (r.cqVf q) 1 (cqOrig q) tr
    (taken 2 → ¬ placed → exec (.conditionalNode q k) s = .next (refused r)) ∧
    (taken 3 → ¬ placed → exec (.loopNode q k) s = .next (refused r)) ∧
    (taken 2 → placed → r.tenantNum (r.cqVf q) (recArg x) 8 = .error tr →
      exec (.conditionalNode q k) s = .next (refused reported)) ∧
    (taken 3 → placed → r.tenantNum (r.cqVf q) (recArg x) 8 = .error tr →
      exec (.loopNode q k) s = .next (refused reported)) ∧
    (s.cq q = some c → ((s.finishNode q k 2 56 0).cq q).map Cq.err = some (2 * 2 ^ 56 + 56 * 2 ^ 32) ∧
      ((s.finishNode q k 2 56 0).slotAt q k).st = 4)

/-- R298, R300, R301, R308, R326: a doorbell that names a free slot reads its record: the slot is held with the record's copy and
count, and a node whose count is already there becomes ready; a malformed record completes with LRC 2; a doorbell that names
no slot, or one still held, is ignored and reported as `CE 2`. `cqprog` and `cqnprog` load the program table again; a read of
`cqerr` clears it; a queue is created for a tenant. Where the rules leave a point open it follows the model, as log entry 89
says. -/
def Obligations.QueueRegistersAct : Prop :=
  ∀ (s : State) (q val x v : Nat) (c : Cq),
    let k := val % 2 ^ 16
    let addr := c.base + 64 * k
    let old := c.slot k
    let read := s.setSlot q k fun o =>
      { held := true, copy := x, st := 1, count := o.count, notice := none, need := recPcount x, addr := addr }
    let rung : Prop :=
      s.cq q = some c ∧ (s.vf c.vf).prst = 0 ∧ val < 2 ^ 16 ∧ val < 2 ^ c.len ∧ old.held = false ∧ pathZero addr 64 = true ∧
        s.tenantHeld c.vf addr 64 false = false ∧ s.tenantNum c.vf addr 64 = .ok x ∧ bits x 199 192 = 1
    (rung → recBad x c.len = none → old.notice = none → old.count < recPcount x → exec (.doorbell q val) s = .next read) ∧
    (rung → recBad x c.len = none → old.notice = none → old.count = recPcount x →
      exec (.doorbell q val) s = .next (read.makeReady q k)) ∧
    (∀ w, rung → recBad x c.len = none → old.notice = some w → exec (.doorbell q val) s =
      .next ((read.setSlot q k fun o => { o with count := 0 }).completeNode q k 0x0C w 0)) ∧
    (∀ d, rung → recBad x c.len = some d → exec (.doorbell q val) s = .next (read.finishNode q k 2 d 0)) ∧
    (s.cq q = some c → (s.vf c.vf).prst = 0 → (2 ^ 16 ≤ val % 2 ^ 64 ∨ 2 ^ c.len ≤ k ∨ old.held = true) →
      exec (.doorbell q val) s = .next (s.cqEvent q (ascii2 'C' 'E') 2 0)) ∧
    exec (.cqprogWrite q val) s = .next ((s.setCq q fun c => { c with prog := val }).loadPrograms q) ∧
    exec (.cqnprogWrite q val) s = .next ((s.setCq q fun c => { c with nprog := val % 1024 }).loadPrograms q) ∧
    exec (.cqerrRead q) s = .next (s.setCq q fun c => { c with err := 0 }) ∧
    (q < 256 → v < 64 → s.cq q = none → exec (.compositorQueueCreate q v) s =
      .next { s with dev := { s.dev with cqs := mset q { vf := v } s.dev.cqs } })

/-! ## Events of the network -/

/-- R226 to R229: a packet that is ready, has a credit, is not held back and whose links are up leaves at its opening, and the
next departure is set; else it waits for the next opening. A message enters the receive buffer; the bytes of a put perform at
their destination once no footprint holds them back; a request is accepted. A credit returns, to two at most. An accepted
request is answered by data packets, each of which reads its bytes as it is formed; its own credit returns with the first.
R83, R230 to R232: `barrierRelease` gives every member of the instance its count;
`collectiveComplete` gives each member of the instance its share, reckoned by the op, form and root of the member of
reduction rank 0 from all contributions in reduction-rank order. R382: over a Speat link that is down neither comes, and behind
a flit of the tree that is to be sent again both wait. Where the rules leave a point open it follows the model, as
log entries 18, 77, 84 say. -/
def Obligations.NetworkEventsAct : Prop :=
  (∀ (s : State) (core slot id : Nat) (p : Packet) (rest : List Packet) (a : Async),
     let back : Prop := ∀ e ∈ s.agenda, e.1 ≤ s.now → e.2 ≠ Ev.creditReturn core slot
     let first : Prop := ∀ q ∈ (s.circuit core slot).fly.takeWhile fun q => q.id != id, q.kind = 2
     let roff := a.vals.getD 1 0
     let n := a.vals.getD 2 0
     let k := p.off - roff
     let m := Nat.min 256 (n - k)
     let s1 := if k = 0 then s.returnCredit core slot else s
     let read := s1.siteRead (.win core p.off) m
     let data : Packet :=
       { id := 0, kind := 3, bytes := read.1, bad := read.2.1, off := bits (a.vals.getD 0 0) 20 0 + k, strand := p.strand
         cmd := p.cmd, last := decide (n ≤ k + m), ready := s1.now + 3 }
     let answered := read.2.2.formPacket core (returnSlot a.instr) data
     let on (q : Packet) : Packet := if q.id = id then { q with off := q.off + m } else q
     (back → (s.circuit core slot).wait = p :: rest → s.mayLeave core slot p = true →
       exec (.packetDepart core slot) s = .next ((s.leave core slot p rest).arm core slot)) ∧
     (back → (s.circuit core slot).wait = p :: rest → s.mayLeave core slot p = false →
       exec (.packetDepart core slot) s = .next (s.schedule (s.opening slot (s.now + 1)) (.packetDepart core slot))) ∧
     (s.flying core slot id = some p → first → p.kind = 0 → exec (.packetArrive core slot id) s =
       .next ((s.dropFlying core slot id).setCircuit core slot fun c =>
         { c with buffer := c.buffer ++ [p.bytes], bufBad := c.bufBad ++ [p.bad] })) ∧
     (s.flying core slot id = some p → first → p.kind = 1 → s.footBusy core p.off p.bytes.length true = false →
       exec (.packetArrive core slot id) s = .next (s.placeBytes core slot p)) ∧
     (s.flying core slot id = some p → first → p.kind = 1 → s.footBusy core p.off p.bytes.length true = true →
       exec (.packetArrive core slot id) s = .next (s.schedule (s.now + 1) (.packetArrive core slot id))) ∧
     (s.flying core slot id = some p → first → p.kind = 2 →
       exec (.packetArrive core slot id) s = .next (s.schedule s.now (.ngetRequestAccept core slot id))) ∧
     (s.flying core slot id = some p → first → p.kind = 3 →
       exec (.packetArrive core slot id) s = .next (s.placeBytes core slot p)) ∧
     exec (.creditReturn core slot) s =
       .next (s.setCircuit core slot fun c => { c with credits := if c.credits = 0 then 1 else 2 }) ∧
     (s.flying core slot id = some p → (s.strandAt p.strand).entry p.cmd = some a → s.footBusy core p.off m false = false →
       n ≤ k + m → exec (.ngetRequestAccept core slot id) s = .next (answered.dropFlying core slot id)) ∧
     (s.flying core slot id = some p → (s.strandAt p.strand).entry p.cmd = some a → s.footBusy core p.off m false = false →
       k + m < n → exec (.ngetRequestAccept core slot id) s =
         .next ((answered.setCircuit core slot fun c => { c with fly := c.fly.map on }).later (.ngetRequestAccept core slot id)))) ∧
  (∀ (s : State) (gang level unit count ord : Nat) (k : Coll),
     let g := s.gang gang
     let set (r : List (Nat × Nat)) (m : Nat × Nat) : List (Nat × Nat) := mset (m.1 * 8 + level) count r
     let down : Prop := g.podWide level unit = true ∧ s.treeDown gang = true
     let late : Prop := g.podWide level unit = true ∧ s.treeLate gang = true
     let here (c : Coll) : Bool := c.level == level && c.unit == unit && c.ord == ord
     let rank0 := ((g.instance_ level unit).headD (0, 0)).1
     let first := k.partOf s.fresh rank0 1
     let m := k.width s.fresh rank0
     let parts := (g.instance_ level unit).map fun r => k.partOf s.fresh r.1 m
     let gone : State := { s with fresh := s.fresh + g.members.length }.setGang gang { g with colls := g.colls.filter fun c => !here c }
     let share (p : Contrib × Nat) : Share := shareOf first.form first.op p.1.root m parts.length p.2 parts
     (g.members ≠ [] → s.paused gang = false → ¬ down → ¬ late → exec (.barrierRelease gang level unit count) s =
       .next (s.setGang gang { g with rel := (g.instance_ level unit).foldl set g.rel })) ∧
     (down → exec (.barrierRelease gang level unit count) s = .next s) ∧
     (g.members ≠ [] → s.paused gang = false → ¬ down → late → exec (.barrierRelease gang level unit count) s =
       .next (s.schedule (s.now + 1) (.barrierRelease gang level unit count))) ∧
     (g.colls.find? here = some k → down → exec (.collectiveComplete gang level unit ord) s = .next s) ∧
     (g.colls.find? here = some k → ¬ down → late → exec (.collectiveComplete gang level unit ord) s =
       .next (s.schedule (s.now + 1) (.collectiveComplete gang level unit ord))) ∧
     (g.colls.find? here = some k → ¬ down → ¬ late → exec (.collectiveComplete gang level unit ord) s =
       .next ((parts.zipIdx).foldl (fun s p => s.receiveShare p.1.strand p.1.cmd (share p)) gone)))

/-! ## Events of row pins -/

/-- R218, R368: in every state of the package, a refresh interval that elapses takes one from each pin due on its bank, of every
strand, and sets the next off, or the expiry with the last; an expired pin is broken and its row precharged: its quota unit is
free, HOLDBROKE and the strand's row status tell it; a crossing of the temperature threshold changes the stack's mode and moves
each running interval of its channels by the change in length. A strand that has ended, or whose pin is gone, changes nothing. -/
def Obligations.RowPinsRunOut : Prop :=
  ∀ (s : State) (ch bank x quoin stack : Nat) (hot : Bool),
    let pinned (u : State) (on : Pin → Bool) : List (Nat × Pin) :=
      u.strands.flatMap fun e => (e.2.pins.filter on).map fun p => (e.1, p)
    let put (u : State) (e : Nat × Pin) (q : Pin) : State :=
      let t := u.strandAt e.1
      u.setStrand e.1 { t with pins := t.pins.map fun o => if o = e.2 then q else o }
    let elapses (u : State) (e : Nat × Pin) : State :=
      let at_ := u.now + u.dev.trefi (u.dev.physCh e.2.ch / 32)
      let v := put u e { e.2 with left := e.2.left - 1, next := at_ }
      if 1 < e.2.left then v.schedule at_ (.refreshInterval e.2.ch e.2.bank)
      else v.schedule u.now (.holdBudgetExpiry e.1 e.2.quoin)
    let due (p : Pin) : Bool := p.ch == ch && p.bank == bank && decide (p.next ≤ s.now) && p.left != 0
    let t := s.strandAt x
    let q := quoinOf quoin
    let told := ((t.unpin q).setFlags fHOLDBROKE).setRowStat q true (t.rowStat q).busy
    let u : State := { s with dev := { s.dev with stks := mset stack { s.dev.stk stack with hot := hot } s.dev.stks } }
    let moves (w : State) (e : Nat × Pin) : State :=
      let at_ := Nat.max w.now (e.2.next - s.dev.trefi stack + u.dev.trefi stack)
      (put w e { e.2 with next := at_ }).schedule at_ (.refreshInterval e.2.ch e.2.bank)
    exec (.refreshInterval ch bank) s = .next ((pinned s due).foldl elapses s) ∧
    (s.held x = true → (t.pinOf q).isSome = true →
      exec (.holdBudgetExpiry x quoin) s = .next ((s.setStrand x told).precharge q)) ∧
    (s.held x = false ∨ t.pinOf q = none → exec (.holdBudgetExpiry x quoin) s = .next s) ∧
    ((s.dev.stk stack).hot = hot → exec (.temperatureCrossing stack hot) s = .next u) ∧
    ((s.dev.stk stack).hot ≠ hot → exec (.temperatureCrossing stack hot) s =
      .next ((pinned u fun p => u.dev.physCh p.ch / 32 == stack).foldl moves u))

/-! ## Events of host rings -/

/-- R327 to R331, R360: a post to an enabled ring waits its turn and is written as the ring's next record, META last; one to a
disabled ring is dropped, with `hrstat` and `CE 3`; a full ring keeps its posts waiting. A post of the host holds its function's
later accesses until it is written (R323). `hrcons` moves up to `hrprod` and not past it; `hrctl` sets its fields: a write that
clears IEN stops the timer, and one that sets it while records wait for their signal starts the timer, if it has a time, and fires
at once if the count has been reached; a timer that runs out fires the interrupt. An error ring with no event is left alone. A read
of `hrstat` or `erlost` clears it. Where the rules leave a point open it follows the model, as log entry 119 says. -/
def Obligations.HostRingsAct : Prop :=
  ∀ (s : State) (v h val src orig : Nat) (p : Post) (ps : List Post) (e : EventRec) (d : Nat),
    let r := s.ring v h
    let fn := if src = 3 then v else 65
    let post : Post := { val := val, src := src, orig := orig, by_ := .host fn, time := s.now }
    let waits (u : State) : State :=
      if fn = 65 then u
      else { u with dev := { u.dev with hostWait := u.dev.hostWait ++ [.hrpostWrite v h val src orig] } }
    let put : State := s.setRing v h fun r => { r with posts := ps }
    let s1 := s.setRing v h fun r => { r with ctl := ringLog (val &&& hrctlMask) }
    let r1 := s1.ring v h
    let sets : Prop := bit r.ctl 8 = false ∧ bit val 8 = true
    let at_ := s1.now + s1.cyclesOf (bits r1.ctl 47 32)
    let timed : State :=
      if bits r1.ctl 47 32 = 0 then s1
      else (s1.setRing v h fun r => { r with timer := some at_ }).schedule at_ (.ringTimerExpiry v h)
    let full : Prop := bits r1.ctl 63 48 ≠ 0 ∧ bits r1.ctl 63 48 ≤ ringUsed r1.prod r1.sig
    (r.ctl % 16 ≠ 0 → exec (.hrpostWrite v h val src orig) s =
      .next (waits ((s.setRing v h fun r => { r with posts := postAdd post r.posts }).schedule s.now (.ringRecordWrite v h)))) ∧
    (r.ctl % 16 = 0 → exec (.hrpostWrite v h val src orig) s =
      .next ((s.setRing v h fun r => { r with stat := r.stat ||| 2 }).report
        { vf := v, src := 2, orig := 0, cls := ascii2 'C' 'E', num := 3 })) ∧
    (h < 16 → r.posts = p :: ps → r.ctl % 16 ≠ 0 → ringUsed r.prod r.cons < ringSize r.ctl →
      exec (.ringRecordWrite v h) s = .next (((put.postRecord v h p).posted p.by_).retryPosts v h)) ∧
    (h < 16 → r.posts = p :: ps → r.ctl % 16 ≠ 0 → ringSize r.ctl ≤ ringUsed r.prod r.cons →
      exec (.ringRecordWrite v h) s = .next s) ∧
    (h < 16 → r.posts = [] → exec (.ringRecordWrite v h) s = .next s) ∧
    ((s.dev.reports.find? fun r => r.vf == v) = some e → exec (.ringRecordWrite v 16) s =
      .next ({ s with dev := { s.dev with reports := s.dev.reports.erase e } }.errorRecord e)) ∧
    ((s.dev.reports.find? fun r => r.vf == v) = none → exec (.ringRecordWrite v 16) s = .next s) ∧
    (ringUsed val r.cons ≤ ringUsed r.prod r.cons → exec (.hrconsWrite v h val) s =
      .next ((s.setRing v h fun r => { r with cons := val % 2 ^ 32 }).retryPosts v h)) ∧
    (ringUsed r.prod r.cons < ringUsed val r.cons → exec (.hrconsWrite v h val) s =
      .next ((s.setRing v h fun r => { r with stat := r.stat ||| 1 }).report
        { vf := v, src := 255, cls := ascii2 'C' 'E', num := 4 })) ∧
    (bit r.ctl 8 = bit val 8 → exec (.hrctlWrite v h val) s = .next (s1.retryPosts v h)) ∧
    (bit r.ctl 8 = true → bit val 8 = false → exec (.hrctlWrite v h val) s =
      .next ((s1.setRing v h fun r => { r with timer := none }).retryPosts v h)) ∧
    (sets → r1.prod = r1.sig → exec (.hrctlWrite v h val) s = .next (s1.retryPosts v h)) ∧
    (sets → r1.prod ≠ r1.sig → ¬ full → exec (.hrctlWrite v h val) s = .next (timed.retryPosts v h)) ∧
    (sets → r1.prod ≠ r1.sig → full → exec (.hrctlWrite v h val) s = .next ((timed.fireRing v h).retryPosts v h)) ∧
    (r.timer = some d → d ≤ s.now → exec (.ringTimerExpiry v h) s = .next (s.fireRing v h)) ∧
    exec (.hrstatRead v h) s = .next (s.setRing v h fun r => { r with stat := 0 }) ∧
    (v < 64 → exec (.erlostRead v) s = .next (s.setVf v fun f => { f with err := { f.err with lost := 0 } })) ∧
    (64 ≤ v → exec (.erlostRead v) s = .next (s.setPf fun p => { p with log := { p.log with lost := 0 } }))

/-! ## Events of translation and of suspended strands -/

/-- R350 to R354, R356: an invalidation request is queued, and a 17th of its stage is dropped with its overflow mark; the oldest
one takes every translation derived from its span from the caches and completes once no access that went by one is still to
perform. A walk goes by the roots with which it started and answers each of the misses that share it, at the miss's own address:
one that finds its translation fills the cache of its core, one that faults leaves the fault to its strand; the walk's slot goes to
the one that has waited longest. A strand that may be resumed runs
again from the place where it was suspended, and the strands that its gang holds are let go; a resume of one that may not is
ignored and reported. Where the rules leave a point open it follows the model, as log entries 87, 90, 123 say. -/
def Obligations.TranslationEventsAct : Prop :=
  ∀ (s : State) (v val walk : Nat) (byPf : Bool) (w : Walk) (i : Inval) (rest : List Inval),
    let inv (two : Bool) : Inval := { stage2 := two, addr := bits val 47 12 * 4096, span := bits val 3 2 }
    let queue := (s.vf v).invals
    let room (two : Bool) : Prop := (queue.filter fun j => j.stage2 == two).length < 16
    let queued (two : Bool) : State :=
      let s1 := s.setVf v fun f => { f with invals := queue ++ [inv two] }
      if queue.isEmpty then s1.later (.invalidationComplete v) else s1
    let derived (e : TlbEntry) : Bool := i.covers (if i.stage2 then e.ipa else e.va) (2 ^ e.size)
    let keep (e : TlbEntry) : Bool := e.vf != v || !derived e
    let swept : State := { s with cores := s.cores.map fun (c : Nat × CoreState) => (c.1, { c.2 with tlb := c.2.tlb.filter keep }) }
    let busy : Bool := swept.strands.any fun e => e.2.vf == v && e.2.asyncs.any fun a =>
      !a.performed && a.trs.any derived
    let ended := swept.setVf v fun f => { f with invals := rest }
    let free := s.setWalks (mdel walk s.dev.walks)
    let answered (u : State) (m : Miss) : State :=
      match (u.setVf w.vf fun f => { f with s1root := w.root1, s2root := w.root2 }).walkFor w.vf m.va m.write m.path with
      | .ok e => u.tlbFill (coreOf m.x) e
      | .error e =>
        let tr := walkTrap m.va m.path m.write e
        { u with dev := { u.dev with faults := u.dev.faults ++
            [{ x := m.x, vf := w.vf, va := m.va, write := m.write, path := m.path, trap := tr, host := tr.host }] } }
    let x := resumeTarget val
    let t := s.strandAt x
    let again : Strand :=
      { t with mode := .run, micro := t.resumeAt, offset := 0, suspendedBy := none, hostFault := false
               asyncs := t.asyncs.map fun a => { a with paused := false } }
    let runs := s.setStrand x (again.catchUp s.now)
    (room false → exec (.s1inv v val) s = .next (queued false)) ∧
    (room true → exec (.s2inv v val) s = .next (queued true)) ∧
    (¬ room false → exec (.s1inv v val) s = .next ((s.setVf v fun f => { f with s1ovf := true }).report
      { vf := v, src := 255, cls := ascii2 'C' 'E', num := 6 })) ∧
    (¬ room true → exec (.s2inv v val) s = .next (s.setVf v fun f => { f with s2ovf := true })) ∧
    (queue = i :: rest → busy = false → rest = [] → exec (.invalidationComplete v) s = .next ended) ∧
    (queue = i :: rest → busy = false → rest ≠ [] →
      exec (.invalidationComplete v) s = .next (ended.later (.invalidationComplete v))) ∧
    (queue = i :: rest → busy = true →
      exec (.invalidationComplete v) s = .next (swept.schedule (s.now + 1) (.invalidationComplete v))) ∧
    (mget walk s.dev.walks = some w → exec (.walkComplete walk) s = .next ((w.misses.foldl answered free).startWalk w.die)) ∧
    (s.resumable v val = true → (∀ tr, t.suspendedBy = some tr → tr.final = false) → (t.hostFault = false ∨ byPf = true) →
      exec (.tresumeResume v val byPf) s =
        .next { ({ runs with cur := x }.releaseHold (((runs.strandAt x).key).getD runs.now)) with cur := s.cur }) ∧
    (s.resumable v val = false ∨ (∃ tr, t.suspendedBy = some tr ∧ tr.final = true) ∨ (t.hostFault = true ∧ byPf = false) →
      exec (.tresumeResume v val byPf) s =
        .next (s.report { vf := v, src := 255, cls := ascii2 'C' 'E', num := 5 }))

/-! ## Events of partitions -/

/-- R357, R374, R376: quads that no other VF has go to a VF that does not run; a write of quads another VF has is ignored and
logged, one to a VF that runs is ignored; a valid stitch mode and slots that meet no other VF's are taken, others are logged.
A write that finds its handler held waits, and the PF's later accesses behind it. R321, R377: GO begins step 1, which stops every strand of the VF that can be ended
and looks again until none is left; then the packets on their way are condemned, the VF's queues take their reset values and
step 2 begins; once nothing is on its way any more, storage and contexts of the VF's cores are zero and the reset is over. A
function-level reset resets the VF's own registers, its rings and its interrupt vectors and does the same. Where the rules leave
a point open it follows the model, as log entries 127, 128, 129 say. -/
def Obligations.PartitionsAct : Prop :=
  (∀ (s : State) (v word val : Nat),
     let m := putBits (s.vf v).slots (64 * word) 64 val
     let meets : Prop := ∃ f ∈ s.dev.vfs, f.1 ≠ v ∧ f.2.slots &&& m ≠ 0
     let free : Prop := s.handlerHeld 7 = false
     let quads := s.hostGoOn 64 (.vfquadsWrite v val)
     let stitch := s.hostGoOn 64 (.pstitchWrite v val)
     let slots := s.hostGoOn 64 (.vfslotsWrite v word val)
     (free → s.othersHave v val Vf.quads = false → s.vfRuns v = false →
       exec (.vfquadsWrite v val) s = .next (quads.setVf v fun f => { f with quads := val })) ∧
     (free → s.othersHave v val Vf.quads = false → s.vfRuns v = true → exec (.vfquadsWrite v val) s = .next quads) ∧
     (free → s.othersHave v val Vf.quads = true → exec (.vfquadsWrite v val) s = .next quads.logIgnored) ∧
     (free → s.stitchBad v val = false →
       exec (.pstitchWrite v val) s = .next (stitch.setVf v fun f => { f with pstitch := val })) ∧
     (free → s.stitchBad v val = true → exec (.pstitchWrite v val) s = .next stitch.logIgnored) ∧
     (free → ¬ meets → exec (.vfslotsWrite v word val) s = .next (slots.setVf v fun f => { f with slots := m })) ∧
     (free → meets → exec (.vfslotsWrite v word val) s = .next slots.logIgnored) ∧
     (¬ free → exec (.vfquadsWrite v val) s = .next (s.hostHold 64 (.vfquadsWrite v val)) ∧
       exec (.pstitchWrite v val) s = .next (s.hostHold 64 (.pstitchWrite v val)) ∧
       exec (.vfslotsWrite v word val) s = .next (s.hostHold 64 (.vfslotsWrite v word val)))) ∧
  (∀ (s : State) (v val : Nat),
     let xs (s : State) : List Nat := (s.strands.filter fun e => e.2.vf == v && e.2.mode != .ended).map Prod.fst
     let step (s : State) : State :=
       let s1 := (xs s).foldl (fun (s : State) x => if (s.strandAt x).resetStop then s.resetStrand x else s) s
       if (xs s).isEmpty then
         (((s1.condemn v).resetQueues v).setVf v fun f => { f with prst := 2 }).schedule s1.now (.partitionResetClear v)
       else s1.schedule (s1.now + 1) (.partitionReset v 0)
     let begun (s : State) : State := step ((s.yieldStops v).setVf v fun f => { f with prst := 1 })
     let rings := ((s.resetRings v).resetMsix v).setVf v fun f =>
       { f with vaerus := 0, vaerum := 0, vaerhdr := 0, apbase := 0, s1root := 0, ltb := 0, ltl := 0, s1ovf := false }
     let its (e : Ev) : Bool := rings.hostFn e == some v
     let reset : State := { rings with
       agenda := rings.agenda.filter fun e => !its e.2
       dev := { rings.dev with
         hostWait := rings.dev.hostWait.filter fun e => !its e, parked := rings.dev.parked.filter fun e => !its e
         failed := rings.dev.failed.filter fun e => e.1 != v } }
     let go := s.hostGoOn 64 (.partitionReset v val)
     (bit val 0 = true → (s.vf v).prst = 0 → s.handlerHeld 7 = false → exec (.partitionReset v val) s = .next (begun go)) ∧
     (bit val 0 = true → (s.vf v).prst ≠ 0 → s.handlerHeld 7 = false → exec (.partitionReset v val) s = .next go) ∧
     (bit val 0 = true → s.handlerHeld 7 = true →
       exec (.partitionReset v val) s = .next (s.hostHold 64 (.partitionReset v val))) ∧
     (bit val 0 = false → bit val 1 = true → (s.vf v).prst = 0 → s.handlerHeld 7 = false →
       exec (.partitionReset v val) s = .next (begun s)) ∧
     (bit val 0 = false → bit val 1 = false → (s.vf v).prst = 1 → exec (.partitionReset v val) s = .next (step s)) ∧
     ((s.vf v).prst = 2 → s.resetDrained v = true → exec (.partitionResetClear v) s =
       .next ((s.clearCores v).setVf v fun f => { f with prst := 0 })) ∧
     ((s.vf v).prst = 2 → s.resetDrained v = false → exec (.partitionResetClear v) s =
       .next (s.schedule (s.now + 1) (.partitionResetClear v))) ∧
     ((reset.vf v).prst = 0 → reset.handlerHeld 7 = false → exec (.functionLevelReset v) s = .next (begun reset)) ∧
     ((reset.vf v).prst = 0 → reset.handlerHeld 7 = true →
       exec (.functionLevelReset v) s = .next (reset.schedule (reset.now + 1) (.partitionReset v 2))) ∧
     ((reset.vf v).prst ≠ 0 → exec (.functionLevelReset v) s = .next reset))

/-! ## Resets and bring-up -/

/-- R6, R321, R366, R367, R386, R395: every package reset leaves the machine as `State.reset` has it but for what lies outside it
(the clock's uncertain events, the memories of the host and of other packages), the cause, and its stacks: untrained after a
cold reset, trained again after a warm one, a hot one and a thermal trip by those records that pass their checks; a stack that is
not there stays away. A PF function-level reset clears the PF's own log, error records, interrupt vectors and firmware supplement,
with a hand-over that pends and its host accesses under way, and resets every VF; of one that has nothing but interrupt vectors
these are reset. The reset
state has no strand, no queue, an unaligned pod, a boot stage of 0 and memories in canonical form. Where the rules leave a
point open it follows the model, as log entries 1, 2, 130, 131 say. -/
def Obligations.ResetsAct : Prop :=
  ∀ (s : State),
    let after (cause fresh : Nat) (load : Nat × Stk → Nat × Stk) : State :=
      { State.reset with
        fresh := fresh, latencies := s.latencies, inputs := s.inputs, host := s.host, peer := s.peer, poisonHost := s.poisonHost
        dev := { State.reset.dev with
          stks := s.dev.stks.map load, peerQuads := s.dev.peerQuads, pf := { State.reset.dev.pf with cause := cause } } }
    let cold (e : Nat × Stk) : Nat × Stk :=
      (e.1, { state := if e.2.state = 0 then 0 else 1, record := e.2.record, hot := e.2.hot })
    let passes (e : Nat × Stk) (r : TrainRecord) : Bool :=
      r.digest == recordDigest r.serial r.rate r.lanes && r.serial == (Config.stackSerial e.1).toNat &&
        !Config.readBackFails (s.fresh + e.1)
    let warm (e : Nat × Stk) : Nat × Stk :=
      let stale := match e.2.record with | some r => !passes e r | none => true
      (e.1, { state := if e.2.state = 0 then 0 else if stale then 1 else 3
              rate := match e.2.record with | some r => if stale then 0 else r.rate | none => 0
              record := e.2.record, hot := e.2.hot })
    let f := (s.dropHost 64).setPf fun p => { p with log := {}, aer := [], handover := none, hmask := 0, supver := 0 }
    let own (k : Nat) : Bool := k / 64 != 64
    let cleared : State :=
      { f with dev := { f.dev with msix := f.dev.msix.filter fun e => own e.1, pba := f.dev.pba.filter own
                                   msixCtl := f.dev.msixCtl.filter fun e => e.1 != 64 } }
    (∀ sp, Memory.wf (State.reset.mem sp) = true) ∧ State.reset.strands = [] ∧ State.reset.dev.cqs = [] ∧
    State.reset.dev.pf.stage = 0 ∧ State.reset.dev.pf.aligned = false ∧
    exec .coldReset s = .next (after 0 s.fresh cold) ∧
    exec .warmReset s = .next (after 1 (s.fresh + 16) warm) ∧
    exec .thermalTrip s = .next (after 2 (s.fresh + 16) warm) ∧
    exec .hotReset s = .next (after 3 (s.fresh + 16) warm) ∧
    exec .pfFunctionLevelReset s =
      .next ((List.range 64).foldl (fun (s : State) v =>
        if s.dev.vfs.any fun f => f.1 == v then (s.resetFunction v).beginReset v else (s.resetMsix v).dropHost v) cleared)

/-- R12, R366, R369, R370, R380, R387: the self-test opens the proof service and sets the untrained stacks and the links training; a
stack trains at a rate, of which it keeps the record, and a change of its rate retrains it, is deferred by a save, or is refused;
alignment gives a numbered package its number and its reel once, under no launch that has a strand, and its release ends it; full
service begins, once firmware may ask for it, when no strand runs. A write that finds its handler held waits. Where the rules leave a
point open it follows the model, as log entries 132, 133, 145, 168 say. -/
def Obligations.BringUpActs : Prop :=
  ∀ (s : State) (k rate val pkg npkg parent named path : Nat),
    let train (s : State) (k : Nat) : State := if (s.dev.stk k).state = 1 then s.setStk k fun x => { x with state := 2 } else s
    let link (s : State) (l : Nat) : State := if (s.link l).state = 0 then s.setLink l fun x => { x with state := 1 } else s
    let trained (u : State) (rate : Nat) : State :=
      (u.tick.setStk k fun x => { x with state := 3, rate := rate, record := some (trainRecord k rate u.fresh) }).offerService
    let new := val % 16
    let go := s.hostGoOn 64 (.stkrateWrite k val)
    let changing :=
      (go.setStk k fun x => { x with res := 2, want := new, state := 4 }).breakPins fun ch => s.dev.physCh ch / 32 == k
    let lag := if pkg = 0 then 0 else path + (s.link parent).lat
    let valid : Prop := s.numbered pkg npkg parent = true ∧ lag ≤ named
    let waits : Prop := s.handlerHeld 6 = true ∨ (∃ e ∈ s.strands, e.2.mode ≠ .ended) ∨
      ∃ l ∈ s.dev.launches, l.stage = .saved ∨ l.stage = .resuming
    let align : Instr := .podAlignment pkg npkg ⟨parent, named, path⟩
    (s.dev.pf.stage = 0 → exec .selfTestPass s = .next ((List.range 18).foldl link
      ((List.range 16).foldl train (s.setPf fun p => { p with stage := 1, proof := true }))).offerService) ∧
    ((s.dev.stk k).state = 2 → rate ≤ 3 → exec (.stackTrainingComplete k rate) s = .next (trained s rate)) ∧
    (s.handlerHeld 4 = true → exec (.stkrateWrite k val) s = .next (s.hostHold 64 (.stkrateWrite k val))) ∧
    (s.handlerHeld 4 = false → s.rateBad k new = true →
      exec (.stkrateWrite k val) s = .next (go.setStk k fun x => { x with res := 3 })) ∧
    (s.handlerHeld 4 = false → s.rateBad k new = false → s.saving k = true →
      exec (.stkrateWrite k val) s = .next (go.setStk k fun x => { x with res := 1 })) ∧
    (s.handlerHeld 4 = false → s.rateBad k new = false → s.saving k = false →
      exec (.stkrateWrite k val) s = .next (changing.later (.retrainingComplete k))) ∧
    ((s.dev.stk k).state = 4 → exec (.retrainingComplete k) s =
      .next (trained (s.setStk k fun x => { x with res := 0 }) (s.dev.stk k).want)) ∧
    (s.dev.pf.aligned = false → s.dev.pf.placed = false → valid → ¬ waits → exec align s = .next
      { s with dev := { s.dev with pkg := pkg, npkg := npkg, reel := named - lag, pf := { s.dev.pf with placed := true } } }) ∧
    (s.dev.pf.aligned = false → s.dev.pf.placed = false → valid → waits → exec align s =
      .next (s.schedule (s.now + 1) (.podAlignment pkg npkg ⟨parent, named, path⟩))) ∧
    (s.dev.pf.aligned = true ∨ s.dev.pf.placed = true ∨ ¬ valid → exec align s = .next s) ∧
    (s.dev.pf.placed = true → exec .alignmentRelease s = .next (s.setPf fun p => { p with aligned := true }).offerService) ∧
    (s.dev.pf.placed = false → exec .alignmentRelease s = .next s) ∧
    (s.serviceReady = true → (∀ e ∈ s.strands, e.2.mode = .ended) → exec .fullServiceEntry s =
      .next (s.rescale.setPf fun p =>
        { p with stage := 2, proof := false, closing := false, tickBase := s.ticks, tickAt := s.now })) ∧
    (s.serviceReady = true → (∃ e ∈ s.strands, e.2.mode ≠ .ended) → exec .fullServiceEntry s =
      .next ((s.setPf fun p => { p with closing := true }).schedule (s.now + 1) .fullServiceEntry))

/-! ## Retirement, links, the host side and firmware -/

/-- R372, R373: retirement of a channel to a valid donor breaks pins and stops scans on both and counts its generation up, one
that is not valid is refused; the drain ends at once; the copy moves the channel's contents and poison marks to the donor,
whose address lines take over, and the writes that were held go on in the order of their arrival. A write of `chret` that finds its
handler held waits. A broadcast keeps a peer's generation. Where the rules leave a point open it follows the
model, as log entries 134, 135 say. -/
def Obligations.ChannelRetirementRuns : Prop :=
  ∀ (s : State) (val pkg gen : Nat) (r : Retire),
    let ch := bits val 8 0
    let donor := bits val 17 9
    let on (c : Nat) : Bool := c == ch || c == donor
    let go := s.hostGoOn 64 (.chretWrite val)
    let gen1 := (s.dev.pf.chGen + 1) % 2 ^ 16
    let begun := go.setPf fun p =>
      { p with chGen := gen1, chRes := 0, retire := some { ch := ch, donor := donor, step := 1 }, fences := mset ch gen1 p.fences }
    let copied : State :=
      { s with dram := moveChannel s.dram r.ch r.donor, poisonDram := moveMarks s.poisonDram r.ch r.donor }
    let lines := copied.setStk (r.donor / 32) fun x => { x with don := x.don ||| 2 ^ (r.donor % 32) }
    let moved : State := { lines with dev := { lines.dev with remaps := mset r.ch r.donor lines.dev.remaps } }
    (s.handlerHeld 5 = true → exec (.chretWrite val) s = .next (s.hostHold 64 (.chretWrite val))) ∧
    (s.handlerHeld 5 = false → s.retireBad ch donor = false → exec (.chretWrite val) s =
      .next (((begun.breakPins on).stopScans on).later .retirementDrainDone)) ∧
    (s.handlerHeld 5 = false → s.retireBad ch donor = true →
      exec (.chretWrite val) s = .next (go.setPf fun p => { p with chRes := 2 })) ∧
    (s.dev.pf.retire = some r → r.step = 1 → exec .retirementDrainDone s =
      .next ((s.setPf fun p => { p with retire := some { r with step := 3 } }).later .retirementCopyDone)) ∧
    (s.dev.pf.retire = some r → r.step = 3 → exec .retirementCopyDone s =
      .next (moved.setPf fun p => { p with retire := none, chRes := 1 }).unpark) ∧
    exec (.generationBroadcast pkg gen) s = .next (s.setPf fun p => { p with peerGen := mset pkg (gen % 2 ^ 16) p.peerGen })

/-- R325, R363, R378, R379, R381, R382: a link in training comes up with its latency and far end; a flit that passes its CRC counts
its correction, is passed on with those that it releases, and a retry notice in its header goes to the sender; one of no kind, or of
another pair than its place has, is discarded; a failed one is counted and named to the other end, and with its third failure, or the
sixteenth in a reel, the link goes down and loses what is under way on it; a retry notice sets one resend of its flit off, D reels
after the reel it names; a read of `spstat` clears its counts; a host link event is recorded in the error registers of the PF or of
its function; a completion that fails is consumed by the next read of its bytes by the VF, and a poisoned posted write is made,
poisoned, or held as other writes of its function are. Where the rules leave a point open it follows the model, as log entries 121,
136, 146, 170, 172 say. -/
def Obligations.LinksAct : Prop :=
  ∀ (s : State) (l lat peer far head payload crc pair reel rseq v addr size val : Nat) (fixed : Bool),
    let k := s.link l
    let flit := flitOf head payload crc
    let n := s.flitNow l
    let fail := k.failure n
    let m := if k.reel = s.reelNow then k.reelFails + 1 else 1
    let seen := s.setLink l fun k => { k with corr := if fixed then k.corr + 1 else k.corr }
    let failed := seen.setLink l fun k =>
      { k with uncor := k.uncor + 1, reel := s.reelNow, reelFails := m
               notice := some (s.now + 4, n % 224 / 2 + 1, n / 224 % 16)
               fails := (k.fails.filter fun e => e.sent + 224 * k.retry != n) ++ [fail] }
    let good : Prop := bits flit 2047 1984 = crc64 (flBody flit)
    let kept : Prop := bits flit 63 60 ≤ 4 ∧ bits flit 55 49 = n % 224 / 2
    let notice := bits flit 46 40
    let named_ : Prop := 1 ≤ notice ∧ notice ≤ 112
    let last := if s.pairTime pair s.reelNow ≤ s.now then s.reelNow else s.reelNow - 1
    let named := last - (last + 16 - rseq % 16) % 16
    let noted (kind : LinkEventKind) (fatal : Bool) : State := s.setPf fun p => { p with aer := p.aer ++ [(kind, fatal)] }
    let fails : State := { s with dev := { s.dev with failed := s.dev.failed ++ [(v, addr / 8)] } }
    (l < 18 → k.state = 1 → exec (.speatLinkTrained l lat peer far) s = .next (s.setLink l fun k =>
      { k with state := 2, lat := lat % 2 ^ 12, peerPkg := peer % 64, peerLink := far % 32 })) ∧
    (k.state = 2 → good → kept → ¬ named_ → exec (.flitReceive l head payload crc fixed) s = .next (seen.flitPassed l flit)) ∧
    (k.state = 2 → good → kept → named_ → exec (.flitReceive l head payload crc fixed) s =
      .next ((seen.flitPassed l flit).schedule s.now (.retryNotice l (notice - 1) (bits flit 59 56)))) ∧
    (k.state = 2 → good → ¬ kept → exec (.flitReceive l head payload crc fixed) s = .next seen) ∧
    (k.state = 2 → ¬ good → fail.count < 3 → m < 16 → exec (.flitReceive l head payload crc fixed) s = .next failed) ∧
    (k.state = 2 → ¬ good → 3 ≤ fail.count ∨ 16 ≤ m → exec (.flitReceive l head payload crc fixed) s = .next (failed.setLink l fun k =>
      { k with state := 0, named := [], fails := [], held := [], parts := [], kept := [] }).logIgnored) ∧
    (k.state = 2 → pair < 112 → k.named.contains (pair, named) = false → exec (.retryNotice l pair rseq) s =
      .next ((s.setLink l fun k => { k with named := k.named ++ [(pair, named)] }).schedule
        (Nat.max s.now (s.pairTime pair (named + k.retry))) (.flitResend l pair named))) ∧
    exec (.flitResend l pair reel) s = .next (s.setLink l fun k =>
      { k with
        kept := k.kept.map fun e => if e.1 % 224 / 2 = pair ∧ e.1 / 224 = reel then (e.1 + 224 * k.retry, e.2) else e
        named := k.named.filter fun e => e != (pair, reel) }) ∧
    exec (.spstatRead l) s = .next (s.setLink l fun k => { k with uncor := 0, corr := 0 }) ∧
    exec (.linkEvent .receiverError v addr) s = .next (noted .receiverError false) ∧
    exec (.linkEvent .flitReplay v addr) s = .next (noted .flitReplay false) ∧
    exec (.linkEvent .linkDown v addr) s = .next (noted .linkDown true) ∧
    exec (.linkEvent .linkRetrain v addr) s = .next (noted .linkRetrain false) ∧
    exec (.linkEvent .unsupportedRequest v addr) s = .next (s.setVaer v 0 addr) ∧
    exec (.linkEvent .completerAbort v addr) s = .next (s.setVaer v 1 addr) ∧
    exec (.linkEvent .completionTimeout v addr) s = .next (fails.setVaer v 2 addr) ∧
    exec (.linkEvent .poisonedCompletion v addr) s = .next (fails.setVaer v 3 addr) ∧
    let posted : LinkEventKind := .poisonedPostedWrite size val
    (s.tenantHeld v addr size true = false → exec (.linkEvent posted v addr) s =
      .next (((s.hostGoOn v (.linkEvent posted v addr)).poisonedWrite v addr (leBytes size val)).setVaer v 3 addr)) ∧
    (s.tenantHeld v addr size true = true → exec (.linkEvent posted v addr) s =
      .next (s.hostHold v (.linkEvent posted v addr) (s.tenantAny v addr size s.retiring)))

/-- R322 to R324, R346, R353, R359, R370, R372, R383, R384, R395: a host access through the aperture reads or writes the tenant's
memory, a fault of it is reported, and one that a pin, a retraining or a retirement holds waits, with the accesses of its function
behind it; a register write of 4
or 8 aligned bytes takes effect in its view; unmasking a vector sends the message that was pending; a corrected error is counted
and every 4,096th logged; an uncorrectable one poisons its unit, of storage, of a stack or of a packet in a router buffer, is
logged with its owner and noted by a save it hits; a temperature warning sets its die's bit, with the chip cycle, and is logged.
Where the rules leave a point open it follows the model, as log entries 17, 120, 122, 137, 146, 176, 181 say. -/
def Obligations.HostSideActs : Prop :=
  ∀ (s : State) (v off n val view fn vec place space addr die : Nat) (s1 : State) (bs : List Byte),
    let at_ := (s.vf v).apbase + off
    let access (write : Bool) : Ev := .apertureAccess v off n write val
    let u (write : Bool) := s.hostGoOn v (access write)
    let held (write : Bool) : Bool := s.tenantHeld v at_ n write
    let k := fn * 64 + vec
    let open_ := s.setMsix k fun e => { e with masked := false }
    let shown : State := { open_ with dev := { open_.dev with pba := open_.dev.pba.filter fun j => j != k } }
    let count := (mget place s.dev.pf.soft).getD 0 + 1
    let counted := s.setPf fun p => { p with soft := mset place count p.soft }
    let aligned : Prop := (n = 4 ∨ n = 8) ∧ off % n = 0
    (off < 2 ^ 32 → held false = false → (u false).tenantRead v at_ n (n / 4096 + 2) = .ok bs →
      exec (.apertureAccess v off n false val) s = .next (u false)) ∧
    (∀ t, off < 2 ^ 32 → held false = false → (u false).tenantRead v at_ n (n / 4096 + 2) = .error t → t.host = false →
      exec (.apertureAccess v off n false val) s = .next ((u false).setVaer v 1 at_)) ∧
    (off < 2 ^ 32 → held false = true → exec (.apertureAccess v off n false val) s = .next (s.hostHold v (access false))) ∧
    (off < 2 ^ 32 → held true = true → exec (.apertureAccess v off n true val) s =
      .next (s.hostHold v (access true) (s.tenantAny v at_ n s.retiring))) ∧
    (off < 2 ^ 32 → held true = false → (u true).tenantWrite v at_ (leBytes n val) (n / 4096 + 2) = (s1, none) →
      exec (.apertureAccess v off n true val) s = .next s1) ∧
    (∀ t, off < 2 ^ 32 → held true = false → (u true).tenantWrite v at_ (leBytes n val) (n / 4096 + 2) = (s1, some t) →
      t.host = false → exec (.apertureAccess v off n true val) s = .next (s1.setVaer v 1 at_)) ∧
    (aligned → view < 64 → exec (.registerWrite view off n val) s = .next (s.viewWrite view off n (val % 2 ^ 64))) ∧
    (aligned → view = 64 → exec (.registerWrite view off n val) s = .next (s.pfWrite off n (val % 2 ^ 64))) ∧
    (aligned → n = 4 → 128 ≤ view → view ≤ 192 →
      exec (.registerWrite view off n val) s = .next (s.msixWrite (view - 128) off (val % 2 ^ 32))) ∧
    (¬ aligned → exec (.registerWrite view off n val) s = .next s) ∧
    (open_.dev.pba.contains k = true → exec (.msixUnmask fn vec) s = .next (shown.sendMsix fn vec)) ∧
    (open_.dev.pba.contains k = false → exec (.msixUnmask fn vec) s = .next open_) ∧
    (place ≤ 16 → count % 4096 ≠ 0 → exec (.softErrorCorrected place) s = .next counted) ∧
    (place ≤ 16 → count % 4096 = 0 →
      exec (.softErrorCorrected place) s = .next (counted.logPf 4 (ascii2 'S' 'E') 1 place 0 count)) ∧
    (space = 2 → addr < 2 ^ 24 → exec (.softErrorUncorrectable space addr) s = .next
      ((s.strikePacket (addr / 2 ^ 16) (addr / 2 ^ 8 % 256) (addr / 2 ^ 5 % 8) (addr % 32)).logPf 4 (ascii2 'S' 'E') 2 0 0
        (s.unitOwner true (addr / 2 ^ 16 * 2 ^ 21)))) ∧
    (space ≠ 0 → space ≠ 2 → exec (.softErrorUncorrectable space addr) s = .next
      (((s.mark .dram addr).logPf 4 (ascii2 'S' 'E') 2 0 addr (s.unitOwner false addr)).noteLost false addr)) ∧
    (space = 0 → addr < 2 ^ 29 → exec (.softErrorUncorrectable space addr) s = .next
      (((s.mark .chip addr).logPf 4 (ascii2 'S' 'E') 2 0 (addr % 2 ^ 21) (s.unitOwner true addr)).noteLost true addr)) ∧
    (die < 4 → exec (.thermalWarn die) s =
      .next ((s.setPf fun p => { p with warn := p.warn ||| 2 ^ die, warmAt := some s.now }).logPf 255 (ascii2 'T' 'H') 1 0 0 die))

/-- R388 to R394: an image that passes the checks is measured and its hand-over pends for 100 ms, one that fails is refused for
the first reason; the hand-over is committed at the first point at which none of its handlers runs, with a log entry and the
supplement's version, and abandoned at its deadline; a quote, the log and the certificates are written to the host's buffer.
Where the rules leave a point open it follows the model, as log entries 12, 138, 140 say. -/
def Obligations.FirmwareActs : Prop :=
  ∀ (s : State) (h : HandOver),
    let p := s.dev.pf
    let img := s.bytes .host p.fwaddr p.fwlen
    let hd := leNat (img.take 64)
    let dig := leNat (digestOf img)
    let at_ := s.now + s.cyclesOf 100000
    let pending := s.fwDone.setPf fun p =>
      { p.append { kind := 2, version := suVersion hd, secver := suSecver hd, digest := dig } with
        handover := some { version := suVersion hd, secver := suSecver hd, hmask := suHmask hd, digest := dig, deadline := at_ } }
    let entry (kind : Nat) : LogEntry := { kind := kind, version := h.version, secver := h.secver, digest := h.digest }
    let body := p.quoteBody (s.num .host p.fwaddr 32)
    let sig := (Config.ed448Sign attestationSeed body).toNat
    let certs := Config.identityCert ++ Config.attestationCert (Config.ed448Public attestationSeed) identitySeed
    let quiet : Prop := ∀ k < 8, bit h.hmask k = true → s.handlerRuns k = false
    let committed := s.setPf fun p => { p.append (entry 3) with handover := none, supver := h.version, hmask := h.hmask }
    exec .fwcmdLoad s =
      .next (match s.loadRefused img with
        | none => (pending.schedule s.now .handoverCommit).schedule at_ .handoverAbandon
        | some reason => s.fwRefuse reason) ∧
    exec .fwcmdQuote s = .next (s.write .host p.fwaddr (leBytes 114 sig ++ body)).fwDone ∧
    (80 * p.entries.length ≤ p.fwlen → exec .fwcmdLog s =
      .next (s.write .host p.fwaddr (p.entries.zipIdx.flatMap fun e => e.1.bytes e.2)).fwDone) ∧
    (p.fwlen < 80 * p.entries.length → exec .fwcmdLog s = .next (s.fwRefuse 2)) ∧
    exec .fwcmdCert s = .next (s.write .host p.fwaddr (certs.take p.fwlen)).fwDone ∧
    (p.handover = some h → quiet → exec .handoverCommit s = .next (committed.logPf 3 (ascii2 'F' 'W') 2 0 0 h.version)) ∧
    (p.handover = some h → ¬ quiet → exec .handoverCommit s = .next (s.schedule (s.now + 1) .handoverCommit)) ∧
    (p.handover = some h → h.deadline ≤ s.now → exec .handoverAbandon s =
      .next ((s.setPf fun p => { p.append (entry 4) with handover := none }).logPf 3 (ascii2 'F' 'W') 3 0 0 0)) ∧
    (p.handover = some h → s.now < h.deadline → exec .handoverAbandon s = .next s)

/-! ## What stops a word, and what a trap leaves -/

/-- R24, R41, R43, R87, R90: a word that names what its strand does not hold takes `IL 6` with the number of its first such operand
slot, 4 for SWAIT, 5 for SPOST, 8 for what its form asks, and then what its follow-on words name; one whose SWAIT semaphore holds no
count stalls the strand; one whose guard is false takes its SWAIT, raises SPOST and does nothing else; an S word that reads a
queue register without a landed entry, in any of its slots, as the slots before it leave the registers, takes `QU 1`, one whose
transport finds its register full takes `QU 2`, in either case before any effect. Where the rules leave a point open it follows the model, as log entries 29, 30, 31 say. -/
def Obligations.WordsThatCannotAct : Prop :=
  ∀ (s : State) (v : View) (e : Eng) (words : Nat) (op : Operation) (o : SOp) (h : Hdr) (b : SBody)
    (f : Word → Word → Word → Operation) (n : Fin 32) (vs : List Word) (t1 : Strand),
    let w := v.hdr.swait.val
    let p := v.hdr.spost.val
    let u := s.acting (.s o h b)
    let trapped (tr : Trap) : Host.Outcome State Fault Refusal := .next (s.unstall.takeTrap tr 0 1)
    let bad (q : Sys2Proof.Slot) : Prop := q.used = true ∧ s.t.ownsOpd q.opd = false
    let named : Prop := ∀ q ∈ v.slots, ¬ bad q
    let waitBad : Prop := w ≠ 0 ∧ s.t.ownsSem w = false
    let postBad : Prop := p ≠ 0 ∧ s.t.ownsSem p = false
    let followed : Prop := ∀ x ∈ v.followOpds, s.t.ownsOpd x.1 = true
    (∀ k q, v.slots[k]? = some q → bad q → (∀ j r, j < k → v.slots[j]? = some r → ¬ bad r) → s.limits v = some k) ∧
    (named → waitBad → s.limits v = some 4) ∧ (named → ¬ waitBad → postBad → s.limits v = some 5) ∧
    (Holds s v → s.formLimit v = true → s.limits v = some 8) ∧
    (Holds s v → s.formLimit v = false → ¬ followed →
      ∃ x ∈ v.followOpds, s.t.ownsOpd x.1 = false ∧ s.limits v = some x.2) ∧
    (Holds s v → s.formLimit v = false → followed → s.limits v = none) ∧
    (∀ d, s.limits v = some d → s.issueOn v e words op = s.unstall.takeTrap (trapIL 6 d) e.num (e.num + 1)) ∧
    (s.limits v = none → w ≠ 0 → s.sem s.core w = 0 → s.issueOn v e words op = s.stallAt .semaphore) ∧
    (s.limits v = none → (w = 0 ∨ s.sem s.core w ≠ 0) → s.t.guard v.grd = false →
      (p = 0 ∨ s.t.dbg = false ∨ s.sem s.core p ≠ 255) →
      s.issueOn v e words op = ((s.begun e words w).raise p).unstall) ∧
    (Ready s (.s o h b) → o.form.a ≠ .unused → b.a = .q n → (∀ x ∈ (u.t.queue n.val).head?, x.landed = false) →
      issueS o h b f s = trapped (trapQU 1 n.val)) ∧
    (∀ before after pk ys, Ready s (.s o h b) → sSlots o h b = before ++ (Opd.q n, pk) :: after →
      u.t.readOpds .s (immVal b.ty b.imm) before = .ok (ys, t1) → (∀ x ∈ (t1.queue n.val).head?, x.landed = false) →
      issueS o h b f s = trapped (trapQU 1 n.val)) ∧
    (Ready s (.s o h b) → b.xl ≠ .none → u.t.readOpds .s (immVal b.ty b.imm) (sSlots o h b) = .ok (vs, t1) →
      2 ≤ (t1.queue b.xq.val).length → issueS o h b f s = trapped (trapQU 2 b.xq.val))

/-- R34 to R37, R40: a trap of delivery H freezes the strand: `trc`, `trs` and the six resume points are written, `hclk` is 0,
the handler runs at `tvec`, and every other register, every pending landing, every command and all of memory stand as they
stood; one of delivery T suspends the strand with every landing and command and reports it; a trap inside a handler is `HX
1`, which suspends. Of other strands nothing changes but the holds that one of an exact gang announces to them. Where the rules
leave a point open it follows the model, as log entries 21, 24, 26, 27 say. -/
def Obligations.TrapFreezesOrSuspends : Prop :=
  ∀ (s : State) (tr : Trap) (queue pos : Nat),
    let t := s.t
    let u := s.takeTrap tr queue pos
    let c := u.t.ctx
    let kept : Prop := u.t.pend = t.pend ∧ u.t.mpend = t.mpend ∧ u.t.streams = t.streams ∧ u.t.pins = t.pins ∧
      u.t.asyncs = t.asyncs ∧ (∀ sp, u.mem sp = s.mem sp) ∧ (∀ sp, u.poison sp = s.poison sp) ∧ u.cores = s.cores ∧
      ∀ y, y ≠ s.cur → ∃ l, u.strandAt y = { s.strandAt y with holds := l }
    let told (cls num detail : Nat) : Prop := ∃ r ∈ u.dev.reports, r.vf = t.vf ∧ r.orig = origOf s.cur ∧
      r.cls = cls ∧ r.num = num ∧ r.detail = detail
    let hx := tr.cls * 256 + tr.num
    kept ∧
    (t.frozen = false → tr.suspends = false → u.t.mode = .frozen ∧ u.t.micro = 0 ∧ u.t.resumeAt = pos ∧ u.t.hpend = [] ∧
      u.t.hqueue.idx = t.ctx.tvec.toNat % (vget t.queues 0 {}).len ∧ u.t.hqueue.halted = false ∧
      c.trc = trcOf tr.cls tr.num tr.detail queue false tr.dbg ∧ c.trs = BitVec.ofNat 64 t.ctx.sclk ∧ c.hclk = 0 ∧
      (∀ e : Fin 6, c.tq[e] = s.resumePoint (vget t.queues e.val {})) ∧
      { c with trc := t.ctx.trc, trs := t.ctx.trs, tq := t.ctx.tq, hclk := t.ctx.hclk } = t.ctx) ∧
    (t.frozen = false → tr.suspends = true → u.t.mode = .suspended ∧ u.t.resumeAt = pos ∧ u.t.suspendedBy = some tr ∧
      { c with trc := t.ctx.trc, trs := t.ctx.trs, tq := t.ctx.tq } = t.ctx ∧ told tr.cls tr.num (tr.recDetail.getD tr.detail)) ∧
    (t.frozen = true → u.t.mode = .suspended ∧ c.trc = trcOf (ascii2 'H' 'X') 1 (hx % 65536) queue false false ∧
      { c with trc := t.ctx.trc } = t.ctx ∧ told (ascii2 'H' 'X') 1 hx)

/-- R24, R43, R47, R112 to R121: the S words of the integer unit, of compares and predicates, of the multiplier and of floating point,
whose result lands in a latch or a predicate, change, at their issue, no byte of memory, no other strand's registers, nothing of
their own context but its queue registers and (in `.rs`) its stochastic state, and of their core nothing but the semaphore that
SWAIT names; `sts` and `sps` without SPOST change no byte outside the one element that they write, and nothing of their own context
but its queue registers. -/
def Obligations.ResultWordsKeepTheRest : Prop :=
  ∀ (s : State) (op : SOp) (h : Hdr) (b : SBody) (x y z : Word) (t : Strand) (u : State),
    let n := if op = .sts then b.ty.width / 8 else 8
    let at_ : Int := if op = .sts then x.toNat + b.imm.toInt else t.ctx.ssp.toNat + b.imm.toInt
    let data := if op = .sts then y else x
    let stored : Done := { s := (s.reading (.s op h b) t).spadStore at_.toNat (leBytes n data.toNat) }
    let results : List SOp :=
      [.add, .sub, .and, .or, .xor, .andn, .shl, .shr, .sar, .min, .max, .sel, .clz, .popc, .li, .lih, .ceq, .cne, .clt, .cle,
       .ctst, .fceq, .fclt, .fcle, .fcun, .pand, .por, .pxor, .ppack, .punpack, .mul, .mulh, .mad, .dp4, .fadd, .fsub, .fmul, .fma,
       .cvt, .fmin, .fmax, .fabs, .fneg]
    let quiet : Prop :=
      (∀ sp a, sp ≠ Space.chip → cellAt (u.mem sp) a = cellAt (s.mem sp) a) ∧ u.dev = s.dev ∧
      (∀ y, y ≠ s.cur → (u.strandAt y).ctx = (s.strandAt y).ctx ∧ (u.strandAt y).asyncs = (s.strandAt y).asyncs) ∧
      { u.t.ctx with q := s.t.ctx.q, hq := s.t.ctx.hq, srseed := s.t.ctx.srseed } = s.t.ctx ∧
      u.t.asyncs = s.t.asyncs ∧ (b.rnd ≠ .rs → u.t.ctx.srseed = s.t.ctx.srseed) ∧
      (∀ k, k ≠ s.core → u.coreAt k = s.coreAt k) ∧ (∀ n, n ≠ h.swait.val → u.sem s.core n = s.sem s.core n)
    (op ∈ results → SWord s op h b x y z t → (op = .cvt → (Ty.ofCode (b.imm.toNat % 32)).isSome = true) →
      exec (op.instr h b) s = .next u → quiet ∧ (∀ a, cellAt u.onchip a = cellAt s.onchip a) ∧
        { u.coreAt s.core with sems := [] } = { s.coreAt s.core with sems := [] }) ∧
    (op = .sts ∨ op = .sps → SDoes s op h b x y z t stored →
      TimedOk (s.reading (.s op h b) t) (if op = .sts then b.px.val else 0) at_ n true → h.spost.val = 0 →
      exec (op.instr h b) s = .next u → (∀ sp a, sp ≠ Space.chip → cellAt (u.mem sp) a = cellAt (s.mem sp) a) ∧
        (∀ a, a < chipAddr s.core at_.toNat ∨ chipAddr s.core at_.toNat + n ≤ a → cellAt u.onchip a = cellAt s.onchip a) ∧
        { u.t.ctx with q := s.t.ctx.q, hq := s.t.ctx.hq } = s.t.ctx)

/-! ## Memory -/

/-- R4, R5: bytes written to a space read back at their addresses, every other byte is what it was, and the memory keeps its
canonical form; a number written in n bytes reads back modulo 2^(8n); no other space changes. Where the rules leave a point
open it follows the model, as log entry 2 says. -/
def Obligations.MemoryWritesReadBack : Prop :=
  ∀ (s : State) (sp : Space) (a n v : Nat) (bs : List Byte),
    let at_ := s.home sp a
    let u := s.write sp a bs
    Memory.wf (s.mem sp) = true →
    Memory.wf (u.mem sp) = true ∧
    (∀ i, i < bs.length → cellAt (u.mem sp) (at_ + i) = bs.getD i 0) ∧
    (∀ x, x < at_ ∨ at_ + bs.length ≤ x → cellAt (u.mem sp) x = cellAt (s.mem sp) x) ∧
    (∀ sq, sq ≠ sp → u.mem sq = s.mem sq) ∧
    u.bytes sp a bs.length = bs ∧
    (∀ i, i < n → (s.bytes sp a n).getD i 0 = cellAt (s.mem sp) (at_ + i)) ∧
    (s.writeNum sp a n v).num sp a n = v % 2 ^ (8 * n)

/-! ## Sums -/

/-- R79: with integer operands an element of the accumulator becomes acc + S modulo 2^64, S the exact sum of the products, and the
sum sets OV of the accumulator and IOVF exactly when acc + S lies outside int64. -/
def Obligations.IntegerSumsWrap : Prop :=
  ∀ (acc : Nat) (init tree : Bool) (a b : List Elem) (s : State) (j : MacJob),
    let old : Int := if init then 0 else sext 64 acc
    let t := old + ((a.zip b).map fun p => p.1.int * p.2.int).sum
    let out : Prop := t < -(2 ^ 63) ∨ 2 ^ 63 - 1 < t
    let r := macElem init true tree acc a b
    let raw := s.accRaw j.acc.val
    let element (i k : Nat) : Nat × Nat × Bool := macElem j.init true j.tree (raw.getD (i * 128 + k) 0) (j.a.getD i []) (j.b.getD k [])
    (r.1 : Int) = t % 2 ^ 64 ∧ (r.2.2 = true ↔ out) ∧ (out → r.2.1 = fIOVF) ∧ (¬ out → r.2.1 = 0) ∧
    (j.intMode = true → j.a.length ≤ 64 → j.b.length ≤ 128 →
      (∃ i k, i < j.a.length ∧ k < j.b.length ∧ (element i k).2.2 = true) →
      bit ((s.applyMac j).1.coreAt s.core).acm (4 * j.acc.val + 2) = true ∧ bit (s.applyMac j).2 7 = true)

/-! ## Decoding and stepping -/

/-- R84 to R99: the words that `encode` gives a well-formed instruction of the rings are as many as it takes, fit in 128 bits, and
decode to it in the queue of its class, the break word in every queue, whatever follows it in the ring. -/
def Obligations.RingWordsRoundTrip : Prop :=
  ∀ (i : Instr) (v : View), i.view = some v → i.WellFormed →
    (encode i).length = i.words ∧ (∀ w ∈ encode i, w < 2 ^ 128) ∧
    (∀ w, encode i = [w] → ∀ w2, decodeWord v.eng w w2 = .ok i) ∧
    (∀ w w2, encode i = [w, w2] → decodeWord v.eng w w2 = .ok i) ∧
    (∀ h c e w w2, i = .brk h c → encode i = [w] → decodeWord e w w2 = .ok i)

/-- R307, R308: the stick-code word of a well-formed instruction decodes to it, and a word that decodes is the word of the
instruction that it decodes to, which is well formed: each word has one meaning. -/
def Obligations.StickWordsRoundTrip : Prop :=
  ∀ (i : Instr) (w : Nat),
    (encodeStick i = some w → i.WellFormed → w < 2 ^ 32 ∧ decodeStick w = some i) ∧
    (w < 2 ^ 32 → decodeStick w = some i → encodeStick i = some w ∧ i.WellFormed)

/-- R86 to R99, R307: words of the spec's own listings, one at least of each class, decode to the instructions beside which they
stand, and a word of class 0, of an unassigned class, of another queue's class, or of an unassigned opcode is refused by name. -/
def Obligations.DecodesListedWords : Prop :=
  ∀ (w2 : Nat),
    let h (idle spost trk : Nat) : Hdr := ⟨BitVec.ofNat 10 idle, 0, fin 32 spost, fin 16 trk, false, false, false, false⟩
    let q0 := Opd.q 0
    decodeWord .s 0x1008000001008E8000E04400000000B0 w2 =
      .ok (.add (h 2 0 0) ⟨.always, .ll, .imm, q0, .n64, .rne, false, .ll, 8, 0, 176⟩) ∧
    decodeWord .s 0x10000004490280251000128001000080 w2 =
      .ok (.setg { h 0 0 0 with peekB := true } ⟨.always, .imm, .q 9, .g 4, .i8, .rne, false, .la0, 5, 0, 0x01000080⟩) ∧
    decodeWord .s 0x1000000042A000000000000000140013 w2 =
      .ok (.call (h 0 0 0) ⟨.on false 8, q0, q0, q0, .i8, .rne, false, .none, 0, 0, 80 * 2 ^ 14 + 19⟩) ∧
    decodeWord .s 0x100C00003386848C0160001000010080 w2 =
      .ok (.stg (h 3 0 0) ⟨.on false 1, .zero, .ll, q0, .f64, .rne, false, .none, 0, 2, 0x10080⟩) ∧
    decodeWord .v 0x2014000003011D191D1D400000000000 w2 =
      .ok (.vfma (h 5 0 0) ⟨.always, .g 7, .g 6, .g 7, .g 7, .f32, .rne, 0, false, .i8, false, 0, 0⟩) ∧
    decodeWord .f 0x3164000004011800011D400000000000 w2 =
      .ok (.frsqe (h 89 0 0) ⟨.always, .g 6, q0, q0, .g 7, .f32, .rne, 0, false, .i8, false, 0, 0⟩) ∧
    decodeWord .v 0x700000000801C01685C0000000000000 w2 =
      .ok (.daff (h 0 0 0) ⟨.always, .dv 0, .q 5, .zero, .dv 0, .i8, .rne, 0, false, .i8, false, 0, 0⟩) ∧
    decodeWord .m 0x40100000010145400180000000000000 w2 =
      .ok (.mmi (h 4 0 0) ⟨.always, .t 1, .t 0, q0, .acc 0, 0, .rne, 0⟩) ∧
    decodeWord .c 0x520C002013002C368000000000800000 w2 =
      .ok (.rowwr (h 131 0 2) ⟨.always, .q 11, .q 13, .imm, q0, 0, false, 0, 0, 0x800000⟩) ∧
    decodeWord .n 0x60380110080100000104100000000000 w2 =
      .ok (.ared (h 14 1 1) ⟨.always, .g 0, q0, q0, .g 1, 0, .quad, 0, 0⟩) ∧
    decodeWord .v 0x20140000FD0240000000000000004001 w2 = .ok (.rlbr .v (h 5 0 0) ⟨.always, 0, 1, 1, .none, 0⟩) ∧
    decodeWord .m 0x40000000FF0000000000000000000000 w2 = .ok (.halt .m (h 0 0 0) .always) ∧
    (∀ e, decodeWord e 0xF000000000000000000000000000BEEF w2 = .ok (.brk (h 0 0 0) 0xBEEF)) ∧
    decodeWord .s 0x00000000000000000000000000000000 w2 = .error ⟨1, 0⟩ ∧
    decodeWord .s 0x80000000000000000000000000000000 w2 = .error ⟨2, 8⟩ ∧
    decodeWord .s 0x20000000000000000000000000000000 w2 = .error ⟨3, 2⟩ ∧
    decodeWord .s 0x10000000FC0000000000000000000000 w2 = .error ⟨4, 0xFC⟩ ∧
    decodeStick 0x80800000 = some (.stickLd 1 0 0 0) ∧ decodeStick 0xA0080009 = some (.stickBz 1 9) ∧
    decodeStick 0x70890000 = some (.stickMinu 1 1 2) ∧ decodeStick 0x9818000C = some (.stickLwr 3 12) ∧
    decodeStick 0x29980001 = some (.stickAddi 3 3 1) ∧ decodeStick 0xC0000000 = some .stickCancel ∧
    decodeStick 0x08000001 = none ∧ decodeStick 0x00000000 = none

/-- R22, R23, R34, R87, R307, R323: a step at a strand whose engine's turn it is, whose queue owes no opportunity and whose word
decodes, is that instruction's meaning in that state; a word that decodes to none takes its `IL` trap; a prologue's word
likewise, or its fault of kind 0; an input, or an event of the agenda, is the meaning of the instruction that it is, where
an input is a host access that another of its function holds back, it waits behind that. Where the rules leave a point open it
follows the model, as log entries 4, 36, 142 say: what is known of open rows is forgotten at an event that may reach the stacks. -/
def Obligations.StepRunsDecodedWord : Prop :=
  ∀ (s : State) (x at_ : Nat) (e : Eng) (i : Instr) (d : DecErr) (p : Prologue) (w : Nat) (ev : Ev) (rest : List Ev),
    let due (u : State) : Prop :=
      u.t.mode = .run ∧ u.t.stall = none ∧ u.t.back = false ∧ u.t.micro = e.num + 1 ∧ u.placeOffset e ≤ u.t.offset ∧
        u.readsBefore u.cur (e.num + 1) = none ∧ (u.t.ctl e).halted = false ∧ u.stillOwed (u.t.ctl e) = 0
    let seen (u : State) : State := if keepsRows ev then u else { u with dev := { u.dev with rows := [], rowsKnown := false } }
    let named : State := { s with focus := none, cur := x }
    let turned : State := { s with now := Nat.max s.now at_, cur := x }
    let alone : Prop := s.focus = none ∧ s.inputs = [] ∧ s.agenda = [] ∧ s.dev.bells = [] ∧ s.nextBank = none ∧ s.nextRun = none ∧
      s.nextStrand = some (x, at_)
    let trapped (u : State) : State := u.unstall.takeTrap (trapIL d.n d.detail) e.num (e.num + 1)
    let stick : State := { s with focus := none }
    let running : Prop := s.focus = some 4096 ∧ s.run = some p ∧ p.steps < 4096 ∧ p.words[p.pc]? = some w
    (s.focus = some x → x < 4096 → due named → named.decodeNext e = .ok i → step s = exec i named) ∧
    (s.focus = some x → x < 4096 → due named → named.decodeNext e = .error d → step s = .next (trapped named)) ∧
    (alone → due turned → turned.decodeNext e = .ok i → step s = exec i turned) ∧
    (alone → due turned → turned.decodeNext e = .error d → step s = .next (trapped turned)) ∧
    (running → decodeStick w = some i → step s = exec i stick) ∧
    (running → decodeStick w = none → step s = .next (stick.runFault p 0)) ∧
    (s.focus = none → s.inputs = ev :: rest → s.hostQueued ev = false → eventIs i ev →
      step s = exec i (seen { s with inputs := rest })) ∧
    (s.focus = none → s.inputs = ev :: rest → s.hostQueued ev = true →
      step s = .next { s with inputs := rest, dev := { s.dev with hostWait := s.dev.hostWait ++ [ev] } }) ∧
    (s.focus = none → s.inputs = [] → s.agenda = [(at_, ev)] → s.dev.bells = [] → s.nextBank = none → s.workTurn = none →
      eventIs i ev → step s = exec i (seen { s with now := Nat.max s.now at_, agenda := [] }))
end

