-- ==== Sys2Proof/Laws/State.lean ====
section
/-! SUPPORT. What each update of the state leaves: one lemma a field (R17), so that no proof unfolds a record update. -/

namespace Sys2Proof.Machine

/-! Maps by number. -/

theorem mget_mset_self {α : Type} (k : Nat) (v : α) (m : List (Nat × α)) : mget k (mset k v m) = some v := by
  induction m with
  | nil => simp [mset, mget]
  | cons e r ih =>
    obtain ⟨j, w⟩ := e
    unfold mset
    split
    · simp [mget]
    · split
      · simp [mget]
      · rename_i h1 h2
        simp [mget, ih, Ne.symm h2]

theorem mget_mset_ne {α : Type} {j k : Nat} (h : j ≠ k) (v : α) (m : List (Nat × α)) :
    mget j (mset k v m) = mget j m := by
  induction m with
  | nil => simp [mset, mget, Ne.symm h]
  | cons e r ih =>
    obtain ⟨i, w⟩ := e
    unfold mset
    split
    · simp [mget, Ne.symm h]
    · split
      · rename_i h1 h2
        subst h2
        simp [mget, Ne.symm h]
      · simp [mget, ih]

theorem mset_mset {α : Type} (k : Nat) (v w : α) (m : List (Nat × α)) : mset k w (mset k v m) = mset k w m := by
  induction m with
  | nil => simp [mset]
  | cons e r ih =>
    obtain ⟨j, u⟩ := e
    by_cases h1 : k < j
    · simp [mset, h1]
    · by_cases h2 : k = j
      · subst h2; simp [mset]
      · simp [mset, h1, h2, ih]

/-! Strands. -/

@[simp] theorem State.strandAt_setStrand_self (s : State) (x : Nat) (t : Strand) : (s.setStrand x t).strandAt x = t := by
  simp [State.strandAt, State.setStrand, mget_mset_self]

theorem State.strandAt_setStrand_ne (s : State) {x y : Nat} (h : y ≠ x) (t : Strand) :
    (s.setStrand x t).strandAt y = s.strandAt y := by
  simp [State.strandAt, State.setStrand, mget_mset_ne h]

theorem State.setStrand_setStrand (s : State) (x : Nat) (t u : Strand) :
    (s.setStrand x t).setStrand x u = s.setStrand x u := by
  simp [State.setStrand, mset_mset]

@[simp] theorem State.t_setStrand (s : State) (t : Strand) : (s.setStrand s.cur t).t = t := by
  simp [State.t, show (s.setStrand s.cur t).cur = s.cur from rfl]

@[simp] theorem State.t_upd (s : State) (f : Strand → Strand) : (s.upd f).t = f s.t := by
  simp [State.upd]

theorem State.upd_setStrand (s : State) (t : Strand) (f : Strand → Strand) :
    (s.setStrand s.cur t).upd f = s.setStrand s.cur (f t) := by
  simp only [State.upd, State.t_setStrand, show (s.setStrand s.cur t).cur = s.cur from rfl, State.setStrand_setStrand]

theorem State.strandAt_upd_ne (s : State) {y : Nat} (h : y ≠ s.cur) (f : Strand → Strand) :
    (s.upd f).strandAt y = s.strandAt y := State.strandAt_setStrand_ne s h _

@[simp] theorem State.setStrand_now (s : State) (x : Nat) (t : Strand) : (s.setStrand x t).now = s.now := rfl
@[simp] theorem State.upd_now (s : State) (f : Strand → Strand) : (s.upd f).now = s.now := rfl
@[simp] theorem State.setStrand_fresh (s : State) (x : Nat) (t : Strand) : (s.setStrand x t).fresh = s.fresh := rfl
@[simp] theorem State.upd_fresh (s : State) (f : Strand → Strand) : (s.upd f).fresh = s.fresh := rfl
@[simp] theorem State.setStrand_latencies (s : State) (x : Nat) (t : Strand) : (s.setStrand x t).latencies = s.latencies := rfl
@[simp] theorem State.upd_latencies (s : State) (f : Strand → Strand) : (s.upd f).latencies = s.latencies := rfl
@[simp] theorem State.setStrand_inputs (s : State) (x : Nat) (t : Strand) : (s.setStrand x t).inputs = s.inputs := rfl
@[simp] theorem State.upd_inputs (s : State) (f : Strand → Strand) : (s.upd f).inputs = s.inputs := rfl
@[simp] theorem State.setStrand_agenda (s : State) (x : Nat) (t : Strand) : (s.setStrand x t).agenda = s.agenda := rfl
@[simp] theorem State.upd_agenda (s : State) (f : Strand → Strand) : (s.upd f).agenda = s.agenda := rfl
@[simp] theorem State.setStrand_cur (s : State) (x : Nat) (t : Strand) : (s.setStrand x t).cur = s.cur := rfl
@[simp] theorem State.upd_cur (s : State) (f : Strand → Strand) : (s.upd f).cur = s.cur := rfl
@[simp] theorem State.setStrand_focus (s : State) (x : Nat) (t : Strand) : (s.setStrand x t).focus = s.focus := rfl
@[simp] theorem State.upd_focus (s : State) (f : Strand → Strand) : (s.upd f).focus = s.focus := rfl
@[simp] theorem State.setStrand_onchip (s : State) (x : Nat) (t : Strand) : (s.setStrand x t).onchip = s.onchip := rfl
@[simp] theorem State.upd_onchip (s : State) (f : Strand → Strand) : (s.upd f).onchip = s.onchip := rfl
@[simp] theorem State.setStrand_dram (s : State) (x : Nat) (t : Strand) : (s.setStrand x t).dram = s.dram := rfl
@[simp] theorem State.upd_dram (s : State) (f : Strand → Strand) : (s.upd f).dram = s.dram := rfl
@[simp] theorem State.setStrand_host (s : State) (x : Nat) (t : Strand) : (s.setStrand x t).host = s.host := rfl
@[simp] theorem State.upd_host (s : State) (f : Strand → Strand) : (s.upd f).host = s.host := rfl
@[simp] theorem State.setStrand_peer (s : State) (x : Nat) (t : Strand) : (s.setStrand x t).peer = s.peer := rfl
@[simp] theorem State.upd_peer (s : State) (f : Strand → Strand) : (s.upd f).peer = s.peer := rfl
@[simp] theorem State.setStrand_poisonChip (s : State) (x : Nat) (t : Strand) : (s.setStrand x t).poisonChip = s.poisonChip := rfl
@[simp] theorem State.upd_poisonChip (s : State) (f : Strand → Strand) : (s.upd f).poisonChip = s.poisonChip := rfl
@[simp] theorem State.setStrand_poisonDram (s : State) (x : Nat) (t : Strand) : (s.setStrand x t).poisonDram = s.poisonDram := rfl
@[simp] theorem State.upd_poisonDram (s : State) (f : Strand → Strand) : (s.upd f).poisonDram = s.poisonDram := rfl
@[simp] theorem State.setStrand_poisonHost (s : State) (x : Nat) (t : Strand) : (s.setStrand x t).poisonHost = s.poisonHost := rfl
@[simp] theorem State.upd_poisonHost (s : State) (f : Strand → Strand) : (s.upd f).poisonHost = s.poisonHost := rfl
@[simp] theorem State.setStrand_cores (s : State) (x : Nat) (t : Strand) : (s.setStrand x t).cores = s.cores := rfl
@[simp] theorem State.upd_cores (s : State) (f : Strand → Strand) : (s.upd f).cores = s.cores := rfl
@[simp] theorem State.setStrand_dev (s : State) (x : Nat) (t : Strand) : (s.setStrand x t).dev = s.dev := rfl
@[simp] theorem State.upd_dev (s : State) (f : Strand → Strand) : (s.upd f).dev = s.dev := rfl

/-! Cores, counters and the agenda. -/

@[simp] theorem State.setCore_now (s : State) (c : Nat) (k : CoreState) : (s.setCore c k).now = s.now := rfl
@[simp] theorem State.updCore_now (s : State) (c : Nat) (f : CoreState → CoreState) : (s.updCore c f).now = s.now := rfl
@[simp] theorem State.setSem_now (s : State) (c n v : Nat) : (s.setSem c n v).now = s.now := rfl
@[simp] theorem State.tick_now (s : State) : s.tick.now = s.now := rfl
@[simp] theorem State.schedule_now (s : State) (at_ : Nat) (i : Ev) : (s.schedule at_ i).now = s.now := rfl
@[simp] theorem State.setCore_fresh (s : State) (c : Nat) (k : CoreState) : (s.setCore c k).fresh = s.fresh := rfl
@[simp] theorem State.updCore_fresh (s : State) (c : Nat) (f : CoreState → CoreState) : (s.updCore c f).fresh = s.fresh := rfl
@[simp] theorem State.setSem_fresh (s : State) (c n v : Nat) : (s.setSem c n v).fresh = s.fresh := rfl
@[simp] theorem State.schedule_fresh (s : State) (at_ : Nat) (i : Ev) : (s.schedule at_ i).fresh = s.fresh := rfl
@[simp] theorem State.setCore_latencies (s : State) (c : Nat) (k : CoreState) : (s.setCore c k).latencies = s.latencies := rfl
@[simp] theorem State.updCore_latencies (s : State) (c : Nat) (f : CoreState → CoreState) : (s.updCore c f).latencies = s.latencies := rfl
@[simp] theorem State.setSem_latencies (s : State) (c n v : Nat) : (s.setSem c n v).latencies = s.latencies := rfl
@[simp] theorem State.tick_latencies (s : State) : s.tick.latencies = s.latencies := rfl
@[simp] theorem State.schedule_latencies (s : State) (at_ : Nat) (i : Ev) : (s.schedule at_ i).latencies = s.latencies := rfl
@[simp] theorem State.setCore_inputs (s : State) (c : Nat) (k : CoreState) : (s.setCore c k).inputs = s.inputs := rfl
@[simp] theorem State.updCore_inputs (s : State) (c : Nat) (f : CoreState → CoreState) : (s.updCore c f).inputs = s.inputs := rfl
@[simp] theorem State.setSem_inputs (s : State) (c n v : Nat) : (s.setSem c n v).inputs = s.inputs := rfl
@[simp] theorem State.tick_inputs (s : State) : s.tick.inputs = s.inputs := rfl
@[simp] theorem State.schedule_inputs (s : State) (at_ : Nat) (i : Ev) : (s.schedule at_ i).inputs = s.inputs := rfl
@[simp] theorem State.setCore_agenda (s : State) (c : Nat) (k : CoreState) : (s.setCore c k).agenda = s.agenda := rfl
@[simp] theorem State.updCore_agenda (s : State) (c : Nat) (f : CoreState → CoreState) : (s.updCore c f).agenda = s.agenda := rfl
@[simp] theorem State.setSem_agenda (s : State) (c n v : Nat) : (s.setSem c n v).agenda = s.agenda := rfl
@[simp] theorem State.tick_agenda (s : State) : s.tick.agenda = s.agenda := rfl
@[simp] theorem State.setCore_cur (s : State) (c : Nat) (k : CoreState) : (s.setCore c k).cur = s.cur := rfl
@[simp] theorem State.updCore_cur (s : State) (c : Nat) (f : CoreState → CoreState) : (s.updCore c f).cur = s.cur := rfl
@[simp] theorem State.setSem_cur (s : State) (c n v : Nat) : (s.setSem c n v).cur = s.cur := rfl
@[simp] theorem State.tick_cur (s : State) : s.tick.cur = s.cur := rfl
@[simp] theorem State.schedule_cur (s : State) (at_ : Nat) (i : Ev) : (s.schedule at_ i).cur = s.cur := rfl
@[simp] theorem State.setCore_focus (s : State) (c : Nat) (k : CoreState) : (s.setCore c k).focus = s.focus := rfl
@[simp] theorem State.updCore_focus (s : State) (c : Nat) (f : CoreState → CoreState) : (s.updCore c f).focus = s.focus := rfl
@[simp] theorem State.setSem_focus (s : State) (c n v : Nat) : (s.setSem c n v).focus = s.focus := rfl
@[simp] theorem State.tick_focus (s : State) : s.tick.focus = s.focus := rfl
@[simp] theorem State.schedule_focus (s : State) (at_ : Nat) (i : Ev) : (s.schedule at_ i).focus = s.focus := rfl
@[simp] theorem State.setCore_onchip (s : State) (c : Nat) (k : CoreState) : (s.setCore c k).onchip = s.onchip := rfl
@[simp] theorem State.updCore_onchip (s : State) (c : Nat) (f : CoreState → CoreState) : (s.updCore c f).onchip = s.onchip := rfl
@[simp] theorem State.setSem_onchip (s : State) (c n v : Nat) : (s.setSem c n v).onchip = s.onchip := rfl
@[simp] theorem State.tick_onchip (s : State) : s.tick.onchip = s.onchip := rfl
@[simp] theorem State.schedule_onchip (s : State) (at_ : Nat) (i : Ev) : (s.schedule at_ i).onchip = s.onchip := rfl
@[simp] theorem State.setCore_dram (s : State) (c : Nat) (k : CoreState) : (s.setCore c k).dram = s.dram := rfl
@[simp] theorem State.updCore_dram (s : State) (c : Nat) (f : CoreState → CoreState) : (s.updCore c f).dram = s.dram := rfl
@[simp] theorem State.setSem_dram (s : State) (c n v : Nat) : (s.setSem c n v).dram = s.dram := rfl
@[simp] theorem State.tick_dram (s : State) : s.tick.dram = s.dram := rfl
@[simp] theorem State.schedule_dram (s : State) (at_ : Nat) (i : Ev) : (s.schedule at_ i).dram = s.dram := rfl
@[simp] theorem State.setCore_host (s : State) (c : Nat) (k : CoreState) : (s.setCore c k).host = s.host := rfl
@[simp] theorem State.updCore_host (s : State) (c : Nat) (f : CoreState → CoreState) : (s.updCore c f).host = s.host := rfl
@[simp] theorem State.setSem_host (s : State) (c n v : Nat) : (s.setSem c n v).host = s.host := rfl
@[simp] theorem State.tick_host (s : State) : s.tick.host = s.host := rfl
@[simp] theorem State.schedule_host (s : State) (at_ : Nat) (i : Ev) : (s.schedule at_ i).host = s.host := rfl
@[simp] theorem State.setCore_peer (s : State) (c : Nat) (k : CoreState) : (s.setCore c k).peer = s.peer := rfl
@[simp] theorem State.updCore_peer (s : State) (c : Nat) (f : CoreState → CoreState) : (s.updCore c f).peer = s.peer := rfl
@[simp] theorem State.setSem_peer (s : State) (c n v : Nat) : (s.setSem c n v).peer = s.peer := rfl
@[simp] theorem State.tick_peer (s : State) : s.tick.peer = s.peer := rfl
@[simp] theorem State.schedule_peer (s : State) (at_ : Nat) (i : Ev) : (s.schedule at_ i).peer = s.peer := rfl
@[simp] theorem State.setCore_poisonChip (s : State) (c : Nat) (k : CoreState) : (s.setCore c k).poisonChip = s.poisonChip := rfl
@[simp] theorem State.updCore_poisonChip (s : State) (c : Nat) (f : CoreState → CoreState) : (s.updCore c f).poisonChip = s.poisonChip := rfl
@[simp] theorem State.setSem_poisonChip (s : State) (c n v : Nat) : (s.setSem c n v).poisonChip = s.poisonChip := rfl
@[simp] theorem State.tick_poisonChip (s : State) : s.tick.poisonChip = s.poisonChip := rfl
@[simp] theorem State.schedule_poisonChip (s : State) (at_ : Nat) (i : Ev) : (s.schedule at_ i).poisonChip = s.poisonChip := rfl
@[simp] theorem State.setCore_poisonDram (s : State) (c : Nat) (k : CoreState) : (s.setCore c k).poisonDram = s.poisonDram := rfl
@[simp] theorem State.updCore_poisonDram (s : State) (c : Nat) (f : CoreState → CoreState) : (s.updCore c f).poisonDram = s.poisonDram := rfl
@[simp] theorem State.setSem_poisonDram (s : State) (c n v : Nat) : (s.setSem c n v).poisonDram = s.poisonDram := rfl
@[simp] theorem State.tick_poisonDram (s : State) : s.tick.poisonDram = s.poisonDram := rfl
@[simp] theorem State.schedule_poisonDram (s : State) (at_ : Nat) (i : Ev) : (s.schedule at_ i).poisonDram = s.poisonDram := rfl
@[simp] theorem State.setCore_poisonHost (s : State) (c : Nat) (k : CoreState) : (s.setCore c k).poisonHost = s.poisonHost := rfl
@[simp] theorem State.updCore_poisonHost (s : State) (c : Nat) (f : CoreState → CoreState) : (s.updCore c f).poisonHost = s.poisonHost := rfl
@[simp] theorem State.setSem_poisonHost (s : State) (c n v : Nat) : (s.setSem c n v).poisonHost = s.poisonHost := rfl
@[simp] theorem State.tick_poisonHost (s : State) : s.tick.poisonHost = s.poisonHost := rfl
@[simp] theorem State.schedule_poisonHost (s : State) (at_ : Nat) (i : Ev) : (s.schedule at_ i).poisonHost = s.poisonHost := rfl
@[simp] theorem State.tick_cores (s : State) : s.tick.cores = s.cores := rfl
@[simp] theorem State.schedule_cores (s : State) (at_ : Nat) (i : Ev) : (s.schedule at_ i).cores = s.cores := rfl
@[simp] theorem State.setCore_strands (s : State) (c : Nat) (k : CoreState) : (s.setCore c k).strands = s.strands := rfl
@[simp] theorem State.updCore_strands (s : State) (c : Nat) (f : CoreState → CoreState) : (s.updCore c f).strands = s.strands := rfl
@[simp] theorem State.setSem_strands (s : State) (c n v : Nat) : (s.setSem c n v).strands = s.strands := rfl
@[simp] theorem State.tick_strands (s : State) : s.tick.strands = s.strands := rfl
@[simp] theorem State.schedule_strands (s : State) (at_ : Nat) (i : Ev) : (s.schedule at_ i).strands = s.strands := rfl
@[simp] theorem State.setCore_dev (s : State) (c : Nat) (k : CoreState) : (s.setCore c k).dev = s.dev := rfl
@[simp] theorem State.updCore_dev (s : State) (c : Nat) (f : CoreState → CoreState) : (s.updCore c f).dev = s.dev := rfl
@[simp] theorem State.setSem_dev (s : State) (c n v : Nat) : (s.setSem c n v).dev = s.dev := rfl
@[simp] theorem State.tick_dev (s : State) : s.tick.dev = s.dev := rfl
@[simp] theorem State.schedule_dev (s : State) (at_ : Nat) (i : Ev) : (s.schedule at_ i).dev = s.dev := rfl

@[simp] theorem State.setCore_t (s : State) (c : Nat) (k : CoreState) : (s.setCore c k).t = s.t := rfl
@[simp] theorem State.updCore_t (s : State) (c : Nat) (f : CoreState → CoreState) : (s.updCore c f).t = s.t := rfl
@[simp] theorem State.setSem_t (s : State) (c n v : Nat) : (s.setSem c n v).t = s.t := rfl
@[simp] theorem State.tick_t (s : State) : s.tick.t = s.t := rfl
@[simp] theorem State.schedule_t (s : State) (at_ : Nat) (i : Ev) : (s.schedule at_ i).t = s.t := rfl
@[simp] theorem State.setCore_strandAt (s : State) (c : Nat) (k : CoreState) (y : Nat) : (s.setCore c k).strandAt y = s.strandAt y := rfl
@[simp] theorem State.updCore_strandAt (s : State) (c : Nat) (f : CoreState → CoreState) (y : Nat) :
    (s.updCore c f).strandAt y = s.strandAt y := rfl
@[simp] theorem State.setSem_strandAt (s : State) (c n v y : Nat) : (s.setSem c n v).strandAt y = s.strandAt y := rfl
@[simp] theorem State.tick_strandAt (s : State) (y : Nat) : s.tick.strandAt y = s.strandAt y := rfl
@[simp] theorem State.schedule_strandAt (s : State) (at_ : Nat) (i : Ev) (y : Nat) :
    (s.schedule at_ i).strandAt y = s.strandAt y := rfl

@[simp] theorem State.coreAt_setCore_self (s : State) (c : Nat) (k : CoreState) : (s.setCore c k).coreAt c = k := by
  simp [State.coreAt, State.setCore, mget_mset_self]

theorem State.coreAt_setCore_ne (s : State) {c d : Nat} (h : d ≠ c) (k : CoreState) : (s.setCore c k).coreAt d = s.coreAt d := by
  simp [State.coreAt, State.setCore, mget_mset_ne h]

@[simp] theorem State.coreAt_updCore_self (s : State) (c : Nat) (f : CoreState → CoreState) :
    (s.updCore c f).coreAt c = f (s.coreAt c) := State.coreAt_setCore_self s c _

theorem State.coreAt_updCore_ne (s : State) {c d : Nat} (h : d ≠ c) (f : CoreState → CoreState) :
    (s.updCore c f).coreAt d = s.coreAt d := State.coreAt_setCore_ne s h _

@[simp] theorem State.coreAt_setStrand (s : State) (x : Nat) (t : Strand) (c : Nat) : (s.setStrand x t).coreAt c = s.coreAt c := rfl
@[simp] theorem State.coreAt_upd (s : State) (f : Strand → Strand) (c : Nat) : (s.upd f).coreAt c = s.coreAt c := rfl

@[simp] theorem State.sem_setSem_self (s : State) (c n v : Nat) : (s.setSem c n v).sem c n = v := by
  simp [State.sem, State.setSem, mget_mset_self]

theorem State.sem_setSem_ne (s : State) (c v : Nat) {n m : Nat} (h : m ≠ n) : (s.setSem c n v).sem c m = s.sem c m := by
  simp [State.sem, State.setSem, mget_mset_ne h]

@[simp] theorem State.sem_upd (s : State) (f : Strand → Strand) (c n : Nat) : (s.upd f).sem c n = s.sem c n := rfl
@[simp] theorem State.core_upd (s : State) (f : Strand → Strand) : (s.upd f).core = s.core := rfl
@[simp] theorem State.core_setStrand (s : State) (x : Nat) (t : Strand) : (s.setStrand x t).core = s.core := rfl

end Sys2Proof.Machine
end

