-- ==== Sys2Proof/Laws/Issue.lean ====
section
/-! SUPPORT. The issue of a word: what it leaves when the word is carried out, when its guard is false, when it stalls and
when it traps (R24, R29, R33, R87, R90). -/

namespace Sys2Proof.Machine

/-! The state in which a word acts. -/

@[simp] theorem State.begun_now (s : State) (e : Eng) (words n : Nat) : (s.begun e words n).now = s.now := by
  unfold State.begun; simp only; split <;> rfl
@[simp] theorem State.begun_latencies (s : State) (e : Eng) (words n : Nat) : (s.begun e words n).latencies = s.latencies := by
  unfold State.begun; simp only; split <;> rfl
@[simp] theorem State.begun_inputs (s : State) (e : Eng) (words n : Nat) : (s.begun e words n).inputs = s.inputs := by
  unfold State.begun; simp only; split <;> rfl
@[simp] theorem State.begun_agenda (s : State) (e : Eng) (words n : Nat) : (s.begun e words n).agenda = s.agenda := by
  unfold State.begun; simp only; split <;> rfl
@[simp] theorem State.begun_cur (s : State) (e : Eng) (words n : Nat) : (s.begun e words n).cur = s.cur := by
  unfold State.begun; simp only; split <;> rfl
@[simp] theorem State.begun_focus (s : State) (e : Eng) (words n : Nat) : (s.begun e words n).focus = s.focus := by
  unfold State.begun; simp only; split <;> rfl
@[simp] theorem State.begun_onchip (s : State) (e : Eng) (words n : Nat) : (s.begun e words n).onchip = s.onchip := by
  unfold State.begun; simp only; split <;> rfl
@[simp] theorem State.begun_dram (s : State) (e : Eng) (words n : Nat) : (s.begun e words n).dram = s.dram := by
  unfold State.begun; simp only; split <;> rfl
@[simp] theorem State.begun_host (s : State) (e : Eng) (words n : Nat) : (s.begun e words n).host = s.host := by
  unfold State.begun; simp only; split <;> rfl
@[simp] theorem State.begun_peer (s : State) (e : Eng) (words n : Nat) : (s.begun e words n).peer = s.peer := by
  unfold State.begun; simp only; split <;> rfl
@[simp] theorem State.begun_poisonChip (s : State) (e : Eng) (words n : Nat) : (s.begun e words n).poisonChip = s.poisonChip := by
  unfold State.begun; simp only; split <;> rfl
@[simp] theorem State.begun_poisonDram (s : State) (e : Eng) (words n : Nat) : (s.begun e words n).poisonDram = s.poisonDram := by
  unfold State.begun; simp only; split <;> rfl
@[simp] theorem State.begun_poisonHost (s : State) (e : Eng) (words n : Nat) : (s.begun e words n).poisonHost = s.poisonHost := by
  unfold State.begun; simp only; split <;> rfl
@[simp] theorem State.begun_dev (s : State) (e : Eng) (words n : Nat) : (s.begun e words n).dev = s.dev := by
  unfold State.begun; simp only; split <;> rfl
@[simp] theorem State.begun_core (s : State) (e : Eng) (words n : Nat) : (s.begun e words n).core = s.core := by
  unfold State.begun; simp only; split <;> rfl

/-- The strand of a word that acts: its queue at the next word, its number taken (R23). -/
theorem State.begun_t (s : State) (e : Eng) (words n : Nat) :
    (s.begun e words n).t =
      { s.t.setCtl e ((s.t.ctl e).moveTo s ((s.t.ctl e).idx + words)) with
        seq := s.t.seq + 1, micro := if s.t.frozen then 7 else e.num + 2 } := by
  have hb : (s.begin e words).t =
      { s.t.setCtl e ((s.t.ctl e).moveTo s ((s.t.ctl e).idx + words)) with
        seq := s.t.seq + 1, micro := if s.t.frozen then 7 else e.num + 2 } := by
    unfold State.begin State.moveQueue
    rw [State.t_upd, State.tick_t, State.t_upd]
    unfold Strand.setCtl
    split <;> simp_all [Strand.frozen]
  unfold State.begun
  simp only
  split
  · exact hb
  · rw [State.setSem_t]; exact hb

theorem State.begun_strandAt_ne (s : State) (e : Eng) (words n : Nat) {y : Nat} (h : y ≠ s.cur) :
    (s.begun e words n).strandAt y = s.strandAt y := by
  have hb : (s.begin e words).strandAt y = s.strandAt y := by
    unfold State.begin State.moveQueue
    rw [State.strandAt_upd_ne _ (by simpa using h), State.tick_strandAt, State.strandAt_upd_ne _ h]
  unfold State.begun
  simp only
  split
  · exact hb
  · rw [State.setSem_strandAt]; exact hb

/-- The queue alone of all that the strand holds has moved on. -/
theorem State.begun_t_ctx (s : State) (e : Eng) (words n : Nat) : (s.begun e words n).t.ctx = s.t.ctx := by
  rw [State.begun_t]; unfold Strand.setCtl; split <;> rfl

theorem State.begun_t_mode (s : State) (e : Eng) (words n : Nat) : (s.begun e words n).t.mode = s.t.mode := by
  rw [State.begun_t]; unfold Strand.setCtl; split <;> rfl

theorem State.begun_t_seq (s : State) (e : Eng) (words n : Nat) : (s.begun e words n).t.seq = s.t.seq + 1 := by
  rw [State.begun_t]

/-! A word that is carried out. -/

theorem State.await_ready {s : State} {e : Eng} {words n : Nat} (h : n = 0 ∨ s.sem s.core n ≠ 0) :
    (s.begin e words).await n = .ok (s.begun e words n) := by
  have hs : (s.begin e words).sem (s.begin e words).core n = s.sem s.core n := rfl
  unfold State.await State.begun
  rcases h with h | h
  · simp [h]
  · by_cases hn : n = 0
    · simp [hn]
    · simp [hn, hs, h]

theorem State.hints_quiet {d : Done} {v : View} (h : d.s.t.dbg = false ∨ d.hints v = 0) :
    d.s.hints v.peekHints (if d.trk then 0 else v.hdr.trk.val) = .ok (d.s.counted (d.hints v)) := by
  have e : v.peekHints.length + (if (if d.trk then 0 else v.hdr.trk.val) = 0 then 0 else 1) = d.hints v := by
    unfold Done.hints
    cases d.trk <;> simp
  unfold State.hints State.counted
  rw [e]
  by_cases hn : d.hints v = 0
  · simp [hn]
  · rcases h with h | h
    · simp [h, hn]
    · exact absurd h hn

theorem State.counted_t (s : State) (n : Nat) :
    (s.counted n).t = { s.t with hmis := if n = 0 then s.t.hmis else s.t.hmis + BitVec.ofNat 64 n } := by
  unfold State.counted
  split <;> simp_all

theorem State.counted_cur (s : State) (n : Nat) : (s.counted n).cur = s.cur := by
  unfold State.counted
  split <;> rfl

theorem State.counted_cores (s : State) (n : Nat) : (s.counted n).cores = s.cores := by
  unfold State.counted
  split <;> rfl

/-- The queues' moves leave what fences and timed accesses go by. -/
theorem State.begun_t_timed (s : State) (e : Eng) (words n : Nat) : (s.begun e words n).t.timed = s.t.timed := by
  rw [State.begun_t]; unfold Strand.setCtl; split <;> rfl

theorem State.begun_t_fencedOff (s : State) (e : Eng) (words n : Nat) : (s.begun e words n).t.fencedOff = s.t.fencedOff := by
  rw [State.begun_t]; unfold Strand.setCtl; split <;> rfl

theorem State.begun_t_pend (s : State) (e : Eng) (words n : Nat) : (s.begun e words n).t.pend = s.t.pend := by
  rw [State.begun_t]; unfold Strand.setCtl; split <;> rfl

theorem State.settle_quiet {s : State} {b : Bool} {c n : Nat}
    (h : n = 0 ∨ (b = false ∧ s.t.awaitsOwn = true) ∨ s.t.dbg = false ∨ c ≠ 255) :
    s.settle b c n = .ok (s.settled b n) := by
  unfold State.settle State.settled
  by_cases hn : n = 0
  · simp [hn]
  · simp only [hn, if_false]
    by_cases ha : (!b && s.t.awaitsOwn) = true
    · simp only [ha, if_true]
    · simp only [ha]
      unfold State.postNow
      rcases h with h | h | h | h
      · exact absurd h hn
      · simp [h.1, h.2] at ha
      · simp [h]
      · simp [h]

/-- A word that is ready, whose operation answers quietly, leaves what `Done.after` says. -/
theorem State.issueOn_ready {s : State} {v : View} {e : Eng} {words : Nat} {op : Operation} {d : Done} (hr : Ready s v)
    (ho : op (s.begun e words v.hdr.swait.val) = .ok d) (hq : d.Quiet s v) : s.issueOn v e words op = d.after v := by
  unfold State.issueOn
  rw [hr.holds]
  show s.conclude e (s.perform v e words op) = d.after v
  have hf : (v.isTimed && (s.begun e words v.hdr.swait.val).t.fencedOff &&
      (d.s.t.timed != (s.begun e words v.hdr.swait.val).t.timed ||
        (v.readsNow && d.s.t.pend != (s.begun e words v.hdr.swait.val).t.pend))) = false := by
    rw [State.begun_t_fencedOff, State.begun_t_timed, State.begun_t_pend]
    rcases hq.fence with h | h | ⟨t, h | h⟩ <;> simp [*]
  have hp : s.perform v e words op =
      .ok (if d.own then d.s.counted (d.hints v) else (d.s.counted (d.hints v)).settled d.atIssue v.hdr.spost.val) := by
    unfold State.perform
    simp only [State.await_ready hr.token, hr.guard, ho, hf, State.hints_quiet hq.hints]
    cases hown : d.own with
    | true => simp
    | false =>
      simp only [Bool.not_true, Bool.false_eq_true, if_false]
      apply State.settle_quiet
      have ht := State.counted_t d.s (d.hints v)
      rcases hq.post with h | h | h | h | h
      · simp [hown] at h
      · exact .inl h
      · right; left
        exact ⟨h.1, by simpa [Strand.awaitsOwn, Strand.frozen, ht] using h.2⟩
      · right; right; left
        simpa [Strand.dbg, ht] using h
      · exact .inr (.inr (.inr h))
  rw [hp]
  rfl

theorem State.issue_ready {s : State} {v : View} {op : Operation} {d : Done} (hr : Ready s v)
    (ho : op (s.acting v) = .ok d) (hq : d.Quiet s v) : s.issue v op = d.after v :=
  State.issueOn_ready hr ho hq

/-- Outside debug mode, and for a trap that no later condition of debug mode stands above, a word's trap is its operation's (R34,
R40). -/
theorem State.laterStop_eq {s : State} {v : View} {tr : Trap}
    (h : s.t.dbg = false ∨ (tr.suspends = false ∧ ¬ (tr.cls = ascii2 'S' 'C' ∧ tr.num = 4))) :
    s.laterStop v (.trap tr) = .trap tr := by
  unfold State.laterStop
  rcases h with h | ⟨h, h4⟩
  · simp [h]
  · simp [h, h4]

/-- A word that traps: nothing of it has happened but what its trap's description states (R9, R34). -/
theorem State.issueOn_trap {s : State} {v : View} {e : Eng} {words : Nat} {op : Operation} {tr tr' : Trap} (hr : Ready s v)
    (ho : op (s.begun e words v.hdr.swait.val) = .error (.trap tr)) (hl : s.laterStop v (.trap tr) = .trap tr') :
    s.issueOn v e words op = s.unstall.wordTrap e tr' := by
  unfold State.issueOn
  rw [hr.holds]
  show s.conclude e (s.perform v e words op) = _
  have hp : s.perform v e words op = .error (.trap tr') := by
    unfold State.perform
    simp only [State.await_ready hr.token, hr.guard, ho, hl]
    rfl
  rw [hp]
  rfl

/-- A word that stalls: its strand cycle's opportunity passes (R29). -/
theorem State.issueOn_stall {s : State} {v : View} {e : Eng} {words : Nat} {op : Operation} {c : Cause} (hr : Ready s v)
    (ho : op (s.begun e words v.hdr.swait.val) = .error (.stall c)) : s.issueOn v e words op = s.stallAt c := by
  unfold State.issueOn
  rw [hr.holds]
  show s.conclude e (s.perform v e words op) = _
  have hp : s.perform v e words op = .error (.stall c) := by
    unfold State.perform
    simp only [State.await_ready hr.token, hr.guard, ho]
    rfl
  rw [hp]
  rfl

end Sys2Proof.Machine
end

