-- ==== Sys2Proof/Laws/After.lean ====
section
/-! SUPPORT. What the end of a word leaves untouched (R9, R24, R29, R30, R33): hints, SPOST and the end of a stall change
`hmis`, a pending landing or a semaphore, the stall, a record fetched for it and the holds, and nothing else. -/

namespace Sys2Proof.Machine

/-- All of a strand but its stall, the record that the word fetched, and the holds that it has announced or received. -/
def Strand.sansHolds (t : Strand) : Strand := { t with stall := none, recFetch := none, announced := false, holds := [] }

/-- All of the package but its strands and its agenda. -/
def State.sansStrands (s : State) : State := { s with strands := [], agenda := [] }

theorem State.releaseHold_spec (s : State) (h : Nat) :
    (∀ y, ((s.releaseHold h).strandAt y).sansHolds = (s.strandAt y).sansHolds ∧
      ((s.releaseHold h).strandAt y).stall = (s.strandAt y).stall) ∧
      (s.releaseHold h).sansStrands = s.sansStrands := by
  suffices hr : ∀ r, r = s.releaseHold h → (∀ y, (r.strandAt y).sansHolds = (s.strandAt y).sansHolds ∧
      (r.strandAt y).stall = (s.strandAt y).stall) ∧ r.sansStrands = s.sansStrands from hr _ rfl
  intro r hr
  unfold State.releaseHold at hr
  simp only at hr
  split at hr
  · subst hr
    exact ⟨fun y => ⟨rfl, rfl⟩, rfl⟩
  · have h1 : (∀ y, ((s.upd fun t => { t with announced := false }).strandAt y).sansHolds = (s.strandAt y).sansHolds ∧
        ((s.upd fun t => { t with announced := false }).strandAt y).stall = (s.strandAt y).stall) ∧
        (s.upd fun t => { t with announced := false }).sansStrands = s.sansStrands := by
      refine ⟨fun y => ?_, rfl⟩
      by_cases hy : y = s.cur
      · subst hy
        have : (s.upd fun t => { t with announced := false }).strandAt s.cur = { s.strandAt s.cur with announced := false } := by
          simp [State.upd, State.t]
        rw [this]; exact ⟨rfl, rfl⟩
      · rw [State.strandAt_upd_ne s hy]; exact ⟨rfl, rfl⟩
    revert hr h1
    unfold State.spreadRelease
    generalize (s.upd fun t => { t with announced := false }) = u
    generalize State.gangStrands _ _ = l
    intro hr h1
    subst hr
    induction l generalizing u with
    | nil => exact h1
    | cons a r ih =>
      rw [List.foldl_cons]
      apply ih
      simp only
      split
      · refine ⟨fun y => ?_, ?_⟩
        · rw [State.schedule_strandAt]
          by_cases hy : y = a
          · subst hy
            rw [State.strandAt_setStrand_self]
            exact ⟨(h1.1 y).1, (h1.1 y).2⟩
          · rw [State.strandAt_setStrand_ne _ hy]; exact h1.1 y
        · exact h1.2
      · exact h1

theorem State.unstall_spec (s : State) :
    (∀ y, (s.unstall.strandAt y).sansHolds = (s.strandAt y).sansHolds) ∧ s.unstall.sansStrands = s.sansStrands ∧
      s.unstall.t.stall = none ∧ s.unstall.t.recFetch = none := by
  suffices hr : ∀ r, r = s.unstall → (∀ y, (r.strandAt y).sansHolds = (s.strandAt y).sansHolds) ∧
      r.sansStrands = s.sansStrands ∧ r.t.stall = none ∧ r.t.recFetch = none from hr _ rfl
  intro r hr
  unfold State.unstall at hr
  split at hr
  · rename_i h
    subst hr
    refine ⟨fun y => rfl, rfl, ?_⟩
    simpa using h
  · subst hr
    have h := State.releaseHold_spec s s.now
    have hc : (s.releaseHold s.now).cur = s.cur := by have e := congrArg State.cur h.2; exact e
    refine ⟨fun y => ?_, h.2, by simp⟩
    by_cases hy : y = s.cur
    · subst hy
      have : ((s.releaseHold s.now).upd fun t => { t with stall := none, recFetch := none }).strandAt s.cur
          = { (s.releaseHold s.now).strandAt s.cur with stall := none, recFetch := none } := by
        rw [← hc]; simp [State.upd, State.t]
      rw [this]
      exact (h.1 s.cur).1
    · rw [State.strandAt_upd_ne _ (by rw [hc]; exact hy)]
      exact (h.1 y).1

@[simp] theorem State.unstall_now (s : State) : s.unstall.now = s.now := by have e := congrArg State.now s.unstall_spec.2.1; exact e
@[simp] theorem State.unstall_fresh (s : State) : s.unstall.fresh = s.fresh := by have e := congrArg State.fresh s.unstall_spec.2.1; exact e
@[simp] theorem State.unstall_latencies (s : State) : s.unstall.latencies = s.latencies := by have e := congrArg State.latencies s.unstall_spec.2.1; exact e
@[simp] theorem State.unstall_inputs (s : State) : s.unstall.inputs = s.inputs := by have e := congrArg State.inputs s.unstall_spec.2.1; exact e
@[simp] theorem State.unstall_cur (s : State) : s.unstall.cur = s.cur := by have e := congrArg State.cur s.unstall_spec.2.1; exact e
@[simp] theorem State.unstall_focus (s : State) : s.unstall.focus = s.focus := by have e := congrArg State.focus s.unstall_spec.2.1; exact e
@[simp] theorem State.unstall_onchip (s : State) : s.unstall.onchip = s.onchip := by have e := congrArg State.onchip s.unstall_spec.2.1; exact e
@[simp] theorem State.unstall_dram (s : State) : s.unstall.dram = s.dram := by have e := congrArg State.dram s.unstall_spec.2.1; exact e
@[simp] theorem State.unstall_host (s : State) : s.unstall.host = s.host := by have e := congrArg State.host s.unstall_spec.2.1; exact e
@[simp] theorem State.unstall_peer (s : State) : s.unstall.peer = s.peer := by have e := congrArg State.peer s.unstall_spec.2.1; exact e
@[simp] theorem State.unstall_poisonChip (s : State) : s.unstall.poisonChip = s.poisonChip := by have e := congrArg State.poisonChip s.unstall_spec.2.1; exact e
@[simp] theorem State.unstall_poisonDram (s : State) : s.unstall.poisonDram = s.poisonDram := by have e := congrArg State.poisonDram s.unstall_spec.2.1; exact e
@[simp] theorem State.unstall_poisonHost (s : State) : s.unstall.poisonHost = s.poisonHost := by have e := congrArg State.poisonHost s.unstall_spec.2.1; exact e
@[simp] theorem State.unstall_cores (s : State) : s.unstall.cores = s.cores := by have e := congrArg State.cores s.unstall_spec.2.1; exact e
@[simp] theorem State.unstall_dev (s : State) : s.unstall.dev = s.dev := by have e := congrArg State.dev s.unstall_spec.2.1; exact e
@[simp] theorem State.unstall_core (s : State) : s.unstall.core = s.core := by simp [State.core]
@[simp] theorem State.unstall_t_stall (s : State) : s.unstall.t.stall = none := s.unstall_spec.2.2.1
@[simp] theorem State.unstall_t_recFetch (s : State) : s.unstall.t.recFetch = none := s.unstall_spec.2.2.2

@[simp] theorem State.unstall_strandAt_ctx (s : State) (y : Nat) : (s.unstall.strandAt y).ctx = (s.strandAt y).ctx := by have e := congrArg Strand.ctx (s.unstall_spec.1 y); exact e
@[simp] theorem State.unstall_t_ctx (s : State) : s.unstall.t.ctx = s.t.ctx := by simp [State.t]
@[simp] theorem State.unstall_strandAt_slip (s : State) (y : Nat) : (s.unstall.strandAt y).slip = (s.strandAt y).slip := by have e := congrArg Strand.slip (s.unstall_spec.1 y); exact e
@[simp] theorem State.unstall_t_slip (s : State) : s.unstall.t.slip = s.t.slip := by simp [State.t]
@[simp] theorem State.unstall_strandAt_hmis (s : State) (y : Nat) : (s.unstall.strandAt y).hmis = (s.strandAt y).hmis := by have e := congrArg Strand.hmis (s.unstall_spec.1 y); exact e
@[simp] theorem State.unstall_t_hmis (s : State) : s.unstall.t.hmis = s.t.hmis := by simp [State.t]
@[simp] theorem State.unstall_strandAt_queues (s : State) (y : Nat) : (s.unstall.strandAt y).queues = (s.strandAt y).queues := by have e := congrArg Strand.queues (s.unstall_spec.1 y); exact e
@[simp] theorem State.unstall_t_queues (s : State) : s.unstall.t.queues = s.t.queues := by simp [State.t]
@[simp] theorem State.unstall_strandAt_mode (s : State) (y : Nat) : (s.unstall.strandAt y).mode = (s.strandAt y).mode := by have e := congrArg Strand.mode (s.unstall_spec.1 y); exact e
@[simp] theorem State.unstall_t_mode (s : State) : s.unstall.t.mode = s.t.mode := by simp [State.t]
@[simp] theorem State.unstall_strandAt_micro (s : State) (y : Nat) : (s.unstall.strandAt y).micro = (s.strandAt y).micro := by have e := congrArg Strand.micro (s.unstall_spec.1 y); exact e
@[simp] theorem State.unstall_t_micro (s : State) : s.unstall.t.micro = s.t.micro := by simp [State.t]
@[simp] theorem State.unstall_strandAt_offset (s : State) (y : Nat) : (s.unstall.strandAt y).offset = (s.strandAt y).offset := by have e := congrArg Strand.offset (s.unstall_spec.1 y); exact e
@[simp] theorem State.unstall_t_offset (s : State) : s.unstall.t.offset = s.t.offset := by simp [State.t]
@[simp] theorem State.unstall_strandAt_origin (s : State) (y : Nat) : (s.unstall.strandAt y).origin = (s.strandAt y).origin := by have e := congrArg Strand.origin (s.unstall_spec.1 y); exact e
@[simp] theorem State.unstall_t_origin (s : State) : s.unstall.t.origin = s.t.origin := by simp [State.t]
@[simp] theorem State.unstall_strandAt_stride (s : State) (y : Nat) : (s.unstall.strandAt y).stride = (s.strandAt y).stride := by have e := congrArg Strand.stride (s.unstall_spec.1 y); exact e
@[simp] theorem State.unstall_t_stride (s : State) : s.unstall.t.stride = s.t.stride := by simp [State.t]
@[simp] theorem State.unstall_strandAt_phi (s : State) (y : Nat) : (s.unstall.strandAt y).phi = (s.strandAt y).phi := by have e := congrArg Strand.phi (s.unstall_spec.1 y); exact e
@[simp] theorem State.unstall_t_phi (s : State) : s.unstall.t.phi = s.t.phi := by simp [State.t]
@[simp] theorem State.unstall_strandAt_phiBg (s : State) (y : Nat) : (s.unstall.strandAt y).phiBg = (s.strandAt y).phiBg := by have e := congrArg Strand.phiBg (s.unstall_spec.1 y); exact e
@[simp] theorem State.unstall_t_phiBg (s : State) : s.unstall.t.phiBg = s.t.phiBg := by simp [State.t]
@[simp] theorem State.unstall_strandAt_seq (s : State) (y : Nat) : (s.unstall.strandAt y).seq = (s.strandAt y).seq := by have e := congrArg Strand.seq (s.unstall_spec.1 y); exact e
@[simp] theorem State.unstall_t_seq (s : State) : s.unstall.t.seq = s.t.seq := by simp [State.t]
@[simp] theorem State.unstall_strandAt_pend (s : State) (y : Nat) : (s.unstall.strandAt y).pend = (s.strandAt y).pend := by have e := congrArg Strand.pend (s.unstall_spec.1 y); exact e
@[simp] theorem State.unstall_t_pend (s : State) : s.unstall.t.pend = s.t.pend := by simp [State.t]
@[simp] theorem State.unstall_strandAt_hpend (s : State) (y : Nat) : (s.unstall.strandAt y).hpend = (s.strandAt y).hpend := by have e := congrArg Strand.hpend (s.unstall_spec.1 y); exact e
@[simp] theorem State.unstall_t_hpend (s : State) : s.unstall.t.hpend = s.t.hpend := by simp [State.t]
@[simp] theorem State.unstall_strandAt_hqueue (s : State) (y : Nat) : (s.unstall.strandAt y).hqueue = (s.strandAt y).hqueue := by have e := congrArg Strand.hqueue (s.unstall_spec.1 y); exact e
@[simp] theorem State.unstall_t_hqueue (s : State) : s.unstall.t.hqueue = s.t.hqueue := by simp [State.t]
@[simp] theorem State.unstall_strandAt_streams (s : State) (y : Nat) : (s.unstall.strandAt y).streams = (s.strandAt y).streams := by have e := congrArg Strand.streams (s.unstall_spec.1 y); exact e
@[simp] theorem State.unstall_t_streams (s : State) : s.unstall.t.streams = s.t.streams := by simp [State.t]
@[simp] theorem State.unstall_strandAt_vEnd (s : State) (y : Nat) : (s.unstall.strandAt y).vEnd = (s.strandAt y).vEnd := by have e := congrArg Strand.vEnd (s.unstall_spec.1 y); exact e
@[simp] theorem State.unstall_t_vEnd (s : State) : s.unstall.t.vEnd = s.t.vEnd := by simp [State.t]
@[simp] theorem State.unstall_strandAt_fEnd (s : State) (y : Nat) : (s.unstall.strandAt y).fEnd = (s.strandAt y).fEnd := by have e := congrArg Strand.fEnd (s.unstall_spec.1 y); exact e
@[simp] theorem State.unstall_t_fEnd (s : State) : s.unstall.t.fEnd = s.t.fEnd := by simp [State.t]
@[simp] theorem State.unstall_strandAt_mEnd (s : State) (y : Nat) : (s.unstall.strandAt y).mEnd = (s.strandAt y).mEnd := by have e := congrArg Strand.mEnd (s.unstall_spec.1 y); exact e
@[simp] theorem State.unstall_t_mEnd (s : State) : s.unstall.t.mEnd = s.t.mEnd := by simp [State.t]
@[simp] theorem State.unstall_strandAt_mpend (s : State) (y : Nat) : (s.unstall.strandAt y).mpend = (s.strandAt y).mpend := by have e := congrArg Strand.mpend (s.unstall_spec.1 y); exact e
@[simp] theorem State.unstall_t_mpend (s : State) : s.unstall.t.mpend = s.t.mpend := by simp [State.t]
@[simp] theorem State.unstall_strandAt_asyncs (s : State) (y : Nat) : (s.unstall.strandAt y).asyncs = (s.strandAt y).asyncs := by have e := congrArg Strand.asyncs (s.unstall_spec.1 y); exact e
@[simp] theorem State.unstall_t_asyncs (s : State) : s.unstall.t.asyncs = s.t.asyncs := by simp [State.t]
@[simp] theorem State.unstall_strandAt_timed (s : State) (y : Nat) : (s.unstall.strandAt y).timed = (s.strandAt y).timed := by have e := congrArg Strand.timed (s.unstall_spec.1 y); exact e
@[simp] theorem State.unstall_t_timed (s : State) : s.unstall.t.timed = s.t.timed := by simp [State.t]
@[simp] theorem State.unstall_strandAt_closing (s : State) (y : Nat) : (s.unstall.strandAt y).closing = (s.strandAt y).closing := by have e := congrArg Strand.closing (s.unstall_spec.1 y); exact e
@[simp] theorem State.unstall_t_closing (s : State) : s.unstall.t.closing = s.t.closing := by simp [State.t]
@[simp] theorem State.unstall_strandAt_deferred (s : State) (y : Nat) : (s.unstall.strandAt y).deferred = (s.strandAt y).deferred := by have e := congrArg Strand.deferred (s.unstall_spec.1 y); exact e
@[simp] theorem State.unstall_t_deferred (s : State) : s.unstall.t.deferred = s.t.deferred := by simp [State.t]
@[simp] theorem State.unstall_strandAt_accIss (s : State) (y : Nat) : (s.unstall.strandAt y).accIss = (s.strandAt y).accIss := by have e := congrArg Strand.accIss (s.unstall_spec.1 y); exact e
@[simp] theorem State.unstall_t_accIss (s : State) : s.unstall.t.accIss = s.t.accIss := by simp [State.t]
@[simp] theorem State.unstall_strandAt_region (s : State) (y : Nat) : (s.unstall.strandAt y).region = (s.strandAt y).region := by have e := congrArg Strand.region (s.unstall_spec.1 y); exact e
@[simp] theorem State.unstall_t_region (s : State) : s.unstall.t.region = s.t.region := by simp [State.t]
@[simp] theorem State.unstall_strandAt_regionAt (s : State) (y : Nat) : (s.unstall.strandAt y).regionAt = (s.strandAt y).regionAt := by have e := congrArg Strand.regionAt (s.unstall_spec.1 y); exact e
@[simp] theorem State.unstall_t_regionAt (s : State) : s.unstall.t.regionAt = s.t.regionAt := by simp [State.t]
@[simp] theorem State.unstall_strandAt_edge (s : State) (y : Nat) : (s.unstall.strandAt y).edge = (s.strandAt y).edge := by have e := congrArg Strand.edge (s.unstall_spec.1 y); exact e
@[simp] theorem State.unstall_t_edge (s : State) : s.unstall.t.edge = s.t.edge := by simp [State.t]
@[simp] theorem State.unstall_strandAt_opened (s : State) (y : Nat) : (s.unstall.strandAt y).opened = (s.strandAt y).opened := by have e := congrArg Strand.opened (s.unstall_spec.1 y); exact e
@[simp] theorem State.unstall_t_opened (s : State) : s.unstall.t.opened = s.t.opened := by simp [State.t]
@[simp] theorem State.unstall_strandAt_closed (s : State) (y : Nat) : (s.unstall.strandAt y).closed = (s.strandAt y).closed := by have e := congrArg Strand.closed (s.unstall_spec.1 y); exact e
@[simp] theorem State.unstall_t_closed (s : State) : s.unstall.t.closed = s.t.closed := by simp [State.t]
@[simp] theorem State.unstall_strandAt_ckpt (s : State) (y : Nat) : (s.unstall.strandAt y).ckpt = (s.strandAt y).ckpt := by have e := congrArg Strand.ckpt (s.unstall_spec.1 y); exact e
@[simp] theorem State.unstall_t_ckpt (s : State) : s.unstall.t.ckpt = s.t.ckpt := by simp [State.t]
@[simp] theorem State.unstall_strandAt_rephase (s : State) (y : Nat) : (s.unstall.strandAt y).rephase = (s.strandAt y).rephase := by have e := congrArg Strand.rephase (s.unstall_spec.1 y); exact e
@[simp] theorem State.unstall_strandAt_back (s : State) (y : Nat) : (s.unstall.strandAt y).back = (s.strandAt y).back := by have e := congrArg Strand.back (s.unstall_spec.1 y); exact e
@[simp] theorem State.unstall_t_rephase (s : State) : s.unstall.t.rephase = s.t.rephase := by simp [State.t]
@[simp] theorem State.unstall_t_back (s : State) : s.unstall.t.back = s.t.back := by simp [State.t]
@[simp] theorem State.unstall_strandAt_heldUntil (s : State) (y : Nat) : (s.unstall.strandAt y).heldUntil = (s.strandAt y).heldUntil := by have e := congrArg Strand.heldUntil (s.unstall_spec.1 y); exact e
@[simp] theorem State.unstall_t_heldUntil (s : State) : s.unstall.t.heldUntil = s.t.heldUntil := by simp [State.t]
@[simp] theorem State.unstall_strandAt_raises (s : State) (y : Nat) : (s.unstall.strandAt y).raises = (s.strandAt y).raises := by have e := congrArg Strand.raises (s.unstall_spec.1 y); exact e
@[simp] theorem State.unstall_t_raises (s : State) : s.unstall.t.raises = s.t.raises := by simp [State.t]
@[simp] theorem State.unstall_strandAt_signal (s : State) (y : Nat) : (s.unstall.strandAt y).signal = (s.strandAt y).signal := by have e := congrArg Strand.signal (s.unstall_spec.1 y); exact e
@[simp] theorem State.unstall_t_signal (s : State) : s.unstall.t.signal = s.t.signal := by simp [State.t]
@[simp] theorem State.unstall_strandAt_resumeAt (s : State) (y : Nat) : (s.unstall.strandAt y).resumeAt = (s.strandAt y).resumeAt := by have e := congrArg Strand.resumeAt (s.unstall_spec.1 y); exact e
@[simp] theorem State.unstall_t_resumeAt (s : State) : s.unstall.t.resumeAt = s.t.resumeAt := by simp [State.t]
@[simp] theorem State.unstall_strandAt_suspendedBy (s : State) (y : Nat) : (s.unstall.strandAt y).suspendedBy = (s.strandAt y).suspendedBy := by have e := congrArg Strand.suspendedBy (s.unstall_spec.1 y); exact e
@[simp] theorem State.unstall_t_suspendedBy (s : State) : s.unstall.t.suspendedBy = s.t.suspendedBy := by simp [State.t]
@[simp] theorem State.unstall_strandAt_hostFault (s : State) (y : Nat) : (s.unstall.strandAt y).hostFault = (s.strandAt y).hostFault := by have e := congrArg Strand.hostFault (s.unstall_spec.1 y); exact e
@[simp] theorem State.unstall_t_hostFault (s : State) : s.unstall.t.hostFault = s.t.hostFault := by simp [State.t]
@[simp] theorem State.unstall_strandAt_pins (s : State) (y : Nat) : (s.unstall.strandAt y).pins = (s.strandAt y).pins := by have e := congrArg Strand.pins (s.unstall_spec.1 y); exact e
@[simp] theorem State.unstall_t_pins (s : State) : s.unstall.t.pins = s.t.pins := by simp [State.t]
@[simp] theorem State.unstall_strandAt_rowStats (s : State) (y : Nat) : (s.unstall.strandAt y).rowStats = (s.strandAt y).rowStats := by have e := congrArg Strand.rowStats (s.unstall_spec.1 y); exact e
@[simp] theorem State.unstall_t_rowStats (s : State) : s.unstall.t.rowStats = s.t.rowStats := by simp [State.t]
@[simp] theorem State.unstall_strandAt_scans (s : State) (y : Nat) : (s.unstall.strandAt y).scans = (s.strandAt y).scans := by have e := congrArg Strand.scans (s.unstall_spec.1 y); exact e
@[simp] theorem State.unstall_t_scans (s : State) : s.unstall.t.scans = s.t.scans := by simp [State.t]
@[simp] theorem State.unstall_strandAt_popped (s : State) (y : Nat) : (s.unstall.strandAt y).popped = (s.strandAt y).popped := by have e := congrArg Strand.popped (s.unstall_spec.1 y); exact e
@[simp] theorem State.unstall_t_popped (s : State) : s.unstall.t.popped = s.t.popped := by simp [State.t]
@[simp] theorem State.unstall_strandAt_collOrd (s : State) (y : Nat) : (s.unstall.strandAt y).collOrd = (s.strandAt y).collOrd := by have e := congrArg Strand.collOrd (s.unstall_spec.1 y); exact e
@[simp] theorem State.unstall_t_collOrd (s : State) : s.unstall.t.collOrd = s.t.collOrd := by simp [State.t]
@[simp] theorem State.unstall_strandAt_vf (s : State) (y : Nat) : (s.unstall.strandAt y).vf = (s.strandAt y).vf := by have e := congrArg Strand.vf (s.unstall_spec.1 y); exact e
@[simp] theorem State.unstall_t_vf (s : State) : s.unstall.t.vf = s.t.vf := by simp [State.t]
@[simp] theorem State.unstall_strandAt_node (s : State) (y : Nat) : (s.unstall.strandAt y).node = (s.strandAt y).node := by have e := congrArg Strand.node (s.unstall_spec.1 y); exact e
@[simp] theorem State.unstall_t_node (s : State) : s.unstall.t.node = s.t.node := by simp [State.t]
@[simp] theorem State.unstall_strandAt_gang (s : State) (y : Nat) : (s.unstall.strandAt y).gang = (s.strandAt y).gang := by have e := congrArg Strand.gang (s.unstall_spec.1 y); exact e
@[simp] theorem State.unstall_t_gang (s : State) : s.unstall.t.gang = s.t.gang := by simp [State.t]
@[simp] theorem State.unstall_strandAt_rank (s : State) (y : Nat) : (s.unstall.strandAt y).rank = (s.strandAt y).rank := by have e := congrArg Strand.rank (s.unstall_spec.1 y); exact e
@[simp] theorem State.unstall_t_rank (s : State) : s.unstall.t.rank = s.t.rank := by simp [State.t]
@[simp] theorem State.unstall_strandAt_cols (s : State) (y : Nat) : (s.unstall.strandAt y).cols = (s.strandAt y).cols := by have e := congrArg Strand.cols (s.unstall_spec.1 y); exact e
@[simp] theorem State.unstall_t_cols (s : State) : s.unstall.t.cols = s.t.cols := by simp [State.t]
@[simp] theorem State.unstall_strandAt_banks (s : State) (y : Nat) : (s.unstall.strandAt y).banks = (s.strandAt y).banks := by have e := congrArg Strand.banks (s.unstall_spec.1 y); exact e
@[simp] theorem State.unstall_t_banks (s : State) : s.unstall.t.banks = s.t.banks := by simp [State.t]
@[simp] theorem State.unstall_strandAt_channels (s : State) (y : Nat) : (s.unstall.strandAt y).channels = (s.strandAt y).channels := by have e := congrArg Strand.channels (s.unstall_spec.1 y); exact e
@[simp] theorem State.unstall_t_channels (s : State) : s.unstall.t.channels = s.t.channels := by simp [State.t]
@[simp] theorem State.unstall_strandAt_quotas (s : State) (y : Nat) : (s.unstall.strandAt y).quotas = (s.strandAt y).quotas := by have e := congrArg Strand.quotas (s.unstall_spec.1 y); exact e
@[simp] theorem State.unstall_t_quotas (s : State) : s.unstall.t.quotas = s.t.quotas := by simp [State.t]
@[simp] theorem State.unstall_strandAt_slots (s : State) (y : Nat) : (s.unstall.strandAt y).slots = (s.strandAt y).slots := by have e := congrArg Strand.slots (s.unstall_spec.1 y); exact e
@[simp] theorem State.unstall_t_slots (s : State) : s.unstall.t.slots = s.t.slots := by simp [State.t]
@[simp] theorem State.unstall_strandAt_foots (s : State) (y : Nat) : (s.unstall.strandAt y).foots = (s.strandAt y).foots := by have e := congrArg Strand.foots (s.unstall_spec.1 y); exact e
@[simp] theorem State.unstall_t_foots (s : State) : s.unstall.t.foots = s.t.foots := by simp [State.t]

/-! Hints counted. -/

@[simp] theorem State.counted_now_ (s : State) (n : Nat) : (s.counted n).now = s.now := by unfold State.counted; split <;> rfl
@[simp] theorem State.counted_fresh_ (s : State) (n : Nat) : (s.counted n).fresh = s.fresh := by unfold State.counted; split <;> rfl
@[simp] theorem State.counted_latencies_ (s : State) (n : Nat) : (s.counted n).latencies = s.latencies := by unfold State.counted; split <;> rfl
@[simp] theorem State.counted_inputs_ (s : State) (n : Nat) : (s.counted n).inputs = s.inputs := by unfold State.counted; split <;> rfl
@[simp] theorem State.counted_cur_ (s : State) (n : Nat) : (s.counted n).cur = s.cur := by unfold State.counted; split <;> rfl
@[simp] theorem State.counted_focus_ (s : State) (n : Nat) : (s.counted n).focus = s.focus := by unfold State.counted; split <;> rfl
@[simp] theorem State.counted_onchip_ (s : State) (n : Nat) : (s.counted n).onchip = s.onchip := by unfold State.counted; split <;> rfl
@[simp] theorem State.counted_dram_ (s : State) (n : Nat) : (s.counted n).dram = s.dram := by unfold State.counted; split <;> rfl
@[simp] theorem State.counted_host_ (s : State) (n : Nat) : (s.counted n).host = s.host := by unfold State.counted; split <;> rfl
@[simp] theorem State.counted_peer_ (s : State) (n : Nat) : (s.counted n).peer = s.peer := by unfold State.counted; split <;> rfl
@[simp] theorem State.counted_poisonChip_ (s : State) (n : Nat) : (s.counted n).poisonChip = s.poisonChip := by unfold State.counted; split <;> rfl
@[simp] theorem State.counted_poisonDram_ (s : State) (n : Nat) : (s.counted n).poisonDram = s.poisonDram := by unfold State.counted; split <;> rfl
@[simp] theorem State.counted_poisonHost_ (s : State) (n : Nat) : (s.counted n).poisonHost = s.poisonHost := by unfold State.counted; split <;> rfl
@[simp] theorem State.counted_cores_ (s : State) (n : Nat) : (s.counted n).cores = s.cores := by unfold State.counted; split <;> rfl
@[simp] theorem State.counted_dev_ (s : State) (n : Nat) : (s.counted n).dev = s.dev := by unfold State.counted; split <;> rfl
@[simp] theorem State.counted_agenda_ (s : State) (n : Nat) : (s.counted n).agenda = s.agenda := by unfold State.counted; split <;> rfl
@[simp] theorem State.counted_t_ctx (s : State) (n : Nat) : (s.counted n).t.ctx = s.t.ctx := by rw [State.counted_t]
@[simp] theorem State.counted_t_slip (s : State) (n : Nat) : (s.counted n).t.slip = s.t.slip := by rw [State.counted_t]
@[simp] theorem State.counted_t_queues (s : State) (n : Nat) : (s.counted n).t.queues = s.t.queues := by rw [State.counted_t]
@[simp] theorem State.counted_t_mode (s : State) (n : Nat) : (s.counted n).t.mode = s.t.mode := by rw [State.counted_t]
@[simp] theorem State.counted_t_micro (s : State) (n : Nat) : (s.counted n).t.micro = s.t.micro := by rw [State.counted_t]
@[simp] theorem State.counted_t_offset (s : State) (n : Nat) : (s.counted n).t.offset = s.t.offset := by rw [State.counted_t]
@[simp] theorem State.counted_t_origin (s : State) (n : Nat) : (s.counted n).t.origin = s.t.origin := by rw [State.counted_t]
@[simp] theorem State.counted_t_stride (s : State) (n : Nat) : (s.counted n).t.stride = s.t.stride := by rw [State.counted_t]
@[simp] theorem State.counted_t_phi (s : State) (n : Nat) : (s.counted n).t.phi = s.t.phi := by rw [State.counted_t]
@[simp] theorem State.counted_t_phiBg (s : State) (n : Nat) : (s.counted n).t.phiBg = s.t.phiBg := by rw [State.counted_t]
@[simp] theorem State.counted_t_seq (s : State) (n : Nat) : (s.counted n).t.seq = s.t.seq := by rw [State.counted_t]
@[simp] theorem State.counted_t_stall (s : State) (n : Nat) : (s.counted n).t.stall = s.t.stall := by rw [State.counted_t]
@[simp] theorem State.counted_t_pend (s : State) (n : Nat) : (s.counted n).t.pend = s.t.pend := by rw [State.counted_t]
@[simp] theorem State.counted_t_hpend (s : State) (n : Nat) : (s.counted n).t.hpend = s.t.hpend := by rw [State.counted_t]
@[simp] theorem State.counted_t_hqueue (s : State) (n : Nat) : (s.counted n).t.hqueue = s.t.hqueue := by rw [State.counted_t]
@[simp] theorem State.counted_t_streams (s : State) (n : Nat) : (s.counted n).t.streams = s.t.streams := by rw [State.counted_t]
@[simp] theorem State.counted_t_vEnd (s : State) (n : Nat) : (s.counted n).t.vEnd = s.t.vEnd := by rw [State.counted_t]
@[simp] theorem State.counted_t_fEnd (s : State) (n : Nat) : (s.counted n).t.fEnd = s.t.fEnd := by rw [State.counted_t]
@[simp] theorem State.counted_t_mEnd (s : State) (n : Nat) : (s.counted n).t.mEnd = s.t.mEnd := by rw [State.counted_t]
@[simp] theorem State.counted_t_mpend (s : State) (n : Nat) : (s.counted n).t.mpend = s.t.mpend := by rw [State.counted_t]
@[simp] theorem State.counted_t_asyncs (s : State) (n : Nat) : (s.counted n).t.asyncs = s.t.asyncs := by rw [State.counted_t]
@[simp] theorem State.counted_t_timed (s : State) (n : Nat) : (s.counted n).t.timed = s.t.timed := by rw [State.counted_t]
@[simp] theorem State.counted_t_closing (s : State) (n : Nat) : (s.counted n).t.closing = s.t.closing := by rw [State.counted_t]
@[simp] theorem State.counted_t_deferred (s : State) (n : Nat) : (s.counted n).t.deferred = s.t.deferred := by rw [State.counted_t]
@[simp] theorem State.counted_t_accIss (s : State) (n : Nat) : (s.counted n).t.accIss = s.t.accIss := by rw [State.counted_t]
@[simp] theorem State.counted_t_region (s : State) (n : Nat) : (s.counted n).t.region = s.t.region := by rw [State.counted_t]
@[simp] theorem State.counted_t_regionAt (s : State) (n : Nat) : (s.counted n).t.regionAt = s.t.regionAt := by rw [State.counted_t]
@[simp] theorem State.counted_t_edge (s : State) (n : Nat) : (s.counted n).t.edge = s.t.edge := by rw [State.counted_t]
@[simp] theorem State.counted_t_opened (s : State) (n : Nat) : (s.counted n).t.opened = s.t.opened := by rw [State.counted_t]
@[simp] theorem State.counted_t_closed (s : State) (n : Nat) : (s.counted n).t.closed = s.t.closed := by rw [State.counted_t]
@[simp] theorem State.counted_t_ckpt (s : State) (n : Nat) : (s.counted n).t.ckpt = s.t.ckpt := by rw [State.counted_t]
@[simp] theorem State.counted_t_rephase (s : State) (n : Nat) : (s.counted n).t.rephase = s.t.rephase := by rw [State.counted_t]
@[simp] theorem State.counted_t_recFetch (s : State) (n : Nat) : (s.counted n).t.recFetch = s.t.recFetch := by rw [State.counted_t]
@[simp] theorem State.counted_t_back (s : State) (n : Nat) : (s.counted n).t.back = s.t.back := by rw [State.counted_t]
@[simp] theorem State.counted_t_heldUntil (s : State) (n : Nat) : (s.counted n).t.heldUntil = s.t.heldUntil := by rw [State.counted_t]
@[simp] theorem State.counted_t_holds (s : State) (n : Nat) : (s.counted n).t.holds = s.t.holds := by rw [State.counted_t]
@[simp] theorem State.counted_t_announced (s : State) (n : Nat) : (s.counted n).t.announced = s.t.announced := by rw [State.counted_t]
@[simp] theorem State.counted_t_raises (s : State) (n : Nat) : (s.counted n).t.raises = s.t.raises := by rw [State.counted_t]
@[simp] theorem State.counted_t_signal (s : State) (n : Nat) : (s.counted n).t.signal = s.t.signal := by rw [State.counted_t]
@[simp] theorem State.counted_t_resumeAt (s : State) (n : Nat) : (s.counted n).t.resumeAt = s.t.resumeAt := by rw [State.counted_t]
@[simp] theorem State.counted_t_suspendedBy (s : State) (n : Nat) : (s.counted n).t.suspendedBy = s.t.suspendedBy := by rw [State.counted_t]
@[simp] theorem State.counted_t_hostFault (s : State) (n : Nat) : (s.counted n).t.hostFault = s.t.hostFault := by rw [State.counted_t]
@[simp] theorem State.counted_t_pins (s : State) (n : Nat) : (s.counted n).t.pins = s.t.pins := by rw [State.counted_t]
@[simp] theorem State.counted_t_rowStats (s : State) (n : Nat) : (s.counted n).t.rowStats = s.t.rowStats := by rw [State.counted_t]
@[simp] theorem State.counted_t_scans (s : State) (n : Nat) : (s.counted n).t.scans = s.t.scans := by rw [State.counted_t]
@[simp] theorem State.counted_t_popped (s : State) (n : Nat) : (s.counted n).t.popped = s.t.popped := by rw [State.counted_t]
@[simp] theorem State.counted_t_collOrd (s : State) (n : Nat) : (s.counted n).t.collOrd = s.t.collOrd := by rw [State.counted_t]
@[simp] theorem State.counted_t_vf (s : State) (n : Nat) : (s.counted n).t.vf = s.t.vf := by rw [State.counted_t]
@[simp] theorem State.counted_t_node (s : State) (n : Nat) : (s.counted n).t.node = s.t.node := by rw [State.counted_t]
@[simp] theorem State.counted_t_gang (s : State) (n : Nat) : (s.counted n).t.gang = s.t.gang := by rw [State.counted_t]
@[simp] theorem State.counted_t_rank (s : State) (n : Nat) : (s.counted n).t.rank = s.t.rank := by rw [State.counted_t]
@[simp] theorem State.counted_t_cols (s : State) (n : Nat) : (s.counted n).t.cols = s.t.cols := by rw [State.counted_t]
@[simp] theorem State.counted_t_banks (s : State) (n : Nat) : (s.counted n).t.banks = s.t.banks := by rw [State.counted_t]
@[simp] theorem State.counted_t_channels (s : State) (n : Nat) : (s.counted n).t.channels = s.t.channels := by rw [State.counted_t]
@[simp] theorem State.counted_t_quotas (s : State) (n : Nat) : (s.counted n).t.quotas = s.t.quotas := by rw [State.counted_t]
@[simp] theorem State.counted_t_slots (s : State) (n : Nat) : (s.counted n).t.slots = s.t.slots := by rw [State.counted_t]
@[simp] theorem State.counted_t_foots (s : State) (n : Nat) : (s.counted n).t.foots = s.t.foots := by rw [State.counted_t]

theorem State.counted_strandAt_ne (s : State) (n : Nat) {y : Nat} (h : y ≠ s.cur) : (s.counted n).strandAt y = s.strandAt y := by
  unfold State.counted
  split
  · rfl
  · exact State.strandAt_upd_ne s h _

/-! A word whose completion is its own affair. -/

theorem Done.after_own_now {d : Done} {v : View} (h : d.own = true) : (d.after v).now = d.s.now := by simp [Done.after, h]
theorem Done.after_own_fresh {d : Done} {v : View} (h : d.own = true) : (d.after v).fresh = d.s.fresh := by simp [Done.after, h]
theorem Done.after_own_latencies {d : Done} {v : View} (h : d.own = true) : (d.after v).latencies = d.s.latencies := by simp [Done.after, h]
theorem Done.after_own_inputs {d : Done} {v : View} (h : d.own = true) : (d.after v).inputs = d.s.inputs := by simp [Done.after, h]
theorem Done.after_own_cur {d : Done} {v : View} (h : d.own = true) : (d.after v).cur = d.s.cur := by simp [Done.after, h]
theorem Done.after_own_focus {d : Done} {v : View} (h : d.own = true) : (d.after v).focus = d.s.focus := by simp [Done.after, h]
theorem Done.after_own_onchip {d : Done} {v : View} (h : d.own = true) : (d.after v).onchip = d.s.onchip := by simp [Done.after, h]
theorem Done.after_own_dram {d : Done} {v : View} (h : d.own = true) : (d.after v).dram = d.s.dram := by simp [Done.after, h]
theorem Done.after_own_host {d : Done} {v : View} (h : d.own = true) : (d.after v).host = d.s.host := by simp [Done.after, h]
theorem Done.after_own_peer {d : Done} {v : View} (h : d.own = true) : (d.after v).peer = d.s.peer := by simp [Done.after, h]
theorem Done.after_own_poisonChip {d : Done} {v : View} (h : d.own = true) : (d.after v).poisonChip = d.s.poisonChip := by simp [Done.after, h]
theorem Done.after_own_poisonDram {d : Done} {v : View} (h : d.own = true) : (d.after v).poisonDram = d.s.poisonDram := by simp [Done.after, h]
theorem Done.after_own_poisonHost {d : Done} {v : View} (h : d.own = true) : (d.after v).poisonHost = d.s.poisonHost := by simp [Done.after, h]
theorem Done.after_own_cores {d : Done} {v : View} (h : d.own = true) : (d.after v).cores = d.s.cores := by simp [Done.after, h]
theorem Done.after_own_dev {d : Done} {v : View} (h : d.own = true) : (d.after v).dev = d.s.dev := by simp [Done.after, h]
theorem Done.after_own_t_ctx {d : Done} {v : View} (h : d.own = true) : (d.after v).t.ctx = d.s.t.ctx := by simp [Done.after, h]
theorem Done.after_own_t_slip {d : Done} {v : View} (h : d.own = true) : (d.after v).t.slip = d.s.t.slip := by simp [Done.after, h]
theorem Done.after_own_t_queues {d : Done} {v : View} (h : d.own = true) : (d.after v).t.queues = d.s.t.queues := by simp [Done.after, h]
theorem Done.after_own_t_mode {d : Done} {v : View} (h : d.own = true) : (d.after v).t.mode = d.s.t.mode := by simp [Done.after, h]
theorem Done.after_own_t_micro {d : Done} {v : View} (h : d.own = true) : (d.after v).t.micro = d.s.t.micro := by simp [Done.after, h]
theorem Done.after_own_t_offset {d : Done} {v : View} (h : d.own = true) : (d.after v).t.offset = d.s.t.offset := by simp [Done.after, h]
theorem Done.after_own_t_origin {d : Done} {v : View} (h : d.own = true) : (d.after v).t.origin = d.s.t.origin := by simp [Done.after, h]
theorem Done.after_own_t_stride {d : Done} {v : View} (h : d.own = true) : (d.after v).t.stride = d.s.t.stride := by simp [Done.after, h]
theorem Done.after_own_t_phi {d : Done} {v : View} (h : d.own = true) : (d.after v).t.phi = d.s.t.phi := by simp [Done.after, h]
theorem Done.after_own_t_phiBg {d : Done} {v : View} (h : d.own = true) : (d.after v).t.phiBg = d.s.t.phiBg := by simp [Done.after, h]
theorem Done.after_own_t_seq {d : Done} {v : View} (h : d.own = true) : (d.after v).t.seq = d.s.t.seq := by simp [Done.after, h]
theorem Done.after_own_t_pend {d : Done} {v : View} (h : d.own = true) : (d.after v).t.pend = d.s.t.pend := by simp [Done.after, h]
theorem Done.after_own_t_hpend {d : Done} {v : View} (h : d.own = true) : (d.after v).t.hpend = d.s.t.hpend := by simp [Done.after, h]
theorem Done.after_own_t_hqueue {d : Done} {v : View} (h : d.own = true) : (d.after v).t.hqueue = d.s.t.hqueue := by simp [Done.after, h]
theorem Done.after_own_t_streams {d : Done} {v : View} (h : d.own = true) : (d.after v).t.streams = d.s.t.streams := by simp [Done.after, h]
theorem Done.after_own_t_vEnd {d : Done} {v : View} (h : d.own = true) : (d.after v).t.vEnd = d.s.t.vEnd := by simp [Done.after, h]
theorem Done.after_own_t_fEnd {d : Done} {v : View} (h : d.own = true) : (d.after v).t.fEnd = d.s.t.fEnd := by simp [Done.after, h]
theorem Done.after_own_t_mEnd {d : Done} {v : View} (h : d.own = true) : (d.after v).t.mEnd = d.s.t.mEnd := by simp [Done.after, h]
theorem Done.after_own_t_mpend {d : Done} {v : View} (h : d.own = true) : (d.after v).t.mpend = d.s.t.mpend := by simp [Done.after, h]
theorem Done.after_own_t_asyncs {d : Done} {v : View} (h : d.own = true) : (d.after v).t.asyncs = d.s.t.asyncs := by simp [Done.after, h]
theorem Done.after_own_t_timed {d : Done} {v : View} (h : d.own = true) : (d.after v).t.timed = d.s.t.timed := by simp [Done.after, h]
theorem Done.after_own_t_closing {d : Done} {v : View} (h : d.own = true) : (d.after v).t.closing = d.s.t.closing := by simp [Done.after, h]
theorem Done.after_own_t_deferred {d : Done} {v : View} (h : d.own = true) : (d.after v).t.deferred = d.s.t.deferred := by simp [Done.after, h]
theorem Done.after_own_t_accIss {d : Done} {v : View} (h : d.own = true) : (d.after v).t.accIss = d.s.t.accIss := by simp [Done.after, h]
theorem Done.after_own_t_region {d : Done} {v : View} (h : d.own = true) : (d.after v).t.region = d.s.t.region := by simp [Done.after, h]
theorem Done.after_own_t_regionAt {d : Done} {v : View} (h : d.own = true) : (d.after v).t.regionAt = d.s.t.regionAt := by simp [Done.after, h]
theorem Done.after_own_t_edge {d : Done} {v : View} (h : d.own = true) : (d.after v).t.edge = d.s.t.edge := by simp [Done.after, h]
theorem Done.after_own_t_opened {d : Done} {v : View} (h : d.own = true) : (d.after v).t.opened = d.s.t.opened := by simp [Done.after, h]
theorem Done.after_own_t_closed {d : Done} {v : View} (h : d.own = true) : (d.after v).t.closed = d.s.t.closed := by simp [Done.after, h]
theorem Done.after_own_t_ckpt {d : Done} {v : View} (h : d.own = true) : (d.after v).t.ckpt = d.s.t.ckpt := by simp [Done.after, h]
theorem Done.after_own_t_rephase {d : Done} {v : View} (h : d.own = true) : (d.after v).t.rephase = d.s.t.rephase := by simp [Done.after, h]
theorem Done.after_own_t_back {d : Done} {v : View} (h : d.own = true) : (d.after v).t.back = d.s.t.back := by simp [Done.after, h]
theorem Done.after_own_t_heldUntil {d : Done} {v : View} (h : d.own = true) : (d.after v).t.heldUntil = d.s.t.heldUntil := by simp [Done.after, h]
theorem Done.after_own_t_raises {d : Done} {v : View} (h : d.own = true) : (d.after v).t.raises = d.s.t.raises := by simp [Done.after, h]
theorem Done.after_own_t_signal {d : Done} {v : View} (h : d.own = true) : (d.after v).t.signal = d.s.t.signal := by simp [Done.after, h]
theorem Done.after_own_t_resumeAt {d : Done} {v : View} (h : d.own = true) : (d.after v).t.resumeAt = d.s.t.resumeAt := by simp [Done.after, h]
theorem Done.after_own_t_suspendedBy {d : Done} {v : View} (h : d.own = true) : (d.after v).t.suspendedBy = d.s.t.suspendedBy := by simp [Done.after, h]
theorem Done.after_own_t_hostFault {d : Done} {v : View} (h : d.own = true) : (d.after v).t.hostFault = d.s.t.hostFault := by simp [Done.after, h]
theorem Done.after_own_t_pins {d : Done} {v : View} (h : d.own = true) : (d.after v).t.pins = d.s.t.pins := by simp [Done.after, h]
theorem Done.after_own_t_rowStats {d : Done} {v : View} (h : d.own = true) : (d.after v).t.rowStats = d.s.t.rowStats := by simp [Done.after, h]
theorem Done.after_own_t_scans {d : Done} {v : View} (h : d.own = true) : (d.after v).t.scans = d.s.t.scans := by simp [Done.after, h]
theorem Done.after_own_t_popped {d : Done} {v : View} (h : d.own = true) : (d.after v).t.popped = d.s.t.popped := by simp [Done.after, h]
theorem Done.after_own_t_collOrd {d : Done} {v : View} (h : d.own = true) : (d.after v).t.collOrd = d.s.t.collOrd := by simp [Done.after, h]
theorem Done.after_own_t_vf {d : Done} {v : View} (h : d.own = true) : (d.after v).t.vf = d.s.t.vf := by simp [Done.after, h]
theorem Done.after_own_t_node {d : Done} {v : View} (h : d.own = true) : (d.after v).t.node = d.s.t.node := by simp [Done.after, h]
theorem Done.after_own_t_gang {d : Done} {v : View} (h : d.own = true) : (d.after v).t.gang = d.s.t.gang := by simp [Done.after, h]
theorem Done.after_own_t_rank {d : Done} {v : View} (h : d.own = true) : (d.after v).t.rank = d.s.t.rank := by simp [Done.after, h]
theorem Done.after_own_t_cols {d : Done} {v : View} (h : d.own = true) : (d.after v).t.cols = d.s.t.cols := by simp [Done.after, h]
theorem Done.after_own_t_banks {d : Done} {v : View} (h : d.own = true) : (d.after v).t.banks = d.s.t.banks := by simp [Done.after, h]
theorem Done.after_own_t_channels {d : Done} {v : View} (h : d.own = true) : (d.after v).t.channels = d.s.t.channels := by simp [Done.after, h]
theorem Done.after_own_t_quotas {d : Done} {v : View} (h : d.own = true) : (d.after v).t.quotas = d.s.t.quotas := by simp [Done.after, h]
theorem Done.after_own_t_slots {d : Done} {v : View} (h : d.own = true) : (d.after v).t.slots = d.s.t.slots := by simp [Done.after, h]
theorem Done.after_own_t_foots {d : Done} {v : View} (h : d.own = true) : (d.after v).t.foots = d.s.t.foots := by simp [Done.after, h]

end Sys2Proof.Machine
end

