-- ==== Sys2Proof/Laws/Scalar.lean ====
section
/-! SUPPORT. Words of class S: what reading their operands leaves, and the state that a word leaves whose result lands
(R43, R92, R110, R111). -/

namespace Sys2Proof.Machine

theorem Strand.setQueue_sansQueues (t : Strand) (n : Nat) (es : List QEntry) : (t.setQueue n es).sansQueues = t.sansQueues := by
  unfold Strand.setQueue
  split <;> rfl

theorem Strand.takeQ_sansQueues {t t' : Strand} {n : Nat} {peek : Bool} {v : Word} (h : t.takeQ n peek = .ok (v, t')) :
    t'.sansQueues = t.sansQueues := by
  unfold Strand.takeQ at h
  split at h
  · split at h
    · cases peek
      · simp only [Bool.false_eq_true, if_false, Except.ok.injEq, Prod.mk.injEq] at h
        rw [← h.2, Strand.setQueue_sansQueues]
      · simp only [if_true, Except.ok.injEq, Prod.mk.injEq] at h
        rw [← h.2]
    · cases h
  · cases h

theorem Strand.reserveQ_sansQueues {t t' : Strand} {n tok : Nat} (h : t.reserveQ n tok = .ok t') :
    t'.sansQueues = t.sansQueues := by
  unfold Strand.reserveQ at h
  simp only at h
  split at h
  · cases h
  · simp only [Except.ok.injEq] at h
    rw [← h, Strand.setQueue_sansQueues]

theorem Strand.readOpd_sansQueues {t t' : Strand} {e : Eng} {imm : Word} {pk : Bool} {o : Opd} {v : Word}
    (h : t.readOpd e imm pk o = .ok (v, t')) : t'.sansQueues = t.sansQueues := by
  unfold Strand.readOpd at h
  split at h
  · exact Strand.takeQ_sansQueues h
  all_goals
    simp only [Except.ok.injEq, Prod.mk.injEq] at h
    rw [← h.2]

theorem Strand.readOpds_sansQueues {e : Eng} {imm : Word} {l : List (Opd × Bool)} :
    ∀ {t t' : Strand} {vs : List Word}, t.readOpds e imm l = .ok (vs, t') → t'.sansQueues = t.sansQueues := by
  induction l with
  | nil =>
    intro t t' vs h
    simp only [Strand.readOpds, Except.ok.injEq, Prod.mk.injEq] at h
    rw [h.2]
  | cons a r ih =>
    intro t t' vs h
    obtain ⟨o, pk⟩ := a
    unfold Strand.readOpds at h
    split at h
    · cases h
    · rename_i v t1 h1
      split at h
      · cases h
      · rename_i vs' t2 h2
        simp only [Except.ok.injEq, Prod.mk.injEq] at h
        rw [← h.2, ih h2, Strand.readOpd_sansQueues h1]

theorem Strand.land_sansQueues (t : Strand) (lat : Nat) (effs : List Eff) (fl : Nat) :
    (t.land lat effs fl).sansQueues = t.sansQueues := by
  unfold Strand.land Strand.addLanding
  split <;> rfl

theorem Strand.transport_sansQueues {t t' : Strand} {b : SBody} (h : t.transport b = .ok t') :
    t'.sansQueues = t.sansQueues := by
  unfold Strand.transport at h
  split at h
  · simp only [Except.ok.injEq] at h; rw [h]
  · split at h
    · cases h
    · rename_i h1
      simp only [Except.ok.injEq] at h
      rw [← h, Strand.land_sansQueues, Strand.reserveQ_sansQueues h1]

theorem SWord.sansQueues {s : State} {op : SOp} {h : Hdr} {b : SBody} {x y z : Word} {t : Strand}
    (w : SWord s op h b x y z t) : t.sansQueues = (s.acting (.s op h b)).t.sansQueues := by
  obtain ⟨t1, h1, h2⟩ := w.reads
  rw [Strand.transport_sansQueues h2, Strand.readOpds_sansQueues h1]

/-- The operation of an S word is its own part on the operands read. -/
theorem SWord.sOp {s : State} {op : SOp} {h : Hdr} {b : SBody} {x y z : Word} {t : Strand}
    (w : SWord s op h b x y z t) (f : Word → Word → Word → Operation) :
    sOp op h b f (s.acting (.s op h b)) = f x y z (s.reading (.s op h b) t) := by
  obtain ⟨t1, h1, h2⟩ := w.reads
  unfold Machine.sOp
  rw [h1]
  simp only [h2]
  have hc : (s.acting (.s op h b)).cur = s.cur := State.begun_cur s _ _ _
  rw [hc]
  rfl

@[simp] theorem State.reading_t (s : State) (v : View) (t : Strand) : (s.reading v t).t = t := by
  have h := State.t_setStrand (s.acting v) t
  rw [show (s.acting v).cur = s.cur from State.begun_cur s _ _ _] at h
  exact h

theorem State.reading_upd (s : State) (v : View) (t : Strand) (f : Strand → Strand) :
    (s.reading v t).upd f = s.reading v (f t) := by
  have h := State.upd_setStrand (s.acting v) t f
  rw [show (s.acting v).cur = s.cur from State.begun_cur s _ _ _] at h
  exact h

theorem SWord.smode {s : State} {op : SOp} {h : Hdr} {b : SBody} {x y z : Word} {t : Strand}
    (w : SWord s op h b x y z t) : t.ctx.smode = s.t.ctx.smode := by
  have e := congrArg (fun u : Strand => u.ctx.smode) w.sansQueues
  have e1 : (s.acting (.s op h b)).t.ctx = s.t.ctx := State.begun_t_ctx s _ _ _
  have e2 : t.ctx.smode = (s.acting (.s op h b)).t.ctx.smode := e
  rw [e2, e1]

theorem SWord.p {s : State} {op : SOp} {h : Hdr} {b : SBody} {x y z : Word} {t : Strand}
    (w : SWord s op h b x y z t) : t.ctx.p = s.t.ctx.p := by
  have e := congrArg (fun u : Strand => u.ctx.p) w.sansQueues
  have e1 : (s.acting (.s op h b)).t.ctx = s.t.ctx := State.begun_t_ctx s _ _ _
  have e2 : t.ctx.p = (s.acting (.s op h b)).t.ctx.p := e
  rw [e2, e1]

theorem SWord.predOpd {s : State} {op : SOp} {h : Hdr} {b : SBody} {x y z : Word} {t : Strand}
    (w : SWord s op h b x y z t) (o : Opd) : t.predOpd o = s.t.predOpd o := by
  unfold Strand.predOpd Strand.pred
  rw [w.p]

theorem Quietly.noHints {s : State} {v : View} (q : Quietly s v) {d : Done} (hd : d.s.t.dbg = s.t.dbg) :
    d.s.t.dbg = false ∨ d.hints v = 0 := by
  rcases q.hints with h | ⟨h1, h2⟩
  · left; rw [hd, h]
  · right; simp [Done.hints, h1, h2]

theorem Strand.land_awaits (t : Strand) (lat : Nat) (effs : List Eff) (fl : Nat) :
    (t.land lat effs fl).awaitsOwn = true := by
  unfold Strand.land Strand.addLanding Strand.awaitsOwn
  split
  · rename_i h
    simp [h, show ({ t with hpend := t.hpend ++ [{ id := 0, seq := t.seq, due := t.clock + lat, effs := effs, flags := fl }] } :
      Strand).frozen = t.frozen from rfl]
  · rename_i h
    simp [h, show ({ t with pend := t.pend ++ [{ id := 0, seq := t.seq, due := t.clock + lat, effs := effs, flags := fl }] } :
      Strand).frozen = t.frozen from rfl]

theorem Strand.land_ctx (t : Strand) (lat : Nat) (effs : List Eff) (fl : Nat) : (t.land lat effs fl).ctx = t.ctx := by
  unfold Strand.land Strand.addLanding; split <;> rfl

/-- An S word whose own part lands one result leaves what `State.lands` says; `t1` is the strand with its draws taken. -/
theorem SWord.issue_lands {s : State} {op : SOp} {h : Hdr} {b : SBody} {x y z : Word} {t t1 : Strand}
    (w : SWord s op h b x y z t) {f : Word → Word → Word → Operation} {lat : Nat} {effs : List Eff} {fl : Nat}
    (hm : t1.ctx.smode = t.ctx.smode)
    (hf : f x y z (s.reading (.s op h b) t) = .ok { s := s.reading (.s op h b) (t1.land lat effs fl) }) :
    issueS op h b f s = .next (s.lands (.s op h b) t1 lat effs fl) := by
  unfold issueS
  congr 1
  apply State.issue_ready w.ready
  · rw [w.sOp, hf]
  · refine ⟨.inl rfl, w.quiet.noHints ?_, .inr (.inr (.inl ⟨rfl, ?_⟩))⟩
    · simp only [State.reading_t, Strand.dbg, Strand.land_ctx, hm, w.smode]
    · simp only [State.reading_t, Strand.land_awaits]

theorem SWord.issue_landS {s : State} {op : SOp} {h : Hdr} {b : SBody} {x y z : Word} {t : Strand}
    (w : SWord s op h b x y z t) {f : Word → Word → Word → Operation} {lat : Nat} {e : Eff} {fl : Nat}
    (hf : f x y z (s.reading (.s op h b) t) = landS lat e fl (s.reading (.s op h b) t)) :
    issueS op h b f s = .next (s.lands (.s op h b) t lat [e] fl) := by
  apply w.issue_lands rfl
  rw [hf, landS, State.reading_upd]

theorem SDoes.sOp {s : State} {op : SOp} {h : Hdr} {b : SBody} {x y z : Word} {t : Strand} {d : Done}
    (w : SDoes s op h b x y z t d) (f : Word → Word → Word → Operation) :
    Machine.sOp op h b f (s.acting (.s op h b)) = f x y z (s.reading (.s op h b) t) := by
  obtain ⟨t1, h1, h2⟩ := w.reads
  unfold Machine.sOp
  rw [h1]
  simp only [h2]
  have hc : (s.acting (.s op h b)).cur = s.cur := State.begun_cur s _ _ _
  rw [hc]
  rfl

/-- An S word whose own part answers `d` leaves what `Done.after` says. -/
theorem SDoes.issue {s : State} {op : SOp} {h : Hdr} {b : SBody} {x y z : Word} {t : Strand} {d : Done}
    (w : SDoes s op h b x y z t d) {f : Word → Word → Word → Operation}
    (hf : f x y z (s.reading (.s op h b) t) = .ok d) : issueS op h b f s = .next (d.after (.s op h b)) := by
  unfold issueS
  congr 1
  exact State.issue_ready w.ready (by rw [w.sOp, hf]) w.quiet

/-! Timed scratchpad accesses. -/

theorem TimedOk.check {s : State} {cls n : Nat} {e : Int} {wr : Bool} (k : TimedOk s cls e n wr) :
    s.t.timedCheck e n 0 = .ok e.toNat := by
  unfold Strand.timedCheck
  rw [if_neg (by
    have h1 := k.lo; have h2 := k.hi; unfold spadBytes
    rintro (h | h)
    · omega
    · omega), k.banks, if_neg (by decide), if_neg (fun h => h k.align)]

theorem TimedOk.pure {s : State} {cls n : Nat} {e : Int} (k : TimedOk s cls e n false) :
    s.poisonCheck e.toNat n = .ok () := by
  unfold State.poisonCheck
  rcases k.poison with h | h
  · cases h
  · rw [h]

/-- A timed load that may be made lands its bytes in `ll` at k + 4 (R120). -/
theorem TimedOk.load {s : State} {cls n : Nat} {e : Int} (k : TimedOk s cls e n false) :
    loadTimed cls n e s = landS 4 (.ll (BitVec.ofNat 64 (s.spadNum e.toNat n))) 0 s := by
  unfold loadTimed
  rw [k.check]
  simp only [k.gate, k.pure]

/-- A timed store that may be made writes its bytes at issue (R120). -/
theorem TimedOk.store {s : State} {cls n : Nat} {e : Int} (k : TimedOk s cls e n true) (v : Word) :
    storeTimed cls n e v s = .ok { s := s.spadStore e.toNat (leBytes n v.toNat) } := by
  unfold storeTimed
  rw [k.check]
  simp only [k.gate]

end Sys2Proof.Machine
end

