-- ==== Sys2Proof/Laws/Matrix.lean ====
section
/-! SUPPORT. The issue of timed M words and of commands: the state that each leaves once its gates let it go (R181, R183,
R200, R204). -/

namespace Sys2Proof.Machine

theorem State.draw_eq (s : State) (m : Rnd) (n : Nat) :
    s.draw m n = (s.t.draws m n, if m = .rs then s.upd fun t => t.drawn m n else s) := by
  unfold State.draw Strand.draws
  split
  · rename_i h
    simp only [Prod.mk.injEq, true_and]
    unfold State.upd Strand.drawn
    simp [h]
  · rfl

/-- Draws taken, then a change of the strand that may use them. -/
theorem State.draw_upd (s : State) (m : Rnd) (n : Nat) (f : Strand → Strand) :
    (s.draw m n).2.upd f = s.setStrand s.cur (f (s.t.drawn m n)) := by
  rw [State.draw_eq]
  simp only
  split
  · rename_i h
    have : s.upd (fun t => t.drawn m n) = s.setStrand s.cur (s.t.drawn m n) := rfl
    rw [this, State.upd_setStrand]
  · rename_i h
    unfold Strand.drawn
    rw [if_neg h]
    rfl

theorem Strand.drawn_seq (t : Strand) (m : Rnd) (n : Nat) : (t.drawn m n).seq = t.seq := by
  unfold Strand.drawn; split <;> rfl
theorem Strand.drawn_mpend (t : Strand) (m : Rnd) (n : Nat) : (t.drawn m n).mpend = t.mpend := by
  unfold Strand.drawn; split <;> rfl
theorem Strand.drawn_accIss (t : Strand) (m : Rnd) (n : Nat) : (t.drawn m n).accIss = t.accIss := by
  unfold Strand.drawn; split <;> rfl
theorem Strand.drawn_timed (t : Strand) (m : Rnd) (n : Nat) : (t.drawn m n).timed = t.timed := by
  unfold Strand.drawn; split <;> rfl

/-- A timed M word whose gates let it go takes its place in the array's order. -/
theorem mIssue_ok {s : State} {h : Hdr} {i : Instr} {rnd : Rnd} {p : MPlan} {own : Except Stop Unit}
    (hg : s.mGate (Nat.max s.t.ctx.sclk s.t.mEnd) p own = .ok ()) : mIssue h i rnd p own s = .ok (s.timedWord h i rnd p) := by
  unfold mIssue
  simp only
  rw [hg]
  simp only
  unfold State.timedWord
  rw [State.draw_upd]
  have h1 : (s.draw rnd p.draws).1 = s.t.draws rnd p.draws := by rw [State.draw_eq]
  simp only [h1, Strand.drawn_seq, Strand.drawn_mpend, Strand.drawn_accIss, Strand.drawn_timed]
  rfl

/-- A command whose edges, footprint and tracker slot let it go, whose translations are at hand and in which debug mode finds no
TRK without a footprint, is issued (R31, R33, R200, R204). -/
theorem issueGated_ok {s : State} {h : Hdr} {a : Async} {k : State → State} {gate : List FpRange} {pas : Except Stop Unit}
    {slot hints : Nat} (hg : s.t.footGate s.core h.trk.val gate = .ok (slot, hints))
    (ht : s.t.dbg = false ∨ gate ≠ [] ∨ h.trk.val = 0) (hp : pas = .ok ()) :
    issueGated h a k gate pas s = .ok { own := true, trk := slot != 0, s := k (s.commanded h a slot hints) } := by
  have hn : (s.t.dbg && gate.isEmpty && h.trk.val != 0) = false := by
    rcases ht with h1 | h1 | h1
    · simp [h1]
    · cases gate with
      | nil => exact absurd rfl h1
      | cons _ _ => simp
    · simp [h1]
  unfold issueGated
  rw [hg]
  simp only [hn, hp]
  unfold State.commanded
  cases hc : a.chan with
  | none => simp
  | some ch =>
    simp only [Option.getD_some]
    by_cases hf : 32 ≤ inChannel s.t.asyncs ch
    · simp [hf]
    · simp [hf]

end Sys2Proof.Machine
end

