-- ==== Sys2Proof/Laws/Commands.lean ====
section
/-! SUPPORT. What the shared operations of the S and C classes leave once nothing stops them: operands, calls, and commands
over ranges. -/

set_option linter.unusedVariables false

namespace Sys2Proof.Machine

/-- An S word that reads its operands acts on their values (R43, R92). -/
theorem sOp_ok {s : State} {op : SOp} {h : Hdr} {b : SBody} {x y z : Word} {t : Strand}
    (hr : ∃ t1, (s.acting (.s op h b)).t.readOpds .s (immVal b.ty b.imm) (sSlots op h b) = .ok ([x, y, z], t1) ∧
      t1.transport b = .ok t) (f : Word → Word → Word → Operation) :
    sOp op h b f (s.acting (.s op h b)) = f x y z (s.reading (.s op h b) t) := by
  obtain ⟨t1, h1, h2⟩ := hr
  unfold Machine.sOp
  rw [h1]
  simp only [h2]
  have hc : (s.acting (.s op h b)).cur = s.cur := State.begun_cur s _ _ _
  rw [hc]
  rfl

/-- A call whose frame fits writes the link word, lowers `ssp` and goes on at its target (R128). -/
theorem callOp_ok {s : State} {f target : Nat} (hf : s.t.ctx.ssp.toNat % 8 = 0 ∧
    (s.t.ctx.slim.toNat : Int) ≤ (s.t.ctx.ssp.toNat : Int) - f) (k : TimedOk s 0 ((s.t.ctx.ssp.toNat : Int) - f) 8 true) :
    callOp f target s = .ok { s := (s.spadStore ((s.t.ctx.ssp.toNat : Int) - f).toNat (leBytes 8 ((s.t.ctl .s).idx + f * 2 ^ 14))).upd (fun t => (t.updCtx fun c => { c with ssp := BitVec.ofNat 64 ((s.t.ctx.ssp.toNat : Int) - f).toNat }).jump .s target) } := by
  unfold callOp
  simp only
  rw [if_neg (by simpa using hf.1), if_neg (by
    have h1 := k.lo; have h2 := k.hi; unfold spadBytes
    rintro (h | h) <;> omega), k.banks, if_neg (by decide), if_neg (by have := hf.2; omega), k.gate]

/-- The operands of a class C word read in slot order, then its command on their values (R43, R197). -/
theorem cOperands_ok {s : State} {h : Hdr} {b : CBody} {w x y z : Word} {t : Strand} {op : COp} {v : View} (k : List Nat → Operation)
   (hro : let f := op.form
      let use (st : OpSet) (o : Opd) : Opd := match st with | .sc => o | .nv => o | _ => .zero
      (s.acting v).t.readOpds .c (b.imm.setWidth 64)
        [(use f.a b.a, h.peekA), (use f.b b.b, h.peekB), (use f.c b.c, h.peekC),
         (if f.flag && b.fw then b.d else use f.d b.d, h.peekD)] = .ok ([w, x, y, z], t)) :
   cOperands op.form h b k (s.acting v) = k [w.toNat, x.toNat, y.toNat, z.toNat] ((s.acting v).setStrand s.cur t) := by
  have hc : (s.acting v).cur = s.cur := State.begun_cur s _ _ _
  unfold cOperands
  simp only
  simp only at hro
  split
  · rename_i e he
    have := he.symm.trans hro; cases this
  · rename_i vs t1 he
    have := he.symm.trans hro
    cases this
    rw [hc]; rfl

theorem State.acting_setStrand_t {s : State} {v : View} {t : Strand} : ((s.acting v).setStrand s.cur t).t = t := by
  have hc : (s.acting v).cur = s.cur := State.begun_cur s _ _ _
  rw [← hc, State.t_setStrand]

/-- A command over ranges whose footprint the gate lets pass takes its channel's next place (R199, R200, R204). -/
theorem rangeCommand_ok {s : State} {h : Hdr} {b : CBody} {flag : Option (Nat × Nat)} {size n : Nat} {rs : List Range} {a : Async} {slot hints : Nat}
   (hn : n ≠ 0) (ht : s.rangesTranslate rs = .ok ())
   (hg : s.t.footGate s.core h.trk.val ((rs.flatMap fun r => footRange s.core r.e r.n (r.kind != .read)) ++ a.fp ++ flagRange s.core flag size) = .ok (slot, hints))
   (hk : s.t.dbg = false ∨ ((rs.flatMap fun r => footRange s.core r.e r.n (r.kind != .read)) ++ a.fp ++ flagRange s.core flag size) ≠ [] ∨
     h.trk.val = 0) :
   rangeCommand h b flag size n rs a s = .ok
        { own := true, trk := slot != 0
          s := let c := s.commanded h { a with
            eng := .c, cls := b.oc.val, chan := some b.ch.val, flag := flag
            fp := (rs.flatMap fun r => footRange s.core r.e r.n (r.kind != .read)) ++ a.fp ++ flagRange s.core flag size
            level := (rs.map fun r => s.windowLevel r.e).foldl Nat.min 5 } slot hints
               if rs.any fun r => r.kind != .read && s.reachesOut r.e r.n then c.markEdge else c } := by
  unfold rangeCommand
  rw [if_neg hn]
  simp only
  rw [issueGated_ok hg hk ht]

/-- A command of a count of 0 completes at issue, with its flag word alone, which is its footprint (R200, R203, R204). -/
theorem rangeCommand_zero {s : State} {h : Hdr} {b : CBody} {flag : Option (Nat × Nat)} {size n : Nat} {rs : List Range} {a : Async}
   {slot hints : Nat} (hn : n = 0) (hg : s.t.footGate s.core h.trk.val (flagRange s.core flag size) = .ok (slot, hints)) :
   rangeCommand h b flag size n rs a s = .ok
      (let hinted := s.upd fun t => { t with hmis := t.hmis + BitVec.ofNat 64 hints }
      let c1 := (hinted.takeXid b.ch.val).2
      let done := c1.updCore s.core fun k =>
        { k with chans := mset b.ch.val ((c1.chan s.core b.ch.val).complete (hinted.takeXid b.ch.val).1) k.chans }
      ({ trk := slot != 0, s := match flag with | some p => done.chipWrite s.core p.1 (leBytes size p.2) | none => done } : Done)) := by
  unfold rangeCommand
  rw [if_pos hn]
  unfold finishNow
  simp only
  rw [hg]
  cases flag <;> rfl

end Sys2Proof.Machine
end

