-- ==== Sys2Proof/Laws/Memory.lean ====
section
/-! SUPPORT. The canonical form of a memory: what it says of the cells, and that every operation on a memory keeps it: a
write of bytes, a channel's move, and the cells that a reset leaves. -/

namespace Sys2Proof.Machine

/-- The form in terms of lists: addresses rise strictly, and no cell holds what an unlisted address reads as. -/
theorem Memory.wf_iff (m : List Host.Cell) :
    Memory.wf m = true ↔ m.Pairwise (fun c d => c.1 < d.1) ∧ ∀ c ∈ m, c.2 ≠ unlisted := by
  induction m with
  | nil => simp [Memory.wf]
  | cons c r ih =>
    obtain ⟨a, b⟩ := c
    cases r with
    | nil => simp [Memory.wf]
    | cons d r' =>
      have e : Memory.wf ((a, b) :: d :: r') = (b != unlisted && decide (a < d.1) && Memory.wf (d :: r')) := rfl
      rw [e, Bool.and_eq_true, Bool.and_eq_true, ih]
      constructor
      · rintro ⟨⟨hb, hd⟩, hp, hc⟩
        have hlt : a < d.1 := of_decide_eq_true hd
        refine ⟨List.pairwise_cons.mpr ⟨?_, hp⟩, ?_⟩
        · intro x hx
          rcases List.mem_cons.mp hx with rfl | hx
          · exact hlt
          · exact Nat.lt_trans hlt ((List.pairwise_cons.mp hp).1 x hx)
        · intro x hx
          rcases List.mem_cons.mp hx with rfl | hx
          · simpa using hb
          · exact hc x hx
      · rintro ⟨hq, hc⟩
        obtain ⟨hlt, hp⟩ := List.pairwise_cons.mp hq
        refine ⟨⟨by simpa using hc (a, b) (List.mem_cons_self ..), decide_eq_true (hlt d (List.mem_cons_self ..))⟩, hp, ?_⟩
        intro x hx
        exact hc x (List.mem_cons_of_mem _ hx)

/-- The cells of bytes written lie where they were written, in order, none of them unlisted. -/
theorem cellRun_spec (bs : List Byte) : ∀ a : Nat, (cellRun a bs).Pairwise (fun c d => c.1 < d.1) ∧
    ∀ c ∈ cellRun a bs, a ≤ c.1 ∧ c.1 < a + bs.length ∧ c.2 ≠ unlisted := by
  induction bs with
  | nil => intro a; simp [cellRun]
  | cons b bs ih =>
    intro a
    obtain ⟨h1, h2⟩ := ih (a + 1)
    unfold cellRun
    split
    · refine ⟨h1, fun c hc => ?_⟩
      obtain ⟨x, y, z⟩ := h2 c hc
      simp only [List.length_cons]
      exact ⟨by omega, by omega, z⟩
    · rename_i hb
      refine ⟨List.pairwise_cons.mpr ⟨fun c hc => ?_, h1⟩, fun c hc => ?_⟩
      · have := (h2 c hc).1; simp only; omega
      · rcases List.mem_cons.mp hc with rfl | hc
        · simp only [List.length_cons]; exact ⟨Nat.le_refl _, by omega, hb⟩
        · obtain ⟨x, y, z⟩ := h2 c hc
          simp only [List.length_cons]
          exact ⟨by omega, by omega, z⟩

/-- A part of a memory in canonical form is in canonical form. -/
theorem Memory.wf_filter {m : List Host.Cell} (h : Memory.wf m = true) (p : Host.Cell → Bool) :
    Memory.wf (m.filter p) = true := by
  rw [Memory.wf_iff] at h ⊢
  exact ⟨h.1.filter p, fun c hc => h.2 c (List.mem_filter.mp hc).1⟩

/-- Parts one above the other. -/
theorem Memory.wf_append {m n : List Host.Cell} (hm : Memory.wf m = true) (hn : Memory.wf n = true)
    (h : ∀ c ∈ m, ∀ d ∈ n, c.1 < d.1) : Memory.wf (m ++ n) = true := by
  rw [Memory.wf_iff] at hm hn ⊢
  refine ⟨List.pairwise_append.mpr ⟨hm.1, hn.1, h⟩, fun c hc => ?_⟩
  rcases List.mem_append.mp hc with hc | hc
  · exact hm.2 c hc
  · exact hn.2 c hc

theorem Memory.wf_run (a : Nat) (bs : List Byte) : Memory.wf (cellRun a bs) = true := by
  rw [Memory.wf_iff]
  exact ⟨(cellRun_spec bs a).1, fun c hc => ((cellRun_spec bs a).2 c hc).2.2⟩

/-- Writing bytes keeps the form. -/
theorem Memory.wf_set {m : List Host.Cell} (h : Memory.wf m = true) (a : Nat) (bs : List Byte) :
    Memory.wf (cellsSet m a bs) = true := by
  unfold cellsSet
  rw [List.append_assoc]
  apply Memory.wf_append (Memory.wf_filter h _)
  · apply Memory.wf_append (Memory.wf_run a bs) (Memory.wf_filter h _)
    intro c hc d hd
    have h1 := ((cellRun_spec bs a).2 c hc).2.1
    have h2 := of_decide_eq_true (List.mem_filter.mp hd).2
    omega
  · intro c hc d hd
    have h1 := of_decide_eq_true (List.mem_filter.mp hc).2
    rcases List.mem_append.mp hd with hd | hd
    · have h2 := ((cellRun_spec bs a).2 d hd).1; omega
    · have h2 := of_decide_eq_true (List.mem_filter.mp hd).2; omega

/-- A space's memory after a write to a space. -/
theorem State.write_mem (s : State) (sp : Space) (a : Nat) (bs : List Byte) (sq : Space) :
    (s.write sp a bs).mem sq = if sq = sp then cellsSet (s.mem sp) (s.home sp a) bs else s.mem sq := by
  unfold State.write
  simp only
  split <;> cases sp <;> cases sq <;> rfl

/-- A write keeps the form of every space. -/
theorem State.write_wf {s : State} (h : ∀ sp, Memory.wf (s.mem sp) = true) (sp : Space) (a : Nat) (bs : List Byte) (sq : Space) :
    Memory.wf ((s.write sp a bs).mem sq) = true := by
  rw [State.write_mem]
  split
  · exact Memory.wf_set (h sp) _ _
  · exact h sq

/-- Poison marks are no cells. -/
theorem State.mark_mem (s : State) (sp : Space) (a : Nat) (sq : Space) : (s.mark sp a).mem sq = s.mem sq := by
  unfold State.mark
  simp only
  split
  · rfl
  · cases sp <;> cases sq <;> rfl

/-- Bytes moved between spaces keep the form. -/
theorem State.moveBytes_wf {s : State} (h : ∀ sp, Memory.wf (s.mem sp) = true) (src : Space) (a : Nat) (dst : Space) (b n : Nat)
    (sq : Space) : Memory.wf ((s.moveBytes src a dst b n).mem sq) = true := by
  unfold State.moveBytes
  simp only
  generalize (List.range n).filter _ = l
  suffices hl : ∀ t : State, (∀ sp, Memory.wf (t.mem sp) = true) →
      Memory.wf ((l.foldl (fun t i => t.mark dst (b + i)) t).mem sq) = true from hl _ fun sp => State.write_wf h _ _ _ _
  induction l with
  | nil => intro t ht; exact ht sq
  | cons i r ih =>
    intro t ht
    rw [List.foldl_cons]
    exact ih _ fun sp => by rw [State.mark_mem]; exact ht sp

theorem takeWhile_mem {m : List Host.Cell} {p : Host.Cell → Bool} {c : Host.Cell} (h : c ∈ m.takeWhile p) : c ∈ m ∧ p c = true := by
  induction m with
  | nil => simp at h
  | cons d r ih =>
    rw [List.takeWhile_cons] at h
    split at h
    · rename_i hd
      rcases List.mem_cons.mp h with rfl | h
      · exact ⟨List.mem_cons_self .., hd⟩
      · exact ⟨List.mem_cons_of_mem _ (ih h).1, (ih h).2⟩
    · simp at h

theorem dropWhile_mem {m : List Host.Cell} {b : Nat} {c : Host.Cell} (hw : m.Pairwise (fun c d => c.1 < d.1))
    (h : c ∈ m.dropWhile fun c => decide (c.1 < b)) : c ∈ m ∧ b ≤ c.1 := by
  induction m with
  | nil => simp at h
  | cons d r ih =>
    rw [List.dropWhile_cons] at h
    obtain ⟨h1, h2⟩ := List.pairwise_cons.mp hw
    split at h
    · exact ⟨List.mem_cons_of_mem _ (ih h2 h).1, (ih h2 h).2⟩
    · rename_i hd
      simp only [decide_eq_true_eq] at hd
      rcases List.mem_cons.mp h with rfl | h'
      · exact ⟨List.mem_cons_self .., by omega⟩
      · exact ⟨List.mem_cons_of_mem _ h', by have := h1 c h'; omega⟩

theorem Memory.wf_sub {m n : List Host.Cell} (h : Memory.wf m = true) (hs : n.Sublist m) : Memory.wf n = true := by
  rw [Memory.wf_iff] at h ⊢
  exact ⟨h.1.sublist hs, fun c hc => h.2 c (hs.subset hc)⟩

/-- A channel moved over its donor keeps the form (R372). -/
theorem Memory.wf_move {m : List Host.Cell} (h : Memory.wf m = true) (ch donor : Nat) :
    Memory.wf (moveChannel m ch donor) = true := by
  unfold moveChannel
  simp only
  generalize hr : m.filter _ = rest
  generalize hi : m.filter (fun c : Host.Cell => decide (channelAddr ch 0 ≤ c.1) && decide (c.1 < channelAddr ch 0 + channelBytes)) = ins
  have wr : Memory.wf rest = true := hr ▸ Memory.wf_filter h _
  have wi : Memory.wf ins = true := hi ▸ Memory.wf_filter h _
  have hin : ∀ c ∈ ins, channelAddr ch 0 ≤ c.1 ∧ c.1 < channelAddr ch 0 + channelBytes := by
    intro c hc
    rw [← hi] at hc
    have := (List.mem_filter.mp hc).2
    simpa using this
  have hout : ∀ c ∈ rest, ¬ (channelAddr donor 0 ≤ c.1 ∧ c.1 < channelAddr donor 0 + channelBytes) := by
    intro c hc
    rw [← hr] at hc
    have := (List.mem_filter.mp hc).2
    simp only [Bool.and_eq_true, Bool.not_eq_true', Bool.and_eq_false_imp, decide_eq_true_eq, decide_eq_false_iff_not] at this
    intro hh
    exact this.2 hh.1 hh.2
  have wm : Memory.wf (ins.map fun c => (c.1 - channelAddr ch 0 + channelAddr donor 0, c.2)) = true := by
    rw [Memory.wf_iff] at wi ⊢
    refine ⟨?_, ?_⟩
    · rw [List.pairwise_map]
      refine wi.1.imp_of_mem ?_
      intro c d hc hd hlt
      have h1 := hin c hc
      have h2 := hin d hd
      simp only
      omega
    · intro c hc
      obtain ⟨d, hd, rfl⟩ := List.mem_map.mp hc
      exact wi.2 d hd
  have hm : ∀ c ∈ ins.map (fun c => (c.1 - channelAddr ch 0 + channelAddr donor 0, c.2)),
      channelAddr donor 0 ≤ c.1 ∧ c.1 < channelAddr donor 0 + channelBytes := by
    intro c hc
    obtain ⟨d, hd, rfl⟩ := List.mem_map.mp hc
    have := hin d hd
    simp only
    omega
  have hsort := ((Memory.wf_iff rest).mp wr).1
  have hdrop : ∀ c ∈ rest.dropWhile (fun c => decide (c.1 < channelAddr donor 0)), channelAddr donor 0 + channelBytes ≤ c.1 := by
    intro c hc
    obtain ⟨h1, h2⟩ := dropWhile_mem hsort hc
    have := hout c h1
    omega
  rw [List.append_assoc]
  apply Memory.wf_append (Memory.wf_sub wr (List.takeWhile_sublist _))
  · apply Memory.wf_append wm (Memory.wf_sub wr (List.dropWhile_sublist _))
    intro c hc d hd
    have h1 := hm c hc
    have h2 := hdrop d hd
    omega
  · intro c hc d hd
    have h1 := of_decide_eq_true (takeWhile_mem hc).2
    rcases List.mem_append.mp hd with hd | hd
    · have h2 := hm d hd; omega
    · have h2 := hdrop d hd; omega

/-- The cells that a partition reset leaves are in canonical form (R377). -/
theorem State.clearCores_wf {s : State} (h : ∀ sp, Memory.wf (s.mem sp) = true) (v : Nat) (sp : Space) :
    Memory.wf ((s.clearCores v).mem sp) = true := by
  cases sp
  · exact Memory.wf_filter (h .chip) _
  · exact h .dram
  · exact h .host
  · exact h .peer

/-- A package reset leaves canonical memories (R386). -/
theorem State.restart_wf {s : State} (h : ∀ sp, Memory.wf (s.mem sp) = true) (cause : Nat) (stks : List (Nat × Stk)) (sp : Space) :
    Memory.wf ((s.restart cause stks).mem sp) = true := by
  cases sp
  · rfl
  · rfl
  · exact h .host
  · exact h .peer

/-! What a memory reads as after a write. -/

/-- An address that no cell lists reads as unlisted. -/
theorem cellAt_of_not_mem {m : List Host.Cell} {x : Nat} (h : ∀ c ∈ m, c.1 ≠ x) : cellAt m x = unlisted := by
  induction m with
  | nil => rfl
  | cons c r ih =>
    obtain ⟨a, b⟩ := c
    have hne : x ≠ a := fun e => h (a, b) (List.mem_cons_self ..) e.symm
    simp only [cellAt, if_neg hne]
    exact ih fun c hc => h c (List.mem_cons_of_mem _ hc)

/-- A byte of two memories joined is the first's if the first lists the address. -/
theorem cellAt_append (m n : List Host.Cell) (x : Nat) :
    cellAt (m ++ n) x = if ∃ c ∈ m, c.1 = x then cellAt m x else cellAt n x := by
  induction m with
  | nil => simp
  | cons c r ih =>
    obtain ⟨a, b⟩ := c
    simp only [List.cons_append, cellAt]
    by_cases e : x = a
    · simp [e]
    · have e' : a ≠ x := fun h => e h.symm
      simp only [if_neg e, ih, List.mem_cons, exists_eq_or_imp, e', false_or]

/-- What a part of a memory reads as at an address that it keeps or drops alike. -/
theorem cellAt_filter (m : List Host.Cell) (p : Nat → Bool) (x : Nat) :
    cellAt (m.filter fun c => p c.1) x = if p x then cellAt m x else unlisted := by
  induction m with
  | nil => simp [cellAt]
  | cons c r ih =>
    obtain ⟨a, b⟩ := c
    by_cases hp : p a = true
    · rw [List.filter_cons_of_pos (by simpa using hp)]
      simp only [cellAt]
      by_cases e : x = a
      · simp [e, hp]
      · simp only [if_neg e, ih]
    · rw [List.filter_cons_of_neg (by simpa using hp), ih]
      simp only [cellAt]
      by_cases e : x = a
      · simp [e, hp]
      · simp only [if_neg e]

/-- What the cells of bytes written read as. -/
theorem cellAt_run (bs : List Byte) : ∀ a x : Nat, cellAt (cellRun a bs) x = if a ≤ x then bs.getD (x - a) unlisted else unlisted := by
  induction bs with
  | nil => intro a x; simp [cellRun, cellAt]
  | cons b bs ih =>
    intro a x
    have hs : x ≠ a → (if a + 1 ≤ x then bs.getD (x - (a + 1)) unlisted else unlisted) =
        (if a ≤ x then (b :: bs).getD (x - a) unlisted else unlisted) := by
      intro e
      by_cases h : a ≤ x
      · rw [if_pos (by omega), if_pos h, show x - a = (x - (a + 1)) + 1 by omega]; rfl
      · rw [if_neg (by omega), if_neg h]
    unfold cellRun
    split
    · rename_i hb
      rw [ih]
      by_cases e : x = a
      · subst e; rw [if_neg (by omega), if_pos (Nat.le_refl _), Nat.sub_self, List.getD_cons_zero, hb]
      · exact hs e
    · simp only [cellAt]
      by_cases e : x = a
      · subst e; simp
      · rw [if_neg e, ih]; exact hs e

/-- A byte after bytes have been written. -/
theorem cellAt_set (m : List Host.Cell) (a : Nat) (bs : List Byte) (x : Nat) :
    cellAt (cellsSet m a bs) x = if a ≤ x ∧ x < a + bs.length then bs.getD (x - a) unlisted else cellAt m x := by
  unfold cellsSet
  rw [cellAt_append, cellAt_append, cellAt_filter m (fun y => decide (y < a)), cellAt_filter m (fun y => decide (a + bs.length ≤ y)), cellAt_run]
  split
  · rename_i h
    split
    · rename_i h2
      obtain ⟨c, hc, rfl⟩ := h2
      have := of_decide_eq_true (List.mem_filter.mp hc).2
      rw [if_pos (by simpa using this), if_neg (by omega)]
    · rename_i h2
      obtain ⟨c, hc, rfl⟩ := h
      rcases List.mem_append.mp hc with hc | hc
      · exact absurd ⟨c, hc, rfl⟩ h2
      · obtain ⟨x1, x2, -⟩ := (cellRun_spec bs a).2 c hc
        rw [if_pos x1, if_pos ⟨x1, x2⟩]
  · rename_i h
    by_cases h1 : x < a
    · have hm : cellAt m x = unlisted := cellAt_of_not_mem fun c hc e =>
        h ⟨c, List.mem_append_left _ (List.mem_filter.mpr ⟨hc, by simpa using e ▸ h1⟩), e⟩
      rw [hm]; split <;> split <;> first | rfl | omega
    · by_cases h2 : x < a + bs.length
      · have hz : cellAt (cellRun a bs) x = unlisted := cellAt_of_not_mem fun c hc e => h ⟨c, List.mem_append_right _ hc, e⟩
        rw [cellAt_run, if_pos (by omega)] at hz
        rw [if_neg (by simp; omega), if_pos ⟨by omega, h2⟩, hz]
      · rw [if_pos (by simp; omega), if_neg (by omega)]

/-- The bytes that a read gives, one by one. -/
theorem cellsFrom_getD (n : Nat) : ∀ (m : List Host.Cell) (a i : Nat), m.Pairwise (fun c d => c.1 < d.1) → (∀ c ∈ m, a ≤ c.1) → i < n →
    (cellsFrom m a n).getD i unlisted = cellAt m (a + i) := by
  induction n with
  | zero => intro m a i _ _ h; omega
  | succ n ih =>
    intro m a i hp hl hi
    cases m with
    | nil =>
      cases i with
      | zero => rfl
      | succ i => simp only [cellsFrom, List.getD_cons_succ]; rw [ih [] (a + 1) i (by simp) (by simp) (by omega)]; rfl
    | cons c r =>
      obtain ⟨x, v⟩ := c
      obtain ⟨h1, h2⟩ := List.pairwise_cons.mp hp
      have hx : a ≤ x := hl (x, v) (List.mem_cons_self ..)
      simp only [cellsFrom]
      by_cases e : x = a
      · subst e
        rw [if_pos rfl]
        cases i with
        | zero => simp [cellAt]
        | succ i =>
          rw [List.getD_cons_succ, ih r (x + 1) i h2 (fun c hc => h1 c hc) (by omega)]
          simp only [cellAt]; rw [if_neg (by omega), show x + 1 + i = x + (i + 1) by omega]
      · rw [if_neg e]
        cases i with
        | zero =>
          rw [List.getD_cons_zero]
          refine (cellAt_of_not_mem fun c hc h => ?_).symm
          rcases List.mem_cons.mp hc with rfl | hc
          · simp at h; omega
          · have := h1 c hc; simp at this; omega
        | succ i =>
          rw [List.getD_cons_succ, ih _ (a + 1) i hp ?_ (by omega), show a + 1 + i = a + (i + 1) by omega]
          intro c hc
          rcases List.mem_cons.mp hc with rfl | hc
          · simp; omega
          · have := h1 c hc; simp at this; omega

theorem cellsFrom_length (n : Nat) : ∀ (m : List Host.Cell) (a : Nat), (cellsFrom m a n).length = n := by
  induction n with
  | zero => intro m a; cases m <;> rfl
  | succ n ih => intro m a; cases m with
    | nil => simp [cellsFrom, ih]
    | cons c r => simp only [cellsFrom]; split <;> simp [ih]

end Sys2Proof.Machine
end

