-- ==== Sys2Proof/Laws/PerInstr.lean ====
section
/-! SUPPORT. Per instruction: an instruction of the rings is the one that its view stands for, and its words are its view's
(R86 to R99). -/

set_option linter.unusedVariables false

/-- An instruction that has a view is the view's instruction, encoded as the view's words. -/
def Sys2Proof.Laws.Encoding.Statement (i : Sys2Proof.Instr) : Prop :=
  ∀ v, i.view = some v → v.instr = i ∧ Sys2Proof.encode i = v.words

theorem Sys2Proof.Laws.Encoding.nop (e : Sys2Proof.Cls) (h : Sys2Proof.Hdr) (g : Sys2Proof.Guard) : Sys2Proof.Laws.Encoding.Statement (.nop e h g) := by
  intro v h; cases h <;> exact ⟨rfl, rfl⟩
theorem Sys2Proof.Laws.Encoding.halt (e : Sys2Proof.Cls) (h : Sys2Proof.Hdr) (g : Sys2Proof.Guard) : Sys2Proof.Laws.Encoding.Statement (.halt e h g) := by
  intro v h; cases h <;> exact ⟨rfl, rfl⟩
theorem Sys2Proof.Laws.Encoding.lbr (e : Sys2Proof.Cls) (h : Sys2Proof.Hdr) (l : Sys2Proof.LoopBody) : Sys2Proof.Laws.Encoding.Statement (.lbr e h l) := by
  intro v h; cases h <;> exact ⟨rfl, rfl⟩
theorem Sys2Proof.Laws.Encoding.rlbr (e : Sys2Proof.Cls) (h : Sys2Proof.Hdr) (l : Sys2Proof.LoopBody) : Sys2Proof.Laws.Encoding.Statement (.rlbr e h l) := by
  intro v h; cases h <;> exact ⟨rfl, rfl⟩
theorem Sys2Proof.Laws.Encoding.brk (h : Sys2Proof.Hdr) (code : BitVec 16) : Sys2Proof.Laws.Encoding.Statement (.brk h code) := by
  intro v h; cases h <;> exact ⟨rfl, rfl⟩
theorem Sys2Proof.Laws.Encoding.add (h : Sys2Proof.Hdr) (b : Sys2Proof.SBody) : Sys2Proof.Laws.Encoding.Statement (.add h b) := by
  intro v h; cases h <;> exact ⟨rfl, rfl⟩
theorem Sys2Proof.Laws.Encoding.sub (h : Sys2Proof.Hdr) (b : Sys2Proof.SBody) : Sys2Proof.Laws.Encoding.Statement (.sub h b) := by
  intro v h; cases h <;> exact ⟨rfl, rfl⟩
theorem Sys2Proof.Laws.Encoding.and (h : Sys2Proof.Hdr) (b : Sys2Proof.SBody) : Sys2Proof.Laws.Encoding.Statement (.and h b) := by
  intro v h; cases h <;> exact ⟨rfl, rfl⟩
theorem Sys2Proof.Laws.Encoding.or (h : Sys2Proof.Hdr) (b : Sys2Proof.SBody) : Sys2Proof.Laws.Encoding.Statement (.or h b) := by
  intro v h; cases h <;> exact ⟨rfl, rfl⟩
theorem Sys2Proof.Laws.Encoding.xor (h : Sys2Proof.Hdr) (b : Sys2Proof.SBody) : Sys2Proof.Laws.Encoding.Statement (.xor h b) := by
  intro v h; cases h <;> exact ⟨rfl, rfl⟩
theorem Sys2Proof.Laws.Encoding.andn (h : Sys2Proof.Hdr) (b : Sys2Proof.SBody) : Sys2Proof.Laws.Encoding.Statement (.andn h b) := by
  intro v h; cases h <;> exact ⟨rfl, rfl⟩
theorem Sys2Proof.Laws.Encoding.shl (h : Sys2Proof.Hdr) (b : Sys2Proof.SBody) : Sys2Proof.Laws.Encoding.Statement (.shl h b) := by
  intro v h; cases h <;> exact ⟨rfl, rfl⟩
theorem Sys2Proof.Laws.Encoding.shr (h : Sys2Proof.Hdr) (b : Sys2Proof.SBody) : Sys2Proof.Laws.Encoding.Statement (.shr h b) := by
  intro v h; cases h <;> exact ⟨rfl, rfl⟩
theorem Sys2Proof.Laws.Encoding.sar (h : Sys2Proof.Hdr) (b : Sys2Proof.SBody) : Sys2Proof.Laws.Encoding.Statement (.sar h b) := by
  intro v h; cases h <;> exact ⟨rfl, rfl⟩
theorem Sys2Proof.Laws.Encoding.min (h : Sys2Proof.Hdr) (b : Sys2Proof.SBody) : Sys2Proof.Laws.Encoding.Statement (.min h b) := by
  intro v h; cases h <;> exact ⟨rfl, rfl⟩
theorem Sys2Proof.Laws.Encoding.max (h : Sys2Proof.Hdr) (b : Sys2Proof.SBody) : Sys2Proof.Laws.Encoding.Statement (.max h b) := by
  intro v h; cases h <;> exact ⟨rfl, rfl⟩
theorem Sys2Proof.Laws.Encoding.sel (h : Sys2Proof.Hdr) (b : Sys2Proof.SBody) : Sys2Proof.Laws.Encoding.Statement (.sel h b) := by
  intro v h; cases h <;> exact ⟨rfl, rfl⟩
theorem Sys2Proof.Laws.Encoding.li (h : Sys2Proof.Hdr) (b : Sys2Proof.SBody) : Sys2Proof.Laws.Encoding.Statement (.li h b) := by
  intro v h; cases h <;> exact ⟨rfl, rfl⟩
theorem Sys2Proof.Laws.Encoding.lih (h : Sys2Proof.Hdr) (b : Sys2Proof.SBody) : Sys2Proof.Laws.Encoding.Statement (.lih h b) := by
  intro v h; cases h <;> exact ⟨rfl, rfl⟩
theorem Sys2Proof.Laws.Encoding.clz (h : Sys2Proof.Hdr) (b : Sys2Proof.SBody) : Sys2Proof.Laws.Encoding.Statement (.clz h b) := by
  intro v h; cases h <;> exact ⟨rfl, rfl⟩
theorem Sys2Proof.Laws.Encoding.popc (h : Sys2Proof.Hdr) (b : Sys2Proof.SBody) : Sys2Proof.Laws.Encoding.Statement (.popc h b) := by
  intro v h; cases h <;> exact ⟨rfl, rfl⟩
theorem Sys2Proof.Laws.Encoding.ceq (h : Sys2Proof.Hdr) (b : Sys2Proof.SBody) : Sys2Proof.Laws.Encoding.Statement (.ceq h b) := by
  intro v h; cases h <;> exact ⟨rfl, rfl⟩
theorem Sys2Proof.Laws.Encoding.cne (h : Sys2Proof.Hdr) (b : Sys2Proof.SBody) : Sys2Proof.Laws.Encoding.Statement (.cne h b) := by
  intro v h; cases h <;> exact ⟨rfl, rfl⟩
theorem Sys2Proof.Laws.Encoding.clt (h : Sys2Proof.Hdr) (b : Sys2Proof.SBody) : Sys2Proof.Laws.Encoding.Statement (.clt h b) := by
  intro v h; cases h <;> exact ⟨rfl, rfl⟩
theorem Sys2Proof.Laws.Encoding.cle (h : Sys2Proof.Hdr) (b : Sys2Proof.SBody) : Sys2Proof.Laws.Encoding.Statement (.cle h b) := by
  intro v h; cases h <;> exact ⟨rfl, rfl⟩
theorem Sys2Proof.Laws.Encoding.ctst (h : Sys2Proof.Hdr) (b : Sys2Proof.SBody) : Sys2Proof.Laws.Encoding.Statement (.ctst h b) := by
  intro v h; cases h <;> exact ⟨rfl, rfl⟩
theorem Sys2Proof.Laws.Encoding.fceq (h : Sys2Proof.Hdr) (b : Sys2Proof.SBody) : Sys2Proof.Laws.Encoding.Statement (.fceq h b) := by
  intro v h; cases h <;> exact ⟨rfl, rfl⟩
theorem Sys2Proof.Laws.Encoding.fclt (h : Sys2Proof.Hdr) (b : Sys2Proof.SBody) : Sys2Proof.Laws.Encoding.Statement (.fclt h b) := by
  intro v h; cases h <;> exact ⟨rfl, rfl⟩
theorem Sys2Proof.Laws.Encoding.fcle (h : Sys2Proof.Hdr) (b : Sys2Proof.SBody) : Sys2Proof.Laws.Encoding.Statement (.fcle h b) := by
  intro v h; cases h <;> exact ⟨rfl, rfl⟩
theorem Sys2Proof.Laws.Encoding.fcun (h : Sys2Proof.Hdr) (b : Sys2Proof.SBody) : Sys2Proof.Laws.Encoding.Statement (.fcun h b) := by
  intro v h; cases h <;> exact ⟨rfl, rfl⟩
theorem Sys2Proof.Laws.Encoding.pand (h : Sys2Proof.Hdr) (b : Sys2Proof.SBody) : Sys2Proof.Laws.Encoding.Statement (.pand h b) := by
  intro v h; cases h <;> exact ⟨rfl, rfl⟩
theorem Sys2Proof.Laws.Encoding.por (h : Sys2Proof.Hdr) (b : Sys2Proof.SBody) : Sys2Proof.Laws.Encoding.Statement (.por h b) := by
  intro v h; cases h <;> exact ⟨rfl, rfl⟩
theorem Sys2Proof.Laws.Encoding.pxor (h : Sys2Proof.Hdr) (b : Sys2Proof.SBody) : Sys2Proof.Laws.Encoding.Statement (.pxor h b) := by
  intro v h; cases h <;> exact ⟨rfl, rfl⟩
theorem Sys2Proof.Laws.Encoding.ppack (h : Sys2Proof.Hdr) (b : Sys2Proof.SBody) : Sys2Proof.Laws.Encoding.Statement (.ppack h b) := by
  intro v h; cases h <;> exact ⟨rfl, rfl⟩
theorem Sys2Proof.Laws.Encoding.punpack (h : Sys2Proof.Hdr) (b : Sys2Proof.SBody) : Sys2Proof.Laws.Encoding.Statement (.punpack h b) := by
  intro v h; cases h <;> exact ⟨rfl, rfl⟩
theorem Sys2Proof.Laws.Encoding.mul (h : Sys2Proof.Hdr) (b : Sys2Proof.SBody) : Sys2Proof.Laws.Encoding.Statement (.mul h b) := by
  intro v h; cases h <;> exact ⟨rfl, rfl⟩
theorem Sys2Proof.Laws.Encoding.mulh (h : Sys2Proof.Hdr) (b : Sys2Proof.SBody) : Sys2Proof.Laws.Encoding.Statement (.mulh h b) := by
  intro v h; cases h <;> exact ⟨rfl, rfl⟩
theorem Sys2Proof.Laws.Encoding.mad (h : Sys2Proof.Hdr) (b : Sys2Proof.SBody) : Sys2Proof.Laws.Encoding.Statement (.mad h b) := by
  intro v h; cases h <;> exact ⟨rfl, rfl⟩
theorem Sys2Proof.Laws.Encoding.dp4 (h : Sys2Proof.Hdr) (b : Sys2Proof.SBody) : Sys2Proof.Laws.Encoding.Statement (.dp4 h b) := by
  intro v h; cases h <;> exact ⟨rfl, rfl⟩
theorem Sys2Proof.Laws.Encoding.fadd (h : Sys2Proof.Hdr) (b : Sys2Proof.SBody) : Sys2Proof.Laws.Encoding.Statement (.fadd h b) := by
  intro v h; cases h <;> exact ⟨rfl, rfl⟩
theorem Sys2Proof.Laws.Encoding.fsub (h : Sys2Proof.Hdr) (b : Sys2Proof.SBody) : Sys2Proof.Laws.Encoding.Statement (.fsub h b) := by
  intro v h; cases h <;> exact ⟨rfl, rfl⟩
theorem Sys2Proof.Laws.Encoding.fmul (h : Sys2Proof.Hdr) (b : Sys2Proof.SBody) : Sys2Proof.Laws.Encoding.Statement (.fmul h b) := by
  intro v h; cases h <;> exact ⟨rfl, rfl⟩
theorem Sys2Proof.Laws.Encoding.fma (h : Sys2Proof.Hdr) (b : Sys2Proof.SBody) : Sys2Proof.Laws.Encoding.Statement (.fma h b) := by
  intro v h; cases h <;> exact ⟨rfl, rfl⟩
theorem Sys2Proof.Laws.Encoding.fmin (h : Sys2Proof.Hdr) (b : Sys2Proof.SBody) : Sys2Proof.Laws.Encoding.Statement (.fmin h b) := by
  intro v h; cases h <;> exact ⟨rfl, rfl⟩
theorem Sys2Proof.Laws.Encoding.fmax (h : Sys2Proof.Hdr) (b : Sys2Proof.SBody) : Sys2Proof.Laws.Encoding.Statement (.fmax h b) := by
  intro v h; cases h <;> exact ⟨rfl, rfl⟩
theorem Sys2Proof.Laws.Encoding.fabs (h : Sys2Proof.Hdr) (b : Sys2Proof.SBody) : Sys2Proof.Laws.Encoding.Statement (.fabs h b) := by
  intro v h; cases h <;> exact ⟨rfl, rfl⟩
theorem Sys2Proof.Laws.Encoding.fneg (h : Sys2Proof.Hdr) (b : Sys2Proof.SBody) : Sys2Proof.Laws.Encoding.Statement (.fneg h b) := by
  intro v h; cases h <;> exact ⟨rfl, rfl⟩
theorem Sys2Proof.Laws.Encoding.cvt (h : Sys2Proof.Hdr) (b : Sys2Proof.SBody) : Sys2Proof.Laws.Encoding.Statement (.cvt h b) := by
  intro v h; cases h <;> exact ⟨rfl, rfl⟩
theorem Sys2Proof.Laws.Encoding.lds (h : Sys2Proof.Hdr) (b : Sys2Proof.SBody) : Sys2Proof.Laws.Encoding.Statement (.lds h b) := by
  intro v h; cases h <;> exact ⟨rfl, rfl⟩
theorem Sys2Proof.Laws.Encoding.sts (h : Sys2Proof.Hdr) (b : Sys2Proof.SBody) : Sys2Proof.Laws.Encoding.Statement (.sts h b) := by
  intro v h; cases h <;> exact ⟨rfl, rfl⟩
theorem Sys2Proof.Laws.Encoding.ldg (h : Sys2Proof.Hdr) (b : Sys2Proof.SBody) : Sys2Proof.Laws.Encoding.Statement (.ldg h b) := by
  intro v h; cases h <;> exact ⟨rfl, rfl⟩
theorem Sys2Proof.Laws.Encoding.stg (h : Sys2Proof.Hdr) (b : Sys2Proof.SBody) : Sys2Proof.Laws.Encoding.Statement (.stg h b) := by
  intro v h; cases h <;> exact ⟨rfl, rfl⟩
theorem Sys2Proof.Laws.Encoding.aadd (h : Sys2Proof.Hdr) (b : Sys2Proof.SBody) : Sys2Proof.Laws.Encoding.Statement (.aadd h b) := by
  intro v h; cases h <;> exact ⟨rfl, rfl⟩
theorem Sys2Proof.Laws.Encoding.axchg (h : Sys2Proof.Hdr) (b : Sys2Proof.SBody) : Sys2Proof.Laws.Encoding.Statement (.axchg h b) := by
  intro v h; cases h <;> exact ⟨rfl, rfl⟩
theorem Sys2Proof.Laws.Encoding.acas (h : Sys2Proof.Hdr) (b : Sys2Proof.SBody) : Sys2Proof.Laws.Encoding.Statement (.acas h b) := by
  intro v h; cases h <;> exact ⟨rfl, rfl⟩
theorem Sys2Proof.Laws.Encoding.amax (h : Sys2Proof.Hdr) (b : Sys2Proof.SBody) : Sys2Proof.Laws.Encoding.Statement (.amax h b) := by
  intro v h; cases h <;> exact ⟨rfl, rfl⟩
theorem Sys2Proof.Laws.Encoding.fence (h : Sys2Proof.Hdr) (b : Sys2Proof.SBody) : Sys2Proof.Laws.Encoding.Statement (.fence h b) := by
  intro v h; cases h <;> exact ⟨rfl, rfl⟩
theorem Sys2Proof.Laws.Encoding.waita (h : Sys2Proof.Hdr) (b : Sys2Proof.SBody) : Sys2Proof.Laws.Encoding.Statement (.waita h b) := by
  intro v h; cases h <;> exact ⟨rfl, rfl⟩
theorem Sys2Proof.Laws.Encoding.spl (h : Sys2Proof.Hdr) (b : Sys2Proof.SBody) : Sys2Proof.Laws.Encoding.Statement (.spl h b) := by
  intro v h; cases h <;> exact ⟨rfl, rfl⟩
theorem Sys2Proof.Laws.Encoding.sps (h : Sys2Proof.Hdr) (b : Sys2Proof.SBody) : Sys2Proof.Laws.Encoding.Statement (.sps h b) := by
  intro v h; cases h <;> exact ⟨rfl, rfl⟩
theorem Sys2Proof.Laws.Encoding.semadd (h : Sys2Proof.Hdr) (b : Sys2Proof.SBody) : Sys2Proof.Laws.Encoding.Statement (.semadd h b) := by
  intro v h; cases h <;> exact ⟨rfl, rfl⟩
theorem Sys2Proof.Laws.Encoding.semrd (h : Sys2Proof.Hdr) (b : Sys2Proof.SBody) : Sys2Proof.Laws.Encoding.Statement (.semrd h b) := by
  intro v h; cases h <;> exact ⟨rfl, rfl⟩
theorem Sys2Proof.Laws.Encoding.jmp (h : Sys2Proof.Hdr) (b : Sys2Proof.SBody) : Sys2Proof.Laws.Encoding.Statement (.jmp h b) := by
  intro v h; cases h <;> exact ⟨rfl, rfl⟩
theorem Sys2Proof.Laws.Encoding.jmpr (h : Sys2Proof.Hdr) (b : Sys2Proof.SBody) : Sys2Proof.Laws.Encoding.Statement (.jmpr h b) := by
  intro v h; cases h <;> exact ⟨rfl, rfl⟩
theorem Sys2Proof.Laws.Encoding.call (h : Sys2Proof.Hdr) (b : Sys2Proof.SBody) : Sys2Proof.Laws.Encoding.Statement (.call h b) := by
  intro v h; cases h <;> exact ⟨rfl, rfl⟩
theorem Sys2Proof.Laws.Encoding.callr (h : Sys2Proof.Hdr) (b : Sys2Proof.SBody) : Sys2Proof.Laws.Encoding.Statement (.callr h b) := by
  intro v h; cases h <;> exact ⟨rfl, rfl⟩
theorem Sys2Proof.Laws.Encoding.ret (h : Sys2Proof.Hdr) (b : Sys2Proof.SBody) : Sys2Proof.Laws.Encoding.Statement (.ret h b) := by
  intro v h; cases h <;> exact ⟨rfl, rfl⟩
theorem Sys2Proof.Laws.Encoding.lset (h : Sys2Proof.Hdr) (b : Sys2Proof.SBody) : Sys2Proof.Laws.Encoding.Statement (.lset h b) := by
  intro v h; cases h <;> exact ⟨rfl, rfl⟩
theorem Sys2Proof.Laws.Encoding.idem (h : Sys2Proof.Hdr) (b : Sys2Proof.SBody) : Sys2Proof.Laws.Encoding.Statement (.idem h b) := by
  intro v h; cases h <;> exact ⟨rfl, rfl⟩
theorem Sys2Proof.Laws.Encoding.mfc (h : Sys2Proof.Hdr) (b : Sys2Proof.SBody) : Sys2Proof.Laws.Encoding.Statement (.mfc h b) := by
  intro v h; cases h <;> exact ⟨rfl, rfl⟩
theorem Sys2Proof.Laws.Encoding.mtc (h : Sys2Proof.Hdr) (b : Sys2Proof.SBody) : Sys2Proof.Laws.Encoding.Statement (.mtc h b) := by
  intro v h; cases h <;> exact ⟨rfl, rfl⟩
theorem Sys2Proof.Laws.Encoding.setg (h : Sys2Proof.Hdr) (b : Sys2Proof.SBody) : Sys2Proof.Laws.Encoding.Statement (.setg h b) := by
  intro v h; cases h <;> exact ⟨rfl, rfl⟩
theorem Sys2Proof.Laws.Encoding.sett (h : Sys2Proof.Hdr) (b : Sys2Proof.SBody) : Sys2Proof.Laws.Encoding.Statement (.sett h b) := by
  intro v h; cases h <;> exact ⟨rfl, rfl⟩
theorem Sys2Proof.Laws.Encoding.swi (h : Sys2Proof.Hdr) (b : Sys2Proof.SBody) : Sys2Proof.Laws.Encoding.Statement (.swi h b) := by
  intro v h; cases h <;> exact ⟨rfl, rfl⟩
theorem Sys2Proof.Laws.Encoding.tret (h : Sys2Proof.Hdr) (b : Sys2Proof.SBody) : Sys2Proof.Laws.Encoding.Statement (.tret h b) := by
  intro v h; cases h <;> exact ⟨rfl, rfl⟩
theorem Sys2Proof.Laws.Encoding.vadd (h : Sys2Proof.Hdr) (b : Sys2Proof.VBody) : Sys2Proof.Laws.Encoding.Statement (.vadd h b) := by
  intro v h; cases h <;> exact ⟨rfl, rfl⟩
theorem Sys2Proof.Laws.Encoding.vsub (h : Sys2Proof.Hdr) (b : Sys2Proof.VBody) : Sys2Proof.Laws.Encoding.Statement (.vsub h b) := by
  intro v h; cases h <;> exact ⟨rfl, rfl⟩
theorem Sys2Proof.Laws.Encoding.vfma (h : Sys2Proof.Hdr) (b : Sys2Proof.VBody) : Sys2Proof.Laws.Encoding.Statement (.vfma h b) := by
  intro v h; cases h <;> exact ⟨rfl, rfl⟩
theorem Sys2Proof.Laws.Encoding.vmul (h : Sys2Proof.Hdr) (b : Sys2Proof.VBody) : Sys2Proof.Laws.Encoding.Statement (.vmul h b) := by
  intro v h; cases h <;> exact ⟨rfl, rfl⟩
theorem Sys2Proof.Laws.Encoding.vmin (h : Sys2Proof.Hdr) (b : Sys2Proof.VBody) : Sys2Proof.Laws.Encoding.Statement (.vmin h b) := by
  intro v h; cases h <;> exact ⟨rfl, rfl⟩
theorem Sys2Proof.Laws.Encoding.vmax (h : Sys2Proof.Hdr) (b : Sys2Proof.VBody) : Sys2Proof.Laws.Encoding.Statement (.vmax h b) := by
  intro v h; cases h <;> exact ⟨rfl, rfl⟩
theorem Sys2Proof.Laws.Encoding.vabs (h : Sys2Proof.Hdr) (b : Sys2Proof.VBody) : Sys2Proof.Laws.Encoding.Statement (.vabs h b) := by
  intro v h; cases h <;> exact ⟨rfl, rfl⟩
theorem Sys2Proof.Laws.Encoding.vneg (h : Sys2Proof.Hdr) (b : Sys2Proof.VBody) : Sys2Proof.Laws.Encoding.Statement (.vneg h b) := by
  intro v h; cases h <;> exact ⟨rfl, rfl⟩
theorem Sys2Proof.Laws.Encoding.vand (h : Sys2Proof.Hdr) (b : Sys2Proof.VBody) : Sys2Proof.Laws.Encoding.Statement (.vand h b) := by
  intro v h; cases h <;> exact ⟨rfl, rfl⟩
theorem Sys2Proof.Laws.Encoding.vor (h : Sys2Proof.Hdr) (b : Sys2Proof.VBody) : Sys2Proof.Laws.Encoding.Statement (.vor h b) := by
  intro v h; cases h <;> exact ⟨rfl, rfl⟩
theorem Sys2Proof.Laws.Encoding.vxor (h : Sys2Proof.Hdr) (b : Sys2Proof.VBody) : Sys2Proof.Laws.Encoding.Statement (.vxor h b) := by
  intro v h; cases h <;> exact ⟨rfl, rfl⟩
theorem Sys2Proof.Laws.Encoding.vshl (h : Sys2Proof.Hdr) (b : Sys2Proof.VBody) : Sys2Proof.Laws.Encoding.Statement (.vshl h b) := by
  intro v h; cases h <;> exact ⟨rfl, rfl⟩
theorem Sys2Proof.Laws.Encoding.vshr (h : Sys2Proof.Hdr) (b : Sys2Proof.VBody) : Sys2Proof.Laws.Encoding.Statement (.vshr h b) := by
  intro v h; cases h <;> exact ⟨rfl, rfl⟩
theorem Sys2Proof.Laws.Encoding.vsar (h : Sys2Proof.Hdr) (b : Sys2Proof.VBody) : Sys2Proof.Laws.Encoding.Statement (.vsar h b) := by
  intro v h; cases h <;> exact ⟨rfl, rfl⟩
theorem Sys2Proof.Laws.Encoding.vmov (h : Sys2Proof.Hdr) (b : Sys2Proof.VBody) : Sys2Proof.Laws.Encoding.Statement (.vmov h b) := by
  intro v h; cases h <;> exact ⟨rfl, rfl⟩
theorem Sys2Proof.Laws.Encoding.vclamp (h : Sys2Proof.Hdr) (b : Sys2Proof.VBody) : Sys2Proof.Laws.Encoding.Statement (.vclamp h b) := by
  intro v h; cases h <;> exact ⟨rfl, rfl⟩
theorem Sys2Proof.Laws.Encoding.vfill (h : Sys2Proof.Hdr) (b : Sys2Proof.VBody) : Sys2Proof.Laws.Encoding.Statement (.vfill h b) := by
  intro v h; cases h <;> exact ⟨rfl, rfl⟩
theorem Sys2Proof.Laws.Encoding.vmad (h : Sys2Proof.Hdr) (b : Sys2Proof.VBody) : Sys2Proof.Laws.Encoding.Statement (.vmad h b) := by
  intro v h; cases h <;> exact ⟨rfl, rfl⟩
theorem Sys2Proof.Laws.Encoding.viota (h : Sys2Proof.Hdr) (b : Sys2Proof.VBody) : Sys2Proof.Laws.Encoding.Statement (.viota h b) := by
  intro v h; cases h <;> exact ⟨rfl, rfl⟩
theorem Sys2Proof.Laws.Encoding.vceq (h : Sys2Proof.Hdr) (b : Sys2Proof.VBody) : Sys2Proof.Laws.Encoding.Statement (.vceq h b) := by
  intro v h; cases h <;> exact ⟨rfl, rfl⟩
theorem Sys2Proof.Laws.Encoding.vcne (h : Sys2Proof.Hdr) (b : Sys2Proof.VBody) : Sys2Proof.Laws.Encoding.Statement (.vcne h b) := by
  intro v h; cases h <;> exact ⟨rfl, rfl⟩
theorem Sys2Proof.Laws.Encoding.vclt (h : Sys2Proof.Hdr) (b : Sys2Proof.VBody) : Sys2Proof.Laws.Encoding.Statement (.vclt h b) := by
  intro v h; cases h <;> exact ⟨rfl, rfl⟩
theorem Sys2Proof.Laws.Encoding.vcle (h : Sys2Proof.Hdr) (b : Sys2Proof.VBody) : Sys2Proof.Laws.Encoding.Statement (.vcle h b) := by
  intro v h; cases h <;> exact ⟨rfl, rfl⟩
theorem Sys2Proof.Laws.Encoding.vcun (h : Sys2Proof.Hdr) (b : Sys2Proof.VBody) : Sys2Proof.Laws.Encoding.Statement (.vcun h b) := by
  intro v h; cases h <;> exact ⟨rfl, rfl⟩
theorem Sys2Proof.Laws.Encoding.vsel (h : Sys2Proof.Hdr) (b : Sys2Proof.VBody) : Sys2Proof.Laws.Encoding.Statement (.vsel h b) := by
  intro v h; cases h <;> exact ⟨rfl, rfl⟩
theorem Sys2Proof.Laws.Encoding.vcvt (h : Sys2Proof.Hdr) (b : Sys2Proof.VBody) : Sys2Proof.Laws.Encoding.Statement (.vcvt h b) := by
  intro v h; cases h <;> exact ⟨rfl, rfl⟩
theorem Sys2Proof.Laws.Encoding.vdp4 (h : Sys2Proof.Hdr) (b : Sys2Proof.VBody) : Sys2Proof.Laws.Encoding.Statement (.vdp4 h b) := by
  intro v h; cases h <;> exact ⟨rfl, rfl⟩
theorem Sys2Proof.Laws.Encoding.vrsum (h : Sys2Proof.Hdr) (b : Sys2Proof.VBody) : Sys2Proof.Laws.Encoding.Statement (.vrsum h b) := by
  intro v h; cases h <;> exact ⟨rfl, rfl⟩
theorem Sys2Proof.Laws.Encoding.vrmax (h : Sys2Proof.Hdr) (b : Sys2Proof.VBody) : Sys2Proof.Laws.Encoding.Statement (.vrmax h b) := by
  intro v h; cases h <;> exact ⟨rfl, rfl⟩
theorem Sys2Proof.Laws.Encoding.vrmin (h : Sys2Proof.Hdr) (b : Sys2Proof.VBody) : Sys2Proof.Laws.Encoding.Statement (.vrmin h b) := by
  intro v h; cases h <;> exact ⟨rfl, rfl⟩
theorem Sys2Proof.Laws.Encoding.vrarg (h : Sys2Proof.Hdr) (b : Sys2Proof.VBody) : Sys2Proof.Laws.Encoding.Statement (.vrarg h b) := by
  intro v h; cases h <;> exact ⟨rfl, rfl⟩
theorem Sys2Proof.Laws.Encoding.vscan (h : Sys2Proof.Hdr) (b : Sys2Proof.VBody) : Sys2Proof.Laws.Encoding.Statement (.vscan h b) := by
  intro v h; cases h <;> exact ⟨rfl, rfl⟩
theorem Sys2Proof.Laws.Encoding.vperm (h : Sys2Proof.Hdr) (b : Sys2Proof.VBody) : Sys2Proof.Laws.Encoding.Statement (.vperm h b) := by
  intro v h; cases h <;> exact ⟨rfl, rfl⟩
theorem Sys2Proof.Laws.Encoding.vbcast (h : Sys2Proof.Hdr) (b : Sys2Proof.VBody) : Sys2Proof.Laws.Encoding.Statement (.vbcast h b) := by
  intro v h; cases h <;> exact ⟨rfl, rfl⟩
theorem Sys2Proof.Laws.Encoding.vgthl (h : Sys2Proof.Hdr) (b : Sys2Proof.VBody) : Sys2Proof.Laws.Encoding.Statement (.vgthl h b) := by
  intro v h; cases h <;> exact ⟨rfl, rfl⟩
theorem Sys2Proof.Laws.Encoding.vrev (h : Sys2Proof.Hdr) (b : Sys2Proof.VBody) : Sys2Proof.Laws.Encoding.Statement (.vrev h b) := by
  intro v h; cases h <;> exact ⟨rfl, rfl⟩
theorem Sys2Proof.Laws.Encoding.vqmax (h : Sys2Proof.Hdr) (b : Sys2Proof.VBody) : Sys2Proof.Laws.Encoding.Statement (.vqmax h b) := by
  intro v h; cases h <;> exact ⟨rfl, rfl⟩
theorem Sys2Proof.Laws.Encoding.vqcvt (h : Sys2Proof.Hdr) (b : Sys2Proof.VBody) : Sys2Proof.Laws.Encoding.Statement (.vqcvt h b) := by
  intro v h; cases h <;> exact ⟨rfl, rfl⟩
theorem Sys2Proof.Laws.Encoding.dld (h : Sys2Proof.Hdr) (b : Sys2Proof.VBody) : Sys2Proof.Laws.Encoding.Statement (.dld h b) := by
  intro v h; cases h <;> exact ⟨rfl, rfl⟩
theorem Sys2Proof.Laws.Encoding.dsto (h : Sys2Proof.Hdr) (b : Sys2Proof.VBody) : Sys2Proof.Laws.Encoding.Statement (.dsto h b) := by
  intro v h; cases h <;> exact ⟨rfl, rfl⟩
theorem Sys2Proof.Laws.Encoding.dadd (h : Sys2Proof.Hdr) (b : Sys2Proof.VBody) : Sys2Proof.Laws.Encoding.Statement (.dadd h b) := by
  intro v h; cases h <;> exact ⟨rfl, rfl⟩
theorem Sys2Proof.Laws.Encoding.dsub (h : Sys2Proof.Hdr) (b : Sys2Proof.VBody) : Sys2Proof.Laws.Encoding.Statement (.dsub h b) := by
  intro v h; cases h <;> exact ⟨rfl, rfl⟩
theorem Sys2Proof.Laws.Encoding.dmul (h : Sys2Proof.Hdr) (b : Sys2Proof.VBody) : Sys2Proof.Laws.Encoding.Statement (.dmul h b) := by
  intro v h; cases h <;> exact ⟨rfl, rfl⟩
theorem Sys2Proof.Laws.Encoding.dmax (h : Sys2Proof.Hdr) (b : Sys2Proof.VBody) : Sys2Proof.Laws.Encoding.Statement (.dmax h b) := by
  intro v h; cases h <;> exact ⟨rfl, rfl⟩
theorem Sys2Proof.Laws.Encoding.dmin (h : Sys2Proof.Hdr) (b : Sys2Proof.VBody) : Sys2Proof.Laws.Encoding.Statement (.dmin h b) := by
  intro v h; cases h <;> exact ⟨rfl, rfl⟩
theorem Sys2Proof.Laws.Encoding.daff (h : Sys2Proof.Hdr) (b : Sys2Proof.VBody) : Sys2Proof.Laws.Encoding.Statement (.daff h b) := by
  intro v h; cases h <;> exact ⟨rfl, rfl⟩
theorem Sys2Proof.Laws.Encoding.dmix (h : Sys2Proof.Hdr) (b : Sys2Proof.VBody) : Sys2Proof.Laws.Encoding.Statement (.dmix h b) := by
  intro v h; cases h <;> exact ⟨rfl, rfl⟩
theorem Sys2Proof.Laws.Encoding.dsmp (h : Sys2Proof.Hdr) (b : Sys2Proof.VBody) : Sys2Proof.Laws.Encoding.Statement (.dsmp h b) := by
  intro v h; cases h <;> exact ⟨rfl, rfl⟩
theorem Sys2Proof.Laws.Encoding.dcond (h : Sys2Proof.Hdr) (b : Sys2Proof.VBody) : Sys2Proof.Laws.Encoding.Statement (.dcond h b) := by
  intro v h; cases h <;> exact ⟨rfl, rfl⟩
theorem Sys2Proof.Laws.Encoding.dmom (h : Sys2Proof.Hdr) (b : Sys2Proof.VBody) : Sys2Proof.Laws.Encoding.Statement (.dmom h b) := by
  intro v h; cases h <;> exact ⟨rfl, rfl⟩
theorem Sys2Proof.Laws.Encoding.dqnt (h : Sys2Proof.Hdr) (b : Sys2Proof.VBody) : Sys2Proof.Laws.Encoding.Statement (.dqnt h b) := by
  intro v h; cases h <;> exact ⟨rfl, rfl⟩
theorem Sys2Proof.Laws.Encoding.dlinSet (h : Sys2Proof.Hdr) (b : Sys2Proof.VBody) : Sys2Proof.Laws.Encoding.Statement (.dlinSet h b) := by
  intro v h; cases h <;> exact ⟨rfl, rfl⟩
theorem Sys2Proof.Laws.Encoding.dlinGet (h : Sys2Proof.Hdr) (b : Sys2Proof.VBody) : Sys2Proof.Laws.Encoding.Statement (.dlinGet h b) := by
  intro v h; cases h <;> exact ⟨rfl, rfl⟩
theorem Sys2Proof.Laws.Encoding.frcp (h : Sys2Proof.Hdr) (b : Sys2Proof.VBody) : Sys2Proof.Laws.Encoding.Statement (.frcp h b) := by
  intro v h; cases h <;> exact ⟨rfl, rfl⟩
theorem Sys2Proof.Laws.Encoding.fsqrt (h : Sys2Proof.Hdr) (b : Sys2Proof.VBody) : Sys2Proof.Laws.Encoding.Statement (.fsqrt h b) := by
  intro v h; cases h <;> exact ⟨rfl, rfl⟩
theorem Sys2Proof.Laws.Encoding.frcpe (h : Sys2Proof.Hdr) (b : Sys2Proof.VBody) : Sys2Proof.Laws.Encoding.Statement (.frcpe h b) := by
  intro v h; cases h <;> exact ⟨rfl, rfl⟩
theorem Sys2Proof.Laws.Encoding.frsqe (h : Sys2Proof.Hdr) (b : Sys2Proof.VBody) : Sys2Proof.Laws.Encoding.Statement (.frsqe h b) := by
  intro v h; cases h <;> exact ⟨rfl, rfl⟩
theorem Sys2Proof.Laws.Encoding.fexp2 (h : Sys2Proof.Hdr) (b : Sys2Proof.VBody) : Sys2Proof.Laws.Encoding.Statement (.fexp2 h b) := by
  intro v h; cases h <;> exact ⟨rfl, rfl⟩
theorem Sys2Proof.Laws.Encoding.flog2 (h : Sys2Proof.Hdr) (b : Sys2Proof.VBody) : Sys2Proof.Laws.Encoding.Statement (.flog2 h b) := by
  intro v h; cases h <;> exact ⟨rfl, rfl⟩
theorem Sys2Proof.Laws.Encoding.fsin (h : Sys2Proof.Hdr) (b : Sys2Proof.VBody) : Sys2Proof.Laws.Encoding.Statement (.fsin h b) := by
  intro v h; cases h <;> exact ⟨rfl, rfl⟩
theorem Sys2Proof.Laws.Encoding.fcos (h : Sys2Proof.Hdr) (b : Sys2Proof.VBody) : Sys2Proof.Laws.Encoding.Statement (.fcos h b) := by
  intro v h; cases h <;> exact ⟨rfl, rfl⟩
theorem Sys2Proof.Laws.Encoding.ftanh (h : Sys2Proof.Hdr) (b : Sys2Proof.VBody) : Sys2Proof.Laws.Encoding.Statement (.ftanh h b) := by
  intro v h; cases h <;> exact ⟨rfl, rfl⟩
theorem Sys2Proof.Laws.Encoding.ferf (h : Sys2Proof.Hdr) (b : Sys2Proof.VBody) : Sys2Proof.Laws.Encoding.Statement (.ferf h b) := by
  intro v h; cases h <;> exact ⟨rfl, rfl⟩
theorem Sys2Proof.Laws.Encoding.fscl (h : Sys2Proof.Hdr) (b : Sys2Proof.VBody) : Sys2Proof.Laws.Encoding.Statement (.fscl h b) := by
  intro v h; cases h <;> exact ⟨rfl, rfl⟩
theorem Sys2Proof.Laws.Encoding.fxtrExp (h : Sys2Proof.Hdr) (b : Sys2Proof.VBody) : Sys2Proof.Laws.Encoding.Statement (.fxtrExp h b) := by
  intro v h; cases h <;> exact ⟨rfl, rfl⟩
theorem Sys2Proof.Laws.Encoding.fxtrMan (h : Sys2Proof.Hdr) (b : Sys2Proof.VBody) : Sys2Proof.Laws.Encoding.Statement (.fxtrMan h b) := by
  intro v h; cases h <;> exact ⟨rfl, rfl⟩
theorem Sys2Proof.Laws.Encoding.frnd (h : Sys2Proof.Hdr) (b : Sys2Proof.VBody) : Sys2Proof.Laws.Encoding.Statement (.frnd h b) := by
  intro v h; cases h <;> exact ⟨rfl, rfl⟩
theorem Sys2Proof.Laws.Encoding.fcls (h : Sys2Proof.Hdr) (b : Sys2Proof.VBody) : Sys2Proof.Laws.Encoding.Statement (.fcls h b) := by
  intro v h; cases h <;> exact ⟨rfl, rfl⟩
theorem Sys2Proof.Laws.Encoding.fcvt (h : Sys2Proof.Hdr) (b : Sys2Proof.VBody) : Sys2Proof.Laws.Encoding.Statement (.fcvt h b) := by
  intro v h; cases h <;> exact ⟨rfl, rfl⟩
theorem Sys2Proof.Laws.Encoding.fmov (h : Sys2Proof.Hdr) (b : Sys2Proof.VBody) : Sys2Proof.Laws.Encoding.Statement (.fmov h b) := by
  intro v h; cases h <;> exact ⟨rfl, rfl⟩
theorem Sys2Proof.Laws.Encoding.fsgn (h : Sys2Proof.Hdr) (b : Sys2Proof.VBody) : Sys2Proof.Laws.Encoding.Statement (.fsgn h b) := by
  intro v h; cases h <;> exact ⟨rfl, rfl⟩
theorem Sys2Proof.Laws.Encoding.fmag (h : Sys2Proof.Hdr) (b : Sys2Proof.VBody) : Sys2Proof.Laws.Encoding.Statement (.fmag h b) := by
  intro v h; cases h <;> exact ⟨rfl, rfl⟩
theorem Sys2Proof.Laws.Encoding.mmi (h : Sys2Proof.Hdr) (b : Sys2Proof.MBody) : Sys2Proof.Laws.Encoding.Statement (.mmi h b) := by
  intro v h; cases h <;> exact ⟨rfl, rfl⟩
theorem Sys2Proof.Laws.Encoding.mma (h : Sys2Proof.Hdr) (b : Sys2Proof.MBody) : Sys2Proof.Laws.Encoding.Statement (.mma h b) := by
  intro v h; cases h <;> exact ⟨rfl, rfl⟩
theorem Sys2Proof.Laws.Encoding.mmih (h : Sys2Proof.Hdr) (b : Sys2Proof.MBody) : Sys2Proof.Laws.Encoding.Statement (.mmih h b) := by
  intro v h; cases h <;> exact ⟨rfl, rfl⟩
theorem Sys2Proof.Laws.Encoding.mmah (h : Sys2Proof.Hdr) (b : Sys2Proof.MBody) : Sys2Proof.Laws.Encoding.Statement (.mmah h b) := by
  intro v h; cases h <;> exact ⟨rfl, rfl⟩
theorem Sys2Proof.Laws.Encoding.gmmi (h : Sys2Proof.Hdr) (b : Sys2Proof.MBody) : Sys2Proof.Laws.Encoding.Statement (.gmmi h b) := by
  intro v h; cases h <;> exact ⟨rfl, rfl⟩
theorem Sys2Proof.Laws.Encoding.gmma (h : Sys2Proof.Hdr) (b : Sys2Proof.MBody) : Sys2Proof.Laws.Encoding.Statement (.gmma h b) := by
  intro v h; cases h <;> exact ⟨rfl, rfl⟩
theorem Sys2Proof.Laws.Encoding.gmmih (h : Sys2Proof.Hdr) (b : Sys2Proof.MBody) : Sys2Proof.Laws.Encoding.Statement (.gmmih h b) := by
  intro v h; cases h <;> exact ⟨rfl, rfl⟩
theorem Sys2Proof.Laws.Encoding.gmmah (h : Sys2Proof.Hdr) (b : Sys2Proof.MBody) : Sys2Proof.Laws.Encoding.Statement (.gmmah h b) := by
  intro v h; cases h <;> exact ⟨rfl, rfl⟩
theorem Sys2Proof.Laws.Encoding.mhad (h : Sys2Proof.Hdr) (b : Sys2Proof.MBody) : Sys2Proof.Laws.Encoding.Statement (.mhad h b) := by
  intro v h; cases h <;> exact ⟨rfl, rfl⟩
theorem Sys2Proof.Laws.Encoding.mtrn (h : Sys2Proof.Hdr) (b : Sys2Proof.MBody) : Sys2Proof.Laws.Encoding.Statement (.mtrn h b) := by
  intro v h; cases h <;> exact ⟨rfl, rfl⟩
theorem Sys2Proof.Laws.Encoding.mtcv (h : Sys2Proof.Hdr) (b : Sys2Proof.MBody) : Sys2Proof.Laws.Encoding.Statement (.mtcv h b) := by
  intro v h; cases h <;> exact ⟨rfl, rfl⟩
theorem Sys2Proof.Laws.Encoding.mqnt (h : Sys2Proof.Hdr) (b : Sys2Proof.MBody) : Sys2Proof.Laws.Encoding.Statement (.mqnt h b) := by
  intro v h; cases h <;> exact ⟨rfl, rfl⟩
theorem Sys2Proof.Laws.Encoding.mhadq (h : Sys2Proof.Hdr) (b : Sys2Proof.MBody) : Sys2Proof.Laws.Encoding.Statement (.mhadq h b) := by
  intro v h; cases h <;> exact ⟨rfl, rfl⟩
theorem Sys2Proof.Laws.Encoding.mdrb (h : Sys2Proof.Hdr) (b : Sys2Proof.MBody) : Sys2Proof.Laws.Encoding.Statement (.mdrb h b) := by
  intro v h; cases h <;> exact ⟨rfl, rfl⟩
theorem Sys2Proof.Laws.Encoding.mdrt (h : Sys2Proof.Hdr) (b : Sys2Proof.MBody) : Sys2Proof.Laws.Encoding.Statement (.mdrt h b) := by
  intro v h; cases h <;> exact ⟨rfl, rfl⟩
theorem Sys2Proof.Laws.Encoding.mdrs (h : Sys2Proof.Hdr) (b : Sys2Proof.MBody) : Sys2Proof.Laws.Encoding.Statement (.mdrs h b) := by
  intro v h; cases h <;> exact ⟨rfl, rfl⟩
theorem Sys2Proof.Laws.Encoding.mclr (h : Sys2Proof.Hdr) (b : Sys2Proof.MBody) : Sys2Proof.Laws.Encoding.Statement (.mclr h b) := by
  intro v h; cases h <;> exact ⟨rfl, rfl⟩
theorem Sys2Proof.Laws.Encoding.macpCpy (h : Sys2Proof.Hdr) (b : Sys2Proof.MBody) : Sys2Proof.Laws.Encoding.Statement (.macpCpy h b) := by
  intro v h; cases h <;> exact ⟨rfl, rfl⟩
theorem Sys2Proof.Laws.Encoding.macpAdd (h : Sys2Proof.Hdr) (b : Sys2Proof.MBody) : Sys2Proof.Laws.Encoding.Statement (.macpAdd h b) := by
  intro v h; cases h <;> exact ⟨rfl, rfl⟩
theorem Sys2Proof.Laws.Encoding.mtld (h : Sys2Proof.Hdr) (b : Sys2Proof.MBody) : Sys2Proof.Laws.Encoding.Statement (.mtld h b) := by
  intro v h; cases h <;> exact ⟨rfl, rfl⟩
theorem Sys2Proof.Laws.Encoding.mtst (h : Sys2Proof.Hdr) (b : Sys2Proof.MBody) : Sys2Proof.Laws.Encoding.Statement (.mtst h b) := by
  intro v h; cases h <;> exact ⟨rfl, rfl⟩
theorem Sys2Proof.Laws.Encoding.cpy (h : Sys2Proof.Hdr) (b : Sys2Proof.CBody) : Sys2Proof.Laws.Encoding.Statement (.cpy h b) := by
  intro v h; cases h <;> exact ⟨rfl, rfl⟩
theorem Sys2Proof.Laws.Encoding.cfill (h : Sys2Proof.Hdr) (b : Sys2Proof.CBody) : Sys2Proof.Laws.Encoding.Statement (.cfill h b) := by
  intro v h; cases h <;> exact ⟨rfl, rfl⟩
theorem Sys2Proof.Laws.Encoding.cprm (h : Sys2Proof.Hdr) (b : Sys2Proof.CBody) : Sys2Proof.Laws.Encoding.Statement (.cprm h b) := by
  intro v h; cases h <;> exact ⟨rfl, rfl⟩
theorem Sys2Proof.Laws.Encoding.cpt (h : Sys2Proof.Hdr) (b : Sys2Proof.CBody) : Sys2Proof.Laws.Encoding.Statement (.cpt h b) := by
  intro v h; cases h <;> exact ⟨rfl, rfl⟩
theorem Sys2Proof.Laws.Encoding.cpf (h : Sys2Proof.Hdr) (b : Sys2Proof.CBody) (fo : Sys2Proof.FollowOn) : Sys2Proof.Laws.Encoding.Statement (.cpf h b fo) := by
  intro v h; cases h <;> exact ⟨rfl, rfl⟩
theorem Sys2Proof.Laws.Encoding.gth (h : Sys2Proof.Hdr) (b : Sys2Proof.CBody) : Sys2Proof.Laws.Encoding.Statement (.gth h b) := by
  intro v h; cases h <;> exact ⟨rfl, rfl⟩
theorem Sys2Proof.Laws.Encoding.sct (h : Sys2Proof.Hdr) (b : Sys2Proof.CBody) : Sys2Proof.Laws.Encoding.Statement (.sct h b) := by
  intro v h; cases h <;> exact ⟨rfl, rfl⟩
theorem Sys2Proof.Laws.Encoding.wstr (h : Sys2Proof.Hdr) (b : Sys2Proof.CBody) : Sys2Proof.Laws.Encoding.Statement (.wstr h b) := by
  intro v h; cases h <;> exact ⟨rfl, rfl⟩
theorem Sys2Proof.Laws.Encoding.hbind (h : Sys2Proof.Hdr) (b : Sys2Proof.CBody) : Sys2Proof.Laws.Encoding.Statement (.hbind h b) := by
  intro v h; cases h <;> exact ⟨rfl, rfl⟩
theorem Sys2Proof.Laws.Encoding.hfree (h : Sys2Proof.Hdr) (b : Sys2Proof.CBody) : Sys2Proof.Laws.Encoding.Statement (.hfree h b) := by
  intro v h; cases h <;> exact ⟨rfl, rfl⟩
theorem Sys2Proof.Laws.Encoding.rowopn (h : Sys2Proof.Hdr) (b : Sys2Proof.CBody) : Sys2Proof.Laws.Encoding.Statement (.rowopn h b) := by
  intro v h; cases h <;> exact ⟨rfl, rfl⟩
theorem Sys2Proof.Laws.Encoding.rowpin (h : Sys2Proof.Hdr) (b : Sys2Proof.CBody) : Sys2Proof.Laws.Encoding.Statement (.rowpin h b) := by
  intro v h; cases h <;> exact ⟨rfl, rfl⟩
theorem Sys2Proof.Laws.Encoding.rowrel (h : Sys2Proof.Hdr) (b : Sys2Proof.CBody) : Sys2Proof.Laws.Encoding.Statement (.rowrel h b) := by
  intro v h; cases h <;> exact ⟨rfl, rfl⟩
theorem Sys2Proof.Laws.Encoding.rowrd (h : Sys2Proof.Hdr) (b : Sys2Proof.CBody) : Sys2Proof.Laws.Encoding.Statement (.rowrd h b) := by
  intro v h; cases h <;> exact ⟨rfl, rfl⟩
theorem Sys2Proof.Laws.Encoding.rowwr (h : Sys2Proof.Hdr) (b : Sys2Proof.CBody) : Sys2Proof.Laws.Encoding.Statement (.rowwr h b) := by
  intro v h; cases h <;> exact ⟨rfl, rfl⟩
theorem Sys2Proof.Laws.Encoding.rowst (h : Sys2Proof.Hdr) (b : Sys2Proof.CBody) : Sys2Proof.Laws.Encoding.Statement (.rowst h b) := by
  intro v h; cases h <;> exact ⟨rfl, rfl⟩
theorem Sys2Proof.Laws.Encoding.scnthr (h : Sys2Proof.Hdr) (b : Sys2Proof.CBody) : Sys2Proof.Laws.Encoding.Statement (.scnthr h b) := by
  intro v h; cases h <;> exact ⟨rfl, rfl⟩
theorem Sys2Proof.Laws.Encoding.scngo (h : Sys2Proof.Hdr) (b : Sys2Proof.CBody) : Sys2Proof.Laws.Encoding.Statement (.scngo h b) := by
  intro v h; cases h <;> exact ⟨rfl, rfl⟩
theorem Sys2Proof.Laws.Encoding.scnrd (h : Sys2Proof.Hdr) (b : Sys2Proof.CBody) : Sys2Proof.Laws.Encoding.Statement (.scnrd h b) := by
  intro v h; cases h <;> exact ⟨rfl, rfl⟩
theorem Sys2Proof.Laws.Encoding.scnstp (h : Sys2Proof.Hdr) (b : Sys2Proof.CBody) : Sys2Proof.Laws.Encoding.Statement (.scnstp h b) := by
  intro v h; cases h <;> exact ⟨rfl, rfl⟩
theorem Sys2Proof.Laws.Encoding.scnst (h : Sys2Proof.Hdr) (b : Sys2Proof.CBody) : Sys2Proof.Laws.Encoding.Statement (.scnst h b) := by
  intro v h; cases h <;> exact ⟨rfl, rfl⟩
theorem Sys2Proof.Laws.Encoding.nsnd (h : Sys2Proof.Hdr) (b : Sys2Proof.NBody) : Sys2Proof.Laws.Encoding.Statement (.nsnd h b) := by
  intro v h; cases h <;> exact ⟨rfl, rfl⟩
theorem Sys2Proof.Laws.Encoding.nrcv (h : Sys2Proof.Hdr) (b : Sys2Proof.NBody) : Sys2Proof.Laws.Encoding.Statement (.nrcv h b) := by
  intro v h; cases h <;> exact ⟨rfl, rfl⟩
theorem Sys2Proof.Laws.Encoding.nput (h : Sys2Proof.Hdr) (b : Sys2Proof.NBody) : Sys2Proof.Laws.Encoding.Statement (.nput h b) := by
  intro v h; cases h <;> exact ⟨rfl, rfl⟩
theorem Sys2Proof.Laws.Encoding.nget (h : Sys2Proof.Hdr) (b : Sys2Proof.NBody) : Sys2Proof.Laws.Encoding.Statement (.nget h b) := by
  intro v h; cases h <;> exact ⟨rfl, rfl⟩
theorem Sys2Proof.Laws.Encoding.bar (h : Sys2Proof.Hdr) (b : Sys2Proof.NBody) : Sys2Proof.Laws.Encoding.Statement (.bar h b) := by
  intro v h; cases h <;> exact ⟨rfl, rfl⟩
theorem Sys2Proof.Laws.Encoding.bara (h : Sys2Proof.Hdr) (b : Sys2Proof.NBody) : Sys2Proof.Laws.Encoding.Statement (.bara h b) := by
  intro v h; cases h <;> exact ⟨rfl, rfl⟩
theorem Sys2Proof.Laws.Encoding.barw (h : Sys2Proof.Hdr) (b : Sys2Proof.NBody) : Sys2Proof.Laws.Encoding.Statement (.barw h b) := by
  intro v h; cases h <;> exact ⟨rfl, rfl⟩
theorem Sys2Proof.Laws.Encoding.ared (h : Sys2Proof.Hdr) (b : Sys2Proof.NBody) : Sys2Proof.Laws.Encoding.Statement (.ared h b) := by
  intro v h; cases h <;> exact ⟨rfl, rfl⟩
theorem Sys2Proof.Laws.Encoding.rscat (h : Sys2Proof.Hdr) (b : Sys2Proof.NBody) : Sys2Proof.Laws.Encoding.Statement (.rscat h b) := by
  intro v h; cases h <;> exact ⟨rfl, rfl⟩
theorem Sys2Proof.Laws.Encoding.agth (h : Sys2Proof.Hdr) (b : Sys2Proof.NBody) : Sys2Proof.Laws.Encoding.Statement (.agth h b) := by
  intro v h; cases h <;> exact ⟨rfl, rfl⟩
theorem Sys2Proof.Laws.Encoding.bcst (h : Sys2Proof.Hdr) (b : Sys2Proof.NBody) : Sys2Proof.Laws.Encoding.Statement (.bcst h b) := by
  intro v h; cases h <;> exact ⟨rfl, rfl⟩
theorem Sys2Proof.Laws.Encoding.xsnd (h : Sys2Proof.Hdr) (b : Sys2Proof.NBody) : Sys2Proof.Laws.Encoding.Statement (.xsnd h b) := by
  intro v h; cases h <;> exact ⟨rfl, rfl⟩
theorem Sys2Proof.Laws.Encoding.xrcv (h : Sys2Proof.Hdr) (b : Sys2Proof.NBody) : Sys2Proof.Laws.Encoding.Statement (.xrcv h b) := by
  intro v h; cases h <;> exact ⟨rfl, rfl⟩
theorem Sys2Proof.Laws.Encoding.xred (h : Sys2Proof.Hdr) (b : Sys2Proof.NBody) : Sys2Proof.Laws.Encoding.Statement (.xred h b) := by
  intro v h; cases h <;> exact ⟨rfl, rfl⟩
theorem Sys2Proof.Laws.Encoding.nflsh (h : Sys2Proof.Hdr) (b : Sys2Proof.NBody) : Sys2Proof.Laws.Encoding.Statement (.nflsh h b) := by
  intro v h; cases h <;> exact ⟨rfl, rfl⟩
theorem Sys2Proof.Laws.Encoding.nstat (h : Sys2Proof.Hdr) (b : Sys2Proof.NBody) : Sys2Proof.Laws.Encoding.Statement (.nstat h b) := by
  intro v h; cases h <;> exact ⟨rfl, rfl⟩
theorem Sys2Proof.Laws.Encoding.stickEnd : Sys2Proof.Laws.Encoding.Statement .stickEnd := by
  intro v h; cases h <;> exact ⟨rfl, rfl⟩
theorem Sys2Proof.Laws.Encoding.stickLi (d : Fin 16) (imm : BitVec 19) : Sys2Proof.Laws.Encoding.Statement (.stickLi d imm) := by
  intro v h; cases h <;> exact ⟨rfl, rfl⟩
theorem Sys2Proof.Laws.Encoding.stickLhi (d a : Fin 16) (imm : BitVec 19) : Sys2Proof.Laws.Encoding.Statement (.stickLhi d a imm) := by
  intro v h; cases h <;> exact ⟨rfl, rfl⟩
theorem Sys2Proof.Laws.Encoding.stickAdd (d a b : Fin 16) : Sys2Proof.Laws.Encoding.Statement (.stickAdd d a b) := by
  intro v h; cases h <;> exact ⟨rfl, rfl⟩
theorem Sys2Proof.Laws.Encoding.stickAddi (d a : Fin 16) (imm : BitVec 19) : Sys2Proof.Laws.Encoding.Statement (.stickAddi d a imm) := by
  intro v h; cases h <;> exact ⟨rfl, rfl⟩
theorem Sys2Proof.Laws.Encoding.stickSub (d a b : Fin 16) : Sys2Proof.Laws.Encoding.Statement (.stickSub d a b) := by
  intro v h; cases h <;> exact ⟨rfl, rfl⟩
theorem Sys2Proof.Laws.Encoding.stickAnd (d a b : Fin 16) : Sys2Proof.Laws.Encoding.Statement (.stickAnd d a b) := by
  intro v h; cases h <;> exact ⟨rfl, rfl⟩
theorem Sys2Proof.Laws.Encoding.stickOr (d a b : Fin 16) : Sys2Proof.Laws.Encoding.Statement (.stickOr d a b) := by
  intro v h; cases h <;> exact ⟨rfl, rfl⟩
theorem Sys2Proof.Laws.Encoding.stickXor (d a b : Fin 16) : Sys2Proof.Laws.Encoding.Statement (.stickXor d a b) := by
  intro v h; cases h <;> exact ⟨rfl, rfl⟩
theorem Sys2Proof.Laws.Encoding.stickShl (d a : Fin 16) (n : BitVec 6) : Sys2Proof.Laws.Encoding.Statement (.stickShl d a n) := by
  intro v h; cases h <;> exact ⟨rfl, rfl⟩
theorem Sys2Proof.Laws.Encoding.stickShr (d a : Fin 16) (n : BitVec 6) : Sys2Proof.Laws.Encoding.Statement (.stickShr d a n) := by
  intro v h; cases h <;> exact ⟨rfl, rfl⟩
theorem Sys2Proof.Laws.Encoding.stickMul (d a b : Fin 16) : Sys2Proof.Laws.Encoding.Statement (.stickMul d a b) := by
  intro v h; cases h <;> exact ⟨rfl, rfl⟩
theorem Sys2Proof.Laws.Encoding.stickDivu (d a b : Fin 16) : Sys2Proof.Laws.Encoding.Statement (.stickDivu d a b) := by
  intro v h; cases h <;> exact ⟨rfl, rfl⟩
theorem Sys2Proof.Laws.Encoding.stickMinu (d a b : Fin 16) : Sys2Proof.Laws.Encoding.Statement (.stickMinu d a b) := by
  intro v h; cases h <;> exact ⟨rfl, rfl⟩
theorem Sys2Proof.Laws.Encoding.stickMaxu (d a b : Fin 16) : Sys2Proof.Laws.Encoding.Statement (.stickMaxu d a b) := by
  intro v h; cases h <;> exact ⟨rfl, rfl⟩
theorem Sys2Proof.Laws.Encoding.stickLd (d a : Fin 16) (w : Fin 4) (off : BitVec 17) : Sys2Proof.Laws.Encoding.Statement (.stickLd d a w off) := by
  intro v h; cases h <;> exact ⟨rfl, rfl⟩
theorem Sys2Proof.Laws.Encoding.stickSt (d a : Fin 16) (w : Fin 4) (off : BitVec 17) : Sys2Proof.Laws.Encoding.Statement (.stickSt d a w off) := by
  intro v h; cases h <;> exact ⟨rfl, rfl⟩
theorem Sys2Proof.Laws.Encoding.stickLrd (d : Fin 16) (i : Fin 16) : Sys2Proof.Laws.Encoding.Statement (.stickLrd d i) := by
  intro v h; cases h <;> exact ⟨rfl, rfl⟩
theorem Sys2Proof.Laws.Encoding.stickLwr (a : Fin 16) (i : Fin 16) : Sys2Proof.Laws.Encoding.Statement (.stickLwr a i) := by
  intro v h; cases h <;> exact ⟨rfl, rfl⟩
theorem Sys2Proof.Laws.Encoding.stickBz (a : Fin 16) (imm : BitVec 19) : Sys2Proof.Laws.Encoding.Statement (.stickBz a imm) := by
  intro v h; cases h <;> exact ⟨rfl, rfl⟩
theorem Sys2Proof.Laws.Encoding.stickBnz (a : Fin 16) (imm : BitVec 19) : Sys2Proof.Laws.Encoding.Statement (.stickBnz a imm) := by
  intro v h; cases h <;> exact ⟨rfl, rfl⟩
theorem Sys2Proof.Laws.Encoding.stickBltu (a b : Fin 16) (off : BitVec 15) : Sys2Proof.Laws.Encoding.Statement (.stickBltu a b off) := by
  intro v h; cases h <;> exact ⟨rfl, rfl⟩
theorem Sys2Proof.Laws.Encoding.stickLoop (a : Fin 16) (imm : BitVec 19) : Sys2Proof.Laws.Encoding.Statement (.stickLoop a imm) := by
  intro v h; cases h <;> exact ⟨rfl, rfl⟩
theorem Sys2Proof.Laws.Encoding.stickCancel : Sys2Proof.Laws.Encoding.Statement .stickCancel := by
  intro v h; cases h <;> exact ⟨rfl, rfl⟩
theorem Sys2Proof.Laws.Encoding.stickRept (a : Fin 16) : Sys2Proof.Laws.Encoding.Statement (.stickRept a) := by
  intro v h; cases h <;> exact ⟨rfl, rfl⟩
theorem Sys2Proof.Laws.Encoding.stickClk (d : Fin 16) : Sys2Proof.Laws.Encoding.Statement (.stickClk d) := by
  intro v h; cases h <;> exact ⟨rfl, rfl⟩
theorem Sys2Proof.Laws.Encoding.landing (x : Nat) : Sys2Proof.Laws.Encoding.Statement (.landing x) := by
  intro v h; cases h <;> exact ⟨rfl, rfl⟩
theorem Sys2Proof.Laws.Encoding.variableLatencyArrival (x id : Nat) : Sys2Proof.Laws.Encoding.Statement (.variableLatencyArrival x id) := by
  intro v h; cases h <;> exact ⟨rfl, rfl⟩
theorem Sys2Proof.Laws.Encoding.stallWatchdogExpiry (x : Nat) : Sys2Proof.Laws.Encoding.Statement (.stallWatchdogExpiry x) := by
  intro v h; cases h <;> exact ⟨rfl, rfl⟩
theorem Sys2Proof.Laws.Encoding.holdReleaseResume (x src : Nat) : Sys2Proof.Laws.Encoding.Statement (.holdReleaseResume x src) := by
  intro v h; cases h <;> exact ⟨rfl, rfl⟩
theorem Sys2Proof.Laws.Encoding.debugHaltRequest (x : Nat) : Sys2Proof.Laws.Encoding.Statement (.debugHaltRequest x) := by
  intro v h; cases h <;> exact ⟨rfl, rfl⟩
theorem Sys2Proof.Laws.Encoding.sclkCompareMatch (x : Nat) : Sys2Proof.Laws.Encoding.Statement (.sclkCompareMatch x) := by
  intro v h; cases h <;> exact ⟨rfl, rfl⟩
theorem Sys2Proof.Laws.Encoding.interruptTaken (x : Nat) : Sys2Proof.Laws.Encoding.Statement (.interruptTaken x) := by
  intro v h; cases h <;> exact ⟨rfl, rfl⟩
theorem Sys2Proof.Laws.Encoding.streamStart (x : Nat) (e : Sys2Proof.Eng) : Sys2Proof.Laws.Encoding.Statement (.streamStart x e) := by
  intro v h; cases h <;> exact ⟨rfl, rfl⟩
theorem Sys2Proof.Laws.Encoding.streamGroupRead (x : Nat) (e : Sys2Proof.Eng) : Sys2Proof.Laws.Encoding.Statement (.streamGroupRead x e) := by
  intro v h; cases h <;> exact ⟨rfl, rfl⟩
theorem Sys2Proof.Laws.Encoding.streamGroupWrite (x : Nat) : Sys2Proof.Laws.Encoding.Statement (.streamGroupWrite x) := by
  intro v h; cases h <;> exact ⟨rfl, rfl⟩
theorem Sys2Proof.Laws.Encoding.matrixWordStart (x : Nat) : Sys2Proof.Laws.Encoding.Statement (.matrixWordStart x) := by
  intro v h; cases h <;> exact ⟨rfl, rfl⟩
theorem Sys2Proof.Laws.Encoding.matrixDelivery (x : Nat) : Sys2Proof.Laws.Encoding.Statement (.matrixDelivery x) := by
  intro v h; cases h <;> exact ⟨rfl, rfl⟩
theorem Sys2Proof.Laws.Encoding.handleWordServe (x id : Nat) : Sys2Proof.Laws.Encoding.Statement (.handleWordServe x id) := by
  intro v h; cases h <;> exact ⟨rfl, rfl⟩
theorem Sys2Proof.Laws.Encoding.heldCommandTrap (x : Nat) : Sys2Proof.Laws.Encoding.Statement (.heldCommandTrap x) := by
  intro v h; cases h <;> exact ⟨rfl, rfl⟩
theorem Sys2Proof.Laws.Encoding.commandCompletion (x id : Nat) : Sys2Proof.Laws.Encoding.Statement (.commandCompletion x id) := by
  intro v h; cases h <;> exact ⟨rfl, rfl⟩
theorem Sys2Proof.Laws.Encoding.flagWrite (x id : Nat) : Sys2Proof.Laws.Encoding.Statement (.flagWrite x id) := by
  intro v h; cases h <;> exact ⟨rfl, rfl⟩
theorem Sys2Proof.Laws.Encoding.strandEnd (x : Nat) : Sys2Proof.Laws.Encoding.Statement (.strandEnd x) := by
  intro v h; cases h <;> exact ⟨rfl, rfl⟩
theorem Sys2Proof.Laws.Encoding.windowWrite (core off n val : Nat) : Sys2Proof.Laws.Encoding.Statement (.windowWrite core off n val) := by
  intro v h; cases h <;> exact ⟨rfl, rfl⟩
theorem Sys2Proof.Laws.Encoding.windowRead (core off n : Nat) : Sys2Proof.Laws.Encoding.Statement (.windowRead core off n) := by
  intro v h; cases h <;> exact ⟨rfl, rfl⟩
theorem Sys2Proof.Laws.Encoding.contextWriteEffect (x : Nat) : Sys2Proof.Laws.Encoding.Statement (.contextWriteEffect x) := by
  intro v h; cases h <;> exact ⟨rfl, rfl⟩
theorem Sys2Proof.Laws.Encoding.accessPerform (x id : Nat) : Sys2Proof.Laws.Encoding.Statement (.accessPerform x id) := by
  intro v h; cases h <;> exact ⟨rfl, rfl⟩
theorem Sys2Proof.Laws.Encoding.packetDepart (core slot : Nat) : Sys2Proof.Laws.Encoding.Statement (.packetDepart core slot) := by
  intro v h; cases h <;> exact ⟨rfl, rfl⟩
theorem Sys2Proof.Laws.Encoding.packetArrive (core slot id : Nat) : Sys2Proof.Laws.Encoding.Statement (.packetArrive core slot id) := by
  intro v h; cases h <;> exact ⟨rfl, rfl⟩
theorem Sys2Proof.Laws.Encoding.creditReturn (core slot : Nat) : Sys2Proof.Laws.Encoding.Statement (.creditReturn core slot) := by
  intro v h; cases h <;> exact ⟨rfl, rfl⟩
theorem Sys2Proof.Laws.Encoding.ngetRequestAccept (core slot id : Nat) : Sys2Proof.Laws.Encoding.Statement (.ngetRequestAccept core slot id) := by
  intro v h; cases h <;> exact ⟨rfl, rfl⟩
theorem Sys2Proof.Laws.Encoding.barrierRelease (gang level unit count : Nat) : Sys2Proof.Laws.Encoding.Statement (.barrierRelease gang level unit count) := by
  intro v h; cases h <;> exact ⟨rfl, rfl⟩
theorem Sys2Proof.Laws.Encoding.collectiveComplete (gang level unit ord : Nat) : Sys2Proof.Laws.Encoding.Statement (.collectiveComplete gang level unit ord) := by
  intro v h; cases h <;> exact ⟨rfl, rfl⟩
theorem Sys2Proof.Laws.Encoding.holdBudgetExpiry (x quoin : Nat) : Sys2Proof.Laws.Encoding.Statement (.holdBudgetExpiry x quoin) := by
  intro v h; cases h <;> exact ⟨rfl, rfl⟩
theorem Sys2Proof.Laws.Encoding.refreshInterval (ch bank : Nat) : Sys2Proof.Laws.Encoding.Statement (.refreshInterval ch bank) := by
  intro v h; cases h <;> exact ⟨rfl, rfl⟩
theorem Sys2Proof.Laws.Encoding.temperatureCrossing (stack : Nat) (hot : Bool) : Sys2Proof.Laws.Encoding.Statement (.temperatureCrossing stack hot) := by
  intro v h; cases h <;> exact ⟨rfl, rfl⟩
theorem Sys2Proof.Laws.Encoding.regionWatchdogExpiry (x : Nat) : Sys2Proof.Laws.Encoding.Statement (.regionWatchdogExpiry x) := by
  intro v h; cases h <;> exact ⟨rfl, rfl⟩
theorem Sys2Proof.Laws.Encoding.rephasePointApply (x : Nat) : Sys2Proof.Laws.Encoding.Statement (.rephasePointApply x) := by
  intro v h; cases h <;> exact ⟨rfl, rfl⟩
theorem Sys2Proof.Laws.Encoding.rephaseHoldEnd (x : Nat) : Sys2Proof.Laws.Encoding.Statement (.rephaseHoldEnd x) := by
  intro v h; cases h <;> exact ⟨rfl, rfl⟩
theorem Sys2Proof.Laws.Encoding.strandStart (x : Nat) : Sys2Proof.Laws.Encoding.Statement (.strandStart x) := by
  intro v h; cases h <;> exact ⟨rfl, rfl⟩
theorem Sys2Proof.Laws.Encoding.doorbell (q val : Nat) : Sys2Proof.Laws.Encoding.Statement (.doorbell q val) := by
  intro v h; cases h <;> exact ⟨rfl, rfl⟩
theorem Sys2Proof.Laws.Encoding.joinNode (q slot : Nat) : Sys2Proof.Laws.Encoding.Statement (.joinNode q slot) := by
  intro v h; cases h <;> exact ⟨rfl, rfl⟩
theorem Sys2Proof.Laws.Encoding.launchNode (q slot : Nat) : Sys2Proof.Laws.Encoding.Statement (.launchNode q slot) := by
  intro v h; cases h <;> exact ⟨rfl, rfl⟩
theorem Sys2Proof.Laws.Encoding.stagingComplete (q slot : Nat) : Sys2Proof.Laws.Encoding.Statement (.stagingComplete q slot) := by
  intro v h; cases h <;> exact ⟨rfl, rfl⟩
theorem Sys2Proof.Laws.Encoding.repetitionStart (q slot : Nat) : Sys2Proof.Laws.Encoding.Statement (.repetitionStart q slot) := by
  intro v h; cases h <;> exact ⟨rfl, rfl⟩
theorem Sys2Proof.Laws.Encoding.launchComplete (q slot : Nat) : Sys2Proof.Laws.Encoding.Statement (.launchComplete q slot) := by
  intro v h; cases h <;> exact ⟨rfl, rfl⟩
theorem Sys2Proof.Laws.Encoding.budgetExpiry (q slot : Nat) : Sys2Proof.Laws.Encoding.Statement (.budgetExpiry q slot) := by
  intro v h; cases h <;> exact ⟨rfl, rfl⟩
theorem Sys2Proof.Laws.Encoding.conditionalNode (q slot : Nat) : Sys2Proof.Laws.Encoding.Statement (.conditionalNode q slot) := by
  intro v h; cases h <;> exact ⟨rfl, rfl⟩
theorem Sys2Proof.Laws.Encoding.loopNode (q slot : Nat) : Sys2Proof.Laws.Encoding.Statement (.loopNode q slot) := by
  intro v h; cases h <;> exact ⟨rfl, rfl⟩
theorem Sys2Proof.Laws.Encoding.hostSignalNode (q slot : Nat) : Sys2Proof.Laws.Encoding.Statement (.hostSignalNode q slot) := by
  intro v h; cases h <;> exact ⟨rfl, rfl⟩
theorem Sys2Proof.Laws.Encoding.signalNode (q slot : Nat) : Sys2Proof.Laws.Encoding.Statement (.signalNode q slot) := by
  intro v h; cases h <;> exact ⟨rfl, rfl⟩
theorem Sys2Proof.Laws.Encoding.rephaseNode (q slot : Nat) : Sys2Proof.Laws.Encoding.Statement (.rephaseNode q slot) := by
  intro v h; cases h <;> exact ⟨rfl, rfl⟩
theorem Sys2Proof.Laws.Encoding.cqprogWrite (q val : Nat) : Sys2Proof.Laws.Encoding.Statement (.cqprogWrite q val) := by
  intro v h; cases h <;> exact ⟨rfl, rfl⟩
theorem Sys2Proof.Laws.Encoding.cqnprogWrite (q val : Nat) : Sys2Proof.Laws.Encoding.Statement (.cqnprogWrite q val) := by
  intro v h; cases h <;> exact ⟨rfl, rfl⟩
theorem Sys2Proof.Laws.Encoding.cqerrRead (q : Nat) : Sys2Proof.Laws.Encoding.Statement (.cqerrRead q) := by
  intro v h; cases h <;> exact ⟨rfl, rfl⟩
theorem Sys2Proof.Laws.Encoding.standbyFill (core q slot : Nat) : Sys2Proof.Laws.Encoding.Statement (.standbyFill core q slot) := by
  intro v h; cases h <;> exact ⟨rfl, rfl⟩
theorem Sys2Proof.Laws.Encoding.afcUpdate : Sys2Proof.Laws.Encoding.Statement .afcUpdate := by
  intro v h; cases h <;> exact ⟨rfl, rfl⟩
theorem Sys2Proof.Laws.Encoding.hrpostWrite (vf ring val src orig : Nat) : Sys2Proof.Laws.Encoding.Statement (.hrpostWrite vf ring val src orig) := by
  intro v h; cases h <;> exact ⟨rfl, rfl⟩
theorem Sys2Proof.Laws.Encoding.ringRecordWrite (vf ring : Nat) : Sys2Proof.Laws.Encoding.Statement (.ringRecordWrite vf ring) := by
  intro v h; cases h <;> exact ⟨rfl, rfl⟩
theorem Sys2Proof.Laws.Encoding.hrconsWrite (vf ring val : Nat) : Sys2Proof.Laws.Encoding.Statement (.hrconsWrite vf ring val) := by
  intro v h; cases h <;> exact ⟨rfl, rfl⟩
theorem Sys2Proof.Laws.Encoding.hrctlWrite (vf ring val : Nat) : Sys2Proof.Laws.Encoding.Statement (.hrctlWrite vf ring val) := by
  intro v h; cases h <;> exact ⟨rfl, rfl⟩
theorem Sys2Proof.Laws.Encoding.ringTimerExpiry (vf ring : Nat) : Sys2Proof.Laws.Encoding.Statement (.ringTimerExpiry vf ring) := by
  intro v h; cases h <;> exact ⟨rfl, rfl⟩
theorem Sys2Proof.Laws.Encoding.hrstatRead (vf ring : Nat) : Sys2Proof.Laws.Encoding.Statement (.hrstatRead vf ring) := by
  intro v h; cases h <;> exact ⟨rfl, rfl⟩
theorem Sys2Proof.Laws.Encoding.erlostRead (vf : Nat) : Sys2Proof.Laws.Encoding.Statement (.erlostRead vf) := by
  intro v h; cases h <;> exact ⟨rfl, rfl⟩
theorem Sys2Proof.Laws.Encoding.s1inv (vf val : Nat) : Sys2Proof.Laws.Encoding.Statement (.s1inv vf val) := by
  intro v h; cases h <;> exact ⟨rfl, rfl⟩
theorem Sys2Proof.Laws.Encoding.s2inv (vf val : Nat) : Sys2Proof.Laws.Encoding.Statement (.s2inv vf val) := by
  intro v h; cases h <;> exact ⟨rfl, rfl⟩
theorem Sys2Proof.Laws.Encoding.invalidationComplete (vf : Nat) : Sys2Proof.Laws.Encoding.Statement (.invalidationComplete vf) := by
  intro v h; cases h <;> exact ⟨rfl, rfl⟩
theorem Sys2Proof.Laws.Encoding.walkComplete (walk : Nat) : Sys2Proof.Laws.Encoding.Statement (.walkComplete walk) := by
  intro v h; cases h <;> exact ⟨rfl, rfl⟩
theorem Sys2Proof.Laws.Encoding.tresumeResume (vf val : Nat) (byPf : Bool) : Sys2Proof.Laws.Encoding.Statement (.tresumeResume vf val byPf) := by
  intro v h; cases h <;> exact ⟨rfl, rfl⟩
theorem Sys2Proof.Laws.Encoding.tresumeEnd (vf val : Nat) (byPf : Bool) : Sys2Proof.Laws.Encoding.Statement (.tresumeEnd vf val byPf) := by
  intro v h; cases h <;> exact ⟨rfl, rfl⟩
theorem Sys2Proof.Laws.Encoding.vfquadsWrite (vf val : Nat) : Sys2Proof.Laws.Encoding.Statement (.vfquadsWrite vf val) := by
  intro v h; cases h <;> exact ⟨rfl, rfl⟩
theorem Sys2Proof.Laws.Encoding.pstitchWrite (vf val : Nat) : Sys2Proof.Laws.Encoding.Statement (.pstitchWrite vf val) := by
  intro v h; cases h <;> exact ⟨rfl, rfl⟩
theorem Sys2Proof.Laws.Encoding.vfslotsWrite (vf word val : Nat) : Sys2Proof.Laws.Encoding.Statement (.vfslotsWrite vf word val) := by
  intro v h; cases h <;> exact ⟨rfl, rfl⟩
theorem Sys2Proof.Laws.Encoding.partitionReset (vf val : Nat) : Sys2Proof.Laws.Encoding.Statement (.partitionReset vf val) := by
  intro v h; cases h <;> exact ⟨rfl, rfl⟩
theorem Sys2Proof.Laws.Encoding.partitionResetClear (vf : Nat) : Sys2Proof.Laws.Encoding.Statement (.partitionResetClear vf) := by
  intro v h; cases h <;> exact ⟨rfl, rfl⟩
theorem Sys2Proof.Laws.Encoding.functionLevelReset (vf : Nat) : Sys2Proof.Laws.Encoding.Statement (.functionLevelReset vf) := by
  intro v h; cases h <;> exact ⟨rfl, rfl⟩
theorem Sys2Proof.Laws.Encoding.hotReset : Sys2Proof.Laws.Encoding.Statement .hotReset := by
  intro v h; cases h <;> exact ⟨rfl, rfl⟩
theorem Sys2Proof.Laws.Encoding.coldReset : Sys2Proof.Laws.Encoding.Statement .coldReset := by
  intro v h; cases h <;> exact ⟨rfl, rfl⟩
theorem Sys2Proof.Laws.Encoding.warmReset : Sys2Proof.Laws.Encoding.Statement .warmReset := by
  intro v h; cases h <;> exact ⟨rfl, rfl⟩
theorem Sys2Proof.Laws.Encoding.stackTrainingComplete (stack rate : Nat) : Sys2Proof.Laws.Encoding.Statement (.stackTrainingComplete stack rate) := by
  intro v h; cases h <;> exact ⟨rfl, rfl⟩
theorem Sys2Proof.Laws.Encoding.selfTestPass : Sys2Proof.Laws.Encoding.Statement .selfTestPass := by
  intro v h; cases h <;> exact ⟨rfl, rfl⟩
theorem Sys2Proof.Laws.Encoding.fullServiceEntry : Sys2Proof.Laws.Encoding.Statement .fullServiceEntry := by
  intro v h; cases h <;> exact ⟨rfl, rfl⟩
theorem Sys2Proof.Laws.Encoding.pmreqPreempt (val : Nat) : Sys2Proof.Laws.Encoding.Statement (.pmreqPreempt val) := by
  intro v h; cases h <;> exact ⟨rfl, rfl⟩
theorem Sys2Proof.Laws.Encoding.preemptSave (q slot : Nat) : Sys2Proof.Laws.Encoding.Statement (.preemptSave q slot) := by
  intro v h; cases h <;> exact ⟨rfl, rfl⟩
theorem Sys2Proof.Laws.Encoding.pmreqResume (val : Nat) : Sys2Proof.Laws.Encoding.Statement (.pmreqResume val) := by
  intro v h; cases h <;> exact ⟨rfl, rfl⟩
theorem Sys2Proof.Laws.Encoding.cqsavnWrite (q val : Nat) : Sys2Proof.Laws.Encoding.Statement (.cqsavnWrite q val) := by
  intro v h; cases h <;> exact ⟨rfl, rfl⟩
theorem Sys2Proof.Laws.Encoding.stkrateWrite (stack val : Nat) : Sys2Proof.Laws.Encoding.Statement (.stkrateWrite stack val) := by
  intro v h; cases h <;> exact ⟨rfl, rfl⟩
theorem Sys2Proof.Laws.Encoding.retrainingComplete (stack : Nat) : Sys2Proof.Laws.Encoding.Statement (.retrainingComplete stack) := by
  intro v h; cases h <;> exact ⟨rfl, rfl⟩
theorem Sys2Proof.Laws.Encoding.chretWrite (val : Nat) : Sys2Proof.Laws.Encoding.Statement (.chretWrite val) := by
  intro v h; cases h <;> exact ⟨rfl, rfl⟩
theorem Sys2Proof.Laws.Encoding.retirementDrainDone : Sys2Proof.Laws.Encoding.Statement .retirementDrainDone := by
  intro v h; cases h <;> exact ⟨rfl, rfl⟩
theorem Sys2Proof.Laws.Encoding.retirementCopyDone : Sys2Proof.Laws.Encoding.Statement .retirementCopyDone := by
  intro v h; cases h <;> exact ⟨rfl, rfl⟩
theorem Sys2Proof.Laws.Encoding.generationBroadcast (pkg gen : Nat) : Sys2Proof.Laws.Encoding.Statement (.generationBroadcast pkg gen) := by
  intro v h; cases h <;> exact ⟨rfl, rfl⟩
theorem Sys2Proof.Laws.Encoding.podAlignment (pkg npkg : Nat) (walk : AlignWalk) : Sys2Proof.Laws.Encoding.Statement (.podAlignment pkg npkg walk) := by
  intro v h; cases h <;> exact ⟨rfl, rfl⟩
theorem Sys2Proof.Laws.Encoding.alignmentRelease : Sys2Proof.Laws.Encoding.Statement .alignmentRelease := by
  intro v h; cases h <;> exact ⟨rfl, rfl⟩
theorem Sys2Proof.Laws.Encoding.flitReceive (link head payload crc : Nat) (corrected : Bool) : Sys2Proof.Laws.Encoding.Statement (.flitReceive link head payload crc corrected) := by
  intro v h; cases h <;> exact ⟨rfl, rfl⟩
theorem Sys2Proof.Laws.Encoding.retryNotice (link pair rseq : Nat) : Sys2Proof.Laws.Encoding.Statement (.retryNotice link pair rseq) := by
  intro v h; cases h <;> exact ⟨rfl, rfl⟩
theorem Sys2Proof.Laws.Encoding.flitResend (link pair reel : Nat) : Sys2Proof.Laws.Encoding.Statement (.flitResend link pair reel) := by
  intro v h; cases h <;> exact ⟨rfl, rfl⟩
theorem Sys2Proof.Laws.Encoding.spstatRead (link : Nat) : Sys2Proof.Laws.Encoding.Statement (.spstatRead link) := by
  intro v h; cases h <;> exact ⟨rfl, rfl⟩
theorem Sys2Proof.Laws.Encoding.linkEvent (kind : Sys2Proof.LinkEventKind) (vf addr : Nat) : Sys2Proof.Laws.Encoding.Statement (.linkEvent kind vf addr) := by
  intro v h; cases h <;> exact ⟨rfl, rfl⟩
theorem Sys2Proof.Laws.Encoding.apertureAccess (vf off n : Nat) (write : Bool) (val : Nat) : Sys2Proof.Laws.Encoding.Statement (.apertureAccess vf off n write val) := by
  intro v h; cases h <;> exact ⟨rfl, rfl⟩
theorem Sys2Proof.Laws.Encoding.msixUnmask (fn vec : Nat) : Sys2Proof.Laws.Encoding.Statement (.msixUnmask fn vec) := by
  intro v h; cases h <;> exact ⟨rfl, rfl⟩
theorem Sys2Proof.Laws.Encoding.softErrorCorrected (place : Nat) : Sys2Proof.Laws.Encoding.Statement (.softErrorCorrected place) := by
  intro v h; cases h <;> exact ⟨rfl, rfl⟩
theorem Sys2Proof.Laws.Encoding.softErrorUncorrectable (space addr : Nat) : Sys2Proof.Laws.Encoding.Statement (.softErrorUncorrectable space addr) := by
  intro v h; cases h <;> exact ⟨rfl, rfl⟩
theorem Sys2Proof.Laws.Encoding.thermalWarn (die : Nat) : Sys2Proof.Laws.Encoding.Statement (.thermalWarn die) := by
  intro v h; cases h <;> exact ⟨rfl, rfl⟩
theorem Sys2Proof.Laws.Encoding.thermalTrip : Sys2Proof.Laws.Encoding.Statement .thermalTrip := by
  intro v h; cases h <;> exact ⟨rfl, rfl⟩
theorem Sys2Proof.Laws.Encoding.fwcmdLoad : Sys2Proof.Laws.Encoding.Statement .fwcmdLoad := by
  intro v h; cases h <;> exact ⟨rfl, rfl⟩
theorem Sys2Proof.Laws.Encoding.fwcmdQuote : Sys2Proof.Laws.Encoding.Statement .fwcmdQuote := by
  intro v h; cases h <;> exact ⟨rfl, rfl⟩
theorem Sys2Proof.Laws.Encoding.fwcmdLog : Sys2Proof.Laws.Encoding.Statement .fwcmdLog := by
  intro v h; cases h <;> exact ⟨rfl, rfl⟩
theorem Sys2Proof.Laws.Encoding.fwcmdCert : Sys2Proof.Laws.Encoding.Statement .fwcmdCert := by
  intro v h; cases h <;> exact ⟨rfl, rfl⟩
theorem Sys2Proof.Laws.Encoding.handoverCommit : Sys2Proof.Laws.Encoding.Statement .handoverCommit := by
  intro v h; cases h <;> exact ⟨rfl, rfl⟩
theorem Sys2Proof.Laws.Encoding.handoverAbandon : Sys2Proof.Laws.Encoding.Statement .handoverAbandon := by
  intro v h; cases h <;> exact ⟨rfl, rfl⟩
theorem Sys2Proof.Laws.Encoding.walkerDeal (gang : Nat) : Sys2Proof.Laws.Encoding.Statement (.walkerDeal gang) := by
  intro v h; cases h <;> exact ⟨rfl, rfl⟩
theorem Sys2Proof.Laws.Encoding.registerWrite (view off n val : Nat) : Sys2Proof.Laws.Encoding.Statement (.registerWrite view off n val) := by
  intro v h; cases h <;> exact ⟨rfl, rfl⟩
theorem Sys2Proof.Laws.Encoding.compositorQueueCreate (q vf : Nat) : Sys2Proof.Laws.Encoding.Statement (.compositorQueueCreate q vf) := by
  intro v h; cases h <;> exact ⟨rfl, rfl⟩
theorem Sys2Proof.Laws.Encoding.pfFunctionLevelReset : Sys2Proof.Laws.Encoding.Statement .pfFunctionLevelReset := by
  intro v h; cases h <;> exact ⟨rfl, rfl⟩
theorem Sys2Proof.Laws.Encoding.speatLinkTrained (link lat peerPkg peerLink : Nat) : Sys2Proof.Laws.Encoding.Statement (.speatLinkTrained link lat peerPkg peerLink) := by
  intro v h; cases h <;> exact ⟨rfl, rfl⟩
end

