-- ==== Sys2Proof/Laws/Trap.lean ====
section
/-! SUPPORT. Taking a trap: what is recorded, what a freeze and a suspension leave (R35 to R38, R40), in full. -/

namespace Sys2Proof.Machine

/-- What a trap records: `trc`, `trs` and the six resume points; queues whose word has been read keep it; nothing else of the strand
(R36, R37, R85). -/
theorem State.recordTrap_t (s : State) (w : Word) : (s.recordTrap w).t =
    { s.t with
      queues := Vector.ofFn fun e : Fin 6 => s.hasRead (vget s.t.queues e.val {})
      ctx := { s.t.ctx with trc := w, trs := BitVec.ofNat 64 s.t.ctx.sclk, tq := Vector.ofFn fun e : Fin 6 => s.resumePoint (vget s.t.queues e.val {}) } } := by
  unfold State.recordTrap; rw [State.t_upd]; rfl

theorem State.recordTrap_strandAt_ne (s : State) (w : Word) {y : Nat} (h : y ≠ s.cur) : (s.recordTrap w).strandAt y = s.strandAt y := by
  unfold State.recordTrap; exact State.strandAt_upd_ne _ h _

/-- A bit of `vaerus` touches nothing of the strands, the cores or the memories, and takes no report away (R363). -/
theorem State.setVaer_keeps (s : State) (v k a : Nat) : (s.setVaer v k a).strands = s.strands ∧ (s.setVaer v k a).cur = s.cur ∧
    (s.setVaer v k a).cores = s.cores ∧ (∀ r ∈ s.dev.reports, r ∈ (s.setVaer v k a).dev.reports) ∧
    (∀ sp, (s.setVaer v k a).mem sp = s.mem sp) ∧ ∀ sp, (s.setVaer v k a).poison sp = s.poison sp := by
  unfold State.setVaer
  simp only
  split
  · refine ⟨rfl, rfl, rfl, fun r h => h, ?_, ?_⟩ <;> intro sp <;> cases sp <;> rfl
  · refine ⟨rfl, rfl, rfl, fun r h => List.mem_append_left _ h, ?_, ?_⟩ <;> intro sp <;> cases sp <;> rfl

/-- `EC 1` marks its VF's `vaerus` and nothing of the strands, the cores or the memories. -/
theorem State.noteEc_keeps (s : State) (tr : Trap) (v : Nat) : (s.noteEc tr v).strands = s.strands ∧ (s.noteEc tr v).cur = s.cur ∧
    (s.noteEc tr v).cores = s.cores ∧ (∀ r ∈ s.dev.reports, r ∈ (s.noteEc tr v).dev.reports) ∧
    (∀ sp, (s.noteEc tr v).mem sp = s.mem sp) ∧ ∀ sp, (s.noteEc tr v).poison sp = s.poison sp := by
  unfold State.noteEc
  split
  · exact s.setVaer_keeps v 4 tr.addr
  · exact ⟨rfl, rfl, rfl, fun r h => h, fun _ => rfl, fun _ => rfl⟩

/-- A report touches nothing of the strands, the cores or the memories, and is among the reports with those before it (R360). -/
theorem State.report_keeps (s : State) (e : EventRec) : (s.report e).strands = s.strands ∧ (s.report e).cur = s.cur ∧
    (s.report e).cores = s.cores ∧ (∀ r, r = e ∨ r ∈ s.dev.reports → r ∈ (s.report e).dev.reports) ∧
    (∀ sp, (s.report e).mem sp = s.mem sp) ∧ ∀ sp, (s.report e).poison sp = s.poison sp := by
  refine ⟨rfl, rfl, rfl, ?_, ?_, ?_⟩
  · intro r h
    unfold State.report State.schedule
    rcases h with h | h <;> simp [h]
  · intro sp; cases sp <;> rfl
  · intro sp; cases sp <;> rfl

/-- A host fault in the PF's log is a report (R353, R384). -/
theorem State.logHostFault_keeps (s : State) (tr : Trap) (queue : Nat) : (s.logHostFault tr queue).strands = s.strands ∧
    (s.logHostFault tr queue).cur = s.cur ∧ (s.logHostFault tr queue).cores = s.cores ∧
    (∀ r ∈ s.dev.reports, r ∈ (s.logHostFault tr queue).dev.reports) ∧
    (∀ sp, (s.logHostFault tr queue).mem sp = s.mem sp) ∧ ∀ sp, (s.logHostFault tr queue).poison sp = s.poison sp := by
  unfold State.logHostFault
  split
  · obtain ⟨a, b, c, d, e, f⟩ := s.report_keeps { s.trapRecord tr queue with vf := 64 }
    exact ⟨a, b, c, fun r h => d r (.inr h), e, f⟩
  · exact ⟨rfl, rfl, rfl, fun r h => h, fun _ => rfl, fun _ => rfl⟩

/-- An announcement marks the strand, if its gang is exact, and adds a hold to the others of that gang (R30, R297). -/
theorem State.announceHold_spec (s : State) :
    s.announceHold.t = { s.t with announced := s.t.announced || s.t.exact } ∧
    (∀ y, y ≠ s.cur → ∃ l, s.announceHold.strandAt y = { s.strandAt y with holds := l }) ∧
    s.announceHold.sansStrands = s.sansStrands ∧ s.announceHold.agenda = s.agenda := by
  suffices hr : ∀ r, r = s.announceHold → r.t = { s.t with announced := s.t.announced || s.t.exact } ∧
      (∀ y, y ≠ s.cur → ∃ l, r.strandAt y = { s.strandAt y with holds := l }) ∧
      r.sansStrands = s.sansStrands ∧ r.agenda = s.agenda from hr _ rfl
  intro r hr
  unfold State.announceHold at hr
  simp only at hr
  split at hr
  · rename_i h
    rw [hr]
    refine ⟨?_, fun y _ => ⟨_, rfl⟩, rfl, rfl⟩
    cases he : s.t.exact with
    | false => simp
    | true =>
      have ha : s.t.announced = true := by simpa [he] using h
      simp [← ha]
  · rename_i h
    have he : s.t.exact = true := by
      cases hx : s.t.exact with
      | true => rfl
      | false => simp [hx] at h
    have h1 : ((s.upd fun t => { t with announced := true }).strandAt s.cur = { s.t with announced := s.t.announced || s.t.exact }) ∧
        (∀ y, y ≠ s.cur → ∃ l, (s.upd fun t => { t with announced := true }).strandAt y = { s.strandAt y with holds := l }) ∧
        (s.upd fun t => { t with announced := true }).sansStrands = s.sansStrands ∧
        (s.upd fun t => { t with announced := true }).agenda = s.agenda := by
      refine ⟨by simp [State.upd, he], fun y hy => ⟨_, by rw [State.strandAt_upd_ne s hy]⟩, rfl, rfl⟩
    have ht : r.cur = s.cur → r.strandAt s.cur = { s.t with announced := s.t.announced || s.t.exact } →
        r.t = { s.t with announced := s.t.announced || s.t.exact } := by
      intro a b; unfold State.t; rw [a, b]; rfl
    suffices hs : r.strandAt s.cur = { s.t with announced := s.t.announced || s.t.exact } ∧
        (∀ y, y ≠ s.cur → ∃ l, r.strandAt y = { s.strandAt y with holds := l }) ∧ r.sansStrands = s.sansStrands ∧
        r.agenda = s.agenda from
      ⟨ht (by have e := congrArg State.cur hs.2.2.1; exact e) hs.1, hs.2⟩
    revert hr h1
    unfold State.spreadHold
    generalize (s.upd fun t => { t with announced := true }) = u
    generalize State.gangStrands _ _ = l
    intro hr h1
    subst hr
    clear ht
    induction l generalizing u with
    | nil => exact h1
    | cons a r ih =>
      rw [List.foldl_cons]
      apply ih
      simp only
      split
      · exact h1
      · rename_i ha
        refine ⟨?_, fun y hy => ?_, h1.2.2.1, h1.2.2.2⟩
        · rw [State.strandAt_setStrand_ne _ (Ne.symm ha)]; exact h1.1
        · by_cases hya : y = a
          · subst hya
            obtain ⟨l, hl⟩ := h1.2.1 y hy
            exact ⟨_, by rw [State.strandAt_setStrand_self, hl]⟩
          · rw [State.strandAt_setStrand_ne _ hya]; exact h1.2.1 y hy

/-- The freeze: the mode, the place, the handler's queue and `hclk`, and in an exact gang the hold it announces, nothing else of the
strand (R35, R297). -/
theorem State.recordTrap_freeze_t (s : State) (w : Word) (pos : Nat) : ((s.recordTrap w).freeze pos).t =
    (let t := { s.t with
        queues := Vector.ofFn fun e : Fin 6 => s.hasRead (vget s.t.queues e.val {})
        ctx := { s.t.ctx with trc := w, trs := BitVec.ofNat 64 s.t.ctx.sclk, tq := Vector.ofFn fun e : Fin 6 => s.resumePoint (vget s.t.queues e.val {}) } }
     let q := vget t.queues 0 {}
     { t with mode := .frozen, resumeAt := pos, micro := 0, offset := 0, hpend := [], stall := none, recFetch := none, back := false
              announced := t.announced || t.exact
              origin := t.origin + (if pos = 0 ∨ t.back then 0 else t.stride)
              hqueue := { q with idx := t.ctx.tvec.toNat % q.len, owe := none, waited := 0, halted := false, snaps := []
                                 pick := s.fresh, word := none, fixed := false }
              ctx := { t.ctx with hclk := 0 } }) := by
  have hf : (s.recordTrap w).announceHold.fresh = s.fresh := by
    have e := congrArg State.fresh (s.recordTrap w).announceHold_spec.2.2.1; exact e
  unfold State.freeze
  rw [State.tick_t, State.t_upd, (State.announceHold_spec _).1, State.recordTrap_t]
  rfl

/-- The suspension: the mode, the place and what it waits for, and in an exact gang the hold it announces; the tenant is told of it,
and the PF of a host fault (R35, R40, R297, R353). -/
theorem State.suspend_keeps (s : State) (tr : Trap) (queue pos : Nat) :
   (s.suspend tr queue pos).t = { s.t with mode := .suspended, resumeAt := pos, suspendedBy := some tr, hostFault := tr.host, stall := none, recFetch := none, announced := s.t.announced || s.t.exact } ∧
   (∀ y, y ≠ s.cur → ∃ l, (s.suspend tr queue pos).strandAt y = { s.strandAt y with holds := l }) ∧
   (s.suspend tr queue pos).cores = s.cores ∧
   (∀ sp, (s.suspend tr queue pos).mem sp = s.mem sp) ∧ (∀ sp, (s.suspend tr queue pos).poison sp = s.poison sp) ∧
   ∃ r ∈ (s.suspend tr queue pos).dev.reports, r.vf = s.t.vf ∧ r.orig = origOf s.cur ∧ r.cls = tr.cls ∧ r.num = tr.num ∧ r.detail = tr.recDetail.getD tr.detail := by
  obtain ⟨a1, a2, a3, -⟩ := s.announceHold_spec
  have ac : s.announceHold.cur = s.cur := by have e := congrArg State.cur a3; exact e
  have ak : s.announceHold.cores = s.cores := by have e := congrArg State.cores a3; exact e
  have am : ∀ sp, s.announceHold.mem sp = s.mem sp := by
    intro sp; have e := congrArg (fun x => State.mem x sp) a3; cases sp <;> exact e
  have ap : ∀ sp, s.announceHold.poison sp = s.poison sp := by
    intro sp; have e := congrArg (fun x => State.poison x sp) a3; cases sp <;> exact e
  unfold State.suspend
  generalize hw : (s.announceHold.upd fun t => { t with mode := .suspended, resumeAt := pos, suspendedBy := some tr, hostFault := tr.host, stall := none, recFetch := none }) = w
  have wc : w.cur = s.cur := by subst hw; exact ac
  have wt : w.t = { s.t with mode := .suspended, resumeAt := pos, suspendedBy := some tr, hostFault := tr.host, stall := none, recFetch := none, announced := s.t.announced || s.t.exact } := by
    subst hw; rw [State.t_upd, a1]
  have wy : ∀ y, y ≠ s.cur → ∃ l, w.strandAt y = { s.strandAt y with holds := l } := by
    intro y hy; subst hw; rw [State.strandAt_upd_ne _ (by rw [ac]; exact hy)]; exact a2 y hy
  have wk : w.cores = s.cores := by subst hw; exact ak
  have wm : ∀ sp, w.mem sp = s.mem sp := by intro sp; subst hw; rw [← am]; cases sp <;> rfl
  have wp : ∀ sp, w.poison sp = s.poison sp := by intro sp; subst hw; rw [← ap]; cases sp <;> rfl
  obtain ⟨h1, h2, h3, -, h5, h6⟩ := State.noteEc_keeps w tr s.t.vf
  clear hw
  generalize State.noteEc _ _ _ = v at *
  obtain ⟨r1, r2, r3, r4, r5, r6⟩ := v.report_keeps (s.trapRecord tr queue)
  generalize State.report _ _ = u at *
  obtain ⟨l1, l2, l3, l4, l5, l6⟩ := u.logHostFault_keeps tr queue
  generalize State.logHostFault _ _ _ = z at *
  have hs : z.strands = w.strands := l1.trans (r1.trans h1)
  have hc : z.cur = w.cur := l2.trans (r2.trans h2)
  refine ⟨?_, fun y hy => ?_, ?_, fun sp => ?_, fun sp => ?_, s.trapRecord tr queue, l4 _ (r4 _ (.inl rfl)), rfl, rfl, rfl, rfl, rfl⟩
  · rw [← wt]; unfold State.t State.strandAt; rw [hs, hc]
  · have : z.strandAt y = w.strandAt y := by unfold State.strandAt; rw [hs]
    rw [this]; exact wy y hy
  · rw [l3, r3, h3, wk]
  · rw [l5, r5, h5, wm]
  · rw [l6, r6, h6, wp]

end Sys2Proof.Machine
end

