-- ==== Sys2Proof/Tests/Slice0.lean ====
section
/-! SUPPORT. Small checks against the spec: what well-formedness refuses, words written out from the encoding tables, single
steps, and for each statement with hypotheses a state and operands that meet them. -/

set_option linter.unusedVariables false
set_option maxRecDepth 20000
set_option exponentiation.threshold 1200

namespace Sys2Proof.Tests

open Sys2Proof Sys2Proof.Machine

/-! ## Well-formedness: an ill-formed term for each check -/

def plain : Hdr := ⟨0, 0, 0, 0, false, false, false, false⟩
def sBody : SBody := ⟨.always, .la0, .imm, .q 0, .i64, .rne, false, .none, 0, 0, 5⟩
def vBody : VBody := ⟨.always, .g 0, .g 1, .q 0, .g 3, .i32, .rne, 0, false, .i8, false, 0, 0⟩
def fBody : VBody := ⟨.always, .lm, .q 0, .q 0, .lf 1, .f32, .rne, 0, false, .i8, false, 0, 0⟩
def dBody : VBody := ⟨.always, .dv 0, .dv 1, .q 0, .dv 2, .i8, .rne, 0, false, .i8, false, 0, 0⟩
def mBody : MBody := ⟨.always, .t 1, .q 0, .q 0, .t 2, 0, .rne, 0⟩
def cBody : CBody := ⟨.always, .la0, .la1, .imm, .q 0, 0, false, 0, 0, 0⟩
def nBody : NBody := ⟨.always, .g 0, .q 0, .q 0, .g 1, 0, .quad, 0, 0⟩

theorem test_wf_accepts : sBody.wf .add ∧ vBody.wfV .vadd ∧ fBody.wfF .fmov ∧ dBody.wfD .dadd ∧ mBody.wf .mhad ∧
    cBody.wf .cpy ∧ nBody.wf .ared := by decide

theorem test_wf_refuses_s_fields :
    (∀ b ∈ [{ sBody with a := .t 0 }, { sBody with b := .g 0 }, { sBody with c := .la0 }, { sBody with ty := .f32 },
      { sBody with rnd := .rz }, { sBody with px := 1 }, { sBody with xq := 3 }], b.wf .add = false) ∧
    ({ sBody with as := true }).wf .mul = false ∧
    ({ sBody with a := .p 0, b := .p 1, ty := .i8 } : SBody).wf .pand = false ∧
    ({ sBody with a := .q 0, b := .q 0, ty := .i8, imm := 0, xl := .la0 } : SBody).wf .idem = false := by decide

theorem test_wf_refuses_s_immediates :
    let b : SBody := { sBody with a := .q 0, b := .q 0, ty := .i8 }
    ({ sBody with b := .q 0, imm := 12 }).wf .cvt = false ∧ ({ b with imm := 0x70000 }).wf .fence = false ∧
    ({ b with imm := 5 }).wf .semadd = false ∧ ({ b with imm := 0 }).wf .semrd = false ∧ ({ b with imm := 0x20 }).wf .mfc = false ∧
    ({ b with a := .la0, b := .lc 0, imm := 6 }).wf .lset = false ∧ ({ b with a := .la0, imm := 0x120 }).wf .mtc = false := by
  decide

theorem test_wf_refuses_v_fields :
    (∀ b ∈ [{ vBody with a := .t 0 }, { vBody with b := .acc 0 }, { vBody with c := .g 0 }, { vBody with d := .q 1 },
      { vBody with ty := .i64 }, { vBody with rnd := .rz }, { vBody with vx := 2 }, { vBody with ne := true, nf := .i32 },
      { vBody with nf := .i16 }, { vBody with lcn := 1 }, { vBody with sub := 0x20 }, { vBody with sub := 1 },
      { vBody with ty := .f32, vx := 1 }, { vBody with a := .la0, sub := 0x1000 + 17 * 128 }], b.wfV .vadd = false) ∧
    ({ vBody with b := .q 0, vx := 19 }).wfV .vcvt = false ∧
    ({ vBody with b := .q 0, d := .q 1, ty := .f32, vx := 11 }).wfV .vqmax = false := by decide

theorem test_wf_refuses_f_fields :
    (∀ b ∈ [{ fBody with d := .q 0 }, { fBody with ty := .f64 }, { fBody with a := .g 0 }, { fBody with lce := true },
      { fBody with ne := true, nf := .bf16 }], b.wfF .fmov = false) ∧
    ({ fBody with vx := 3 }).wfF .fcvt = false ∧ ({ fBody with b := .lm, vx := 3 }).wfF .fsgn = false ∧
    fBody.wfF .fxtrMan = false ∧ ({ fBody with vx := 1 }).wfF .fxtrExp = false := by decide

theorem test_wf_refuses_d_fields :
    (∀ b ∈ [{ dBody with a := .g 0 }, { dBody with b := .la0 }, { dBody with c := .g 1 }, { dBody with d := .q 0 },
      { dBody with ty := .f32 }, { dBody with rnd := .rz }, { dBody with vx := 1 }, { dBody with sub := 1 },
      { dBody with ne := true }, { dBody with nf := .i16 }, { dBody with lcn := 1 }], b.wfD .dadd = false) ∧
    ({ dBody with a := .q 0, b := .la0, vx := 1 }).wfD .dlinSet = false ∧ ({ dBody with b := .q 0, d := .q 1 }).wfD .dlinGet = false ∧
    ({ dBody with b := .q 0, d := .q 1, lce := true }).wfD .dmom = false ∧
    ({ dBody with b := .g 0, d := .q 1 }).wfD .dqnt = false ∧ ({ dBody with a := .g 0, b := .la0, c := .la1 }).wfD .dsmp = false := by
  decide

theorem test_wf_refuses_m_fields :
    (∀ b ∈ [{ mBody with a := .acc 0 }, { mBody with b := .t 0 }, { mBody with d := .q 0 }, { mBody with mx := 3 },
      { mBody with hnd := 1 }], b.wf .mhad = false) ∧
    ({ mBody with rnd := .rz }).wf .mtrn = false ∧ ({ mBody with b := .la0, d := .g 0, mx := 11 }).wf .mqnt = false ∧
    ({ mBody with a := .acc 0, d := .acc 1, mx := 1 }).wf .macpCpy = false ∧ ({ mBody with a := .acc 0, d := .acc 1 }).wf .macpAdd = false ∧
    ({ mBody with b := .t 2, c := .la0, d := .acc 0 }).wf .mmih = false ∧
    ({ mBody with a := .handle, b := .t 2, c := .la0, d := .acc 0, mx := 64 }).wf .mmih = false := by decide

theorem test_wf_refuses_c_fields :
    (∀ b ∈ [{ cBody with a := .imm }, { cBody with b := .g 0 }, { cBody with c := .t 0 }, { cBody with d := .la0 },
      { cBody with fw := true, d := .g 0 }, { cBody with cx := 1 }], b.wf .cpy = false) ∧
    (∀ b ∈ [{ cBody with fw := true }, { cBody with oc := 1 }, { cBody with imm := 1 }],
      ({ b with b := .q 0, c := .q 0 }).wf .rowopn = false) ∧
    ({ cBody with b := .q 0, c := .q 0, d := .q 1, ch := 1 }).wf .rowst = false ∧
    ({ cBody with a := .t 0, b := .handle, c := .la0, cx := 6 * 128 }).wf .cpt = false ∧
    ({ cBody with a := .t 0 }).wf .wstr = false ∧ ({ cBody with c := .q 0, cx := 6 }).wf .scnthr = false ∧
    ({ cBody with c := .la0, imm := 65536 }).wf .scngo = false := by decide

theorem test_wf_refuses_n_fields :
    (∀ b ∈ [{ nBody with a := .la0 }, { nBody with b := .la0 }, { nBody with c := .la0 }, { nBody with d := .q 0 },
      { nBody with nx := 3 }, { nBody with imm := 1 }, { nBody with scp := .pod }], b.wf .ared = false) ∧
    ({ nBody with a := .q 0, d := .q 0, oc := 1 }).wf .bar = false ∧ nBody.wf .xred = false ∧
    ({ nBody with a := .q 0, d := .q 1, scp := .lane, nx := 4 }).wf .nstat = false := by decide

theorem test_wf_refuses_loops_and_distances :
    (⟨.always, 0, 0, 1, .none, 0⟩ : LoopBody).wf .s false = false ∧ (⟨.always, 0, 0, 0, .la0, 0⟩ : LoopBody).wf .v false = false ∧
    (⟨.always, 0, 0, 0, .none, 1⟩ : LoopBody).wf .s false = false ∧ (Instr.stickBz 1 0).stickWf = false ∧
    (Instr.stickBnz 1 0).stickWf = false ∧ (Instr.stickLoop 1 0).stickWf = false ∧ (Instr.stickBltu 1 2 0).stickWf = false := by
  decide

/-! ## Decoding: words written from R86 to R101, the opcode maps of R100 and the operand codes of R88 -/

def readsAs (e : Eng) (w : Nat) (f : View → Bool) : Bool :=
  match decodeView e w 0 with
  | .ok v => f v
  | .error _ => false

def readsS (l : List (Nat × SOp)) : Bool := l.all fun p => readsAs .s p.1 fun v => match v with | .s o _ _ => o == p.2 | _ => false
def readsV (l : List (Nat × VOp)) : Bool := l.all fun p => readsAs .v p.1 fun v => match v with | .v o _ _ => o == p.2 | _ => false
def readsF (l : List (Nat × FOp)) : Bool := l.all fun p => readsAs .f p.1 fun v => match v with | .f o _ _ => o == p.2 | _ => false
def readsD (l : List (Nat × DOp)) : Bool := l.all fun p => readsAs .v p.1 fun v => match v with | .d o _ _ => o == p.2 | _ => false
def readsM (l : List (Nat × MOp)) : Bool := l.all fun p => readsAs .m p.1 fun v => match v with | .m o _ _ => o == p.2 | _ => false
def readsC (l : List (Nat × COp)) : Bool := l.all fun p => readsAs .c p.1 fun v => match v with | .c o _ _ => o == p.2 | _ => false
def readsN (l : List (Nat × NOp)) : Bool := l.all fun p => readsAs .n p.1 fun v => match v with | .n o _ _ => o == p.2 | _ => false

theorem test_decode_s_1 :
    readsS [(0x10000000010082800060000000000005, .add), (0x10000000020082800060000000000005, .sub),
      (0x10000000030082800060000000000005, .and), (0x10000000040082800060000000000005, .or),
      (0x10000000050082800060000000000005, .xor), (0x10000000060082800060000000000005, .andn),
      (0x10000000070082800060000000000005, .shl), (0x10000000080082800060000000000005, .shr),
      (0x10000000090082800060000000000005, .sar), (0x100000000A0082800060000000000005, .min),
      (0x100000000B0082800060000000000005, .max), (0x100000000C00808E0CE0000000000000, .sel),
      (0x100000000D0280000140000000000009, .li), (0x100000000E0280840000000000000007, .lih),
      (0x100000000F00880000C0000000000000, .clz), (0x100000001E00880000C0000000000000, .popc),
      (0x10000000100086840040000000000000, .ceq), (0x10000000110086840040000000000000, .cne),
      (0x10000000120086840040000000000000, .clt), (0x10000000130086840040000000000000, .cle),
      (0x10000000140086840040000000000000, .ctst), (0x10000000150084880160000000000000, .fceq),
      (0x10000000160084880160000000000000, .fclt), (0x10000000170084880160000000000000, .fcle),
      (0x10000000180084880160000000000000, .fcun), (0x100000001902063C0000000000000000, .pand),
      (0x100000001A02063C0000000000000000, .por), (0x100000001B02063C0000000000000000, .pxor)] = true := by decide

theorem test_decode_s_2 :
    readsS [(0x100000001C0082200000000000000003, .ppack), (0x100000001D0082200000000000000003, .punpack),
      (0x100000002000808400E0000000000000, .mul), (0x100000002100808400E0000000000000, .mulh),
      (0x10000000220080848860000000000000, .mad), (0x10000000230080848880000000000000, .dp4),
      (0x100000002400888C0140000000000000, .fadd), (0x100000002500888C0140000000000000, .fsub),
      (0x100000002600888C0140000000000000, .fmul), (0x100000002700888C8160000000000000, .fma),
      (0x100000002800888C0160000000000000, .fmin), (0x100000002900888C0160000000000000, .fmax),
      (0x100000002A0088000140000000000000, .fabs), (0x100000002B0088000140000000000000, .fneg),
      (0x100000002C008800010000000000000B, .cvt), (0x10000000300080000120000000000040, .lds),
      (0x10000000320080000120000000000040, .ldg), (0x10000000310080880160000000000040, .sts),
      (0x10000000330080880160000000000040, .stg), (0x100000003400808C00C0000000000000, .aadd),
      (0x100000003500808C00C0000000000000, .axchg), (0x100000003700808C00C0000000000000, .amax),
      (0x100000003600808C88E0000000000000, .acas), (0x1000000038000000000000000001FFFF, .fence),
      (0x10000000390082800040000000000001, .waita), (0x100000003A0000000000000000000008, .spl),
      (0x100000003B0080000000000000000008, .sps), (0x100000003C0000000000000000000105, .semadd)] = true := by decide

theorem test_decode_s_3 :
    readsS [(0x100000003D0000000000000000001F00, .semrd), (0x10000000400000000000000000003FFF, .jmp),
      (0x10000000410080000000000000000000, .jmpr), (0x10000000420000000000000000020001, .call),
      (0x10000000430080000000000000020000, .callr), (0x10000000440000000000000000000000, .ret),
      (0x100000004500825C0000000000000005, .lset), (0x10000000460000000000000000000000, .idem),
      (0x100000004C0000000000000000000000, .tret), (0x1000000047000000000000000000011F, .mfc),
      (0x1000000048008000000000000000001F, .mtc), (0x10000000490280813C00000000000001, .setg),
      (0x100000004A0080014800000000000000, .sett), (0x100000004B000000000000000000FFFF, .swi)] = true := by decide

theorem test_decode_v_1 :
    readsV [(0x2000000001010080010C400000000000, .vadd), (0x2000000002010080010C400000000000, .vsub),
      (0x2000000004010080010C400000000000, .vmul), (0x2000000005010080010C400000000000, .vmin),
      (0x2000000006010080010C400000000000, .vmax), (0x2000000009010080010C400000000000, .vand),
      (0x200000000A010080010C400000000000, .vor), (0x200000000B010080010C400000000000, .vxor),
      (0x200000000C010080010C400000000000, .vshl), (0x200000000D010080010C400000000000, .vshr),
      (0x200000000E010080010C400000000000, .vsar), (0x2000000010010080010C400000000000, .vceq),
      (0x2000000011010080010C400000000000, .vcne), (0x2000000012010080010C400000000000, .vclt),
      (0x2000000013010080010C400000000000, .vcle), (0x2000000003010105090D400000000000, .vfma),
      (0x2000000016010105090D400000000000, .vclamp), (0x2000000014010104010D200000000000, .vcun),
      (0x2000000015010105090D600000000000, .vsel), (0x2000000007010000010D000000000000, .vabs),
      (0x2000000008010000010D000000000000, .vneg), (0x200000000F010000010D000000000000, .vmov),
      (0x2000000022008000010CE00000000000, .vfill), (0x2000000023010104890CA00000000000, .vmad),
      (0x2000000025008084010CC00000000000, .viota), (0x2000000017010000010D00000000000A, .vcvt),
      (0x2000000024010104890C800000000000, .vdp4), (0x2000000018010000007D400000000000, .vrsum)] = true := by decide

theorem test_decode_v_2 :
    readsV [(0x2000000019010000007D400000000000, .vrmax), (0x200000001A010000007D400000000000, .vrmin),
      (0x200000001B010000007D400000000000, .vrarg), (0x2000000026010000010D400000000000, .vscan),
      (0x200000001C010104010D200000000000, .vperm), (0x200000001E010104010D200000000000, .vgthl),
      (0x200000001D010000010CC0000000FFFF, .vbcast), (0x200000001F010000010C000000000000, .vrev),
      (0x20000000200100000009000000000010, .vqmax), (0x2000000021010080010D20000000000C, .vqcvt)] = true := by decide

theorem test_decode_f_1 :
    readsF [(0x300000000100880000FD400000000000, .frcp), (0x300000000200880000FD400000000000, .fsqrt),
      (0x300000000300880000FD400000000000, .frcpe), (0x300000000400880000FD400000000000, .frsqe),
      (0x300000000500880000FD400000000000, .fexp2), (0x300000000600880000FD400000000000, .flog2),
      (0x300000000700880000FD400000000000, .fsin), (0x300000000800880000FD400000000000, .fcos),
      (0x300000000900880000FD400000000000, .ftanh), (0x300000000A00880000FD400000000000, .ferf),
      (0x300000000E00880000FD400000000000, .fcls), (0x300000000D00880000FD400000000000, .frnd),
      (0x300000001000880000FD400000000000, .fmov), (0x300000000B010104010D400000000000, .fscl),
      (0x300000000C00880000C5400000000000, .fxtrExp), (0x300000000C00880000C5400000000001, .fxtrMan),
      (0x300000000F010000010D00000000000A, .fcvt), (0x300000001100808800C1400000000002, .fsgn),
      (0x30000000120103FFFD0D400000000000, .fmag)] = true := by decide

theorem test_decode_d_1 :
    readsD [(0x700000000101008001C4000000000000, .dld), (0x700000000201C400010C000000000000, .dsto),
      (0x700000000301C1FC010C000000000000, .dadd), (0x700000000401C1FC010C000000000000, .dsub),
      (0x700000000501C1FC010C000000000000, .dmul), (0x700000000601C1FC010C000000000000, .dmax),
      (0x700000000701C1FC010C000000000000, .dmin), (0x700000000801C10489C8000000000000, .daff),
      (0x700000000901C1C489C8000000000000, .dmix), (0x700000000A01008085C8000000000040, .dsmp),
      (0x700000000B01008001C8000000000000, .dcond), (0x700000000C01CC000010000000000000, .dmom),
      (0x700000000D01CC880010000000000000, .dqnt), (0x700000000E00008001D4000000000000, .dlinSet),
      (0x700000000E01D4000018000000000001, .dlinGet)] = true := by decide

theorem test_decode_m_1 :
    readsM [(0x40000000010145480184000000000000, .mmi), (0x40000000020145480184000000000000, .mma),
      (0x40000000050145480184000000000000, .gmmi), (0x40000000060145480184000000000000, .gmma),
      (0x40000000030146888D81FC0012345678, .mmih), (0x40000000040146888D81FC0012345678, .mmah),
      (0x40000000070146888D81FC0012345678, .gmmih), (0x40000000080146888D81FC0012345678, .gmmah),
      (0x4000000009014400014BF80000000000, .mhad), (0x40000000110144000148000000000000, .mtrn),
      (0x40000000120144000148000000000000, .mtcv), (0x4000000014014480010C400000000000, .mqnt),
      (0x400000000A014480850C080000000000, .mhadq), (0x400000000D018480850C300000000000, .mdrb),
      (0x400000000B018400014C1C0000000000, .mdrt), (0x400000000C018400010CFC0000000000, .mdrs),
      (0x400000000E0000000184040000000000, .mclr), (0x40000000130180000184000000000000, .macpCpy),
      (0x40000000130180000184040000000000, .macpAdd), (0x400000000F010000014C000000000000, .mtld),
      (0x4000000010014C000100000000000000, .mtst)] = true := by decide

theorem test_decode_c_1 :
    readsC [(0x5000000001008086808BF80000000040, .cpy), (0x50000000020146888C011AFF00000009, .cpt),
      (0x5000000004008084888E080000000000, .cprm), (0x50000000050080850889900700000005, .gth),
      (0x50000000060080850889900700000005, .sct), (0x50000000070144828089900100000005, .wstr),
      (0x5000000008008280888D900000000005, .cfill), (0x5000000009008280000D100000000005, .hbind),
      (0x500000000A0280000001000000000005, .hfree), (0x50000000100080000001000000000000, .rowopn),
      (0x50000000110080000001000000000000, .rowpin), (0x50000000140080000001000000000000, .rowrel),
      (0x50000000120080868000100000000008, .rowrd), (0x50000000130080868089900000000008, .rowwr),
      (0x5000000015008000000C000000000000, .rowst), (0x50000000180280800000000500000008, .scnthr),
      (0x5000000019008084888D90000000FFFF, .scngo), (0x500000001A028000000C000000000008, .scnrd),
      (0x500000001C028000000C000000000008, .scnst), (0x500000001B0280000000000000000008, .scnstp)] = true := by decide

theorem test_decode_n_1 :
    readsN [(0x60000000010100000000C0FF00000000, .nsnd), (0x600000000C0100000000C0FF00000000, .xsnd),
      (0x6000000002000000010C00FF00000000, .nrcv), (0x600000000D000000010C00FF00000000, .xrcv),
      (0x60000000030280828400400300000005, .nput), (0x600000000400808488004003000000FF, .nget),
      (0x60000000050000000000200000000000, .bar), (0x600000000600000003FC100000000000, .bara),
      (0x60000000070280000000180000000001, .barw), (0x6000000008010000010C900200000000, .ared),
      (0x6000000009010000010C900200000000, .rscat), (0x600000000A010000010CA00000000000, .agth),
      (0x600000000B010000010C98000000FFFF, .bcst), (0x600000000E010000010C800100000000, .xred),
      (0x600000000F0000000000000000000000, .nflsh), (0x6000000010000000000C0003000000FF, .nstat)] = true := by decide
/-- Every field of a layout at a value of its own (R86, R91 to R97, R259). -/
theorem test_decode_fields :
    let h : Hdr := ⟨0x155, 9, 17, 6, true, false, true, false⟩
    let g : Guard := .on true 5
    decodeWord .s 0x1555316A27D4888C81553A8089ABCDEF 0 = .ok (.fma h ⟨g, .lm, .ll, .la0, .f32, .rs, false, .lf 3, 21, 0, 0x89ABCDEF⟩) ∧
    decodeWord .s 0x1555316A10D48684004022D800000006 0 = .ok (.ceq h ⟨g, .la1, .zero, .q 0, .i32, .rne, false, .la1, 5, 11, 6⟩) ∧
    decodeWord .s 0x1555316A47D400000002000000000105 0 = .ok (.mfc h ⟨g, .q 0, .q 0, .q 0, .i8, .rne, true, .none, 0, 0, 0x105⟩) ∧
    decodeWord .v 0x2555316A03D5090E593D4E607C380000 0 = .ok (.vfma h ⟨g, .g 2, .g 3, .lc 6, .g 15, .f32, .ru, 0x2607, true, .e2m1, true, 6, 0⟩) ∧
    decodeWord .f 0x3555316A11D4808C00E9400000000002 0 = .ok (.fsgn h ⟨g, .la0, .ll, .q 0, .lf 10, .f32, .rne, 0, false, .i8, false, 0, 2⟩) ∧
    decodeWord .v 0x7555316A0AD5088085F00000002C504D 0 = .ok (.dsmp h ⟨g, .g 2, .la0, .la1, .dv 12, .i8, .rne, 0, false, .i8, true, 3, 0x504D⟩) ∧
    decodeWord .m 0x4555316A0AD57880851F060000000000 0 = .ok (.mhadq h ⟨g, .t 14, .la0, .la1, .g 7, 0xC1, .rd, 0⟩) ∧
    decodeWord .m 0x4555316A04D6894C8D84FC00DEADBEEF 0 = .ok (.mmah h ⟨g, .handle, .t 3, .ll, .acc 1, 0x3F, .rne, 0xDEADBEEF⟩) ∧
    decodeWord .c 0x5555316A07D54482808BEAFC12345678 0 = .ok (.wstr h ⟨g, .t 1, .la0, .imm, .lm, 3, true, 13, 0x2FC, 0x12345678⟩) ∧
    decodeWord .n 0x6555316A03D68082840340C70000FEDC 0 = .ok (.nput h ⟨g, .imm, .la0, .zero, .q 0, 13, .lane, 0xC7, 0xFEDC⟩) ∧
    decodeWord .n 0x6555316A06D4000003FC200000000000 0 = .ok (.bara h ⟨g, .q 0, .q 0, .q 0, .absent, 0, .pkg, 0, 0⟩) ∧
    decodeWord .s 0x1555316AFDD65400000049800001AABC 0 = .ok (.rlbr .s h ⟨g, 5, 0x2ABC, 6, .ll, 19⟩) ∧
    decodeWord .m 0x4555316AFED648000000000000001234 0 = .ok (.lbr .m h ⟨g, 2, 0x1234, 0, .none, 0⟩) ∧
    decodeWord .n 0x6555316A00D400000000000000000000 0 = .ok (.nop .n h g) ∧
    decodeWord .v 0x7555316AFFD400000000000000000000 0 = .ok (.halt .d h g) ∧
    decodeWord .f 0xF555316A00000000000000000000BEEF 0 = .ok (.brk h 0xBEEF) :=
  ⟨rfl, rfl, rfl, rfl, rfl, rfl, rfl, rfl, rfl, rfl, rfl, rfl, rfl, rfl, rfl, rfl⟩

/-- R98, R210: `cpf` and its follow-on word. -/
theorem test_decode_cpf :
    decodeWord .c 0x50000000030146888C01023F00000009 0x40000000020145480184000000000000 =
      .ok (.cpf plain ⟨.always, .t 1, .handle, .ll, .q 0, 1, false, 0, 0x23F, 9⟩ ⟨true, 1, 2, 1⟩) ∧
    decodeWord .c 0x50000000030146888C01023F00000009 0x10000000020000000000000000000000 = .error ⟨6, 8⟩ := ⟨rfl, rfl⟩

/-- R307: a word of each stick-code operation. -/
theorem test_decode_stick :
    ([(0x08000000, .stickEnd), (0x1187FFFF, .stickLi 3 0x7FFFF), (0x1A280006, .stickLhi 4 5 6),
      (0x20978000, .stickAdd 1 2 15), (0x28900009, .stickAddi 1 2 9), (0x30918000, .stickSub 1 2 3),
      (0x3A2B0000, .stickAnd 4 5 6), (0x422B0000, .stickOr 4 5 6), (0x4A2B0000, .stickXor 4 5 6),
      (0x5090003F, .stickShl 1 2 63), (0x58900021, .stickShr 1 2 33), (0x63C48000, .stickMul 7 8 9),
      (0x6BC48000, .stickDivu 7 8 9), (0x73C48000, .stickMinu 7 8 9), (0x7BC48000, .stickMaxu 7 8 9),
      (0x8097FFFF, .stickLd 1 2 3 0x1FFFF), (0x8A2D0000, .stickSt 4 5 2 0x10000), (0x9300000F, .stickLrd 6 15),
      (0x9838000B, .stickLwr 7 11), (0xA0440001, .stickBz 8 0x40001), (0xA8480002, .stickBnz 9 2),
      (0xB0097FFF, .stickBltu 1 2 0x7FFF), (0xB8180004, .stickLoop 3 4), (0xC0000000, .stickCancel),
      (0xC8280000, .stickRept 5), (0xD3000000, .stickClk 6)] : List (Nat × Instr)).all (fun p => decide (decodeStick p.1 = some p.2)) = true := by
  decide

/-- R307: reserved operations and reserved fields. -/
theorem test_decode_stick_refuses :
    ([0x00000000, 0xD8000001, 0xF8000000, 0x20918001, 0x50900040, 0x93000010, 0x93080000, 0xC0800000, 0xA0400000] : List Nat).all
      (fun w => decodeStick w == none) = true := by decide
/-! ## Witnesses: states and operands that meet the hypotheses of the statements -/

/-- Where a statement's hypotheses are long, its witness applies the statement to a state and operands: what stands between
the statement and its conclusion there is the proof of each hypothesis, and the conclusion is that the word completes. -/
def Answers (i : Instr) (s : State) : Prop := ∃ u, exec i s = .next u

/-- A strand of core 0 that runs in an exact gang, holds all that a launch can lend, and has numbers in its latches. -/
def runs : Strand :=
  { Strand.idle with
    mode := .run, banks := 0xFFF, channels := 0xF
    ctx :=
      { Ctx.zero with
        la0 := 64, la1 := 8, lm := 0x3FF0000000000000, ll := 16, ssp := 4096, slim := 1024
        owna := 0x3FFFFFFFF, owns := 0xFFFFFFFE, smode := 0x10 } }

/-- The package with that strand alone. -/
def one : State := { State.reset with strands := [(0, runs)] }

def readyB (s : State) (v : View) : Bool :=
  s.limits v == none && s.t.guard v.grd && (v.hdr.swait.val == 0 || s.sem s.core v.hdr.swait.val != 0)

theorem ready_of {s : State} {v : View} (h : readyB s v = true) : Ready s v := by
  simp [readyB] at h
  exact ⟨h.1.1, h.1.2, by simpa using h.2⟩

def sReads (s : State) (op : SOp) (b : SBody) : Option (List Word × Strand) :=
  match (s.acting (.s op plain b)).t.readOpds .s (immVal b.ty b.imm) (sSlots op plain b) with
  | .ok (vs, t1) => match t1.transport b with
    | .ok t => some (vs, t)
    | .error _ => none
  | .error _ => none

def sOk (s : State) (op : SOp) (b : SBody) : Bool :=
  b.wf op && readyB s (.s op plain b) && s.t.dbg == false && (match sReads s op b with | some ([_, _, _], _) => true | _ => false)

theorem sReads_eq {s : State} {op : SOp} {b : SBody} {vs : List Word} {t : Strand} (h : sReads s op b = some (vs, t)) :
    ∃ t1, (s.acting (.s op plain b)).t.readOpds .s (immVal b.ty b.imm) (sSlots op plain b) = .ok (vs, t1) ∧
      t1.transport b = .ok t := by
  unfold sReads at h
  split at h
  · split at h
    · cases h; exact ⟨_, ‹_›, ‹_›⟩
    · cases h
  · cases h

theorem sWord_of {s : State} {op : SOp} {b : SBody} (h : sOk s op b = true) :
    b.wf op = true ∧ ∃ x y z t, SWord s op plain b x y z t := by
  simp only [sOk, Bool.and_eq_true, beq_iff_eq] at h
  obtain ⟨⟨⟨hw, hr⟩, hd⟩, hv⟩ := h
  refine ⟨hw, ?_⟩
  split at hv
  · exact ⟨_, _, _, _, ready_of hr, ⟨.inl hd, .inl rfl⟩, sReads_eq ‹_›⟩
  · cases hv

/-- Each pair is a form and a body it accepts. -/
def aluForms : List (SOp × SBody) :=
  [(.add, sBody), (.sub, sBody), (.and, sBody), (.or, sBody), (.xor, sBody), (.andn, sBody), (.shl, sBody), (.shr, sBody),
   (.sar, sBody), (.min, sBody), (.max, sBody), (.sel, { sBody with c := .p 3 }), (.clz, { sBody with b := .q 0 }),
   (.popc, { sBody with b := .q 0 }), (.li, { sBody with b := .q 0 }), (.lih, { sBody with a := .imm, b := .la1, ty := .i8 })]

theorem test_witness_integer_alu : ∀ p ∈ aluForms, p.2.wf p.1 = true ∧ ∃ x y z t, SWord one p.1 plain p.2 x y z t :=
  fun p h => sWord_of ((by decide : ∀ p ∈ aluForms, sOk one p.1 p.2 = true) p h)

theorem rdy {s : State} {v : View} (a : s.limits v = none) (b : s.t.guard v.grd = true) (c : v.hdr.swait.val = 0) : Ready s v :=
  ⟨a, b, .inl c⟩

theorem hush {d : Done} {s : State} {v : View} (a : d.s.t.dbg = false) (f : s.t.fencedOff = false := by rfl) : d.Quiet s v :=
  ⟨.inr (.inl f), .inl a, .inr (.inr (.inr (.inl a)))⟩

theorem sword {s : State} {op : SOp} {h : Hdr} {b : SBody} {x y z : Word} {t t1 : Strand} (r : Ready s (.s op h b))
    (a : s.t.dbg = false) (c : h.spost.val = 0)
    (d : (s.acting (.s op h b)).t.readOpds .s (immVal b.ty b.imm) (sSlots op h b) = .ok ([x, y, z], t1))
    (e : t1.transport b = .ok t) : SWord s op h b x y z t := ⟨r, ⟨.inl a, .inl c⟩, _, d, e⟩

theorem sdoes {s : State} {op : SOp} {h : Hdr} {b : SBody} {x y z : Word} {t t1 : Strand} {o : Done} (r : Ready s (.s op h b))
    (d : (s.acting (.s op h b)).t.readOpds .s (immVal b.ty b.imm) (sSlots op h b) = .ok ([x, y, z], t1))
    (e : t1.transport b = .ok t) (a : o.s.t.dbg = false) (f : s.t.fencedOff = false := by rfl) : SDoes s op h b x y z t o :=
  ⟨r, ⟨_, d, e⟩, hush a f⟩

def pBody : SBody := { sBody with a := .p 1, b := .p 15, ty := .i8, imm := 0 }
def fpBody : SBody := { sBody with a := .lm, b := .lm, ty := .f64 }

def compareForms : List (SOp × SBody) :=
  [(.ceq, sBody), (.cne, sBody), (.clt, sBody), (.cle, sBody), (.ctst, sBody), (.fceq, fpBody), (.fclt, fpBody), (.fcle, fpBody),
   (.fcun, fpBody), (.pand, pBody), (.por, pBody), (.pxor, pBody), (.ppack, { sBody with b := .p 8, ty := .i8, imm := 7 }),
   (.punpack, { sBody with b := .p 0, ty := .i8, imm := 7 })]

theorem test_witness_compares : ∀ p ∈ compareForms, p.2.wf p.1 = true ∧ ∃ x y z t, SWord one p.1 plain p.2 x y z t :=
  fun p h => sWord_of ((by decide : ∀ p ∈ compareForms, sOk one p.1 p.2 = true) p h)

def multiplyForms : List (SOp × SBody) :=
  [(.mul, sBody), (.mulh, sBody), (.mad, { sBody with c := .ll }), (.dp4, { sBody with c := .ll, ty := .n8 })]

theorem test_witness_multiplier : ∀ p ∈ multiplyForms, p.2.wf p.1 = true ∧ ∃ x y z t, SWord one p.1 plain p.2 x y z t :=
  fun p h => sWord_of ((by decide : ∀ p ∈ multiplyForms, sOk one p.1 p.2 = true) p h)

def floatForms : List (SOp × SBody) :=
  [(.fadd, { fpBody with rnd := .rs }), (.fsub, fpBody), (.fmul, fpBody), (.fma, { fpBody with c := .lm }),
   (.cvt, { fpBody with b := .q 0, imm := 11 }), (.fmin, fpBody), (.fmax, fpBody), (.fabs, { fpBody with b := .q 0 }),
   (.fneg, { fpBody with b := .q 0 })]

theorem test_witness_float :
    (∀ p ∈ floatForms, p.2.wf p.1 = true ∧ ∃ x y z t, SWord one p.1 plain p.2 x y z t) ∧ Ty.ofCode (11 % 32) = some .f64 :=
  ⟨fun p h => sWord_of ((by decide : ∀ p ∈ floatForms, sOk one p.1 p.2 = true) p h), rfl⟩

def loadBody : SBody := { sBody with b := .q 0, imm := 0x400 }
def spillBody : SBody := { sBody with a := .q 0, b := .q 0, ty := .i8, imm := 8 }

/-- The load reads near the top of scratchpad: its last byte is 0xBFFFF. -/
theorem test_witness_scratchpad :
    (∃ x y z t, SWord one .lds plain { loadBody with imm := 0xBFFB8 } x y z t ∧
      TimedOk (one.reading (.s .lds plain { loadBody with imm := 0xBFFB8 }) t) 0 (x.toNat + (0xBFFB8 : BitVec 32).toInt) 8 false) ∧
    (∃ x y z t, SWord one .spl plain spillBody x y z t ∧
      TimedOk (one.reading (.s .spl plain spillBody) t) 0 (t.ctx.ssp.toNat + (8 : BitVec 32).toInt) 8 false) ∧
    (∃ x y z t, SDoes one .sts plain { loadBody with b := .la1 } x y z t
        { s := (one.reading (.s .sts plain { loadBody with b := .la1 }) t).spadStore (64 + 0x400) (leBytes 8 y.toNat) } ∧
      TimedOk (one.reading (.s .sts plain { loadBody with b := .la1 }) t) 0 (x.toNat + (0x400 : BitVec 32).toInt) 8 true) ∧
    (∃ x y z t, SDoes one .sps plain { spillBody with a := .la1 } x y z t
        { s := (one.reading (.s .sps plain { spillBody with a := .la1 }) t).spadStore 4104 (leBytes 8 x.toNat) } ∧
      TimedOk (one.reading (.s .sps plain { spillBody with a := .la1 }) t) 0 (t.ctx.ssp.toNat + (8 : BitVec 32).toInt) 8 true) :=
  ⟨⟨_, _, _, _, ⟨⟨rfl, rfl, .inl rfl⟩, ⟨.inl rfl, .inl rfl⟩, _, rfl, rfl⟩,
      ⟨by decide, by decide, rfl, by decide, rfl, .inr rfl⟩⟩,
    ⟨_, _, _, _, ⟨⟨rfl, rfl, .inl rfl⟩, ⟨.inl rfl, .inl rfl⟩, _, rfl, rfl⟩,
      ⟨by decide, by decide, rfl, by decide, rfl, .inr rfl⟩⟩,
    ⟨_, _, _, _, ⟨⟨rfl, rfl, .inl rfl⟩, ⟨_, rfl, rfl⟩, .inr (.inl rfl), .inl rfl, .inr (.inl rfl)⟩,
      ⟨by decide, by decide, rfl, by decide, rfl, .inl rfl⟩⟩,
    ⟨_, _, _, _, ⟨⟨rfl, rfl, .inl rfl⟩, ⟨_, rfl, rfl⟩, .inr (.inl rfl), .inl rfl, .inr (.inl rfl)⟩,
      ⟨by decide, by decide, rfl, by decide, rfl, .inl rfl⟩⟩⟩
/-- The same strand with an address on path 0x3 in `la0`. -/
def far : State :=
  { State.reset with strands := [(0, { runs with ctx := { runs.ctx with la0 := 0x3000000000000040 } })] }

def globalBody : SBody := { sBody with b := .la1, imm := 0 }

theorem test_witness_global (h : Obligations.GlobalAccessCompletes) :
    Answers (.ldg plain { globalBody with b := .q 0 }) far ∧ Answers (.stg plain globalBody) far ∧ Answers (.aadd plain globalBody) far ∧
    Answers (.axchg plain globalBody) far ∧ Answers (.acas plain { globalBody with c := .la1 }) far ∧ Answers (.amax plain globalBody) far :=
  ⟨⟨_, (h far plain _ _ _ _ _ _ _ []).1 ⟨⟨rfl, rfl, .inl rfl⟩, ⟨_, rfl, rfl⟩, .inr (.inl rfl), .inl rfl, .inr (.inl rfl)⟩ rfl⟩,
   ⟨_, (h far plain _ _ _ _ _ _ _ _).2.1 ⟨⟨rfl, rfl, .inl rfl⟩, ⟨_, rfl, rfl⟩, .inr (.inl rfl), .inl rfl, .inl rfl⟩ rfl rfl⟩,
   ⟨_, (h far plain _ _ _ _ _ _ _ []).2.2.1 ⟨⟨rfl, rfl, .inl rfl⟩, ⟨_, rfl, rfl⟩, .inr (.inl rfl), .inl rfl, .inr (.inl rfl)⟩ rfl⟩,
   ⟨_, (h far plain _ _ _ _ _ _ _ []).2.2.2.1 ⟨⟨rfl, rfl, .inl rfl⟩, ⟨_, rfl, rfl⟩, .inr (.inl rfl), .inl rfl, .inr (.inl rfl)⟩ rfl⟩,
   ⟨_, (h far plain _ _ _ _ _ _ _ []).2.2.2.2.1 ⟨⟨rfl, rfl, .inl rfl⟩, ⟨_, rfl, rfl⟩, .inr (.inl rfl), .inl rfl, .inr (.inl rfl)⟩ rfl⟩,
   ⟨_, (h far plain _ _ _ _ _ _ _ []).2.2.2.2.2 ⟨⟨rfl, rfl, .inl rfl⟩, ⟨_, rfl, rfl⟩, .inr (.inl rfl), .inl rfl, .inr (.inl rfl)⟩ rfl⟩⟩
def bare : SBody := { sBody with a := .q 0, b := .q 0, ty := .i8, imm := 0 }

/-- The strand with one asynchronous access of class 0 under way. -/
def busyOne : State :=
  { State.reset with
    strands := [(0, { runs with asyncs := [{ id := 1, seq := 0, eng := .s, cls := 0, instr := .ldg plain loadBody, level := 1 }] })] }

/-- The strand with a timed read still to come at strand cycle 5. -/
def timedOne : State :=
  { State.reset with
    strands := [(0, { runs with timed := [{ base := 0, step := 1, size := 1, count := 1, per := 1, c := 1, due := 5, write := false }] })] }

theorem test_witness_fence_wait_semaphore (h : Obligations.FenceWaitAndSemaphoreComplete) :
    Answers (.fence plain { bare with imm := 0x1FFFF }) one ∧ Answers (.fence plain { bare with imm := 0x1FFFF }) timedOne ∧
    Answers (.fence plain { bare with imm := 0x1FFFF }) busyOne ∧ Answers (.waita plain { sBody with b := .la1 }) one ∧
    Answers (.idem plain bare) one ∧ Answers (.semadd plain { bare with imm := 0x1FFF }) one ∧
    Answers (.semrd plain { bare with imm := 0x1F00 }) one :=
  ⟨⟨_, (h one plain _ _ _ _ _).1 (sdoes (rdy rfl rfl rfl) rfl rfl rfl) rfl rfl (by decide)⟩,
   ⟨_, (h timedOne plain _ _ _ _ _).2.1 (sdoes (rdy rfl rfl rfl) rfl rfl rfl) rfl rfl (by decide)⟩,
   ⟨_, (h busyOne plain _ _ _ _ _).2.2.1 (sdoes (rdy rfl rfl rfl) rfl rfl rfl) rfl (by decide)⟩,
   ⟨_, (h one plain _ _ _ _ _).2.2.2.1 (sdoes (rdy rfl rfl rfl) rfl rfl rfl) ⟨by decide, by decide, rfl, by decide, rfl, .inr rfl⟩⟩,
   ⟨_, (h one plain _ _ _ _ _).2.2.2.2.1 (sdoes (rdy rfl rfl rfl) rfl rfl rfl)⟩,
   ⟨_, (h one plain _ _ _ _ _).2.2.2.2.2.1 (sdoes (rdy rfl rfl rfl) rfl rfl rfl) (by decide)⟩,
   ⟨_, (h one plain _ _ _ _ _).2.2.2.2.2.2 (sword (rdy rfl rfl rfl) rfl rfl rfl rfl)⟩⟩

theorem test_witness_branches (h : Obligations.BranchCallAndReturnComplete) :
    Answers (.jmp plain { bare with imm := 0x3FFF }) one ∧ Answers (.jmpr plain { bare with a := .la0 }) one ∧
    Answers (.call plain { bare with imm := 3072 * 2 ^ 14 + 5 }) one ∧ Answers (.callr plain { bare with a := .la0, imm := 8 * 2 ^ 14 }) one ∧
    Answers (.ret plain bare) one :=
  ⟨⟨_, (h one plain _ _ _ _ _).1 (sdoes (rdy rfl rfl rfl) rfl rfl rfl)⟩,
   ⟨_, (h one plain _ _ _ _ _).2.1 (sdoes (rdy rfl rfl rfl) rfl rfl rfl)⟩,
   ⟨_, (h one plain _ _ _ _ _).2.2.1 (sdoes (rdy rfl rfl rfl) rfl rfl rfl) (by decide) ⟨by decide, by decide, rfl, by decide, rfl, .inl rfl⟩⟩,
   ⟨_, (h one plain _ _ _ _ _).2.2.2.1 (sdoes (rdy rfl rfl rfl) rfl rfl rfl) (by decide) ⟨by decide, by decide, rfl, by decide, rfl, .inl rfl⟩⟩,
   ⟨_, (h one plain _ _ _ _ _).2.2.2.2 (sdoes (rdy rfl rfl rfl) rfl rfl rfl) ⟨by decide, by decide, rfl, by decide, rfl, .inr rfl⟩⟩⟩

/-- The strand with another stack pointer. -/
def atSsp (v : Word) : State := { State.reset with strands := [(0, { runs with ctx := { runs.ctx with ssp := v } })] }

/-- The strand with no bank group of its own. -/
def bankless : State := { State.reset with strands := [(0, { runs with banks := 0 })] }

/-- Of each refusal one value at its edge: a frame of 4 bytes and of 12, an `ssp` of 4100, frames that reach below 0 and
end above scratchpad, one in a bank group of another strand, and one a word below `slim`. -/
theorem test_witness_call_traps (h : Obligations.CallAndReturnTraps) :
    Answers (.call plain { bare with imm := 4 * 2 ^ 14 }) one ∧ Answers (.call plain { bare with imm := 8 * 2 ^ 14 }) (atSsp 4100) ∧
    Answers (.call plain { bare with imm := 8 * 2 ^ 14 }) (atSsp 0) ∧ Answers (.call plain { bare with imm := 8 * 2 ^ 14 }) bankless ∧
    Answers (.call plain { bare with imm := 8 * 2 ^ 14 }) (atSsp 1024) ∧
    Answers (.callr plain { bare with a := .la0, imm := 12 * 2 ^ 14 }) one ∧
    Answers (.callr plain { bare with a := .la0, imm := 8 * 2 ^ 14 }) (atSsp 4100) ∧
    Answers (.callr plain { bare with a := .la0, imm := 8 * 2 ^ 14 }) (atSsp 786448) ∧
    Answers (.callr plain { bare with a := .la0, imm := 8 * 2 ^ 14 }) bankless ∧
    Answers (.callr plain { bare with a := .la0, imm := 8 * 2 ^ 14 }) (atSsp 1024) ∧
    Answers (.ret plain bare) (atSsp 4100) ∧ Answers (.ret plain bare) (atSsp 786432) ∧ Answers (.ret plain bare) (atSsp 786424) :=
  ⟨⟨_, (h one plain _ 0 0 0 runs).1 ⟨by decide, .inl rfl, .inl rfl⟩ (by decide)⟩,
   ⟨_, (h (atSsp 4100) plain _ _ _ _ _).2.1 ⟨rdy rfl rfl rfl, _, rfl, rfl⟩ (by decide)⟩,
   ⟨_, (h (atSsp 0) plain _ _ _ _ _).2.2.1 ⟨rdy rfl rfl rfl, _, rfl, rfl⟩ (by decide) (by decide)⟩,
   ⟨_, (h bankless plain _ _ _ _ _).2.2.2.1 ⟨rdy rfl rfl rfl, _, rfl, rfl⟩ (by decide) (by decide) (by decide)⟩,
   ⟨_, (h (atSsp 1024) plain _ _ _ _ _).2.2.2.2.1 ⟨rdy rfl rfl rfl, _, rfl, rfl⟩ (by decide) (by decide) (by decide) (by decide)⟩,
   ⟨_, (h one plain _ 0 0 0 runs).2.2.2.2.2.1 ⟨by decide, .inl rfl, .inl rfl⟩ (by decide)⟩,
   ⟨_, (h (atSsp 4100) plain _ _ _ _ _).2.2.2.2.2.2.1 ⟨rdy rfl rfl rfl, _, rfl, rfl⟩ (by decide)⟩,
   ⟨_, (h (atSsp 786448) plain _ _ _ _ _).2.2.2.2.2.2.2.1 ⟨rdy rfl rfl rfl, _, rfl, rfl⟩ (by decide) (by decide)⟩,
   ⟨_, (h bankless plain _ _ _ _ _).2.2.2.2.2.2.2.2.1 ⟨rdy rfl rfl rfl, _, rfl, rfl⟩ (by decide) (by decide) (by decide)⟩,
   ⟨_, (h (atSsp 1024) plain _ _ _ _ _).2.2.2.2.2.2.2.2.2.1 ⟨rdy rfl rfl rfl, _, rfl, rfl⟩ (by decide) (by decide) (by decide) (by decide)⟩,
   ⟨_, (h (atSsp 4100) plain _ _ _ _ _).2.2.2.2.2.2.2.2.2.2.1 ⟨rdy rfl rfl rfl, _, rfl, rfl⟩ (by decide)⟩,
   ⟨_, (h (atSsp 786432) plain _ _ _ _ _).2.2.2.2.2.2.2.2.2.2.2.1 ⟨rdy rfl rfl rfl, _, rfl, rfl⟩ (by decide) (by decide)⟩,
   ⟨_, (h (atSsp 786424) plain _ _ _ _ _).2.2.2.2.2.2.2.2.2.2.2.2 (sdoes (rdy rfl rfl rfl) rfl rfl rfl)
     ⟨by decide, by decide, rfl, by decide, rfl, .inr rfl⟩⟩⟩

theorem test_witness_moves (h : Obligations.RegisterMovesComplete) :
    Answers (.lset plain { bare with a := .la0, b := .lc 7, imm := 5 }) one ∧ Answers (.mfc plain { bare with imm := 0x11F }) one ∧
    Answers (.mtc plain { bare with a := .la0, imm := 0x1F }) one ∧ Answers (.setg plain { sBody with c := .g 15, ty := .i8 }) one ∧
    Answers (.sett plain { bare with a := .la0, c := .t 15 }) one :=
  ⟨⟨_, (h one plain _ _ _ _ _).1 _ _ (sword (rdy rfl rfl rfl) rfl rfl rfl rfl) rfl rfl⟩,
   ⟨_, (h one plain _ _ _ _ _).2.1 (sword (rdy rfl rfl rfl) rfl rfl rfl rfl)⟩,
   ⟨_, (h one plain _ _ _ _ _).2.2.1 (sdoes (rdy rfl rfl rfl) rfl rfl rfl) (by decide)⟩,
   ⟨_, (h one plain _ _ _ _ _).2.2.2.1 _ (sword (rdy rfl rfl rfl) rfl rfl rfl rfl) rfl⟩,
   ⟨_, (h one plain _ _ _ _ _).2.2.2.2 _ (sword (rdy rfl rfl rfl) rfl rfl rfl rfl) rfl⟩⟩

/-- The strand in rotating mode. -/
def rotating : State := { State.reset with strands := [(0, { runs with ctx := { runs.ctx with smode := 0x30 } })] }

theorem test_witness_every_class (h : Obligations.EveryClassWordsComplete) :
    Answers (.nop .d plain .always) one ∧ Answers (.halt .n plain .always) one ∧
    Answers (.lbr .m plain ⟨.always, 7, 0x3FFF, 0, .none, 0⟩) one ∧ Answers (.lbr .s plain ⟨.always, 7, 0x3FFF, 0, .la0, 3⟩) one ∧
    Answers (.rlbr .c plain ⟨.always, 0, 1, 7, .none, 0⟩) rotating ∧ Answers (.tret plain bare) one ∧
    Answers (.swi plain { bare with imm := 0xFFFF }) one ∧ Answers (.brk plain 0xFFFF) one :=
  ⟨⟨_, (h one .d plain .always ⟨.always, 0, 0, 0, .none, 0⟩ 0 bare 0 0 0 runs).1 (rdy rfl rfl rfl) (hush rfl)⟩,
   ⟨_, (h one .n plain .always ⟨.always, 0, 0, 0, .none, 0⟩ 0 bare 0 0 0 runs).2.1 (rdy rfl rfl rfl) (hush rfl)⟩,
   ⟨_, (h one .m plain .always _ 0 bare 0 0 0 _).2.2.1 (rdy rfl rfl rfl) rfl (hush rfl)⟩,
   ⟨_, (h one .s plain .always _ 0 bare 0 0 0 _).2.2.1 (rdy rfl rfl rfl) rfl (hush rfl)⟩,
   ⟨_, (h rotating .c plain .always _ 0 bare 0 0 0 _).2.2.2.1 (rdy rfl rfl rfl) rfl (hush rfl) rfl⟩,
   ⟨_, (h one .s plain .always ⟨.always, 0, 0, 0, .none, 0⟩ 0 _ _ _ _ _).2.2.2.2.1 (sdoes (rdy rfl rfl rfl) rfl rfl rfl)⟩,
   ⟨_, (h one .s plain .always ⟨.always, 0, 0, 0, .none, 0⟩ 0 _ 0 0 0 runs).2.2.2.2.2.1 (rdy rfl rfl rfl) rfl⟩,
   ⟨_, (h one .s plain .always ⟨.always, 0, 0, 0, .none, 0⟩ _ bare 0 0 0 runs).2.2.2.2.2.2 (rdy rfl rfl rfl)⟩⟩
/-- A region of `n` elements side by side from `base`. -/
def region (ty : Ty) (n base : Nat) : Word := BitVec.ofNat 64 (ty.code * 2 ^ 56 + n * 2 ^ 40 + 2 ^ 24 + base)

/-- The strand with these descriptors in `g0` to `g3`. -/
def withRegions (a b c d : Word) : State :=
  { State.reset with
    strands := [(0, { runs with ctx := { runs.ctx with g := (((runs.ctx.g.set 0 a).set 1 b).set 2 c).set 3 d } })] }

/-- Two groups and one element of a third. -/
def vecs : State := withRegions (region .i32 129 0) (region .i32 129 0x1000) (region .i32 129 0x2000) (region .i32 129 0x3000)
def noVecs : State := withRegions (region .f32 0 0) (region .f32 0 0x1000) (region .f32 0 0x2000) (region .f32 0 0x3000)
def fVecs : State := withRegions (region .f32 17 0) (region .f32 17 0x1000) (region .f32 17 0x2000) (region .f32 17 0x3000)

theorem test_witness_streams (h : Obligations.StreamWordsIssue) :
    Answers (.vadd plain vBody) vecs ∧ Answers (.vrsum plain { vBody with b := .q 0, d := .q 3, ty := .f32 }) noVecs ∧
    Answers (.vadd plain { vBody with ty := .f32 }) noVecs ∧ Answers (.frcp plain { fBody with a := .g 0, d := .g 3 }) fVecs ∧
    Answers (.frcp plain { fBody with a := .g 0, d := .g 3 }) noVecs :=
  ⟨⟨_, ((h vecs plain vBody _ _ _ _).1 .vadd (rdy rfl rfl rfl) rfl rfl rfl).1 (by decide) (hush rfl)⟩,
   ⟨_, ((h noVecs plain { vBody with b := .q 0, d := .q 3, ty := .f32 } _ _ _ _).1 .vrsum (rdy rfl rfl rfl) rfl rfl rfl).2.2 _ rfl rfl (hush rfl)⟩,
   ⟨_, ((h noVecs plain { vBody with ty := .f32 } _ _ _ _).1 .vadd (rdy rfl rfl rfl) rfl rfl rfl).2.1 rfl rfl (hush rfl)⟩,
   ⟨_, ((h fVecs plain { fBody with a := .g 0, d := .g 3 } _ _ _ _).2 .frcp (by decide) (rdy rfl rfl rfl) rfl rfl rfl).1 (by decide) (hush rfl)⟩,
   ⟨_, ((h noVecs plain { fBody with a := .g 0, d := .g 3 } _ _ _ _).2 .frcp (by decide) (rdy rfl rfl rfl) rfl rfl rfl).2.1 rfl rfl (hush rfl)⟩⟩

theorem test_witness_latch_mode (h : Obligations.SpecialFunctionLatchLands) :
    Answers (.fexp2 plain fBody) one ∧ Answers (.fscl plain { fBody with b := .la0, rnd := .rs }) one :=
  ⟨⟨_, h one .fexp2 plain fBody _ _ _ (rdy rfl rfl rfl) rfl rfl (hush rfl)⟩,
   ⟨_, h one .fscl plain { fBody with b := .la0, rnd := .rs } _ _ _ (rdy rfl rfl rfl) rfl rfl (hush rfl)⟩⟩

/-- The hypotheses at the wrap of a saturating 32-bit addition. -/
theorem test_witness_elements (h : Obligations.VectorIntegerElements) :
    vElem .vadd { vBody with vx := 1 } 0 ⟨.i32, 0x7FFFFFFF⟩ ⟨.i32, 1⟩ ⟨.i32, 0⟩ 0 = (0x7FFFFFFF, 0) :=
  (h { vBody with vx := 1 } 0 ⟨.i32, 0x7FFFFFFF⟩ ⟨.i32, 1⟩ ⟨.i32, 0⟩ 0 rfl rfl rfl rfl rfl).1

/-- Sixteen lanes of raw distributions into `g3`, and eight lanes into `dv2`. -/
def dRaw : State := withRegions 0 0 0 (region .f64 2048 0x4000)
def laneless : VBody := { dBody with lce := true, lcn := 7 }

theorem test_witness_distributions (h : Obligations.DistributionWordsLand) :
    Answers (.dadd plain dBody) one ∧ Answers (.dadd plain { dBody with d := .g 3 }) dRaw ∧ Answers (.dadd plain laneless) one ∧
    Answers (.dlinSet plain { dBody with a := .q 0, b := .la0 }) one ∧
    Answers (.dlinGet plain { dBody with b := .q 0, d := .q 3, vx := 1 }) one :=
  ⟨⟨_, (h one .dadd plain dBody _ _ _ _ _ (rdy rfl rfl rfl) rfl).2 (by decide) rfl rfl rfl (hush (by with_unfolding_all rfl))⟩,
   ⟨_, (h dRaw .dadd plain { dBody with d := .g 3 } _ _ _ _ _ (rdy rfl rfl rfl) rfl).2 (by decide) rfl rfl rfl
    (hush (by with_unfolding_all rfl))⟩,
   ⟨_, (h one .dadd plain laneless _ _ _ [] runs (rdy rfl rfl rfl) rfl).1 rfl (hush rfl)⟩,
   ⟨_, (h one .dlinSet plain { dBody with a := .q 0, b := .la0 } _ _ _ _ _ (rdy rfl rfl rfl) rfl).2 (by decide) rfl rfl rfl
    (hush (by with_unfolding_all rfl))⟩,
   ⟨_, (h one .dlinGet plain { dBody with b := .q 0, d := .q 3, vx := 1 } _ _ _ _ _ (rdy rfl rfl rfl) rfl).2
    (by decide) rfl rfl rfl (hush (by with_unfolding_all rfl))⟩⟩
/-- A tile configuration: format, rows, columns. -/
def tileCfg (ty : Ty) (rows cols : Nat) : Word := BitVec.ofNat 64 (ty.code * 2 ^ 27 + cols * 2 ^ 16 + rows)

/-- The strand with these tiles in `t1`, `t2` and `t3`, and regions in `g0` and `g3`. -/
def withTiles (a b c : Word) (g0 g3 : Word) : State :=
  { State.reset with
    strands :=
      [(0, { runs with
        ctx :=
          { runs.ctx with
            tcfg := ((runs.ctx.tcfg.set 1 a).set 2 b).set 3 c
            g := (runs.ctx.g.set 0 g0).set 3 g3
            la0 := 4, la1 := 64 } })] }

/-- The largest operands of a multiply-accumulate word: 64 rows, 128 rows. -/
def macTiles : State := withTiles (tileCfg .i8 64 128) (tileCfg .i8 128 128) 0 0 0

def macBody : MBody := { mBody with b := .t 2, d := .acc 1 }

theorem test_witness_multiply_accumulate (h : Obligations.MultiplyAccumulateIssues) :
    Answers (.mmi plain macBody) macTiles ∧ Answers (.mma plain macBody) macTiles ∧
    Answers (.gmmi plain macBody) macTiles ∧ Answers (.gmma plain macBody) macTiles :=
  ⟨⟨_, (h macTiles plain macBody).1 _ rfl (rdy rfl rfl rfl) rfl (by decide) rfl (by decide) rfl (.inl rfl) rfl (hush rfl)⟩,
   ⟨_, (h macTiles plain macBody).2.1 _ rfl (rdy rfl rfl rfl) rfl (by decide) rfl (by decide) rfl (.inr (.inl rfl)) rfl (hush rfl)⟩,
   ⟨_, (h macTiles plain macBody).2.2.1 _ rfl (rdy rfl rfl rfl) rfl (by decide) rfl (by decide) rfl (.inl rfl) rfl (hush rfl)⟩,
   ⟨_, (h macTiles plain macBody).2.2.2 _ rfl (rdy rfl rfl rfl) rfl (by decide) rfl (by decide) rfl (.inr (.inl rfl)) rfl (hush rfl)⟩⟩

def squares : State := withTiles (tileCfg .bf16 4 16) (tileCfg .bf16 16 4) (tileCfg .bf16 4 16) (region .n8 128 0) (region .f32 64 0x1000)
def bytesOut : State := withTiles (tileCfg .bf16 4 16) 0 0 (region .n8 128 0) (region .n8 128 0x1000)

theorem test_witness_matrix_moves (h : Obligations.MatrixMoveWordsIssue) :
    Answers (.mhad plain { mBody with d := .t 3 }) squares ∧ Answers (.mtrn plain mBody) squares ∧
    Answers (.mtcv plain { mBody with d := .t 3, rnd := .rs }) squares ∧
    Answers (.mdrt plain { mBody with a := .acc 0, d := .t 3, mx := 3 }) squares ∧
    Answers (.mdrs plain { mBody with a := .acc 0, d := .g 3, mx := 63 }) squares ∧
    Answers (.mclr plain { mBody with a := .q 0, d := .acc 1, mx := 1 }) squares ∧
    Answers (.macpCpy plain { mBody with a := .acc 0, d := .acc 1 }) squares ∧
    Answers (.macpAdd plain { mBody with a := .acc 0, d := .acc 1, mx := 1 }) squares ∧
    Answers (.mtld plain { mBody with a := .g 0, d := .t 1 }) squares ∧ Answers (.mtst plain { mBody with a := .t 1, d := .g 3 }) bytesOut :=
  ⟨⟨_, (h squares plain { mBody with d := .t 3 }).1 (rdy rfl rfl rfl) (by decide) rfl (hush rfl)⟩,
   ⟨_, (h squares plain mBody).2.1 (rdy rfl rfl rfl) (by decide) rfl (hush rfl)⟩,
   ⟨_, (h squares plain { mBody with d := .t 3, rnd := .rs }).2.2.1 (rdy rfl rfl rfl) (by decide) rfl (hush rfl)⟩,
   ⟨_, (h squares plain { mBody with a := .acc 0, d := .t 3, mx := 3 }).2.2.2.1 (rdy rfl rfl rfl) (by decide) rfl (hush rfl)⟩,
   ⟨_, (h squares plain { mBody with a := .acc 0, d := .g 3, mx := 63 }).2.2.2.2.1 (rdy rfl rfl rfl) ⟨by decide, rfl⟩ rfl (hush rfl)⟩,
   ⟨_, (h squares plain { mBody with a := .q 0, d := .acc 1, mx := 1 }).2.2.2.2.2.1 (rdy rfl rfl rfl) trivial rfl (hush rfl)⟩,
   ⟨_, (h squares plain { mBody with a := .acc 0, d := .acc 1 }).2.2.2.2.2.2.1 (rdy rfl rfl rfl) (.inl rfl) rfl (hush rfl)⟩,
   ⟨_, (h squares plain { mBody with a := .acc 0, d := .acc 1, mx := 1 }).2.2.2.2.2.2.2.1 (rdy rfl rfl rfl) (.inr (.inl rfl)) rfl (hush rfl)⟩,
   ⟨_, (h squares plain { mBody with a := .g 0, d := .t 1 }).2.2.2.2.2.2.2.2.1 (rdy rfl rfl rfl) ⟨rfl, rfl, by decide, rfl⟩ rfl (hush rfl)⟩,
   ⟨_, (h bytesOut plain { mBody with a := .t 1, d := .g 3 }).2.2.2.2.2.2.2.2.2 (rdy rfl rfl rfl) ⟨rfl, rfl, by decide, rfl⟩ rfl (hush rfl)⟩⟩

/-- One block of 16 elements to a row. -/
def blocksOut : State :=
  let t := withTiles (tileCfg .bf16 4 16) 0 0 0 (region .n8 1024 0x1000)
  { t with strands := [(0, { t.t with ctx := { t.t.ctx with la0 := 16, la1 := 12, lm := 2 } })] }

theorem test_witness_blocks (h : Obligations.BlockWordsIssue) :
    Answers (.mqnt plain { mBody with b := .la0, d := .g 3, mx := 12 }) blocksOut ∧
    Answers (.mhadq plain { mBody with b := .la0, c := .la1, d := .g 3 }) blocksOut ∧
    Answers (.mdrb plain { mBody with a := .acc 0, b := .la0, c := .lm, d := .g 3, mx := 12 }) blocksOut :=
  ⟨⟨_, (h blocksOut plain { mBody with b := .la0, d := .g 3, mx := 12 } _ _ _ _).1 (rdy rfl rfl rfl) rfl rfl (by decide) (by decide)
      (by decide) rfl (by decide) rfl (fun f e => by cases e; decide) rfl (hush rfl)⟩,
   ⟨_, (h blocksOut plain { mBody with b := .la0, c := .la1, d := .g 3 } _ _ _ _).2.1 (rdy rfl rfl rfl) rfl rfl (by decide) (by decide)
      (by decide) (by decide) (by decide) rfl (fun f e => by cases e; decide) rfl (hush rfl)⟩,
   ⟨_, (h blocksOut plain { mBody with a := .acc 0, b := .la0, c := .lm, d := .g 3, mx := 12 } _ _ _ _).2.2 (rdy rfl rfl rfl) rfl rfl
      (by decide) (by decide) (by decide) (by decide) (by decide) rfl (fun f e => by cases e; decide) rfl (hush rfl)⟩⟩

/-- A handle's record for a tensor of four columns in own scratchpad, at the head of the tenant's table, which the
next read of it finds arrived. -/
def record : List Byte :=
  leBytes 8 (2 ^ 51 + 2 ^ 48) ++ leBytes 8 1 ++ leBytes 8 4 ++ leBytes 16 0 ++ leBytes 4 4 ++ leBytes 4 64 ++ leBytes 8 0 ++
    leBytes 8 0x3000000000002000

/-- The first page of the tenant's path 0x0 is the first page of the first stack. -/
def mapped : TlbEntry := { vf := 0, va := 0, pa := 0, size := 12, w1 := true, w2 := true, d := true, ipa := 0, leaf := 0 }

def handles : State :=
  let t := withTiles 0 (tileCfg .i8 1 4) 0 0 0
  ({ t with
      strands := [(0, { t.t with ctx := { t.t.ctx with la0 := 0 } })]
      cores := [(0, { tlb := [mapped] })], latencies := [0]
      dev := { t.dev with vfs := [(0, { ltl := 1 })] } } : State).write .dram 0 record

theorem test_witness_handles (h : Obligations.HandleWordsIssue) :
    (let b : MBody := { mBody with a := .handle, b := .t 2, c := .la0, d := .acc 0 }
    Answers (.mmih plain b) handles ∧ Answers (.mmah plain b) handles ∧ Answers (.gmmih plain b) handles ∧ Answers (.gmmah plain b) handles) :=
  ⟨⟨_, (h handles plain { mBody with a := .handle, b := .t 2, c := .la0, d := .acc 0 } _ _ _ _ _ _ _).1 _ rfl (rdy rfl rfl rfl) rfl rfl
      rfl (by decide) rfl (.inl rfl) rfl (hush rfl)⟩,
   ⟨_, (h handles plain { mBody with a := .handle, b := .t 2, c := .la0, d := .acc 0 } _ _ _ _ _ _ _).2.1 _ rfl (rdy rfl rfl rfl) rfl rfl
      rfl (by decide) rfl (.inr (.inl rfl)) rfl (hush rfl)⟩,
   ⟨_, (h handles plain { mBody with a := .handle, b := .t 2, c := .la0, d := .acc 0 } _ _ _ _ _ _ _).2.2.1 _ rfl (rdy rfl rfl rfl) rfl rfl
      rfl (by decide) rfl (.inl rfl) rfl (hush rfl)⟩,
   ⟨_, (h handles plain { mBody with a := .handle, b := .t 2, c := .la0, d := .acc 0 } _ _ _ _ _ _ _).2.2.2 _ rfl (rdy rfl rfl rfl) rfl rfl
      rfl (by decide) rfl (.inr (.inl rfl)) rfl (hush rfl)⟩⟩
/-- The strand with these values in `la0`, `la1`, `lm` and `ll`, a first page mapped, room for two handles, a quota on
channel 0, and a format for `t1` to `t3`, `g2` and `g3`. -/
def holding (a b m l : Word) : State :=
  { State.reset with
    strands :=
      [(0, { runs with
        quotas := [(0, 8)]
        ctx :=
          { runs.ctx with
            la0 := a, la1 := b, lm := m, ll := l
            g := (runs.ctx.g.set 2 (region .n32 4 0x100)).set 3 (region .f32 4 0x200)
            tcfg := ((runs.ctx.tcfg.set 1 (tileCfg .i8 1 4)).set 2 (tileCfg .i8 64 128)).set 3 (tileCfg .i8 128 128) } })]
    cores := [(0, { tlb := [mapped] })]
    dev := { State.reset.dev with vfs := [(0, { quads := 1, ltl := 2 })] } }

def spad (off : Nat) : Word := BitVec.ofNat 64 (3 * 2 ^ 60 + off)

/-- Each command with a count and with a count of 0, and one with a flag word. -/
theorem test_witness_copies (h : Obligations.CopyWordsIssue) :
    Answers (.cpy plain { cBody with imm := 64 }) (holding (spad 0x2000) (spad 0) 0 0) ∧
    Answers (.cpy plain cBody) (holding (spad 0x2000) (spad 0) 0 0) ∧
    Answers (.cpy plain { cBody with fw := true, d := .ll }) (holding (spad 0x2000) (spad 0) 0 (spad 0x400)) ∧
    Answers (.cfill plain { cBody with b := .imm, imm := 64 }) (holding (spad 0x2000) 0 0 0) ∧
    Answers (.cprm plain { cBody with c := .lm, d := .ll }) (holding (spad 0x2000) (spad 0) 0x0000000200000010 0x0000001000000020) ∧
    Answers (.cprm plain { cBody with c := .lm, d := .ll }) (holding (spad 0x2000) (spad 0) 0x0000000200000000 0) ∧
    Answers (.gth plain { cBody with c := .g 2, cx := 2, imm := 16 }) (holding (spad 0x2000) (spad 0) 0 0) ∧
    Answers (.sct plain { cBody with c := .g 2, cx := 2, imm := 16 }) (holding (spad 0x2000) (spad 0) 0 0) :=
  ⟨⟨_, ((h (holding (spad 0x2000) (spad 0) 0 0) plain { cBody with imm := 64 } _ _ _ _ _ _ _ _).1 (rdy rfl rfl rfl) rfl rfl rfl rfl
      (by decide)).2 (by decide) rfl rfl (hush rfl)⟩,
   ⟨_, ((h (holding (spad 0x2000) (spad 0) 0 0) plain cBody _ _ _ _ _ _ 0 0).1 (rdy rfl rfl rfl) rfl rfl rfl rfl
      (by decide)).1 rfl rfl (hush rfl)⟩,
   ⟨_, ((h (holding (spad 0x2000) (spad 0) 0 (spad 0x400)) plain { cBody with fw := true, d := .ll } _ _ _ _ _ _ _ _).1
      (rdy rfl rfl rfl) rfl rfl rfl rfl (by decide)).1 rfl rfl (hush rfl)⟩,
   ⟨_, ((h (holding (spad 0x2000) 0 0 0) plain { cBody with b := .imm, imm := 64 } _ _ _ _ _ _ _ _).2.1 (rdy rfl rfl rfl) rfl rfl rfl rfl
      (by decide)).2 (by decide) rfl rfl (hush rfl)⟩,
   ⟨_, ((h (holding (spad 0x2000) (spad 0) 0x0000000200000010 0x0000001000000020) plain { cBody with c := .lm, d := .ll } _ _ _ _ _ _ _ _).2.2.1
      (rdy rfl rfl rfl) rfl rfl rfl rfl (by decide)).2 (by decide) rfl rfl (hush rfl)⟩,
   ⟨_, ((h (holding (spad 0x2000) (spad 0) 0x0000000200000000 0) plain { cBody with c := .lm, d := .ll } _ _ _ _ _ _ 0 0).2.2.1
      (rdy rfl rfl rfl) rfl rfl rfl rfl (by decide)).1 rfl rfl (hush rfl)⟩,
   ⟨_, ((h (holding (spad 0x2000) (spad 0) 0 0) plain { cBody with c := .g 2, cx := 2, imm := 16 } _ _ _ _ _ _ _ _).2.2.2.1 (rdy rfl rfl rfl)
      rfl rfl rfl rfl ⟨rfl, rfl, rfl, rfl⟩).2 (by decide) rfl rfl (hush rfl)⟩,
   ⟨_, ((h (holding (spad 0x2000) (spad 0) 0 0) plain { cBody with c := .g 2, cx := 2, imm := 16 } _ _ _ _ _ _ _ _).2.2.2.2 (rdy rfl rfl rfl)
      rfl rfl rfl rfl ⟨rfl, rfl, rfl, rfl⟩).2 (by decide) rfl rfl (hush rfl)⟩⟩

/-- A handle's record at the head of the table, which its next read finds arrived, and the origin 0. -/
def fetching : State := { (holding 0 0 0 0).write .dram 0 record with latencies := [0] }

def fetchBody : CBody := { cBody with a := .t 1, b := .handle, c := .la0 }

theorem test_witness_fetches (h : Obligations.TileFetchesIssue) :
    Answers (.cpt plain fetchBody) fetching ∧ Answers (.cpf plain fetchBody ⟨false, 2, 3, 0⟩) fetching :=
  ⟨⟨_, (h fetching plain fetchBody ⟨false, 2, 3, 0⟩ _ _ _ _ _ _ _ _ _).1 (rdy rfl rfl rfl) rfl rfl rfl rfl rfl (by decide) rfl (fun _ => ⟨rfl, rfl⟩)
      rfl (hush rfl)⟩,
   ⟨_, (h fetching plain fetchBody ⟨false, 2, 3, 0⟩ _ _ _ _ _ _ _ _ _).2 (rdy rfl rfl rfl) rfl rfl rfl rfl rfl (by decide) rfl (fun _ => ⟨rfl, rfl⟩)
      rfl (hush rfl)⟩⟩

theorem test_witness_weights_and_handles (h : Obligations.StreamAndHandleCommandsIssue) :
    Answers (.wstr plain { cBody with a := .t 1, b := .la0, cx := 1, imm := 4 }) (holding 0x1000000000000000 0 0 0) ∧
    Answers (.hbind plain { cBody with b := .imm, c := .q 0, d := .q 3, imm := 1 }) (holding (spad 0x40) 0 0 0) ∧
    Answers (.hfree plain { cBody with a := .imm, b := .q 0, c := .q 0, imm := 1 }) (holding 0 0 0 0) :=
  ⟨⟨_, (h (holding 0x1000000000000000 0 0 0) plain { cBody with a := .t 1, b := .la0, cx := 1, imm := 4 } _ _ _ _ _ _ _ _).1
      ⟨rdy rfl rfl rfl, rfl⟩ (by decide) rfl rfl rfl rfl rfl rfl (hush rfl)⟩,
   ⟨_, (h (holding (spad 0x40) 0 0 0) plain { cBody with b := .imm, c := .q 0, d := .q 3, imm := 1 } _ _ _ _ _ none _ _).2.1 _ _ _ _
      ⟨rdy rfl rfl rfl, rfl⟩ rfl rfl rfl rfl rfl rfl (hush rfl)⟩,
   ⟨_, (h (holding 0 0 0 0) plain { cBody with a := .imm, b := .q 0, c := .q 0, imm := 1 } _ _ _ _ _ none _ _).2.2 _
      ⟨rdy rfl rfl rfl, rfl⟩ rfl rfl (hush rfl)⟩⟩

/-- The last row of bank 15 of channel 0. -/
def lastRow : Word := BitVec.ofNat 64 (49151 * 2 ^ 16 + 15 * 2 ^ 9)

def rowBody : CBody := { cBody with b := .q 0, c := .q 0 }

/-- Its scan unit is another strand's. -/
def taken : State :=
  let s := holding 0 0 0 0
  { s with dev := { s.dev with units := [(0, { owner := some (16, 1) })] } }

theorem test_witness_rows (h : Obligations.RowAndScanWordsIssue) :
    Answers (.rowopn plain rowBody) (holding lastRow 0 0 0) ∧ Answers (.rowpin plain rowBody) (holding lastRow 0 0 0) ∧
    Answers (.rowrel plain rowBody) (holding lastRow 0 0 0) ∧
    Answers (.rowrd plain { cBody with imm := 64 * 2 ^ 16 + 1984 }) (holding (spad 0x1000) lastRow 0 0) ∧
    Answers (.rowwr plain { cBody with imm := 8 * 2 ^ 16 }) (holding lastRow (spad 0x1000) 0 0) ∧
    Answers (.rowst plain { rowBody with d := .q 31 }) (holding lastRow 0 0 0) ∧
    Answers (.scnrd plain { rowBody with d := .q 31 }) (holding 0 0 0 0) ∧
    Answers (.scnst plain { rowBody with d := .q 31 }) (holding 0 0 0 0) ∧
    Answers (.scngo plain { cBody with c := .lm, imm := 8 }) (holding lastRow 0 (spad 0x1000) 0) ∧
    Answers (.scngo plain { cBody with c := .lm, imm := 8 }) (holding lastRow 1 (spad 0x1000) 0) ∧
    Answers (.scnthr plain { rowBody with a := .imm, b := .la1, cx := 5 }) (holding 0 9 0 0) ∧
    Answers (.scnthr plain { rowBody with a := .imm, b := .la1, cx := 5 }) taken ∧
    Answers (.scnstp plain { rowBody with a := .imm }) (holding 0 0 0 0) :=
  ⟨⟨_, (h (holding lastRow 0 0 0) plain rowBody _ _ _ _ _ none _ _).1 ⟨rdy rfl rfl rfl, rfl⟩ (by decide) (by decide) trivial rfl (hush rfl)⟩,
   ⟨_, (h (holding lastRow 0 0 0) plain rowBody _ _ _ _ _ none _ _).2.1 ⟨rdy rfl rfl rfl, rfl⟩ (by decide) (by decide) rfl rfl (hush rfl)⟩,
   ⟨_, (h (holding lastRow 0 0 0) plain rowBody _ _ _ _ _ none _ _).2.2.1 ⟨rdy rfl rfl rfl, rfl⟩ (by decide) (by decide) trivial rfl (hush rfl)⟩,
   ⟨_, (h (holding (spad 0x1000) lastRow 0 0) plain { cBody with imm := 64 * 2 ^ 16 + 1984 } _ _ _ _ _ none _ _).2.2.2.1 ⟨rdy rfl rfl rfl, rfl⟩
      (by decide) (by decide) (by decide) (by decide) rfl (by decide) rfl rfl rfl (hush rfl)⟩,
   ⟨_, (h (holding lastRow (spad 0x1000) 0 0) plain { cBody with imm := 8 * 2 ^ 16 } _ _ _ _ _ _ _ _).2.2.2.2.1 ⟨rdy rfl rfl rfl, rfl⟩
      (by decide) (by decide) (by decide) (by decide) rfl rfl rfl rfl rfl (hush rfl)⟩,
   ⟨_, (h (holding lastRow 0 0 0) plain { rowBody with d := .q 31 } _ _ _ _ _ none 0 0).2.2.2.2.2.1 _ _ _ ⟨rdy rfl rfl rfl, rfl⟩ rfl
      ⟨by decide, by decide⟩ rfl (hush rfl)⟩,
   ⟨_, (h (holding 0 0 0 0) plain { rowBody with d := .q 31 } _ _ _ _ _ none 0 0).2.2.2.2.2.2.1 _ _ _ ⟨rdy rfl rfl rfl, rfl⟩ rfl
      (by decide) rfl (hush rfl)⟩,
   ⟨_, (h (holding 0 0 0 0) plain { rowBody with d := .q 31 } _ _ _ _ _ none 0 0).2.2.2.2.2.2.2.1 _ _ _ ⟨rdy rfl rfl rfl, rfl⟩ rfl
      (by decide) rfl (hush rfl)⟩,
   ⟨_, ((h (holding lastRow 0 (spad 0x1000) 0) plain { cBody with c := .lm, imm := 8 } _ _ _ _ _ _ 0 0).2.2.2.2.2.2.2.2.1
      ⟨rdy rfl rfl rfl, rfl⟩ (by decide) (by decide) (by decide) rfl (by decide) rfl rfl).1 rfl rfl (hush rfl)⟩,
   ⟨_, ((h (holding lastRow 1 (spad 0x1000) 0) plain { cBody with c := .lm, imm := 8 } _ _ _ _ _ _ _ _).2.2.2.2.2.2.2.2.1
      ⟨rdy rfl rfl rfl, rfl⟩ (by decide) (by decide) (by decide) rfl (by decide) rfl rfl).2 (by decide) rfl (hush rfl)⟩,
   ⟨_, (h (holding 0 9 0 0) plain { rowBody with a := .imm, b := .la1, cx := 5 } _ _ _ _ _ none 0 0).2.2.2.2.2.2.2.2.2.1 ⟨rdy rfl rfl rfl, rfl⟩
      (by decide) rfl _ rfl (hush rfl)⟩,
   ⟨_, (h taken plain { rowBody with a := .imm, b := .la1, cx := 5 } _ _ _ _ _ none 0 0).2.2.2.2.2.2.2.2.2.2.1 ⟨rdy rfl rfl rfl, rfl⟩
      (by decide) rfl (hush rfl)⟩,
   ⟨_, (h (holding 0 0 0 0) plain { rowBody with a := .imm } _ _ _ _ _ none 0 0).2.2.2.2.2.2.2.2.2.2.2 ⟨rdy rfl rfl rfl, rfl⟩ (by decide) (hush rfl)⟩⟩
/-- The strand with circuit 3, whose entry is `e`, and circuit 4 for the way back, whose entry is `f`. -/
def circuits (a b m : Word) (e f : Nat) : State :=
  let s := holding a b m 0
  { s with
    strands := [(0, { s.t with slots := [3, 4] })]
    cores := [(0, { tlb := [mapped], slots := [(3, e), (4, f)] })] }

/-- Entries of a sending and of a receiving end on the package (bits 31 and 30), and of a circuit to another one (bit 29). -/
def sends : Nat := 2 ^ 31
def receives : Nat := 2 ^ 31 + 2 ^ 30
def abroad : Nat := 2 ^ 29

def sendBody : NBody := ⟨.always, .g 3, .q 0, .q 0, .q 0, 2, .lane, 3, 0⟩
def recvBody : NBody := ⟨.always, .q 0, .q 0, .q 0, .g 3, 0, .lane, 3, 0⟩
def putBody : NBody := ⟨.always, .imm, .la0, .lm, .q 0, 2, .lane, 3, 0x2000⟩
def getBody : NBody := ⟨.always, .la0, .la1, .lm, .q 0, 2, .lane, 3, 4⟩

/-- The tenant may reach the pod. -/
def reaching (s : State) : State := { s with dev := { s.dev with vfs := [(0, { quads := 1, hvscp := 7 })] } }

theorem test_witness_circuits (h : Obligations.CircuitWordsIssue) :
    Answers (.nsnd plain { sendBody with a := .imm, imm := 5 }) (circuits 0 0 0 sends receives) ∧
    Answers (.xsnd plain { sendBody with a := .imm, imm := 5 }) (reaching (circuits 0 0 0 (sends + abroad) 0)) ∧
    Answers (.nsnd plain sendBody) (circuits 0 0 0 sends receives) ∧ Answers (.xsnd plain sendBody) (reaching (circuits 0 0 0 (sends + abroad) 0)) ∧
    Answers (.nrcv plain { recvBody with d := .q 9 }) (circuits 0 0 0 receives 0) ∧
    Answers (.xrcv plain { recvBody with d := .q 9 }) (reaching (circuits 0 0 0 (receives + abroad) 0)) ∧
    Answers (.nrcv plain recvBody) (circuits 0 0 0 receives 0) ∧ Answers (.xrcv plain recvBody) (reaching (circuits 0 0 0 (receives + abroad) 0)) ∧
    Answers (.nput plain putBody) (circuits (spad 0x1000) 0 16 sends 0) ∧ Answers (.nput plain putBody) (circuits (spad 0x1000) 0 0 sends 0) ∧
    Answers (.nget plain getBody) (circuits (spad 0x1000) 0 16 sends receives) ∧
    Answers (.nget plain getBody) (circuits (spad 0x1000) 0 0 sends receives) :=
  ⟨⟨_, (h (circuits 0 0 0 sends receives) plain { sendBody with a := .imm, imm := 5 } _ _ 0 0 0 0 0 0).1 (by decide)
      (fun _ e => by cases e) rfl (fun e => by cases e) (rdy rfl rfl rfl) (hush rfl)⟩,
   ⟨_, (h (reaching (circuits 0 0 0 (sends + abroad) 0)) plain { sendBody with a := .imm, imm := 5 } _ _ 0 0 0 0 0 0).2.1 (by decide)
      (fun _ e => by cases e) rfl (fun _ => rfl) (rdy rfl rfl rfl) (hush rfl)⟩,
   ⟨_, (h (circuits 0 0 0 sends receives) plain sendBody runs 0 3 0 0 0 0 0).2.2.1 (by decide) rfl rfl rfl (by decide)
      (fun e => by cases e) rfl (rdy rfl rfl rfl) (hush rfl)⟩,
   ⟨_, (h (reaching (circuits 0 0 0 (sends + abroad) 0)) plain sendBody runs 0 3 0 0 0 0 0).2.2.2.1 (by decide) rfl rfl rfl (by decide)
      (fun _ => rfl) rfl (rdy rfl rfl rfl) (hush rfl)⟩,
   ⟨_, (h (circuits 0 0 0 receives 0) plain { recvBody with d := .q 9 } _ 0 0 0 0 0 0 0).2.2.2.2.1 9 (by decide) rfl rfl (fun e => by cases e)
      (rdy rfl rfl rfl) (hush rfl)⟩,
   ⟨_, (h (reaching (circuits 0 0 0 (receives + abroad) 0)) plain { recvBody with d := .q 9 } _ 0 0 0 0 0 0 0).2.2.2.2.2.1 9 (by decide) rfl rfl
      (fun _ => rfl) (rdy rfl rfl rfl) (hush rfl)⟩,
   ⟨_, (h (circuits 0 0 0 receives 0) plain recvBody runs 0 3 0 0 0 0 0).2.2.2.2.2.2.1 (by decide) rfl rfl rfl (fun e => by cases e)
      rfl (rdy rfl rfl rfl) (hush rfl)⟩,
   ⟨_, (h (reaching (circuits 0 0 0 (receives + abroad) 0)) plain recvBody runs 0 3 0 0 0 0 0).2.2.2.2.2.2.2.1 (by decide) rfl rfl rfl
      (fun _ => rfl) rfl (rdy rfl rfl rfl) (hush rfl)⟩,
   ⟨_, ((h (circuits (spad 0x1000) 0 16 sends 0) plain putBody _ 0 0 _ _ _ _ _).2.2.2.2.2.2.2.2.1 (by decide) rfl rfl (by decide) rfl).2
      (by decide) rfl (rdy rfl rfl rfl) (hush rfl)⟩,
   ⟨_, ((h (circuits (spad 0x1000) 0 0 sends 0) plain putBody _ 0 0 0 0 _ _ _).2.2.2.2.2.2.2.2.1 (by decide) rfl rfl (by decide) rfl).1
      rfl (rdy rfl rfl rfl) (hush rfl)⟩,
   ⟨_, ((h (circuits (spad 0x1000) 0 16 sends receives) plain getBody _ 0 0 _ _ _ _ _).2.2.2.2.2.2.2.2.2 (by decide) (by decide) rfl rfl rfl
      (by decide) rfl).2 (by decide) rfl (rdy rfl rfl rfl) (hush rfl)⟩,
   ⟨_, ((h (circuits (spad 0x1000) 0 0 sends receives) plain getBody _ 0 0 0 0 _ _ _).2.2.2.2.2.2.2.2.2 (by decide) (by decide) rfl rfl rfl
      (by decide) rfl).1 rfl (rdy rfl rfl rfl) (hush rfl)⟩⟩

def barBody : NBody := ⟨.always, .q 0, .q 0, .q 0, .q 0, 0, .core, 0, 0⟩

theorem test_witness_barriers (h : Obligations.BarrierAndStatusWordsComplete) :
    Answers (.bar plain barBody) one ∧ Answers (.bara plain { barBody with d := .q 31 }) one ∧
    Answers (.bara plain { barBody with d := .absent }) one ∧ Answers (.barw plain { barBody with a := .imm, imm := 1 }) one ∧
    Answers (.nflsh plain { barBody with scp := .lane }) one ∧ Answers (.nstat plain { barBody with d := .q 3, scp := .lane, nx := 2 }) one ∧
    Answers (.nstat plain { barBody with d := .q 3, scp := .lane, nx := 3, imm := 3 }) (circuits 0 0 0 sends 0) :=
  ⟨⟨_, (h one plain barBody runs 0 0 0).1 rfl (rdy rfl rfl rfl) (hush rfl)⟩,
   ⟨_, (h one plain { barBody with d := .q 31 } _ 0 0 0).2.1 _ rfl rfl rfl (rdy rfl rfl rfl) (hush rfl)⟩,
   ⟨_, (h one plain { barBody with d := .absent } runs 0 0 0).2.2.1 (fun _ e => by cases e) rfl (rdy rfl rfl rfl) (hush rfl)⟩,
   ⟨_, (h one plain { barBody with a := .imm, imm := 1 } _ _ _ _).2.2.2.1 rfl rfl (rdy rfl rfl rfl) (hush rfl)⟩,
   ⟨_, (h one plain { barBody with scp := .lane } runs 0 0 0).2.2.2.2.1 (rdy rfl rfl rfl) (hush rfl)⟩,
   ⟨_, (h one plain { barBody with d := .q 3, scp := .lane, nx := 2 } _ 0 0 0).2.2.2.2.2 _ (by decide) rfl rfl (rdy rfl rfl rfl) (hush rfl)⟩,
   ⟨_, (h (circuits 0 0 0 sends 0) plain { barBody with d := .q 3, scp := .lane, nx := 3, imm := 3 } _ 0 0 0).2.2.2.2.2 _ (by decide) rfl rfl
      (rdy rfl rfl rfl) (hush rfl)⟩⟩

def collBody : NBody := ⟨.always, .g 3, .q 0, .q 0, .g 3, 2, .core, 2, 0⟩

theorem test_witness_collectives (h : Obligations.CollectiveWordsIssue) :
    Answers (.ared plain collBody) (holding 0 0 0 0) ∧ Answers (.rscat plain collBody) (holding 0 0 0 0) ∧
    Answers (.agth plain { collBody with nx := 0 }) (holding 0 0 0 0) ∧ Answers (.bcst plain { collBody with nx := 0 }) (holding 0 0 0 0) ∧
    Answers (.xred plain { collBody with scp := .lane }) (reaching (holding 0 0 0 0)) :=
  ⟨⟨_, (h (holding 0 0 0 0) plain collBody _ _).1 (rdy rfl rfl rfl) rfl rfl rfl rfl rfl (hush rfl)⟩,
   ⟨_, (h (holding 0 0 0 0) plain collBody _ _).2.1 (rdy rfl rfl rfl) rfl rfl rfl rfl rfl (hush rfl)⟩,
   ⟨_, (h (holding 0 0 0 0) plain { collBody with nx := 0 } _ _).2.2.1 (rdy rfl rfl rfl) rfl rfl rfl rfl rfl (hush rfl)⟩,
   ⟨_, (h (holding 0 0 0 0) plain { collBody with nx := 0 } _ _).2.2.2.1 (rdy rfl rfl rfl) rfl rfl rfl rfl rfl (hush rfl)⟩,
   ⟨_, (h (reaching (holding 0 0 0 0)) plain { collBody with scp := .lane } _ _).2.2.2.2 (rdy rfl rfl rfl) rfl rfl rfl rfl rfl
      (hush rfl)⟩⟩
/-- A tenant whose first gibibyte of path 0x0 is the first of stack 0: a 1 GiB page of each stage. A queue of four records
at 0x8000, whose first window is 64 bytes at 0x100 and whose second is the ring registers, both readable and writable. -/
def tenant : State :=
  let s := ((((State.reset.writeNum .dram 0x2000 8 0x3003).writeNum .dram 0x3000 8 0x27).writeNum .dram 0x4000 8 0x5003).writeNum .dram
    0x5000 8 0x7)
  { s with
    dev :=
      { s.dev with
        vfs := [(0, { quads := 1, s2root := 0x2000, s1root := 0x4000, rings := [(0, { ctl := 4 })] })]
        cqs := [(0, { vf := 0, base := 0x8000, len := 2 })] } }

/-- That tenant with a slot of its queue. -/
def withSlot (k : Nat) (x : Machine.Slot) : State :=
  { tenant with dev := { tenant.dev with cqs := [(0, { vf := 0, base := 0x8000, len := 2, slots := [(k, x)] })] } }

def windows : List Nat := [0x100, 64 + 3 * 2 ^ 32, 0x7000000000020000, 0x400 + 3 * 2 ^ 32, 0x40000000, 64 + 3 * 2 ^ 32, 2 ^ 57,
  64 + 3 * 2 ^ 32]

/-- A prologue of slot 1 that runs, `x1` to `x3` holding numbers. -/
def running (x1 x2 x3 : Word) (steps : Nat) : State :=
  let s := withSlot 1 { held := true, st := 3, wins := windows }
  let p : Prologue := { q := 0, slot := 1, words := [], regs := [0, x1, x2, x3] ++ List.replicate 12 0, pc := 5, steps := steps }
  { s with dev := { s.dev with prologues := [p], launches := [{ q := 0, slot := 1, stage := .prologue }] } }

theorem test_witness_stick_registers (h : Obligations.StickRegisterAndControlWords) :
    Answers (.stickDivu 3 1 2) (running 7 0 0 4095) ∧ Answers (.stickLwr 1 15) (running 7 0 0 0) ∧ Answers (.stickBz 0 9) (running 7 0 0 0) ∧
    Answers (.stickBltu 1 2 9) (running 7 8 0 0) ∧ Answers (.stickLoop 1 5) (running 7 0 0 0) ∧ Answers .stickEnd (running 7 0 0 0) ∧
    Answers .stickCancel (running 7 0 0 0) ∧ Answers (.stickRept 1) (running 256 0 0 0) ∧ Answers (.stickRept 1) (running 257 0 0 0) ∧
    Answers .stickEnd (running 7 0 0 4096) :=
  ⟨⟨_, (h.1 (running 7 0 0 4095) _ 3 1 2 0 0 0 rfl (by decide)).2.2.2.2.2.2.2.2.2.2.2.1⟩,
   ⟨_, (h.1 (running 7 0 0 0) _ 0 1 0 15 0 0 rfl (by decide)).2.2.2.2.2.2.2.2.2.2.2.2.2.2.2.2.1⟩,
   ⟨_, ((h.2 (running 7 0 0 0) _ 0 0 9 0 rfl).1 (by decide)).1⟩,
   ⟨_, ((h.2 (running 7 8 0 0) _ 1 2 0 9 rfl).1 (by decide)).2.2.1⟩,
   ⟨_, ((h.2 (running 7 0 0 0) _ 1 0 5 0 rfl).1 (by decide)).2.2.2.1⟩,
   ⟨_, ((h.2 (running 7 0 0 0) _ 0 0 0 0 rfl).1 (by decide)).2.2.2.2.1⟩,
   ⟨_, ((h.2 (running 7 0 0 0) _ 0 0 0 0 rfl).1 (by decide)).2.2.2.2.2.1⟩,
   ⟨_, ((h.2 (running 256 0 0 0) _ 1 0 0 0 rfl).1 (by decide)).2.2.2.2.2.2⟩,
   ⟨_, ((h.2 (running 257 0 0 0) _ 1 0 0 0 rfl).1 (by decide)).2.2.2.2.2.2⟩,
   ⟨_, (h.2 (running 7 0 0 4096) _ 0 0 0 0 rfl).2 (by decide) _ (by simp)⟩⟩

/-- The same while stack 0 is being retrained. -/
def retraining (x1 x2 x3 : Word) : State :=
  let s := running x1 x2 x3 0
  { s with dev := { s.dev with stks := [(0, { state := 4 })] } }

/-- The last eight bytes of window 0 and the eight after them; a register of window 1; an address beyond the mapped page; one off
the path; and one whose stack is being retrained. -/
theorem test_witness_stick_windows (h : Obligations.StickWindowWords) :
    Answers (.stickLd 3 1 0 0) (running 64 0 0 0) ∧ Answers (.stickLd 3 1 1 8) (running 0 0 0 0) ∧ Answers (.stickLd 3 1 0 0) (running 56 0 0 0) ∧
    Answers (.stickLd 3 1 3 0) (running 0 0 0 0) ∧ Answers (.stickLd 3 1 0 0) (retraining 56 0 0) ∧
    Answers (.stickLd 3 1 2 0) (running 0 0 0 0) ∧ Answers (.stickSt 3 1 0 0) (running 64 0 0 0) ∧ Answers (.stickSt 3 1 1 0) (running 0 0 0 0) ∧
    Answers (.stickSt 3 1 1 0x30) (running 0 0 0 0) ∧ Answers (.stickSt 3 1 0 0) (running 56 0 9 0) ∧
    Answers (.stickSt 3 1 2 0) (running 0 0 9 0) ∧ Answers (.stickSt 3 1 3 0) (running 0 0 9 0) ∧
    Answers (.stickSt 3 1 0 0) (retraining 56 0 9) :=
  ⟨⟨_, (h (running 64 0 0 0) _ 3 1 0 0 rfl (by decide)).1 (by decide)⟩,
   ⟨_, (h (running 0 0 0 0) _ 3 1 1 8 rfl (by decide)).2.1 (by decide) rfl⟩,
   ⟨_, (h (running 56 0 0 0) _ 3 1 0 0 rfl (by decide)).2.2.1 (by decide) rfl rfl rfl _ rfl⟩,
   ⟨_, (h (running 0 0 0 0) _ 3 1 3 0 rfl (by decide)).2.2.2.1 (by decide) rfl rfl⟩,
   ⟨_, (h (retraining 56 0 0) _ 3 1 0 0 rfl (by decide)).2.2.2.2.1 (by decide) rfl rfl rfl⟩,
   ⟨_, (h (running 0 0 0 0) _ 3 1 2 0 rfl (by decide)).2.2.2.2.2.1 (by decide) rfl rfl rfl _ rfl⟩,
   ⟨_, (h (running 64 0 0 0) _ 3 1 0 0 rfl (by decide)).2.2.2.2.2.2.1 (by decide)⟩,
   ⟨_, (h (running 0 0 0 0) _ 3 1 1 0 rfl (by decide)).2.2.2.2.2.2.2.1 (by decide) rfl rfl⟩,
   ⟨_, (h (running 0 0 0 0) _ 3 1 1 0x30 rfl (by decide)).2.2.2.2.2.2.2.2.1 _ (by decide) rfl rfl⟩,
   ⟨_, (h (running 56 0 9 0) _ 3 1 0 0 rfl (by decide)).2.2.2.2.2.2.2.2.2.1 (by decide) rfl rfl rfl _ rfl⟩,
   ⟨_, (h (running 0 0 9 0) _ 3 1 2 0 rfl (by decide)).2.2.2.2.2.2.2.2.2.2.1 (by decide) rfl rfl rfl _ _ rfl⟩,
   ⟨_, (h (running 0 0 9 0) _ 3 1 3 0 rfl (by decide)).2.2.2.2.2.2.2.2.2.2.2.1 (by decide) rfl rfl⟩,
   ⟨_, (h (retraining 56 0 9) _ 3 1 0 0 rfl (by decide)).2.2.2.2.2.2.2.2.2.2.2.2 (by decide) rfl rfl rfl⟩⟩

def landingOf (k : LandKind) (seq : Nat) : Landing :=
  { id := seq, seq := seq, due := 9, kind := k, effs := [.la0 (BitVec.ofNat 64 seq)] }

theorem landingOf_inPlace (k : LandKind) (seq : Nat) :
    (∀ j, (landingOf k seq).wait ≠ .recv j) ∧ ∀ a b c, (landingOf k seq).wait ≠ .row a b c := by simp [landingOf]

/-- A strand whose strand cycle is 9, with two landings due, the later word's first in the list. -/
def landings (k : LandKind) : State :=
  { State.reset with strands := [(0, { runs with ctx := { runs.ctx with sclk := 9 }, pend := [landingOf k 2, landingOf k 1] })] }

/-- One that waits for data. -/
def notYet : State :=
  { State.reset with
    strands :=
      [(0, { runs with ctx := { runs.ctx with sclk := 9 }, pend := [{ id := 1, seq := 1, due := 9, wait := .data, arrived := false }] })] }

theorem test_witness_landings (h : Obligations.LandingsTakeEffect) :
    Answers (.landing 0) (landings .word) ∧ Answers (.streamGroupWrite 0) (landings .group) ∧ Answers (.matrixDelivery 0) (landings .matrix) ∧
    Answers (.landing 0) (landings .matrix) ∧ Answers (.landing 0) notYet :=
  ⟨⟨_, (h (landings .word) 0 (landingOf .word 1)).1 ⟨rfl, by decide⟩ (landingOf_inPlace _ _) rfl⟩,
   ⟨_, (h (landings .group) 0 (landingOf .group 1)).2.1 ⟨rfl, by decide⟩ (landingOf_inPlace _ _) rfl⟩,
   ⟨_, (h (landings .matrix) 0 (landingOf .matrix 1)).2.2.1 ⟨rfl, by decide⟩ (landingOf_inPlace _ _) rfl⟩,
   ⟨_, (h (landings .matrix) 0 (landingOf .matrix 1)).2.2.2.1 ⟨rfl, by decide⟩ (by decide)⟩,
   ⟨_, ((h notYet 0 { id := 0, seq := 0, due := 0 }).2.2.2.2 ⟨_, .head _, rfl⟩).1⟩⟩

/-- A strand with a stream that is due, and with a matrix word that is due. -/
def streaming (e : Eng) (i : Instr) (started : Bool) : State :=
  let d := (region .i32 3 0).toNat
  { State.reset with
    strands :=
      [(0, { runs with
        streams := [{ seq := 0, eng := e, instr := i, start := 0, c := 1, groups := 1, n := 3, regs := [d, d, d, d], scal := [], started := started }]
        mpend := [{ seq := 0, instr := .mclr plain { mBody with a := .q 0, d := .acc 0 }, start := 0, busy := 1, deliver := 2, vals := [] }] })] }

theorem test_witness_stream_groups (h : Obligations.StreamsAndMatrixWordsRead) :
    Answers (.streamStart 0 .v) (streaming .v (.vadd plain vBody) false) ∧ Answers (.streamGroupRead 0 .v) (streaming .v (.vadd plain vBody) true) ∧
    Answers (.streamGroupRead 0 .f) (streaming .f (.fmov plain { fBody with a := .g 0, d := .g 3 }) true) ∧
    Answers (.matrixWordStart 0) (streaming .v (.vadd plain vBody) true) :=
  ⟨⟨_, (h (streaming .v (.vadd plain vBody) false) 0 .v _ plain vBody { seq := 0, instr := .landing 0, start := 0, busy := 0, deliver := 0, vals := [] }
      [] mBody).1 rfl⟩,
   ⟨_, (h (streaming .v (.vadd plain vBody) true) 0 .v _ plain vBody { seq := 0, instr := .landing 0, start := 0, busy := 0, deliver := 0, vals := [] }
      [] mBody).2.1 .vadd rfl rfl (by decide)⟩,
   ⟨_, (h (streaming .f (.fmov plain { fBody with a := .g 0, d := .g 3 }) true) 0 .f _ plain { fBody with a := .g 0, d := .g 3 }
      { seq := 0, instr := .landing 0, start := 0, busy := 0, deliver := 0, vals := [] } [] mBody).2.2.1 .fmov rfl rfl⟩,
   ⟨_, (h (streaming .v (.vadd plain vBody) true) 0 .v
      { seq := 0, eng := .v, instr := .landing 0, start := 0, c := 0, groups := 0, n := 0, regs := [], scal := [] } plain vBody _ _
      { mBody with a := .q 0, d := .acc 0 }).2.2.2 .mclr rfl rfl (by decide)⟩⟩
def lone (t : Strand) : State := { State.reset with strands := [(0, t)] }

/-- With interrupt-enable and pending bits. -/
def pendingBits (v : Word) : State := lone { runs with ctx := { runs.ctx with inten := v } }

def someAsync (i : Instr) (vals : List Nat) : Async := { id := 1, seq := 0, eng := .s, cls := 0, instr := i, vals := vals }

def oops : Trap := { cls := ascii2 'P' 'F', num := 1, addr := 0x1000 }

/-- A command whose access has faulted. -/
def heldOne : State := lone { runs with asyncs := [{ someAsync (.cpy plain cBody) [] with eng := .c, held := some oops }] }

theorem test_witness_strand_events (h : Obligations.StrandEventsTakeEffect) :
    Answers (.debugHaltRequest 0) one ∧ Answers (.interruptTaken 0) (pendingBits 0x700) ∧ Answers (.interruptTaken 0) (pendingBits 0x600) ∧
    Answers (.interruptTaken 0) (pendingBits 0x400) ∧
    Answers (.stallWatchdogExpiry 0) { lone { runs with stall := some (.landing, 7) } with now := 7 + 2 ^ 24 } ∧
    Answers (.regionWatchdogExpiry 0) (lone { runs with regionAt := 5, ctx := { runs.ctx with sclk := 5 + 2 ^ 20 } }) ∧
    Answers (.rephaseHoldEnd 0) (lone { runs with heldUntil := 0 }) ∧ Answers (.contextWriteEffect 0) (lone { runs with deferred := [{ off := 0x140000, bs := [1] }] }) ∧
    Answers (.windowWrite 255 0x1FFFF8 8 5) one ∧ Answers (.heldCommandTrap 0) heldOne :=
  have e (s : State) := h s 0 0 0
  ⟨⟨_, (e one 0 0 0 0 .landing 0 (someAsync .stickEnd []) oops).2.1 rfl⟩,
   ⟨_, (e (pendingBits 0x700) 0 0 0 0 .landing 0 (someAsync .stickEnd []) oops).2.2.2.1 rfl⟩,
   ⟨_, (e (pendingBits 0x600) 0 0 0 0 .landing 0 (someAsync .stickEnd []) oops).2.2.2.2.1 rfl rfl⟩,
   ⟨_, (e (pendingBits 0x400) 0 0 0 0 .landing 0 (someAsync .stickEnd []) oops).2.2.2.2.2.1 rfl rfl rfl⟩,
   ⟨_, (e { lone { runs with stall := some (.landing, 7) } with now := 7 + 2 ^ 24 } 0 0 0 0 .landing 7 (someAsync .stickEnd []) oops).2.2.2.2.2.2.1
      rfl (by decide)⟩,
   ⟨_, (e (lone { runs with regionAt := 5, ctx := { runs.ctx with sclk := 5 + 2 ^ 20 } }) 0 0 0 0 .landing 0 (someAsync .stickEnd []) oops).2.2.2.2.2.2.2.1
      (by decide)⟩,
   ⟨_, (e (lone { runs with heldUntil := 0 }) 0 0 0 0 .landing 0 (someAsync .stickEnd []) oops).2.2.2.2.2.2.2.2.2.1 (by decide)⟩,
   ⟨_, (e (lone { runs with deferred := [{ off := 0x140000, bs := [1] }] }) 0 0 0 0 .landing 0 (someAsync .stickEnd []) oops).2.2.2.2.2.2.2.2.2.2.1
      (by decide)⟩,
   ⟨_, (e one 255 0x1FFFF8 8 5 .landing 0 (someAsync .stickEnd []) oops).2.2.2.2.2.2.2.2.2.2.2.1 (by decide) (by decide) rfl⟩,
   ⟨_, (e heldOne 0 0 0 0 .landing 0 _ oops).2.2.2.2.2.2.2.2.2.2.2.2.2 rfl rfl⟩⟩

/-- A strand with one asynchronous access. -/
def flying (a : Async) : State := lone { runs with asyncs := [a], pend := [{ id := 2, seq := 0, due := 64, wait := .data, arrived := false }] }

def wordAt (i : Instr) : Async := { someAsync i [3 * 2 ^ 60 + 64, 8, 5, 0] with land := some 2 }

/-- A load from path 0x0, where nothing is mapped. -/
def loadAway : Async := someAsync (.ldg plain loadBody) [0x100000, 8]

/-- A store whose word alone, or whose image too, is to be written, and an atomic of the context page of the strand itself. -/
def mirrored (phase : Nat) : Async :=
  { wordAt (.stg plain globalBody) with phase := phase, idx := [3 * 2 ^ 60 + 128], buf := [6], pas := [0, 0].drop phase }
def atPage (i : Instr) : Async := { someAsync i [3 * 2 ^ 60 + 0x130000, 8, 5, 0] with land := some 2 }

/-- The rows of a handle word have come; the array has been at work on it, for one strand cycle more or for none. -/
def served (v : Option Service) : Async :=
  { someAsync (.mmih plain { mBody with a := .handle, b := .t 2, c := .la0, d := .acc 0 })
      [1, (tileCfg .i8 1 4).toNat, 0, 1, 1, 0, 0, 3 * 2 ^ 60, 0, 0, 1, 0, 4] with
    eng := .m, phase := 1, buf := [1, 2, 3, 4], chan := some 0, service := v }

/-- A store to a stack that is being retrained, and one to a channel under retirement. -/
def waiting (s : Device) : State :=
  { flying { someAsync (.stg plain globalBody) [64, 8, 5, 0] with pas := [64], trs := [mapped] } with
    cores := [(0, { tlb := [mapped] })], dev := s }
def retrains : Device := { State.reset.dev with stks := [(0, { state := 4 })] }
def retires : Device := { State.reset.dev with pf := { State.reset.dev.pf with retire := some { ch := 0, donor := 1, step := 1 } } }

def doneOne : Async := { someAsync (.cpy plain cBody) [] with eng := .c, chan := some 0, performed := true, spost := 3 }

theorem test_witness_accesses (h : Obligations.AsynchronousAccessesPerform) :
    Answers (.accessPerform 0 1) (flying (wordAt (.ldg plain loadBody))) ∧ Answers (.accessPerform 0 1) (flying (wordAt (.stg plain globalBody))) ∧
    Answers (.accessPerform 0 1) (flying (mirrored 0)) ∧ Answers (.accessPerform 0 1) (flying (mirrored 1)) ∧
    Answers (.accessPerform 0 1) (flying (wordAt (.aadd plain globalBody))) ∧ Answers (.accessPerform 0 1) (flying (wordAt (.axchg plain globalBody))) ∧
    Answers (.accessPerform 0 1) (flying (wordAt (.acas plain globalBody))) ∧ Answers (.accessPerform 0 1) (flying (wordAt (.amax plain globalBody))) ∧
    Answers (.accessPerform 0 1) (flying (atPage (.aadd plain globalBody))) ∧ Answers (.accessPerform 0 1) (flying loadAway) ∧
    Answers (.commandCompletion 0 1) (flying doneOne) ∧ Answers (.flagWrite 0 1) (flying { doneOne with open_ := false, flag := some (64, 9) }) :=
  ⟨⟨_, (h (flying (wordAt (.ldg plain loadBody))) 0 1 _ plain loadBody plain mBody _ _ _ rfl rfl).1 (by decide) rfl rfl⟩,
   ⟨_, (h (flying (wordAt (.stg plain globalBody))) 0 1 _ plain globalBody plain mBody 0 _ _ rfl rfl).2.2.2.1 (by decide) rfl (by decide) rfl rfl rfl⟩,
   ⟨_, (h (flying (mirrored 0)) 0 1 _ plain globalBody plain mBody 0 _ _ rfl rfl).2.2.2.2.1 (by decide) rfl (by decide) rfl rfl (by decide)⟩,
   ⟨_, (h (flying (mirrored 1)) 0 1 _ plain globalBody plain mBody 0 _ _ rfl rfl).2.2.2.2.2.2.1 _ _ _ _ _ _ rfl rfl rfl rfl rfl rfl rfl rfl rfl rfl rfl⟩,
   ⟨_, (h (flying (wordAt (.aadd plain globalBody))) 0 1 _ plain globalBody plain mBody _ _ _ rfl rfl).2.2.2.2.2.2.2.1 (by decide) rfl rfl rfl⟩,
   ⟨_, (h (flying (wordAt (.axchg plain globalBody))) 0 1 _ plain globalBody plain mBody _ _ _ rfl rfl).2.2.2.2.2.2.2.2.1 (by decide) rfl rfl rfl⟩,
   ⟨_, (h (flying (wordAt (.acas plain globalBody))) 0 1 _ plain globalBody plain mBody _ _ _ rfl rfl).2.2.2.2.2.2.2.2.2.1 (by decide) rfl rfl rfl⟩,
   ⟨_, (h (flying (wordAt (.amax plain globalBody))) 0 1 _ plain globalBody plain mBody _ _ _ rfl rfl).2.2.2.2.2.2.2.2.2.2.1 (by decide) rfl rfl rfl⟩,
   ⟨_, (h (flying (atPage (.aadd plain globalBody))) 0 1 _ plain globalBody plain mBody _ (.win 0 0) _ rfl rfl).2.2.2.2.2.2.2.2.2.2.2.1 .aadd (by decide) _ _ 0
      (by decide) rfl rfl rfl⟩,
   ⟨_, (h (flying loadAway) 0 1 _ plain loadBody plain mBody 0 (.win 0 0) one rfl rfl).2.2.1 (by decide) rfl _ _ _ rfl⟩,
   ⟨_, (h (flying doneOne) 0 1 _ plain loadBody plain mBody 0 (.win 0 0) one rfl rfl).2.2.2.2.2.2.2.2.2.2.2.2.2.2.2.2.2.1 rfl rfl rfl rfl⟩,
   ⟨_, (h (flying { doneOne with open_ := false, flag := some (64, 9) }) 0 1 _ plain loadBody plain mBody 0 (.win 0 0) one rfl
      rfl).2.2.2.2.2.2.2.2.2.2.2.2.2.2.2.2.2.2 _ _ rfl rfl⟩⟩

/-- A handle word taken up, worked on, and delivered. -/
theorem test_witness_handle_service (h : Obligations.AsynchronousAccessesPerform) :
    Answers (.handleWordServe 0 1) (flying (served none)) ∧ Answers (.handleWordServe 0 1) (flying (served (some ⟨2, []⟩))) ∧
    Answers (.handleWordServe 0 1) (flying (served (some ⟨1, []⟩))) ∧ Answers (.handleWordServe 0 1) (flying (served (some ⟨0, []⟩))) :=
  have g (v : Option Service) :=
    (h (flying (served v)) 0 1 _ plain loadBody plain { mBody with a := .handle, b := .t 2, c := .la0, d := .acc 0 } 0 (.win 0 0) one rfl
      rfl).2.2.2.2.2.2.2.2.2.2.2.2.2
  ⟨⟨_, (g none).1 .mmih _ ⟨rfl, rfl, rfl, rfl, rfl, rfl⟩ rfl rfl rfl⟩, ⟨_, (g (some ⟨2, []⟩)).2.1 .mmih [] 0 ⟨rfl, rfl, rfl, rfl, rfl, rfl⟩ rfl⟩,
   ⟨_, (g (some ⟨1, []⟩)).2.2.1 .mmih [] ⟨rfl, rfl, rfl, rfl, rfl, rfl⟩ rfl⟩, ⟨_, (g (some ⟨0, []⟩)).2.2.2.1 .mmih [] ⟨rfl, rfl, rfl, rfl, rfl, rfl⟩ rfl⟩⟩

/-- A fault that the walk of a core has found, met when the access performs. -/
theorem test_witness_access_fault (h : Obligations.AsynchronousAccessesPerform) :
    Answers (.accessPerform 0 1)
      { flying loadAway with
        dev := { State.reset.dev with faults := [{ x := 0, vf := 0, va := 0x100000, write := false, path := 0, trap := oops, host := false }] } } :=
  ⟨_, (h _ 0 1 loadAway plain loadBody plain mBody 0 (.win 0 0) one rfl rfl).2.1 (by decide) rfl _ rfl⟩

theorem test_witness_held_stores (h : Obligations.AsynchronousAccessesPerform) :
    Answers (.accessPerform 0 1) (waiting retrains) ∧ Answers (.accessPerform 0 1) (waiting retires) :=
  ⟨⟨_, (h (waiting retrains) 0 1 _ plain globalBody plain mBody 0 (.win 0 0) _ rfl rfl).2.2.2.2.2.1 (by decide) rfl (by decide) 64 rfl rfl⟩,
   ⟨_, (h (waiting retires) 0 1 _ plain globalBody plain mBody 0 (.win 0 0) _ rfl rfl).2.2.2.2.2.1 (by decide) rfl (by decide) 64 rfl rfl⟩⟩
/-- A launch of slot 1 in a stage. -/
def launchIn (stage : LaunchStage) : Launch := { q := 0, slot := 1, stage := stage, members := [0], ended := [0], gang := 5 }

/-- The tenant with that launch in its slot and this strand. -/
def launched (l : Launch) (t : Strand) : State :=
  let s := withSlot 1 { held := true, st := 3 }
  { s with dev := { s.dev with launches := [l] }, strands := [(0, { t with node := (0, 1), gang := 5 })] }

theorem test_witness_launch_ends (h : Obligations.StrandsAndLaunchesEnd) :
    Answers (.strandEnd 0) (launched (launchIn .running) { runs with closed := true }) ∧
    Answers (.strandEnd 0) (launched (launchIn .running) { runs with mode := .stopped }) ∧
    Answers (.strandEnd 0) (launched (launchIn .running) { runs with mode := .stopped, asyncs := [wordAt (.ldg plain loadBody)] }) ∧
    Answers (.launchComplete 0 1) (launched (launchIn .running) runs) ∧
    Answers (.launchComplete 0 1) (launched { launchIn .running with reps := 2 } runs) ∧
    Answers (.launchComplete 0 1) (launched { launchIn .running with fate := some (14 * 2 ^ 56) } runs) ∧
    Answers (.budgetExpiry 0 1) { launched { launchIn .running with copy := 2 ^ 232 } runs with now := 1500 } ∧
    Answers (.tresumeEnd 0 0 false) (launched (launchIn .running) { runs with mode := .suspended }) ∧
    Answers (.tresumeEnd 0 0 false) (launched (launchIn .running) runs) ∧
    Answers (.rephasePointApply 0) (launched (launchIn .running) { runs with rephase := some (7, none) }) ∧
    Answers (.rephasePointApply 0) (launched (launchIn .running) { runs with rephase := some (7, some (0, 1)) }) :=
  have e (s : State) (d : Nat) := h s 0 0 1 0 0 false (launchIn .running) d none
  ⟨⟨_, (e (launched (launchIn .running) { runs with closed := true }) 0).1 rfl rfl⟩,
   ⟨_, (e (launched (launchIn .running) { runs with mode := .stopped }) 0).2.1 rfl (by decide)⟩,
   ⟨_, (e (launched (launchIn .running) { runs with mode := .stopped, asyncs := [wordAt (.ldg plain loadBody)] }) 0).2.2.1 rfl ⟨_, .head _, rfl⟩⟩,
   ⟨_, (e (launched (launchIn .running) runs) 0).2.2.2.1 rfl rfl (by decide) rfl (by decide) (by decide)⟩,
   ⟨_, (h (launched { launchIn .running with reps := 2 } runs) 0 0 1 0 0 false { launchIn .running with reps := 2 } 0 none).2.2.2.2.1 rfl rfl
      (by decide) rfl (by decide)⟩,
   ⟨_, (h (launched { launchIn .running with fate := some (14 * 2 ^ 56) } runs) 0 0 1 0 0 false { launchIn .running with fate := some (14 * 2 ^ 56) } 0
      none).2.2.2.2.2.1 _ rfl rfl (by decide) rfl⟩,
   ⟨_, (h { launched { launchIn .running with copy := 2 ^ 232 } runs with now := 1500 } 0 0 1 0 0 false { launchIn .running with copy := 2 ^ 232 } 0
      none).2.2.2.2.2.2.1 rfl rfl (by decide) (by decide) rfl⟩,
   ⟨_, (e (launched (launchIn .running) { runs with mode := .suspended }) 0).2.2.2.2.2.2.2.1 rfl⟩,
   ⟨_, (e (launched (launchIn .running) runs) 0).2.2.2.2.2.2.2.2.1 rfl⟩,
   ⟨_, (e (launched (launchIn .running) { runs with rephase := some (7, none) }) 7).2.2.2.2.2.2.2.2.2.1 rfl⟩,
   ⟨_, (e (launched (launchIn .running) { runs with rephase := some (7, some (0, 1)) }) 7).2.2.2.2.2.2.2.2.2.2 _ rfl⟩⟩

/-- A symmetry block (R275): four points of one dimension, mirrored; point rings of four entries at 0x100. -/
def mirrorBlock : Nat := 4 * 2 ^ 336 + 2 ^ 238 + 2 ^ 205 + 3 * 2 ^ 200 + 2 * 2 ^ 188 + 0x100 * 2 ^ 168

/-- A symmetric launch of one strand that has come to a point. -/
def dealing (point dealt : Nat) (done : List Nat) (owed : Option (Nat × Nat)) : Launch :=
  { launchIn .running with ended := [], symm := some { block := mirrorBlock, point := point, dealt := dealt, ended := done, owed := owed } }

def dealer (l : Launch) (t : Strand) : State :=
  let s := launched l t
  { s with dev := { s.dev with gangs := [(5, { members := [0], rows := 1, cols := 1, widest := 1 })] } }

/-- Its ring's header after four points dealt and none taken. -/
def dealtFour : State := (dealer (dealing 1 4 [] none) runs).chipWrite 0 0x100 [4]

/-- A strand whose store to DEALT has not performed. -/
def overHeader : Strand := { runs with asyncs := [{ wordAt (.stg plain globalBody) with open_ := false, trk := 1, fp := [winRange 0 0x100 0x108 true] }] }

/-- Point 3 lies outside the domain; with four points dealt and none taken the ring is full. -/
theorem test_witness_dealing (h : Obligations.LaunchesStageStartAndDeal) :
    Answers (.walkerDeal 5) (dealer (dealing 3 2 [] none) runs) ∧ Answers (.walkerDeal 5) (dealer (dealing 1 1 [] none) { runs with mode := .ended }) ∧
    Answers (.walkerDeal 5) (dealer (dealing 1 1 [] none) runs) ∧ Answers (.walkerDeal 5) dealtFour ∧
    Answers (.walkerDeal 5) (dealer (dealing 1 1 [] (some (0, 1))) runs) ∧
    Answers (.walkerDeal 5) (dealer (dealing 1 1 [] (some (0, 1))) overHeader) ∧
    Answers (.walkerDeal 5) (dealer (dealing 4 2 [0] none) runs) :=
  ⟨⟨_, (h.1 (dealer (dealing 3 2 [] none) runs) 5 _ _ rfl rfl (by decide)).1 ⟨rfl, by decide⟩ rfl⟩,
   ⟨_, (h.1 (dealer (dealing 1 1 [] none) { runs with mode := .ended }) 5 _ _ rfl rfl (by decide)).2.1 ⟨rfl, by decide⟩ rfl rfl⟩,
   ⟨_, (h.1 (dealer (dealing 1 1 [] none) runs) 5 _ _ rfl rfl (by decide)).2.2.1 ⟨rfl, by decide⟩ rfl rfl ⟨by decide, rfl⟩⟩,
   ⟨_, (h.1 dealtFour 5 _ _ rfl rfl (by decide)).2.2.2.1 ⟨rfl, by decide⟩ rfl rfl fun e => absurd e.1 (by decide)⟩,
   ⟨_, (h.1 (dealer (dealing 1 1 [] (some (0, 1))) runs) 5 _ _ rfl rfl (by decide)).2.2.2.2.1 0 1 rfl rfl rfl⟩,
   ⟨_, (h.1 (dealer (dealing 1 1 [] (some (0, 1))) overHeader) 5 _ _ rfl rfl (by decide)).2.2.2.2.2.1 0 1 rfl rfl (by decide)⟩,
   ⟨_, (h.1 (dealer (dealing 4 2 [0] none) runs) 5 _ _ rfl rfl (by decide)).2.2.2.2.2.2 rfl (by decide) (by decide)⟩⟩

/-- A galley image of one segment of eight bytes (R305), and a record of a launch on core 0 that names it at 0x9000. -/
def image : List Byte :=
  leBytes 8 0 ++ leBytes 8 0 ++ leBytes 8 0 ++ leBytes 8 0 ++ leBytes 8 0 ++ leBytes 8 (2 ^ 32 + 0xFFF * 2 ^ 48) ++ leBytes 8 0 ++ leBytes 4 0 ++
    leBytes 4 0x3147584F ++ leBytes 8 80 ++ leBytes 8 (8 * 2 ^ 24) ++ leBytes 8 0xABCD

def launchRecord : Nat := 0x9000 * 2 ^ 960

def imaged (l : Launch) (t : Strand) : State := (launched l t).write .dram 0x9000 image

def staging (stage : LaunchStage) (copy : Nat) : Launch := { q := 0, slot := 1, stage := stage, copy := copy }

/-- The same with a working set, and two other launches of the die being staged. -/
def queued : Nat := launchRecord + 2 ^ 168 + 2 ^ 152
def bothStaging : State :=
  let s := imaged (staging .prologue queued) Strand.idle
  let other (k : Nat) : Launch := { q := 0, slot := k, stage := .staging, copy := queued }
  { s with dev := { s.dev with launches := [staging .prologue queued, other 2, other 3] } }

theorem test_witness_launch_begins (h : Obligations.LaunchesStageStartAndDeal) :
    Answers (.repetitionStart 0 1) (imaged (staging .prologue launchRecord) Strand.idle) ∧
    Answers (.repetitionStart 0 1) bothStaging ∧ Answers (.repetitionStart 0 1) (imaged (staging .prologue 1) Strand.idle) ∧
    Answers (.stagingComplete 0 1) (imaged (staging .staging launchRecord) Strand.idle) ∧
    Answers (.stagingComplete 0 1) (imaged (staging .staging (launchRecord + 3 * 2 ^ 168 + 2 ^ 152)) Strand.idle) ∧
    Answers (.stagingComplete 0 1) (imaged (staging .admission launchRecord) Strand.idle) ∧
    Answers (.strandStart 0) (launched (launchIn .loading) { runs with mode := .loading }) ∧
    Answers (.standbyFill 0 0 1) (imaged (staging .staging launchRecord) Strand.idle) :=
  ⟨⟨_, (h.2 (imaged (staging .prologue launchRecord) Strand.idle) 0 1 0 0 0 0 _ _ _ _ ⟨one, 0, 0, 0⟩).1
      ⟨⟨rfl, rfl, by decide⟩, rfl, fun e => e.1 rfl⟩ rfl⟩,
   ⟨_, (h.2 bothStaging 0 1 0 0 0 0 _ [] none one ⟨one, 0, 0, 0⟩).2.1 ⟨rfl, rfl, by decide⟩ (.inr ⟨by decide, by decide, .inl rfl⟩)⟩,
   ⟨_, (h.2 (imaged (staging .prologue 1) Strand.idle) 0 1 0 0 0 0 _ [] none one _).2.2.1 ⟨⟨rfl, rfl, by decide⟩, rfl, fun e => e.1 rfl⟩ rfl⟩,
   ⟨_, (h.2 (imaged (staging .staging launchRecord) Strand.idle) 0 1 0 0 0 0 _ [] none _ ⟨one, 0, 0, 0⟩).2.2.2.1 rfl rfl rfl rfl⟩,
   ⟨_, (h.2 (imaged (staging .staging (launchRecord + 3 * 2 ^ 168 + 2 ^ 152)) Strand.idle) 0 1 0 0 0 _ _ [] none _ ⟨one, 0, 0, 0⟩).2.2.2.2.1
      rfl rfl rfl rfl⟩,
   ⟨_, (h.2 (imaged (staging .admission launchRecord) Strand.idle) 0 1 0 0 0 0 _ [] none one ⟨one, 0, 0, 0⟩).2.2.2.2.2.1 rfl rfl⟩,
   ⟨_, (h.2 (launched (launchIn .loading) { runs with mode := .loading }) 0 1 0 0 0 0 (launchIn .loading) [] none one ⟨one, 0, 0, 0⟩).2.2.2.2.2.2.1 rfl
      (by decide)⟩,
   ⟨_, (h.2 (imaged (staging .staging launchRecord) Strand.idle) 0 1 0 0 launchRecord 0 (staging .staging launchRecord) _ none one
      ⟨one, 0, 0, 0⟩).2.2.2.2.2.2.2.1 0 rfl rfl rfl rfl rfl ⟨_, .head _, rfl⟩ (by decide)⟩⟩

/-- A store of a symmetric launch that has performed, with its count still to be made. -/
theorem test_witness_ring_count (h : Obligations.AsynchronousAccessesPerform) :
    Answers (.accessPerform 0 1) (launched (dealing 1 1 [] none)
      { runs with asyncs := [{ wordAt (.stg plain globalBody) with performed := true, open_ := false, count := some (24, 1) }] }) :=
  ⟨_, (h (launched (dealing 1 1 [] none) { runs with asyncs := [{ wordAt (.stg plain globalBody) with performed := true, open_ := false, count := some (24, 1) }] })
    0 1 _ plain loadBody plain mBody 0 (.win 0 0) one rfl rfl).2.2.2.2.2.2.2.2.2.2.2.2.1 _ _ _ rfl rfl rfl rfl rfl⟩
/-- A preemption request's launch in slot 1 of queue 0, under way in a stage, with room for one save. -/
def saves (l : Launch) (st : Nat) (t : Strand) : State :=
  let s := launched l t
  { s with
    dev := { s.dev with cqs := [(0, { vf := 0, base := 0x8000, len := 2, savn := 1, slots := [(1, { held := true, st := st })] })]
                        stks := (List.range 4).map fun k => (k, { state := 3 }) } }

def emptyCheckpoint : Checkpoint :=
  { ctx := Ctx.zero, queues := Strand.idle.queues, pend := [], streams := [], mpend := [], timed := [], sems := [], next := [], acm := 0, vEnd := 0
    fEnd := 0, mEnd := 0, accIss := Strand.idle.accIss, raises := [], deferred := [], matched := false }

/-- A strand between strand cycles, with its checkpoint. -/
def atBoundary : Strand := { runs with ckpt := some emptyCheckpoint }

def saving : Launch := { launchIn .saving with ended := [], saveBy := some 9 }

def savedOne : SavedStrand :=
  { rank := 0, core := 0, strand := runs, sems := [], chans := [], acm := 0, dvm := [], circuits := [], pieces := [], bad := [], quoins := [] }

def isSaved (l : List SavedStrand) : Launch := { staging .saved launchRecord with img := image, saved := l }

/-- A saved launch of one strand whose record takes an ownership bit. -/
def savedMask : Launch := { isSaved [savedOne] with copy := launchRecord + 2 ^ 446 }

/-- A firmware hand-over that holds the compositor's third handler, and full service asked for (R387, R391). -/
def handing (s : State) : State := { s with dev := { s.dev with pf := { s.dev.pf with handover := some ⟨0, 0, 8, 0, 0⟩ } } }
def closing (s : State) : State := { s with dev := { s.dev with pf := { s.dev.pf with closing := true } } }

theorem test_witness_preemption (h : Obligations.PreemptionActs) :
    Answers (.pmreqPreempt 2) (saves (launchIn .running) 3 runs) ∧ Answers (.pmreqPreempt 1) (saves (launchIn .running) 2 runs) ∧
    Answers (.pmreqPreempt 1) (saves saving 3 runs) ∧ Answers (.pmreqPreempt 1) (saves (launchIn .running) 3 runs) ∧
    Answers (.pmreqPreempt 1) (saves { launchIn .running with copy := 2 ^ 336 } 3 runs) ∧ Answers (.pmreqPreempt 1) (handing tenant) ∧
    Answers (.preemptSave 0 1) (saves saving 3 { atBoundary with micro := 3 }) ∧ Answers (.preemptSave 0 1) (saves saving 3 atBoundary) ∧
    Answers (.preemptSave 0 1) (saves { launchIn .admission with saveBy := some 9 } 3 runs) ∧
    Answers (.cqsavnWrite 0 0) tenant ∧ Answers (.cqsavnWrite 0 257) tenant :=
  ⟨⟨_, (h (saves (launchIn .running) 3 runs) 2 0 1 (launchIn .running) { vf := 0 }).1 rfl rfl⟩,
   ⟨_, (h (saves (launchIn .running) 2 runs) 1 0 1 _ { vf := 0 }).2.1 rfl rfl (by decide)⟩,
   ⟨_, (h (saves saving 3 runs) 1 0 1 _ { vf := 0 }).2.2.1 rfl rfl rfl (by decide)⟩,
   ⟨_, (h (saves (launchIn .running) 3 runs) 1 0 1 _ { vf := 0 }).2.2.2.1 rfl rfl rfl rfl (by decide) (by decide)⟩,
   ⟨_, (h (saves { launchIn .running with copy := 2 ^ 336 } 3 runs) 1 0 1 _ { vf := 0 }).2.2.2.2.1 rfl rfl rfl rfl (by decide) (by decide)⟩,
   ⟨_, ((h (handing tenant) 1 0 1 saving { vf := 0 }).2.2.2.2.2.1 rfl).1⟩,
   ⟨_, (h (saves saving 3 { atBoundary with micro := 3 }) 0 0 1 _ { vf := 0 }).2.2.2.2.2.2.1 rfl rfl ⟨0, .head _, rfl⟩⟩,
   ⟨_, (h (saves saving 3 atBoundary) 0 0 1 _ { vf := 0 }).2.2.2.2.2.2.2.1 rfl rfl (by decide) _ rfl⟩,
   ⟨_, (h (saves { launchIn .admission with saveBy := some 9 } 3 runs) 0 0 1 _ { vf := 0 }).2.2.2.2.2.2.2.2.1 rfl rfl (by decide)⟩,
   ⟨_, (h tenant 0 0 1 saving _).2.2.2.2.2.2.2.2.2.2.2.2.2.2.2.2.1 _ _ rfl (by decide) (by decide) rfl⟩,
   ⟨_, (h tenant 257 0 1 saving _).2.2.2.2.2.2.2.2.2.2.2.2.2.2.2.2.2 rfl (by decide)⟩⟩

/-- What `pmreqResume` does: a launch saved without strands, one that restores, one whose masks clash, one held back, one that is
not saved, and a save whose image is lost. -/
theorem test_witness_resume (h : Obligations.PreemptionActs) :
    Answers (.pmreqResume 1) (saves (isSaved []) 5 Strand.idle) ∧ Answers (.pmreqResume 1) (saves (isSaved [savedOne]) 5 Strand.idle) ∧
    Answers (.pmreqResume 1) (saves savedMask 5 runs) ∧ Answers (.pmreqResume 1) (closing (saves (isSaved [savedOne]) 5 Strand.idle)) ∧
    Answers (.pmreqResume 1) (saves (launchIn .running) 3 runs) ∧ Answers (.pmreqResume 1) (withSlot 1 { lost := true }) :=
  ⟨⟨_, (h (saves (isSaved []) 5 Strand.idle) 1 0 1 _ { vf := 0 }).2.2.2.2.2.2.2.2.2.1 rfl rfl rfl rfl⟩,
   ⟨_, (h (saves (isSaved [savedOne]) 5 Strand.idle) 1 0 1 _ { vf := 0 }).2.2.2.2.2.2.2.2.2.2.1
      ⟨rfl, rfl, .inl ⟨rfl, by simp [isSaved]⟩⟩ ⟨rfl, rfl, rfl⟩ rfl rfl⟩,
   ⟨_, (h (saves savedMask 5 runs) 1 0 1 _ { vf := 0 }).2.2.2.2.2.2.2.2.2.2.2.1
      ⟨rfl, rfl, .inl ⟨rfl, by simp [savedMask, isSaved]⟩⟩ (.inl rfl)⟩,
   ⟨_, (h (closing (saves (isSaved [savedOne]) 5 Strand.idle)) 1 0 1 _ { vf := 0 }).2.2.2.2.2.2.2.2.2.2.2.2.2.1
      ⟨rfl, rfl, .inl ⟨rfl, by simp [isSaved]⟩⟩ ⟨rfl, rfl, rfl⟩ (.inr rfl)⟩,
   ⟨_, (h (saves (launchIn .running) 3 runs) 1 0 1 _ { vf := 0 }).2.2.2.2.2.2.2.2.2.2.2.2.2.2.1 rfl rfl (by decide) (by decide)⟩,
   ⟨_, (h (withSlot 1 { lost := true }) 1 0 1 saving { vf := 0 }).2.2.2.2.2.2.2.2.2.2.2.2.2.2.2.1 rfl rfl⟩⟩

/-- A saved gang of two packages that another package refuses, where it does (the refusal of another package is a free value). -/
theorem test_witness_resume_far (h : Obligations.PreemptionActs) (z : Nat × Nat × Nat) (e : Config.farRefusal 0 = some z) :
    let l : Launch := { isSaved [savedOne] with copy := launchRecord + 2 ^ 346 }
    Answers (.pmreqResume 1) (saves l 5 Strand.idle) :=
  ⟨_, (h (saves { isSaved [savedOne] with copy := launchRecord + 2 ^ 346 } 5 Strand.idle) 1 0 1 _ { vf := 0 }).2.2.2.2.2.2.2.2.2.2.2.2.1
    ⟨rfl, rfl, .inl ⟨rfl, by simp [isSaved]⟩⟩ rfl rfl (by rw [show State.farRefusal _ _ = Config.farRefusal 0 from rfl, e]; rfl)⟩

/-- A ready node of slot 1: its kind, its two arguments, and a word at 0x100 that its predicate may name. -/
def node (kind arg arg2 word : Nat) (body : Option (List Nat)) : State :=
  let s := (withSlot 1 { held := true, copy := arg * 2 ^ 448 + arg2 * 2 ^ 384 + kind * 2 ^ 244, st := 2, body := body }).writeNum .dram 0x100 8 word
  { s with dev := { s.dev with ready := [(0, 0, 1)] } }

/-- A launch node whose record names the queue's first prologue. -/
def prologued : State :=
  let s := (node 1 0x200 0 0 none).writeNum .dram 0x200 128 (2 ^ 264)
  { s with dev := { s.dev with cqs := s.dev.cqs.map fun e => (e.1, { e.2 with slots := e.2.slots.map fun x => (x.1, { x.2 with nprog := 2, progs := [(1, {})] }) }) } }

/-- A strand on core 0 that can be re-phased. -/
def rephasable : State :=
  let s := node 6 0 1 0 none
  { s with strands := [(0, { runs with stride := 4, ctx := { runs.ctx with smode := 0 } })] }

theorem test_witness_nodes (h : Obligations.NodesAreTaken) :
    Answers (.joinNode 0 1) (node 0 0 0 0 none) ∧ Answers (.launchNode 0 1) (node 1 0x220 0 0 none) ∧ Answers (.launchNode 0 1) (node 1 0x200 0 0 none) ∧
    Answers (.launchNode 0 1) prologued ∧ Answers (.conditionalNode 0 1) (node 2 0x100 0 9 none) ∧ Answers (.conditionalNode 0 1) (node 2 0x100 0 0 none) ∧
    Answers (.conditionalNode 0 1) (node 2 0x104 0 0 none) ∧ Answers (.loopNode 0 1) (node 3 0x100 0 9 (some [])) ∧
    Answers (.loopNode 0 1) (node 3 0x100 0 0 none) ∧ Answers (.hostSignalNode 0 1) (node 4 0 0 0 none) ∧
    Answers (.hostSignalNode 0 1) (node 4 0 15 0 none) ∧ Answers (.hostSignalNode 0 1) (node 4 0 16 0 none) ∧ Answers (.signalNode 0 1) (node 5 1 0 0 none) ∧
    Answers (.rephaseNode 0 1) rephasable :=
  ⟨⟨_, (h (node 0 0 0 0 none) 0 1 0 0 [] {}).1 ⟨rfl, rfl, rfl⟩⟩,
   ⟨_, (h (node 1 0x220 0 0 none) 0 1 0 0 [] {}).2.1 ⟨rfl, rfl, rfl⟩ (.inl (by decide))⟩,
   ⟨_, (h (node 1 0x200 0 0 none) 0 1 0 _ [] {}).2.2.1 ⟨rfl, rfl, rfl⟩ (by decide) rfl rfl rfl⟩,
   ⟨_, (h prologued 0 1 0 _ [] {}).2.2.2.1 ⟨rfl, rfl, rfl⟩ (by decide) rfl rfl (by decide) (by decide) rfl rfl⟩,
   ⟨_, (h (node 2 0x100 0 9 none) 0 1 0 _ [] {}).2.2.2.2.1 ⟨rfl, rfl, rfl⟩ (by decide) rfl (by decide)⟩,
   ⟨_, (h (node 2 0x100 0 0 none) 0 1 0 _ [] {}).2.2.2.2.2.1 ⟨rfl, rfl, rfl⟩ (by decide) rfl rfl⟩,
   ⟨_, (h (node 2 0x104 0 0 none) 0 1 0 0 [] {}).2.2.2.2.2.2.1 ⟨rfl, rfl, rfl⟩ (by decide)⟩,
   ⟨_, (h (node 3 0x100 0 9 (some [])) 0 1 0 _ _ {}).2.2.2.2.2.2.2.1 ⟨rfl, rfl, rfl⟩ (by decide) rfl (by decide) rfl⟩,
   ⟨_, (h (node 3 0x100 0 0 none) 0 1 0 _ [] {}).2.2.2.2.2.2.2.2.2.2.1 ⟨rfl, rfl, rfl⟩ (by decide) rfl rfl⟩,
   ⟨_, (h (node 4 0 0 0 none) 0 1 0 0 [] {}).2.2.2.2.2.2.2.2.2.2.2.1 ⟨rfl, rfl, rfl⟩ (by decide) (by decide)⟩,
   ⟨_, (h (node 4 0 15 0 none) 0 1 0 0 [] {}).2.2.2.2.2.2.2.2.2.2.2.2.1 ⟨rfl, rfl, rfl⟩ (by decide) rfl⟩,
   ⟨_, (h (node 4 0 16 0 none) 0 1 0 0 [] {}).2.2.2.2.2.2.2.2.2.2.2.2.2.1 ⟨rfl, rfl, rfl⟩ (by decide)⟩,
   ⟨_, (h (node 5 1 0 0 none) 0 1 0 0 [] {}).2.2.2.2.2.2.2.2.2.2.2.2.2.2.1 ⟨rfl, rfl, rfl⟩⟩,
   ⟨_, (h rephasable 0 1 0 0 [] {}).2.2.2.2.2.2.2.2.2.2.2.2.2.2.2 ⟨rfl, rfl, rfl⟩ rfl rfl⟩⟩

/-- Predicates: beyond the path, not aligned, and not mapped. -/
theorem test_witness_predicates (h : Obligations.PredicateNodesRefuse) :
    Answers (.conditionalNode 0 1) (node 2 (2 ^ 57) 0 0 none) ∧ Answers (.loopNode 0 1) (node 3 0x104 0 0 none) ∧
    Answers (.conditionalNode 0 1) (node 2 (2 ^ 48 - 8) 0 0 none) ∧ Answers (.loopNode 0 1) (node 3 0x40000000 0 0 none) :=
  ⟨⟨_, (h (node 2 (2 ^ 57) 0 0 none) 0 1 0 oops { vf := 0 }).1 ⟨rfl, rfl, rfl⟩ (by decide)⟩,
   ⟨_, (h (node 3 0x104 0 0 none) 0 1 0 oops { vf := 0 }).2.1 ⟨rfl, rfl, rfl⟩ (by decide)⟩,
   ⟨_, (h (node 2 (2 ^ 48 - 8) 0 0 none) 0 1 0 _ { vf := 0 }).2.2.1 ⟨rfl, rfl, rfl⟩ (by decide) rfl⟩,
   ⟨_, (h (node 3 0x40000000 0 0 none) 0 1 0 _ { vf := 0 }).2.2.2.1 ⟨rfl, rfl, rfl⟩ (by decide) rfl⟩⟩
/-- A loop node whose true set is slot 2, a join node that credits the loop node again. -/
def looped : State :=
  let x := 0x100 * 2 ^ 448 + 2 * 2 ^ 368 + 2 ^ 252 + 2 ^ 248 + 3 * 2 ^ 244
  let s := node 3 0x100 0 9 none
  { s with
    dev := { s.dev with cqs := [(0, { vf := 0, base := 0x8000, len := 2, slots :=
      [(1, { held := true, copy := x, st := 2 }), (2, { held := true, copy := 2 ^ 368 + 2 ^ 252, st := 1 })] })] } }

theorem test_witness_loop_bodies (h : Obligations.NodesAreTaken) :
    Answers (.loopNode 0 1) looped ∧ Answers (.loopNode 0 1) (node 3 0x100 0 9 none) :=
  ⟨⟨_, (h looped 0 1 0 _ _ {}).2.2.2.2.2.2.2.2.1 ⟨rfl, rfl, rfl⟩ (by decide) rfl (by decide) rfl rfl⟩,
   ⟨_, (h (node 3 0x100 0 9 none) 0 1 0 _ [] {}).2.2.2.2.2.2.2.2.2.1 ⟨rfl, rfl, rfl⟩ (by decide) rfl (by decide) rfl rfl⟩⟩

/-- The queue with a record in memory for slot `k`, and with the slot as it stood. -/
def ringing (k : Nat) (rec : Nat) (x : Machine.Slot) : State := (withSlot k x).writeNum .dram (0x8000 + 64 * k) 64 rec

/-- Slot 3 is the last of a queue of four. -/
theorem test_witness_doorbells (h : Obligations.QueueRegistersAct) :
    Answers (.doorbell 0 3) (ringing 3 (2 ^ 192 + 2 ^ 216) {}) ∧ Answers (.doorbell 0 3) (ringing 3 (2 ^ 192 + 2 ^ 216) { count := 1 }) ∧
    Answers (.doorbell 0 3) (ringing 3 (2 ^ 192) { notice := some 7 }) ∧ Answers (.doorbell 0 3) (ringing 3 (2 ^ 192 + 1) {}) ∧
    Answers (.doorbell 0 4) (ringing 3 0 {}) ∧ Answers (.doorbell 0 3) (ringing 3 0 { held := true }) ∧ Answers (.doorbell 0 65536) (ringing 3 0 {}) ∧
    Answers (.compositorQueueCreate 255 63) tenant :=
  ⟨⟨_, (h (ringing 3 (2 ^ 192 + 2 ^ 216) {}) 0 3 _ 0 _).1 ⟨rfl, rfl, by decide, by decide, rfl, rfl, rfl, rfl, rfl⟩ rfl rfl (by decide)⟩,
   ⟨_, (h (ringing 3 (2 ^ 192 + 2 ^ 216) { count := 1 }) 0 3 _ 0 _).2.1 ⟨rfl, rfl, by decide, by decide, rfl, rfl, rfl, rfl, rfl⟩ rfl rfl rfl⟩,
   ⟨_, (h (ringing 3 (2 ^ 192) { notice := some 7 }) 0 3 _ 0 _).2.2.1 _ ⟨rfl, rfl, by decide, by decide, rfl, rfl, rfl, rfl, rfl⟩ rfl rfl⟩,
   ⟨_, (h (ringing 3 (2 ^ 192 + 1) {}) 0 3 _ 0 _).2.2.2.1 _ ⟨rfl, rfl, by decide, by decide, rfl, rfl, rfl, rfl, rfl⟩ rfl⟩,
   ⟨_, (h (ringing 3 0 {}) 0 4 0 0 _).2.2.2.2.1 rfl rfl (.inr (.inl (by decide)))⟩,
   ⟨_, (h (ringing 3 0 { held := true }) 0 3 0 0 _).2.2.2.2.1 rfl rfl (.inr (.inr rfl))⟩,
   ⟨_, (h (ringing 3 0 {}) 0 65536 0 0 _).2.2.2.2.1 rfl rfl (.inl (by decide))⟩,
   ⟨_, (h tenant 255 0 0 63 { vf := 0 }).2.2.2.2.2.2.2.2 (by decide) (by decide) rfl⟩⟩

def packet (kind : Nat) : Packet := { id := 9, kind := kind, bytes := [1, 2], off := 0x100, strand := 0, cmd := 1, last := true, ready := 0 }

/-- A circuit with a packet that waits and one that is on its way, at the chip cycle in which its slot opens; the strand with the
command it belongs to. -/
def network (waiting coming : Nat) (credits : Nat) (n : Nat) : State :=
  let c : Circuit := { credits := credits, wait := [packet waiting], fly := [packet coming] }
  { State.reset with
    now := 9
    strands := [(0, { runs with slots := [3], asyncs := [{ someAsync (.nget plain getBody) [3 * 2 ^ 60, 0x100, n] with eng := .n }] })]
    cores := [(0, { slots := [(3, sends)], circuits := [(3, c)] })] }

/-- A footprint that covers the packet's place. -/
def covered : State :=
  let s := network 1 1 1 16
  { s with
    strands := [(0, { s.t with asyncs := [{ someAsync (.cpy plain cBody) [] with eng := .c, trk := 1, fp := [{ lo := 0x100, hi := 0x102, write := true }] }] })] }

theorem test_witness_network (h : Obligations.NetworkEventsAct) :
    Answers (.packetDepart 0 3) (network 0 0 1 16) ∧ Answers (.packetDepart 0 3) (network 0 0 0 16) ∧ Answers (.packetArrive 0 3 9) (network 0 0 1 16) ∧
    Answers (.packetArrive 0 3 9) (network 1 1 1 16) ∧ Answers (.packetArrive 0 3 9) covered ∧ Answers (.packetArrive 0 3 9) (network 2 2 1 16) ∧
    Answers (.packetArrive 0 3 9) (network 3 3 1 16) ∧ Answers (.ngetRequestAccept 0 3 9) (network 2 2 1 256) ∧
    Answers (.ngetRequestAccept 0 3 9) (network 2 2 1 257) :=
  ⟨⟨_, (h.1 (network 0 0 1 16) 0 3 0 _ _ (someAsync .stickEnd [])).1 (by decide) rfl rfl⟩,
   ⟨_, (h.1 (network 0 0 0 16) 0 3 0 _ _ (someAsync .stickEnd [])).2.1 (by decide) rfl rfl⟩,
   ⟨_, (h.1 (network 0 0 1 16) 0 3 9 _ [] (someAsync .stickEnd [])).2.2.1 rfl (by decide) rfl⟩,
   ⟨_, (h.1 (network 1 1 1 16) 0 3 9 _ [] (someAsync .stickEnd [])).2.2.2.1 rfl (by decide) rfl rfl⟩,
   ⟨_, (h.1 covered 0 3 9 _ [] (someAsync .stickEnd [])).2.2.2.2.1 rfl (by decide) rfl rfl⟩,
   ⟨_, (h.1 (network 2 2 1 16) 0 3 9 _ [] (someAsync .stickEnd [])).2.2.2.2.2.1 rfl (by decide) rfl⟩,
   ⟨_, (h.1 (network 3 3 1 16) 0 3 9 _ [] (someAsync .stickEnd [])).2.2.2.2.2.2.1 rfl (by decide) rfl⟩,
   ⟨_, (h.1 (network 2 2 1 256) 0 3 9 _ [] _).2.2.2.2.2.2.2.2.1 rfl rfl rfl (by decide)⟩,
   ⟨_, (h.1 (network 2 2 1 257) 0 3 9 _ [] _).2.2.2.2.2.2.2.2.2 rfl rfl rfl (by decide)⟩⟩

/-- A gang of one member with a collective to which it has contributed. -/
def gathered : State :=
  let k : Coll := { level := 1, unit := 0, ord := 2, parts := [{ rank := 0, strand := 0, cmd := 1, form := 2, op := 0, root := 0, ty := .f32, codes := [5] }] }
  let s := flying (someAsync (.agth plain collBody) [])
  { s with dev := { s.dev with gangs := [(0, { members := [0], rows := 1, cols := 1, widest := 1, colls := [k] })] } }

/-- The same gang spread over two packages, whose tree has pair 5 of link 0, in a state of the link. -/
def spread (k : Link) : State :=
  let l : Launch := { launchIn .running with gang := 0, pairs := [(0, 5)] }
  let coll : Coll := { level := 5, unit := 0, ord := 2, parts := [{ rank := 0, strand := 0, cmd := 1, form := 2, op := 0, root := 0, ty := .f32, codes := [5] }] }
  { gathered with
    dev := { gathered.dev with
      gangs := [(0, { members := [0, 4096], rows := 1, cols := 1, widest := 5, colls := [coll] })], launches := [l], links := [(0, k)] } }

def linkDown : State := spread {}
def linkLate : State := spread { state := 2, fails := [{ sent := 10, first := 10, count := 1 }] }

theorem test_witness_gangs (h : Obligations.NetworkEventsAct) :
    Answers (.barrierRelease 0 1 0 5) gathered ∧ Answers (.barrierRelease 0 5 0 5) linkDown ∧ Answers (.barrierRelease 0 5 0 5) linkLate ∧
    Answers (.collectiveComplete 0 5 0 2) linkDown ∧ Answers (.collectiveComplete 0 5 0 2) linkLate ∧ Answers (.collectiveComplete 0 1 0 2) gathered :=
  let none_ : Coll := { level := 0, unit := 0, ord := 0, parts := [] }
  ⟨⟨_, (h.2 gathered 0 1 0 5 0 none_).1 (by decide) rfl (by decide) (by decide)⟩,
   ⟨_, (h.2 linkDown 0 5 0 5 0 none_).2.1 (by decide)⟩,
   ⟨_, (h.2 linkLate 0 5 0 5 0 none_).2.2.1 (by decide) rfl (by decide) (by decide)⟩,
   ⟨_, (h.2 linkDown 0 5 0 0 2 _).2.2.2.1 rfl (by decide)⟩,
   ⟨_, (h.2 linkLate 0 5 0 0 2 _).2.2.2.2.1 rfl (by decide) (by decide)⟩,
   ⟨_, (h.2 gathered 0 1 0 0 2 _).2.2.2.2.2 rfl (by decide) (by decide)⟩⟩

/-- A strand that pins row 7 of bank 3 of channel 0 for `left` more intervals. -/
def pinned (left : Nat) : State := lone { runs with pins := [{ ch := 0, bank := 3, row := 7, left := left, next := 100 }] }

/-- The rows pinned run out; a strand that has ended, and a quoin that is not pinned, change nothing. -/
theorem test_witness_pins (h : Obligations.RowPinsRunOut) :
    Answers (.refreshInterval 0 3) { pinned 2 with now := 100 } ∧ Answers (.holdBudgetExpiry 0 (7 * 2 ^ 16 + 3 * 2 ^ 9)) (pinned 0) ∧
    Answers (.holdBudgetExpiry 0 0) (pinned 0) ∧ Answers (.temperatureCrossing 0 false) one ∧ Answers (.temperatureCrossing 0 true) (pinned 2) :=
  ⟨⟨_, (h { pinned 2 with now := 100 } 0 3 0 0 0 false).1⟩,
   ⟨_, (h (pinned 0) 0 3 0 (7 * 2 ^ 16 + 3 * 2 ^ 9) 0 false).2.1 rfl rfl⟩,
   ⟨_, (h (pinned 0) 0 3 0 0 0 false).2.2.1 (.inr rfl)⟩,
   ⟨_, (h one 0 3 0 0 0 false).2.2.2.1 rfl⟩,
   ⟨_, (h (pinned 2) 0 3 0 0 0 true).2.2.2.2 (by decide)⟩⟩

/-- Two strands with two pins on the bank, three of them due: the budgets left after an interval (R218), counted by hand. -/
theorem test_refresh_interval_every_pin :
    let p (q row left next : Nat) : Pin := { ch := 0, bank := q, row := row, left := left, next := next }
    let s : State :=
      { one with now := 100, strands := [(0, { runs with pins := [p 3 7 3 100, p 3 8 5 101] }), (16, { runs with pins := [p 3 9 2 100, p 2 9 4 99] })] }
    ((match execRefreshInterval 0 3 s with | .next u => u.strands.map fun e => e.2.pins.map Pin.left | _ => [])) = [[2, 5], [1, 4]] := by decide

/-- A tenant's ring 0 of 16 records. -/
def ringOf (r : HostRing) : State := { State.reset with dev := { State.reset.dev with vfs := [(0, { rings := [(0, r)] })] } }

def aPost : Post := { val := 5, src := 2, orig := 1, by_ := .host 65 }

def reported : State := { State.reset with dev := { State.reset.dev with reports := [{ vf := 0, cls := 0, num := 1 }] } }

theorem test_witness_rings (h : Obligations.HostRingsAct) :
    Answers (.hrpostWrite 0 0 5 2 1) (ringOf { ctl := 4 }) ∧ Answers (.hrpostWrite 0 0 5 2 1) (ringOf {}) ∧
    Answers (.ringRecordWrite 0 0) (ringOf { ctl := 4, prod := 15, posts := [aPost] }) ∧
    Answers (.ringRecordWrite 0 0) (ringOf { ctl := 4, prod := 16, posts := [aPost] }) ∧ Answers (.ringRecordWrite 0 0) (ringOf {}) ∧
    Answers (.ringRecordWrite 0 16) reported ∧ Answers (.ringRecordWrite 0 16) State.reset ∧
    Answers (.hrconsWrite 0 0 3) (ringOf { ctl := 4, prod := 3 }) ∧ Answers (.hrconsWrite 0 0 4) (ringOf { ctl := 4, prod := 3 }) :=
  let e : EventRec := { vf := 0, cls := 0, num := 1 }
  ⟨⟨_, (h (ringOf { ctl := 4 }) 0 0 5 2 1 aPost [] e 0).1 (by decide)⟩,
   ⟨_, (h (ringOf {}) 0 0 5 2 1 aPost [] e 0).2.1 rfl⟩,
   ⟨_, (h (ringOf { ctl := 4, prod := 15, posts := [aPost] }) 0 0 0 0 0 aPost [] e 0).2.2.1 (by decide) rfl (by decide) (by decide)⟩,
   ⟨_, (h (ringOf { ctl := 4, prod := 16, posts := [aPost] }) 0 0 0 0 0 aPost [] e 0).2.2.2.1 (by decide) rfl (by decide) (by decide)⟩,
   ⟨_, (h (ringOf {}) 0 0 0 0 0 aPost [] e 0).2.2.2.2.1 (by decide) rfl⟩,
   ⟨_, (h reported 0 0 0 0 0 aPost [] _ 0).2.2.2.2.2.1 rfl⟩,
   ⟨_, (h State.reset 0 0 0 0 0 aPost [] e 0).2.2.2.2.2.2.1 rfl⟩,
   ⟨_, (h (ringOf { ctl := 4, prod := 3 }) 0 0 3 0 0 aPost [] e 0).2.2.2.2.2.2.2.1 (by decide)⟩,
   ⟨_, (h (ringOf { ctl := 4, prod := 3 }) 0 0 4 0 0 aPost [] e 0).2.2.2.2.2.2.2.2.1 (by decide)⟩⟩

/-- A write of a ring's control: IEN kept, cleared, and set with nothing unsignalled, with records below ICNT, and with ICNT reached. -/
theorem test_witness_ring_control (h : Obligations.HostRingsAct) :
    Answers (.hrctlWrite 0 0 4) (ringOf {}) ∧ Answers (.hrctlWrite 0 0 4) (ringOf { ctl := 0x104 }) ∧ Answers (.hrctlWrite 0 0 0x104) (ringOf {}) ∧
    Answers (.hrctlWrite 0 0 (0x104 + 2 * 2 ^ 48)) (ringOf { ctl := 4, prod := 1 }) ∧
    Answers (.hrctlWrite 0 0 (0x104 + 2 * 2 ^ 48)) (ringOf { ctl := 4, prod := 2 }) ∧
    Answers (.ringTimerExpiry 0 0) (ringOf { ctl := 4, timer := some 0 }) ∧ Answers (.erlostRead 63) reported ∧ Answers (.erlostRead 64) reported :=
  let e : EventRec := { vf := 0, cls := 0, num := 1 }
  ⟨⟨_, (h (ringOf {}) 0 0 4 0 0 aPost [] e 0).2.2.2.2.2.2.2.2.2.1 rfl⟩,
   ⟨_, (h (ringOf { ctl := 0x104 }) 0 0 4 0 0 aPost [] e 0).2.2.2.2.2.2.2.2.2.2.1 rfl rfl⟩,
   ⟨_, (h (ringOf {}) 0 0 0x104 0 0 aPost [] e 0).2.2.2.2.2.2.2.2.2.2.2.1 ⟨rfl, rfl⟩ rfl⟩,
   ⟨_, (h (ringOf { ctl := 4, prod := 1 }) 0 0 (0x104 + 2 * 2 ^ 48) 0 0 aPost [] e 0).2.2.2.2.2.2.2.2.2.2.2.2.1 ⟨rfl, rfl⟩ (by decide) (by decide)⟩,
   ⟨_, (h (ringOf { ctl := 4, prod := 2 }) 0 0 (0x104 + 2 * 2 ^ 48) 0 0 aPost [] e 0).2.2.2.2.2.2.2.2.2.2.2.2.2.1 ⟨rfl, rfl⟩ (by decide) (by decide)⟩,
   ⟨_, (h (ringOf { ctl := 4, timer := some 0 }) 0 0 4 0 0 aPost [] e 0).2.2.2.2.2.2.2.2.2.2.2.2.2.2.1 rfl (by decide)⟩,
   ⟨_, (h reported 63 0 4 0 0 aPost [] e 0).2.2.2.2.2.2.2.2.2.2.2.2.2.2.2.2.1 (by decide)⟩,
   ⟨_, (h reported 64 0 4 0 0 aPost [] e 0).2.2.2.2.2.2.2.2.2.2.2.2.2.2.2.2.2 (by decide)⟩⟩
/-- A tenant with these invalidation requests queued. -/
def invalidating (l : List Inval) : State := { State.reset with dev := { State.reset.dev with vfs := [(0, { invals := l })] } }

def anInval : Inval := { stage2 := false, addr := 0x5000, span := 0 }

/-- A store still to perform to the page that an invalidation names. -/
def invalBusyState : State :=
  let s := invalidating [anInval]
  { s with
    strands := [(0, { runs with asyncs := [{ someAsync (.stg plain globalBody) [0x5008, 8, 1] with pas := [0x9008], trs := [{ mapped with va := 0x5000, pa := 0x9000 }] }] })]
    cores := [(0, { tlb := [{ mapped with va := 0x5000, pa := 0x9000 }] })] }

def aWalk : Walk := { die := 0, vf := 0, va := 0x100, misses := [{ x := 0, va := 0x108, write := false, path := 0 }], active := true }

def walking (s : State) : State := { s with dev := { s.dev with walks := [(3, aWalk)] } }

def suspended (host : Bool) (tr : Option Trap) : State := lone { runs with mode := .suspended, hostFault := host, suspendedBy := tr }

theorem test_witness_translation (h : Obligations.TranslationEventsAct) :
    Answers (.s1inv 0 0x5000) (invalidating (List.replicate 15 anInval)) ∧ Answers (.s2inv 0 0x5000) (invalidating []) ∧
    Answers (.s1inv 0 0x5000) (invalidating (List.replicate 16 anInval)) ∧
    Answers (.s2inv 0 0x5000) (invalidating (List.replicate 16 { anInval with stage2 := true })) ∧ Answers (.invalidationComplete 0) (invalidating [anInval]) ∧
    Answers (.invalidationComplete 0) (invalidating [anInval, anInval]) ∧ Answers (.invalidationComplete 0) invalBusyState ∧
    Answers (.walkComplete 3) (walking tenant) ∧ Answers (.walkComplete 3) (walking one) ∧ Answers (.tresumeResume 0 0 true) (suspended true (some oops)) ∧
    Answers (.tresumeResume 0 0 false) (suspended true none) ∧ Answers (.tresumeResume 0 0 false) one ∧
    Answers (.tresumeResume 0 0 true) (suspended false (some (trapWD 1 0))) :=
  ⟨⟨_, (h (invalidating (List.replicate 15 anInval)) 0 0x5000 0 false aWalk anInval []).1 (by decide)⟩,
   ⟨_, (h (invalidating []) 0 0x5000 0 false aWalk anInval []).2.1 (by decide)⟩,
   ⟨_, (h (invalidating (List.replicate 16 anInval)) 0 0x5000 0 false aWalk anInval []).2.2.1 (by decide)⟩,
   ⟨_, (h (invalidating (List.replicate 16 { anInval with stage2 := true })) 0 0x5000 0 false aWalk anInval []).2.2.2.1 (by decide)⟩,
   ⟨_, (h (invalidating [anInval]) 0 0 0 false aWalk _ _).2.2.2.2.1 rfl rfl rfl⟩,
   ⟨_, (h (invalidating [anInval, anInval]) 0 0 0 false aWalk _ _).2.2.2.2.2.1 rfl rfl (by decide)⟩,
   ⟨_, (h invalBusyState 0 0 0 false aWalk _ _).2.2.2.2.2.2.1 rfl rfl⟩,
   ⟨_, (h (walking tenant) 0 0 3 false aWalk anInval []).2.2.2.2.2.2.2.1 rfl⟩,
   ⟨_, (h (walking one) 0 0 3 false aWalk anInval []).2.2.2.2.2.2.2.1 rfl⟩,
   ⟨_, (h (suspended true (some oops)) 0 0 0 true aWalk anInval []).2.2.2.2.2.2.2.2.1 rfl (fun tr e => by cases e; rfl) (.inr rfl)⟩,
   ⟨_, (h (suspended true none) 0 0 0 false aWalk anInval []).2.2.2.2.2.2.2.2.2 (.inr (.inr ⟨rfl, rfl⟩))⟩,
   ⟨_, (h one 0 0 0 false aWalk anInval []).2.2.2.2.2.2.2.2.2 (.inl rfl)⟩,
   ⟨_, (h (suspended false (some (trapWD 1 0))) 0 0 0 true aWalk anInval []).2.2.2.2.2.2.2.2.2 (.inr (.inl ⟨_, rfl, rfl⟩))⟩⟩

/-- Two tenants, of quad 0 and of quad 1, with circuit slot 5 of the second; a handler held by a hand-over. -/
def partitions (hmask prst : Nat) : State :=
  { State.reset with
    dev :=
      { State.reset.dev with
        vfs := [(0, { quads := 1, prst := prst }), (1, { quads := 2, slots := 32 })]
        pf := if hmask = 0 then {} else { handover := some { version := 1, secver := 1, hmask := hmask, digest := 0, deadline := 9 } } } }

/-- Tenant 0 has a launch under way. -/
def underWay : State :=
  let s := partitions 0 0
  { s with dev := { s.dev with cqs := [(0, { vf := 0 })], launches := [launchIn .running] } }

/-- A packet on its way in tenant 0's core. -/
def notDrained : State :=
  let s := partitions 0 2
  { s with cores := [(0, { circuits := [(3, { fly := [packet 0] })] })] }

theorem test_witness_partitions (h : Obligations.PartitionsAct) :
    Answers (.vfquadsWrite 0 5) (partitions 0 0) ∧ Answers (.vfquadsWrite 0 5) underWay ∧ Answers (.vfquadsWrite 0 3) (partitions 0 0) ∧
    Answers (.pstitchWrite 0 0) (partitions 0 0) ∧ Answers (.pstitchWrite 0 4) (partitions 0 0) ∧ Answers (.vfslotsWrite 0 0 16) (partitions 0 0) ∧
    Answers (.vfslotsWrite 0 0 32) (partitions 0 0) ∧ Answers (.vfquadsWrite 0 5) (partitions 128 0) :=
  ⟨⟨_, (h.1 (partitions 0 0) 0 0 5).1 rfl rfl rfl⟩, ⟨_, (h.1 underWay 0 0 5).2.1 rfl rfl rfl⟩, ⟨_, (h.1 (partitions 0 0) 0 0 3).2.2.1 rfl rfl⟩,
   ⟨_, (h.1 (partitions 0 0) 0 0 0).2.2.2.1 rfl rfl⟩, ⟨_, (h.1 (partitions 0 0) 0 0 4).2.2.2.2.1 rfl rfl⟩,
   ⟨_, (h.1 (partitions 0 0) 0 0 16).2.2.2.2.2.1 rfl (by decide)⟩, ⟨_, (h.1 (partitions 0 0) 0 0 32).2.2.2.2.2.2.1 rfl (by decide)⟩,
   ⟨_, ((h.1 (partitions 128 0) 0 0 5).2.2.2.2.2.2.2 (by decide)).1⟩⟩

/-- Resets of a partition: GO, GO again, held, resumed after a hand-over, a strand cycle on, drained or not, and by an FLR. -/
theorem test_witness_partition_resets (h : Obligations.PartitionsAct) :
    Answers (.partitionReset 0 1) (partitions 0 0) ∧ Answers (.partitionReset 0 1) (partitions 0 1) ∧
    Answers (.partitionReset 0 1) (partitions 128 0) ∧ Answers (.partitionReset 0 2) (partitions 0 0) ∧ Answers (.partitionReset 0 0) (partitions 0 1) ∧
    Answers (.partitionResetClear 0) (partitions 0 2) ∧ Answers (.partitionResetClear 0) notDrained ∧ Answers (.functionLevelReset 0) (partitions 0 0) ∧
    Answers (.functionLevelReset 0) (partitions 128 0) ∧ Answers (.functionLevelReset 0) (partitions 0 1) :=
  ⟨⟨_, (h.2 (partitions 0 0) 0 1).1 rfl rfl rfl⟩, ⟨_, (h.2 (partitions 0 1) 0 1).2.1 rfl (by decide) rfl⟩,
   ⟨_, (h.2 (partitions 128 0) 0 1).2.2.1 rfl rfl⟩, ⟨_, (h.2 (partitions 0 0) 0 2).2.2.2.1 rfl rfl rfl rfl⟩,
   ⟨_, (h.2 (partitions 0 1) 0 0).2.2.2.2.1 rfl rfl rfl⟩, ⟨_, (h.2 (partitions 0 2) 0 0).2.2.2.2.2.1 rfl rfl⟩,
   ⟨_, (h.2 notDrained 0 0).2.2.2.2.2.2.1 rfl rfl⟩, ⟨_, (h.2 (partitions 0 0) 0 0).2.2.2.2.2.2.2.1 rfl rfl⟩,
   ⟨_, (h.2 (partitions 128 0) 0 0).2.2.2.2.2.2.2.2.1 rfl rfl⟩, ⟨_, (h.2 (partitions 0 1) 0 0).2.2.2.2.2.2.2.2.2 (by decide)⟩⟩

/-- All stacks in a state, and the PF's own state. -/
def stackState (st : Nat) (p : Pf) : State :=
  { State.reset with dev := { State.reset.dev with stks := (List.range 16).map fun k => (k, { state := st }), pf := p } }

/-- A hand-over that holds these handlers. -/
def held (hmask : Nat) : Pf := { handover := some { version := 1, secver := 1, hmask := hmask, digest := 0, deadline := 9 } }

/-- A save that is running and keeps its image in stack 0. -/
def savingStack : State :=
  let s := stackState 3 {}
  { s with dev := { s.dev with cqs := [(0, { vf := 0, pages := [0x1000] })], launches := [saving] } }

/-- Link 2 to package 1, through which package 3 is numbered. -/
def child (p : Pf) (xs : List (Nat × Strand)) : State :=
  { State.reset with
    strands := xs, dev := { State.reset.dev with links := [(2, { state := 2, lat := 9, peerPkg := 1 })], pf := p } }

theorem test_witness_bring_up (h : Obligations.BringUpActs) :
    Answers .selfTestPass State.reset ∧ Answers (.stackTrainingComplete 15 3) (stackState 2 {}) ∧ Answers (.stkrateWrite 0 1) (stackState 3 (held 16)) ∧
    Answers (.stkrateWrite 0 4) (stackState 3 {}) ∧ Answers (.stkrateWrite 0 1) savingStack ∧ Answers (.stkrateWrite 0 3) (stackState 3 {}) ∧
    Answers (.retrainingComplete 0) (stackState 4 {}) ∧
    Answers .fullServiceEntry (stackState 3 { stage := 1, aligned := true }) ∧
    Answers .fullServiceEntry { stackState 3 { stage := 1, aligned := true } with strands := [(0, runs)] } :=
  ⟨⟨_, (h State.reset 0 0 0 0 0 0 0 0).1 rfl⟩, ⟨_, (h (stackState 2 {}) 15 3 0 0 0 0 0 0).2.1 rfl (by decide)⟩,
   ⟨_, (h (stackState 3 (held 16)) 0 0 1 0 0 0 0 0).2.2.1 rfl⟩, ⟨_, (h (stackState 3 {}) 0 0 4 0 0 0 0 0).2.2.2.1 rfl rfl⟩,
   ⟨_, (h savingStack 0 0 1 0 0 0 0 0).2.2.2.2.1 rfl rfl (by decide +kernel)⟩, ⟨_, (h (stackState 3 {}) 0 0 3 0 0 0 0 0).2.2.2.2.2.1 rfl rfl rfl⟩,
   ⟨_, (h (stackState 4 {}) 0 0 0 0 0 0 0 0).2.2.2.2.2.2.1 rfl⟩,
   ⟨_, (h (stackState 3 { stage := 1, aligned := true }) 0 0 0 0 0 0 0 0).2.2.2.2.2.2.2.2.2.2.2.2.1 rfl (by decide)⟩,
   ⟨_, (h { stackState 3 { stage := 1, aligned := true } with strands := [(0, runs)] } 0 0 0 0 0 0 0 0).2.2.2.2.2.2.2.2.2.2.2.2.2 rfl
     ⟨_, .head _, by decide⟩⟩⟩

/-- Alignment: numbered from its parent, held up by a strand, by no link from its parent, twice; and the root's release. -/
theorem test_witness_alignment (h : Obligations.BringUpActs) :
    Answers (.podAlignment 3 64 ⟨2, 20, 4⟩) (child {} []) ∧ Answers (.podAlignment 3 64 ⟨2, 20, 4⟩) (child {} [(0, runs)]) ∧
    Answers (.podAlignment 3 64 ⟨5, 20, 4⟩) (child {} []) ∧ Answers (.podAlignment 3 64 ⟨2, 12, 4⟩) (child {} []) ∧
    Answers (.podAlignment 3 64 ⟨2, 20, 4⟩) (child { placed := true } []) ∧ Answers .alignmentRelease (child { placed := true } []) ∧
    Answers .alignmentRelease State.reset :=
  ⟨⟨_, (h (child {} []) 0 0 0 3 64 2 20 4).2.2.2.2.2.2.2.1 rfl rfl (by decide) (by decide)⟩,
   ⟨_, (h (child {} [(0, runs)]) 0 0 0 3 64 2 20 4).2.2.2.2.2.2.2.2.1 rfl rfl (by decide) (.inr (.inl ⟨_, .head _, by decide⟩))⟩,
   ⟨_, (h (child {} []) 0 0 0 3 64 5 20 4).2.2.2.2.2.2.2.2.2.1 (.inr (.inr (by decide)))⟩,
   ⟨_, (h (child {} []) 0 0 0 3 64 2 12 4).2.2.2.2.2.2.2.2.2.1 (.inr (.inr (by decide)))⟩,
   ⟨_, (h (child { placed := true } []) 0 0 0 3 64 2 20 4).2.2.2.2.2.2.2.2.2.1 (.inr (.inl rfl))⟩,
   ⟨_, (h (child { placed := true } []) 0 0 0 0 0 0 0 0).2.2.2.2.2.2.2.2.2.2.1 rfl⟩,
   ⟨_, (h State.reset 0 0 0 0 0 0 0 0).2.2.2.2.2.2.2.2.2.2.2.1 rfl⟩⟩

/-- The reel of package 3 by hand: the root named 20, read 4 + 9 chip cycles late (R380). -/
theorem test_alignment_reel :
    (match execPodAlignment 3 64 ⟨2, 20, 4⟩ (child {} []) with | .next u => (u.dev.pkg, u.dev.npkg, u.dev.reel) | _ => (0, 0, 0)) = (3, 64, 7) := by decide

/-- Channel 31 of stack 0 retired to channel 0 of stack 15. -/
def retiring (step : Nat) : State := stackState 3 { retire := some { ch := 31, donor := 480, step := step } }

theorem test_witness_retirement (h : Obligations.ChannelRetirementRuns) :
    Answers (.chretWrite (480 * 512 + 31)) (stackState 3 (held 32)) ∧ Answers (.chretWrite (480 * 512 + 31)) (stackState 3 {}) ∧
    Answers (.chretWrite (31 * 512 + 31)) (stackState 3 {}) ∧ Answers .retirementDrainDone (retiring 1) ∧ Answers .retirementCopyDone (retiring 3) :=
  let r : Retire := { ch := 0, donor := 0, step := 0 }
  ⟨⟨_, (h (stackState 3 (held 32)) (480 * 512 + 31) 0 0 r).1 rfl⟩,
   ⟨_, (h (stackState 3 {}) (480 * 512 + 31) 0 0 r).2.1 rfl rfl⟩,
   ⟨_, (h (stackState 3 {}) (31 * 512 + 31) 0 0 r).2.2.1 rfl rfl⟩,
   ⟨_, (h (retiring 1) 0 0 0 _).2.2.2.1 rfl rfl⟩, ⟨_, (h (retiring 3) 0 0 0 _).2.2.2.2.1 rfl rfl⟩⟩

def linked (k : Link) : State := { State.reset with dev := { State.reset.dev with links := [(17, k)] } }

/-- The check value of ECMA-182's CRC over the digits 1 to 9, from the published catalogues of CRCs. -/
theorem test_crc_check_value : crc64 [0x31, 0x32, 0x33, 0x34, 0x35, 0x36, 0x37, 0x38, 0x39] = 0x6C40DF5F0B497347 := by decide +kernel

/-- The header of a flit of pair 0: KIND, the flit pair that its notice names (RETRY, from 1) and RSEQ 0; and the CRC over it. -/
def aHead (kind retry : Nat) : Nat := kind * 2 ^ 60 + retry * 2 ^ 40
def itsCrc (head : Nat) : Nat := crc64 (flBody (flitOf head 0 0))

/-- The same link at the chip cycle in which the first flit of reel 1 comes in, after so many failures of that of reel 0. -/
def again (count : Nat) : State := { linked { state := 2, fails := [{ sent := 0, first := 0, count := count }] } with now := 768 }

/-- Flits that come in: kept, with a notice, of a reserved KIND, struck once more and for the third time, and the sixteenth of a reel. -/
theorem test_witness_links (h : Obligations.LinksAct) :
    Answers (.speatLinkTrained 17 5 1 2) (linked { state := 1 }) ∧ Answers (.flitReceive 17 (aHead 4 0) 0 (itsCrc (aHead 4 0)) true) (linked { state := 2 }) ∧
    Answers (.flitReceive 17 (aHead 4 112) 0 (itsCrc (aHead 4 112)) true) (linked { state := 2 }) ∧ Answers (.flitReceive 17 (aHead 5 0) 0 (itsCrc (aHead 5 0)) true) (linked { state := 2 }) ∧
    Answers (.flitReceive 17 1 0 0 true) (again 1) ∧ Answers (.flitReceive 17 1 0 0 true) (again 2) ∧
    Answers (.flitReceive 17 1 0 0 true) (linked { state := 2, reelFails := 15 }) ∧ Answers (.retryNotice 17 111 0) (linked { state := 2 }) :=
  let k (n : Nat) : Link := { state := 2, reelFails := n }
  ⟨⟨_, (h (linked { state := 1 }) 17 5 1 2 0 0 0 0 0 0 0 0 0 0 false).1 (by decide) rfl⟩,
   ⟨_, (h (linked (k 0)) 17 0 0 0 (aHead 4 0) 0 (itsCrc (aHead 4 0)) 0 0 0 0 0 0 0 true).2.1 rfl (by decide +kernel) (by decide +kernel) (by decide +kernel)⟩,
   ⟨_, (h (linked (k 0)) 17 0 0 0 (aHead 4 112) 0 (itsCrc (aHead 4 112)) 0 0 0 0 0 0 0 true).2.2.1 rfl (by decide +kernel) (by decide +kernel) (by decide +kernel)⟩,
   ⟨_, (h (linked (k 0)) 17 0 0 0 (aHead 5 0) 0 (itsCrc (aHead 5 0)) 0 0 0 0 0 0 0 true).2.2.2.1 rfl (by decide +kernel) (by decide +kernel)⟩,
   ⟨_, (h (again 1) 17 0 0 0 1 0 0 0 0 0 0 0 0 0 true).2.2.2.2.1 rfl (by decide +kernel) (by decide +kernel) (by decide +kernel)⟩,
   ⟨_, (h (again 2) 17 0 0 0 1 0 0 0 0 0 0 0 0 0 true).2.2.2.2.2.1 rfl (by decide +kernel) (.inl (by decide +kernel))⟩,
   ⟨_, (h (linked (k 15)) 17 0 0 0 1 0 0 0 0 0 0 0 0 0 true).2.2.2.2.2.1 rfl (by decide +kernel) (.inr (by decide +kernel))⟩,
   ⟨_, (h (linked (k 0)) 17 0 0 0 0 0 0 111 0 0 0 0 0 0 true).2.2.2.2.2.2.1 rfl (by decide) rfl⟩⟩

/-- A failed flit starts the notice of its own place: pair 0 of reel 1, named from 1 on (R382). -/
theorem test_flit_failed :
    (match execFlitReceive 17 1 0 0 false (again 1) with | .next u => ((u.link 17).uncor, (u.link 17).notice) | _ => (0, none)) =
      (1, some (772, 1, 1)) := by decide +kernel

/-- A vector that is masked, with or without a message pending. -/
def vectors (pba : List Nat) : State := { State.reset with dev := { State.reset.dev with msix := [(64 * 64 + 3, {})], pba := pba } }

/-- The tenant with its stacks being retrained, so that an access to one waits. -/
def busyHost : State :=
  { tenant with dev := { tenant.dev with stks := (List.range 16).map fun k => (k, { state := 4 }) } }

def softErrors (n : Nat) : State := stackState 3 { soft := [(16, n)] }

theorem test_witness_aperture (h : Obligations.HostSideActs) :
    Answers (.apertureAccess 0 0x100 8 false 0) tenant ∧ Answers (.apertureAccess 0 0x40000000 8 false 0) tenant ∧
    Answers (.apertureAccess 0 0x100 8 false 5) busyHost ∧ Answers (.apertureAccess 0 0x100 8 true 5) busyHost ∧
    Answers (.apertureAccess 0 0x100 8 true 5) tenant ∧ Answers (.apertureAccess 0 0x40000000 8 true 5) tenant :=
  ⟨⟨_, (h tenant 0 0x100 8 0 0 0 0 0 0 0 0 tenant _).1 (by decide) rfl rfl⟩,
   ⟨_, (h tenant 0 0x40000000 8 0 0 0 0 0 0 0 0 tenant []).2.1 _ (by decide) rfl rfl rfl⟩,
   ⟨_, (h busyHost 0 0x100 8 5 0 0 0 0 0 0 0 tenant []).2.2.1 (by decide) rfl⟩,
   ⟨_, (h busyHost 0 0x100 8 5 0 0 0 0 0 0 0 tenant []).2.2.2.1 (by decide) rfl⟩,
   ⟨_, (h tenant 0 0x100 8 5 0 0 0 0 0 0 0 _ []).2.2.2.2.1 (by decide) rfl rfl⟩,
   ⟨_, (h tenant 0 0x40000000 8 5 0 0 0 0 0 0 0 _ []).2.2.2.2.2.1 _ (by decide) rfl rfl rfl⟩⟩

theorem test_witness_host_side (h : Obligations.HostSideActs) :
    Answers (.registerWrite 63 8 8 5) tenant ∧ Answers (.registerWrite 64 8 4 5) tenant ∧
    Answers (.registerWrite 192 12 4 1) tenant ∧ Answers (.registerWrite 0 4 8 5) tenant ∧ Answers (.msixUnmask 64 3) (vectors [64 * 64 + 3]) ∧
    Answers (.msixUnmask 64 3) (vectors []) ∧ Answers (.softErrorCorrected 16) (softErrors 4094) ∧ Answers (.softErrorCorrected 16) (softErrors 4095) ∧
    Answers (.softErrorUncorrectable 2 (3 * 2 ^ 8)) (network 0 0 1 16) ∧
    Answers (.softErrorUncorrectable 1 64) tenant ∧ Answers (.softErrorUncorrectable 0 (2 ^ 29 - 8)) tenant ∧ Answers (.thermalWarn 3) tenant :=
  ⟨⟨_, (h tenant 0 8 8 5 63 0 0 0 0 0 0 tenant []).2.2.2.2.2.2.1 (by decide) (by decide)⟩,
   ⟨_, (h tenant 0 8 4 5 64 0 0 0 0 0 0 tenant []).2.2.2.2.2.2.2.1 (by decide) rfl⟩,
   ⟨_, (h tenant 0 12 4 1 192 0 0 0 0 0 0 tenant []).2.2.2.2.2.2.2.2.1 (by decide) rfl (by decide) (by decide)⟩,
   ⟨_, (h tenant 0 4 8 5 0 0 0 0 0 0 0 tenant []).2.2.2.2.2.2.2.2.2.1 (by decide)⟩,
   ⟨_, (h (vectors [64 * 64 + 3]) 0 0 0 0 0 64 3 0 0 0 0 tenant []).2.2.2.2.2.2.2.2.2.2.1 rfl⟩,
   ⟨_, (h (vectors []) 0 0 0 0 0 64 3 0 0 0 0 tenant []).2.2.2.2.2.2.2.2.2.2.2.1 rfl⟩,
   ⟨_, (h (softErrors 4094) 0 0 0 0 0 0 0 16 0 0 0 tenant []).2.2.2.2.2.2.2.2.2.2.2.2.1 (by decide) (by decide)⟩,
   ⟨_, (h (softErrors 4095) 0 0 0 0 0 0 0 16 0 0 0 tenant []).2.2.2.2.2.2.2.2.2.2.2.2.2.1 (by decide) (by decide)⟩,
   ⟨_, (h (network 0 0 1 16) 0 0 0 0 0 0 0 0 2 (3 * 2 ^ 8) 0 tenant []).2.2.2.2.2.2.2.2.2.2.2.2.2.2.1 rfl (by decide)⟩,
   ⟨_, (h tenant 0 0 0 0 0 0 0 0 1 64 0 tenant []).2.2.2.2.2.2.2.2.2.2.2.2.2.2.2.1 (by decide) (by decide)⟩,
   ⟨_, (h tenant 0 0 0 0 0 0 0 0 0 (2 ^ 29 - 8) 0 tenant []).2.2.2.2.2.2.2.2.2.2.2.2.2.2.2.2.1 rfl (by decide)⟩,
   ⟨_, (h tenant 0 0 0 0 0 0 0 0 0 0 3 tenant []).2.2.2.2.2.2.2.2.2.2.2.2.2.2.2.2.2 (by decide)⟩⟩

/-- A poisoned posted write that is performed, and one that waits for a stack. -/
theorem test_witness_poisoned_writes (h : Obligations.LinksAct) :
    Answers (.linkEvent (.poisonedPostedWrite 8 5) 0 0x100) tenant ∧ Answers (.linkEvent (.poisonedPostedWrite 8 5) 0 0x100) busyHost :=
  ⟨⟨_, (h tenant 0 0 0 0 0 0 0 0 0 0 0 0x100 8 5 true).2.2.2.2.2.2.2.2.2.2.2.2.2.2.2.2.2.1 rfl⟩,
   ⟨_, (h busyHost 0 0 0 0 0 0 0 0 0 0 0 0x100 8 5 true).2.2.2.2.2.2.2.2.2.2.2.2.2.2.2.2.2.2 rfl⟩⟩
/-- An image of no bytes; one entry in the log and a buffer too short for it, or long enough. -/
def flashing (fwlen : Nat) (l : List LogEntry) (h : Option HandOver) : State :=
  { State.reset with dev := { State.reset.dev with pf := { fwlen := fwlen, mlog := l, handover := h } } }

def supplement (hmask : Nat) : HandOver := { version := 3, secver := 1, hmask := hmask, digest := 0, deadline := 9 }

/-- A partition reset runs, so that handler 7 does. -/
def resetting : State := { partitions 0 2 with dev := { (partitions 0 2).dev with pf := { handover := some (supplement 128) } } }

theorem test_witness_firmware (h : Obligations.FirmwareActs) :
    Answers .fwcmdLoad (flashing 0 [] none) ∧ Answers .fwcmdLog (flashing 4000 [] none) ∧ Answers .fwcmdLog (flashing 1 [] none) ∧
    Answers .handoverCommit (flashing 0 [] (some (supplement 1))) ∧ Answers .handoverCommit resetting ∧
    Answers .handoverAbandon { flashing 0 [] (some (supplement 1)) with now := 9 } ∧
    Answers .handoverAbandon (flashing 0 [] (some (supplement 1))) :=
  ⟨⟨_, (h (flashing 0 [] none) (supplement 1)).1⟩, ⟨_, (h (flashing 4000 [] none) (supplement 1)).2.2.1 (by decide)⟩,
   ⟨_, (h (flashing 1 [] none) (supplement 1)).2.2.2.1 (by decide)⟩,
   ⟨_, (h (flashing 0 [] (some (supplement 1))) _).2.2.2.2.2.1 rfl (by decide)⟩,
   ⟨_, (h resetting _).2.2.2.2.2.2.1 rfl (by decide)⟩,
   ⟨_, (h { flashing 0 [] (some (supplement 1)) with now := 9 } _).2.2.2.2.2.2.2.1 rfl (by decide)⟩,
   ⟨_, (h (flashing 0 [] (some (supplement 1))) _).2.2.2.2.2.2.2.2 rfl (by decide)⟩⟩

/-- A strand without accumulators and semaphores. -/
def bereft : State := lone { runs with ctx := { runs.ctx with owna := 0, owns := 0 } }

/-- A strand that holds tile 1 alone. -/
def oneTile : State := lone { runs with ctx := { runs.ctx with owna := 2 } }

/-- A full queue register. -/
def crowded : State :=
  lone { runs with ctx := { runs.ctx with q := Vector.ofFn fun k => if k.val = 6 then [⟨1, true, 0⟩, ⟨2, true, 0⟩] else [] } }

theorem test_witness_limits (h : Obligations.WordsThatCannotAct) :
    bereft.limits (.m .mmi plain macBody) = some 0 ∧ bereft.limits (.s .add { plain with swait := 3 } sBody) = some 4 ∧
    bereft.limits (.s .add { plain with spost := 3 } sBody) = some 5 ∧
    bereft.limits (.s .semadd plain { sBody with a := .la0, imm := 0x300 }) = some 8 ∧
    (∃ x ∈ (View.cpf plain fetchBody ⟨false, 2, 3, 0⟩).followOpds, oneTile.limits (.cpf plain fetchBody ⟨false, 2, 3, 0⟩) = some x.2) ∧
    one.limits (.s .add plain sBody) = none :=
  let op : Operation := fun s => .ok { s := s }
  let f : Word → Word → Word → Operation := fun _ _ _ s => .ok { s := s }
  ⟨(h bereft (.m .mmi plain macBody) .m 1 op .add plain sBody f 0 [] runs).1 0 _ rfl (by decide) (by intro j r e; omega),
   (h bereft (.s .add { plain with swait := 3 } sBody) .s 1 op .add plain sBody f 0 [] runs).2.1 (by decide) (by decide),
   (h bereft (.s .add { plain with spost := 3 } sBody) .s 1 op .add plain sBody f 0 [] runs).2.2.1 (by decide) (by decide) (by decide),
   (h bereft (.s .semadd plain { sBody with a := .la0, imm := 0x300 }) .s 1 op .add plain sBody f 0 [] runs).2.2.2.1
     ⟨by decide, .inl rfl, .inl rfl⟩ (by decide),
   ((h oneTile (.cpf plain fetchBody ⟨false, 2, 3, 0⟩) .s 1 op .add plain sBody f 0 [] runs).2.2.2.2.1
     ⟨by decide, .inl rfl, .inl rfl⟩ (by decide) (by decide)).imp fun _ e => ⟨e.1, e.2.2⟩,
   (h one (.s .add plain sBody) .s 1 op .add plain sBody f 0 [] runs).2.2.2.2.2.1 ⟨by decide, .inl rfl, .inl rfl⟩ rfl (by decide)⟩

theorem test_witness_words_that_cannot_act (h : Obligations.WordsThatCannotAct) :
    (∃ u, bereft.issueOn (.m .mmi plain macBody) .m 1 (fun s => .ok { s := s }) = u) ∧
    one.issueOn (.s .add { plain with swait := 3 } sBody) .s 1 (fun s => .ok { s := s }) = one.stallAt .semaphore ∧
    (∃ u, one.issueOn (.s .add plain { sBody with g := .on false 2 }) .s 1 (fun s => .ok { s := s }) = u) ∧
    (∃ u, Host.Outcome.next u = issueS .add plain { sBody with a := .q 2 } (fun _ _ _ s => .ok { s := s }) one) ∧
    (∃ u, Host.Outcome.next u = issueS .add plain { sBody with b := .q 2 } (fun _ _ _ s => .ok { s := s }) one) ∧
    (∃ u, Host.Outcome.next u = issueS .mad plain { sBody with c := .q 2 } (fun _ _ _ s => .ok { s := s }) one) ∧
    (∃ u, Host.Outcome.next u = issueS .add plain { sBody with xl := .la0, xq := 6 } (fun _ _ _ s => .ok { s := s }) crowded) :=
  let op : Operation := fun s => .ok { s := s }
  let f : Word → Word → Word → Operation := fun _ _ _ s => .ok { s := s }
  ⟨⟨_, (h bereft (.m .mmi plain macBody) .m 1 op .add plain sBody f 0 [] runs).2.2.2.2.2.2.1 _ rfl⟩,
   (h one (.s .add { plain with swait := 3 } sBody) .s 1 op .add plain sBody f 0 [] runs).2.2.2.2.2.2.2.1 rfl (by decide) rfl,
   ⟨_, (h one (.s .add plain { sBody with g := .on false 2 }) .s 1 op .add plain sBody f 0 [] runs).2.2.2.2.2.2.2.2.1 rfl (.inl rfl) rfl (.inl rfl)⟩,
   ⟨_, ((h one (.s .add plain sBody) .s 1 op .add plain { sBody with a := .q 2 } f 2 [] runs).2.2.2.2.2.2.2.2.2.1 (rdy rfl rfl rfl) (by decide) rfl
     (by decide)).symm⟩,
   ⟨_, ((h one (.s .add plain sBody) .s 1 op .add plain { sBody with b := .q 2 } f 2 [] _).2.2.2.2.2.2.2.2.2.2.1 [_] _ _ _ (rdy rfl rfl rfl) rfl rfl
     (by decide)).symm⟩,
   ⟨_, ((h one (.s .add plain sBody) .s 1 op .mad plain { sBody with c := .q 2 } f 2 [] _).2.2.2.2.2.2.2.2.2.2.1 [_, _] _ _ _ (rdy rfl rfl rfl) rfl rfl
     (by decide)).symm⟩,
   ⟨_, ((h crowded (.s .add plain sBody) .s 1 op .add plain { sBody with xl := .la0, xq := 6 } f 2 _ _).2.2.2.2.2.2.2.2.2.2.2 (rdy rfl rfl rfl) (by decide)
     rfl (by decide)).symm⟩⟩

/-- A trap of each delivery in a strand that runs, and one inside a handler. -/
theorem test_witness_traps :
    one.t.frozen = false ∧ (trapIL 6 0).suspends = false ∧ (trapWD 1 0).suspends = true ∧ (lone { runs with mode := .frozen }).t.frozen = true := by
  decide

theorem test_witness_result_words (h : Obligations.ResultWordsKeepTheRest) :
    (∃ u, exec (.add plain sBody) one = .next u ∧ u.dev = one.dev) ∧
    (∃ u, exec (.sts plain { loadBody with b := .la1 }) one = .next u ∧ u.t.ctx.la0 = one.t.ctx.la0) :=
  let s1 := sword (s := one) (op := .add) (h := plain) (b := sBody) (rdy rfl rfl rfl) rfl rfl rfl rfl
  let r1 := ((h one .add plain sBody _ _ _ _ _).1 (by decide) s1 (by decide) rfl).1.2.1
  let d2 := sdoes (s := one) (op := .sts) (h := plain) (b := { loadBody with b := .la1 }) (rdy rfl rfl rfl) rfl rfl rfl
  let r2 := ((h one .sts plain { loadBody with b := .la1 } _ _ _ _ _).2 (.inl rfl) d2
    ⟨by decide, by decide, by decide, by decide, rfl, .inl rfl⟩ rfl rfl).2.2
  ⟨⟨_, rfl, r1⟩, ⟨_, rfl, congrArg Ctx.la0 r2⟩⟩

theorem test_witness_memory : Memory.wf (State.reset.mem .dram) = true ∧ Memory.wf (one.mem .chip) = true := by decide

/-- A sum in range, one beyond it, and one whose accumulator raises OV. -/
theorem test_witness_sums :
    (macElem false true false 5 [⟨.i8, 2, 0⟩] [⟨.i8, 3, 0⟩]).2.2 = false ∧
    (macElem false true false (2 ^ 63 - 1) [⟨.i8, 1, 0⟩] [⟨.i8, 1, 0⟩]).2.2 = true := by
  decide

/-- Four products of the most negative int32 with itself: 2^64. -/
def fourProducts : MacJob :=
  { acc := 1, init := true, intMode := true, tree := false, a := [List.replicate 4 ⟨.i32, 0x80000000, 0⟩],
    b := [List.replicate 4 ⟨.i32, 0x80000000, 0⟩] }

theorem test_witness_sum_beyond_int64 (h : Obligations.IntegerSumsWrap) : bit (one.applyMac fourProducts).2 7 = true :=
  ((h 0 true false [] [] one fourProducts).2.2.2.2 rfl (by decide) (by decide) ⟨0, 0, by decide, by decide, rfl⟩).2

theorem test_witness_round_trips :
    (Instr.view (.add plain sBody)).isSome = true ∧ (Instr.add plain sBody).WellFormed ∧ (Instr.halt .m plain .always).WellFormed ∧
    (Instr.brk plain 7).WellFormed ∧ encodeStick (.stickAddi 3 3 1) = some 0x29980001 ∧ (Instr.stickAddi 3 3 1).WellFormed :=
  ⟨rfl, rfl, rfl, rfl, rfl, rfl⟩

/-- The addition of the spec's first listing, and a word of class 0, placed to be the next. -/
def addition : State := State.reset.withFetchWord 128 0x1008000001008E8000E04400000000B0
def nothing : State := State.reset.withFetchWord 128 0x00000000000000000000000000000000

def aPrologue : Prologue := { q := 0, slot := 0, words := [] }

/-- The placed word without its precedence, its strand alone in the package, nothing due. -/
def aloneAt (s : State) : State := { s with focus := none, agenda := [] }

/-- An access of the first tenant's host function waits. -/
def waitingHost : State := { one with dev := { one.dev with hostWait := [.apertureAccess 0 0 8 true 0] } }

theorem test_witness_step (h : Obligations.StepRunsDecodedWord) :
    (∃ i, step addition = exec i { addition with focus := none, cur := 0 }) ∧
    (∃ u, step nothing = .next u) ∧
    (∃ i u, step (aloneAt addition) = exec i u) ∧
    (∃ u, step (aloneAt nothing) = .next u) ∧
    step (State.reset.withFetchWord 32 0x29980001) = exec (.stickAddi 3 3 1) { State.reset.withFetchWord 32 0x29980001 with focus := none } ∧
    (∃ u, step (State.reset.withFetchWord 32 0x08000001) = .next u) ∧
    step { one with inputs := [.landing 0] } = exec (.landing 0) one ∧
    (∃ u, step { waitingHost with inputs := [.apertureAccess 0 8 8 false 0] } = .next u) ∧
    (∃ u, step { State.reset with agenda := [(7, .landing 0)] } = exec (.landing 0) u) :=
  ⟨⟨_, (h addition 0 0 .s _ ⟨1, 0⟩ aPrologue 0 (.landing 0) []).1 rfl (by decide) (by decide) rfl⟩,
   ⟨_, (h nothing 0 0 .s .stickEnd _ aPrologue 0 (.landing 0) []).2.1 rfl (by decide) (by decide) rfl⟩,
   ⟨_, _, (h (aloneAt addition) 0 0 .s _ ⟨1, 0⟩ aPrologue 0 (.landing 0) []).2.2.1 (by decide) (by decide) rfl⟩,
   ⟨_, (h (aloneAt nothing) 0 0 .s .stickEnd _ aPrologue 0 (.landing 0) []).2.2.2.1 (by decide) (by decide) rfl⟩,
   (h (State.reset.withFetchWord 32 0x29980001) 0 0 .s _ ⟨1, 0⟩ _ _ (.landing 0) []).2.2.2.2.1 ⟨rfl, rfl, by decide, rfl⟩ rfl,
   ⟨_, (h (State.reset.withFetchWord 32 0x08000001) 0 0 .s .stickEnd ⟨1, 0⟩ _ _ (.landing 0) []).2.2.2.2.2.1 ⟨rfl, rfl, by decide, rfl⟩ rfl⟩,
   (h { one with inputs := [.landing 0] } 0 0 .s _ ⟨1, 0⟩ aPrologue 0 (.landing 0) []).2.2.2.2.2.2.1 rfl rfl rfl rfl,
   ⟨_, (h { waitingHost with inputs := [.apertureAccess 0 8 8 false 0] } 0 0 .s .stickEnd ⟨1, 0⟩ aPrologue 0 _ []).2.2.2.2.2.2.2.1 rfl rfl rfl⟩,
   ⟨_, (h { State.reset with agenda := [(7, .landing 0)] } 0 7 .s _ ⟨1, 0⟩ aPrologue 0 (.landing 0) []).2.2.2.2.2.2.2.2 rfl rfl rfl rfl rfl rfl rfl⟩⟩
/-! ## Numbers of the spec's own worked examples -/

def ratio (n d : Nat) (neg : Bool := false) : XReal := .fin neg ⟨n, d, 0⟩

/-- R62, the worked example of an E4M3 byte: 0xD3 is -11; 11.3 narrows to 0x53 in `.rne` and 0x54 in `.ru`, inexact; 500 to 0x7E
with OF and NX. -/
theorem test_e4m3_narrowing :
    decode .e4m3 0xD3 = decode .e4m3 (0x53 + 0x80) ∧ XReal.add false (decode .e4m3 0xD3) (ratio 11 1) = (.zero false, 0) ∧
    narrow .e4m3 .rne 0 (ratio 113 10) = (0x53, fNX) ∧ narrow .e4m3 .ru 0 (ratio 113 10) = (0x54, fNX) ∧
    narrow .e4m3 .rz 0 (ratio 500 1) = (0x7E, fOF + fNX) ∧ narrow .e4m3 .rne 0 (ratio 449 1) = (0x7E, fNX) := by decide

/-- R65, R70: 0.75 is 0x0A canonically in SP2, 1.0 is 0x07, 0 is 0x77. -/
theorem test_sp2_canonical :
    narrow .sp2 .rne 0 (ratio 3 4) = (0x0A, 0) ∧ narrow .sp2 .rne 0 (ratio 1 1) = (0x07, 0) ∧ narrow .sp2 .rne 0 (.zero false) = (0x77, 0) := by
  decide

/-- R69: 300.5 converted to `.i8` gives 127 and sets NV only, 100.5 gives 100 and sets NX. -/
theorem test_int_conversion :
    narrow .i8 .rne 0 (ratio 601 2) = (127, fNV) ∧ narrow .i8 .rne 0 (ratio 201 2) = (100, fNX) := by decide

/-- R73 to R76, the worked example of an E2M1 block: elements 0 and 1, and 5.2 quantised at scale 127. -/
theorem test_e2m1_block :
    blockElemAt .e2m1 0x7A7C10 0 = (0b1010, -3) ∧ blockElemAt .e2m1 0x7A7C10 1 = (0b0111, -3) ∧
    XReal.add false (decode .e2m1 0b1010) (ratio 1 1) = (.zero false, 0) ∧ XReal.add false (decode .e2m1 0b0111) (ratio 6 1 true) = (.zero false, 0) ∧
    blockScale .e2m1 [ratio 52 10, ratio 1 1] = 127 ∧ blockElem .e2m1 .rne 0 127 (ratio 52 10) = (0b0111, fNX) ∧
    blockCapacity .f32 = 15 := by decide

/-- R80, the worked example of one FP32 column: 2^53 and four ones, along the tree; R78 of the same products. -/
theorem test_fp32_column :
    let one32 : Elem := ⟨.f32, 0x3F800000, 0⟩
    let a : List Elem := [⟨.f32, 0x4C800000, 0⟩, one32, one32, one32, one32]
    let b : List Elem := [⟨.f32, 0x4D000000, 0⟩, one32, one32, one32, one32]
    let oneB : Elem := ⟨.bf16, 0x3F80, 0⟩
    let c : List Elem := [⟨.bf16, 0x4C80, 0⟩, oneB, oneB, oneB, oneB]
    let d : List Elem := [⟨.bf16, 0x4D00, 0⟩, oneB, oneB, oneB, oneB]
    macElem false false true 0 a b = (0x4340000000000002, fNX, false) ∧ macElem false false false 0 c d = (0x4340000000000002, 0, false) := by
  decide

/-! ## One word, one effect -/

/-- R45, the worked example: one opportunity pops what it reads in the order of its slots: `q5'` and then `q5` read the same entry. -/
theorem test_peek_then_pop :
    let t : Strand := { runs with ctx := { runs.ctx with q := Vector.ofFn fun k => if k.val = 5 then [⟨0x11, true, 0⟩, ⟨0x22, true, 1⟩] else [] } }
    let h : Hdr := { plain with peekA := true }
    let b : SBody := { sBody with a := .q 5, b := .q 5 }
    (match t.readOpds .s 0 (sSlots .add h b) with | .ok (vs, u) => (vs.take 2, (u.queue 5).map QEntry.val) | .error _ => ([], []))
      = ([0x11, 0x11], [0x22]) := by decide

def after (i : Instr) (s : State) : Strand := match exec i s with | .next u => u.t | _ => Strand.idle

/-- R25, R112: an addition of `la0` = 64 and 5 is due one strand cycle after its issue. -/
theorem test_add_lands :
    (after (.add plain sBody) one).pend.map (fun p => (p.due, p.effs)) = [(1, [.la0 69])] := by decide

/-- R28: a multiply is due three strand cycles after its issue. -/
theorem test_mul_lands : (after (.mul plain sBody) one).pend.map (fun p => (p.due, p.effs)) = [(3, [.lm 320])] := by decide

/-- R308: `addi` adds its immediate. -/
theorem test_stick_add : ((match exec (.stickAddi 3 3 1) (running 7 0 41 0) with | .next u => u.run.map fun p => p.regs.getD 3 0 | _ => none)) = some 42 := by
  decide

/-- R276: the spec's four generator words. -/
theorem test_generator_words :
    [0x02000000, 0x22000000, 0x48000000, 0x80000003].map (fun w => (genOf w).kind) = [0, 0, 1, 2] ∧ (genOf 0x02000000).db = 1 ∧
    (genOf 0x22000000).neg = true ∧ (genOf 0x48000000).da = 1 ∧ (genOf 0x80000003).step = 3 := by decide

def fourByFour (gen : Nat) : Sym :=
  { base := 0, os2 := 64, os1 := 16, n := [4, 4, 1], gens := [genOf gen], ngen := 1, ndim := 1, esz := 2, vt := 1, rsv := 0, ring := 2, rbase := 0 }

/-- R277 to R281, the worked example of a symmetric and an antisymmetric 4 by 4: ten points, the entry of (2,0), and the image of 2.5. -/
theorem test_symmetric_store :
    let b := fourByFour 0x02000000
    ((List.range b.points).filter fun i => b.inDomain (b.point i)).length = 10 ∧ b.entry [2, 0, 0] = 0x0002000000000002 ∧
    b.images [2, 0, 0] 0x40200000 = [(32, 0x40200000)] ∧ b.images [1, 1, 0] 0x40200000 = [] ∧
    (fourByFour 0x22000000).images [2, 0, 0] 0x40200000 = [(32, 0xC0200000)] ∧ (fourByFour 0x22000000).negFix [1, 1, 0] = true := by decide

end Sys2Proof.Tests
end

/-! PROOFS. Memory read after it has been written (R4, R5): what a read of a canonical memory gives, a write read back, and the
little-endian numbers. -/

namespace Sys2Proof.Machine

/-! Little-endian numbers (R4). -/

@[simp] theorem leBytes_length (n v : Nat) : (leBytes n v).length = n := by
  induction n generalizing v with
  | zero => rfl
  | succ n ih => simp [leBytes, ih]

/-- `n` bytes hold a number modulo 2^(8n). -/
theorem leNat_leBytes (n v : Nat) : leNat (leBytes n v) = v % 2 ^ (8 * n) := by
  induction n generalizing v with
  | zero => simp [leBytes, leNat, Nat.mod_one]
  | succ n ih =>
    have hpow : 2 ^ (8 * (n + 1)) = 256 * 2 ^ (8 * n) := by rw [Nat.mul_succ, Nat.pow_add, Nat.mul_comm]
    calc leNat (leBytes (n + 1) v)
        = v % 256 + 256 * leNat (leBytes n (v / 256)) := by simp [leBytes, leNat]
      _ = v % 256 + 256 * (v / 256 % 2 ^ (8 * n)) := by rw [ih]
      _ = v % 2 ^ (8 * (n + 1)) := by rw [hpow, Nat.mod_mul]

/-! Reads. -/

@[simp] theorem cellsAt_length (m : List Host.Cell) (a n : Nat) : (cellsAt m a n).length = n := cellsFrom_length _ _ _

/-- Cells below an address do not matter to what is read at it or above. -/
theorem cellAt_dropWhile_lt (m : List Host.Cell) {a x : Nat} (h : a ≤ x) :
    cellAt (m.dropWhile fun c => decide (c.1 < a)) x = cellAt m x := by
  induction m with
  | nil => rfl
  | cons c r ih =>
    by_cases hc : c.1 < a
    · have hne : x ≠ c.1 := by omega
      rw [List.dropWhile_cons_of_pos (by simpa using hc), ih, cellAt, if_neg hne]
    · rw [List.dropWhile_cons_of_neg (by simpa using hc)]

/-- A read of a canonical memory gives the bytes of its addresses in order. -/
theorem cellsAt_getD {m : List Host.Cell} (hm : Memory.wf m = true) {a n i : Nat} (hi : i < n) :
    (cellsAt m a n).getD i unlisted = cellAt m (a + i) := by
  have hsorted := ((Memory.wf_iff m).mp hm).1
  have hfrom := cellsFrom_getD n (m.dropWhile fun c => decide (c.1 < a)) a i
    (hsorted.sublist (List.dropWhile_sublist _)) (fun _ hc => (dropWhile_mem hsorted hc).2) hi
  exact hfrom.trans (cellAt_dropWhile_lt m (Nat.le_add_right a i))

/-- Bytes written to a canonical memory are what a read of them gives. -/
theorem cellsAt_cellsSet_self {m : List Host.Cell} (hm : Memory.wf m = true) (a : Nat) (bs : List Byte) :
    cellsAt (cellsSet m a bs) a bs.length = bs := by
  refine List.ext_getElem (cellsAt_length ..) fun i h1 h2 => ?_
  have hread := cellsAt_getD (Memory.wf_set hm a bs) (a := a) h2
  rw [cellAt_set, if_pos ⟨Nat.le_add_right a i, by omega⟩, Nat.add_sub_cancel_left] at hread
  simpa only [List.getD_eq_getElem?_getD, List.getElem?_eq_getElem h1, List.getElem?_eq_getElem h2, Option.getD_some] using hread

/-! Writes to a space. -/

/-- A write remaps no channel, so addresses keep their places. -/
@[simp] theorem State.home_write (s : State) (sp : Space) (a : Nat) (bs : List Byte) (sq : Space) (b : Nat) :
    (s.write sp a bs).home sq b = s.home sq b := by
  have hdev : (s.write sp a bs).dev = s.dev := by
    unfold State.write
    simp only
    split <;> cases sp <;> rfl
  cases sq
  case dram => exact congrArg (Device.dramAddr · b) hdev
  case chip | host | peer => rfl

theorem State.mem_write_self (s : State) (sp : Space) (a : Nat) (bs : List Byte) :
    (s.write sp a bs).mem sp = cellsSet (s.mem sp) (s.home sp a) bs := by
  rw [State.write_mem, if_pos rfl]

/-- Bytes written to a space are what a read of it gives. -/
theorem State.bytes_write_self {s : State} {sp : Space} (h : Memory.wf (s.mem sp) = true) (a : Nat) (bs : List Byte) :
    (s.write sp a bs).bytes sp a bs.length = bs := by
  rw [State.bytes, State.home_write, State.mem_write_self, cellsAt_cellsSet_self h]

/-- A number written to a space in `n` bytes reads back modulo 2^(8n). -/
theorem State.num_writeNum_self {s : State} {sp : Space} (h : Memory.wf (s.mem sp) = true) (a n v : Nat) :
    (s.writeNum sp a n v).num sp a n = v % 2 ^ (8 * n) := by
  have hbytes := State.bytes_write_self h a (leBytes n v)
  rw [leBytes_length] at hbytes
  rw [State.num, State.writeNum, hbytes, leNat_leBytes]

/-- Settles O55: what each address of the written space reads as is `cellAt_set`'s case split, and a read goes by addresses. -/
theorem memoryWritesReadBack : Obligations.MemoryWritesReadBack := by
  intro s sp a n v bs at_ u hwf
  have hmem : u.mem sp = cellsSet (s.mem sp) at_ bs := State.mem_write_self s sp a bs
  refine ⟨?canonical, ?written, ?others, ?spaces, ?bytes, ?reads, ?number⟩
  case canonical => rw [hmem]; exact Memory.wf_set hwf at_ bs
  case written =>
    intro i hi
    rw [hmem, cellAt_set, if_pos ⟨Nat.le_add_right at_ i, Nat.add_lt_add_left hi at_⟩, Nat.add_sub_cancel_left]
    rfl
  case others =>
    intro x hx
    rw [hmem, cellAt_set, if_neg (by omega)]
  case spaces => exact fun sq hne => (State.write_mem s sp a bs sq).trans (if_neg hne)
  case bytes => exact State.bytes_write_self hwf a bs
  case reads => exact fun i hi => cellsAt_getD hwf hi
  case number => exact State.num_writeNum_self hwf a n v

end Sys2Proof.Machine

/-! PROOFS. What each reset leaves (R6, R321, R366, R367, R386, R395). -/

namespace Sys2Proof.Machine

/-- What a reset that finds training records makes of a numbered stack (R367): the step of `State.warm`. -/
def State.reloadStk (s : State) (e : Nat × Stk) : Nat × Stk :=
  let good := e.2.record.filter fun r => r.good e.1 (s.fresh + e.1)
  (e.1, { state := if e.2.state = 0 then 0 else if good.isSome then 3 else 1, rate := (good.map TrainRecord.rate).getD 0
          record := e.2.record, hot := e.2.hot })

theorem State.warm_eq_restart (s : State) (cause : Nat) :
    s.warm cause = ({ s with fresh := s.fresh + 16 } : State).restart cause (s.dev.stks.map s.reloadStk) := rfl

/-- A stack without a record is untrained. -/
theorem State.reloadStk_of_no_record (s : State) {e : Nat × Stk} (hr : e.2.record = none) :
    s.reloadStk e = (e.1, { state := if e.2.state = 0 then 0 else 1, rate := 0, record := e.2.record, hot := e.2.hot }) := by
  simp [State.reloadStk, hr]

/-- A stack with a record is trained at its rate exactly if the record passes its checks. -/
theorem State.reloadStk_of_record (s : State) {e : Nat × Stk} {r : TrainRecord} (hr : e.2.record = some r) :
    s.reloadStk e =
      (e.1, { state := if e.2.state = 0 then 0 else if r.good e.1 (s.fresh + e.1) then 3 else 1
              rate := if r.good e.1 (s.fresh + e.1) then r.rate else 0, record := e.2.record, hot := e.2.hot }) := by
  cases hg : r.good e.1 (s.fresh + e.1) <;> simp [State.reloadStk, hr, Option.filter_some, hg]

theorem State.reset_wf (sp : Space) : Memory.wf (State.reset.mem sp) = true := by
  cases sp <;> rfl

theorem exec_coldReset (s : State) : exec .coldReset s = execColdReset s := rfl
theorem exec_warmReset (s : State) : exec .warmReset s = .next (s.warm 1) := rfl
theorem exec_thermalTrip (s : State) : exec .thermalTrip s = .next (s.warm 2) := rfl
theorem exec_hotReset (s : State) : exec .hotReset s = .next (s.warm 3) := rfl
theorem exec_pfFunctionLevelReset (s : State) : exec .pfFunctionLevelReset s = execPfFunctionLevelReset s := rfl

/-- Settles O46: a reset that finds training records is `State.warm` with its cause, whose stacks `State.reloadStk` gives; the cold
reset and the PF function-level reset are their definitions, with `restart` and `resetMsix` written out. -/
theorem resetsAct : Obligations.ResetsAct := by
  intro s after cold passes warm f own cleared
  have hwarm : s.reloadStk = warm := by
    funext e
    cases hr : e.2.record with
    | none => simp [s.reloadStk_of_no_record hr, warm, hr]
    | some r =>
      have hgood : r.good e.1 (s.fresh + e.1) = passes e r := rfl
      cases hp : passes e r <;> simp [s.reloadStk_of_record hr, warm, hr, hgood, hp]
  have hafter (cause : Nat) : s.warm cause = after cause (s.fresh + 16) warm := by
    rw [State.warm_eq_restart, hwarm]; rfl
  refine ⟨State.reset_wf, rfl, rfl, rfl, rfl, ?cold, ?warm, ?trip, ?hot, ?pf⟩
  case cold => exact exec_coldReset s
  case warm => rw [exec_warmReset, hafter]
  case trip => rw [exec_thermalTrip, hafter]
  case hot => rw [exec_hotReset, hafter]
  case pf => exact exec_pfFunctionLevelReset s

end Sys2Proof.Machine

/-! PROOFS. Bring-up: self-test, stack training and rates, alignment, full service (R12, R366, R369, R370, R380, R387). -/

namespace Sys2Proof.Machine

theorem exec_selfTestPass (s : State) : exec .selfTestPass s = execSelfTestPass s := rfl
theorem exec_stackTrainingComplete (k rate : Nat) (s : State) :
    exec (.stackTrainingComplete k rate) s = execStackTrainingComplete k rate s := rfl
theorem exec_stkrateWrite (k val : Nat) (s : State) : exec (.stkrateWrite k val) s = execStkrateWrite k val s := rfl
theorem exec_retrainingComplete (k : Nat) (s : State) : exec (.retrainingComplete k) s = execRetrainingComplete k s := rfl
theorem exec_podAlignment (pkg npkg : Nat) (walk : AlignWalk) (s : State) :
    exec (.podAlignment pkg npkg walk) s = execPodAlignment pkg npkg walk s := rfl
theorem exec_alignmentRelease (s : State) : exec .alignmentRelease s = execAlignmentRelease s := rfl
theorem exec_fullServiceEntry (s : State) : exec .fullServiceEntry s = execFullServiceEntry s := rfl

/-! A write of the PF and its handler (R391). -/

theorem State.pfServed_of_held {s : State} {h : Nat} (hheld : s.handlerHeld h = true) (e : Ev) (act : State → State) :
    s.pfServed h e act = s.hostHold 64 e := if_pos hheld

theorem State.pfServed_of_not_held {s : State} {h : Nat} (hfree : s.handlerHeld h = false) (e : Ev) (act : State → State) :
    s.pfServed h e act = act (s.hostGoOn 64 e) := if_neg (ne_true_of_eq_false hfree)

/-! A host access that goes on changes the inputs and what waits of the host alone, which no rate request looks at. -/

theorem State.rateBad_hostGoOn (s : State) (fn : Nat) (e : Ev) (k new : Nat) :
    (s.hostGoOn fn e).rateBad k new = s.rateBad k new := by
  unfold State.hostGoOn
  split <;> rfl

theorem State.saving_hostGoOn (s : State) (fn : Nat) (e : Ev) (k : Nat) : (s.hostGoOn fn e).saving k = s.saving k := by
  unfold State.hostGoOn
  split <;> rfl

theorem State.physCh_hostGoOn (s : State) (fn : Nat) (e : Ev) : (s.hostGoOn fn e).dev.physCh = s.dev.physCh := by
  unfold State.hostGoOn
  split <;> rfl

/-- A write of a stack's rate whose handler is not held, its conditions read in the state it finds (R369, R370). -/
theorem execStkrateWrite_of_not_held {s : State} (hfree : s.handlerHeld 4 = false) (k val : Nat) :
    execStkrateWrite k val s =
      let go := s.hostGoOn 64 (.stkrateWrite k val)
      .next (if s.rateBad k (val % 16) then go.setStk k fun x => { x with res := 3 }
        else if s.saving k then go.setStk k fun x => { x with res := 1 }
        else
          ((go.setStk k fun x => { x with res := 2, want := val % 16, state := 4 }).breakPins
            fun ch => s.dev.physCh ch / 32 == k).later (.retrainingComplete k)) := by
  simp only [execStkrateWrite, State.pfServed_of_not_held hfree, State.rateBad_hostGoOn, State.saving_hostGoOn, State.physCh_hostGoOn]

/-! What holds alignment and full service up (R12, R387). -/

theorem State.any_not_ended_iff (s : State) :
    (s.strands.any fun e => e.2.mode != .ended) = true ↔ ∃ e ∈ s.strands, e.2.mode ≠ .ended := by
  simp only [List.any_eq_true, bne_iff_ne]

theorem State.any_saved_iff (s : State) :
    (s.dev.launches.any fun l => l.stage == .saved || l.stage == .resuming) = true ↔
      ∃ l ∈ s.dev.launches, l.stage = .saved ∨ l.stage = .resuming := by
  simp only [List.any_eq_true, Bool.or_eq_true, beq_iff_eq]

/-- Full service that firmware may ask for begins, or waits for the strands. -/
theorem execFullServiceEntry_of_ready {s : State} (hready : s.serviceReady = true) :
    execFullServiceEntry s = .next (if ∃ e ∈ s.strands, e.2.mode ≠ .ended then
      (s.setPf fun p => { p with closing := true }).schedule (s.now + 1) .fullServiceEntry else s.enterService) := by
  simp only [execFullServiceEntry, hready, Bool.not_true, Bool.false_eq_true, if_false, State.any_not_ended_iff]

/-- The chip cycles that the links from the root have made a package's reel late (R380). -/
def State.alignLag (s : State) (pkg : Nat) (walk : AlignWalk) : Nat := if pkg = 0 then 0 else walk.path + (s.link walk.parent).lat

/-- Whether alignment has nothing to number: it is over, or the package has its number, or the walk cannot have numbered it so. -/
def State.AlignmentIdle (s : State) (pkg npkg : Nat) (walk : AlignWalk) : Prop :=
  s.dev.pf.aligned = true ∨ s.dev.pf.placed = true ∨ ¬ (s.numbered pkg npkg walk.parent = true ∧ s.alignLag pkg walk ≤ walk.named)

/-- Whether alignment has to wait: for its handler, or for a launch that has a strand. -/
def State.AlignmentWaits (s : State) : Prop :=
  s.handlerHeld 6 = true ∨ (∃ e ∈ s.strands, e.2.mode ≠ .ended) ∨ ∃ l ∈ s.dev.launches, l.stage = .saved ∨ l.stage = .resuming

theorem State.alignmentIdle_iff (s : State) (pkg npkg : Nat) (walk : AlignWalk) :
    (s.dev.pf.aligned = true ∨ s.dev.pf.placed = true ∨ (!s.numbered pkg npkg walk.parent) = true ∨
      walk.named < s.alignLag pkg walk) ↔ s.AlignmentIdle pkg npkg walk := by
  simp only [State.AlignmentIdle, Bool.not_eq_true', Decidable.not_and_iff_or_not, Bool.not_eq_true, Nat.not_le]

theorem State.alignmentWaits_iff (s : State) :
    (s.handlerHeld 6 || s.strands.any (fun e => e.2.mode != .ended) ||
      s.dev.launches.any (fun l => l.stage == .saved || l.stage == .resuming)) = true ↔ s.AlignmentWaits := by
  rw [Bool.or_eq_true, Bool.or_eq_true, State.any_not_ended_iff, State.any_saved_iff, or_assoc, State.AlignmentWaits]

section
variable {s : State} {pkg npkg : Nat} {walk : AlignWalk}

theorem execPodAlignment_of_idle (hidle : s.AlignmentIdle pkg npkg walk) : execPodAlignment pkg npkg walk s = .next s :=
  congrArg Host.Outcome.next (if_pos ((s.alignmentIdle_iff pkg npkg walk).mpr hidle))

theorem execPodAlignment_of_waits (hdue : ¬ s.AlignmentIdle pkg npkg walk) (hwaits : s.AlignmentWaits) :
    execPodAlignment pkg npkg walk s = .next (s.schedule (s.now + 1) (.podAlignment pkg npkg walk)) :=
  congrArg Host.Outcome.next ((if_neg (mt (s.alignmentIdle_iff pkg npkg walk).mp hdue)).trans (if_pos (s.alignmentWaits_iff.mpr hwaits)))

/-- The package gets its number, the pod's package count and its reel. -/
theorem execPodAlignment_of_goes (hdue : ¬ s.AlignmentIdle pkg npkg walk) (hgoes : ¬ s.AlignmentWaits) :
    execPodAlignment pkg npkg walk s = .next { s with dev := { s.dev with
      pkg := pkg, npkg := npkg, reel := walk.named - s.alignLag pkg walk, pf := { s.dev.pf with placed := true } } } :=
  congrArg Host.Outcome.next ((if_neg (mt (s.alignmentIdle_iff pkg npkg walk).mp hdue)).trans (if_neg (mt s.alignmentWaits_iff.mp hgoes)))

end

/-- Settles O47: each event is the branch of its function that the hypotheses choose. A write of a rate reads its conditions after the
access went on, which leaves them as they were (`execStkrateWrite_of_not_held`); `trained` and `enterService` are written out. -/
theorem bringUpActs : Obligations.BringUpActs := by
  intro s k rate val pkg npkg parent named path train link trained new go changing lag valid waits align
  have hdue (haligned : s.dev.pf.aligned = false) (hplaced : s.dev.pf.placed = false) (hvalid : valid) :
      ¬ s.AlignmentIdle pkg npkg ⟨parent, named, path⟩ :=
    not_or.mpr ⟨ne_true_of_eq_false haligned, not_or.mpr ⟨ne_true_of_eq_false hplaced, fun hinvalid => hinvalid hvalid⟩⟩
  refine ⟨?selfTest, ?training, ?rateHeld, ?rateRefused, ?rateDeferred, ?rateRuns, ?retrained, ?aligned, ?alignWaits, ?alignIdle,
    ?released, ?unreleased, ?service, ?serviceWaits⟩
  case selfTest =>
    intro hstage
    rw [exec_selfTestPass, execSelfTestPass, if_pos hstage]
  case training =>
    intro hstate hcode
    rw [exec_stackTrainingComplete, execStackTrainingComplete, if_pos ⟨hstate, hcode⟩]
    rfl
  case rateHeld =>
    intro hheld
    rw [exec_stkrateWrite, execStkrateWrite, State.pfServed_of_held hheld]
  case rateRefused =>
    intro hfree hbad
    rw [exec_stkrateWrite, execStkrateWrite_of_not_held hfree]
    exact congrArg Host.Outcome.next (if_pos hbad)
  case rateDeferred =>
    intro hfree hgood hsaving
    rw [exec_stkrateWrite, execStkrateWrite_of_not_held hfree]
    exact congrArg Host.Outcome.next ((if_neg (ne_true_of_eq_false hgood)).trans (if_pos hsaving))
  case rateRuns =>
    intro hfree hgood hunsaved
    rw [exec_stkrateWrite, execStkrateWrite_of_not_held hfree]
    exact congrArg Host.Outcome.next ((if_neg (ne_true_of_eq_false hgood)).trans (if_neg (ne_true_of_eq_false hunsaved)))
  case retrained =>
    intro hstate
    rw [exec_retrainingComplete, execRetrainingComplete, if_pos hstate]
    rfl
  case aligned =>
    intro haligned hplaced hvalid hgoes
    rw [exec_podAlignment]
    exact execPodAlignment_of_goes (hdue haligned hplaced hvalid) hgoes
  case alignWaits =>
    intro haligned hplaced hvalid hwaits
    rw [exec_podAlignment]
    exact execPodAlignment_of_waits (hdue haligned hplaced hvalid) hwaits
  case alignIdle =>
    intro hnothing
    rw [exec_podAlignment]
    exact execPodAlignment_of_idle hnothing
  case released =>
    intro hplaced
    rw [exec_alignmentRelease, execAlignmentRelease, if_pos hplaced]
  case unreleased =>
    intro hplaced
    rw [exec_alignmentRelease, execAlignmentRelease, if_neg (ne_true_of_eq_false hplaced)]
  case service =>
    intro hready hended
    rw [exec_fullServiceEntry, execFullServiceEntry_of_ready hready, if_neg (fun ⟨e, he, hruns⟩ => hruns (hended e he))]
    rfl
  case serviceWaits =>
    intro hready hruns
    rw [exec_fullServiceEntry, execFullServiceEntry_of_ready hready, if_pos hruns]

end Sys2Proof.Machine

/-! PROOFS. Control registers (R6, R57): what a write of one leaves in it and in the others. -/

namespace Sys2Proof.Machine

/-! Vectors by number. -/

theorem vget_vset_self {α : Type} {n i : Nat} (hi : i < n) (v : Vector α n) (x d : α) : vget (vset v i x) i d = x := by
  simp [vget, vset, hi]

theorem vget_vset_ne {α : Type} {n i j : Nat} (hij : i ≠ j) (v : Vector α n) (x d : α) :
    vget (vset v i x) j d = vget v j d := by
  simp [vget, vset, Array.getD_eq_getD_getElem?, hij]

/-! Which registers are resume points (R37). -/

theorem tqIndex_eq_some_iff {n i : Nat} :
    tqIndex n = some i ↔ (n = 6 ∧ i = 0) ∨ (0x12 ≤ n ∧ n ≤ 0x16 ∧ i = n - 0x11) := by
  unfold tqIndex
  split
  · grind
  · split <;> grind

theorem tqIndex_lt {n i : Nat} (hn : tqIndex n = some i) : i < 6 := by
  have := tqIndex_eq_some_iff.mp hn
  omega

theorem tqIndex_inj {n m i j : Nat} (hn : tqIndex n = some i) (hm : tqIndex m = some j) (hne : n ≠ m) : i ≠ j := by
  have := tqIndex_eq_some_iff.mp hn
  have := tqIndex_eq_some_iff.mp hm
  omega

/-! A read and a write of a resume point. -/

theorem Strand.creg_of_tqIndex_some {t : Strand} {n i : Nat} (hn : tqIndex n = some i) : t.creg n = vget t.ctx.tq i 0 := by
  unfold Strand.creg
  rw [hn]

theorem Strand.setCreg_of_tqIndex_some {t : Strand} {n i : Nat} (hn : tqIndex n = some i) (v : Word) :
    t.setCreg n v = t.updCtx fun c => { c with tq := vset c.tq i (v &&& 0x1FFFFFF) } := by
  unfold Strand.setCreg
  rw [hn]

/-- A resume point keeps its defined bits of what is written. -/
theorem Strand.creg_setCreg_self_of_tqIndex_some {t : Strand} {n i : Nat} (hn : tqIndex n = some i) (v : Word) :
    (t.setCreg n v).creg n = v &&& 0x1FFFFFF := by
  rw [creg_of_tqIndex_some hn, setCreg_of_tqIndex_some hn]
  exact vget_vset_self (tqIndex_lt hn) ..

/-! What a write leaves in the other registers. -/

/-- A register that is no resume point does not read the resume points. -/
theorem Strand.creg_updCtx_tq {t : Strand} {m : Nat} (hm : tqIndex m = none) (f : Ctx → Vector Word 6) :
    (t.updCtx fun c => { c with tq := f c }).creg m = t.creg m := by
  unfold creg
  rw [hm]
  rfl

theorem Strand.setCreg_tq_of_tqIndex_none {t : Strand} {n : Nat} (hn : tqIndex n = none) (v : Word) :
    (t.setCreg n v).ctx.tq = t.ctx.tq := by
  unfold setCreg
  rw [hn]
  dsimp only
  split <;> rfl

/-- Of two registers that are no resume points each has a field of its own: where both are the same number, `n ≠ m` fails,
and elsewhere the field read is not the field written. -/
theorem Strand.creg_setCreg_ne_of_tqIndex_none {t : Strand} {n m : Nat} (hn : tqIndex n = none) (hm : tqIndex m = none)
    (hne : n ≠ m) (v : Word) : (t.setCreg n v).creg m = t.creg m := by
  unfold setCreg
  rw [hn]
  dsimp only
  revert hne
  split
  case h_11 => exact fun _ => rfl  -- a read-only number: nothing is written
  all_goals
    unfold creg
    rw [hm]
    dsimp only
    split <;> simp [updCtx]

theorem Strand.creg_setCreg_ne {t : Strand} {n m : Nat} (hne : n ≠ m) (v : Word) : (t.setCreg n v).creg m = t.creg m := by
  cases hm : tqIndex m with
  | none =>
    cases hn : tqIndex n with
    | none => exact creg_setCreg_ne_of_tqIndex_none hn hm hne v
    | some i =>
      rw [setCreg_of_tqIndex_some hn]
      exact creg_updCtx_tq hm _
  | some j =>
    rw [creg_of_tqIndex_some hm, creg_of_tqIndex_some hm]
    cases hn : tqIndex n with
    | none => rw [setCreg_tq_of_tqIndex_none hn]
    | some i =>
      rw [setCreg_of_tqIndex_some hn]
      exact vget_vset_ne (tqIndex_inj hn hm hne) ..

/-- Settles O11: the clauses of one register each are read off its access code; the resume points and the registers not
written go through the lemmas above. -/
theorem controlRegisterAccess : Obligations.ControlRegisterAccess := by
  intro t v
  refine ⟨?readWrite, rfl, ?resumePoints, rfl, rfl, ?readOnly, fun n m _ _ hne => Strand.creg_setCreg_ne hne v⟩
  case readWrite =>
    simp only [List.forall_mem_cons]
    exact ⟨rfl, rfl, rfl, rfl, rfl, rfl, rfl, List.forall_mem_nil _⟩
  case resumePoints =>
    have hpoint : ∀ n ∈ [0x06, 0x12, 0x13, 0x14, 0x15, 0x16], (tqIndex n).isSome := by decide
    intro n hmem
    obtain ⟨i, hn⟩ := Option.isSome_iff_exists.mp (hpoint n hmem)
    exact Strand.creg_setCreg_self_of_tqIndex_some hn v
  case readOnly =>
    simp only [List.forall_mem_cons]
    exact ⟨rfl, rfl, rfl, rfl, rfl, rfl, rfl, rfl, rfl, List.forall_mem_nil _⟩

end Sys2Proof.Machine

/-! PROOFS. Scalar floating-point words (R71, R117, R118, R119): one rounding and one draw, and the forms that take a sign, the
smaller or the greater. -/

namespace Sys2Proof.Machine

/-! Forms that round their exact value (R117, R119): one draw, one rounding, a landing in `lm` at k + 4. -/

/-- The state that an S word leaves whose exact value, with the flags of its operation, is rounded once (R71, R117). -/
def State.landsRounded (s : State) (v : View) (t : Strand) (b : SBody) (e : XReal × Nat) : State :=
  let n := narrow b.ty b.rnd ((t.draws b.rnd 1).headD 0) e.1
  s.lands v (t.drawn b.rnd 1) 4 [.lm (BitVec.ofNat 64 n.1)] (fOr e.2 n.2)

theorem Strand.drawn_smode (t : Strand) (m : Rnd) (n : Nat) : (t.drawn m n).ctx.smode = t.ctx.smode := by
  unfold Strand.drawn
  split <;> rfl

/-- Draws taken in the state in which an S word acts, then a change of the strand. -/
theorem State.draw_reading_upd (s : State) (v : View) (t : Strand) (m : Rnd) (n : Nat) (f : Strand → Strand) :
    ((s.reading v t).draw m n).2.upd f = s.reading v (f (t.drawn m n)) := by
  rw [State.draw_upd, State.reading_t]
  exact State.reading_upd s v t fun _ => f (t.drawn m n)

/-- The rounding of an exact value, in the state in which an S word acts. -/
theorem roundOp_reading (s : State) (v : View) (t : Strand) (b : SBody) (e : XReal × Nat) :
    roundOp b.ty b.rnd e (s.reading v t) =
      let n := narrow b.ty b.rnd ((t.draws b.rnd 1).headD 0) e.1
      .ok { s := s.reading v ((t.drawn b.rnd 1).land 4 [.lm (BitVec.ofNat 64 n.1)] (fOr e.2 n.2)) } := by
  have hdraws : ((s.reading v t).draw b.rnd 1).1 = t.draws b.rnd 1 := by rw [State.draw_eq, State.reading_t]
  simp only [roundOp, landS, State.draw_reading_upd, hdraws]

/-- An S word whose own part rounds an exact value. -/
theorem SWord.issue_roundOp {s : State} {op : SOp} {h : Hdr} {b : SBody} {x y z : Word} {t : Strand}
    (hw : SWord s op h b x y z t) {f : Word → Word → Word → Operation} {e : XReal × Nat}
    (hf : f x y z = roundOp b.ty b.rnd e) :
    issueS op h b f s = .next (s.landsRounded (.s op h b) t b e) :=
  hw.issue_lands (t.drawn_smode b.rnd 1) (by rw [hf]; exact roundOp_reading ..)

/-! Floating-point ALU forms (R118). -/

theorem XReal.isSnan_eq_false_of_isNan_eq_false {p : XReal} (h : p.isNan = false) : p.isSnan = false := by
  cases p with
  | nan g => cases h
  | fin | inf => rfl

theorem XReal.snanFlag_one (p : XReal) : snanFlag [p] = if p.isSnan then fNV else 0 := by
  simp only [snanFlag, List.any_cons, List.any_nil, Bool.or_false]

theorem XReal.snanFlag_two (p q : XReal) : snanFlag [p, q] = if p.isSnan || q.isSnan then fNV else 0 := by
  simp only [snanFlag, List.any_cons, List.any_nil, Bool.or_false]

theorem fpMinMax_of_nan {ty : Ty} {a b : Nat} (h : ((decode ty a).isNan || (decode ty b).isNan) = true) (wantMax : Bool) :
    fpMinMax ty wantMax a b = (nanCode ty, XReal.snanFlag [decode ty a, decode ty b]) := if_pos h

theorem fpMinMax_of_not_nan {ty : Ty} {a b : Nat} (h : ¬ ((decode ty a).isNan || (decode ty b).isNan) = true) (wantMax : Bool) :
    fpMinMax ty wantMax a b = if fpBelow ty a b == wantMax then (b % 2 ^ ty.width, 0) else (a % 2 ^ ty.width, 0) := if_neg h

/-- NV of `fmin` and `fmax` is that of a signalling operand, for an operand that is signalling is a NaN. -/
theorem fpMinMax_snd (ty : Ty) (wantMax : Bool) (a b : Nat) :
    (fpMinMax ty wantMax a b).2 = XReal.snanFlag [decode ty a, decode ty b] := by
  by_cases hnan : ((decode ty a).isNan || (decode ty b).isNan) = true
  case pos => rw [fpMinMax_of_nan hnan]
  case neg =>
    obtain ⟨hp, hq⟩ := Bool.or_eq_false_iff.mp (eq_false_of_ne_true hnan)
    have hquiet : XReal.snanFlag [decode ty a, decode ty b] = 0 := by
      rw [XReal.snanFlag_two, XReal.isSnan_eq_false_of_isNan_eq_false hp, XReal.isSnan_eq_false_of_isNan_eq_false hq]
      rfl
    rw [fpMinMax_of_not_nan hnan, hquiet]
    split <;> rfl

/-- Which encoding `fmin` and `fmax` deliver: `fmin` the operand below, `fmax` the other one. -/
theorem fpMinMax_fst (ty : Ty) (wantMax : Bool) (a b : Nat) :
    (fpMinMax ty wantMax a b).1 = if (decode ty a).isNan || (decode ty b).isNan then nanCode ty
      else if fpBelow ty a b then (if wantMax then b else a) % 2 ^ ty.width else (if wantMax then a else b) % 2 ^ ty.width := by
  by_cases hnan : ((decode ty a).isNan || (decode ty b).isNan) = true
  case pos => rw [fpMinMax_of_nan hnan, if_pos hnan]
  case neg =>
    rw [fpMinMax_of_not_nan hnan, if_neg hnan]
    cases fpBelow ty a b <;> cases wantMax <;> rfl

theorem fpAbs_mod_width (ty : Ty) (c : Nat) : fpAbs ty (c % 2 ^ ty.width) = c % 2 ^ (ty.width - 1) :=
  Nat.mod_mod_of_dvd c (Nat.pow_dvd_pow 2 (Nat.sub_le ty.width 1))

theorem fpNeg_mod_width (ty : Ty) (c : Nat) :
    fpNeg ty (c % 2 ^ ty.width) = if bit (c % 2 ^ ty.width) (ty.width - 1) then c % 2 ^ (ty.width - 1)
      else c % 2 ^ (ty.width - 1) + 2 ^ (ty.width - 1) := by
  rw [fpNeg, fpAbs_mod_width]

/-- An S word that picks one of two encodings lands it in the latch that AS names at k + 1. -/
theorem SWord.issue_fminmaxOp {s : State} {op : SOp} {h : Hdr} {b : SBody} {x y z : Word} {t : Strand}
    (hw : SWord s op h b x y z t) (wantMax : Bool) :
    issueS op h b (fminmaxOp b wantMax) s =
      .next (s.lands (.s op h b) t 1 [aluEff b.as (BitVec.ofNat 64 (fpMinMax b.ty wantMax x.toNat y.toNat).1)]
        (XReal.snanFlag [decode b.ty x.toNat, decode b.ty y.toNat])) := by
  rw [← fpMinMax_snd b.ty wantMax]
  exact hw.issue_landS rfl

/-- An S word that changes a sign lands its result in the latch that AS names at k + 1. -/
theorem SWord.issue_fsignOp {s : State} {op : SOp} {h : Hdr} {b : SBody} {x y z : Word} {t : Strand}
    (hw : SWord s op h b x y z t) (f : Nat → Nat) :
    issueS op h b (fsignOp b f) s =
      .next (s.lands (.s op h b) t 1 [aluEff b.as (BitVec.ofNat 64
        (if (decode b.ty x.toNat).isNan then nanCode b.ty else f (x.toNat % 2 ^ b.ty.width)))]
        (if (decode b.ty x.toNat).isSnan then fNV else 0)) := by
  rw [← XReal.snanFlag_one]
  exact hw.issue_landS rfl

/-! The instructions. -/

section
variable (h : Hdr) (b : SBody) (s : State)

theorem exec_fadd : exec (.fadd h b) s = execFadd h b s := rfl
theorem exec_fsub : exec (.fsub h b) s = execFsub h b s := rfl
theorem exec_fmul : exec (.fmul h b) s = execFmul h b s := rfl
theorem exec_fma : exec (.fma h b) s = execFma h b s := rfl
theorem exec_cvt : exec (.cvt h b) s = execCvt h b s := rfl
theorem exec_fmin : exec (.fmin h b) s = execFmin h b s := rfl
theorem exec_fmax : exec (.fmax h b) s = execFmax h b s := rfl
theorem exec_fabs : exec (.fabs h b) s = execFabs h b s := rfl
theorem exec_fneg : exec (.fneg h b) s = execFneg h b s := rfl

end

/-- Settles O4: the rounded forms differ in their exact value alone (`SWord.issue_roundOp`); the ALU forms land what
`fpMinMax`, `fpAbs` and `fpNeg` give. -/
theorem floatResultLands : Obligations.FloatResultLands := by
  intro s h b x y z t p q r rounded lands nv snan w
  refine ⟨?fadd, ?fsub, ?fmul, ?fma, ?cvt, ?fmin, ?fmax, ?fabs, ?fneg⟩
  case fadd => exact fun hw => (exec_fadd h b s).trans (hw.issue_roundOp rfl)
  case fsub => exact fun hw => (exec_fsub h b s).trans (hw.issue_roundOp rfl)
  case fmul => exact fun hw => (exec_fmul h b s).trans (hw.issue_roundOp rfl)
  case fma => exact fun hw => (exec_fma h b s).trans (hw.issue_roundOp rfl)
  case cvt =>
    intro hw sty hsty
    exact (exec_cvt h b s).trans (hw.issue_roundOp (by rw [hsty]; rfl))
  case fmin =>
    intro hw
    rw [exec_fmin, execFmin, hw.issue_fminmaxOp, fpMinMax_fst, XReal.snanFlag_two]
    rfl
  case fmax =>
    intro hw
    rw [exec_fmax, execFmax, hw.issue_fminmaxOp, fpMinMax_fst, XReal.snanFlag_two]
    rfl
  case fabs =>
    intro hw
    rw [exec_fabs, execFabs, hw.issue_fsignOp, fpAbs_mod_width]
    rfl
  case fneg =>
    intro hw
    rw [exec_fneg, execFneg, hw.issue_fsignOp, fpNeg_mod_width]
    rfl

end Sys2Proof.Machine

/-! PROOFS. Integer sums of the matrix array (R52, R79, R184): an element's wrap, and what a delivery makes of its elements. -/

namespace Sys2Proof.Machine

/-! Bits of flags and of the accumulators' register. -/

theorem bit_eq_testBit (x i : Nat) : bit x i = x.testBit i := by
  rw [bit, Nat.testBit_eq_decide_div_mod_eq]
  rfl

theorem bit_fOr (x y i : Nat) : bit (fOr x y) i = (bit x i || bit y i) := by
  simp only [bit_eq_testBit, fOr, Nat.testBit_or]

/-- A bit of the union of flags: it was there, or an element of the list gives it. -/
theorem bit_foldl_fOr {α : Type} (g : α → Nat) (i : Nat) (l : List α) (x : Nat) :
    bit (l.foldl (fun m e => fOr m (g e)) x) i = (bit x i || l.any fun e => bit (g e) i) := by
  induction l generalizing x with
  | nil => exact (Bool.or_false _).symm
  | cons e l ih => rw [List.foldl_cons, ih, bit_fOr, List.any_cons, Bool.or_assoc]

/-- A bit that is put is set: the quotient by its weight is made odd. -/
theorem bit_putBits_one (x i : Nat) : bit (putBits x i 1 1) i = true := by
  have hpos : 0 < 2 ^ i := Nat.two_pow_pos i
  have hput : putBits x i 1 1 = x % 2 ^ i + 2 ^ i * (x / 2 ^ i - x / 2 ^ i % 2 + 1) := by
    have hle : x / 2 ^ i % 2 * 2 ^ i ≤ 2 ^ i * (x / 2 ^ i) := by
      rw [Nat.mul_comm]
      exact Nat.mul_le_mul_left _ (Nat.mod_le _ _)
    have hx := Nat.mod_add_div x (2 ^ i)
    rw [putBits, Nat.pow_one, Nat.mul_add, Nat.mul_sub, Nat.mul_comm (2 ^ i) (x / 2 ^ i % 2)]
    omega
  have hodd : (x / 2 ^ i - x / 2 ^ i % 2 + 1) % 2 = 1 := by omega
  rw [bit, hput, Nat.add_mul_div_left _ _ hpos, Nat.div_eq_of_lt (Nat.mod_lt x hpos), Nat.zero_add, hodd]
  rfl

/-- OV of an accumulator that has wrapped (R52, R79). -/
theorem State.bit_acm_setAcm {s : State} {core : Nat} (hcore : s.core = core) (a : Nat) (v m clearOv : Bool) :
    bit ((s.setAcm a v m clearOv true).coreAt core).acm (4 * a + 2) = true := by
  rw [← hcore, State.setAcm, State.coreAt_updCore_self]
  exact bit_putBits_one _ _

/-! Sums in int64 (R79). -/

theorem wrap_cast (w : Nat) (x : Int) : (wrap w x : Int) = x % 2 ^ w := by
  have hne : ((2 ^ w : Nat) : Int) ≠ 0 := Int.natCast_ne_zero.mpr (Nat.ne_of_gt (Nat.two_pow_pos w))
  rw [wrap, Int.toNat_of_nonneg (Int.emod_nonneg x hne), Int.natCast_pow]
  rfl

theorem intSum_eq_sum (a b : List Elem) : intSum a b = ((a.zip b).map fun p => p.1.int * p.2.int).sum := by
  rw [intSum, List.sum_eq_foldl, List.foldl_map]

theorem accAddInt_fst (acc : Nat) (t : Int) : ((accAddInt acc t).1 : Int) = (sext 64 acc + t) % 2 ^ 64 := wrap_cast 64 _

theorem accAddInt_snd_iff (acc : Nat) (t : Int) :
    (accAddInt acc t).2 = true ↔ sext 64 acc + t < -(2 ^ 63) ∨ 2 ^ 63 - 1 < sext 64 acc + t := by
  rw [accAddInt, Bool.or_eq_true, decide_eq_true_iff, decide_eq_true_iff]
  rfl

/-- The exact `acc + S` of R79, from zero where a word starts its accumulator from zero. -/
def macTotal (init : Bool) (acc : Nat) (a b : List Elem) : Int :=
  (if init then 0 else sext 64 acc) + ((a.zip b).map fun p => p.1.int * p.2.int).sum

/-- The sum that the model adds is `macTotal`. -/
theorem sext_add_intSum (init : Bool) (acc : Nat) (a b : List Elem) :
    sext 64 (if init then 0 else acc) + intSum a b = macTotal init acc a b := by
  rw [intSum_eq_sum]
  cases init <;> rfl

section
variable (init tree : Bool) (acc : Nat) (a b : List Elem)

theorem macElem_int :
    macElem init true tree acc a b =
      let r := accAddInt (if init then 0 else acc) (intSum a b)
      (r.1, if r.2 then fIOVF else 0, r.2) := rfl

theorem macElem_int_code : ((macElem init true tree acc a b).1 : Int) = macTotal init acc a b % 2 ^ 64 := by
  rw [macElem_int, ← sext_add_intSum]
  exact accAddInt_fst ..

theorem macElem_int_wraps_iff :
    (macElem init true tree acc a b).2.2 = true ↔ macTotal init acc a b < -(2 ^ 63) ∨ 2 ^ 63 - 1 < macTotal init acc a b := by
  rw [macElem_int, ← sext_add_intSum]
  exact accAddInt_snd_iff ..

/-- IOVF is the flag of an element that wraps, and of no other. -/
theorem macElem_int_flags :
    (macElem init true tree acc a b).2.1 = if (macElem init true tree acc a b).2.2 then fIOVF else 0 := by
  rw [macElem_int]

end

/-! A delivery to an accumulator (R184). -/

/-- The elements that a delivery writes, each with its flags and whether it wrapped. -/
def State.macOut (s : State) (j : MacJob) : List (Nat × Nat × Bool) :=
  (List.range 64).flatMap fun i => (List.range 128).map fun k =>
    if i < j.a.length ∧ k < j.b.length then
      macElem j.init j.intMode j.tree ((s.accRaw j.acc.val).toArray.getD (i * 128 + k) 0) (j.a.toArray.getD i []) (j.b.toArray.getD k [])
    else (if j.init then 0 else (s.accRaw j.acc.val).toArray.getD (i * 128 + k) 0, 0, false)

theorem State.applyMac_eq (s : State) (j : MacJob) :
    s.applyMac j =
      ((s.chipWrite s.core (accAt j.acc.val 0 0) ((s.macOut j).flatMap fun r => leBytes 8 r.1)).setAcm j.acc.val true j.intMode false
        ((s.macOut j).any fun r => r.2.2), (s.macOut j).foldl (fun f r => fOr f r.2.1) 0) := rfl

/-- A delivery writes the element of each row of A and each column of B. -/
theorem State.macElem_mem_macOut (s : State) {j : MacJob} {i k : Nat} (hi : i < j.a.length) (hk : k < j.b.length)
    (hrows : j.a.length ≤ 64) (hcols : j.b.length ≤ 128) :
    macElem j.init j.intMode j.tree ((s.accRaw j.acc.val).getD (i * 128 + k) 0) (j.a.getD i []) (j.b.getD k []) ∈ s.macOut j := by
  refine List.mem_flatMap.mpr ⟨i, List.mem_range.mpr (Nat.lt_of_lt_of_le hi hrows), ?_⟩
  refine List.mem_map.mpr ⟨k, List.mem_range.mpr (Nat.lt_of_lt_of_le hk hcols), ?_⟩
  rw [if_pos ⟨hi, hk⟩]
  simp only [Array.getD_eq_getD_getElem?, List.getElem?_toArray, List.getD_eq_getElem?_getD]

/-- A write to a space leaves the strand acted on. -/
theorem State.write_cur (s : State) (sp : Space) (a : Nat) (bs : List Byte) : (s.write sp a bs).cur = s.cur := by
  unfold State.write
  simp only
  split <;> cases sp <;> rfl

/-- A write to a core's window leaves the core of the strand acted on. -/
theorem State.chipWrite_core (s : State) (core off : Nat) (bs : List Byte) : (s.chipWrite core off bs).core = s.core := by
  refine congrArg coreOf ((State.write_cur _ .chip (chipAddr core off) bs).trans ?_)
  split <;> rfl

/-- Settles O56: an element is `macElem_int` of the exact sum, and the delivery's OV and IOVF are those of any of its elements. -/
theorem integerSumsWrap : Obligations.IntegerSumsWrap := by
  intro acc init tree a b s j old t out r raw element
  have hwraps : r.2.2 = true ↔ out := macElem_int_wraps_iff ..
  refine ⟨macElem_int_code .., hwraps, ?wrapped, ?inRange, ?delivery⟩
  case wrapped => exact fun h => (macElem_int_flags ..).trans (if_pos (hwraps.mpr h))
  case inRange => exact fun h => (macElem_int_flags ..).trans (if_neg (mt hwraps.mp h))
  case delivery =>
    rintro hmode hrows hcols ⟨i, k, hi, hk, hov⟩
    have hmem : element i k ∈ s.macOut j := by
      have hwritten := s.macElem_mem_macOut hi hk hrows hcols
      rwa [hmode] at hwritten
    have hflag : bit (element i k).2.1 7 = true := by
      rw [(macElem_int_flags ..).trans (if_pos hov)]
      rfl
    rw [State.applyMac_eq]
    refine ⟨?ov, ?iovf⟩
    case ov =>
      rw [List.any_eq_true.mpr ⟨element i k, hmem, hov⟩]
      exact State.bit_acm_setAcm (s.chipWrite_core ..) ..
    case iovf => rw [bit_foldl_fOr, List.any_eq_true.mpr ⟨element i k, hmem, hflag⟩, Bool.or_true]

end Sys2Proof.Machine

/-! PROOFS. Bit fields and packed fields (R3 to R7, R87): a packed number's bits are its fields, a mask's test is a field's, and what the
verdict on a word asks. -/

namespace Sys2Proof

open Sys2Proof.Machine

/-! Bit fields (R4). -/

theorem bits_eq_mod (x hi : Nat) : bits x hi 0 = x % 2 ^ (hi + 1) := by
  simp [bits]

theorem bits_lt (x hi lo : Nat) : bits x hi lo < 2 ^ (hi + 1 - lo) := Nat.mod_lt _ (Nat.two_pow_pos _)

theorem testBit_bits (x hi lo i : Nat) : (bits x hi lo).testBit i = (decide (i < hi + 1 - lo) && x.testBit (lo + i)) := by
  rw [bits, Nat.testBit_mod_two_pow, Nat.testBit_div_two_pow, Nat.add_comm i lo]

/-- A field of a field is a field. -/
theorem bits_bits {x hi lo p q : Nat} (h : lo + p ≤ hi) : bits (bits x hi lo) p q = bits x (lo + p) (lo + q) := by
  refine Nat.eq_of_testBit_eq fun i => ?_
  simp only [testBit_bits, ← Nat.add_assoc, ← Bool.and_assoc]
  congr 1
  rw [Bool.eq_iff_iff]
  simp only [Bool.and_eq_true, decide_eq_true_eq]
  omega

/-- A word's body holds its fields below bit 88. -/
theorem bits_of_body {w body hi lo : Nat} (hw : bits w 87 0 = body) (h : hi < 88) : bits w hi lo = bits body hi lo := by
  rw [← hw, bits_bits (by omega), Nat.zero_add, Nat.zero_add]

/-! Reserved masks. -/

theorem and_mul_two_pow (w m lo : Nat) : w &&& m * 2 ^ lo = (w / 2 ^ lo &&& m) * 2 ^ lo := by
  refine Nat.eq_of_testBit_eq fun i => ?_
  simp only [Nat.testBit_and, Nat.testBit_mul_two_pow, Nat.testBit_div_two_pow]
  by_cases h : lo ≤ i
  · simp [h]
  · simp [h]

theorem and_maskOf (w hi lo : Nat) : w &&& maskOf hi lo = bits w hi lo * 2 ^ lo := by
  rw [maskOf, and_mul_two_pow, Nat.and_two_pow_sub_one_eq_mod, bits]

@[simp] theorem and_maskOf_eq_zero {w hi lo : Nat} : w &&& maskOf hi lo = 0 ↔ bits w hi lo = 0 := by
  rw [and_maskOf, Nat.mul_eq_zero, or_iff_left (Nat.ne_of_gt (Nat.two_pow_pos lo))]

@[simp] theorem and_or_eq_zero {w m n : Nat} : w &&& (m ||| n) = 0 ↔ w &&& m = 0 ∧ w &&& n = 0 := by
  rw [Nat.and_or_distrib_left, Nat.or_eq_zero_iff]

@[simp] theorem and_rsvIf_eq_zero {w hi lo : Nat} {c : Bool} : w &&& rsvIf c hi lo = 0 ↔ (c = true → bits w hi lo = 0) := by
  cases c <;> simp [rsvIf]

/-- A field whose bits the form all uses has no reserved bit set. -/
theorem and_rsvField_eq_zero {w used hi lo : Nat} (hlo : lo ≤ hi) (h : covers used (bits w hi lo) = true) :
    w &&& rsvField used hi lo = 0 := by
  have hused : bits w hi lo &&& used = bits w hi lo := by simpa [covers] using h
  rw [rsvField, and_mul_two_pow, Nat.mul_eq_zero]
  refine .inl (Nat.eq_of_testBit_eq fun i => ?_)
  have hu : used &&& maskOf (hi - lo) 0 < 2 ^ (hi - lo + 1) := by
    simpa [and_maskOf] using bits_lt used (hi - lo) 0
  have hm : maskOf (hi - lo) 0 - (used &&& maskOf (hi - lo) 0) = 2 ^ (hi - lo + 1) - ((used &&& maskOf (hi - lo) 0) + 1) := by
    rw [Nat.sub_add_eq, Nat.sub_right_comm]
    simp [maskOf]
  have hbit := congrArg (Nat.testBit · i) hused
  simp only [Nat.testBit_and, testBit_bits] at hbit
  rw [Nat.testBit_and, hm, Nat.testBit_two_pow_sub_succ hu, and_maskOf, Nat.pow_zero, Nat.mul_one, testBit_bits,
    Nat.testBit_div_two_pow, Nat.zero_testBit, Nat.zero_add, Nat.add_comm i lo]
  have hw : hi + 1 - lo = hi - lo + 1 := by omega
  rw [hw] at hbit
  cases h1 : w.testBit (lo + i) <;> cases h2 : used.testBit i <;> simp_all

/-! Packed fields. -/

/-- Every value fits its field. -/
def FieldsFit (fs : List (Nat × Nat)) : Prop := ∀ f ∈ fs, f.2 < 2 ^ f.1

theorem fieldsFit_cons {f : Nat × Nat} {fs : List (Nat × Nat)} : FieldsFit (f :: fs) ↔ f.2 < 2 ^ f.1 ∧ FieldsFit fs :=
  List.forall_mem_cons

theorem fieldsFit_nil : FieldsFit [] := fun _ h => absurd h List.not_mem_nil

theorem packFields_append (fs gs : List (Nat × Nat)) :
    packFields (fs ++ gs) = packFields fs * 2 ^ (gs.map Prod.fst).sum + packFields gs := by
  induction fs with
  | nil => simp [packFields]
  | cons f fs ih =>
    simp only [List.cons_append, packFields, ih, List.map_append, List.sum_append, Nat.pow_add,
      Nat.add_mul, Nat.mul_assoc, Nat.add_assoc]

theorem packFields_lt {fs : List (Nat × Nat)} (h : FieldsFit fs) : packFields fs < 2 ^ (fs.map Prod.fst).sum := by
  induction fs with
  | nil => simp [packFields]
  | cons f fs ih =>
    obtain ⟨hf, hfit⟩ := fieldsFit_cons.mp h
    have hfs := ih hfit
    calc packFields (f :: fs) < f.2 * 2 ^ (fs.map Prod.fst).sum + 2 ^ (fs.map Prod.fst).sum := by
          simpa [packFields] using hfs
      _ = (f.2 + 1) * 2 ^ (fs.map Prod.fst).sum := by rw [Nat.succ_mul]
      _ ≤ 2 ^ f.1 * 2 ^ (fs.map Prod.fst).sum := Nat.mul_le_mul_right _ hf
      _ = 2 ^ ((f :: fs).map Prod.fst).sum := by rw [List.map_cons, List.sum_cons, Nat.pow_add]

/-- The bits of `k` fields from field `n` on are those fields packed by themselves. -/
theorem bits_packFields {fs : List (Nat × Nat)} (h : FieldsFit fs) (n k : Nat) {hi lo : Nat}
    (hlo : ((fs.drop (n + k)).map Prod.fst).sum = lo) (hhi : (((fs.drop n).take k).map Prod.fst).sum = hi + 1 - lo) :
    bits (packFields fs) hi lo = packFields ((fs.drop n).take k) := by
  have hmid : FieldsFit ((fs.drop n).take k) := fun f hf => h f (List.mem_of_mem_drop (List.mem_of_mem_take hf))
  have hlow : FieldsFit (fs.drop (n + k)) := fun f hf => h f (List.mem_of_mem_drop hf)
  have hcut : fs = fs.take n ++ ((fs.drop n).take k ++ fs.drop (n + k)) := by
    rw [← List.drop_drop, List.take_append_drop, List.take_append_drop]
  have hmlt := packFields_lt hmid
  have hllt := packFields_lt hlow
  rw [hhi] at hmlt
  rw [hlo] at hllt
  conv => lhs; rw [hcut]
  rw [bits, packFields_append, packFields_append, List.map_append, List.sum_append, hhi, hlo, Nat.pow_add, ← Nat.mul_assoc,
    ← Nat.add_assoc, ← Nat.add_mul, Nat.add_comm, Nat.add_mul_div_right _ _ (Nat.two_pow_pos lo), Nat.div_eq_of_lt hllt,
    Nat.zero_add, Nat.mul_add_mod_self_right, Nat.mod_eq_of_lt hmlt]

theorem unpackFields_add_mul (ws : List Nat) (v x : Nat) : unpackFields ws (v * 2 ^ ws.sum + x) = unpackFields ws x := by
  induction ws generalizing v with
  | nil => rfl
  | cons w ws ih =>
    have hv : v * 2 ^ (w :: ws).sum = v * 2 ^ w * 2 ^ ws.sum := by rw [List.sum_cons, Nat.pow_add, Nat.mul_assoc]
    rw [unpackFields, unpackFields, hv, ih, Nat.add_comm, Nat.add_mul_div_right _ _ (Nat.two_pow_pos _), Nat.add_mul_mod_self_right]

theorem unpackFields_packFields {fs : List (Nat × Nat)} (h : FieldsFit fs) :
    unpackFields (fs.map Prod.fst) (packFields fs) = fs.map Prod.snd := by
  induction fs with
  | nil => rfl
  | cons f fs ih =>
    obtain ⟨hf, hfs⟩ := fieldsFit_cons.mp h
    rw [List.map_cons, List.map_cons, unpackFields, packFields, unpackFields_add_mul, ih hfs, Nat.add_comm,
      Nat.add_mul_div_right _ _ (Nat.two_pow_pos _), Nat.div_eq_of_lt (packFields_lt hfs), Nat.zero_add,
      Nat.mod_eq_of_lt hf]

/-! The verdict on a word (R87). -/

theorem lowestBit_zero (i fuel : Nat) : lowestBit 0 i fuel = none := by
  induction fuel generalizing i with
  | zero => rfl
  | succ fuel ih => simp [lowestBit, ih]

theorem firstFail_cons_eq_none {x : Bool × Nat} {l : List (Bool × Nat)} :
    firstFail (x :: l) = none ↔ x.1 = false ∧ firstFail l = none := by
  obtain ⟨c, d⟩ := x
  cases c <;> simp [firstFail]

theorem firstFail_nil : firstFail [] = none := rfl

/-- A word passes whose reserved bits are zero and whose fields all hold what they may. -/
theorem verdict_eq_none {w rsv : Nat} {il6 : List (Bool × Nat)} (hrsv : w &&& rsv = 0) (h6 : firstFail il6 = none) :
    verdict w rsv il6 = none := by
  rw [verdict, hrsv, lowestBit_zero, h6]
  rfl

end Sys2Proof

/-! PROOFS. Codes and layouts (R49, R66, R86 to R97): every code fits its field and reads back, and so does every body. -/

namespace Sys2Proof

open Sys2Proof.Machine

/-! Codes fit their fields and read back (R49, R66, R86, R88, R90, R92, R96). -/

theorem Ty.code_lt (t : Ty) : t.code < 2 ^ 5 := by cases t <;> decide
theorem Rnd.code_lt (r : Rnd) : r.code < 6 := by cases r <;> decide
theorem Scope.code_lt (s : Scope) : s.code < 2 ^ 3 := by cases s <;> decide
theorem b1_lt (b : Bool) : b1 b < 2 ^ 1 := by cases b <;> decide

theorem Opd.code_lt (o : Opd) : o.code < 2 ^ 8 := by
  cases o <;> simp only [Opd.code] <;> omega

theorem XLatch.code_lt (l : XLatch) : l.code < 2 ^ 5 := by
  cases l <;> simp only [XLatch.code] <;> omega

theorem Guard.code_lt (g : Guard) : g.code < 2 ^ 6 := by
  cases g with
  | always => decide
  | on n p => cases n <;> simp [Guard.code] <;> omega

@[simp] theorem Ty.ofCode_code (t : Ty) : Ty.ofCode t.code = some t := by cases t <;> rfl
@[simp] theorem Rnd.ofCode_code (r : Rnd) : Rnd.ofCode r.code = some r := by cases r <;> rfl
@[simp] theorem Scope.ofCode_code (s : Scope) : Scope.ofCode s.code = some s := by cases s <;> rfl
@[simp] theorem Cls.ofCode_code (e : Cls) : Cls.ofCode e.code = some e := by cases e <;> rfl

@[simp] theorem Opd.ofCode_code (o : Opd) : Opd.ofCode o.code = some o := by
  cases o with
  | q n | lf n | g n | t n | acc n | dv n | p n | lc n => revert n; decide
  | la0 | la1 | lm | ll | imm | zero | handle | absent => rfl

@[simp] theorem XLatch.ofCode_code (l : XLatch) : XLatch.ofCode l.code = some l := by
  cases l with
  | lf n => revert n; decide
  | none | la0 | la1 | lm | ll => rfl

@[simp] theorem Guard.ofCode_code (g : Guard) : Guard.ofCode g.code = g := by
  cases g with
  | always => rfl
  | on n p => revert n p; decide

@[simp] theorem b1_beq_one (b : Bool) : (b1 b == 1) = b := by cases b <;> rfl

@[simp] theorem fin_val {n : Nat} [NeZero n] (x : Fin n) : fin n x.val = x := Fin.ofNat_val_eq_self x

/-! Opcodes read back and are none of those of the words of every class (R99, R100). -/

@[simp] theorem SOp.ofCode_code (o : SOp) : SOp.ofCode o.code = some o := by cases o <;> rfl
@[simp] theorem VOp.ofCode_code (o : VOp) : VOp.ofCode o.code = some o := by cases o <;> rfl
@[simp] theorem COp.ofCode_code (o : COp) : COp.ofCode o.code = some o := by cases o <;> rfl
@[simp] theorem NOp.ofCode_code (o : NOp) : NOp.ofCode o.code = some o := by cases o <;> rfl

theorem SOp.code_range (o : SOp) : 0 < o.code ∧ o.code < 0xFD := by cases o <;> decide
theorem VOp.code_range (o : VOp) : 0 < o.code ∧ o.code < 0xFD := by cases o <;> decide
theorem DOp.code_range (o : DOp) : 0 < o.code ∧ o.code < 0xFD := by cases o <;> decide
theorem FOp.code_range (o : FOp) : 0 < o.code ∧ o.code < 0xFD := by cases o <;> decide
theorem MOp.code_range (o : MOp) : 0 < o.code ∧ o.code < 0xFD := by cases o <;> decide
theorem COp.code_range (o : COp) : 0 < o.code ∧ o.code < 0xFD := by cases o <;> decide
theorem NOp.code_range (o : NOp) : 0 < o.code ∧ o.code < 0xFD := by cases o <;> decide

/-- No C form but `cpf` has its opcode. -/
theorem COp.code_ne_cpf (o : COp) : o.code ≠ 3 := by cases o <;> decide

/-! The fields of each layout, as the encoder packs them (R86, R91 to R97, R210). -/

def Hdr.fields (h : Hdr) (cls op : Nat) : List (Nat × Nat) :=
  [(4, cls), (10, h.idle.toNat), (5, h.swait.val), (5, h.spost.val), (4, h.trk.val),
    (4, 8 * b1 h.peekA + 4 * b1 h.peekB + 2 * b1 h.peekC + b1 h.peekD), (8, op)]

def SBody.fields (b : SBody) : List (Nat × Nat) :=
  [(6, b.g.code), (8, b.a.code), (8, b.b.code), (8, b.c.code), (5, b.ty.code), (3, b.rnd.code), (1, b1 b.as), (5, b.xl.code),
    (5, b.xq.val), (4, b.px.val), (3, 0), (32, b.imm.toNat)]

def VBody.fields (b : VBody) : List (Nat × Nat) :=
  [(6, b.g.code), (8, b.a.code), (8, b.b.code), (8, b.c.code), (8, b.d.code), (5, b.ty.code), (3, b.rnd.code), (14, b.sub.toNat),
    (1, b1 b.ne), (5, b.nf.code), (1, b1 b.lce), (3, b.lcn.val), (18, b.vx.toNat)]

def MBody.fields (b : MBody) : List (Nat × Nat) :=
  [(6, b.g.code), (8, b.a.code), (8, b.b.code), (8, b.c.code), (8, b.d.code), (8, b.mx.toNat), (3, b.rnd.code), (7, 0),
    (32, b.hnd.toNat)]

def CBody.fields (b : CBody) : List (Nat × Nat) :=
  [(6, b.g.code), (8, b.a.code), (8, b.b.code), (8, b.c.code), (8, b.d.code), (2, b.ch.val), (1, b1 b.fw), (4, b.oc.val),
    (11, b.cx.toNat), (32, b.imm.toNat)]

def NBody.fields (b : NBody) : List (Nat × Nat) :=
  [(6, b.g.code), (8, b.a.code), (8, b.b.code), (8, b.c.code), (8, b.d.code), (4, b.oc.val), (3, b.scp.code), (11, b.nx.toNat),
    (32, b.imm.toNat)]

/-- A back-edge word's fields, its LF cut into its reserved part, STG and TARGET. -/
def LoopBody.fields (e : Cls) (l : LoopBody) : List (Nat × Nat) :=
  match e with
  | .s =>
    [(6, l.g.code), (8, 0x90 + l.lc.val), (8, 0), (8, 0), (5, 0), (3, 0), (1, 0), (5, l.xl.code), (5, l.xq.val), (4, 0), (3, 0),
      (15, 0), (3, l.stg.val), (14, l.target.toNat)]
  | .v | .f | .d =>
    [(6, l.g.code), (8, 0x90 + l.lc.val), (8, 0), (8, 0), (8, 0), (32, 0), (1, 0), (3, l.stg.val), (14, l.target.toNat)]
  | .m | .c | .n =>
    [(6, l.g.code), (8, 0x90 + l.lc.val), (8, 0), (8, 0), (8, 0), (18, 0), (15, 0), (3, l.stg.val), (14, l.target.toNat)]

def FollowOn.fields (f : FollowOn) : List (Nat × Nat) :=
  [(4, 4), (28, 0), (8, if f.mma then 2 else 1), (6, 0), (8, 0x50 + f.ta.val), (8, 0x50 + f.tb.val), (8, 0), (8, 0x60 + f.acc.val),
    (50, 0)]

theorem Hdr.fields_fit (h : Hdr) {cls op : Nat} (hcls : cls < 2 ^ 4) (hop : op < 2 ^ 8) : FieldsFit (h.fields cls op) := by
  have hA := b1_lt h.peekA; have hB := b1_lt h.peekB; have hC := b1_lt h.peekC; have hD := b1_lt h.peekD
  simp only [Hdr.fields, fieldsFit_cons, fieldsFit_nil, and_true]
  exact ⟨hcls, h.idle.isLt, h.swait.isLt, h.spost.isLt, h.trk.isLt, by omega, hop⟩

theorem SBody.fields_fit (b : SBody) : FieldsFit b.fields := by
  have hrnd := b.rnd.code_lt
  simp only [SBody.fields, fieldsFit_cons, fieldsFit_nil, and_true]
  exact ⟨b.g.code_lt, b.a.code_lt, b.b.code_lt, b.c.code_lt, b.ty.code_lt, by omega, b1_lt _, b.xl.code_lt, b.xq.isLt, b.px.isLt,
    by decide, b.imm.isLt⟩

theorem VBody.fields_fit (b : VBody) : FieldsFit b.fields := by
  have hrnd := b.rnd.code_lt
  simp only [VBody.fields, fieldsFit_cons, fieldsFit_nil, and_true]
  exact ⟨b.g.code_lt, b.a.code_lt, b.b.code_lt, b.c.code_lt, b.d.code_lt, b.ty.code_lt, by omega, b.sub.isLt, b1_lt _, b.nf.code_lt,
    b1_lt _, b.lcn.isLt, b.vx.isLt⟩

theorem MBody.fields_fit (b : MBody) : FieldsFit b.fields := by
  have hrnd := b.rnd.code_lt
  simp only [MBody.fields, fieldsFit_cons, fieldsFit_nil, and_true]
  exact ⟨b.g.code_lt, b.a.code_lt, b.b.code_lt, b.c.code_lt, b.d.code_lt, b.mx.isLt, by omega, by decide, b.hnd.isLt⟩

theorem CBody.fields_fit (b : CBody) : FieldsFit b.fields := by
  simp only [CBody.fields, fieldsFit_cons, fieldsFit_nil, and_true]
  exact ⟨b.g.code_lt, b.a.code_lt, b.b.code_lt, b.c.code_lt, b.d.code_lt, b.ch.isLt, b1_lt _, b.oc.isLt, b.cx.isLt, b.imm.isLt⟩

theorem NBody.fields_fit (b : NBody) : FieldsFit b.fields := by
  simp only [NBody.fields, fieldsFit_cons, fieldsFit_nil, and_true]
  exact ⟨b.g.code_lt, b.a.code_lt, b.b.code_lt, b.c.code_lt, b.d.code_lt, b.oc.isLt, b.scp.code_lt, b.nx.isLt, b.imm.isLt⟩

theorem LoopBody.fields_fit (e : Cls) (l : LoopBody) : FieldsFit (l.fields e) := by
  have hg := l.g.code_lt; have hx := l.xl.code_lt; have hq := l.xq.isLt; have hs := l.stg.isLt; have ht := l.target.isLt
  cases e <;>
    · simp only [LoopBody.fields, fieldsFit_cons, fieldsFit_nil, and_true]
      omega

theorem FollowOn.fields_fit (f : FollowOn) : FieldsFit f.fields := by
  simp only [FollowOn.fields, fieldsFit_cons, fieldsFit_nil, and_true]
  exact ⟨by decide, by decide, by split <;> decide, by decide, by omega, by omega, by decide, by omega, by decide⟩

theorem LoopBody.pack_eq (e : Cls) (l : LoopBody) : l.pack e = packFields (l.fields e) := by cases e <;> rfl

theorem LoopBody.pack_lt (e : Cls) (l : LoopBody) : l.pack e < 2 ^ 88 := by
  have h := packFields_lt (l.fields_fit e)
  rw [← l.pack_eq e] at h
  cases e <;> exact h

theorem Guard.pack_lt (g : Guard) : g.pack < 2 ^ 88 := by
  have h := g.code_lt
  rw [Guard.pack]
  omega

/-! What a body's word reads as. -/

theorem SBody.ofWord_eq {b : SBody} {w : Nat} (hw : bits w 87 0 = b.pack) : SBody.ofWord w = some b := by
  have h : unpackFields sLayout b.pack = b.fields.map Prod.snd := unpackFields_packFields b.fields_fit
  simp [SBody.ofWord, hw, h, SBody.fields]

theorem VBody.ofWord_eq {b : VBody} {w : Nat} (hw : bits w 87 0 = b.pack) : VBody.ofWord w = some b := by
  have h : unpackFields vLayout b.pack = b.fields.map Prod.snd := unpackFields_packFields b.fields_fit
  simp [VBody.ofWord, hw, h, VBody.fields]

theorem MBody.ofWord_eq {b : MBody} {w : Nat} (hw : bits w 87 0 = b.pack) : MBody.ofWord w = some b := by
  have h : unpackFields mLayout b.pack = b.fields.map Prod.snd := unpackFields_packFields b.fields_fit
  simp [MBody.ofWord, hw, h, MBody.fields]

theorem CBody.ofWord_eq {b : CBody} {w : Nat} (hw : bits w 87 0 = b.pack) : CBody.ofWord w = some b := by
  have h : unpackFields cLayout b.pack = b.fields.map Prod.snd := unpackFields_packFields b.fields_fit
  simp [CBody.ofWord, hw, h, CBody.fields]

theorem NBody.ofWord_eq {b : NBody} {w : Nat} (hw : bits w 87 0 = b.pack) : NBody.ofWord w = some b := by
  have h : unpackFields nLayout b.pack = b.fields.map Prod.snd := unpackFields_packFields b.fields_fit
  simp [NBody.ofWord, hw, h, NBody.fields]

/-- The code of a loop register gives its number. -/
theorem fin_lc (n : Fin 8) : fin 8 (0x90 + n.val) = n := by revert n; decide

/-- A back-edge word reads as its fields; outside class S it has no transport. -/
theorem LoopBody.ofWord_eq {e : Cls} {l : LoopBody} {w : Nat} (hw : bits w 87 0 = l.pack e)
    (hx : e ≠ .s → l.xl = .none ∧ l.xq = 0) : LoopBody.ofWord e w = some l := by
  have hlayout : (l.fields e).map Prod.fst = loopLayout e := by cases e <;> rfl
  have hfields := unpackFields_packFields (l.fields_fit e)
  rw [hlayout, ← l.pack_eq e, ← hw] at hfields
  obtain ⟨g, lc, target, stg, xl, xq⟩ := l
  cases e with
  | s => simp [LoopBody.ofWord, hfields, LoopBody.fields, fin_lc]
  | v | f | d | m | c | n =>
    obtain ⟨rfl, rfl⟩ := hx (by simp)
    simp [LoopBody.ofWord, hfields, LoopBody.fields, fin_lc, show fin 32 0 = 0 from rfl]

end Sys2Proof

/-! PROOFS. Well-formed words pass the checks of R87 that the word alone decides (R90 to R99, R210, R259). -/

namespace Sys2Proof

open Sys2Proof.Machine

/-! The fields of a word, read by their bits. -/

/-- The bits of `k` fields of a word's body from field `n` on are those fields packed by themselves. -/
theorem bits_fields {fs : List (Nat × Nat)} {w : Nat} (h : FieldsFit fs) (hw : bits w 87 0 = packFields fs) (n k : Nat) {hi lo : Nat}
    (hlo : ((fs.drop (n + k)).map Prod.fst).sum = lo) (hhi : (((fs.drop n).take k).map Prod.fst).sum = hi + 1 - lo) (hlt : hi < 88) :
    bits w hi lo = packFields ((fs.drop n).take k) := by
  rw [bits_of_body hw hlt, bits_packFields h n k hlo hhi]

/-- The bits of one field. -/
theorem bits_field {fs : List (Nat × Nat)} {w : Nat} (h : FieldsFit fs) (hw : bits w 87 0 = packFields fs) (n : Nat) {hi lo k v : Nat}
    (hget : fs[n]? = some (k, v)) (hlo : ((fs.drop (n + 1)).map Prod.fst).sum = lo) (hhi : hi + 1 = lo + k) (hlt : hi < 88) :
    bits w hi lo = v := by
  obtain ⟨hn, hget⟩ := List.getElem?_eq_some_iff.mp hget
  have htake : (fs.drop n).take 1 = [(k, v)] := by simp [List.drop_eq_getElem_cons hn, hget]
  rw [bits_fields h hw n 1 hlo (by rw [htake]; simp; omega) hlt, htake]
  simp [packFields]

theorem SBody.bits_word {b : SBody} {w : Nat} (hw : bits w 87 0 = b.pack) :
    bits w 87 82 = b.g.code ∧ bits w 81 74 = b.a.code ∧ bits w 73 66 = b.b.code ∧ bits w 65 58 = b.c.code ∧
      bits w 57 53 = b.ty.code ∧ bits w 52 50 = b.rnd.code ∧ bits w 49 49 = b1 b.as ∧ bits w 48 44 = b.xl.code ∧
      bits w 43 39 = b.xq.val ∧ bits w 38 35 = b.px.val ∧ bits w 34 32 = 0 ∧ bits w 31 0 = b.imm.toNat := by
  have field := bits_field b.fields_fit hw
  exact ⟨field 0 rfl rfl rfl (by decide), field 1 rfl rfl rfl (by decide), field 2 rfl rfl rfl (by decide),
    field 3 rfl rfl rfl (by decide), field 4 rfl rfl rfl (by decide), field 5 rfl rfl rfl (by decide),
    field 6 rfl rfl rfl (by decide), field 7 rfl rfl rfl (by decide), field 8 rfl rfl rfl (by decide),
    field 9 rfl rfl rfl (by decide), field 10 rfl rfl rfl (by decide), field 11 rfl rfl rfl (by decide)⟩

/-! What the checks of R87 ask of a field, as well-formedness grants it. -/

theorem OpSet.code_of_unused {s : OpSet} {c : Nat} (h : s.accepts c = true) (hs : (s == .unused) = true) : c = 0 := by
  obtain rfl : s = .unused := by simpa using hs
  simpa [OpSet.accepts] using h

theorem badSlot_of_accepts {s : OpSet} {c : Nat} (h : s.accepts c = true) (slot : Nat) : (badSlot s c slot).1 = false := by
  simp [badSlot, h]

theorem Ty.code_of_reserved {l : List Nat} {t : Ty} (h : tyOk l t = true) (hl : (l == []) = true) : t.code = 0 := by
  obtain rfl : t = .i8 := by simpa [tyOk, hl] using h
  rfl

theorem tyOk_passes {l : List Nat} {t : Ty} (h : tyOk l t = true) : (l != [] && !l.contains t.code) = false := by
  by_cases hl : l = [] <;> simp_all [tyOk]

theorem Rnd.code_of_reserved {used : Bool} {r : Rnd} (h : rndOk used r = true) (hu : (!used) = true) : r.code = 0 := by
  obtain rfl : r = .rne := by simpa [rndOk, Bool.not_eq_true' _ ▸ hu] using h
  rfl

theorem badRnd_code (used : Bool) (r : Rnd) : (badRnd used r.code).1 = false := by
  have h := r.code_lt
  simp [badRnd, h]

/-- With GEN = 0 a guard's other bits are zero (R90). -/
theorem and_rsvGuard {w : Nat} {g : Guard} (hg : bits w 87 82 = g.code) : w &&& rsvGuard w = 0 := by
  have h5 : bits w 87 87 = bits g.code 5 5 := by rw [← hg, bits_bits (by decide)]
  have h4 : bits w 86 82 = bits g.code 4 0 := by rw [← hg, bits_bits (by decide)]
  rw [rsvGuard, and_rsvIf_eq_zero, h5, h4]
  cases g with
  | always => intro _; rfl
  | on n p =>
    have hgen : ∀ (n : Bool) (p : Fin 16), (bits (Guard.on n p).code 5 5 == 0) = false := by decide
    simp [hgen]

/-- A field outside those that a form uses is zero. -/
theorem eq_zero_of_reserved {used : Bool} {x : Nat} (h : (used || x == 0) = true) (hu : (!used) = true) : x = 0 := by
  cases used <;> simp_all

theorem b1_of_reserved {used v : Bool} (h : (used || !v) = true) (hu : (!used) = true) : b1 v = 0 := by
  cases used <;> cases v <;> simp_all [b1]

theorem XLatch.code_eq_zero_iff {l : XLatch} : l.code = 0 ↔ l = .none := by
  cases l <;> simp [XLatch.code]

theorem XLatch.code_not_reserved (l : XLatch) : (decide (5 ≤ l.code) && decide (l.code < 16)) = false := by
  rw [← Bool.decide_and, decide_eq_false_iff_not]
  cases l <;> simp only [XLatch.code] <;> omega

theorem checkS_eq_none {op : SOp} {b : SBody} {w : Nat} (hw : bits w 87 0 = b.pack) (hwf : b.wf op = true) : checkS op w = none := by
  obtain ⟨hg, ha, hb, hc, hty, hrnd, has, hxl, hxq, hpx, hrsv, himm⟩ := SBody.bits_word hw
  have hform := hwf
  simp only [SBody.wf, Bool.and_eq_true, and_assoc] at hform
  obtain ⟨fa, fb, fc, fty, frnd, fas, fpx, fimm, fxl, fxq, -⟩ := hform
  unfold checkS
  dsimp only
  rw [ha, hb, hc, hty, hrnd, hxl, himm]
  refine verdict_eq_none ?reserved ?values
  case reserved =>
    simp only [and_or_eq_zero, and_rsvIf_eq_zero, and_maskOf_eq_zero, and_assoc, ha, hb, hc, hty, hrnd, has, hxl, hxq, hpx, hrsv]
    refine ⟨and_rsvGuard hg, OpSet.code_of_unused fa, OpSet.code_of_unused fb, OpSet.code_of_unused fc, Ty.code_of_reserved fty,
      Rnd.code_of_reserved frnd, b1_of_reserved fas, fun h => ?xl, fun h => ?xq, eq_zero_of_reserved fpx, trivial,
      and_rsvField_eq_zero (by decide) (himm ▸ fimm)⟩
    case xl => exact XLatch.code_eq_zero_iff.mpr (by simpa [Bool.not_eq_true' _ ▸ h] using fxl)
    case xq =>
      have hnone : b.xl = .none := by
        rcases Bool.or_eq_true _ _ ▸ h with h | h
        · simpa [Bool.not_eq_true' _ ▸ h] using fxl
        · exact XLatch.code_eq_zero_iff.mp (by simpa using h)
      simpa [hnone] using fxq
  case values =>
    simp only [firstFail_cons_eq_none, firstFail_nil, and_true]
    refine ⟨badSlot_of_accepts fa 0, badSlot_of_accepts fb 1, badSlot_of_accepts fc 2, tyOk_passes fty, badRnd_code _ _, ?_,
      b.xl.code_not_reserved⟩
    split <;>
      · simp only [SBody.wf, Bool.and_eq_true] at hwf
        obtain ⟨-, hvalue⟩ := hwf
        simp at hvalue ⊢ <;> omega

theorem VBody.bits_word {b : VBody} {w : Nat} (hw : bits w 87 0 = b.pack) :
    bits w 87 82 = b.g.code ∧ bits w 81 74 = b.a.code ∧ bits w 73 66 = b.b.code ∧ bits w 65 58 = b.c.code ∧
      bits w 57 50 = b.d.code ∧ bits w 49 45 = b.ty.code ∧ bits w 44 42 = b.rnd.code ∧ bits w 41 28 = b.sub.toNat ∧
      bits w 27 27 = b1 b.ne ∧ bits w 26 22 = b.nf.code ∧ bits w 21 21 = b1 b.lce ∧ bits w 20 18 = b.lcn.val ∧
      bits w 17 0 = b.vx.toNat := by
  have field := bits_field b.fields_fit hw
  exact ⟨field 0 rfl rfl rfl (by decide), field 1 rfl rfl rfl (by decide), field 2 rfl rfl rfl (by decide),
    field 3 rfl rfl rfl (by decide), field 4 rfl rfl rfl (by decide), field 5 rfl rfl rfl (by decide),
    field 6 rfl rfl rfl (by decide), field 7 rfl rfl rfl (by decide), field 8 rfl rfl rfl (by decide),
    field 9 rfl rfl rfl (by decide), field 10 rfl rfl rfl (by decide), field 11 rfl rfl rfl (by decide),
    field 12 rfl rfl rfl (by decide)⟩

theorem MBody.bits_word {b : MBody} {w : Nat} (hw : bits w 87 0 = b.pack) :
    bits w 87 82 = b.g.code ∧ bits w 81 74 = b.a.code ∧ bits w 73 66 = b.b.code ∧ bits w 65 58 = b.c.code ∧
      bits w 57 50 = b.d.code ∧ bits w 49 42 = b.mx.toNat ∧ bits w 41 39 = b.rnd.code ∧ bits w 38 32 = 0 ∧
      bits w 31 0 = b.hnd.toNat := by
  have field := bits_field b.fields_fit hw
  exact ⟨field 0 rfl rfl rfl (by decide), field 1 rfl rfl rfl (by decide), field 2 rfl rfl rfl (by decide),
    field 3 rfl rfl rfl (by decide), field 4 rfl rfl rfl (by decide), field 5 rfl rfl rfl (by decide),
    field 6 rfl rfl rfl (by decide), field 7 rfl rfl rfl (by decide), field 8 rfl rfl rfl (by decide)⟩

theorem CBody.bits_word {b : CBody} {w : Nat} (hw : bits w 87 0 = b.pack) :
    bits w 87 82 = b.g.code ∧ bits w 81 74 = b.a.code ∧ bits w 73 66 = b.b.code ∧ bits w 65 58 = b.c.code ∧
      bits w 57 50 = b.d.code ∧ bits w 49 48 = b.ch.val ∧ bits w 47 47 = b1 b.fw ∧ bits w 46 43 = b.oc.val ∧
      bits w 42 32 = b.cx.toNat ∧ bits w 31 0 = b.imm.toNat := by
  have field := bits_field b.fields_fit hw
  exact ⟨field 0 rfl rfl rfl (by decide), field 1 rfl rfl rfl (by decide), field 2 rfl rfl rfl (by decide),
    field 3 rfl rfl rfl (by decide), field 4 rfl rfl rfl (by decide), field 5 rfl rfl rfl (by decide),
    field 6 rfl rfl rfl (by decide), field 7 rfl rfl rfl (by decide), field 8 rfl rfl rfl (by decide),
    field 9 rfl rfl rfl (by decide)⟩

theorem NBody.bits_word {b : NBody} {w : Nat} (hw : bits w 87 0 = b.pack) :
    bits w 87 82 = b.g.code ∧ bits w 81 74 = b.a.code ∧ bits w 73 66 = b.b.code ∧ bits w 65 58 = b.c.code ∧
      bits w 57 50 = b.d.code ∧ bits w 49 46 = b.oc.val ∧ bits w 45 43 = b.scp.code ∧ bits w 42 32 = b.nx.toNat ∧
      bits w 31 0 = b.imm.toNat := by
  have field := bits_field b.fields_fit hw
  exact ⟨field 0 rfl rfl rfl (by decide), field 1 rfl rfl rfl (by decide), field 2 rfl rfl rfl (by decide),
    field 3 rfl rfl rfl (by decide), field 4 rfl rfl rfl (by decide), field 5 rfl rfl rfl (by decide),
    field 6 rfl rfl rfl (by decide), field 7 rfl rfl rfl (by decide), field 8 rfl rfl rfl (by decide)⟩

/-! Classes V, F and D. -/

theorem VOp.form_ty_ne_nil (op : VOp) : op.form.ty ≠ [] := by cases op <;> decide
theorem FOp.form_ty_ne_nil (op : FOp) : op.form.ty ≠ [] := by cases op <;> decide
theorem FOp.form_d (op : FOp) : op.form.d = .lfRg := by cases op <;> rfl

theorem not_contains_of_tyOk {l : List Nat} {t : Ty} (hl : l ≠ []) (h : tyOk l t = true) : (!l.contains t.code) = false := by
  simpa [tyOk, hl] using h

/-- A word narrows only where its form and R137 let it. -/
theorem narrow_passes {f : VForm} {b : VBody}
    (h : (if b.ne then f.ne && narrowOk b.ty.code b.nf.code else b.nf == .i8) = true) :
    (b.ne && (!f.ne || !narrowOk b.ty.code b.nf.code)) = false := by
  cases hne : b.ne <;> simp_all

/-- Slot D of an F word holds a latch or else a region (R151). -/
theorem latch_eq_not_isRg {c : Nat} (h : OpSet.lfRg.accepts c = true) : (decide (0x30 ≤ c) && decide (c < 0x40)) = !isRg c := by
  simp only [OpSet.accepts, Bool.and_eq_true, decide_eq_true_eq] at h
  rw [Bool.eq_iff_iff]
  simp [isRg]
  omega

/-- The reserved bits that classes V and F share are zero in a well-formed body. -/
theorem and_rsvV_eq_zero {f : VForm} {b : VBody} {w : Nat} (hw : bits w 87 0 = b.pack) (hwf : VBody.wf f b = true) :
    w &&& rsvV f w (rndUsed f.rnd b.ty.code b.ne) = 0 := by
  obtain ⟨hg, ha, hb, hc, hd, hty, hrnd, hsub, hne, hnf, hlce, hlcn, hvx⟩ := VBody.bits_word hw
  simp only [VBody.wf, Bool.and_eq_true, and_assoc] at hwf
  obtain ⟨fa, fb, fc, fd, fty, frnd, fvx, fnf, flcn, frsv, fsub⟩ := hwf
  have hslot : bits w 41 40 = bits b.sub.toNat 13 12 := by rw [← hsub, bits_bits (by decide)]
  have hrsv : bits w 34 33 = bits b.sub.toNat 6 5 := by rw [← hsub, bits_bits (by decide)]
  unfold rsvV
  dsimp only
  simp only [and_or_eq_zero, and_rsvIf_eq_zero, and_maskOf_eq_zero, and_assoc, ha, hb, hc, hrnd, hsub, hne, hnf, hlce, hlcn, hslot, hrsv]
  refine ⟨and_rsvGuard hg, OpSet.code_of_unused fa, OpSet.code_of_unused fb, OpSet.code_of_unused fc, Rnd.code_of_reserved frnd, ?rsv,
    fun h => ?sub, fun h => ?nf, fun h => ?lcn, and_rsvField_eq_zero (by decide) (hvx ▸ fvx)⟩
  case rsv => simpa using frsv
  case sub => exact eq_zero_of_reserved fsub (by simpa using h)
  case nf =>
    have hoff : b.ne = false := by simpa using h
    have hty8 : b.nf = .i8 := by simpa [hoff] using fnf
    rw [hty8]
    rfl
  case lcn =>
    have hoff : b.lce = false := by cases hl : b.lce <;> simp [hl, b1] at h ⊢
    exact eq_zero_of_reserved flcn (by rw [hoff]; rfl)

theorem checkV_eq_none {op : VOp} {b : VBody} {w : Nat} (hw : bits w 87 0 = b.pack) (hwf : b.wfV op = true) : checkV op w = none := by
  obtain ⟨hg, ha, hb, hc, hd, hty, hrnd, hsub, hne, hnf, hlce, hlcn, hvx⟩ := VBody.bits_word hw
  unfold VBody.wfV at hwf
  simp only [Bool.and_eq_true, and_assoc] at hwf
  obtain ⟨hbody, fsat, fsub, fop⟩ := hwf
  have hfields := hbody
  simp only [VBody.wf, Bool.and_eq_true, and_assoc] at hfields
  obtain ⟨fa, fb, fc, fd, fty, -, -, fnf, -⟩ := hfields
  unfold checkV
  dsimp only
  rw [ha, hb, hc, hd, hty, hrnd, hsub, hne, hnf, hvx, b1_beq_one]
  refine verdict_eq_none (and_rsvV_eq_zero hw hbody) ?_
  simp only [firstFail_cons_eq_none, firstFail_nil, and_true, Bool.or_eq_false_iff, and_assoc]
  refine ⟨badSlot_of_accepts fa 0, badSlot_of_accepts fb 1, badSlot_of_accepts fc 2, badSlot_of_accepts fd 3,
    not_contains_of_tyOk op.form_ty_ne_nil fty, narrow_passes fnf, badRnd_code _ _, Bool.not_eq_true' _ ▸ fsat,
    Bool.not_eq_true' _ ▸ fsub, ?op⟩
  case op => split <;> simp at fop ⊢ <;> assumption

theorem checkF_eq_none {op : FOp} {b : VBody} {w : Nat} (hw : bits w 87 0 = b.pack) (hwf : b.wfF op = true) : checkF op w = none := by
  obtain ⟨hg, ha, hb, hc, hd, hty, hrnd, hsub, hne, hnf, hlce, hlcn, hvx⟩ := VBody.bits_word hw
  unfold VBody.wfF at hwf
  simp only [Bool.and_eq_true, and_assoc] at hwf
  obtain ⟨hbody, flatch, fsub, fop⟩ := hwf
  have hfields := hbody
  simp only [VBody.wf, Bool.and_eq_true, and_assoc] at hfields
  obtain ⟨fa, fb, fc, fd, fty, -, -, fnf, -⟩ := hfields
  unfold checkF
  dsimp only
  rw [ha, hb, hc, hd, hty, hrnd, hsub, hne, hnf, hlce, hvx, b1_beq_one, b1_beq_one, latch_eq_not_isRg (op.form_d ▸ fd)]
  refine verdict_eq_none (and_rsvV_eq_zero hw hbody) ?_
  have hty6 := not_contains_of_tyOk op.form_ty_ne_nil fty
  have hne6 := narrow_passes fnf
  have hsub8 := Bool.not_eq_true' _ ▸ fsub
  simp only [firstFail_cons_eq_none, firstFail_nil, and_true, Bool.or_eq_false_iff, and_assoc]
  generalize hl : (!isRg b.d.code) = latch at flatch
  refine ⟨badSlot_of_accepts fa 0, ?_, badSlot_of_accepts fb 1, ?_, badSlot_of_accepts fc 2, ?_, badSlot_of_accepts fd 3, hty6, ?_,
    badRnd_code _ _, ?_, hsub8, ?op⟩
  case op => split <;> simp at fop ⊢ <;> omega
  all_goals cases latch <;> simp_all

theorem bits_eq_zero_of_split {x hi m lo : Nat} (hhigh : bits x hi (m + 1) = 0) (hlow : bits x m lo = 0) : bits x hi lo = 0 := by
  refine Nat.eq_of_testBit_eq fun i => ?_
  have hh := congrArg (Nat.testBit · (lo + i - (m + 1))) hhigh
  have hl := congrArg (Nat.testBit · i) hlow
  simp only [testBit_bits, Nat.zero_testBit, Bool.and_eq_false_iff, decide_eq_false_iff_not] at hh hl ⊢
  by_cases hi' : lo + i ≤ m
  · exact .inr (hl.resolve_left (by omega))
  · rw [show m + 1 + (lo + i - (m + 1)) = lo + i by omega] at hh
    exact hh.imp (by omega) id

theorem checkD_eq_none {op : DOp} {b : VBody} {w : Nat} (hw : bits w 87 0 = b.pack) (hwf : b.wfD op = true) : checkD op w = none := by
  obtain ⟨hg, ha, hb, hc, hd, hty, hrnd, hsub, hne, hnf, hlce, hlcn, hvx⟩ := VBody.bits_word hw
  unfold VBody.wfD at hwf
  simp only [Bool.and_eq_true, and_assoc] at hwf
  obtain ⟨fa, fb, fc, fd, fty, frnd, fvx, fsub, fne, fnf, flcn, fop⟩ := hwf
  have hnl : bits w 17 12 = bits b.vx.toNat 17 12 := by rw [← hvx, bits_bits (by decide)]
  have hdx : bits w 9 0 = bits b.vx.toNat 9 0 := by rw [← hvx, bits_bits (by decide)]
  have hty0 : b.ty.code = 0 := Ty.code_of_reserved (l := []) fty rfl
  have hnf0 : b.nf.code = 0 := Ty.code_of_reserved (l := []) fnf rfl
  have hne0 : b1 b.ne = 0 := b1_of_reserved (used := false) fne rfl
  have hmid : bits w 41 22 = 0 :=
    bits_eq_zero_of_split (m := 27) (by simpa [hsub] using fsub) (bits_eq_zero_of_split (m := 26) (hne.trans hne0) (hnf.trans hnf0))
  unfold checkD
  dsimp only
  rw [ha, hb, hc, hd, hrnd, hlce, hnl, hdx, b1_beq_one]
  refine verdict_eq_none ?reserved ?values
  case reserved =>
    simp only [and_or_eq_zero, and_rsvIf_eq_zero, and_maskOf_eq_zero, and_assoc, ha, hb, hc, hty, hrnd, hlcn, hmid]
    exact ⟨and_rsvGuard hg, OpSet.code_of_unused fa, OpSet.code_of_unused fb, OpSet.code_of_unused fc, hty0,
      Rnd.code_of_reserved frnd, trivial, eq_zero_of_reserved flcn, and_rsvField_eq_zero (by decide) (hvx ▸ fvx)⟩
  case values =>
    simp only [firstFail_cons_eq_none, firstFail_nil, and_true, Bool.or_eq_false_iff, and_assoc]
    refine ⟨badSlot_of_accepts fa 0, badSlot_of_accepts fb 1, ?_, badSlot_of_accepts fc 2, badSlot_of_accepts fd 3, badRnd_code _ _,
      ?_, ?_, ?_⟩
    all_goals
      generalize decide (b.d.code < 0x20) = queue at fop ⊢
      cases queue <;> split at fop <;> simp_all

theorem Opd.code_eq_handle_iff {o : Opd} : o.code = 0xA2 ↔ o = .handle := by
  refine ⟨fun h => ?_, fun h => h ▸ rfl⟩
  rw [← Option.some_inj, ← Opd.ofCode_code, h]
  rfl

theorem Opd.code_beq_handle (o : Opd) : (o.code == 0xA2) = (o == .handle) := by
  rw [Bool.eq_iff_iff, beq_iff_eq, beq_iff_eq, Opd.code_eq_handle_iff]

theorem checkM_eq_none {op : MOp} {b : MBody} {w : Nat} (hw : bits w 87 0 = b.pack) (hwf : b.wf op = true) : checkM op w = none := by
  obtain ⟨hg, ha, hb, hc, hd, hmx, hrnd, hrsv, hhnd⟩ := MBody.bits_word hw
  unfold MBody.wf at hwf
  simp only [Bool.and_eq_true, and_assoc] at hwf
  obtain ⟨fa, fb, fc, fd, fmx, frnd, fhnd, fone, frow, fop⟩ := hwf
  unfold checkM
  dsimp only
  rw [ha, hb, hc, hd, hrnd, hmx, Opd.code_beq_handle, Opd.code_beq_handle]
  refine verdict_eq_none ?reserved ?values
  case reserved =>
    simp only [and_or_eq_zero, and_rsvIf_eq_zero, and_maskOf_eq_zero, and_assoc, ha, hb, hc, hd, hrnd, hrsv, hhnd]
    exact ⟨and_rsvGuard hg, OpSet.code_of_unused fa, OpSet.code_of_unused fb, OpSet.code_of_unused fc, OpSet.code_of_unused fd,
      and_rsvField_eq_zero (by decide) (hmx ▸ fmx), Rnd.code_of_reserved frnd, trivial, eq_zero_of_reserved fhnd⟩
  case values =>
    simp only [firstFail_cons_eq_none, firstFail_nil, and_true, Bool.or_eq_false_iff]
    refine ⟨badSlot_of_accepts fa 0, badSlot_of_accepts fb 1, ?one, badSlot_of_accepts fc 2, badSlot_of_accepts fd 3, badRnd_code _ _,
      Bool.not_eq_true' _ ▸ frow, ?op⟩
    case one => rwa [bne, ← Bool.not_and, Bool.not_eq_true'] at fone
    case op => split <;> simp at fop ⊢ <;> assumption

/-- A form with a flag operand uses slot D for it alone (R198). -/
theorem COp.form_d_of_flag {op : COp} (h : op.form.flag = true) : op.form.d = .unused := by
  cases op <;> simp_all [COp.form]

theorem checkC_eq_none {op : COp} {b : CBody} {w : Nat} (hw : bits w 87 0 = b.pack) (hwf : b.wf op = true) : checkC op w = none := by
  obtain ⟨hg, ha, hb, hc, hd, hch, hfw, hoc, hcx, himm⟩ := CBody.bits_word hw
  unfold CBody.wf at hwf
  simp only [Bool.and_eq_true, and_assoc] at hwf
  obtain ⟨fa, fb, fc, fd, ffw, fch, foc, fcx, fimm, fop⟩ := hwf
  unfold checkC
  dsimp only
  rw [ha, hb, hc, hd, hfw, hcx, himm, b1_beq_one]
  refine verdict_eq_none ?reserved ?values
  case reserved =>
    simp only [and_or_eq_zero, and_rsvIf_eq_zero, and_assoc, ha, hb, hc, hd, hch, hoc, himm]
    refine ⟨and_rsvGuard hg, OpSet.code_of_unused fa, OpSet.code_of_unused fb, OpSet.code_of_unused fc, fun h => ?d,
      eq_zero_of_reserved fch, eq_zero_of_reserved foc, and_rsvField_eq_zero (by decide) (hcx ▸ fcx), eq_zero_of_reserved fimm⟩
    case d =>
      obtain ⟨hunused, hflag⟩ := Bool.and_eq_true _ _ ▸ h
      rw [if_neg fun hf => by simp [hf] at hflag] at fd
      exact OpSet.code_of_unused fd hunused
  case values =>
    simp only [firstFail_cons_eq_none, firstFail_nil, and_true, Bool.or_eq_false_iff]
    refine ⟨badSlot_of_accepts fa 0, badSlot_of_accepts fb 1, badSlot_of_accepts fc 2, ?d, ?flag, ?rnd, ?fw, ?op⟩
    case d =>
      by_cases h : op.form.flag = true ∧ b.fw = true
      · rw [COp.form_d_of_flag h.1]
        rfl
      · exact badSlot_of_accepts (by rwa [if_neg h] at fd) 3
    case flag =>
      cases h : op.form.flag && b.fw
      · rfl
      · rw [if_pos (Bool.and_eq_true _ _ ▸ h)] at fd
        simp [fd]
    case rnd => split <;> simp at fop ⊢ <;> omega
    case fw => cases hf : op.form.flag <;> simp_all
    case op => split <;> simp at fop ⊢ <;> omega

theorem checkN_eq_none {op : NOp} {b : NBody} {w : Nat} (hw : bits w 87 0 = b.pack) (hwf : b.wf op = true) : checkN op w = none := by
  obtain ⟨hg, ha, hb, hc, hd, hoc, hscp, hnx, himm⟩ := NBody.bits_word hw
  unfold NBody.wf at hwf
  simp only [Bool.and_eq_true, and_assoc] at hwf
  obtain ⟨fa, fb, fc, fd, foc, fnx, fimm, fscp, fop⟩ := hwf
  unfold checkN
  dsimp only
  rw [ha, hb, hc, hd, hscp, hnx]
  refine verdict_eq_none ?reserved ?values
  case reserved =>
    simp only [and_or_eq_zero, and_rsvIf_eq_zero, and_assoc, ha, hb, hc, hd, hoc, hscp]
    refine ⟨and_rsvGuard hg, OpSet.code_of_unused fa, OpSet.code_of_unused fb, OpSet.code_of_unused fc, OpSet.code_of_unused fd,
      eq_zero_of_reserved foc, fun h => ?scp, and_rsvField_eq_zero (by decide) (hnx ▸ fnx),
      and_rsvField_eq_zero (by decide) (himm ▸ fimm)⟩
    case scp =>
      rw [Bool.not_eq_true'] at h
      have hlane : b.scp = .lane := by simpa [h] using fscp
      rw [hlane]
      rfl
  case values =>
    simp only [firstFail_cons_eq_none, firstFail_nil, and_true, Bool.or_eq_false_iff]
    refine ⟨badSlot_of_accepts fa 0, badSlot_of_accepts fb 1, badSlot_of_accepts fc 2, badSlot_of_accepts fd 3, ?scp, ?op⟩
    case scp => cases hs : op.form.scp <;> cases hb : b.scp <;> simp_all [Scope.code]
    case op => split <;> simp at fop ⊢ <;> omega

/-! Words of every class (R97, R99, R259). -/

theorem covers_of_lt {n x : Nat} (h : x < 2 ^ n) : covers (2 ^ n - 1) x = true := by
  simp [covers, Nat.and_two_pow_sub_one_eq_mod, Nat.mod_eq_of_lt h]

/-- STG is used in rotating mode alone (R259). -/
theorem LoopBody.covers_lf {e : Cls} {rot : Bool} {l : LoopBody} (h : l.wf e rot = true) :
    covers (if rot then 0x1FFFF else 0x3FFF) (l.stg.val * 2 ^ 14 + l.target.toNat) = true := by
  have ht := l.target.isLt
  have hs := l.stg.isLt
  cases rot with
  | true => exact covers_of_lt (n := 17) (by omega)
  | false =>
    have hstg : l.stg.val = 0 := by
      simp only [LoopBody.wf, Bool.and_eq_true] at h
      simpa using h.1.1
    exact covers_of_lt (n := 14) (by omega)

/-- The guard, the loop register, and what lies below them in slots B to D (R259). -/
theorem LoopBody.bits_word {e : Cls} {l : LoopBody} {w : Nat} (hw : bits w 87 0 = l.pack e) :
    bits w 87 82 = l.g.code ∧ bits w 81 74 = 0x90 + l.lc.val ∧ bits w 73 58 = 0 ∧ (e ≠ .s → bits w 73 50 = 0) := by
  rw [l.pack_eq e] at hw
  have field := bits_field (l.fields_fit e) hw
  have fields := bits_fields (l.fields_fit e) hw
  cases e with
  | s => exact ⟨field 0 rfl rfl rfl (by decide), field 1 rfl rfl rfl (by decide), fields 2 2 rfl rfl (by decide), fun h => absurd rfl h⟩
  | v | f | d | m | c | n =>
    exact ⟨field 0 rfl rfl rfl (by decide), field 1 rfl rfl rfl (by decide), fields 2 2 rfl rfl (by decide),
      fun _ => fields 2 3 rfl rfl (by decide)⟩

/-- The loop field LF, with what is reserved around it in each layout (R259). -/
theorem LoopBody.bits_lf {e : Cls} {l : LoopBody} {w : Nat} (hw : bits w 87 0 = l.pack e) :
    match e with
    | .s => bits w 31 0 = l.stg.val * 2 ^ 14 + l.target.toNat ∧ bits w 48 44 = l.xl.code ∧ bits w 43 39 = l.xq.val ∧
        bits w 57 49 = 0 ∧ bits w 38 32 = 0
    | .v | .f | .d => bits w 17 0 = l.stg.val * 2 ^ 14 + l.target.toNat ∧ bits w 49 18 = 0
    | .m | .c | .n => bits w 31 0 = l.stg.val * 2 ^ 14 + l.target.toNat ∧ bits w 49 32 = 0 := by
  have hlow : ∀ r, packFields [(r, 0), (3, l.stg.val), (14, l.target.toNat)] = l.stg.val * 2 ^ 14 + l.target.toNat := by
    simp [packFields]
  rw [l.pack_eq e] at hw
  have field := bits_field (l.fields_fit e) hw
  have fields := bits_fields (l.fields_fit e) hw
  cases e with
  | s =>
    exact ⟨(fields (hi := 31) (lo := 0) 11 3 rfl rfl (by decide)).trans (hlow 15), field 7 rfl rfl rfl (by decide),
      field 8 rfl rfl rfl (by decide), fields 4 3 rfl rfl (by decide), fields 9 2 rfl rfl (by decide)⟩
  | v | f | d => exact ⟨(fields (hi := 17) (lo := 0) 6 3 rfl rfl (by decide)).trans (hlow 1), field 5 rfl rfl rfl (by decide)⟩
  | m | c | n => exact ⟨(fields (hi := 31) (lo := 0) 6 3 rfl rfl (by decide)).trans (hlow 15), field 5 rfl rfl rfl (by decide)⟩

theorem checkLoop_eq_none {e : Cls} {rot : Bool} {l : LoopBody} {w : Nat} (hw : bits w 87 0 = l.pack e) (hwf : l.wf e rot = true) :
    checkLoop e rot w = none := by
  obtain ⟨hg, ha, hbc, hbd⟩ := LoopBody.bits_word hw
  have hlf := LoopBody.bits_lf hw
  have hcov := LoopBody.covers_lf hwf
  have hlc : OpSet.lcReg.accepts (0x90 + l.lc.val) = true := by
    have hlt := l.lc.isLt
    simp [OpSet.accepts]
    omega
  simp only [LoopBody.wf, Bool.and_eq_true, and_assoc] at hwf
  obtain ⟨-, fxl, fxq⟩ := hwf
  unfold checkLoop
  dsimp only
  rw [ha]
  refine verdict_eq_none ?reserved ?values
  case reserved =>
    simp only [and_or_eq_zero, and_assoc]
    refine ⟨and_rsvGuard hg, ?_⟩
    cases e with
    | s =>
      obtain ⟨h31, hxl, hxq, h57, h38⟩ := hlf
      simp only [and_or_eq_zero, and_rsvIf_eq_zero, and_maskOf_eq_zero, and_assoc, hxl, hxq, h57, h38]
      refine ⟨and_maskOf_eq_zero.mpr hbc, and_rsvField_eq_zero (by decide) (h31 ▸ hcov), fun h => ?_, trivial, trivial⟩
      simpa [XLatch.code_eq_zero_iff.mp (by simpa using h)] using fxq
    | v | f | d =>
      obtain ⟨h17, h49⟩ := hlf
      simp only [and_or_eq_zero, and_maskOf_eq_zero, h49, and_true]
      exact ⟨and_maskOf_eq_zero.mpr (hbd (by simp)), and_rsvField_eq_zero (by decide) (h17 ▸ hcov)⟩
    | m | c | n =>
      obtain ⟨h31, h49⟩ := hlf
      simp only [and_or_eq_zero, and_maskOf_eq_zero, h49, and_true]
      exact ⟨and_maskOf_eq_zero.mpr (hbd (by simp)), and_rsvField_eq_zero (by decide) (h31 ▸ hcov)⟩
  case values =>
    simp only [firstFail_cons_eq_none, firstFail_nil, and_true]
    refine ⟨badSlot_of_accepts hlc 0, ?_⟩
    cases e with
    | s =>
      rw [hlf.2.1]
      exact l.xl.code_not_reserved
    | v | f | d | m | c | n => rfl

theorem checkNop_eq_none {g : Guard} {w : Nat} (hw : bits w 87 0 = g.pack) : bits w 87 82 = g.code ∧ checkNop w = none := by
  have hg : bits w 87 82 = g.code := by
    rw [bits_of_body hw (by decide), bits, Guard.pack, Nat.mul_div_cancel _ (by decide), Nat.mod_eq_of_lt g.code_lt]
  have hz : bits w 81 0 = 0 := by
    rw [bits_of_body hw (by decide), bits_eq_mod, Guard.pack, Nat.mul_mod_left]
  refine ⟨hg, verdict_eq_none ?_ firstFail_nil⟩
  rw [and_or_eq_zero, and_maskOf_eq_zero]
  exact ⟨and_rsvGuard hg, hz⟩

/-! The follow-on word of `cpf` (R98, R210): the body of an `mmi`. -/

def FollowOn.body (f : FollowOn) : MBody := ⟨.always, .t f.ta, .t f.tb, .q 0, .acc f.acc, 0, .rne, 0⟩

theorem FollowOn.bits_word (f : FollowOn) : bits f.word 87 0 = f.body.pack := by
  refine (bits_packFields f.fields_fit 3 6 rfl rfl).trans ?_
  simp [FollowOn.fields, packFields, MBody.pack, FollowOn.body, Opd.code, Guard.code, Rnd.code]

theorem OpSet.tile_accepts (n : Fin 16) : OpSet.tile.accepts (Opd.t n).code = true := by revert n; decide
theorem OpSet.acc_accepts (n : Fin 2) : OpSet.acc.accepts (Opd.acc n).code = true := by revert n; decide

theorem FollowOn.wf_body (f : FollowOn) : f.body.wf .mmi = true := by
  simp only [MBody.wf, FollowOn.body, MOp.form, OpSet.tile_accepts, OpSet.acc_accepts]
  rfl

theorem followOn_word (f : FollowOn) : followOn f.word = some f := by
  obtain ⟨hg, ha, hb, hc, hd, -⟩ := MBody.bits_word f.bits_word
  have field := fun n k {hi lo} => bits_packFields f.fields_fit n k (hi := hi) (lo := lo)
  have h127 : bits f.word 127 124 = 4 := field 0 1 (by simp [FollowOn.fields]) (by simp [FollowOn.fields])
  have h123 : bits f.word 123 96 = 0 := field 1 1 (by simp [FollowOn.fields]) (by simp [FollowOn.fields])
  have hop : bits f.word 95 88 = if f.mma then 2 else 1 :=
    (field 2 1 (by simp [FollowOn.fields]) (by simp [FollowOn.fields])).trans (by simp [packFields, FollowOn.fields])
  unfold followOn
  dsimp only
  simp only [hg, ha, hb, hd, h127, h123, hop]
  obtain ⟨m, ta, tb, acc⟩ := f
  simp only [FollowOn.body, Opd.code, Guard.code, Nat.add_sub_cancel_left]
  rw [dif_pos ⟨ta.isLt, tb.isLt, acc.isLt⟩, if_pos ⟨trivial, by cases m <;> simp, trivial, trivial, Nat.le_add_right ..,
    Nat.le_add_right .., Nat.le_add_right ..⟩]
  cases m <;> rfl

/-- A well-formed `cpf` and its follow-on word pass the checks of both (R210). -/
theorem checkCpf_eq_none {b : CBody} {f : FollowOn} {w : Nat} (hw : bits w 87 0 = b.pack) (hwf : b.wf .cpt = true) :
    checkCpf w f.word = none := by
  unfold checkCpf
  rw [checkC_eq_none hw hwf, followOn_word]
  exact checkM_eq_none f.bits_word f.wf_body

end Sys2Proof

/-! PROOFS. The decoder reads back what the encoder wrote (R84 to R99). -/

namespace Sys2Proof

open Sys2Proof.Machine

/-! The decoder of a class (R86, R87). -/

/-- A word whose opcode is one of its class's own, and whose fields pass, is read. -/
theorem withOp_reading {α : Type} {o : Option α} {x : α} {chk : α → Option DecErr} {v : α → Option View} {r : View} (op : Nat)
    (ho : o = some x) (hchk : chk x = none) (hv : v x = some r) : withOp op o (fun x => reading (chk x) (v x)) = .ok r := by
  rw [ho, withOp, hchk, hv]
  rfl

theorem decodeClass_s {op : SOp} {b : SBody} {w : Nat} (hw : bits w 87 0 = b.pack) (hwf : b.wf op = true) (h : Hdr) (w2 : Nat) :
    decodeClass .s h op.code w w2 = .ok (.s op h b) := by
  obtain ⟨h0, h1⟩ := op.code_range
  rw [decodeClass, if_neg (by omega), if_neg (by omega), if_neg (by omega), if_neg (by omega)]
  exact withOp_reading _ op.ofCode_code (checkS_eq_none hw hwf) (by rw [SBody.ofWord_eq hw]; rfl)

theorem decodeClass_v {op : VOp} {b : VBody} {w : Nat} (hw : bits w 87 0 = b.pack) (hwf : b.wfV op = true) (h : Hdr) (w2 : Nat) :
    decodeClass .v h op.code w w2 = .ok (.v op h b) := by
  obtain ⟨h0, h1⟩ := op.code_range
  rw [decodeClass, if_neg (by omega), if_neg (by omega), if_neg (by omega), if_neg (by omega)]
  exact withOp_reading _ op.ofCode_code (checkV_eq_none hw hwf) (by rw [VBody.ofWord_eq hw]; rfl)

/-- A word's low bit is that of VX. -/
theorem VBody.low_bit {b : VBody} {w : Nat} (hw : bits w 87 0 = b.pack) : w % 2 = b.vx.toNat % 2 := by
  have hvx : bits w 17 0 = b.vx.toNat := bits_field b.fields_fit hw 12 rfl rfl rfl (by decide)
  rw [← hvx, bits_eq_mod, Nat.mod_mod_of_dvd _ (by decide)]

/-- The low bit of VX tells `fxtrExp` from `fxtrMan`. -/
theorem FOp.ofCode_code {op : FOp} {b : VBody} {w : Nat} (hw : bits w 87 0 = b.pack) (hwf : b.wfF op = true) :
    FOp.ofCode op.code (w % 2) = some op := by
  unfold VBody.wfF at hwf
  rw [VBody.low_bit hw]
  cases op with
  | fxtrExp | fxtrMan => simp_all [FOp.ofCode, FOp.code]
  | _ => rfl

theorem decodeClass_f {op : FOp} {b : VBody} {w : Nat} (hw : bits w 87 0 = b.pack) (hwf : b.wfF op = true) (h : Hdr) (w2 : Nat) :
    decodeClass .f h op.code w w2 = .ok (.f op h b) := by
  obtain ⟨h0, h1⟩ := op.code_range
  rw [decodeClass, if_neg (by omega), if_neg (by omega), if_neg (by omega), if_neg (by omega)]
  exact withOp_reading _ (FOp.ofCode_code hw hwf) (checkF_eq_none hw hwf) (by rw [VBody.ofWord_eq hw]; rfl)

/-- The low bit of DX tells `dlinSet` from `dlinGet`. -/
theorem DOp.ofCode_code {op : DOp} {b : VBody} {w : Nat} (hw : bits w 87 0 = b.pack) (hwf : b.wfD op = true) :
    DOp.ofCode op.code (w % 2) = some op := by
  unfold VBody.wfD at hwf
  rw [VBody.low_bit hw]
  cases op with
  | dlinSet | dlinGet => simp_all [DOp.ofCode, DOp.code]
  | _ => rfl

theorem decodeClass_d {op : DOp} {b : VBody} {w : Nat} (hw : bits w 87 0 = b.pack) (hwf : b.wfD op = true) (h : Hdr) (w2 : Nat) :
    decodeClass .d h op.code w w2 = .ok (.d op h b) := by
  obtain ⟨h0, h1⟩ := op.code_range
  rw [decodeClass, if_neg (by omega), if_neg (by omega), if_neg (by omega), if_neg (by omega)]
  exact withOp_reading _ (DOp.ofCode_code hw hwf) (checkD_eq_none hw hwf) (by rw [VBody.ofWord_eq hw]; rfl)

/-- The low bit of MX tells `macpCpy` from `macpAdd`. -/
theorem MOp.ofCode_code {op : MOp} {b : MBody} {w : Nat} (hw : bits w 87 0 = b.pack) (hwf : b.wf op = true) :
    MOp.ofCode op.code (bits w 42 42) = some op := by
  obtain ⟨-, -, -, -, -, hmx, -⟩ := MBody.bits_word hw
  have hsel : bits w 42 42 = b.mx.toNat % 2 := by
    rw [← hmx, show bits w 49 42 % 2 = bits (bits w 49 42) 0 0 from (bits_eq_mod _ 0).symm, bits_bits (by decide)]
  unfold MBody.wf at hwf
  rw [hsel]
  cases op with
  | macpCpy | macpAdd => simp_all [MOp.ofCode, MOp.code]
  | _ => rfl

theorem decodeClass_m {op : MOp} {b : MBody} {w : Nat} (hw : bits w 87 0 = b.pack) (hwf : b.wf op = true) (h : Hdr) (w2 : Nat) :
    decodeClass .m h op.code w w2 = .ok (.m op h b) := by
  obtain ⟨h0, h1⟩ := op.code_range
  rw [decodeClass, if_neg (by omega), if_neg (by omega), if_neg (by omega), if_neg (by omega)]
  exact withOp_reading _ (MOp.ofCode_code hw hwf) (checkM_eq_none hw hwf) (by rw [MBody.ofWord_eq hw]; rfl)

theorem decodeClass_c {op : COp} {b : CBody} {w : Nat} (hw : bits w 87 0 = b.pack) (hwf : b.wf op = true) (h : Hdr) (w2 : Nat) :
    decodeClass .c h op.code w w2 = .ok (.c op h b) := by
  obtain ⟨h0, h1⟩ := op.code_range
  rw [decodeClass, if_neg (by omega), if_neg (by omega), if_neg (by omega), if_neg (by omega)]
  rw [if_neg op.code_ne_cpf]
  exact withOp_reading _ op.ofCode_code (checkC_eq_none hw hwf) (by rw [CBody.ofWord_eq hw]; rfl)

theorem decodeClass_cpf {b : CBody} {w : Nat} (hw : bits w 87 0 = b.pack) (hwf : b.wf .cpt = true) (h : Hdr) (f : FollowOn) :
    decodeClass .c h 3 w f.word = .ok (.cpf h b f) := by
  rw [decodeClass, if_neg (by decide), if_neg (by decide), if_neg (by decide), if_neg (by decide)]
  rw [if_pos rfl, checkCpf_eq_none hw hwf, CBody.ofWord_eq hw, followOn_word]
  rfl

theorem decodeClass_n {op : NOp} {b : NBody} {w : Nat} (hw : bits w 87 0 = b.pack) (hwf : b.wf op = true) (h : Hdr) (w2 : Nat) :
    decodeClass .n h op.code w w2 = .ok (.n op h b) := by
  obtain ⟨h0, h1⟩ := op.code_range
  rw [decodeClass, if_neg (by omega), if_neg (by omega), if_neg (by omega), if_neg (by omega)]
  exact withOp_reading _ op.ofCode_code (checkN_eq_none hw hwf) (by rw [NBody.ofWord_eq hw]; rfl)

theorem decodeClass_nop {g : Guard} {w : Nat} (hw : bits w 87 0 = g.pack) (e : Cls) (h : Hdr) (w2 : Nat) :
    decodeClass e h 0 w w2 = .ok (.nop e h g) := by
  obtain ⟨hg, hchk⟩ := checkNop_eq_none hw
  unfold decodeClass
  rw [if_pos rfl, hchk, hg, Guard.ofCode_code]
  rfl

theorem decodeClass_halt {g : Guard} {w : Nat} (hw : bits w 87 0 = g.pack) (e : Cls) (h : Hdr) (w2 : Nat) :
    decodeClass e h 0xFF w w2 = .ok (.halt e h g) := by
  obtain ⟨hg, hchk⟩ := checkNop_eq_none hw
  unfold decodeClass
  rw [if_neg (by decide), if_pos rfl, hchk, hg, Guard.ofCode_code]
  rfl

/-- A well-formed back-edge word outside class S has no transport. -/
theorem LoopBody.xl_of_wf {e : Cls} {rot : Bool} {l : LoopBody} (h : l.wf e rot = true) (he : e ≠ .s) : l.xl = .none ∧ l.xq = 0 := by
  simp only [LoopBody.wf, Bool.and_eq_true, and_assoc] at h
  obtain ⟨-, hxl, hxq⟩ := h
  have hnone : l.xl = .none := by simpa [he] using hxl
  exact ⟨hnone, by simpa [hnone] using hxq⟩

theorem decodeClass_lbr {e : Cls} {l : LoopBody} {w : Nat} (hw : bits w 87 0 = l.pack e) (hwf : l.wf e false = true) (h : Hdr) (w2 : Nat) :
    decodeClass e h 0xFE w w2 = .ok (.lbr e h l) := by
  unfold decodeClass
  rw [if_neg (by decide), if_neg (by decide), if_pos rfl, checkLoop_eq_none hw hwf,
    LoopBody.ofWord_eq hw (LoopBody.xl_of_wf hwf)]
  rfl

theorem decodeClass_rlbr {e : Cls} {l : LoopBody} {w : Nat} (hw : bits w 87 0 = l.pack e) (hwf : l.wf e true = true) (h : Hdr) (w2 : Nat) :
    decodeClass e h 0xFD w w2 = .ok (.rlbr e h l) := by
  unfold decodeClass
  rw [if_neg (by decide), if_neg (by decide), if_neg (by decide), if_pos rfl, checkLoop_eq_none hw hwf,
    LoopBody.ofWord_eq hw (LoopBody.xl_of_wf hwf)]
  rfl

/-! The header (R86). -/

theorem Hdr.pack_eq (h : Hdr) (cls op body : Nat) : h.pack cls op body = packFields (h.fields cls op) * 2 ^ 88 + body := rfl

@[simp] theorem Hdr.ofFields_fields (h : Hdr) :
    Hdr.ofFields h.idle.toNat h.swait.val h.spost.val h.trk.val
      (8 * b1 h.peekA + 4 * b1 h.peekB + 2 * b1 h.peekC + b1 h.peekD) = h := by
  obtain ⟨idle, swait, spost, trk, a, b, c, d⟩ := h
  have hpeek : ∀ a b c d : Bool, let x := 8 * b1 a + 4 * b1 b + 2 * b1 c + b1 d
      (x / 8 % 2 == 1) = a ∧ (x / 4 % 2 == 1) = b ∧ (x / 2 % 2 == 1) = c ∧ (x % 2 == 1) = d := by decide
  obtain ⟨ha, hb, hc, hd⟩ := hpeek a b c d
  simp only [Hdr.ofFields, ha, hb, hc, hd, fin_val, BitVec.ofNat_toNat, BitVec.setWidth_eq]

section
variable (h : Hdr) {cls op body : Nat} (hcls : cls < 2 ^ 4) (hop : op < 2 ^ 8) (hbody : body < 2 ^ 88)
include hbody

theorem Hdr.bits_body : bits (h.pack cls op body) 87 0 = body := by
  rw [bits_eq_mod, h.pack_eq, Nat.mul_add_mod_self_right, Nat.mod_eq_of_lt hbody]

include hcls hop

theorem Hdr.bits_header : bits (h.pack cls op body) 127 88 = packFields (h.fields cls op) := by
  have hlt : packFields (h.fields cls op) < 2 ^ 40 := packFields_lt (h.fields_fit hcls hop)
  rw [bits, h.pack_eq, Nat.add_comm, Nat.add_mul_div_right _ _ (Nat.two_pow_pos 88), Nat.div_eq_of_lt hbody, Nat.zero_add,
    Nat.mod_eq_of_lt hlt]

theorem Hdr.pack_lt : h.pack cls op body < 2 ^ 128 := by
  have hlt : packFields (h.fields cls op) < 2 ^ 40 := packFields_lt (h.fields_fit hcls hop)
  rw [h.pack_eq]
  omega

theorem Hdr.unpack_header : unpackFields hdrLayout (bits (h.pack cls op body) 127 88) = (h.fields cls op).map Prod.snd := by
  rw [h.bits_header hcls hop hbody]
  exact unpackFields_packFields (h.fields_fit hcls hop)

end

theorem Cls.code_lt (e : Cls) : e.code < 2 ^ 4 := by cases e <;> decide

/-- A word of a class is read by the class's decoder, in the queue that runs the class (R86). -/
theorem decodeView_pack {e : Cls} (h : Hdr) {op body : Nat} (hop : op < 2 ^ 8) (hbody : body < 2 ^ 88) (w2 : Nat) :
    decodeView e.eng (h.pack e.code op body) w2 = decodeClass e h op (h.pack e.code op body) w2 := by
  have hcls : e.code ≠ 0 ∧ e.code ≠ 15 := by cases e <;> decide
  unfold decodeView
  rw [h.unpack_header e.code_lt hop hbody]
  simp only [Hdr.fields, List.map_cons, List.map_nil, Hdr.ofFields_fields, hcls.1, hcls.2, if_false, Cls.ofCode_code, if_true]

/-- A break word is read in every queue (R97). -/
theorem decodeView_brk (e : Eng) (h : Hdr) (code : BitVec 16) (w2 : Nat) :
    decodeView e (h.pack 15 0 code.toNat) w2 = .ok (.brk h code) := by
  have hcode := code.isLt
  have hbody : code.toNat < 2 ^ 88 := by omega
  have hw := h.bits_body (cls := 15) (op := 0) hbody
  have hlow : h.pack 15 0 code.toNat % 65536 = code.toNat := by
    rw [show (65536 : Nat) = 2 ^ (15 + 1) from rfl, ← bits_eq_mod, bits_of_body hw (by decide), bits_eq_mod, Nat.mod_eq_of_lt hcode]
  have hhigh : bits (h.pack 15 0 code.toNat) 87 16 = 0 := by
    rw [bits_of_body hw (by decide), bits, Nat.div_eq_of_lt hcode, Nat.zero_mod]
  unfold decodeView
  rw [h.unpack_header (by decide) (by decide) hbody]
  simp only [Hdr.fields, List.map_cons, List.map_nil, Hdr.ofFields_fields, hlow]
  rw [verdict_eq_none (and_maskOf_eq_zero.mpr hhigh) firstFail_nil, BitVec.ofNat_toNat, BitVec.setWidth_eq]
  rfl

/-! Words of a view. -/

theorem SBody.pack_lt (b : SBody) : b.pack < 2 ^ 88 := packFields_lt b.fields_fit
theorem VBody.pack_lt (b : VBody) : b.pack < 2 ^ 88 := packFields_lt b.fields_fit
theorem MBody.pack_lt (b : MBody) : b.pack < 2 ^ 88 := packFields_lt b.fields_fit
theorem CBody.pack_lt (b : CBody) : b.pack < 2 ^ 88 := packFields_lt b.fields_fit
theorem NBody.pack_lt (b : NBody) : b.pack < 2 ^ 88 := packFields_lt b.fields_fit
theorem FollowOn.word_lt (f : FollowOn) : f.word < 2 ^ 128 := packFields_lt f.fields_fit

theorem View.words_lt {v : View} {w : Nat} (hw : w ∈ v.words) : w < 2 ^ 128 := by
  cases v with
  | s op h b =>
    obtain rfl := List.mem_singleton.mp hw
    exact h.pack_lt (by decide) (Nat.lt_trans op.code_range.2 (by decide)) b.pack_lt
  | v op h b =>
    obtain rfl := List.mem_singleton.mp hw
    exact h.pack_lt (by decide) (Nat.lt_trans op.code_range.2 (by decide)) b.pack_lt
  | f op h b =>
    obtain rfl := List.mem_singleton.mp hw
    exact h.pack_lt (by decide) (Nat.lt_trans op.code_range.2 (by decide)) b.pack_lt
  | d op h b =>
    obtain rfl := List.mem_singleton.mp hw
    exact h.pack_lt (by decide) (Nat.lt_trans op.code_range.2 (by decide)) b.pack_lt
  | m op h b =>
    obtain rfl := List.mem_singleton.mp hw
    exact h.pack_lt (by decide) (Nat.lt_trans op.code_range.2 (by decide)) b.pack_lt
  | c op h b =>
    obtain rfl := List.mem_singleton.mp hw
    exact h.pack_lt (by decide) (Nat.lt_trans op.code_range.2 (by decide)) b.pack_lt
  | n op h b =>
    obtain rfl := List.mem_singleton.mp hw
    exact h.pack_lt (by decide) (Nat.lt_trans op.code_range.2 (by decide)) b.pack_lt
  | cpf h b f =>
    obtain rfl | hw := List.mem_cons.mp hw
    · exact h.pack_lt (by decide) (by decide) b.pack_lt
    · obtain rfl := List.mem_singleton.mp hw
      exact f.word_lt
  | nop e h g | halt e h g =>
    obtain rfl := List.mem_singleton.mp hw
    exact h.pack_lt e.code_lt (by decide) g.pack_lt
  | lbr e h l | rlbr e h l =>
    obtain rfl := List.mem_singleton.mp hw
    exact h.pack_lt e.code_lt (by decide) (l.pack_lt e)
  | brk h code =>
    obtain rfl := List.mem_singleton.mp hw
    exact h.pack_lt (by decide) (by decide) (Nat.lt_trans code.isLt (by decide))

/-- The words of a well-formed view decode to it in the queue of its class. -/
theorem View.decodeView_words {v : View} (hwf : v.wf = true) {w w2 : Nat} (hw : v.words = [w] ∨ v.words = [w, w2]) :
    decodeView v.eng w w2 = .ok v := by
  cases v with
  | s op h b =>
    obtain rfl : h.pack 1 op.code b.pack = w := by simpa [View.words] using hw
    exact (decodeView_pack (e := .s) h (Nat.lt_trans op.code_range.2 (by decide)) b.pack_lt w2).trans
      (decodeClass_s (h.bits_body b.pack_lt) hwf h w2)
  | v op h b =>
    obtain rfl : h.pack 2 op.code b.pack = w := by simpa [View.words] using hw
    exact (decodeView_pack (e := .v) h (Nat.lt_trans op.code_range.2 (by decide)) b.pack_lt w2).trans
      (decodeClass_v (h.bits_body b.pack_lt) hwf h w2)
  | f op h b =>
    obtain rfl : h.pack 3 op.code b.pack = w := by simpa [View.words] using hw
    exact (decodeView_pack (e := .f) h (Nat.lt_trans op.code_range.2 (by decide)) b.pack_lt w2).trans
      (decodeClass_f (h.bits_body b.pack_lt) hwf h w2)
  | d op h b =>
    obtain rfl : h.pack 7 op.code b.pack = w := by simpa [View.words] using hw
    exact (decodeView_pack (e := .d) h (Nat.lt_trans op.code_range.2 (by decide)) b.pack_lt w2).trans
      (decodeClass_d (h.bits_body b.pack_lt) hwf h w2)
  | m op h b =>
    obtain rfl : h.pack 4 op.code b.pack = w := by simpa [View.words] using hw
    exact (decodeView_pack (e := .m) h (Nat.lt_trans op.code_range.2 (by decide)) b.pack_lt w2).trans
      (decodeClass_m (h.bits_body b.pack_lt) hwf h w2)
  | c op h b =>
    obtain rfl : h.pack 5 op.code b.pack = w := by simpa [View.words] using hw
    exact (decodeView_pack (e := .c) h (Nat.lt_trans op.code_range.2 (by decide)) b.pack_lt w2).trans
      (decodeClass_c (h.bits_body b.pack_lt) hwf h w2)
  | n op h b =>
    obtain rfl : h.pack 6 op.code b.pack = w := by simpa [View.words] using hw
    exact (decodeView_pack (e := .n) h (Nat.lt_trans op.code_range.2 (by decide)) b.pack_lt w2).trans
      (decodeClass_n (h.bits_body b.pack_lt) hwf h w2)
  | cpf h b f =>
    obtain ⟨rfl, rfl⟩ : h.pack 5 3 b.pack = w ∧ f.word = w2 := by simpa [View.words] using hw
    exact (decodeView_pack (e := .c) h (by decide) b.pack_lt f.word).trans (decodeClass_cpf (h.bits_body b.pack_lt) hwf h f)
  | nop e h g =>
    obtain rfl : h.pack e.code 0 g.pack = w := by simpa [View.words] using hw
    exact (decodeView_pack h (by decide) g.pack_lt w2).trans (decodeClass_nop (h.bits_body g.pack_lt) e h w2)
  | halt e h g =>
    obtain rfl : h.pack e.code 0xFF g.pack = w := by simpa [View.words] using hw
    exact (decodeView_pack h (by decide) g.pack_lt w2).trans (decodeClass_halt (h.bits_body g.pack_lt) e h w2)
  | lbr e h l =>
    obtain rfl : h.pack e.code 0xFE (l.pack e) = w := by simpa [View.words] using hw
    exact (decodeView_pack h (by decide) (l.pack_lt e) w2).trans (decodeClass_lbr (h.bits_body (l.pack_lt e)) hwf h w2)
  | rlbr e h l =>
    obtain rfl : h.pack e.code 0xFD (l.pack e) = w := by simpa [View.words] using hw
    exact (decodeView_pack h (by decide) (l.pack_lt e) w2).trans (decodeClass_rlbr (h.bits_body (l.pack_lt e)) hwf h w2)
  | brk h code =>
    obtain rfl : h.pack 15 0 code.toNat = w := by simpa [View.words] using hw
    exact decodeView_brk .s h code w2

theorem View.length_words (v : View) : v.words.length = v.instr.words := by
  cases v with
  | s op h b | v op h b | f op h b | d op h b | m op h b | c op h b | n op h b => cases op <;> rfl
  | _ => rfl

/-- An instruction that has a view is the view's instruction. -/
theorem Instr.eq_of_view {i : Instr} {v : View} (h : i.view = some v) : i = v.instr := by
  cases i <;> cases h <;> rfl

/-- Settles O57: each field of a packed word reads back (`bits_packFields`), so every check of R87 asks of the word what
well-formedness says of the fields, and the decoder rebuilds them (`View.decodeView_words`). -/
theorem ringWordsRoundTrip : Obligations.RingWordsRoundTrip := by
  intro i v hview hwf
  have henc : encode i = v.words := by rw [encode, hview]
  have hvwf : v.wf = true := by rwa [Instr.WellFormed, hview] at hwf
  obtain rfl := Instr.eq_of_view hview
  rw [henc]
  have hdec {w w2 : Nat} (hw : v.words = [w] ∨ v.words = [w, w2]) : decodeWord v.eng w w2 = .ok v.instr := by
    rw [decodeWord, View.decodeView_words hvwf hw]
    rfl
  refine ⟨v.length_words, fun w hw => View.words_lt hw, fun w hw w2 => hdec (.inl hw), fun w w2 hw => hdec (.inr hw), ?brk⟩
  case brk =>
    intro h c e w w2 hi hw
    obtain rfl : v = .brk h c := by
      rw [hi] at hview
      exact (Option.some.inj hview).symm
    obtain rfl : h.pack 15 0 c.toNat = w := by simpa [View.words] using hw
    rw [decodeWord, decodeView_brk]
    rfl

end Sys2Proof

/-! PROOFS. Words of every class and the trap forms (R97, R99, R134, R259): back-edges by what `Strand.backEdge` gives, traps by
what `State.wordTrap` makes of their class. -/

namespace Sys2Proof.Machine

section
variable (s : State)

theorem exec_nop (e : Cls) (h : Hdr) (g : Guard) : exec (.nop e h g) s = execNop e h g s := rfl
theorem exec_halt (e : Cls) (h : Hdr) (g : Guard) : exec (.halt e h g) s = execHalt e h g s := rfl
theorem exec_lbr (e : Cls) (h : Hdr) (l : LoopBody) : exec (.lbr e h l) s = execLbr e h l s := rfl
theorem exec_rlbr (e : Cls) (h : Hdr) (l : LoopBody) : exec (.rlbr e h l) s = execRlbr e h l s := rfl
theorem exec_tret (h : Hdr) (b : SBody) : exec (.tret h b) s = execTret h b s := rfl
theorem exec_swi (h : Hdr) (b : SBody) : exec (.swi h b) s = execSwi h b s := rfl
theorem exec_brk (h : Hdr) (code : BitVec 16) : exec (.brk h code) s = execBrk h code s := rfl

end

theorem State.acting_cur (s : State) (v : View) : (s.acting v).cur = s.cur := s.begun_cur _ _ _

theorem State.acting_rot (s : State) (v : View) : (s.acting v).t.rot = s.t.rot := by
  rw [Strand.rot, State.acting, State.begun_t_ctx, Strand.rot]

/-! Back-edges (R260, R261). -/

/-- The strand as the back-edges before a word in its strand cycle leave it. -/
def Strand.edgesBefore (t : Strand) : Strand := t.closing.foldl (fun t b => t.applyBackEdge b) t

/-- The stage predicates that `rlbr` leaves at a count of `c` (R261). -/
def Strand.turned (t : Strand) (stg c : Nat) : List Bool :=
  (List.range (stg + 1)).map fun j => if j = 0 then decide (2 ≤ c) else t.pred (7 + j)

theorem Strand.backEdge_none (t : Strand) (e : Eng) (n : Fin 8) :
    t.backEdge e n none =
      ({ eng := e, lc := n, count := t.edgesBefore.lcount e n.val - 1, stages := none },
        decide (2 ≤ t.edgesBefore.lcount e n.val)) := rfl

theorem Strand.backEdge_some (t : Strand) (e : Eng) (n : Fin 8) (stg : Nat) :
    t.backEdge e n (some (stg + 1)) =
      let ps := t.edgesBefore.turned stg (t.edgesBefore.lcount e n.val)
      ({ eng := e, lc := n, count := t.edgesBefore.lcount e n.val - 1
         stages := some (ps, (t.edgesBefore.ctx.rrb.toNat + 15) % 16) }, decide (true ∈ ps)) := by
  have hps : (List.range (stg + 1)).map (fun j => if j = 0 then decide (1 ≤ t.edgesBefore.lcount e n.val - 1)
      else t.edgesBefore.pred (8 + j - 1)) = t.edgesBefore.turned stg (t.edgesBefore.lcount e n.val) := by
    have hcount : (1 ≤ t.edgesBefore.lcount e n.val - 1) ↔ 2 ≤ t.edgesBefore.lcount e n.val := by omega
    refine List.map_congr_left fun j _ => ?_
    simp only [hcount, show 8 + j - 1 = 7 + j by omega]
  have hany : ∀ ps : List Bool, ps.any id = decide (true ∈ ps) := fun ps => by simp [List.any_eq]
  unfold Strand.backEdge
  dsimp only
  rw [← hany]
  exact hps ▸ rfl

/-- What a back-edge word leaves: its effect for the close of the strand cycle, and its queue at its target if it is taken. -/
theorem loopOp_eq {s : State} {v : View} {e : Cls} {l : LoopBody} {t : Strand} {stages : Option Nat} {b : BackEdge} {taken : Prop}
    [Decidable taken] (hmoved : (if e = .s then (s.acting v).t.loopTransport l else .ok (s.acting v).t) = .ok t)
    (hb : t.backEdge e.eng l.lc stages = (b, decide taken)) :
    loopOp e l stages (s.acting v) =
      .ok { s := (s.acting v).setStrand s.cur
              (if taken then ({ t with closing := t.closing ++ [b] } : Strand).jump e.eng l.target.toNat
               else { t with closing := t.closing ++ [b] }) } := by
  unfold loopOp
  rw [hmoved]
  simp only [hb, s.acting_cur, decide_eq_true_eq]

/-! Words that trap. -/

theorem ascii2_traps_ne : ascii2 'S' 'W' ≠ ascii2 'P' 'F' ∧ ascii2 'S' 'W' ≠ ascii2 'S' 'C' ∧ ascii2 'B' 'K' ≠ ascii2 'P' 'F' ∧
    ascii2 'B' 'K' ≠ ascii2 'S' 'C' ∧ ascii2 'B' 'K' ≠ ascii2 'S' 'W' := by decide

/-- The trap of a break word is the word's only effect. -/
theorem State.wordTrap_bk (s : State) (e : Eng) (code : Nat) : s.wordTrap e (trapBK code) = s.takeTrap (trapBK code) e.num (e.num + 1) := by
  obtain ⟨-, -, hpf, -, hsw⟩ := ascii2_traps_ne
  unfold State.wordTrap trapBK
  simp only [hpf, hsw, false_and, if_false]

/-- Outside a handler the word of a software trap counts as issued (R37, R134). -/
theorem State.wordTrap_sw {s : State} (hfree : s.t.frozen = false) (e : Eng) (code : Nat) :
    s.wordTrap e (trapSW code) = (s.moveQueue e ((s.t.ctl e).idx + 1)).takeTrap (trapSW code) e.num 2 := by
  obtain ⟨hpf, -⟩ := ascii2_traps_ne
  unfold State.wordTrap trapSW
  simp only [hpf, hfree, Bool.not_false, and_self, if_true, if_false]

theorem State.unstall_t_frozen (s : State) : s.unstall.t.frozen = s.t.frozen := by
  rw [Strand.frozen, State.unstall_t_mode, Strand.frozen]

theorem State.unstall_t_ctl (s : State) (e : Eng) : s.unstall.t.ctl e = s.t.ctl e := by
  unfold Strand.ctl
  rw [State.unstall_t_frozen, State.unstall_t_hqueue, State.unstall_t_queues]

/-- A word whose operation raises a trap of its own, which nothing of debug mode stands above. -/
theorem State.issueOn_raises {s : State} {v : View} {e : Eng} {words : Nat} {tr : Trap} (hr : Ready s v)
    (hsus : tr.suspends = false) (hsc : tr.cls ≠ ascii2 'S' 'C') :
    s.issueOn v e words (fun _ => trapStop tr) = s.unstall.wordTrap e tr :=
  State.issueOn_trap hr rfl (State.laterStop_eq (.inr ⟨hsus, fun h => hsc h.1⟩))

/-- Settles O12: each word is ready, so `State.issue_ready` and `State.issueOn_trap` give what its operation answers; a back-edge
word's is `loopOp_eq`. -/
theorem everyClassWordsComplete : Obligations.EveryClassWordsComplete := by
  intro s e h g l code b x y z t halted before c edge turned loops rotates moved back
  obtain ⟨-, hsw, -, hbk, -⟩ := ascii2_traps_ne
  refine ⟨?nop, ?halt, ?lbr, ?rlbr, ?tret, ?swi, ?brk⟩
  case nop =>
    intro hr hq
    rw [exec_nop, execNop, State.issue_ready hr rfl hq]
  case halt =>
    intro hr hq
    rw [exec_halt, execHalt, State.issue_ready hr rfl hq]
  case lbr =>
    intro hr hmoved hq
    rw [exec_lbr, execLbr, State.issue_ready hr (loopOp_eq hmoved (t.backEdge_none e.eng l.lc)) hq]
    rfl
  case rlbr =>
    intro hr hmoved hq hrot
    have hop := loopOp_eq hmoved (t.backEdge_some e.eng l.lc l.stg.val)
    rw [exec_rlbr, execRlbr, State.issue_ready hr _ hq]
    simp only [hop, State.acting_rot, hrot, if_true]
    rfl
  case tret =>
    intro w
    rw [exec_tret, execTret]
    exact w.issue (by rw [State.reading_t])
  case swi =>
    intro hr hfree
    rw [exec_swi, execSwi, State.issue, State.issueOn_raises hr rfl hsw,
      State.wordTrap_sw ((s.unstall_t_frozen).trans hfree), State.unstall_t_ctl]
    rfl
  case brk =>
    intro hr
    rw [exec_brk, execBrk, State.issueOn_raises hr rfl hbk, State.wordTrap_bk]

end Sys2Proof.Machine

/-! PROOFS. Ends of strands and launches (R99, R295, R302, R306, R338, R354): what each event does in the case that a statement
names, and a node's STATUS read back. -/

namespace Sys2Proof.Machine

section
variable (s : State)

theorem exec_strandEnd (x : Nat) : exec (.strandEnd x) s = execStrandEnd x s := rfl
theorem exec_launchComplete (q k : Nat) : exec (.launchComplete q k) s = execLaunchComplete q k s := rfl
theorem exec_tresumeEnd (v val : Nat) (byPf : Bool) : exec (.tresumeEnd v val byPf) s = execTresumeEnd v val byPf s := rfl

end

/-! The end of a strand (R99, R302). -/

theorem execStrandEnd_of_finished {s : State} {x : Nat} (hrun : (s.strandAt x).mode = .run) (hfin : (s.strandAt x).finished = true) :
    execStrandEnd x s = .next ((s.releaseStrand x).leaveLaunch (s.strandAt x).node x) := by
  simp [execStrandEnd, hrun, hfin]

theorem execStrandEnd_of_stopped {s : State} {x : Nat} (hstop : (s.strandAt x).mode = .stopped) :
    execStrandEnd x s = .next (if (s.strandAt x).asyncs.any Async.flying then s.schedule (s.now + 1) (.strandEnd x)
      else (s.releaseStrand x).leaveLaunch (s.strandAt x).node x) := by
  simp [execStrandEnd, hstop]

/-! A node's STATUS (R303). -/

/-- The three fields of a STATUS read back. -/
theorem statusOf_fields {lrc detail code : Nat} (hdetail : detail < 2 ^ 24) (hcode : code < 2 ^ 32) :
    statusOf lrc detail code / 2 ^ 56 = lrc ∧ bits (statusOf lrc detail code) 55 32 = detail ∧
      bits (statusOf lrc detail code) 31 0 = code := by
  have hpack : statusOf lrc detail code = lrc * 2 ^ 56 + (detail * 2 ^ 32 + code) := by
    rw [statusOf, Nat.mod_eq_of_lt hdetail, Nat.mod_eq_of_lt hcode]
    simp [packFields]
  simp only [bits, hpack]
  omega

/-! The end of a launch (R302, R306). -/

theorem Launch.allEnded_iff (l : Launch) : l.allEnded = true ↔ ∀ y ∈ l.members, y ∈ l.ended := by
  simp [Launch.allEnded]

section
variable {s : State} {q k : Nat} {l : Launch} (hl : s.launchOf q k = some l) (hrun : l.stage = .running)
include hl hrun

theorem execLaunchComplete_of_fate (hend : l.allEnded = true) {st : Nat} (hfate : l.fate = some st) :
    execLaunchComplete q k s = .next (s.finishLaunch l st) := by
  simp [execLaunchComplete, hl, hrun, hend, hfate]

theorem execLaunchComplete_of_no_fate (hend : l.allEnded = true) (hfate : l.fate = none) :
    execLaunchComplete q k s = .next (if l.rep + 1 < l.reps then
      (s.setLaunch { l with stage := .prologue, rep := l.rep + 1, members := [], ended := [], symm := none, img := [] }).later
        (.repetitionStart q k)
      else s.finishLaunch l (statusOf 0 l.reps 0)) := by
  simp [execLaunchComplete, hl, hrun, hend, hfate]

theorem execBudgetExpiry_of_run_out (hbudget : lrBudget l.copy ≠ 0) (hout : l.since + s.cyclesOf (lrBudget l.copy) ≤ s.now)
    (hfree : s.handlerHeld 3 = false) :
    execBudgetExpiry q k s = .next ((s.setLaunch
      { l with stage := .stopping, saveBy := none, quoins := []
               fate := some (l.fate.getD (statusOf 0x0B ((s.now - l.since) / s.cyclesOf 1) 0)) }).schedule s.now (.preemptSave q k)) := by
  simp [execBudgetExpiry, hl, hrun, hbudget, Nat.not_lt.mpr hout, hfree]

end

/-! A re-phase (R295). -/

/-- The strand with its origin `d` further on, held until its strand cycle opens there. -/
def Strand.rephased (t : Strand) (d : Nat) : Strand :=
  let moved : Strand := { t with origin := t.origin + d, rephase := none }
  { moved with heldUntil := moved.key.getD 0 }

theorem execRephasePointApply_alone {s : State} {x d : Nat} (hre : (s.strandAt x).rephase = some (d, none)) :
    execRephasePointApply x s = .next (s.setStrand x ((s.strandAt x).rephased d)) := by
  rw [execRephasePointApply, hre]
  rfl

theorem execRephasePointApply_for_node {s : State} {x d : Nat} {m : Nat × Nat} (hre : (s.strandAt x).rephase = some (d, some m)) :
    execRephasePointApply x s = .next ((s.setStrand x ((s.strandAt x).rephased d)).completeNode m.1 m.2 0 0 0) := by
  rw [execRephasePointApply, hre]
  rfl

/-- Settles O35: each event is the branch of its function that the hypotheses choose; a completion without a fate ends the node with
a STATUS whose fields are LRC 0 and the repetitions (`statusOf_fields`). -/
theorem strandsAndLaunchesEnd : Obligations.StrandsAndLaunchesEnd := by
  intro s x q k v val byPf l d n t moved applied y freed ended
  refine ⟨?finished, ?stopped, ?flying, ?last, ?again, ?fated, ?budget, ?resumed, ?ignored, ?applied, ?appliedNode⟩
  case finished => exact fun hrun hfin => execStrandEnd_of_finished hrun hfin
  case stopped =>
    intro hstop hnone
    rw [exec_strandEnd, execStrandEnd_of_stopped hstop, if_neg (by simpa using hnone)]
  case flying =>
    intro hstop hsome
    rw [exec_strandEnd, execStrandEnd_of_stopped hstop, if_pos (by simpa using hsome)]
  case last =>
    intro hl hrun hend hfate hlast hreps
    obtain ⟨hlrc, hdetail, hcode⟩ := statusOf_fields (lrc := 0) (code := 0) hreps (by decide)
    rw [exec_launchComplete, execLaunchComplete_of_no_fate hl hrun (l.allEnded_iff.mpr hend) hfate, if_neg (Nat.not_lt.mpr hlast),
      State.finishLaunch, hlrc, hdetail, hcode]
  case again =>
    intro hl hrun hend hfate hmore
    rw [exec_launchComplete, execLaunchComplete_of_no_fate hl hrun (l.allEnded_iff.mpr hend) hfate, if_pos hmore]
  case fated =>
    exact fun st hl hrun hend hfate => execLaunchComplete_of_fate hl hrun (l.allEnded_iff.mpr hend) hfate
  case budget => exact fun hl hrun hbudget hout hfree => execBudgetExpiry_of_run_out hl hrun hbudget hout hfree
  case resumed =>
    intro hres
    rw [exec_tresumeEnd, execTresumeEnd, hres]
    rfl
  case ignored =>
    intro hres
    rw [exec_tresumeEnd, execTresumeEnd, hres]
    rfl
  case applied => exact fun hre => execRephasePointApply_alone hre
  case appliedNode => exact fun m hre => execRephasePointApply_for_node hre

end Sys2Proof.Machine

/-! PROOFS. The words of the spec's listings (R86 to R99, R307). -/

namespace Sys2Proof

open Sys2Proof.Machine

/-- Settles O59: the decoder computes each listed word, whatever follows it in the ring. -/
theorem decodesListedWords : Obligations.DecodesListedWords := by
  intro w2
  refine ⟨rfl, rfl, rfl, rfl, rfl, rfl, rfl, rfl, rfl, rfl, rfl, rfl, ?brk, rfl, rfl, rfl, rfl, rfl, rfl, rfl, rfl, rfl, rfl, rfl, rfl⟩
  case brk => exact fun e => rfl

end Sys2Proof

/-! PROOFS. Integer operands and results of class S (R9, R110, R111): an operand is its value modulo 2^w, and a result is what it is
congruent to. -/

namespace Sys2Proof

theorem Ty.width_le (ty : Ty) : ty.width ≤ 64 := by cases ty <;> decide

end Sys2Proof

namespace Sys2Proof.Machine

/-! Results (R111). -/

theorem lowBits_eq_low (ty : Ty) (r : Int) : lowBits ty r = low ty.width r := by
  rw [lowBits, low, wrap, Int.natCast_pow]
  rfl

/-- A result is settled by what it is congruent to. -/
theorem low_congr {w : Nat} {r q : Int} (h : r % 2 ^ w = q % 2 ^ w) : low w r = low w q :=
  congrArg (fun m : Int => BitVec.ofNat 64 m.toNat) h

theorem low_natCast (w n : Nat) : low w n = BitVec.ofNat 64 (n % 2 ^ w) := by
  have hcast : (n : Int) % 2 ^ w = (n % 2 ^ w : Nat) := by rw [Int.natCast_emod, Int.natCast_pow]; rfl
  rw [low, hcast, Int.toNat_natCast]

theorem toNat_low_natCast {w : Nat} (hw : w ≤ 64) (n : Nat) : (low w n).toNat = n % 2 ^ w := by
  rw [low_natCast, BitVec.toNat_ofNat]
  exact Nat.mod_eq_of_lt (Nat.lt_of_lt_of_le (Nat.mod_lt _ (Nat.two_pow_pos w)) (Nat.pow_le_pow_right (by decide) hw))

theorem low_natCast_inj {w : Nat} (hw : w ≤ 64) {m n : Nat} : low w m = low w n ↔ m % 2 ^ w = n % 2 ^ w := by
  rw [← BitVec.toNat_inj, toNat_low_natCast hw, toNat_low_natCast hw]

/-! Congruences modulo 2^w. -/

section
variable {m r q r1 q1 : Int} (h : r % m = q % m) (h1 : r1 % m = q1 % m)
include h h1

theorem add_emod_congr : (r + r1) % m = (q + q1) % m := by rw [Int.add_emod, h, h1, ← Int.add_emod]
theorem sub_emod_congr : (r - r1) % m = (q - q1) % m := by rw [Int.sub_emod, h, h1, ← Int.sub_emod]
theorem mul_emod_congr : (r * r1) % m = (q * q1) % m := by rw [Int.mul_emod, h, h1, ← Int.mul_emod]

end

/-! Operands (R110). -/

theorem natCast_mod_emod (w n : Nat) : ((n % 2 ^ w : Nat) : Int) % 2 ^ w = n % 2 ^ w := by
  rw [Int.natCast_emod, Int.natCast_pow]
  exact Int.emod_emod _ _

theorem sext_emod (w n : Nat) : sext w n % 2 ^ w = n % 2 ^ w := by
  unfold sext
  dsimp only
  split
  · rw [Int.natCast_pow]
    exact (Int.sub_emod_right _ _).trans (natCast_mod_emod w n)
  · exact natCast_mod_emod w n

theorem opnd_emod (ty : Ty) (v : Word) : opnd ty v % 2 ^ ty.width = v.toNat % 2 ^ ty.width := by
  unfold opnd
  split
  · exact sext_emod ..
  · exact natCast_mod_emod ..

/-- Operands are equal exactly if their low bits are. -/
theorem opnd_inj (ty : Ty) {x y : Word} : opnd ty x = opnd ty y ↔ low ty.width x.toNat = low ty.width y.toNat := by
  refine ⟨fun h => low_congr ((opnd_emod ty x).symm.trans (h ▸ opnd_emod ty y)), fun h => ?_⟩
  have hmod := (low_natCast_inj ty.width_le).mp h
  simp only [opnd, sext, hmod]

/-! Integer ALU words (R112). -/

/-- An ALU word lands what its exact result is congruent to in the latch that AS names at k + 1. -/
theorem SWord.issue_aluOp {s : State} {op : SOp} {h : Hdr} {b : SBody} {x y z : Word} {t : Strand}
    (hw : SWord s op h b x y z t) {f : Word → Word → Word → Int} {r : Int} (hf : f x y z % 2 ^ b.ty.width = r % 2 ^ b.ty.width) :
    issueS op h b (aluOp b f) s = .next (s.lands (.s op h b) t 1 [aluEff b.as (low b.ty.width r)]) := by
  rw [← low_congr hf, ← lowBits_eq_low]
  exact hw.issue_landS rfl

theorem andn_toNat (x y : Word) : x.toNat ^^^ (x.toNat &&& y.toNat) = (x &&& ~~~y).toNat := by
  have hbits : x ^^^ (x &&& y) = x &&& ~~~y := by
    ext i
    cases hx : x[i] <;> simp [hx]
  rw [← hbits, BitVec.toNat_xor, BitVec.toNat_and]

/-- A shift right by the width or more leaves nothing (R112). -/
theorem shrInt_eq (ty : Ty) (x : Word) (c : Nat) : shrInt ty x c = (x.toNat % 2 ^ ty.width / 2 ^ c : Nat) := by
  unfold shrInt
  split
  next hc =>
    have hlt : x.toNat % 2 ^ ty.width < 2 ^ c :=
      Nat.lt_of_lt_of_le (Nat.mod_lt _ (Nat.two_pow_pos _)) (Nat.pow_le_pow_right (by decide) hc)
    rw [Nat.div_eq_of_lt hlt]
    rfl
  next => rfl

/-- The one bits of a word, counted bit by bit (R112). -/
theorem popCount_eq_length (w n : Nat) : popCount w n = ((List.range w).filter fun i => n.testBit i).length := by
  induction w generalizing n with
  | zero => rfl
  | succ w ih =>
    have hhigh : ((List.range w).map Nat.succ).filter (fun i => n.testBit i) =
        ((List.range w).filter fun i => (n / 2).testBit i).map Nat.succ := by
      rw [List.filter_map]
      congr 2
      funext i
      exact Nat.testBit_succ n i
    rw [popCount, ih, List.range_succ_eq_map, List.filter_cons, Nat.testBit_zero, hhigh]
    rcases Nat.mod_two_eq_zero_or_one n with h0 | h1
    · simp [h0]
    · simp [h1, Nat.add_comm]

/-- The immediate above the low half of a word (R113). -/
theorem ofNat_imm_append (imm : BitVec 32) (y : Word) :
    BitVec.ofNat 64 (imm.toNat * 2 ^ 32 + y.toNat % 2 ^ 32) = imm ++ y.setWidth 32 := by
  refine BitVec.eq_of_toNat_eq ?_
  rw [BitVec.toNat_append, BitVec.toNat_setWidth, ← Nat.shiftLeft_add_eq_or_of_lt (Nat.mod_lt _ (by decide)),
    Nat.shiftLeft_eq, BitVec.toNat_ofNat]
  have := imm.isLt
  omega

section
variable (h : Hdr) (b : SBody) (s : State)

theorem exec_add : exec (.add h b) s = execAdd h b s := rfl
theorem exec_sub : exec (.sub h b) s = execSub h b s := rfl
theorem exec_and : exec (.and h b) s = execAnd h b s := rfl
theorem exec_or : exec (.or h b) s = execOr h b s := rfl
theorem exec_xor : exec (.xor h b) s = execXor h b s := rfl
theorem exec_andn : exec (.andn h b) s = execAndn h b s := rfl
theorem exec_shl : exec (.shl h b) s = execShl h b s := rfl
theorem exec_shr : exec (.shr h b) s = execShr h b s := rfl
theorem exec_sar : exec (.sar h b) s = execSar h b s := rfl
theorem exec_min : exec (.min h b) s = execMin h b s := rfl
theorem exec_max : exec (.max h b) s = execMax h b s := rfl
theorem exec_sel : exec (.sel h b) s = execSel h b s := rfl
theorem exec_clz : exec (.clz h b) s = execClz h b s := rfl
theorem exec_popc : exec (.popc h b) s = execPopc h b s := rfl
theorem exec_li : exec (.li h b) s = execLi h b s := rfl
theorem exec_lih : exec (.lih h b) s = execLih h b s := rfl

end

/-- Settles O1: a word lands what its exact result is congruent to (`SWord.issue_aluOp`), and an operand is congruent to its value
(`opnd_emod`). -/
theorem integerAluResultLands : Obligations.IntegerAluResultLands := by
  intro s h b x y z t w c lands
  have hx : opnd b.ty x % 2 ^ w = x.toNat % 2 ^ w := opnd_emod b.ty x
  have hy : opnd b.ty y % 2 ^ w = y.toNat % 2 ^ w := opnd_emod b.ty y
  refine ⟨?add, ?sub, ?and, ?or, ?xor, ?andn, ?shl, ?shr, ?sar, ?min, ?max, ?sel, ?clz, ?popc, ?li, ?lih⟩
  case add => exact fun hw => (exec_add h b s).trans (hw.issue_aluOp (add_emod_congr hx hy))
  case sub => exact fun hw => (exec_sub h b s).trans (hw.issue_aluOp (sub_emod_congr hx hy))
  case and => exact fun hw => (exec_and h b s).trans (hw.issue_aluOp (by rw [BitVec.toNat_and]; rfl))
  case or => exact fun hw => (exec_or h b s).trans (hw.issue_aluOp (by rw [BitVec.toNat_or]; rfl))
  case xor => exact fun hw => (exec_xor h b s).trans (hw.issue_aluOp (by rw [BitVec.toNat_xor]; rfl))
  case andn => exact fun hw => (exec_andn h b s).trans (hw.issue_aluOp (by rw [← andn_toNat]; rfl))
  case shl =>
    intro hw
    have hzero : (0 : Word) = low w 0 := by simp [low]
    rw [exec_shl, execShl, hzero, ← apply_ite (low w)]
    exact hw.issue_aluOp (by rw [shlInt, shiftCount, Int.natCast_mul, Int.natCast_pow]; rfl)
  case shr =>
    intro hw
    refine (exec_shr h b s).trans (hw.issue_aluOp ?_)
    rw [shrInt_eq]
    rfl
  case sar => exact fun hw => (exec_sar h b s).trans (hw.issue_aluOp (by rw [sarInt, shiftCount, Int.natCast_pow]; rfl))
  case min =>
    intro hw
    rw [exec_min, execMin, ← apply_ite (low w)]
    refine hw.issue_aluOp ?_
    rcases Int.lt_or_le (opnd b.ty y) (opnd b.ty x) with hlt | hle
    · rw [if_pos hlt, if_neg (Int.not_le.mpr hlt)]
      exact hy
    · rw [if_neg (Int.not_lt.mpr hle), if_pos hle]
      exact hx
  case max =>
    intro hw
    rw [exec_max, execMax, ← apply_ite (low w)]
    refine hw.issue_aluOp ?_
    rcases Int.lt_trichotomy (opnd b.ty x) (opnd b.ty y) with hlt | heq | hgt
    · rw [if_pos hlt, if_pos (Int.le_of_lt hlt)]
      exact hy
    · rw [heq, if_neg (Int.lt_irrefl _), if_pos (Int.le_refl _)]
      exact hy
    · rw [if_neg (Int.lt_asymm hgt), if_neg (Int.not_le.mpr hgt)]
      exact hx
  case sel =>
    intro hw
    have hsel : (if t.predOpd b.c then opnd b.ty x else opnd b.ty y) % 2 ^ w =
        (if s.t.predOpd b.c then (x.toNat : Int) else y.toNat) % 2 ^ w := by
      rw [hw.predOpd]
      split
      · exact hx
      · exact hy
    rw [exec_sel, execSel, ← apply_ite (low w), ← low_congr hsel, ← lowBits_eq_low]
    exact hw.issue_landS (by rw [State.reading_t]; rfl)
  case clz => exact fun hw => (exec_clz h b s).trans (hw.issue_aluOp rfl)
  case popc =>
    intro hw
    refine (exec_popc h b s).trans (hw.issue_aluOp ?_)
    rw [popCount_eq_length]
    rfl
  case li => exact fun hw => (exec_li h b s).trans (hw.issue_aluOp hx)
  case lih =>
    intro hw
    rw [exec_lih, execLih, ← ofNat_imm_append]
    exact hw.issue_landS rfl

end Sys2Proof.Machine

/-! PROOFS. Compares, predicate forms and the multiplier (R114 to R116): which bits a byte put into a word leaves, the byte of a bank
of predicates, and the four-byte dot product. -/

namespace Sys2Proof.Machine

/-! Bits put into a number. -/

theorem testBit_putBits (n lo w v k : Nat) :
    (putBits n lo w v).testBit k = if lo ≤ k ∧ k < lo + w then v.testBit (k - lo) else n.testBit k := by
  have hput : putBits n lo w v = 2 ^ lo * (2 ^ w * (n / 2 ^ lo / 2 ^ w) + v % 2 ^ w) + n % 2 ^ lo := by
    have hn := Nat.div_add_mod n (2 ^ lo)
    have hmid := Nat.div_add_mod (n / 2 ^ lo) (2 ^ w)
    have hsplit : 2 ^ lo * (n / 2 ^ lo) =
        2 ^ lo * (2 ^ w * (n / 2 ^ lo / 2 ^ w)) + n / 2 ^ lo % 2 ^ w * 2 ^ lo := by
      rw [← Nat.mul_comm (2 ^ lo), ← Nat.mul_add, hmid]
    rw [putBits, Nat.mul_add, Nat.mul_comm (2 ^ lo) (v % 2 ^ w)]
    omega
  rw [hput, Nat.testBit_two_pow_mul_add _ (Nat.mod_lt _ (Nat.two_pow_pos lo))]
  split
  next hlo => rw [if_neg (by omega), Nat.testBit_mod_two_pow, decide_eq_true hlo, Bool.true_and]
  next hlo =>
    rw [Nat.testBit_two_pow_mul_add _ (Nat.mod_lt _ (Nat.two_pow_pos w))]
    split
    next hw => rw [if_pos (by omega), Nat.testBit_mod_two_pow, decide_eq_true hw, Bool.true_and]
    next hw =>
      rw [if_neg (by omega), Nat.testBit_div_two_pow, Nat.testBit_div_two_pow]
      congr 1
      omega

/-! The byte of a bank of predicates (R46, R115). -/

theorem b2n_eq_toNat (p : Bool) : b2n p = p.toNat := by cases p <;> rfl

/-- Bits summed with their weights are below the next weight. -/
theorem sum_bits_lt (f : Nat → Bool) (n : Nat) : ((List.range n).map fun j => b2n (f j) * 2 ^ j).sum < 2 ^ n := by
  induction n with
  | zero => exact Nat.one_pos
  | succ n ih =>
    have hbit : b2n (f n) * 2 ^ n ≤ 2 ^ n := by cases f n <;> simp [b2n]
    rw [List.range_succ, List.map_append, List.sum_append, Nat.pow_succ]
    simp only [List.map_cons, List.map_nil, List.sum_cons, List.sum_nil]
    omega

theorem testBit_sum_bits (f : Nat → Bool) (n j : Nat) :
    (((List.range n).map fun j => b2n (f j) * 2 ^ j).sum).testBit j = (decide (j < n) && f j) := by
  induction n with
  | zero => simp
  | succ n ih =>
    have hsum : ((List.range (n + 1)).map fun j => b2n (f j) * 2 ^ j).sum =
        2 ^ n * b2n (f n) + ((List.range n).map fun j => b2n (f j) * 2 ^ j).sum := by
      rw [List.range_succ, List.map_append, List.sum_append, Nat.add_comm, Nat.mul_comm (2 ^ n)]
      simp
    rw [hsum, Nat.testBit_two_pow_mul_add _ (sum_bits_lt f n)]
    split
    next hlt => rw [ih, decide_eq_true hlt, decide_eq_true (Nat.lt_succ_of_lt hlt)]
    next hge =>
      rw [b2n_eq_toNat, Nat.testBit_bool_toNat]
      rcases Nat.eq_or_lt_of_le (Nat.le_of_not_lt hge) with rfl | hlt
      · simp
      · simp [show ¬ j < n + 1 by omega, show j - n ≠ 0 by omega]

theorem Strand.testBit_predByte (t : Strand) (base : Nat) {j : Nat} (hj : j < 8) : (t.predByte base).testBit j = t.pred (base + j) := by
  rw [predByte, testBit_sum_bits fun j => t.pred (base + j), decide_eq_true hj, Bool.true_and]

theorem SWord.pred {s : State} {op : SOp} {h : Hdr} {b : SBody} {x y z : Word} {t : Strand}
    (hw : SWord s op h b x y z t) (n : Nat) : t.pred n = s.t.pred n := by
  rw [Strand.pred, hw.p, Strand.pred]

/-! Compares (R114). -/

section
variable {s : State} {op : SOp} {h : Hdr} {b : SBody} {x y z : Word} {t : Strand} (hw : SWord s op h b x y z t)
include hw

/-- An integer compare lands its bit in the predicate that PX names. -/
theorem SWord.issue_cmpOp {f : Int → Int → Bool} {r : Bool} (hf : f (opnd b.ty x) (opnd b.ty y) = r) :
    issueS op h b (cmpOp b f) s = .next (s.lands (.s op h b) t 1 [.pred b.px r]) := by
  rw [← hf]
  exact hw.issue_landS rfl

/-- A quiet compare sets NV for a signalling NaN alone. -/
theorem SWord.issue_fcmpOp_quiet (f : XReal → XReal → Bool) :
    issueS op h b (fcmpOp b true f) s = .next (s.lands (.s op h b) t 1 [.pred b.px (f (decode b.ty x.toNat) (decode b.ty y.toNat))]
      (if (decode b.ty x.toNat).isSnan || (decode b.ty y.toNat).isSnan then fNV else 0)) := by
  rw [← XReal.snanFlag_two]
  exact hw.issue_landS rfl

/-- An order compare sets NV for any NaN. -/
theorem SWord.issue_fcmpOp (f : XReal → XReal → Bool) :
    issueS op h b (fcmpOp b false f) s = .next (s.lands (.s op h b) t 1 [.pred b.px (f (decode b.ty x.toNat) (decode b.ty y.toNat))]
      (if (decode b.ty x.toNat).isNan || (decode b.ty y.toNat).isNan then fNV else 0)) :=
  hw.issue_landS rfl

/-- A predicate form reads the predicates as the strand holds them at issue. -/
theorem SWord.issue_predOp (f : Bool → Bool → Bool) :
    issueS op h b (predOp b f) s = .next (s.lands (.s op h b) t 1 [.pred b.px (f (s.t.predOpd b.a) (s.t.predOpd b.b))]) := by
  refine hw.issue_landS ?_
  rw [predOp, State.reading_t, hw.predOpd, hw.predOpd]
  rfl

/-- A multiplier word lands what its exact result is congruent to in `lm` at k + 3. -/
theorem SWord.issue_mulOp {f : Int → Int → Int → Int} {r : Int}
    (hf : f (opnd b.ty x) (opnd b.ty y) (opnd b.ty z) % 2 ^ b.ty.width = r % 2 ^ b.ty.width) :
    issueS op h b (mulOp b f) s = .next (s.lands (.s op h b) t 3 [.lm (low b.ty.width r)]) := by
  rw [← low_congr hf, ← lowBits_eq_low]
  exact hw.issue_landS rfl

end

/-! The four-byte dot product (R116). -/

theorem toInt_eq_sext {w : Nat} (x : BitVec w) : x.toInt = sext w x.toNat := by
  rcases Nat.eq_zero_or_pos w with rfl | hpos
  · rw [BitVec.eq_nil x]
    rfl
  have hpow : 2 ^ w = 2 * 2 ^ (w - 1) := by rw [← Nat.pow_succ', Nat.succ_eq_add_one, Nat.sub_add_cancel hpos]
  unfold sext
  simp only [Nat.mod_eq_of_lt x.isLt]
  rw [BitVec.toInt_eq_toNat_cond]
  split
  next hlt => rw [if_neg (by omega)]
  next hge => rw [if_pos (by omega)]

/-- Byte j of a value, shifted down and cut off. -/
theorem byteOf_eq (ty : Ty) (v : Word) (j : Nat) :
    byteOf ty v.toNat j = if ty.signed then ((v >>> (8 * j)).setWidth 8 : BitVec 8).toInt
      else ((v >>> (8 * j)).setWidth 8 : BitVec 8).toNat := by
  have hbyte : ((v >>> (8 * j)).setWidth 8 : BitVec 8).toNat = v.toNat / 2 ^ (8 * j) % 256 := by
    rw [BitVec.toNat_setWidth, BitVec.toNat_ushiftRight, Nat.shiftRight_eq_div_pow]
  rw [toInt_eq_sext, hbyte, byteOf]
  simp only [sext, Nat.mod_mod, show (2 : Nat) ^ 8 = 256 from rfl]

theorem dot4_eq (ty : Ty) (x y : Nat) (z : Int) :
    dot4 ty x y z = z + (byteOf ty x 0 * byteOf ty y 0 + byteOf ty x 1 * byteOf ty y 1 + byteOf ty x 2 * byteOf ty y 2 +
      byteOf ty x 3 * byteOf ty y 3) := by
  simp only [dot4, show List.range 4 = [0, 1, 2, 3] from rfl, List.foldl_cons, List.foldl_nil, Int.add_assoc]

/-- The addend of a dot product, by the signedness of the type. -/
theorem addend_emod (sg : Bool) (z : Nat) : (if sg then sext 32 z else ((z % 2 ^ 32 : Nat) : Int)) % 2 ^ 32 = z % 2 ^ 32 := by
  split
  · exact sext_emod ..
  · exact natCast_mod_emod ..

section
variable (h : Hdr) (b : SBody) (s : State)

theorem exec_ceq : exec (.ceq h b) s = execCeq h b s := rfl
theorem exec_cne : exec (.cne h b) s = execCne h b s := rfl
theorem exec_clt : exec (.clt h b) s = execClt h b s := rfl
theorem exec_cle : exec (.cle h b) s = execCle h b s := rfl
theorem exec_ctst : exec (.ctst h b) s = execCtst h b s := rfl
theorem exec_fceq : exec (.fceq h b) s = execFceq h b s := rfl
theorem exec_fclt : exec (.fclt h b) s = execFclt h b s := rfl
theorem exec_fcle : exec (.fcle h b) s = execFcle h b s := rfl
theorem exec_fcun : exec (.fcun h b) s = execFcun h b s := rfl
theorem exec_pand : exec (.pand h b) s = execPand h b s := rfl
theorem exec_por : exec (.por h b) s = execPor h b s := rfl
theorem exec_pxor : exec (.pxor h b) s = execPxor h b s := rfl
theorem exec_ppack : exec (.ppack h b) s = execPpack h b s := rfl
theorem exec_punpack : exec (.punpack h b) s = execPunpack h b s := rfl
theorem exec_mul : exec (.mul h b) s = execMul h b s := rfl
theorem exec_mulh : exec (.mulh h b) s = execMulh h b s := rfl
theorem exec_mad : exec (.mad h b) s = execMad h b s := rfl
theorem exec_dp4 : exec (.dp4 h b) s = execDp4 h b s := rfl

end

/-- Settles O2: equal operands are those of equal low bits (`opnd_inj`); `ppack` puts the byte of its bank, which `testBit_putBits`
and `Strand.testBit_predByte` read bit by bit. -/
theorem compareAndPredicateResultLands : Obligations.CompareAndPredicateResultLands := by
  intro s h b x y z t w p q lands snan anan i base
  refine ⟨?ceq, ?cne, ?clt, ?cle, ?ctst, ?fceq, ?fclt, ?fcle, ?fcun, ?pand, ?por, ?pxor, ?ppack, ?punpack⟩
  case ceq =>
    intro hw
    refine (exec_ceq h b s).trans (hw.issue_cmpOp ?_)
    rw [Bool.beq_eq_decide_eq, Bool.beq_eq_decide_eq, decide_eq_decide.mpr (opnd_inj b.ty)]
  case cne =>
    intro hw
    refine (exec_cne h b s).trans (hw.issue_cmpOp ?_)
    rw [bne, Bool.beq_eq_decide_eq, bne, Bool.beq_eq_decide_eq, decide_eq_decide.mpr (opnd_inj b.ty)]
  case clt => exact fun hw => (exec_clt h b s).trans (hw.issue_cmpOp rfl)
  case cle => exact fun hw => (exec_cle h b s).trans (hw.issue_cmpOp rfl)
  case ctst =>
    intro hw
    have hzero : low w (x &&& y).toNat = 0 ↔ (x.toNat &&& y.toNat) % 2 ^ w = 0 := by
      rw [← BitVec.toNat_inj, toNat_low_natCast b.ty.width_le, BitVec.toNat_and]
      rfl
    rw [exec_ctst, execCtst, decide_eq_decide.mpr (not_congr hzero)]
    exact hw.issue_landS rfl
  case fceq => exact fun hw => (exec_fceq h b s).trans (hw.issue_fcmpOp_quiet _)
  case fclt => exact fun hw => (exec_fclt h b s).trans (hw.issue_fcmpOp _)
  case fcle => exact fun hw => (exec_fcle h b s).trans (hw.issue_fcmpOp _)
  case fcun => exact fun hw => (exec_fcun h b s).trans (hw.issue_fcmpOp_quiet _)
  case pand => exact fun hw => (exec_pand h b s).trans (hw.issue_predOp _)
  case por => exact fun hw => (exec_por h b s).trans (hw.issue_predOp _)
  case pxor => exact fun hw => (exec_pxor h b s).trans (hw.issue_predOp _)
  case ppack =>
    intro hw
    have hi : i < 8 := Nat.mod_lt _ (by decide)
    refine ⟨BitVec.ofNat 64 (putBits x.toNat (8 * i) 8 (t.predByte base)), ?_, fun j hj => ?_, fun k hk hout => ?_⟩
    · rw [exec_ppack, execPpack]
      exact hw.issue_landS (by rw [State.reading_t]; rfl)
    · rw [BitVec.getLsbD_ofNat, decide_eq_true (by omega), Bool.true_and, testBit_putBits, if_pos (by omega), Nat.add_sub_cancel_left,
        Strand.testBit_predByte _ _ hj, hw.pred]
    · rw [BitVec.getLsbD_ofNat, decide_eq_true hk, Bool.true_and, testBit_putBits, if_neg hout]
      rfl
  case punpack =>
    intro hw
    rw [exec_punpack, execPunpack]
    refine hw.issue_lands rfl ?_
    rw [State.reading_upd]
    simp only [bit_eq_testBit]
    rfl

/-- Settles O3: a product is settled modulo 2^w by its operands' values (`opnd_emod`); of `dp4` the four products are written out. -/
theorem multiplierResultLands : Obligations.MultiplierResultLands := by
  intro s h b x y z t w lands byteAt
  have hx : opnd b.ty x % 2 ^ w = x.toNat % 2 ^ w := opnd_emod b.ty x
  have hy : opnd b.ty y % 2 ^ w = y.toNat % 2 ^ w := opnd_emod b.ty y
  have hz : opnd b.ty z % 2 ^ w = z.toNat % 2 ^ w := opnd_emod b.ty z
  have hbyte : ∀ v j, byteAt v j = byteOf b.ty v.toNat j := fun v j => (byteOf_eq b.ty v j).symm
  refine ⟨?mul, ?mulh, ?mad, ?dp4⟩
  case mul => exact fun hw => (exec_mul h b s).trans (hw.issue_mulOp (mul_emod_congr hx hy))
  case mulh => exact fun hw => (exec_mulh h b s).trans (hw.issue_mulOp (by rw [Int.natCast_pow]; rfl))
  case mad => exact fun hw => (exec_mad h b s).trans (hw.issue_mulOp (add_emod_congr (mul_emod_congr hx hy) hz))
  case dp4 =>
    intro hw
    simp only [hbyte]
    rw [exec_dp4, execDp4, ← low_congr (add_emod_congr (addend_emod b.ty.signed z.toNat) rfl), ← dot4_eq]
    exact hw.issue_landS (by rw [low, wrap, Int.natCast_pow]; rfl)

end Sys2Proof.Machine

/-! PROOFS. Scratchpad and global accesses (R120 to R123): the state in which an S word acts, and what each access adds to it. -/

namespace Sys2Proof.Machine

/-! The state in which an S word acts whose operands have been read. -/

@[simp] theorem State.reading_core (s : State) (v : View) (t : Strand) : (s.reading v t).core = s.core :=
  (State.core_setStrand ..).trans (State.begun_core ..)

@[simp] theorem State.reading_dev (s : State) (v : View) (t : Strand) : (s.reading v t).dev = s.dev :=
  (State.setStrand_dev ..).trans (State.begun_dev ..)

theorem State.acting_t_vf (s : State) (v : View) : (s.acting v).t.vf = s.t.vf := by
  rw [State.acting, State.begun_t]
  unfold Strand.setCtl
  split <;> rfl

theorem SDoes.vf {s : State} {op : SOp} {h : Hdr} {b : SBody} {x y z : Word} {t : Strand} {d : Done}
    (hd : SDoes s op h b x y z t d) : t.vf = s.t.vf := by
  obtain ⟨t1, hreads, hmoved⟩ := hd.reads
  have hqueues := (Strand.transport_sansQueues hmoved).trans (Strand.readOpds_sansQueues hreads)
  exact (congrArg Strand.vf hqueues).trans (s.acting_t_vf _)

/-- A word that reads its operands moves no home of an access. -/
theorem SDoes.homeLevel {s : State} {op : SOp} {h : Hdr} {b : SBody} {x y z : Word} {t : Strand} {d : Done}
    (hd : SDoes s op h b x y z t d) (p : Place) (pa : Nat) : (s.reading (.s op h b) t).homeLevel p pa = s.homeLevel p pa := by
  simp only [State.homeLevel, State.reading_dev, State.reading_core, State.reading_t, hd.vf]

/-! Scratchpad (R120, R121). -/

/-- An S word that loads what it may load lands it in `ll` at k + 4. -/
theorem SWord.issue_loadTimed {s : State} {op : SOp} {h : Hdr} {b : SBody} {x y z : Word} {t : Strand}
    (hw : SWord s op h b x y z t) {f : Word → Word → Word → Operation} {cls n : Nat} {e : Int}
    (hok : TimedOk (s.reading (.s op h b) t) cls e n false)
    (hf : f x y z (s.reading (.s op h b) t) = loadTimed cls n e (s.reading (.s op h b) t)) :
    issueS op h b f s =
      .next (s.lands (.s op h b) t 4 [.ll (BitVec.ofNat 64 ((s.reading (.s op h b) t).spadNum e.toNat n))]) :=
  hw.issue_landS (hf.trans hok.load)

/-! Global accesses (R122, R123): once the access may be made, it joins the strand's program order. -/

theorem loadGlobal_eq {s : State} {i : Instr} {b : SBody} {x : Word} {p : Place} {pas : List Nat}
    (hok : s.globalAccess (globalAddr x b.imm) (accBytes b.ty) .read [0, 1, 3, 4, 5, 6, 7] = .ok (p, pas)) :
    loadGlobal i b x s =
      .ok { s := ((s.landLater 64 .data).2.addAsync
              { id := 0, seq := 0, eng := .s, cls := b.px.val, instr := i, vals := [globalAddr x b.imm, accBytes b.ty], pas := pas
                land := some (s.landLater 64 .data).1, level := s.homeLevel p (pas.headD 0) }).edgeIf
              (pathOf (globalAddr x b.imm) == 7) } := by
  unfold loadGlobal
  simp only [hok]

theorem storeGlobal_eq {s : State} {i : Instr} {h : Hdr} {b : SBody} {x y : Word} {p : Place} {pas ims : List Nat}
    (hok : s.globalAccess (globalAddr x b.imm) (accBytes b.ty) .write [0, 3, 4, 5, 6, 7] = .ok (p, pas))
    (himages : s.imagePas ((s.imagesOf (globalAddr x b.imm) (accBytes b.ty) y.toNat).map Prod.fst) = .ok ims) :
    storeGlobal i h b x y s =
      let imgs := s.imagesOf (globalAddr x b.imm) (accBytes b.ty) y.toNat
      .ok { own := true
            s := (s.addAsync
              { id := 0, seq := 0, eng := .s, cls := b.px.val, instr := i, vals := [globalAddr x b.imm, accBytes b.ty, y.toNat]
                pas := pas ++ ims, idx := imgs.map Prod.fst, buf := imgs.map Prod.snd, spost := h.spost.val
                buffered := pathOf (globalAddr x b.imm) != 7, level := s.homeLevel p (pas.headD 0) }).edgeIf
              (pathOf (globalAddr x b.imm) == 7) } := by
  unfold storeGlobal
  simp only [hok, himages]

theorem atomicOp_eq {s : State} {i : Instr} {b : SBody} {x y z : Word} {p : Place} {pas : List Nat}
    (hok : s.globalAccess x.toNat (accBytes b.ty) .both [0, 3, 4, 6] = .ok (p, pas)) :
    atomicOp i b x y z s =
      .ok { s := ((s.landLater 64 .data).2.addAsync
              { id := 0, seq := 0, eng := .s, cls := b.px.val, instr := i, vals := [x.toNat, accBytes b.ty, y.toNat, z.toNat]
                pas := pas, land := some (s.landLater 64 .data).1, level := s.homeLevel p (pas.headD 0) }).markEdge } := by
  unfold atomicOp
  simp only [hok]

section
variable (h : Hdr) (b : SBody) (s : State)

theorem exec_lds : exec (.lds h b) s = execLds h b s := rfl
theorem exec_sts : exec (.sts h b) s = execSts h b s := rfl
theorem exec_spl : exec (.spl h b) s = execSpl h b s := rfl
theorem exec_sps : exec (.sps h b) s = execSps h b s := rfl
theorem exec_ldg : exec (.ldg h b) s = execLdg h b s := rfl
theorem exec_stg : exec (.stg h b) s = execStg h b s := rfl
theorem exec_aadd : exec (.aadd h b) s = execAadd h b s := rfl
theorem exec_axchg : exec (.axchg h b) s = execAxchg h b s := rfl
theorem exec_acas : exec (.acas h b) s = execAcas h b s := rfl
theorem exec_amax : exec (.amax h b) s = execAmax h b s := rfl

end

/-- Settles O5: a load that may be made is `SWord.issue_loadTimed`, a store `TimedOk.store`. -/
theorem scratchpadAccessCompletes : Obligations.ScratchpadAccessCompletes := by
  intro s h b x y z t n e sp u stored
  refine ⟨?lds, ?spl, ?sts, ?sps⟩
  case lds => exact fun hw hok => (exec_lds h b s).trans (hw.issue_loadTimed hok rfl)
  case spl => exact fun hw hok => (exec_spl h b s).trans (hw.issue_loadTimed hok (by rw [State.reading_t]; rfl))
  case sts => exact fun hd hok => (exec_sts h b s).trans (hd.issue (hok.store y))
  case sps =>
    intro hd hok
    refine (exec_sps h b s).trans (hd.issue ?_)
    rw [State.reading_t]
    exact hok.store x

/-- Settles O6: each access is its equation above, the level of its home read in the state before the word (`SDoes.homeLevel`). -/
theorem globalAccessCompletes : Obligations.GlobalAccessCompletes := by
  intro s h b x y z t p pas ims n e u due atomic load imgs store
  have hatomic {op : SOp} {i : Instr} {d : Done} (hd : SDoes s op h b x y z t d)
      (hok : (u op).globalAccess x.toNat n .both [0, 3, 4, 6] = .ok (p, pas)) : atomicOp i b x y z (u op) = .ok (atomic op i) := by
    rw [atomicOp_eq hok, hd.homeLevel]
    rfl
  refine ⟨?ldg, ?stg, ?aadd, ?axchg, ?acas, ?amax⟩
  case ldg =>
    intro hd hok
    refine (exec_ldg h b s).trans (hd.issue ?_)
    rw [loadGlobal_eq hok, hd.homeLevel]
    rfl
  case stg =>
    intro hd hok himages
    refine (exec_stg h b s).trans (hd.issue ?_)
    rw [storeGlobal_eq hok himages, hd.homeLevel]
    rfl
  case aadd => exact fun hd hok => (exec_aadd h b s).trans (hd.issue (hatomic hd hok))
  case axchg => exact fun hd hok => (exec_axchg h b s).trans (hd.issue (hatomic hd hok))
  case acas => exact fun hd hok => (exec_acas h b s).trans (hd.issue (hatomic hd hok))
  case amax => exact fun hd hok => (exec_amax h b s).trans (hd.issue (hatomic hd hok))

end Sys2Proof.Machine

/-! PROOFS. Fences, waits, semaphores, control flow and register moves of class S (R124 to R133). -/

namespace Sys2Proof.Machine

theorem State.upd_upd (s : State) (f g : Strand → Strand) : (s.upd f).upd g = s.upd fun t => g (f t) :=
  s.upd_setStrand (f s.t) g

/-! Fences (R124). -/

section
variable {s : State} {i : Instr} {b : SBody} {ids : List Nat}
  (hok : s.scopeCheck (bits b.imm.toNat 18 16) = .ok ())
  (hids : s.covered (bits b.imm.toNat 15 0) (scopeLimit (bits b.imm.toNat 18 16)) = ids)
include hok hids

/-- A fence with nothing to cover leaves nothing. -/
theorem fenceOp_of_idle (hnone : ids = []) (htimed : s.t.timedLeft = false) : fenceOp i b s = .ok { s := s } := by
  unfold fenceOp
  simp only [hok, hids, hnone, htimed, List.isEmpty_nil, Bool.not_false, Bool.and_self, if_true]

/-- A fence of timed accesses alone is due when the last has been made, and has come. -/
theorem fenceOp_of_timed (hnone : ids = []) (htimed : s.t.timedLeft = true) :
    fenceOp i b s =
      let l := s.landLater (Nat.max 1 (s.t.lastTimed - s.t.ctx.sclk)) (.fence ids (scopeLimit (bits b.imm.toNat 18 16)))
      let come (m : Landing) : Landing := if m.id = l.1 then { m with arrived := true } else m
      .ok { s := l.2.tick.upd fun t => { t with pend := t.pend.map come, hpend := t.hpend.map come } } := by
  unfold fenceOp
  simp only [hok, hids, hnone, htimed, List.isEmpty_nil, Bool.not_true, Bool.and_false, Bool.false_eq_true, if_false, if_true,
    List.append_nil, State.upd_upd]

/-- A fence that covers asynchronous accesses stands in program order until they have performed. -/
theorem fenceOp_of_covering (hsome : ids ≠ []) :
    fenceOp i b s =
      let lim := scopeLimit (bits b.imm.toNat 18 16)
      let l := s.landLater (Nat.max 1 (s.t.lastTimed - s.t.ctx.sclk)) (.fence ids lim)
      .ok { s := l.2.tick.upd fun t =>
              { t with asyncs := t.asyncs ++
                  [{ id := l.2.fresh, seq := t.seq, eng := .s, cls := 0, instr := i, vals := ids, level := lim
                     fence := some (bits b.imm.toNat 15 0), region := t.region }] } } := by
  unfold fenceOp
  simp only [hok, hids, List.isEmpty_eq_false_iff.mpr hsome, Bool.false_and, Bool.false_eq_true, if_false]

end

/-! Waits and semaphores (R125, R126). -/

theorem waitOp_eq {s : State} {b : SBody} {x y : Word}
    (hok : TimedOk s b.px.val x.toNat (accBytes b.ty) false) :
    waitOp b x y s =
      .ok { s := s.upd fun t =>
              let l : Landing :=
                { id := 0, seq := t.seq, due := t.clock + 4, arrived := false
                  wait := .scratch x.toNat (accBytes b.ty) b.ty (y.toNat % 2 ^ b.ty.width) }
              t.addLanding ((l.meet (s.spadNum x.toNat (accBytes b.ty))).wake s s.core x.toNat (x.toNat + accBytes b.ty)) } := by
  have hgate : s.t.timedGate s.core b.px.val x.toNat (accBytes b.ty) false = .ok () := hok.gate
  have hpure : s.poisonCheck x.toNat (accBytes b.ty) = .ok () := hok.pure
  unfold waitOp
  simp only [hok.check, Int.toNat_natCast, hgate, hpure]

/-- A raise of a semaphore goes up to 255 and saturates there (R126). -/
theorem State.raiseBy_of_ne_zero (s : State) {n : Nat} (hn : n ≠ 0) (m : Nat) :
    s.raiseBy n m = if s.sem s.core n + m ≤ 255 then s.setSem s.core n (s.sem s.core n + m)
      else (s.setSem s.core n 255).upd fun t => { (t.setFlags fSEMSAT) with hmis := t.hmis + 1 } := if_neg hn

/-! Control flow (R127 to R129). -/

theorem jumpOp_reading (s : State) (v : View) (t : Strand) (i : Nat) :
    jumpOp i (s.reading v t) = .ok { s := s.reading v (t.jump .s i) } := by
  rw [jumpOp, State.reading_upd]

/-- A call whose frame fits, on the strand that it reads (R128). -/
theorem callOp_reading {s : State} {v : View} {t : Strand} {f : Nat} (target : Nat)
    (hframe : t.ctx.ssp.toNat % 8 = 0 ∧ (t.ctx.slim.toNat : Int) ≤ (t.ctx.ssp.toNat : Int) - f)
    (hok : TimedOk (s.reading v t) 0 ((t.ctx.ssp.toNat : Int) - f) 8 true) :
    callOp f target (s.reading v t) =
      let n := ((t.ctx.ssp.toNat : Int) - f).toNat
      .ok { s := ((s.reading v t).spadStore n (leBytes 8 ((t.ctl .s).idx + f * 2 ^ 14))).upd fun t =>
              (t.updCtx fun c => { c with ssp := BitVec.ofNat 64 n }).jump .s target } := by
  have hcall := callOp_ok (s := s.reading v t) (f := f) (target := target)
  simp only [State.reading_t] at hcall
  exact hcall hframe hok

/-- A return whose link word may be read (R129). -/
theorem retOp_eq {s : State} (hok : TimedOk s 0 s.t.ctx.ssp.toNat 8 false) :
    retOp s =
      let link := s.spadNum s.t.ctx.ssp.toNat 8
      .ok { s := s.upd fun t =>
              (t.updCtx fun c => { c with ssp := BitVec.ofNat 64 (s.t.ctx.ssp.toNat + bits link 29 14) }).jump .s (bits link 13 0) } := by
  have halign : ¬ s.t.ctx.ssp.toNat % 8 ≠ 0 := not_not_intro hok.align
  have hinside : ¬ spadBytes < s.t.ctx.ssp.toNat + 8 := by
    have := hok.hi
    unfold spadBytes
    omega
  have hbanks : (!s.t.ownsBytes s.t.ctx.ssp.toNat 8) = false := congrArg not hok.banks
  have hgate : s.t.timedGate s.core 0 s.t.ctx.ssp.toNat 8 false = .ok () := hok.gate
  have hpure : s.poisonCheck s.t.ctx.ssp.toNat 8 = .ok () := hok.pure
  unfold retOp
  simp only [if_neg halign, if_neg hinside, hbanks, Bool.false_eq_true, if_false, hgate, hpure]

/-! Control registers (R132). -/

theorem State.ctrl_reading (s : State) (v : View) (t : Strand) (n : Nat) :
    (s.reading v t).ctrl n = if n < 0x20 then t.creg n else (s.reading v t).coreReg s.core n := by
  rw [State.ctrl, State.reading_t, State.reading_core]

theorem State.setCtrl_reading (s : State) (v : View) (t : Strand) (n : Nat) (x : Word) :
    (s.reading v t).setCtrl n x =
      if n < 0x20 then s.reading v (t.setCreg n x) else (s.reading v t).setCoreReg t.rights s.core n x := by
  rw [State.setCtrl, State.reading_upd, State.reading_t, State.reading_core]

section
variable (h : Hdr) (b : SBody) (s : State)

theorem exec_fence : exec (.fence h b) s = execFence h b s := rfl
theorem exec_waita : exec (.waita h b) s = execWaita h b s := rfl
theorem exec_idem : exec (.idem h b) s = execIdem h b s := rfl
theorem exec_semadd : exec (.semadd h b) s = execSemadd h b s := rfl
theorem exec_semrd : exec (.semrd h b) s = execSemrd h b s := rfl
theorem exec_jmp : exec (.jmp h b) s = execJmp h b s := rfl
theorem exec_jmpr : exec (.jmpr h b) s = execJmpr h b s := rfl
theorem exec_call : exec (.call h b) s = execCall h b s := rfl
theorem exec_callr : exec (.callr h b) s = execCallr h b s := rfl
theorem exec_ret : exec (.ret h b) s = execRet h b s := rfl
theorem exec_lset : exec (.lset h b) s = execLset h b s := rfl
theorem exec_mfc : exec (.mfc h b) s = execMfc h b s := rfl
theorem exec_mtc : exec (.mtc h b) s = execMtc h b s := rfl
theorem exec_setg : exec (.setg h b) s = execSetg h b s := rfl
theorem exec_sett : exec (.sett h b) s = execSett h b s := rfl

end

/-- Settles O7: the three outcomes of a fence, the wait and the raise are the equations above; the others are their definitions. -/
theorem fenceWaitAndSemaphoreComplete : Obligations.FenceWaitAndSemaphoreComplete := by
  intro s h b x y z t u imm n m c v lim ids raised waits l come timed covering closed
  have ht (op : SOp) : (u op).t = t := State.reading_t ..
  refine ⟨?idle, ?timed, ?covering, ?wait, ?idem, ?semadd, ?semrd⟩
  case idle =>
    intro hd hok hnone htimed
    exact (exec_fence h b s).trans (hd.issue (fenceOp_of_idle hok rfl hnone (by rw [ht, htimed])))
  case timed =>
    intro hd hok hnone htimed
    refine (exec_fence h b s).trans (hd.issue ?_)
    rw [fenceOp_of_timed hok rfl hnone (by rw [ht, htimed]), ht]
  case covering =>
    intro hd hok hsome
    refine (exec_fence h b s).trans (hd.issue ?_)
    rw [fenceOp_of_covering hok rfl hsome, ht]
  case wait =>
    intro hd hok
    refine (exec_waita h b s).trans (hd.issue ?_)
    rw [waitOp_eq hok, State.reading_upd, State.reading_core]
    rfl
  case idem =>
    intro hd
    refine (exec_idem h b s).trans (hd.issue ?_)
    rw [State.reading_t]
  case semadd =>
    intro hd hm
    refine (exec_semadd h b s).trans (hd.issue ?_)
    rw [State.raiseBy_of_ne_zero _ hm, State.reading_core]
  case semrd =>
    intro hw
    rw [exec_semrd, execSemrd]
    exact hw.issue_landS (by rw [State.reading_core]; rfl)

/-- Settles O8: a jump continues the S queue alone (`jumpOp_reading`); a call and a return whose frame fits are `callOp_reading` and
`retOp_eq`. -/
theorem branchCallAndReturnComplete : Obligations.BranchCallAndReturnComplete := by
  intro s h b x y z t u goesTo index f ssp n framed called link returned
  refine ⟨?jmp, ?jmpr, ?call, ?callr, ?ret⟩
  case jmp => exact fun hd => (exec_jmp h b s).trans (hd.issue (jumpOp_reading ..))
  case jmpr => exact fun hd => (exec_jmpr h b s).trans (hd.issue (jumpOp_reading ..))
  case call => exact fun hd hframe hok => (exec_call h b s).trans (hd.issue (callOp_reading index hframe hok))
  case callr => exact fun hd hframe hok => (exec_callr h b s).trans (hd.issue (callOp_reading x.toNat hframe hok))
  case ret =>
    intro hd hok
    have ht : (u .ret).t = t := State.reading_t ..
    refine (exec_ret h b s).trans (hd.issue ?_)
    rw [retOp_eq (by rw [ht]; exact hok), ht]
    rfl

/-- Settles O10: a move lands one effect; a control register is read and written through `State.ctrl_reading` and
`State.setCtrl_reading`. -/
theorem registerMovesComplete : Obligations.RegisterMovesComplete := by
  intro s h b x y z t u r v written
  refine ⟨?lset, ?mfc, ?mtc, ?setg, ?sett⟩
  case lset =>
    intro n e hw hn he
    rw [exec_lset, execLset]
    exact hw.issue_landS (by simp only [hn, he])
  case mfc =>
    intro hw
    rw [exec_mfc, execMfc]
    exact hw.issue_landS (by rw [State.ctrl_reading]; rfl)
  case mtc =>
    intro hd hrot
    have hturns : ¬ (cregNum b = 0x0A ∧ (!t.rot) = true) := fun ⟨hr, hno⟩ => by
      rw [hrot hr] at hno
      cases hno
    refine (exec_mtc h b s).trans (hd.issue ?_)
    rw [State.reading_t, if_neg hturns, State.setCtrl_reading]
    rfl
  case setg =>
    intro n hw hn
    rw [exec_setg, execSetg]
    exact hw.issue_landS (by simp only [hn]; rfl)
  case sett =>
    intro n hw hn
    rw [exec_sett, execSett]
    exact hw.issue_landS (by simp only [hn])

end Sys2Proof.Machine

/-! PROOFS. Asynchronous accesses at their homes (R123, R190, R201, R203, R280 to R282): which outcome of an entry's action leaves what,
and what the action of each form answers. -/

namespace Sys2Proof.Machine

/-! Whose turn it is (R202, R251): outcomes of an entry's action. -/

/-- An entry of the strand acted on that `ACCESS_PERFORM` lets act. -/
structure Async.HasTurn (a : Async) (s : State) (id : Nat) : Prop where
  entry : s.t.entry id = some a
  performed : a.performed = false
  fence : a.fence = none
  waitsOn : a.waitsOn = false
  buffered : a.buffered = false
  order : s.mustWait a = false

/-- What `ACCESS_PERFORM` makes of an entry's action: it goes on, a fault holds it, a missing translation is walked, a write at a channel
under retirement is parked there, and what waits elsewhere is tried again (R352, R372). -/
def State.accessOutcome (s : State) (x id : Nat) : Except Stop State → State
  | .ok s2 => if s2.t.unperformed id then s2.settleFences.later (.accessPerform x id) else s2
  | .error (.trap tr) =>
    let held := (s.ecTaken tr).holdEntry id tr
    held.schedule (held.now + 1) (.accessPerform x id)
  | .error (.miss va write path) =>
    let walked := s.requestWalk va write path
    walked.schedule (walked.now + 1) (.accessPerform x id)
  | .error (.record _) => s.schedule (s.now + 1) (.accessPerform x id)
  | .error (.stall .retiring) => s.park (.accessPerform x id)
  | .error (.stall _) => s.schedule (s.now + 1) (.accessPerform x id)

theorem execAccessPerform_of_turn {s : State} {x id : Nat} {a : Async} (hturn : a.HasTurn { s with cur := x } id) :
    execAccessPerform x id s =
      .next (({ s with cur := x } : State).accessOutcome x id (({ s with cur := x } : State).entryStep a)) := by
  obtain ⟨hentry, hperformed, hfence, hwaits, hbuffered, horder⟩ := hturn
  simp only [execAccessPerform, hentry, hperformed, hfence, hwaits, hbuffered, horder, Option.isSome_none, Bool.or_self,
    Bool.false_eq_true, if_false]
  rfl

theorem State.accessOutcome_stall (s : State) (x id : Nat) (retires : Bool) :
    s.accessOutcome x id (stallStop (if retires then .retiring else .window)) =
      if retires then s.park (.accessPerform x id) else s.schedule (s.now + 1) (.accessPerform x id) := by
  cases retires <;> rfl

/-! The action of each scalar form. -/

/-- No scalar access waits for another agent but a store for its post (R329), and one whose write still waits at a boundary (R60). -/
theorem Async.waitsOn_of_scalar {a : Async} {i : SOp} {h : Hdr} {b : SBody} (hinstr : a.instr = i.instr h b)
    (hpost : a.phase ≠ 2) (happlying : a.phase ≠ applying) : a.waitsOn = false := by
  unfold waitsOn
  rw [hinstr]
  cases i <;> simp [SOp.instr, hpost, happlying]

section
variable {s s1 : State} {a : Async} {h : Hdr} {b : SBody} {v : Nat} {site : Site}

theorem State.entryStep_ldg (hinstr : a.instr = .ldg h b) : s.entryStep a = s.performLoad a := by
  rw [entryStep, hinstr]

theorem State.entryStep_stg (hinstr : a.instr = .stg h b) : s.entryStep a = s.performStore a := by
  rw [entryStep, hinstr]

/-- The atomics (R123). -/
def atomicForms : List SOp := [.aadd, .axchg, .acas, .amax]

theorem State.entryStep_atomic {i : SOp} (hi : i ∈ atomicForms) (hinstr : a.instr = i.instr h b) :
    s.entryStep a = s.performAtomic a := by
  simp only [atomicForms, List.mem_cons, List.not_mem_nil, or_false] at hi
  rcases hi with rfl | rfl | rfl | rfl <;> rw [entryStep, hinstr] <;> rfl

theorem State.performLoad_of_read
    (hread : s.wordRead (a.vals.getD 0 0) (a.vals.getD 1 0) false a.pas.head? = .ok (v, site, s1)) :
    s.performLoad a = .ok ((s1.performed a.id).deliver a.land [.ll (BitVec.ofNat 64 v)]) := by
  rw [performLoad, hread]

theorem State.performLoad_of_stop {stop : Stop}
    (hread : s.wordRead (a.vals.getD 0 0) (a.vals.getD 1 0) false a.pas.head? = .error stop) : s.performLoad a = .error stop := by
  rw [performLoad, hread]

theorem State.storeWord_of_goes {id e n w : Nat} {pa : Option Nat} {own : Option TlbEntry}
    (hsite : s.site e true pa own = .ok (site, s1)) (hgoes : s1.siteWaits site true = false) :
    s.storeWord id e n w pa own = .ok (s1.siteWrite id site (leBytes n w) [] e) := by
  simp [storeWord, hsite, hgoes]

theorem State.storeWord_of_waits {id e n w : Nat} {pa : Option Nat} {own : Option TlbEntry}
    (hsite : s.site e true pa own = .ok (site, s1)) (hwaits : s1.siteWaits site true = true) :
    s.storeWord id e n w pa own = s1.siteStall site true := by
  simp [storeWord, hsite, hwaits]

/-- A store outside path 0x7 is no post: it makes its one write, and a mirrored one goes on to its images. -/
theorem State.performStore_of_written (hphase : a.phase = 0) (hpath : pathOf (a.vals.getD 0 0) ≠ 7)
    (hstore : s.storeWord a.id (a.vals.getD 0 0) (a.vals.getD 1 0) (a.vals.getD 2 0) a.pas.head? a.trs.head? = .ok s1) :
    s.performStore a = .ok (if a.idx.isEmpty then s1.performedSkip a true else s1.imagesLeft a a.idx a.buf (a.pas.drop 1) 0) := by
  simp only [performStore, hphase, hpath, false_and, if_false, hstore]

theorem State.performStore_of_stop {stop : Stop} (hphase : a.phase = 0) (hpath : pathOf (a.vals.getD 0 0) ≠ 7)
    (hstore : s.storeWord a.id (a.vals.getD 0 0) (a.vals.getD 1 0) (a.vals.getD 2 0) a.pas.head? a.trs.head? = .error stop) :
    s.performStore a = .error stop := by
  simp only [performStore, hphase, hpath, false_and, if_false, hstore]

theorem State.performStore_image {ad y pa : Nat} {ads ys pas : List Nat} (hphase : a.phase = 1) (hidx : a.idx = ad :: ads)
    (hbuf : a.buf = y :: ys) (hpas : a.pas = pa :: pas) (hsite : s.site ad true (some pa) a.trs.head? = .ok (site, s1))
    (hgoes : s1.siteWaits site true = false) :
    s.performStore a =
      .ok ((s1.siteWrite a.id site (leBytes (a.vals.getD 1 0) y) [] ad).imagesLeft a ads ys pas (a.oor + 1)) := by
  simp [performStore, hphase, hidx, hbuf, hpas, storeWord_of_goes hsite hgoes]

theorem State.performAtomic_at_once
    (hread : s.wordRead (a.vals.getD 0 0) (a.vals.getD 1 0) true a.pas.head? a.trs.head? = .ok (v, site, s1))
    (hnow : s1.atomicWaits site = none) :
    s.performAtomic a =
      let new := atomicValue a.instr (atomicTy a.instr) v (a.vals.getD 2 0) (a.vals.getD 3 0)
      .ok (((s1.siteWrite a.id site (leBytes (a.vals.getD 1 0) new) [] (a.vals.getD 0 0)).performedSkip a false).deliver a.land
        [.ll (BitVec.ofNat 64 v)]) := by
  simp only [performAtomic, hread, hnow]

theorem State.performAtomic_at_boundary {core off y : Nat}
    (hread : s.wordRead (a.vals.getD 0 0) (a.vals.getD 1 0) true a.pas.head? a.trs.head? = .ok (v, .win core off, s1))
    (hlater : s1.atomicWaits (.win core off) = some y) :
    s.performAtomic a =
      .ok ((s1.putOff y { off := off, bs := List.replicate (a.vals.getD 1 0) 0, src := some (s1.cur, a.id)
                          rmw := some (a.instr, a.vals.getD 2 0, a.vals.getD 3 0) }).performed a.id) := by
  simp only [performAtomic, hread, hlater]

end

/-! Handle words (R190). -/

/-- A handle word whose bytes have come, nothing of which holds it back from the array. -/
structure Async.Serving (a : Async) (s : State) (id : Nat) : Prop where
  entry : s.t.entry id = some a
  performed : a.performed = false
  phase : a.phase = 1
  held : a.held = none
  paused : a.paused = false
  free : s.t.arrayFree a = true

theorem Async.serveEffs_matrix {a : Async} {op : MOp} {h : Hdr} {b : MBody} (hinstr : a.instr = op.instr h b) (s : State) :
    a.serveEffs s = a.matrixServe s b := by
  rw [serveEffs, hinstr]
  cases op <;> rfl

section
variable {s : State} {x id : Nat} {a : Async} {es : List Eff} (hserving : a.Serving { s with cur := x } id)
include hserving

/-- The array takes the word up. -/
theorem execHandleWordServe_of_new (hnew : a.service = none)
    (hpure : ({ s with cur := x } : State).farPoison (a.fp.filter fun r => !r.write && decide (0xC0000 ≤ r.lo % 2 ^ 21)) = .ok ())
    (hes : a.serveEffs { s with cur := x } = .ok es) :
    execHandleWordServe x id s =
      let taken := ({ s with cur := x } : State).upd fun t => t.setEntry id fun a => { a with service := some ⟨a.serveTime es, es⟩ }
      .next (taken.schedule (taken.now + taken.t.stride) (.handleWordServe x id)) := by
  obtain ⟨hentry, hperformed, hphase, hheld, hpaused, hfree⟩ := hserving
  simp only [execHandleWordServe, hentry, hperformed, hphase, hheld, hpaused, hfree, hnew, hpure, Except.bind, hes,
    Option.isSome_none, bne_self_eq_false, Bool.not_true, Bool.or_self, Bool.false_eq_true, if_false]

/-- The array works on the word for as long as it takes; then the word's latency runs, and then it delivers. -/
theorem execHandleWordServe_of_service {left : Nat} (hservice : a.service = some ⟨left, es⟩) :
    execHandleWordServe x id s =
      let leaves (k : Nat) : State :=
        ({ s with cur := x } : State).upd fun t => t.setEntry id fun a => { a with service := some ⟨k, es⟩ }
      let delivered := ({ s with cur := x } : State).applyEffs false es
      .next (if 1 < left then (leaves (left - 1)).schedule ((leaves (left - 1)).now + (leaves (left - 1)).t.stride) (.handleWordServe x id)
        else if left = 1 then (leaves 0).later (.handleWordServe x id)
        else (delivered.1.upd fun t => t.setEntry id fun a => { a with flags := fOr a.flags delivered.2 }).performed id) := by
  obtain ⟨hentry, hperformed, hphase, hheld, hpaused, hfree⟩ := hserving
  simp only [execHandleWordServe, hentry, hperformed, hphase, hheld, hpaused, hfree, hservice,
    Option.isSome_none, bne_self_eq_false, Bool.not_true, Bool.or_self, Bool.false_eq_true, if_false]

end

/-! Completion (R201, R203). -/

theorem Async.flagSize_eq (a : Async) :
    a.flagSize = match a.instr with | .gth _ _ => 8 | .sct _ _ => 8 | _ => 4 := by
  unfold flagSize isIndexed
  cases a.instr <;> rfl

section
variable {s : State} {x id : Nat} {a : Async} (hentry : ({ s with cur := x } : State).t.entry id = some a)
include hentry

/-- An access that has performed has the count of its store left to make. -/
theorem execAccessPerform_of_count {o k : Nat} (hperformed : a.performed = true) (hcount : a.count = some (o, k)) :
    execAccessPerform x id s = .next (({ s with cur := x } : State).countStep a o k) := by
  simp only [execAccessPerform, hentry, hperformed, hcount, if_true]

/-- A command without a flag word to write or a count to make leaves the list with its completion. -/
theorem execCommandCompletion_of_last (hperformed : a.performed = true) (hopen : a.open_ = true) (hflag : a.flag = none)
    (hcount : a.count = none) :
    execCommandCompletion x id s =
      let s1 : State := { s with cur := x }
      let s2 := match a.chan with
        | some ch => s1.updCore s1.core fun k => { k with chans := mset ch ((s1.chan s1.core ch).complete a.xid) k.chans }
        | none => s1
      .next (((s2.upd fun t => (t.setFlags a.flags).noteDone a).raiseAsync a.spost).upd fun t =>
        { t with asyncs := t.asyncs.filter fun a => a.id != id }) := by
  cases hchan : a.chan <;>
    simp only [execCommandCompletion, hentry, hperformed, hopen, hflag, hcount, hchan, Bool.not_true, Bool.or_self, Bool.false_eq_true,
      if_false, Option.isSome_none]

/-- A completed command writes its flag word and leaves the list. -/
theorem execFlagWrite_of_closed {at_ f : Nat} (hclosed : a.open_ = false) (hflag : a.flag = some (at_, f)) :
    execFlagWrite x id s =
      let s1 : State := { s with cur := x }
      .next ((s1.chipWrite s1.core at_ (leBytes a.flagSize (f % 2 ^ 32 + a.oor % 2 ^ 32 * 2 ^ 32))).upd fun t =>
        { t with asyncs := t.asyncs.filter fun a => a.id != id }) := by
  simp only [execFlagWrite, hentry, hclosed, hflag, Bool.false_eq_true, if_false]

end

/-- A count whose header no footprint covers is made, and the entry of a completed access leaves the list with it (R279). -/
theorem State.countStep_of_free {s : State} {a : Async} {sb : Sym} {o k : Nat} (hsym : s.symOf s.t = some sb)
    (hfree : s.ringBusy sb o = false) (hclosed : a.open_ = false) :
    s.countStep a o k = (s.countRing sb o k).upd fun t => { t with asyncs := t.asyncs.filter fun b => b.id != a.id } := by
  simp only [countStep, hsym, hfree, hclosed, Bool.false_eq_true, if_false]

section
variable (x id : Nat) (s : State)

theorem exec_accessPerform : exec (.accessPerform x id) s = execAccessPerform x id s := rfl
theorem exec_handleWordServe : exec (.handleWordServe x id) s = execHandleWordServe x id s := rfl
theorem exec_commandCompletion : exec (.commandCompletion x id) s = execCommandCompletion x id s := rfl
theorem exec_flagWrite : exec (.flagWrite x id) s = execFlagWrite x id s := rfl

end

/-- Settles O34: an entry that has its turn acts by its form (`execAccessPerform_of_turn`), a handle word by what the array has left to do
(`execHandleWordServe_of_service`); counts, completion and flag write are the equations above. -/
theorem asynchronousAccessesPerform : Obligations.AsynchronousAccessesPerform := by
  intro s x id a h b mh mb v site s1 u e n w p q first next stops counted atomic served serving cycleOn hentry hid
  subst hid
  have hturn {i : SOp} (hfirst : first) (hinstr : a.instr = i.instr h b) : a.HasTurn u a.id := by
    obtain ⟨hperformed, hfence, hbuffered, horder, hphase⟩ := hfirst
    exact ⟨hentry, hperformed, hfence, Async.waitsOn_of_scalar hinstr (by simp [hphase]) (by simp [hphase, applying]), hbuffered, horder⟩
  have hphase (hfirst : first) : a.phase = 0 := by
    obtain ⟨-, -, -, -, hphase⟩ := hfirst
    exact hphase
  have houtcome (hmine : a.HasTurn u a.id) {r : Except Stop State} (hstep : u.entryStep a = r) :
      exec (.accessPerform x a.id) s = .next (u.accessOutcome x a.id r) := by
    rw [exec_accessPerform, execAccessPerform_of_turn hmine, hstep]
  have hnext (hmine : a.HasTurn u a.id) {s2 : State} (hstep : u.entryStep a = .ok s2) : next s2 := houtcome hmine hstep
  have hatomic {i : SOp} (hi : i ∈ atomicForms) {new : Nat}
      (hnew : atomicValue (i.instr h b) (atomicTy (i.instr h b)) v p q = new) : atomic i new := by
    intro hfirst hinstr hread hnow
    refine hnext (hturn hfirst hinstr) ?_
    rw [State.entryStep_atomic hi hinstr, State.performAtomic_at_once hread hnow, hinstr, ← hnew]
    rfl
  have hserves {op : MOp} (hs : serving op) : a.Serving u a.id := by
    obtain ⟨-, hperformed, hphase, hheld, hpaused, hfree⟩ := hs
    exact ⟨hentry, hperformed, hphase, hheld, hpaused, hfree⟩
  refine ⟨?load, ?loadTrap, ?loadMiss, ?store, ?mirrored, ?storeWaits, ?image, ?aadd, ?axchg, ?acas, ?amax, ?boundary, ?count, ?takes,
    ?works, ?ends, ?delivers, ?completes, ?flag⟩
  case load =>
    intro hfirst hinstr hread
    exact hnext (hturn (i := .ldg) hfirst hinstr) ((State.entryStep_ldg hinstr).trans (State.performLoad_of_read hread))
  case loadTrap =>
    intro hfirst hinstr tr hread
    exact houtcome (hturn (i := .ldg) hfirst hinstr) ((State.entryStep_ldg hinstr).trans (State.performLoad_of_stop hread))
  case loadMiss =>
    intro hfirst hinstr va wr path hread
    exact houtcome (hturn (i := .ldg) hfirst hinstr) ((State.entryStep_ldg hinstr).trans (State.performLoad_of_stop hread))
  case store =>
    intro hfirst hinstr hpath hsite hgoes hplain
    refine hnext (hturn (i := .stg) hfirst hinstr) ?_
    rw [State.entryStep_stg hinstr, State.performStore_of_written (hphase hfirst) hpath (State.storeWord_of_goes hsite hgoes), hplain]
    rfl
  case mirrored =>
    intro hfirst hinstr hpath hsite hgoes himages
    refine hnext (hturn (i := .stg) hfirst hinstr) ?_
    rw [State.entryStep_stg hinstr, State.performStore_of_written (hphase hfirst) hpath (State.storeWord_of_goes hsite hgoes),
      if_neg (mt List.isEmpty_iff.mp himages)]
  case storeWaits =>
    intro hfirst hinstr hpath g hsite hwaits
    have hstall : s1.siteStall (.mem .dram g) true = (stallStop (if s1.retiring g then .retiring else .window) : Except Stop State) := rfl
    have hstep := (State.entryStep_stg hinstr).trans
      (State.performStore_of_stop (hphase hfirst) hpath ((State.storeWord_of_waits hsite hwaits).trans hstall))
    exact (houtcome (hturn (i := .stg) hfirst hinstr) hstep).trans (congrArg Host.Outcome.next (u.accessOutcome_stall ..))
  case image =>
    intro ad ads y ys pa pas hperformed hfence hbuffered horder hphase hinstr hidx hbuf hpas hsite hgoes
    have hwaits : a.waitsOn = false := Async.waitsOn_of_scalar (i := .stg) hinstr (by simp [hphase]) (by simp [hphase, applying])
    refine hnext ⟨hentry, hperformed, hfence, hwaits, hbuffered, horder⟩ ?_
    rw [State.entryStep_stg hinstr, State.performStore_image hphase hidx hbuf hpas hsite hgoes]
  case aadd => exact hatomic (by decide) rfl
  case axchg => exact hatomic (by decide) rfl
  case acas => exact hatomic (by decide) rfl
  case amax => exact hatomic (by decide) rfl
  case boundary =>
    intro i hi core off y hfirst hinstr hread hlater
    exact hnext (hturn hfirst hinstr) ((State.entryStep_atomic hi hinstr).trans (State.performAtomic_at_boundary hread hlater))
  case count =>
    intro sb o k hsym hperformed hclosed hcount hfree
    rw [exec_accessPerform, execAccessPerform_of_count hentry hperformed hcount, State.countStep_of_free hsym hfree hclosed]
    rfl
  case takes =>
    intro op es hs hnew hpure hes
    obtain ⟨hinstr, -⟩ := id hs
    exact execHandleWordServe_of_new (hserves hs) hnew hpure ((Async.serveEffs_matrix hinstr u).trans hes)
  case works =>
    intro op es k hs hleft
    rw [exec_handleWordServe, execHandleWordServe_of_service (hserves hs) hleft]
    exact congrArg Host.Outcome.next (if_pos (by omega))
  case ends =>
    intro op es hs hleft
    exact execHandleWordServe_of_service (hserves hs) hleft
  case delivers =>
    intro op es hs hleft
    exact execHandleWordServe_of_service (hserves hs) hleft
  case completes =>
    intro hperformed hopen hflag hcount
    exact execCommandCompletion_of_last hentry hperformed hopen hflag hcount
  case flag =>
    intro at_ f hclosed hflag size
    have hsize : a.flagSize = size := a.flagSize_eq
    rw [exec_flagWrite, execFlagWrite_of_closed hentry hclosed hflag, hsize]

end Sys2Proof.Machine

/-! PROOFS. Integer elements of class V (R143, R144, R145): an element is its value modulo 2^w, and a result is what it is congruent
to. -/

namespace Sys2Proof.Machine

/-! Wrapped integers (R9). -/

theorem wrap_eq (w : Nat) (v : Int) : wrap w v = (v % 2 ^ w).toNat := by
  rw [wrap, Int.natCast_pow]
  rfl

theorem wrap_congr {w : Nat} {v u : Int} (h : v % 2 ^ w = u % 2 ^ w) : wrap w v = wrap w u := by rw [wrap_eq, wrap_eq, h]

theorem wrap_natCast (w n : Nat) : wrap w n = n % 2 ^ w := by
  rw [wrap, ← Int.natCast_emod, Int.toNat_natCast]

/-- A truth value fits every type. -/
theorem wrap_b2n (ty : Ty) (c : Bool) : wrap ty.width (b2n c) = b2n c := by
  cases ty <;> cases c <;> rfl

theorem sext_mod (w n : Nat) : sext w (n % 2 ^ w) = sext w n := by simp only [sext, Nat.mod_mod]

/-! Elements of the operation's own type (R136). -/

section
variable {e : El} {ty : Ty} (h : e.ty = ty)
include h

theorem El.as_self : e.as ty = e.code % 2 ^ ty.width := if_pos h

theorem El.int_emod : e.int % 2 ^ ty.width = e.code % 2 ^ ty.width := by
  subst h
  unfold El.int
  split
  · exact sext_emod ..
  · exact natCast_mod_emod ..

theorem El.as_eq_wrap_int : e.as ty = wrap ty.width e.int := by
  rw [El.as_self h, ← wrap_natCast, wrap_congr (El.int_emod h)]

/-- An element's value is within its type's range: it reads back from its own wrap. -/
theorem El.int_mk_wrap_int : El.int ⟨ty, wrap ty.width e.int⟩ = e.int := by
  rw [← El.as_eq_wrap_int h, El.as_self h]
  subst h
  simp only [El.int, sext_mod, Nat.mod_mod]

theorem El.isZero_iff (hint : ty.isInt = true) : e.x.isZero = true ↔ e.int = 0 := by
  have hx : e.x = .ofInt e.int := by
    subst h
    simp only [El.x, decode, if_pos hint, El.int, sext_mod]
  rw [hx, XReal.ofInt, XReal.isZero]
  simp [Mag.isZero, Mag.ofNat]

end

/-! The shared operations, of integers (R112, R143, R144, R145). -/

theorem intRange_le (ty : Ty) : (intRange ty).1 ≤ (intRange ty).2 := by cases ty <;> decide

theorem clampTy_eq (ty : Ty) (v : Int) : clampTy ty v = max (intRange ty).1 (min (intRange ty).2 v) := by
  have hle := intRange_le ty
  simp only [clampTy]
  split
  · omega
  · split <;> omega

/-- A byte of a 32-bit word is a byte of the number whose low bits the word holds. -/
theorem byteOf_mod (ty : Ty) (n : Nat) {j : Nat} (hj : j < 4) : byteOf ty (n % 2 ^ 32) j = byteOf ty n j := by
  have hbyte : n % 2 ^ 32 / 2 ^ (8 * j) % 2 ^ 8 = n / 2 ^ (8 * j) % 2 ^ 8 := by
    obtain rfl | rfl | rfl | rfl : j = 0 ∨ j = 1 ∨ j = 2 ∨ j = 3 := by omega
    all_goals omega
  have hsext : sext 8 (n % 2 ^ 32 / 2 ^ (8 * j)) = sext 8 (n / 2 ^ (8 * j)) := by rw [← sext_mod, hbyte, sext_mod]
  have hbyte256 : n % 2 ^ 32 / 2 ^ (8 * j) % 256 = n / 2 ^ (8 * j) % 256 := hbyte
  rw [byteOf, byteOf, hsext, hbyte256]

section
variable {b : VBody} {x y z : El}

/-- A result without NE is wrapped, with `.sat` after a clamp (R143). -/
theorem intOut_eq (hne : b.ne = false) (v : Int) :
    intOut b v = (wrap b.ty.width (if b.vx.getLsbD 0 then max (intRange b.ty).1 (min (intRange b.ty).2 v) else v), 0) := by
  have hbit : bit b.vx.toNat 0 = b.vx.getLsbD 0 := bit_eq_testBit ..
  rw [intOut, hne, hbit, ← clampTy_eq]
  cases b.vx.getLsbD 0 <;> rfl

section
variable (hx : x.ty = b.ty) (hy : y.ty = b.ty)
include hx hy

/-- A shift takes the low bits of both elements (R112). -/
theorem shiftForm_eq (f : Ty → Word → Nat → Int) :
    shiftForm b f x y = (wrap b.ty.width (f b.ty (low b.ty.width x.code) (y.code % 2 ^ b.ty.width % 256)), 0) := by
  rw [shiftForm, El.as_self hx, El.as_self hy, low_natCast]

/-- The larger of two values of a type is one of that type. -/
theorem int_mk_wrap_max : El.int ⟨b.ty, wrap b.ty.width (max x.int y.int)⟩ = max x.int y.int := by
  have hone : max x.int y.int = x.int ∨ max x.int y.int = y.int := by omega
  rcases hone with h | h
  · rw [h, El.int_mk_wrap_int hx]
  · rw [h, El.int_mk_wrap_int hy]

theorem int_mk_wrap_min : El.int ⟨b.ty, wrap b.ty.width (min x.int y.int)⟩ = min x.int y.int := by
  have hone : min x.int y.int = x.int ∨ min x.int y.int = y.int := by omega
  rcases hone with h | h
  · rw [h, El.int_mk_wrap_int hx]
  · rw [h, El.int_mk_wrap_int hy]

end

variable (hint : b.ty.isInt = true)
include hint

theorem arith_int (draw : Nat) (v : Int) (f : XReal × Nat) : arith b draw v f = intOut b v := if_pos hint

theorem compare_int {p : Int → Int → Bool} {c : Prop} [Decidable c] (hp : p x.int y.int = decide c) (f : XReal → XReal → Bool)
    (quiet : Bool) : compare b p f quiet x y = (wrap b.ty.width (if c then 1 else 0), 0) := by
  have hb2n : (if c then 1 else 0 : Int) = b2n (decide c) := by by_cases hc : c <;> simp [b2n, hc]
  rw [compare, if_pos hint, hp, hb2n, wrap_b2n]

variable (hx : x.ty = b.ty) (hy : y.ty = b.ty)
include hx hy

theorem pick_max_int : pick b true x y = (wrap b.ty.width (max x.int y.int), 0) := by
  have hmax : max x.int y.int = if x.int < y.int then y.int else x.int := by omega
  rw [pick, if_pos hint, El.as_eq_wrap_int hx, El.as_eq_wrap_int hy, hmax]
  simp only [if_true, decide_eq_true_eq, apply_ite (wrap b.ty.width)]

theorem pick_min_int : pick b false x y = (wrap b.ty.width (min x.int y.int), 0) := by
  have hmin : min x.int y.int = if y.int < x.int then y.int else x.int := by omega
  rw [pick, if_pos hint, El.as_eq_wrap_int hx, El.as_eq_wrap_int hy, hmin]
  simp only [Bool.false_eq_true, if_false, decide_eq_true_eq, apply_ite (wrap b.ty.width)]

/-- `vclamp` makes its result of the value that it has picked twice (R144). -/
theorem vElem_vclamp_int (hne : b.ne = false) (hz : z.ty = b.ty) (i draw : Nat) :
    vElem .vclamp b i x y z draw = intOut b (min (max x.int y.int) z.int) := by
  have hmax := int_mk_wrap_max hx hy
  have hmin := int_mk_wrap_min (x := ⟨b.ty, wrap b.ty.width (max x.int y.int)⟩) rfl hz
  have hpick := pick_min_int (x := ⟨b.ty, wrap b.ty.width (max x.int y.int)⟩) hint rfl hz
  rw [hmax] at hmin hpick
  simp only [vElem, pick_max_int hint hx hy, hpick, hmin, arith_int hint, intOut_eq hne]
  rfl

end

/-- Settles O15: a form's result is the wrap of its exact value, clamped or not, and an element is congruent to its value
(`El.int_emod`). -/
theorem vectorIntegerElements : Obligations.VectorIntegerElements := by
  intro b i x y z draw hint hne hx hy hz w sat elem
  have helem {op : VOp} {v : Int} (h : vElem op b i x y z draw = (wrap w v, 0)) : elem op v := by
    rw [wrap_eq] at h
    exact h
  have hcode {op : VOp} {n : Nat} (h : vElem op b i x y z draw = (n % 2 ^ w, 0)) : elem op n :=
    helem (h.trans (by rw [wrap_natCast]))
  have hout (v : Int) : intOut b v = (wrap w (sat v), 0) := intOut_eq hne v
  have htoNat (n : Nat) : (low w n).toNat = n % 2 ^ w := toNat_low_natCast b.ty.width_le n
  refine ⟨?vadd, ?vsub, ?vmul, ?vmad, ?vabs, ?vneg, ?vmin, ?vmax, ?viota, ?vand, ?vor, ?vxor, ?vmov, ?vfill, ?vceq, ?vcne, ?vclt,
    ?vcle, ?vshl, ?vshr, ?vsar, ?vclamp, ?vsel, ?vdp4⟩
  case vadd => exact helem ((arith_int hint ..).trans (hout _))
  case vsub => exact helem ((arith_int hint ..).trans (hout _))
  case vmul => exact helem ((arith_int hint ..).trans (hout _))
  case vmad => exact helem (hout _)
  case vabs =>
    have habs : (x.int.natAbs : Int) = if x.int < 0 then -x.int else x.int := by omega
    rw [← habs]
    exact helem ((if_pos hint).trans (hout _))
  case vneg => exact helem ((if_pos hint).trans (hout _))
  case vmin => exact helem (pick_min_int hint hx hy)
  case vmax => exact helem (pick_max_int hint hx hy)
  case viota => exact helem rfl
  case vand => exact hcode (by rw [Nat.and_mod_two_pow, ← El.as_self hx, ← El.as_self hy]; rfl)
  case vor => exact hcode (by rw [Nat.or_mod_two_pow, ← El.as_self hx, ← El.as_self hy]; rfl)
  case vxor => exact hcode (by rw [Nat.xor_mod_two_pow, ← El.as_self hx, ← El.as_self hy]; rfl)
  case vmov => exact hcode (by rw [← El.as_self hx]; rfl)
  case vfill => exact hcode (by rw [← El.as_self hx]; rfl)
  case vceq => exact helem (compare_int hint rfl ..)
  case vcne =>
    rw [← ite_not]
    exact helem (compare_int (p := fun m n => m != n) hint (decide_not ..).symm (fun m n => !XReal.eq m n) true)
  case vclt => exact helem (compare_int (p := fun m n => decide (m < n)) hint rfl XReal.lt false)
  case vcle => exact helem (compare_int (p := fun m n => decide (m ≤ n)) hint rfl XReal.le false)
  case vshl =>
    refine hcode ((shiftForm_eq hx hy shlInt).trans ?_)
    rw [shlInt, htoNat]
    split
    · rw [Nat.zero_mod]
      rfl
    · rw [wrap_natCast, Nat.mod_mul_mod]
  case vshr =>
    refine hcode ((shiftForm_eq hx hy shrInt).trans ?_)
    rw [shrInt_eq, wrap_natCast, htoNat, Nat.mod_mod]
  case vsar =>
    refine helem ((shiftForm_eq hx hy sarInt).trans ?_)
    rw [sarInt, htoNat, sext_mod, Int.natCast_pow]
    rfl
  case vclamp => exact helem ((vElem_vclamp_int hint hx hy hne hz i draw).trans (hout _))
  case vsel =>
    have hzero : vElem .vsel b i x y z draw = (if z.int = 0 then y.code % 2 ^ w else x.code % 2 ^ w, 0) := by
      simp only [vElem, El.isZero_iff hz hint, El.as_self hx, El.as_self hy]
      rfl
    refine helem (hzero.trans ?_)
    split <;> rw [wrap_natCast]
  case vdp4 =>
    intro p q hp hq byte
    have hbyte : ∀ e : El, e.ty = .n32 → ∀ j < 4, byteOf b.ty (e.as .n32) j = byte e j := by
      intro e he j hj
      rw [El.as_self he]
      exact byteOf_mod b.ty e.code hj
    have hdot : vElem .vdp4 b i p q z draw = (wrap 32 (dot4 b.ty (p.as .n32) (q.as .n32) z.int), 0) := rfl
    rw [hdot, dot4_eq, wrap_eq]
    simp only [hbyte p hp, hbyte q hq, Nat.reduceLT, ← Int.add_assoc]

end Sys2Proof.Machine

/-! PROOFS. Streams of classes V and F at issue (R139, R142, R152): what a word leaves that becomes a stream, and one of no element. -/

namespace Sys2Proof.Machine

theorem ceilDiv_zero (per : Nat) : ceilDiv 0 per = 0 := by
  rcases Nat.eq_zero_or_pos per with rfl | hpos
  · rfl
  · exact Nat.div_eq_of_lt (by omega)

/-! What the start of a stream leaves of its strand. -/

section
variable (t : Strand) (e : Eng) (k : Nat)

theorem Strand.setStreamEnd_seq : (t.setStreamEnd e k).seq = t.seq := by
  unfold Strand.setStreamEnd
  split <;> rfl

theorem Strand.setStreamEnd_timed : (t.setStreamEnd e k).timed = t.timed := by
  unfold Strand.setStreamEnd
  split <;> rfl

theorem Strand.setStreamEnd_resultEff (b : VBody) (v : Nat) : (t.setStreamEnd e k).resultEff b v = t.resultEff b v := by
  unfold Strand.setStreamEnd
  split <;> rfl

theorem Strand.setStreamEnd_draws (m : Rnd) (n : Nat) : (t.setStreamEnd e k).draws m n = t.draws m n := by
  unfold Strand.setStreamEnd
  split <;> rfl

end

/-- Draws taken of the strand that a state has been given, then a change of it. -/
theorem State.draw_setStrand_upd (s : State) (t : Strand) (m : Rnd) (n : Nat) (f : Strand → Strand) :
    ((s.setStrand s.cur t).draw m n).2.upd f = s.setStrand s.cur (f (t.drawn m n)) := by
  rw [State.draw_upd, State.t_setStrand, State.setStrand_cur, State.setStrand_setStrand]

theorem State.draw_setStrand_fst (s : State) (t : Strand) (m : Rnd) (n : Nat) :
    ((s.setStrand s.cur t).draw m n).1 = t.draws m n := by rw [State.draw_eq, State.t_setStrand]

/-! A stream word that its checks let go. -/

/-- The strand cycle at which a stream issued now starts (R139). -/
def State.nextStart (s : State) (e : Eng) : Nat := Nat.max s.t.ctx.sclk (s.t.streamEnd e)

/-- The strand cycles of a group: the longest of its regions' (R140). -/
def StreamForm.groupCycles (k : StreamForm) (rs : List (Nat × Rgn)) : Nat :=
  rs.foldl (fun m x => Nat.max m (k.time x.1 x.2)) 1

section
variable {s : State} {e : Eng} {i : Instr} {f : VForm} {h : Hdr} {b : VBody} {k : StreamForm} {n x : Nat} {rs : List (Nat × Rgn)}
  {vs : List Word} {t : Strand} (hcur : s.cur = x) (hcheck : s.t.streamCheck e f b k = .ok (n, rs))
  (hreads : s.t.streamOperands e f h b = .ok (vs, t))
  (hgate : s.regionGate (k.groupCycles rs) (s.nextStart e) (rs.map (k.use n)) (k.late n) = .ok ())
include hcur hcheck hreads hgate

/-- A word with elements becomes a stream and takes the draws of its elements (R139, R142). -/
theorem streamOp_of_elements (hn : n ≠ 0) :
    streamOp e i f h b k s =
      let c := k.groupCycles rs
      let g := ceilDiv n k.per
      let t1 := (t.setStreamEnd e (s.nextStart e + g * c)).drawn b.rnd (k.draws n)
      .ok { own := true
            s := s.setStrand x
              { t1 with
                timed := t1.timed ++ rs.flatMap (k.timed n g c (s.nextStart e))
                streams := t1.streams ++
                  [{ seq := t1.seq, eng := e, instr := i, start := s.nextStart e, c := c, groups := g, n := n
                     regs := (List.range 4).map fun j => t1.desc (formOpd f b j)
                     scal := vs.map BitVec.toNat, draws := t.draws b.rnd (k.draws n), spost := h.spost.val, tok := t1.seq
                     phys := match b.d with | .q q => t1.physQ q.val | _ => 0 }] } } := by
  subst hcur
  unfold StreamForm.groupCycles State.nextStart at hgate
  simp only [streamOp, hcheck, hreads, hgate, if_neg hn, State.draw_setStrand_upd, State.draw_setStrand_fst,
    Strand.setStreamEnd_draws]
  rfl

/-- A word of no elements holds nothing (R136). -/
theorem streamOp_of_none (hn : n = 0) (hempty : k.empty = none) :
    streamOp e i f h b k s = .ok { s := s.setStrand x (t.setStreamEnd e (s.nextStart e)) } := by
  subst hcur hn
  unfold StreamForm.groupCycles State.nextStart at hgate
  simp only [streamOp, hcheck, hreads, hgate, hempty, ceilDiv_zero, Nat.zero_mul, Nat.add_zero]
  rfl

/-- A reduction of no elements delivers its value for them (R136, R146). -/
theorem streamOp_of_empty {v : Nat} (hn : n = 0) (hempty : k.empty = some v) :
    streamOp e i f h b k s =
      .ok { own := true
            s := s.setStrand x
              { (t.setStreamEnd e (s.nextStart e)).addLanding
                  { id := 0, seq := t.seq, due := s.nextStart e + k.lat, effs := [t.resultEff b v], spost := h.spost.val } with
                timed := t.timed ++ rs.flatMap fun r =>
                  if r.1 = 3 then r.2.timed (k.cells n r) (k.cells n r) 1 (s.nextStart e + k.lat) true else [] } } := by
  subst hcur hn
  unfold StreamForm.groupCycles State.nextStart at hgate
  simp only [streamOp, hcheck, hreads, hgate, hempty, ceilDiv_zero, Nat.zero_mul, Nat.add_zero, State.upd_setStrand,
    Strand.setStreamEnd_seq, Strand.setStreamEnd_resultEff, Strand.setStreamEnd_timed]
  rfl

end

/-! The instructions. -/

theorem exec_vInstr (op : VOp) (h : Hdr) (b : VBody) (s : State) : exec (op.instr h b) s = issueV op h b s := by cases op <;> rfl

theorem exec_fInstr (op : FOp) (h : Hdr) (b : VBody) (s : State) : exec (op.instr h b) s = issueF op h b s := by cases op <;> rfl

/-- An F word whose destination is no latch is in stream mode (R151). -/
theorem issueF_of_stream {op : FOp} {h : Hdr} {b : VBody} {s : State} (hd : ∀ l, b.d ≠ .lf l) :
    issueF op h b s = .next (s.issue (.f op h b) (streamOp .f (op.instr h b) op.form h b (fForm op b))) := by
  unfold issueF
  split
  next l hl => exact absurd hl (hd l)
  next => rfl

/-- Settles O13: a ready word leaves what its operation answers, which is the equation above of its case. -/
theorem streamWordsIssue : Obligations.StreamWordsIssue := by
  intro s h b n rs vs t streams
  have hstreams {e : Eng} {i : Instr} {v : View} {f : VForm} {k : StreamForm}
      (hexec : exec i s = .next (s.issue v (streamOp e i f h b k))) : streams e i v f k := by
    unfold streams
    intro u start c g cells uses t1 timed issued idle empty hready hcheck hreads hgate
    refine ⟨fun hn hquiet => ?elements, fun hn hempty hquiet => ?none, fun x hn hempty hquiet => ?empty⟩
    case elements =>
      have hop : streamOp e i f h b k u = .ok issued := streamOp_of_elements (s.acting_cur v) hcheck hreads hgate hn
      exact hexec.trans (congrArg _ (State.issue_ready hready hop hquiet))
    case none =>
      have hop : streamOp e i f h b k u = .ok idle := streamOp_of_none (s.acting_cur v) hcheck hreads hgate hn hempty
      exact hexec.trans (congrArg _ (State.issue_ready hready hop hquiet))
    case empty =>
      have hop : streamOp e i f h b k u = .ok (empty x) := streamOp_of_empty (s.acting_cur v) hcheck hreads hgate hn hempty
      exact hexec.trans (congrArg _ (State.issue_ready hready hop hquiet))
  exact ⟨fun op => hstreams (exec_vInstr op h b s), fun op hd => hstreams ((exec_fInstr op h b s).trans (issueF_of_stream hd))⟩

end Sys2Proof.Machine

/-! PROOFS. What a stream's groups and the timed matrix words read at their start (R139, R140, R181, R182). -/

namespace Sys2Proof.Machine

/-! The view of an instruction. -/

theorem view_vInstr (op : VOp) (h : Hdr) (b : VBody) : (op.instr h b).view = some (.v op h b) := by cases op <;> rfl
theorem view_fInstr (op : FOp) (h : Hdr) (b : VBody) : (op.instr h b).view = some (.f op h b) := by cases op <;> rfl
theorem view_mInstr (op : MOp) (h : Hdr) (b : MBody) : (op.instr h b).view = some (.m op h b) := by cases op <;> rfl

/-! A group of a stream (R139, R142). -/

/-- The result of each element of an element-wise group lands, in the order of the elements, with the word's flags in the last group
alone. -/
theorem State.mapGroup_some (s : State) (st : Stream) (lat per : Nat) (f : Nat → Nat × Nat) :
    (s.mapGroup st lat per fun i => some (f i)) =
      let fl := (st.elems per).foldl (fun a i => fOr a (f i).2) st.flags
      let last := decide (st.groups ≤ st.next + 1)
      s.upd fun t => ({ t with pend := t.pend ++
        [{ id := 0, seq := st.seq, kind := .group, due := st.start + lat + (st.next + 1) * st.c
           effs := (st.elems per).map fun i => (rgn (st.regs.getD 3 0)).put i (f i).1
           flags := if last then fl else 0, spost := if last then st.spost else 0 }] } : Strand).putStream
          { st with next := st.next + 1, flags := fl } := by
  simp only [State.mapGroup, State.landGroup, List.filterMap_eq_map', List.foldl_map, List.map_map]
  rfl

/-- A V form that is no reduction, scan or permute and quantises no block works element by element (R143, R144, R145). -/
theorem State.vGroup_of_elementwise {op : VOp}
    (hop : op ∉ [.vrsum, .vrmax, .vrmin, .vrarg, .vscan, .vperm, .vbcast, .vgthl, .vrev, .vqmax, .vqcvt]) (s : State) (b : VBody)
    (st : Stream) :
    s.vGroup op b st = s.mapGroup st 5 64 fun i =>
      some (vElem op b i (st.el s op.form b (vScalTy op b 0) 0 i) (st.el s op.form b (vScalTy op b 1) 1 i)
        (st.el s op.form b (vScalTy op b 2) 2 i) (st.draws.getD i 0)) := by
  unfold State.vGroup
  split
  case h_12 => rfl
  all_goals exact absurd (by decide) hop

section
variable {s : State} {x : Nat} {e : Eng} {st : Stream} (hdue : ({ s with cur := x } : State).t.dueStream e = some st)
include hdue

theorem exec_streamStart_of_due :
    exec (.streamStart x e) s = .next (s.setStrand x ((s.strandAt x).putStream { st with started := true })) := by
  show execStreamStart x e s = _
  have h : (s.strandAt x).dueStream e = some st := hdue
  simp only [execStreamStart, h]

theorem exec_streamGroupRead_of_due : exec (.streamGroupRead x e) s = .next (({ s with cur := x } : State).groupRead st) := by
  show execStreamGroupRead x e s = _
  simp only [execStreamGroupRead, hdue]

end

/-! A timed matrix word (R181, R182). -/

/-- The word that comes first in the array's order starts; `mdrt` alone may clear what it reads (R195). -/
theorem State.mStart_of_first {s : State} {m : MPend} {r : List MPend} {op : MOp} {h : Hdr} {b : MBody} (hfirst : s.t.mpend = m :: r)
    (hinstr : m.instr = op.instr h b) (hop : op ≠ .mdrt) :
    s.mStart = s.upd fun t =>
      { t with
        mpend := r
        pend := t.pend ++ [{ id := 0, seq := m.seq, kind := .matrix, due := m.deliver, effs := (s.mEffs op b m).1
                             flags := (s.mEffs op b m).2, spost := m.spost }] } := by
  have hview : m.instr.view = some (.m op h b) := hinstr ▸ view_mInstr op h b
  have hclear : s.mClear op b m = s := if_neg fun hc => hop hc.1
  simp only [State.mStart, hfirst, hview, hclear]

/-- Settles O32: the events do what they do for the stream or the word that is due, whose view is that of its instruction. -/
theorem streamsAndMatrixWordsRead : Obligations.StreamsAndMatrixWordsRead := by
  intro s x e st h b m r mb u group
  refine ⟨?start, ?vector, ?special, ?matrix⟩
  case start => exact exec_streamStart_of_due
  case vector =>
    intro op hdue hinstr hop
    have hview : st.instr.view = some (.v op h b) := hinstr ▸ view_vInstr op h b
    rw [exec_streamGroupRead_of_due hdue, State.groupRead, hview]
    exact congrArg Host.Outcome.next ((State.vGroup_of_elementwise hop ..).trans (State.mapGroup_some ..))
  case special =>
    intro op hdue hinstr
    have hview : st.instr.view = some (.f op h b) := hinstr ▸ view_fInstr op h b
    rw [exec_streamGroupRead_of_due hdue, State.groupRead, hview]
    exact congrArg Host.Outcome.next (State.mapGroup_some ..)
  case matrix =>
    intro op hfirst hinstr hop
    show Host.Outcome.next u.mStart = _
    rw [State.mStart_of_first hfirst hinstr hop]
    rfl

end Sys2Proof.Machine

/-! PROOFS. Latch mode of class F (R151, R152, R153): the latency of each form, and the one landing that a latch-mode word leaves. -/

namespace Sys2Proof.Machine

/-- The latencies of the special functions by their groups (R153). -/
theorem fLat_eq (op : FOp) :
    fLat op =
      if op = .frcpe ∨ op = .frsqe then 4
      else if op = .fexp2 ∨ op = .flog2 then 8
      else if op = .fsin ∨ op = .fcos ∨ op = .ftanh ∨ op = .ferf then 10
      else if op = .frcp ∨ op = .fsqrt then 12
      else 2 := by
  cases op <;> rfl

/-- An F word whose destination is a latch is in latch mode (R151). -/
theorem issueF_of_latch {op : FOp} {h : Hdr} {b : VBody} {l : Fin 16} (hd : b.d = .lf l) (s : State) :
    issueF op h b s = .next (s.issue (.f op h b) (latchOp op h b l)) := by
  simp only [issueF, hd]

/-- A latch-mode word whose operands are read takes one draw if it rounds, holds its engine for one strand cycle, and leaves its
result as one landing (R152, R153). -/
theorem latchOp_of_reads {op : FOp} {h : Hdr} {b : VBody} {l : Fin 16} {s : State} {x : Nat} {vs : List Word} {t : Strand}
    (hcur : s.cur = x) (hreads : s.t.streamOperands .f op.form h b = .ok (vs, t)) :
    latchOp op h b l s =
      let start := s.nextStart .f
      let n := if fRounds op b then 1 else 0
      let el (slot : Nat) : El := ⟨fScalTy op b slot, (vs.getD slot 0).toNat % 2 ^ (fScalTy op b slot).width⟩
      let r := fElem op b (el 0) (el 1) (el 2) ((t.draws b.rnd n).headD 0)
      .ok { s := s.setStrand x (((t.setStreamEnd .f (start + 1)).drawn b.rnd n).addLanding
              { id := 0, seq := t.seq, due := start + fLat op, effs := [.lf l (BitVec.ofNat 64 r.1)], flags := r.2 }) } := by
  subst hcur
  have hend (k : Nat) : ({ t with fEnd := k } : Strand) = t.setStreamEnd .f k := rfl
  simp only [latchOp, hreads, hend, State.draw_setStrand_upd, State.draw_setStrand_fst, Strand.setStreamEnd_draws,
    Strand.drawn_seq, Strand.setStreamEnd_seq]
  rfl

/-- Settles O14: a ready word leaves what `latchOp` answers in the state in which it acts. -/
theorem specialFunctionLatchLands : Obligations.SpecialFunctionLatchLands := by
  intro s op h b l vs t v u start lat draws el r d hready hdest hreads hquiet
  have hop : latchOp op h b l u = .ok d := by
    rw [latchOp_of_reads (s.acting_cur v) hreads, fLat_eq]
    rfl
  rw [exec_fInstr, issueF_of_latch hdest, State.issue_ready hready hop hquiet]

end Sys2Proof.Machine

/-! PROOFS. Distribution registers (R163 to R178): what a D word leaves at issue, by what its operation makes of its lanes. -/

namespace Sys2Proof.Machine

/-- What a D form reads of the regions and scalars that its word names (R164, R165). -/
def State.dIn (s : State) (f : VForm) (b : VBody) (rs : List (Nat × Rgn)) (vs : List Word) : DIn :=
  let rg (i : Nat) : Rgn := ((rs.find? fun x => x.1 == i).map Prod.snd).getD (rgn 0)
  { rg := rg
    low := fun i => (vs.getD i 0).toNat
    real := fun i l => decode .f32 (if Opd.isRegion (formOpd f b i) then (rg i).get s l else (vs.getD i 0).toNat) }

theorem State.acting_core (s : State) (v : View) : (s.acting v).core = s.core := congrArg coreOf (s.acting_cur v)

section
variable {s : State} {x : Nat} {f : VForm} {h : Hdr} {b : VBody} {lat : Nat → Nat} {need : RegionNeed} {draws : Nat}
  {k : State → DIn → List Nat → List Nat → DOut} {l0 n : Nat} {rs : List (Nat × Rgn)} {vs : List Word} {t : Strand}

/-- A D word of no lane has no effect (R163). -/
theorem dOp_of_no_lane (hregions : s.dRegions f b need = .ok (l0, n, rs)) (hn : n = 0) :
    dOp f h b lat need draws k s = .ok { s := s } := by
  simp only [dOp, hregions, if_pos hn]

/-- A D word with lanes reads them at issue, takes its draws, and leaves its whole result as one landing (R163, R165). -/
theorem dOp_of_lanes (hcur : s.cur = x) (hregions : s.dRegions f b need = .ok (l0, n, rs)) (hn : n ≠ 0)
    (hreads : s.t.streamOperands .v f h b = .ok (vs, t))
    (hgate : s.regionGate 0 s.t.ctx.sclk
      (rs.map fun r => { rgn := r.2, n := (need r.1 n).2, per := 1, read := r.1 != 3 }) (.ok ()) = .ok ())
    (hpoison : s.lanePoison b l0 n = .ok ()) :
    dOp f h b lat need draws k s =
      let o := k s (s.dIn f b rs vs) ((List.range n).map (l0 + ·)) (t.draws b.rnd (draws * n))
      let due := s.t.ctx.sclk + lat n
      .ok { s := s.setStrand x
              { (t.drawn b.rnd (draws * n)).addLanding
                  { id := 0, seq := t.seq, due := due, effs := o.effs, flags := o.flags } with
                timed := t.timed ++ rs.flatMap fun r =>
                  if r.1 = 3 then r.2.timed (need 3 n).2 (need 3 n).2 1 due true else [] } } := by
  subst hcur
  simp only [dOp, hregions, if_neg hn, hreads, hgate, Except.bind, hpoison, State.draw_setStrand_upd, State.draw_setStrand_fst,
    Strand.drawn_seq, Strand.drawn_timed, ← apply_ite (decode .f32)]
  rfl

end

/-- Settles O16: every operation is `dOp` with its own latency and what it makes of its lanes, and a ready word leaves what `dOp`
answers in the state in which it acts. -/
theorem distributionWordsLand : Obligations.DistributionWordsLand := by
  intro s op h b l0 n rs vs t v u c raw lat need draws t1 timed rg low real na nb ma mb ls drawn lanes condensed points pairs o
    landed idle hready hregions
  have hcore : u.core = s.core := s.acting_core v
  obtain ⟨latency, k, hexec, hlat, hout⟩ : ∃ latency k,
      exec (op.instr h b) s = issueD op h b (dOp op.form h b latency need draws k) s ∧ latency n = lat ∧
        k u (u.dIn op.form b rs vs) ls drawn = o := by
    cases op with
    | dadd | dsub | dmul | dmax | dmin =>
      refine ⟨_, _, show issueD _ h b (pairingOp _ _ h b) s = _ by rw [pairingOp], rfl, ?_⟩
      simp only [o, pairs, decide_eq_true_eq, hcore]
      rfl
    | daff | dmix | dlinGet => exact ⟨_, _, rfl, rfl, by rw [hcore] <;> rfl⟩
    | dld | dsto | dsmp | dcond | dmom | dqnt | dlinSet => exact ⟨_, _, rfl, rfl, rfl⟩
  refine ⟨fun hn hquiet => ?none, fun hn hreads hgate hpoison hquiet => ?lanes⟩
  case none =>
    have hop : dOp op.form h b latency need draws k u = .ok idle := dOp_of_no_lane hregions hn
    exact hexec.trans (congrArg _ (State.issue_ready hready hop hquiet))
  case lanes =>
    have hop : dOp op.form h b latency need draws k u = .ok landed := by
      rw [dOp_of_lanes (s.acting_cur v) hregions hn hreads hgate hpoison, hlat, hout]
    exact hexec.trans (congrArg _ (State.issue_ready hready hop hquiet))

end Sys2Proof.Machine

/-! PROOFS. Class M at issue (R181, R184 to R186, R189 to R196): a timed word or a command whose own checks hold, and what it leaves. -/

namespace Sys2Proof.Machine

/-! Checks that hold. -/

@[simp] theorem check_eq_ok_iff {c : Bool} {tr : Trap} : check c tr = .ok () ↔ c = true := by
  cases c <;> simp [check]

@[simp] theorem allOf_nil : allOf [] = .ok () := rfl

@[simp] theorem allOf_cons_eq_ok_iff {x : Except Stop Unit} {xs : List (Except Stop Unit)} :
    allOf (x :: xs) = .ok () ↔ x = .ok () ∧ allOf xs = .ok () := by
  cases x <;> simp [allOf]

@[simp] theorem tileCheck_eq_ok_iff {c : Bool} {n : Nat} : tileCheck c n = .ok () ↔ c = true := check_eq_ok_iff

/-- What an accumulating word asks of its accumulator (R52, R185). -/
theorem Strand.modeCheck_eq_ok_iff {t : Strand} {a : Nat} {init intMode : Bool} :
    t.modeCheck a init intMode = .ok () ↔ init = true ∨ (t.accView a).1 = false ∨ (t.accView a).2 = intMode := by
  simp [Strand.modeCheck, or_assoc]

/-- The shapes and the pairing that two tiles are to have (R185, R186). -/
theorem tilesCheck_eq_ok_iff {ta tb : Tile} :
    tilesCheck ta tb = .ok () ↔
      ta.ok = true ∧ ta.rows ≤ 64 ∧ tb.ok = true ∧ tb.rows ≤ 128 ∧ ta.cols = tb.cols ∧ (pairing ta.ty tb.ty).isSome = true := by
  simp [tilesCheck]

/-! The issue of an M word. -/

section
variable {s u : State} {op : MOp} {h : Hdr} {b : MBody} {k : Operation}

/-- A ready M word leaves what its operation answers. -/
theorem exec_mWord {d : Done} (hexec : exec (op.instr h b) s = issueM op h b k s) (hready : Ready s (.m op h b))
    (hop : k (s.acting (.m op h b)) = .ok d) (hquiet : d.Quiet s (.m op h b)) :
    exec (op.instr h b) s = .next (d.after (.m op h b)) :=
  hexec.trans (congrArg _ (State.issue_ready hready hop hquiet))

/-- A ready M word that has come to be a timed word of plan `p`, its own checks passed, takes its place in the array's order once the
gates let it go (R181). -/
theorem exec_timedWord {rnd : Rnd} {p : MPlan} (hexec : exec (op.instr h b) s = issueM op h b k s) (hready : Ready s (.m op h b))
    (hissue : k (s.acting (.m op h b)) = mIssue h (op.instr h b) rnd p (.ok ()) u)
    (hgate : u.mGate (Nat.max u.t.ctx.sclk u.t.mEnd) p (.ok ()) = .ok ())
    (hquiet : (u.timedWord h (op.instr h b) rnd p).Quiet s (.m op h b)) :
    exec (op.instr h b) s = .next ((u.timedWord h (op.instr h b) rnd p).after (.m op h b)) :=
  exec_mWord hexec hready (hissue.trans (mIssue_ok hgate)) hquiet

/-- An M word acts on the scalar operands that it reads (R43, R180). -/
theorem mOperands_ok {v : View} {vs : List Word} {t : Strand} (f : List Nat → Operation)
    (hreads :
      let opd (st : OpSet) (o : Opd) : Opd := if st = .sc then o else .zero
      (s.acting v).t.readOpds .m 0 [(opd op.form.a b.a, h.peekA), (opd op.form.b b.b, h.peekB), (opd op.form.c b.c, h.peekC)] =
        .ok (vs, t)) :
    mOperands op h b f (s.acting v) = f (vs.map BitVec.toNat) ((s.acting v).setStrand s.cur t) := by
  dsimp only at hreads
  simp only [mOperands, hreads, State.acting_cur]

end

/-! Timed words without a scalar operand (R184, R193, R195, R196). -/

/-- Settles O17: the four forms are `macOp`, which comes to a timed word once the tiles and the accumulator's mode pass. -/
theorem multiplyAccumulateIssues : Obligations.MultiplyAccumulateIssues := by
  intro s h b word
  have hword {op : MOp} {gang fromZero : Bool} (hexec : exec (op.instr h b) s = issueM op h b (macOp op gang fromZero h b) s) :
      word op gang fromZero := by
    unfold word
    intro v u ta tb a ca cb start pr hpair init p d hready hta hrowsA htb hrowsB hcols hmode hgate hquiet
    have hcores : u.macCores gang = (ca, cb) := by cases gang <;> rfl
    have hchecks : allOf [tilesCheck ta tb, u.t.modeCheck a fromZero pr.intMode] = .ok () := by
      simp only [allOf_cons_eq_ok_iff, allOf_nil, tilesCheck_eq_ok_iff, Strand.modeCheck_eq_ok_iff]
      exact ⟨⟨hta, hrowsA, htb, hrowsB, hcols, by rw [hpair]; rfl⟩, hmode, trivial⟩
    have hissue : macOp op gang fromZero h b u = mIssue h (op.instr h b) .rne p (.ok ()) u := by
      rw [← hchecks]
      simp only [macOp, hcores]
      rw [hpair]
      rfl
    exact exec_timedWord hexec hready hissue hgate hquiet
  exact ⟨hword rfl, hword rfl, hword rfl, hword rfl⟩

/-- Settles O18: once its own checks hold, each form comes to a timed word of its plan. -/
theorem matrixMoveWordsIssue : Obligations.MatrixMoveWordsIssue := by
  intro s h b word cfg tiles tilesOk mx drt drs cp cpOk move moveOk
  have hword {op : MOp} {rnd : Rnd} {p : State → MPlan} {ok : State → Prop} {k : Operation}
      (hexec : exec (op.instr h b) s = issueM op h b k s)
      (hissue : ∀ u, ok u → k u = mIssue h (op.instr h b) rnd (p u) (.ok ()) u) : word op rnd p ok := by
    unfold word
    intro v u d hready hok hgate hquiet
    exact exec_timedWord hexec hready (hissue u hok) hgate hquiet
  have htiles {op : MOp} {ts : Tile → Tile → Except Stop Unit} {shape : Tile → Tile → Prop} (draws : Bool)
      (hshape : ∀ a d, shape a d → ts a d = .ok ()) (u : State) (hok : tilesOk shape u) :
      tileToTile op h b ts draws u = mIssue h (op.instr h b) b.rnd (tiles draws u) (.ok ()) u := by
    obtain ⟨hta, htd, hts⟩ := hok
    have hchecks : allOf [tileCheck (u.t.tile b.a).ok (u.t.tile b.a).n, tileCheck (u.t.tile b.d).ok (u.t.tile b.d).n,
        ts (u.t.tile b.a) (u.t.tile b.d)] = .ok () := by simp [hta, htd, hshape _ _ hts]
    rw [← hchecks]
    rfl
  have hcopy {op : MOp} (add : Bool) (u : State) (hok : cpOk add u) :
      copyAccOp op h b add u = mIssue h (op.instr h b) .rne (cp add u) (.ok ()) u := by
    have hmode : u.t.modeCheck (Opd.accNum b.d) (!add || !(u.t.accView (Opd.accNum b.d)).1) (u.t.accView (Opd.accNum b.a)).2 =
        .ok () := Strand.modeCheck_eq_ok_iff.mpr (Or.imp_left (fun hcpy => by rw [hcpy]; rfl) hok)
    rw [← hmode]
    rfl
  have hmove {op : MOp} (load : Bool) (u : State) (hok : moveOk load u) :
      tileMoveOp op h b load u = mIssue h (op.instr h b) .rne (move load u) (.ok ()) u := by
    obtain ⟨htile, hstride, hcount, hregion⟩ := hok
    simp only [tileMoveOp, hregion, htile, hstride, Nat.not_lt.mpr hcount, move]
    rfl
  -- From here on these two abbreviations of the statement are used by the facts above alone.
  clear_value word tilesOk
  refine ⟨hword rfl (htiles true ?hadamard), hword rfl (htiles false ?transpose), hword rfl (htiles true ?convert),
    hword rfl ?drainTile, hword rfl ?drainRegion, hword rfl ?clear,
    hword rfl (hcopy false), hword rfl (hcopy true), hword rfl (hmove true), hword rfl (hmove false)⟩
  case hadamard =>
    rintro a d ⟨hrows, hcols, hsize⟩
    have hruns : a.cols % hadSize b = 0 := hsize
    simp [sameShape, hrows, ← hcols, hruns]
  case transpose =>
    rintro a d ⟨hrows, hcols, hty⟩
    simp [hrows, hcols, hty]
  case convert =>
    rintro a d ⟨hrows, hcols⟩
    simp [sameShape, hrows, hcols]
  case drainTile =>
    rintro u ⟨htile, hrows, hcols⟩
    have hchecks : allOf [tileCheck (u.t.tile b.d).ok (u.t.tile b.d).n,
        tileCheck ((u.t.tile b.d).rows ≤ 64 && decide (32 * bits mx 1 0 + (u.t.tile b.d).cols ≤ 128)) (u.t.tile b.d).n] = .ok () := by
      simp [htile, hrows, hcols]
    rw [← hchecks]
    rfl
  case drainRegion =>
    rintro u ⟨hcount, hregion⟩
    simp only [drainRegionOp, hregion]
    exact if_neg (Nat.not_lt.mpr hcount)
  case clear => exact fun _ _ => rfl

/-! Words that write blocks (R194). -/

theorem Ty.ofCode_isSome_of_matrix : ∀ c ∈ tyMatrix, (Ty.ofCode c).isSome = true := by decide

/-- A block form whose region, block size, format and source pass comes to a timed word. -/
theorem blockOp_of_checks {s : State} {op : MOp} {h : Hdr} {b : MBody} {fmtCode kb rows cols : Nat} {rowsOk : Bool}
    {src : List (Nat × Nat)} {ts : Except Stop Unit} {vals : List Nat} (slot : Nat)
    (hregion : s.t.regionCheck [(3, b.d)] (fun _ _ => true) = .ok ()) (hlo : 1 ≤ kb) (hhi : kb ≤ 124) (hwhole : cols % kb = 0)
    (hrows : rowsOk = true) (hout : blockRegionOk (rgn (s.t.desc b.d)) (rows * (cols / kb)) = true)
    (hcode : tyMatrix.contains fmtCode = true) (hcap : ∀ fmt, Ty.ofCode fmtCode = some fmt → kb ≤ blockCapacity fmt)
    (hts : ts = .ok ()) :
    blockOp op h b fmtCode kb slot rows cols rowsOk src ts vals s =
      mIssue h (op.instr h b) b.rnd
        { busy := ceilDiv (rows * cols) 512, lat := 8 + ceilDiv (rows * cols) 512, draws := rows * cols
          rgns := [(rgn (s.t.desc b.d), 64 * (rows * (cols / kb)), false)], rd := src, vals := vals } (.ok ()) s := by
  obtain ⟨fmt, hfmt⟩ := Option.isSome_iff_exists.mp (Ty.ofCode_isSome_of_matrix fmtCode (List.contains_iff_mem.mp hcode))
  have hmax : Nat.max kb 1 = kb := Nat.max_eq_left hlo
  have hchecks : allOf [ts, check (kb ≤ blockCapacity fmt) (trapFF 1 fmtCode)] = .ok () := by simp [hts, hcap fmt hfmt]
  simp only [blockOp, hregion, hmax, hlo, hhi, hwhole, hrows, hout, hcode, hfmt, Option.getD_some, hchecks]
  rfl

/-- Settles O19: the three forms are `blockOp` on the operands read. -/
theorem blockWordsIssue : Obligations.BlockWordsIssue := by
  intro s h b x y z t word ta cfg code
  have hword {op : MOp} {fmtCode rows cols : Nat} {src : List (Nat × Nat)} {vals : List Nat} {ok : Prop} {f : List Nat → Operation}
      (rowsOk : Bool) (ts : Except Stop Unit) (hexec : exec (op.instr h b) s = issueM op h b (mOperands op h b f) s)
      (hform : ∀ u : State, u.t = t →
        f [x.toNat, y.toNat, z.toNat] u = blockOp op h b fmtCode y.toNat 1 rows cols rowsOk src ts vals u)
      (hok : ok → rowsOk = true ∧ ts = .ok ()) : word op fmtCode rows cols src vals ok := by
    unfold word
    intro v u kb d busy blocks opd p out hready hreads hregion hlo hhi hwhole hchecks hout hcode hcap hgate hquiet
    have ht : u.t = t := State.acting_setStrand_t
    obtain ⟨hrows, hts⟩ := hok hchecks
    have hblocks : blockRegionOk (rgn (u.t.desc b.d)) blocks = true := by
      simpa [blockRegionOk, ht, and_assoc] using hout
    have hissue : mOperands op h b f (s.acting v) = mIssue h (op.instr h b) b.rnd p (.ok ()) u := by
      rw [mOperands_ok f hreads]
      refine (hform u ht).trans ((blockOp_of_checks 1 (ht ▸ hregion) hlo hhi hwhole hrows hblocks hcode hcap hts).trans ?_)
      rw [ht]
    exact exec_timedWord hexec hready hissue (ht ▸ hgate) hquiet
  refine ⟨hword true (tileCheck ta.ok ta.n) rfl ?quantise fun htile => ⟨rfl, tileCheck_eq_ok_iff.mpr htile⟩,
    hword true (tileCheck (ta.ok && ta.cols % hadSize b == 0) ta.n) rfl ?hadamard ?hadamardChecks,
    hword (decide (1 ≤ z.toNat) && decide (z.toNat ≤ 64)) (.ok ()) rfl ?drain fun hrows => ⟨by simpa using hrows, rfl⟩⟩
  case hadamardChecks =>
    rintro ⟨htile, hruns⟩
    have hruns : ta.cols % hadSize b = 0 := hruns
    simp [htile, hruns]
  case quantise | hadamard | drain =>
    intro u ht
    subst ht
    rfl

/-! Words by handle (R188 to R190). -/

theorem State.recordTaken_cur (s : State) : s.recordTaken.cur = s.cur := by
  unfold State.recordTaken State.latency
  split
  · rfl
  · split <;> rfl

theorem State.recordTaken_t (s : State) : s.recordTaken.t = s.t := by
  unfold State.recordTaken State.latency
  split
  · rfl
  · split <;> rfl

theorem State.recordTaken_core (s : State) : s.recordTaken.core = s.core := congrArg coreOf s.recordTaken_cur

/-- A command with a footprint, issued as a record has arrived that the strand read, waits for its footprint alone. -/
theorem issueCommand_recordTaken {s : State} {h : Hdr} {a : Async} {k : State → State} {slot hints : Nat} (hfp : a.fp ≠ [])
    (hgate : s.t.footGate s.core h.trk.val a.fp = .ok (slot, hints)) :
    issueCommand h a k s.recordTaken = .ok { own := true, trk := slot != 0, s := k (s.recordTaken.commanded h a slot hints) } :=
  issueGated_ok (by rwa [State.recordTaken_t, State.recordTaken_core]) (.inr (.inl hfp)) rfl

/-- Settles O20: the four forms are `handleOp`, which comes to a command once the tile, the record and the accumulator's mode
pass. -/
theorem handleWordsIssue : Obligations.HandleWordsIssue := by
  intro s h b x y z t r slot hints word
  have hword {op : MOp} {gang fromZero : Bool} (hexec : exec (op.instr h b) s = issueM op h b (handleOp op gang fromZero h b) s) :
      word op gang fromZero := by
    unfold word
    intro v u opd inA tile a rows row col core rd pr hpair cmd d hready hreads hchan htile hrows hrec hmode hgate hquiet
    have ht : u.t = t := State.acting_setStrand_t
    have hchecks : allOf [tileCheck tile.ok tile.n, tileCheck (tile.rows ≤ (if inA then 128 else 64)) tile.n] = .ok () := by
      simp [htile, hrows]
    have hmodes : t.modeCheck a fromZero pr.intMode = .ok () := Strand.modeCheck_eq_ok_iff.mpr hmode
    have hcore : (if inA then (u.macCores gang).2 else (u.macCores gang).1) = core := by
      cases gang <;> simp [State.macCores, core, ht]
    have hrow : sext 30 (bits z.toNat 61 32) +
        ((if gang then (if inA then 64 * (t.rank / t.cols) else 128 * (t.rank % t.cols)) else 0 : Nat) : Int) = row := by
      cases gang <;> rfl
    have hpairs : u.handleCheck b.hnd.toNat (pairsWith tile.ty tile.n) (if inA then 0 else 1) = .ok r := hrec
    have hop : handleOp op gang fromZero h b (s.acting v) = .ok d := by
      rw [handleOp, mOperands_ok _ hreads]
      simp only [State.acting_setStrand_t, originOf, List.map_cons, List.map_nil, List.getD_cons_succ, List.getD_cons_zero]
      rw [if_neg (by simp [hchan]), hchecks]
      dsimp only
      rw [hpairs]
      dsimp only
      rw [hpair, Option.getD_some, hmodes, hrow, hcore]
      exact issueCommand_recordTaken (s := u) (a := cmd) (List.cons_ne_nil _ _) (by rw [ht]; exact hgate)
    exact exec_mWord hexec hready hop hquiet
  exact ⟨hword rfl, hword rfl, hword rfl, hword rfl⟩

end Sys2Proof.Machine

/-! PROOFS. Class C at issue (R197 to R222): a command over ranges, a tile fetch, a stream, a handle's word, a quoin's or a scan unit's,
once its checks pass. -/

namespace Sys2Proof.Machine

/-! Checks that hold. -/

@[simp] theorem firstOf_nil : firstOf [] = .ok () := rfl

@[simp] theorem firstOf_cons_eq_ok_iff {x : Except Stop Unit} {xs : List (Except Stop Unit)} :
    firstOf (x :: xs) = .ok () ↔ x = .ok () ∧ firstOf xs = .ok () := by
  rcases x with e | ⟨⟩
  · have herr : firstOf (.error e :: xs) ≠ .ok () := by
      cases e <;> simp only [firstOf] <;> split <;> simp
    simp [herr]
  · simp [firstOf]

/-! What issuing a command leaves of the strand's context. -/

theorem State.latency_t (s : State) : s.latency.2.t = s.t := by
  unfold State.latency
  split <;> rfl

theorem State.latency_cur (s : State) : s.latency.2.cur = s.cur := by
  unfold State.latency
  split <;> rfl

theorem State.later_t (s : State) (i : Ev) : (s.later i).t = s.t := s.latency_t

theorem State.addAsync_ctx (s : State) (a : Async) : (s.addAsync a).t.ctx = s.t.ctx := by
  unfold State.addAsync
  simp only
  cases a.buffered with
  | true => rw [if_pos rfl, State.t_upd]; rfl
  | false => rw [if_neg (by decide), State.later_t, State.t_upd]; rfl

theorem State.landLater_ctx (s : State) (lat : Nat) (w : Wait) : (s.landLater lat w).2.t.ctx = s.t.ctx := by
  unfold State.landLater Strand.addLanding
  rw [State.t_upd]
  split <;> rfl

theorem State.commanded_ctx (s : State) (h : Hdr) (a : Async) (slot hints : Nat) :
    (s.commanded h a slot hints).t.ctx = s.t.ctx := by
  have hmis : (s.upd fun t => { t with hmis := t.hmis + BitVec.ofNat 64 hints }).t.ctx = s.t.ctx := by rw [State.t_upd]
  unfold State.commanded
  cases a.chan with
  | none => exact (State.addAsync_ctx _ _).trans hmis
  | some ch =>
    refine (State.addAsync_ctx _ _).trans ?_
    split
    · exact (State.landLater_ctx _ _ _).trans hmis
    · exact hmis

theorem State.markEdge_ctx (s : State) : s.markEdge.t.ctx = s.t.ctx := by rw [State.markEdge, State.t_upd]

theorem State.markEdge_ctx_ite (c : Prop) [Decidable c] (s : State) : (if c then s.markEdge else s).t.ctx = s.t.ctx := by
  split
  · exact s.markEdge_ctx
  · rfl

/-! Commands of class C. -/

/-- A gate without a footprint takes no tracker slot (R33). -/
theorem Strand.footGate_nil {t : Strand} {core trk slot hints : Nat} (h : t.footGate core trk [] = .ok (slot, hints)) : slot = 0 := by
  unfold Strand.footGate at h
  split at h
  · cases h
  · simp only [List.any_nil, Bool.false_and, Bool.false_eq_true, if_false, List.isEmpty_nil, if_true, Except.ok.injEq,
      Prod.mk.injEq] at h
    exact h.1.symm

/-- In debug mode a word that completes has no ignored TRK: a command's footprint is not empty, or it names no tracker (R33, R34). -/
theorem Done.Quiet.tracked {d : Done} {s u : State} {v : View} {gate : List FpRange} {core slot hints : Nat} (hquiet : d.Quiet s v)
    (hctx : d.s.t.ctx = u.t.ctx) (htrk : d.trk = (slot != 0)) (hgate : u.t.footGate core v.hdr.trk.val gate = .ok (slot, hints)) :
    u.t.dbg = false ∨ gate ≠ [] ∨ v.hdr.trk.val = 0 := by
  have hdbg : d.s.t.dbg = u.t.dbg := by rw [Strand.dbg, hctx, Strand.dbg]
  rcases hquiet.hints with hoff | hnone
  · exact .inl (hdbg ▸ hoff)
  · by_cases hnil : gate = []
    · subst hnil
      refine .inr (.inr ?_)
      have hpeeks : v.peekHints = [] ∧ v.hdr.trk = 0 := by simpa [Done.hints, htrk, Strand.footGate_nil hgate] using hnone
      rw [hpeeks.2]
      rfl
    · exact .inr (.inl hnil)

section
variable {s u : State} {op : COp} {h : Hdr} {b : CBody} {k : List Nat → Operation} {w x y z : Word} {t : Strand}

/-- What a C word's operands read as (R43, R197). -/
def CReads (s : State) (f : CForm) (h : Hdr) (b : CBody) (w x y z : Word) (t : Strand) : Prop :=
  let use (st : OpSet) (o : Opd) : Opd := match st with | .sc => o | .nv => o | _ => .zero
  s.t.readOpds .c (b.imm.setWidth 64)
    [(use f.a b.a, h.peekA), (use f.b b.b, h.peekB), (use f.c b.c, h.peekC),
     (if f.flag && b.fw then b.d else use f.d b.d, h.peekD)] = .ok ([w, x, y, z], t)

/-- A C word acts on the operands that it reads. -/
theorem CReads.operands {f : CForm} (hreads : CReads u f h b w x y z t) (k : List Nat → Operation) :
    cOperands f h b k u = k [w.toNat, x.toNat, y.toNat, z.toNat] (u.setStrand u.cur t) := by
  unfold cOperands
  simp only
  split
  next e he => cases he.symm.trans hreads
  next vs t1 he =>
    cases he.symm.trans hreads
    rfl

/-- A ready C word whose operands have been read leaves what its operation answers. -/
theorem exec_cWord {d : Done} (hexec : exec (op.instr h b) s = issueC op h b k s) (hready : Ready s (.c op h b))
    (hreads : CReads (s.acting (.c op h b)) op.form h b w x y z t)
    (hop : k [w.toNat, x.toNat, y.toNat, z.toNat] ((s.acting (.c op h b)).setStrand s.cur t) = .ok d)
    (hquiet : d.Quiet s (.c op h b)) : exec (op.instr h b) s = .next (d.after (.c op h b)) := by
  refine hexec.trans (congrArg _ (State.issue_ready hready ((hreads.operands k).trans ?_) hquiet))
  rw [State.acting_cur]
  exact hop

/-- A command that its gate lets pass is issued, if debug mode finds nothing in what it leaves. -/
theorem issueGated_quiet {v : View} {a : Async} {f : State → State} {gate : List FpRange} {pas : Except Stop Unit}
    {slot hints : Nat} (hgate : u.t.footGate u.core v.hdr.trk.val gate = .ok (slot, hints)) (hpas : pas = .ok ())
    (hctx : ∀ s1 : State, (f s1).t.ctx = s1.t.ctx)
    (hquiet : ({ own := true, trk := slot != 0, s := f (u.commanded v.hdr a slot hints) } : Done).Quiet s v) :
    issueGated v.hdr a f gate pas u = .ok { own := true, trk := slot != 0, s := f (u.commanded v.hdr a slot hints) } :=
  issueGated_ok hgate (hquiet.tracked ((hctx _).trans (u.commanded_ctx _ _ _ _)) rfl hgate) hpas

/-- The same for a command that changes nothing more. -/
theorem issueGated_plain {v : View} {a : Async} {gate : List FpRange} {pas : Except Stop Unit} {slot hints : Nat}
    (hgate : u.t.footGate u.core v.hdr.trk.val gate = .ok (slot, hints)) (hpas : pas = .ok ())
    (hquiet : ({ own := true, trk := slot != 0, s := u.commanded v.hdr a slot hints } : Done).Quiet s v) :
    issueGated v.hdr a id gate pas u = .ok { own := true, trk := slot != 0, s := u.commanded v.hdr a slot hints } :=
  issueGated_quiet (f := id) hgate hpas (fun _ => rfl) hquiet

/-- A command of a count of 0 completes at issue with its flag word (R200, R203). -/
theorem finishNow_ok {flag : Option (Nat × Nat)} {size slot hints : Nat} :
    u.t.footGate u.core h.trk.val (flagRange u.core flag size) = .ok (slot, hints) → finishNow h b flag size u =
      let hinted := u.upd fun t => { t with hmis := t.hmis + BitVec.ofNat 64 hints }
      let c1 := (hinted.takeXid b.ch.val).2
      let done := c1.updCore u.core fun k =>
        { k with chans := mset b.ch.val ((c1.chan u.core b.ch.val).complete (hinted.takeXid b.ch.val).1) k.chans }
      .ok { trk := slot != 0, s := match flag with | some p => done.chipWrite u.core p.1 (leBytes size p.2) | none => done } := by
  intro hgate
  unfold finishNow
  rw [hgate]
  cases flag <;> rfl

end

/-- Settles O21: each form comes to a command over its ranges, which `finishNow_ok` and `rangeCommand_ok` carry out. -/
theorem copyWordsIssue : Obligations.CopyWordsIssue := by
  intro s h b w x y z t flag slot hints word cmd dst src n rows len dp sp hull idx m indexed idxOk
  have hword {op : COp} {size n : Nat} {rs : State → List Range} {flg : Bool} {a : State → Async} {ok : State → Prop}
      {k : List Nat → Operation} (hexec : exec (op.instr h b) s = issueC op h b k s)
      (hform : ∀ u : State, u.t = t → u.rangesCheck (rs u) = .ok () → flagCheck (flg && b.fw) z.toNat size = .ok () → ok u →
        k [w.toNat, x.toNat, y.toNat, z.toNat] u =
          rangeCommand h b (if flg then flagOf b.fw z.toNat else none) size n (rs u) (a u) u) :
      word op size n rs flg a ok := by
    unfold word
    intro v u f use cmd issued hinted c1 done finished hready hreads hranges hflag hflagOk hok
    have ht : u.t = t := State.acting_setStrand_t
    have hop := hform u ht hranges hflagOk hok
    rw [← hflag] at hop
    refine ⟨fun hn hgate hquiet => ?_, fun hn hpas hgate hquiet => ?_⟩
    · exact exec_cWord hexec hready hreads (hop.trans ((if_pos hn).trans (finishNow_ok (ht ▸ hgate)))) hquiet
    · have hctx : issued.s.t.ctx = u.t.ctx := by
        refine Eq.trans ?_ (u.commanded_ctx h cmd slot hints)
        exact State.markEdge_ctx_ite _ _
      have hfoot : u.t.footGate u.core v.hdr.trk.val cmd.fp = .ok (slot, hints) := ht ▸ hgate
      exact exec_cWord hexec hready hreads (hop.trans (rangeCommand_ok hn hpas hfoot (hquiet.tracked hctx rfl hfoot))) hquiet
  have hindexed {i : Instr} (gather : Bool) {rs : List Range} (u : State) (ht : u.t = t)
      (hrs : rs = if gather then [⟨dst, idx.count * m, .write⟩, ⟨src, b.imm.toNat * m, .read⟩]
        else [⟨dst, b.imm.toNat * m, .write⟩, ⟨src, idx.count * m, .read⟩])
      (hranges : u.rangesCheck rs = .ok ()) (hflag : flagCheck b.fw z.toNat 8 = .ok ()) (hok : idxOk u) :
      indexedOp i gather h b [w.toNat, x.toNat, y.toNat, z.toNat] u =
        rangeCommand h b (flagOf b.fw z.toNat) 8 idx.count rs (indexed i u) u := by
    obtain ⟨hregion, hdst, hsrc, hidx⟩ := hok
    subst ht hrs
    have hchecks := firstOf_cons_eq_ok_iff.mpr ⟨hranges, show firstOf [check (dst % Nat.min m 8 == 0) (trapAF 4 0),
        check (src % Nat.min m 8 == 0) (trapAF 4 1), check (u.indexesOk idx idx.count) (trapAF 3 3),
        flagCheck b.fw z.toNat 8] = .ok () by simpa [hdst, hsrc, hidx] using hflag⟩
    simp only [indexedOp, hregion, List.getD_cons_succ, List.getD_cons_zero]
    rw [hchecks]
  clear_value word
  refine ⟨hword rfl ?copy, hword rfl ?fill, hword rfl ?permute, hword rfl ?gather, hword rfl ?scatter⟩
  case copy =>
    intro u _ hranges hflag hcount
    have hmax : ¬ maxCount < y.toNat := Nat.not_lt.mpr (Nat.le_sub_one_of_lt hcount)
    have hchecks : firstOf [u.rangesCheck [⟨dst, n, .write⟩, ⟨src, n, .read⟩], flagCheck b.fw z.toNat 4] = .ok () := by
      simpa using ⟨hranges, hflag⟩
    simp only [copyOp, List.getD_cons_succ, List.getD_cons_zero, if_neg hmax]
    rw [hchecks]
    rfl
  case fill =>
    intro u _ hranges hflag hcount
    have hmax : ¬ maxCount < y.toNat := Nat.not_lt.mpr (Nat.le_sub_one_of_lt hcount)
    have hchecks : firstOf [u.rangesCheck [⟨dst, n, .write⟩], flagCheck b.fw z.toNat 4] = .ok () := by
      simpa using ⟨hranges, hflag⟩
    simp only [fillOp, List.getD_cons_succ, List.getD_cons_zero, if_neg hmax]
    rw [hchecks]
    rfl
  case permute =>
    intro u _ hranges _ hrows
    have hmax : ¬ 65535 < bits y.toNat 63 32 := Nat.not_lt.mpr (Nat.le_sub_one_of_lt hrows)
    have hchecks : u.rangesCheck [hull dst dp .write, hull src sp .read] = .ok () := hranges
    simp only [permuteOp, List.getD_cons_succ, List.getD_cons_zero, if_neg hmax]
    rw [hchecks]
    rfl
  case gather => exact fun u ht hranges => hindexed true u ht rfl hranges
  case scatter => exact fun u ht hranges => hindexed false u ht rfl hranges

/-! Tile fetches (R209, R210). -/

theorem State.draw_core (s : State) (m : Rnd) (n : Nat) : (s.draw m n).2.core = s.core := by
  rw [State.draw_eq]
  simp only
  split <;> rfl

/-- Settles O22: both forms are `fetchOp`, with the follow-on word's part for `cpf`, which comes to a command once the tile, the record
and the follow-on word pass. -/
theorem tileFetchesIssue : Obligations.TileFetchesIssue := by
  intro s h b fo w x y z t flag r slot hints word cpf
  have hword {i : Instr} {v : View} {f : CForm} {begun : State} {f1 : State → Follow} (words : Nat)
      (hbegun : begun = s.begun .c words v.hdr.swait.val)
      (hexec : exec i s = .next (s.issueOn v .c words (cOperands f h b fun vs u => fetchOp i h b (f1 u) vs u))) :
      word i v f begun f1 := by
    subst hbegun
    unfold word
    intro u use td rows row col rd draws drawn cmd c d hready hreads hfollow hflag hflagOk htile hrows hrec hplain hgate hquiet
    have ht : u.t = t := (congrArg State.t (by rw [State.begun_cur])).trans (State.t_setStrand _ _)
    have hchecks : firstOf [flagCheck b.fw z.toNat 4, (f1 u).checks, tileCheck td.ok td.n,
        tileCheck (decide (rows ≤ td.rows)) td.n] = .ok () := by
      simp [hflagOk, hfollow, htile, hrows]
    have hpairs : u.handleCheck b.imm.toNat (pairsWith td.ty td.n) 1 = .ok r := hrec
    have hround : ¬ (pathOf r.base ≠ 2 ∧ bits b.cx.toNat 9 7 ≠ 0) := fun hno => hno.2 (hplain hno.1).1
    have htype : ¬ (pathOf r.base ≠ 2 ∧ r.ty ≠ td.ty) := fun hno => hno.2 (hplain hno.1).2
    have hcore : drawn.2.core = u.core := (State.draw_core _ _ _).trans u.recordTaken_core
    have hfoot : cmd.fp ≠ [] := by simp [cmd]
    have hop : fetchOp i h b (f1 u) [w.toNat, x.toNat, y.toNat, z.toNat] u = .ok d := by
      simp only [fetchOp, List.getD_cons_succ, List.getD_cons_zero, ht]
      rw [hchecks]
      dsimp only
      rw [hpairs]
      dsimp only
      rw [if_neg hround, if_neg htype, ← hflag, ite_not]
      exact issueGated_ok (s := drawn.2) (a := cmd) (by rw [hcore]; exact hgate) (.inr (.inl hfoot)) rfl
    have hcur : (s.begun .c words v.hdr.swait.val).cur = s.cur := s.begun_cur _ _ _
    exact hexec.trans (congrArg _ (State.issueOn_ready hready
      ((CReads.operands hreads _).trans (by rw [hcur]; exact hop)) hquiet))
  clear_value word
  exact ⟨hword 1 rfl rfl, hword 2 rfl rfl⟩

/-! Weight streams and handles (R213, R214). -/

theorem State.draw_setStrand (s : State) (t : Strand) (m : Rnd) (n : Nat) :
    (s.setStrand s.cur t).draw m n = (t.draws m n, s.setStrand s.cur (t.drawn m n)) := by
  rw [State.draw_eq, State.t_setStrand, State.upd_setStrand]
  unfold Strand.drawn
  split <;> rfl

/-- Settles O23: a stream draws and is gated by its tile and flag word, a bind reserves its push first; a free has no footprint. -/
theorem streamAndHandleCommandsIssue : Obligations.StreamAndHandleCommandsIssue := by
  intro s h b w x y z t flag slot hints u reads completes cmd td ws drawn table bind
  have ht {op : COp} : (u op).t = t := State.acting_setStrand_t
  have hcore {op : COp} : (u op).core = s.core := State.begun_core s _ _ _
  have hcompletes {op : COp} {k : List Nat → Operation} {d : Done} (hexec : exec (op.instr h b) s = issueC op h b k s)
      (hreads : reads op) (hop : d.Quiet s (.c op h b) → k [w.toNat, x.toNat, y.toNat, z.toNat] (u op) = .ok d) : completes op d :=
    fun hquiet => exec_cWord hexec hreads.1 hreads.2 (hop hquiet) hquiet
  clear_value completes
  refine ⟨fun hreads hlim hpath hflag hflagOk htile hpas hgate => hcompletes rfl hreads ?stream,
    fun q l s1 sl hreads hd hpush hpath halign hslot hgate => hcompletes rfl hreads ?bind,
    fun sl hreads hslot hgate => hcompletes rfl hreads ?free⟩
  case stream =>
    intro hquiet
    have hmax : ¬ maxCount < y.toNat := Nat.not_lt.mpr (Nat.le_sub_one_of_lt hlim)
    have hchecks : firstOf [(u .wstr).pathCheck x.toNat (Nat.max y.toNat 1) .read [1], flagCheck b.fw z.toNat 4,
        tileCheck td.ok td.n] = .ok () := by
      simp [hpath, hflagOk, htile]
    simp only [streamWeights, List.getD_cons_succ, List.getD_cons_zero, if_neg hmax, ht]
    rw [hchecks]
    have hdraw : (u .wstr).draw (cxRnd b) (td.rows * td.cols) = (t.draws (cxRnd b) (td.rows * td.cols), drawn) := by
      have hset := State.draw_setStrand (s.acting (.c .wstr h b)) t (cxRnd b) (td.rows * td.cols)
      rw [State.acting_cur] at hset
      exact hset.trans (Prod.ext rfl (State.setStrand_setStrand _ _ _ _).symm)
    dsimp only
    rw [hdraw, ← hflag]
    exact issueGated_ok (s := drawn) (a := ws) hgate (.inr (.inl (List.cons_ne_nil _ _))) hpas
  case bind =>
    intro hquiet
    simp only [bindOp, List.getD_cons_succ, List.getD_cons_zero, hd, hpush, hpath, hslot, hcore]
    rw [if_neg (not_not.mpr halign)]
    exact issueGated_quiet (v := .c .hbind h b) hgate rfl State.markEdge_ctx hquiet
  case free =>
    intro hquiet
    simp only [freeOp, List.getD_cons_zero, hslot]
    exact issueGated_quiet (v := .c .hfree h b) (ht ▸ hgate) rfl State.markEdge_ctx hquiet

/-! Quoins and scan units (R215 to R222). -/

theorem Strand.channelCheck_eq_ok_iff {t : Strand} {ch : Nat} : t.channelCheck ch = .ok () ↔ t.quota ch ≠ 0 := by
  simp [Strand.channelCheck]

theorem Strand.quoinCheck_eq_ok_iff {t : Strand} {q : Quoin} : t.quoinCheck q = .ok () ↔ t.quota q.ch ≠ 0 ∧ q.row < bankRows := by
  unfold Strand.quoinCheck
  by_cases hch : t.quota q.ch = 0
  · have hfail : t.channelCheck q.ch ≠ .ok () := mt Strand.channelCheck_eq_ok_iff.mp (not_not.mpr hch)
    rcases herr : t.channelCheck q.ch with e | ⟨⟩
    · simp [hch]
    · exact absurd herr hfail
  · rw [Strand.channelCheck_eq_ok_iff.mpr hch]
    simp [hch]

theorem rowLatency_eq (core ch n : Nat) : rowLatency core ch n = (if ch / 128 = core / 64 then 96 else 160) + ceilDiv n 64 := by
  rw [rowLatency, Nat.div_div_eq_div_mul]

/-- Settles O24: each word comes to what its operation answers once its channel, its row and its own operands pass. -/
theorem rowAndScanWordsIssue : Obligations.RowAndScanWordsIssue := by
  intro s h b w x y z t flag slot hints u reads completes q qr ch o n cmd row push a lat l rowrd off rowwr scan hinted c1 done stopped
  have ht {op : COp} : (u op).t = t := State.acting_setStrand_t
  have hcore {op : COp} : (u op).core = s.core := State.begun_core s _ _ _
  have hcur {op : COp} : (u op).cur = s.cur := State.acting_cur s _
  have hcompletes {op : COp} {k : List Nat → Operation} {d : Done} (hexec : exec (op.instr h b) s = issueC op h b k s)
      (hreads : reads op) (hop : d.Quiet s (.c op h b) → k [w.toNat, x.toNat, y.toNat, z.toNat] (u op) = .ok d) : completes op d :=
    fun hquiet => exec_cWord hexec hreads.1 hreads.2 (hop hquiet) hquiet
  have hrow {op : COp} {own : Strand → Quoin → Except Stop Unit} {ok : Prop}
      (hexec : exec (op.instr h b) s = issueC op h b (rowOp (op.instr h b) h b own) s) (hok : ok → own t q = .ok ()) : row op ok := by
    intro hreads hch hbank hown hgate
    refine hcompletes hexec hreads fun hquiet => ?_
    simp only [rowOp, List.getD_cons_zero, ht, hcore]
    rw [Strand.channelCheck_eq_ok_iff.mpr hch, hok hown, Strand.quoinCheck_eq_ok_iff.mpr ⟨hch, hbank⟩]
    exact issueGated_plain (v := .c op h b) (a := cmd (op.instr h b) 0 (stackLevel s.core q.ch)) (by rw [ht]; exact hgate) rfl hquiet
  have hpush {op : COp} {rowToo : Bool} {ok : Prop}
      (hexec : exec (op.instr h b) s = issueC op h b (pushOp (op.instr h b) h b rowToo) s)
      (hok : ok → t.channelCheck q.ch = .ok () ∧ (if rowToo then t.quoinCheck q else .ok ()) = .ok ()) : push op ok := by
    intro d l s1 hreads hd hown hres
    refine hcompletes hexec hreads fun _ => ?_
    obtain ⟨hch, hbank⟩ := hok hown
    simp only [pushOp, List.getD_cons_zero, hd, ht, hcore]
    rw [hch, hres]
    dsimp only
    rw [hbank]
  clear_value completes row push
  refine ⟨hrow rfl fun _ => rfl, hrow rfl id, hrow rfl fun _ => rfl, ?read, ?write,
    hpush rfl fun hown => ⟨Strand.channelCheck_eq_ok_iff.mpr hown.1, Strand.quoinCheck_eq_ok_iff.mpr hown⟩,
    hpush rfl fun hown => ⟨Strand.channelCheck_eq_ok_iff.mpr hown, rfl⟩,
    hpush rfl fun hown => ⟨Strand.channelCheck_eq_ok_iff.mpr hown, rfl⟩, ?scan, ?threshold, ?claimed, ?stop⟩
  case read =>
    intro hreads hn hspan hch hbank hpath hin howns hedges hslot
    refine hcompletes rfl hreads fun _ => ?_
    have hspanOk : spanOk y.toNat = true := by simpa [spanOk] using And.intro hn hspan
    have hchecks : firstOf [(u .rowrd).pathCheck w.toNat n .write [3],
        check (decide (a + n ≤ spadBytes) && t.ownsBytes a n) (trapAF 3 3), t.quoinCheck qr] = .ok () := by
      simp [hpath, howns, Strand.quoinCheck_eq_ok_iff, hch, hbank, show a + n ≤ spadBytes from hin]
    simp only [rowReadOp, List.getD_cons_succ, List.getD_cons_zero, ht, hcore, hspanOk, rowLatency_eq]
    rw [Strand.channelCheck_eq_ok_iff.mpr hch, hchecks, hedges, hslot]
    rfl
  case write =>
    intro hreads hn hspan hch hbank hpath hwhole hflag hflagOk hgate
    refine hcompletes rfl hreads fun hquiet => ?_
    have hspanOk : spanOk y.toNat = true := by simpa [spanOk] using And.intro hn hspan
    have hchecks : firstOf [t.quoinCheck q, (u .rowwr).pathCheck x.toNat n .read [3],
        check ((u .rowwr).wholeRegisters ⟨x.toNat, n, .read⟩) (trapAF 4 1), flagCheck b.fw z.toNat 4] = .ok () := by
      simp [hpath, hwhole, hflagOk, Strand.quoinCheck_eq_ok_iff, hch, hbank]
    simp only [rowWriteOp, List.getD_cons_succ, List.getD_cons_zero, ht, hcore, hspanOk]
    rw [Strand.channelCheck_eq_ok_iff.mpr hch, hchecks, ← hflag]
    exact issueGated_quiet (v := .c .rowwr h b) (a := rowwr) (by rw [ht]; exact hgate) rfl State.markEdge_ctx hquiet
  case scan =>
    intro hreads hch hrows hbank hpath halign hflag hflagOk
    have hchecks : firstOf [t.quoinCheck q, check (decide (q.row + x.toNat ≤ bankRows)) (trapAF 3 0),
        (u .scngo).pathCheck y.toNat (Nat.max 1 (8 * b.imm.toNat)) .write [3], check (y.toNat % 8 == 0) (trapAF 4 2),
        flagCheck b.fw z.toNat 4] = .ok () := by
      simp [hpath, halign, hflagOk, Strand.quoinCheck_eq_ok_iff, hch, hbank, hrows]
    have hop : scanOp h b [w.toNat, x.toNat, y.toNat, z.toNat] (u .scngo) =
        if x.toNat = 0 then finishNow h b flag 4 (u .scngo)
        else issueCommand h scan (fun s1 => if (u .scngo).reachesOut y.toNat (8 * b.imm.toNat) then s1.markEdge else s1) (u .scngo) := by
      simp only [scanOp, List.getD_cons_succ, List.getD_cons_zero, ht, hcore]
      rw [Strand.channelCheck_eq_ok_iff.mpr hch, hchecks, ← hflag]
    refine ⟨fun hnone hgate => hcompletes rfl hreads fun _ => ?_, fun hsome hgate => hcompletes rfl hreads fun hquiet => ?_⟩
    · refine hop.trans ((if_pos hnone).trans ((finishNow_ok (flag := flag) (by rw [ht, hcore]; exact hgate)).trans ?_))
      rw [hcore] <;> rfl
    · refine hop.trans ((if_neg hsome).trans ?_)
      exact issueGated_quiet (v := .c .scngo h b) (a := scan) (by rw [ht]; exact hgate) rfl (State.markEdge_ctx_ite _) hquiet
  case threshold =>
    rintro hreads hch hfree ty rfl
    refine hcompletes rfl hreads fun _ => ?_
    simp only [thresholdOp, List.getD_cons_succ, List.getD_cons_zero, ht]
    rw [Strand.channelCheck_eq_ok_iff.mpr hch]
    exact if_neg (by rw [hfree]; decide)
  case claimed =>
    intro hreads hch htaken
    refine hcompletes rfl hreads fun _ => ?_
    simp only [thresholdOp, List.getD_cons_zero, ht]
    rw [Strand.channelCheck_eq_ok_iff.mpr hch]
    refine (if_pos htaken).trans ?_
    rw [State.upd, ht, hcur]
  case stop =>
    intro hreads hch
    refine hcompletes rfl hreads fun _ => ?_
    simp only [stopOp, List.getD_cons_zero, ht]
    rw [Strand.channelCheck_eq_ok_iff.mpr hch]
    by_cases hrun : (t.scan ch).run = true
    · have hstopped : stopped = t.setScan ch fun v => { v with stop := true, halt := true } := if_pos hrun
      rw [hstopped]
      refine congrArg (fun s1 => Except.ok ({ s := s1 } : Done)) ((if_pos hrun).trans ?_)
      rw [State.upd, ht, hcur]
    · have hstopped : stopped = t := if_neg hrun
      rw [hstopped]
      exact congrArg (fun s1 => Except.ok ({ s := s1 } : Done)) ((if_neg hrun).trans (State.setStrand_setStrand _ _ _ _).symm)

end Sys2Proof.Machine

/-! PROOFS. Class N at issue (R224 to R233): sends and receives over a circuit, puts and gets, barriers, status words and collectives. -/

namespace Sys2Proof.Machine

/-! The issue of an N word. -/

/-- A ready N word leaves what its operation answers. -/
theorem exec_nWord {s : State} {op : NOp} {h : Hdr} {b : NBody} {k : Operation} {d : Done}
    (hexec : exec (op.instr h b) s = issueN op h b k s) (hready : Ready s (.n op h b)) (hquiet : d.Quiet s (.n op h b))
    (hop : k (s.acting (.n op h b)) = .ok d) : exec (op.instr h b) s = .next (d.after (.n op h b)) :=
  hexec.trans (congrArg _ (State.issue_ready hready hop hquiet))

/-- An N word acts on the scalar operands that it reads (R43). -/
theorem nOperands_ok {u : State} {op : NOp} {h : Hdr} {b : NBody} {imm : Word} {vs : List Word} {t : Strand} (k : List Nat → Operation)
    (hreads :
      let f := op.form
      let use (st : OpSet) (o : Opd) : Opd := match st with | .sc => o | .nv => o | .val => o | _ => .zero
      u.t.readOpds .n imm [(use f.a b.a, h.peekA), (use f.b b.b, h.peekB), (use f.c b.c, h.peekC)] = .ok (vs, t)) :
    nOperands op h b imm k u = k (vs.map BitVec.toNat) (u.setStrand u.cur t) := by
  unfold nOperands
  simp only
  split
  next e he => cases he.symm.trans hreads
  next vs1 t1 he =>
    cases he.symm.trans hreads
    rfl

theorem State.upd_congr {s : State} {f g : Strand → Strand} (h : f s.t = g s.t) : s.upd f = s.upd g :=
  congrArg (s.setStrand s.cur) h

/-- A landing changes no timed access and no clock of its strand. -/
theorem Strand.addLanding_timed (t : Strand) (l : Landing) :
    (t.addLanding l).timed = t.timed ∧ (t.addLanding l).ctx.sclk = t.ctx.sclk := by
  unfold Strand.addLanding
  split <;> exact ⟨rfl, rfl⟩

/-! Circuits (R225 to R229). -/

/-- A circuit that a word may use (R225). -/
theorem State.circuitOk_iff {s : State} {slot : Nat} {receive xpkg : Bool} :
    s.circuitOk slot receive xpkg = true ↔
      s.t.slots.contains slot = true ∧ bit (s.slotEntry s.core slot) 31 = true ∧ bit (s.slotEntry s.core slot) 30 = receive ∧
        bit (s.slotEntry s.core slot) 29 = xpkg := by
  simp [State.circuitOk, State.holdsEntry, and_assoc]

theorem overCircuits_of_ok {s : State} {op : NOp} {b : NBody} (f : Operation) (hok : s.circuitsBad op b = false) :
    overCircuits op b f s = f s := if_neg (by rw [hok]; decide)

section
variable {s : State} {i : Instr} {h : Hdr} {b : NBody} {xpkg : Bool} {t : Strand} {n : Fin 16}

/-- What a word asks for its reach: the scope of the other packages, if it sends or receives beyond its own (R225). -/
def State.reachCheck (s : State) (xpkg : Bool) : Except Stop Unit := if xpkg then s.scopeCheck 5 else .ok ()

/-- A send of a value (R228). -/
theorem sendOp_value {v : Word} (hplain : ∀ n, b.a ≠ .g n) (hread : s.t.readOpd .n (b.imm.signExtend 64) h.peekA b.a = .ok (v, t))
    (hreach : s.reachCheck xpkg = .ok ()) :
    sendOp i h b xpkg s = sendPacket i h b (leBytes 8 v.toNat) (s.setStrand s.cur t) := by
  unfold State.reachCheck at hreach
  cases ha : b.a with
  | g n => exact absurd ha (hplain n)
  | _ =>
    rw [ha] at hread
    simp only [sendOp, ha, hread]
    rw [hreach]

/-- A send of a region's bytes (R228). -/
theorem sendOp_region (ha : b.a = .g n) (hregion : s.t.regionCheck [(0, b.a)] (fun _ _ => true) = .ok ())
    (hstride : (rgn s.t.ctx.g[n].toNat).stride = 1) (hbytes : (rgn s.t.ctx.g[n].toNat).bytes ≤ 256)
    (hreach : s.reachCheck xpkg = .ok ())
    (hgate :
      let r := rgn s.t.ctx.g[n].toNat
      s.regionGate 1 s.t.ctx.sclk [{ rgn := r, n := r.count, per := Nat.max r.count 1, read := true }] (.ok ()) = .ok ()) :
    sendOp i h b xpkg s =
      let r := rgn s.t.ctx.g[n].toNat
      sendPacket i h b (if r.count = 0 then [] else s.spadBytes_ (r.hull r.count).1 r.bytes) s := by
  have hshape : ¬ ((rgn s.t.ctx.g[n].toNat).stride ≠ 1 ∨ 256 < (rgn s.t.ctx.g[n].toNat).bytes) := by omega
  unfold State.reachCheck at hreach
  simp only at hgate
  rw [ha] at hregion
  simp only [sendOp, ha, hregion, if_neg hshape]
  rw [hreach, hgate]

/-- The landing of a receive: due two strand cycles later, once its circuit's packet has come (R228). -/
def Strand.recvLanding (t : Strand) (id : Nat) (i : Instr) (b : NBody) (vals : List Nat) : Landing :=
  { id := id, seq := t.seq, due := t.clock + 2, wait := .recv (NBody_cir b), arrived := false, instr := some i, vals := vals }

/-- A state in which a receive waits for its circuit's packet, with the timed accesses that it makes (R141, R228). -/
def State.awaitsPacket (s : State) (i : Instr) (b : NBody) (vals : List Nat) (timed : List TimedAcc) : State :=
  s.tick.upd fun t => { t.addLanding (t.recvLanding s.fresh i b vals) with timed := t.timed ++ timed }

/-- A receive into a queue register (R228). -/
theorem receiveOp_queue {q : Fin 32} (hd : b.d = .q q) (hres : s.t.reserveQ q.val s.t.seq = .ok t)
    (hreach : s.reachCheck xpkg = .ok ()) :
    receiveOp i h b xpkg s = .ok { s := (s.setStrand s.cur t).awaitsPacket i b [0, s.t.physQ q.val, s.t.seq] [] } := by
  unfold State.reachCheck at hreach
  simp only [receiveOp, hd, hres]
  rw [hreach]
  refine congrArg (fun s1 => Except.ok ({ s := s1 } : Done)) (State.upd_congr ?_)
  simp only [List.append_nil]
  exact congrArg (fun ts => ({ Strand.addLanding _ _ with timed := ts } : Strand)) (Strand.addLanding_timed _ _).1

/-- A receive into a region, a timed write of it two strand cycles later (R141, R228). -/
theorem receiveOp_region (hd : b.d = .g n) (hregion : s.t.regionCheck [(3, b.d)] (fun _ _ => true) = .ok ())
    (hstride : (rgn s.t.ctx.g[n].toNat).stride = 1) (hreach : s.reachCheck xpkg = .ok ())
    (hgate :
      let r := rgn s.t.ctx.g[n].toNat
      s.regionGate 1 s.t.ctx.sclk [{ rgn := r, n := r.count, per := Nat.max r.count 1, read := false }] (.ok ()) = .ok ()) :
    receiveOp i h b xpkg s =
      let r := rgn s.t.ctx.g[n].toNat
      .ok { s := s.awaitsPacket i b [1, s.t.ctx.g[n].toNat] (r.timed r.count (Nat.max r.count 1) 1 (s.t.ctx.sclk + 2) true) } := by
  unfold State.reachCheck at hreach
  simp only at hgate
  rw [hd] at hregion
  simp only [receiveOp, hd, hregion, if_neg (not_not.mpr hstride)]
  rw [hreach, hgate]
  refine congrArg (fun s1 => Except.ok ({ s := s1 } : Done)) ((State.upd_upd _ _ _).trans (State.upd_congr ?_))
  obtain ⟨htimed, hclock⟩ := s.tick.t.addLanding_timed (s.tick.t.recvLanding s.fresh i b [1, s.t.ctx.g[n].toNat])
  unfold Strand.recvLanding at htimed hclock
  rw [htimed, hclock]
  rfl

/-- A put or a get whose ranges pass: without bytes it completes as a region edge, else it comes to its command (R229). -/
theorem transferOp_of_checks {get : Bool} {loc roff n : Nat} (hloc : pathOf loc = 3) (hin : roff + n ≤ 786432)
    (hranges :
      let far : Nat := 4 * 2 ^ 60 + chipAddr (peerCore (s.slotEntry s.core (NBody_cir b))) roff
      s.rangesCheck (if get then [⟨loc, n, .write⟩, ⟨far, n, .read⟩] else [⟨far, n, .write⟩, ⟨loc, n, .read⟩]) = .ok ()) :
    transferOp i get h b loc roff n s =
      let entry := s.slotEntry s.core (NBody_cir b)
      if n = 0 then .ok { s := s.markEdge }
      else
        issueCommand h
          { nEntry i b h (if get then 1 else spanOf s.core (peerCore entry) + 1) with
            vals := [loc, roff, n, entry, s.t.wordCycle .n], fp := footRange s.core loc n get }
          (fun u => (if get then u.schedule s.now (.accessPerform s.cur s.fresh) else u).markEdge) s := by
  have hinside : decide (roff + n ≤ spadBytes) = true := decide_eq_true hin
  have hpath (tr : Trap) : check (pathOf loc == 3) tr = .ok () := by simp [hloc]
  simp only [transferOp, hinside, if_true, hpath]
  have hchecks {tr : Trap} := firstOf_cons_eq_ok_iff.mpr ⟨(rfl : (.ok () : Except Stop Unit) = .ok ()),
    firstOf_cons_eq_ok_iff.mpr ⟨(rfl : check true tr = .ok ()), firstOf_cons_eq_ok_iff.mpr ⟨hranges, firstOf_nil⟩⟩⟩
  rw [hchecks]

end

/-- Settles O25: each word finds its circuits its own, and comes to its packet, its landing or its command once its own checks pass. -/
theorem circuitWordsIssue : Obligations.CircuitWordsIssue := by
  intro s h b t v n slot hints loc roff len u completes cir held reach sent sendValue sendRegion waits receiveQueue receiveRegion
    operands transfer
  have hcore (op : NOp) : (u op).core = s.core := State.acting_core s _
  have hcur (op : NOp) : (u op).cur = s.cur := State.acting_cur s _
  have hheld {op : NOp} {slot : Nat} {receive xpkg : Bool} (hslot : held op slot receive xpkg) :
      (u op).circuitOk slot receive xpkg = true := by
    rw [State.circuitOk_iff, hcore]
    exact hslot
  have hscope {op : NOp} {xpkg : Bool} (hreach : reach op xpkg) :
      (if xpkg then (u op).scopeCheck 5 else .ok () : Except Stop Unit) = .ok () := by
    cases xpkg with
    | false => rfl
    | true => exact hreach rfl
  have hover {op : NOp} {f : Operation} {d : Done} (hexec : exec (op.instr h b) s = issueN op h b (overCircuits op b f) s)
      (hok : (u op).circuitsBad op b = false) (hop : d.Quiet s (.n op h b) → f (u op) = .ok d) : completes op d :=
    fun hready hquiet => exec_nWord hexec hready hquiet ((overCircuits_of_ok f hok).trans (hop hquiet))
  have hsent {op : NOp} (w : State) (bs : List Byte) (hwcore : w.core = s.core) (hwcur : w.cur = s.cur) :
      sendPacket (op.instr h b) h b bs w = .ok (sent op w bs) := by
    simp only [sendPacket, hwcore, hwcur]
    rfl
  have hvalue {op : NOp} {xpkg : Bool}
      (hexec : exec (op.instr h b) s = issueN op h b (overCircuits op b (sendOp (op.instr h b) h b xpkg)) s)
      (hok : (u op).circuitOk cir false xpkg = true → (u op).circuitsBad op b = false) : sendValue op xpkg := by
    intro hslot hplain hread hreach
    refine hover hexec (hok (hheld hslot)) fun _ => (sendOp_value hplain hread (hscope hreach)).trans ?_
    rw [hcur]
    exact hsent _ _ (hcore op) (hcur op)
  have hbytes {op : NOp} {xpkg : Bool}
      (hexec : exec (op.instr h b) s = issueN op h b (overCircuits op b (sendOp (op.instr h b) h b xpkg)) s)
      (hok : (u op).circuitOk cir false xpkg = true → (u op).circuitsBad op b = false) : sendRegion op xpkg := by
    intro hslot ha hregion hstride hsize hreach hgate
    exact hover hexec (hok (hheld hslot)) fun _ =>
      (sendOp_region ha hregion hstride hsize (hscope hreach) hgate).trans (hsent _ _ (hcore op) (hcur op))
  have hqueue {op : NOp} {xpkg : Bool}
      (hexec : exec (op.instr h b) s = issueN op h b (overCircuits op b (receiveOp (op.instr h b) h b xpkg)) s)
      (hok : (u op).circuitOk cir true xpkg = true → (u op).circuitsBad op b = false) : receiveQueue op xpkg := by
    intro q hslot hd hres hreach
    refine hover hexec (hok (hheld hslot)) fun _ => (receiveOp_queue hd hres (hscope hreach)).trans ?_
    rw [hcur]
    rfl
  have hregion {op : NOp} {xpkg : Bool}
      (hexec : exec (op.instr h b) s = issueN op h b (overCircuits op b (receiveOp (op.instr h b) h b xpkg)) s)
      (hok : (u op).circuitOk cir true xpkg = true → (u op).circuitsBad op b = false) : receiveRegion op xpkg := by
    intro hslot hd hcheck hstride hreach hgate
    exact hover hexec (hok (hheld hslot)) fun _ => receiveOp_region hd hcheck hstride (hscope hreach) hgate
  have htransfer {op : NOp} {get : Bool} {imm : Word} {vs : List Word} {k : List Nat → Operation}
      (hexec : exec (op.instr h b) s = issueN op h b (overCircuits op b (nOperands op h b imm k)) s)
      (hok : (u op).circuitsBad op b = false) (hreads : operands op imm vs)
      (hk : k (vs.map BitVec.toNat) = transferOp (op.instr h b) get h b loc.toNat roff.toNat len.toNat) : transfer op get := by
    unfold transfer
    intro entry w cmd near far hloc hin hranges
    have hop : nOperands op h b imm k (u op) =
        transferOp (op.instr h b) get h b loc.toNat roff.toNat len.toNat w := by
      rw [nOperands_ok k hreads, hk, hcur]
    have hwcore : w.core = s.core := hcore op
    have hwcur : w.cur = s.cur := hcur op
    have hwt : w.t = t := State.acting_setStrand_t
    have hchecked := hop.trans (transferOp_of_checks hloc hin (by rw [hwcore]; cases get <;> exact hranges))
    refine ⟨fun hnone => hover hexec hok fun _ => hchecked.trans (if_pos (by rw [hnone]; rfl)),
      fun hsome hgate => hover hexec hok fun hquiet => hchecked.trans ((if_neg fun hz => hsome (BitVec.eq_of_toNat_eq hz)).trans ?_)⟩
    rw [hwcore, hwcur]
    refine issueGated_quiet (v := .n op h b) (a := cmd) (by rw [hwcore, hwt]; exact hgate) rfl (fun s1 => ?_) hquiet
    rw [State.markEdge_ctx]
    split <;> rfl
  clear_value completes
  refine ⟨hvalue rfl ?_, hvalue rfl ?_, hbytes rfl ?_, hbytes rfl ?_, hqueue rfl ?_, hqueue rfl ?_, hregion rfl ?_, hregion rfl ?_,
    fun hslot hreads => htransfer rfl ?put hreads rfl, fun hslot hret hpeer hreads => htransfer rfl ?get hreads rfl⟩
  case get =>
    have hsame : bits ((u .nget).slotEntry (u .nget).core cir) 26 13 =
        bits ((u .nget).slotEntry (u .nget).core (bits b.imm.toNat 7 0)) 26 13 := by rw [hcore]; exact hpeer
    have hsend : (u .nget).circuitOk (NBody_cir b) false false = true := hheld hslot
    have hback : (u .nget).circuitOk (bits b.imm.toNat 7 0) true false = true := hheld hret
    have hpeers : bits ((u .nget).slotEntry (u .nget).core (NBody_cir b)) 26 13 =
        bits ((u .nget).slotEntry (u .nget).core (bits b.imm.toNat 7 0)) 26 13 := hsame
    simp [State.circuitsBad, hsend, hback, hpeers]
  case put => exact congrArg not (hheld hslot)
  all_goals
    intro hok
    exact congrArg not hok

/-! Barriers and status (R230, R233). -/

/-- Settles O26: each word is what its own function says once its scope, its push and its circuit pass. -/
theorem barrierAndStatusWordsComplete : Obligations.BarrierAndStatusWordsComplete := by
  intro s h b t x y z u completes level waits a aq flushing sel cir
  have hcore (op : NOp) : (u op).core = s.core := State.acting_core s _
  have hcur (op : NOp) : (u op).cur = s.cur := State.acting_cur s _
  have hcompletes {op : NOp} {k : Operation} {d : Done} (hexec : exec (op.instr h b) s = issueN op h b k s)
      (hop : k (u op) = .ok d) : completes op d := fun hready hquiet => exec_nWord hexec hready hquiet hop
  clear_value completes
  refine ⟨fun hscope => hcompletes rfl ?arriveAndWait, fun q hscope hd hres => hcompletes rfl ?arriveAndPush,
    fun hnone hscope => hcompletes rfl ?arrive, fun hreads hscope => hcompletes rfl ?wait, hcompletes rfl rfl,
    fun q hheld hd hres => hcompletes rfl ?status⟩
  case arriveAndWait =>
    simp only [hscope] <;> rfl
  case arriveAndPush =>
    simp only [arriveOp, hd, hres, hscope, hcur] <;> rfl
  case arrive =>
    unfold arriveOp
    cases hd : b.d with
    | q n => exact absurd hd (hnone n)
    | _ =>
      simp only [hscope] <;> rfl
  case wait =>
    rw [nOperands_ok (op := .barw) _ hreads, hcur]
    simp only [hscope] <;> rfl
  case status =>
    have hok : (u .nstat).circuitsBad .nstat b = false := by
      by_cases hsel : bits b.nx.toNat 2 0 = 3
      · have hholds : (u .nstat).holdsEntry (bits b.imm.toNat 7 0) = true := by
          rw [State.holdsEntry, hcore]
          exact Bool.and_eq_true_iff.mpr (hheld hsel)
        simp [State.circuitsBad, hholds]
      · simp [State.circuitsBad, hsel]
    rw [overCircuits_of_ok _ hok]
    simp only [hd, hres]
    rw [State.upd_setStrand, hcur]

/-! Collectives (R231, R232). -/

/-- Settles O27: the forms are `collectiveOp` with their level, form, op and root. -/
theorem collectiveWordsIssue : Obligations.CollectiveWordsIssue := by
  intro s h b slot hints word level code
  have hword {op : NOp} {lvl scope form op1 root : Nat}
      (hexec : exec (op.instr h b) s = issueN op h b (collectiveOp (op.instr h b) h b lvl scope ⟨form, op1, root⟩) s) :
      word op lvl scope form op1 root := by
    unfold word
    intro v u ra rd ord fp cmd u1 d hready hregion hscope hreadable hwritable hgate hquiet
    have hcore : u.core = s.core := State.acting_core s _
    have hcur : u.cur = s.cur := State.acting_cur s _
    have helems : ¬ ((!u.elemsOk ra .read) = true ∨ (!u.elemsOk rd .write) = true) := by simp [hreadable, hwritable]
    refine exec_nWord hexec hready hquiet ?_
    show collectiveOp (op.instr h b) h b lvl scope ⟨form, op1, root⟩ u = _
    simp only [collectiveOp, hregion, hcore, hcur]
    rw [if_neg helems, hscope]
    dsimp only
    rw [hgate] <;> rfl
  clear_value word
  exact ⟨hword rfl, hword rfl, hword rfl, hword rfl, hword rfl⟩

end Sys2Proof.Machine

/-! PROOFS. What the events of the network do (R226 to R232, R382). -/

namespace Sys2Proof.Machine

section
variable {s : State} {core slot id : Nat}

theorem exec_packetDepart : exec (.packetDepart core slot) s = execPacketDepart core slot s := rfl
theorem exec_packetArrive : exec (.packetArrive core slot id) s = execPacketArrive core slot id s := rfl
theorem exec_creditReturn : exec (.creditReturn core slot) s = execCreditReturn core slot s := rfl
theorem exec_ngetRequestAccept : exec (.ngetRequestAccept core slot id) s = execNgetRequestAccept core slot id s := rfl
theorem exec_barrierRelease (gang level unit count : Nat) :
    exec (.barrierRelease gang level unit count) s = execBarrierRelease gang level unit count s := rfl
theorem exec_collectiveComplete (gang level unit ord : Nat) :
    exec (.collectiveComplete gang level unit ord) s = execCollectiveComplete gang level unit ord s := rfl

/-! Departures (R226, R227). -/

/-- No credit that returns in this chip cycle is still to count (R227). -/
theorem State.creditsCounted_iff :
    (s.agenda.any fun e => decide (e.1 ≤ s.now) && e.2 == Ev.creditReturn core slot) = false ↔
      ∀ e ∈ s.agenda, e.1 ≤ s.now → e.2 ≠ Ev.creditReturn core slot := by
  simp

variable {p : Packet} {rest : List Packet}

theorem execPacketDepart_eq (hback : (s.agenda.any fun e => decide (e.1 ≤ s.now) && e.2 == Ev.creditReturn core slot) = false)
    (hwait : (s.circuit core slot).wait = p :: rest) :
    execPacketDepart core slot s =
      .next (if s.mayLeave core slot p then (s.leave core slot p rest).arm core slot else s.arm core slot) := by
  rw [execPacketDepart, if_neg (by rw [hback]; decide), hwait]

theorem State.arm_of_waiting (hwait : (s.circuit core slot).wait = p :: rest) :
    s.arm core slot = s.schedule (s.opening slot (s.now + 1)) (.packetDepart core slot) := by
  rw [State.arm, hwait]
  rfl

/-! Arrivals (R226 to R229, R234). -/

/-- A packet that arrives behind requests alone is dealt with (R229, R234). -/
theorem State.onlyRequests_iff :
    (((s.circuit core slot).fly.takeWhile fun q => q.id != id).any fun q => q.kind != 2) = false ↔
      ∀ q ∈ (s.circuit core slot).fly.takeWhile fun q => q.id != id, q.kind = 2 := by
  simp

theorem min_two_succ (n : Nat) : Nat.min 2 (n + 1) = if n = 0 then 1 else 2 := by
  split
  · simp [*]
  · exact Nat.min_eq_left (by omega)

end

/-- Settles O41: each event is the branch of its function that the hypotheses choose. -/
theorem networkEventsAct : Obligations.NetworkEventsAct := by
  refine ⟨?packets, ?gangs⟩
  case packets =>
    intro s core slot id p rest a back first roff n k m s1 read data answered on
    refine ⟨fun hback hwait hmay => ?_, fun hback hwait hmay => ?_, fun hfly hfirst hkind => ?_, fun hfly hfirst hkind hfree => ?_,
      fun hfly hfirst hkind hbusy => ?_, fun hfly hfirst hkind => ?_, fun hfly hfirst hkind => ?_, ?credit,
      fun hfly hentry hfree hlast => ?_, fun hfly hentry hfree hmore => ?_⟩
    · rw [exec_packetDepart, execPacketDepart_eq (State.creditsCounted_iff.mpr hback) hwait, if_pos hmay]
    · rw [exec_packetDepart, execPacketDepart_eq (State.creditsCounted_iff.mpr hback) hwait, if_neg (by rw [hmay]; decide),
        State.arm_of_waiting hwait]
    · simp [exec_packetArrive, execPacketArrive, hfly, State.onlyRequests_iff.mpr hfirst, hkind, Circuit.enter]
    · simp [exec_packetArrive, execPacketArrive, hfly, State.onlyRequests_iff.mpr hfirst, hkind, hfree]
    · simp [exec_packetArrive, execPacketArrive, hfly, State.onlyRequests_iff.mpr hfirst, hkind, hbusy]
    · simp [exec_packetArrive, execPacketArrive, hfly, State.onlyRequests_iff.mpr hfirst, hkind]
    · simp [exec_packetArrive, execPacketArrive, hfly, State.onlyRequests_iff.mpr hfirst, hkind]
    case credit => simp only [exec_creditReturn, execCreditReturn, min_two_succ]
    · rw [exec_ngetRequestAccept]
      simp only [execNgetRequestAccept, hfly, hentry]
      rw [if_neg (by rw [hfree]; decide)]
      exact congrArg _ (if_pos hlast)
    · rw [exec_ngetRequestAccept]
      simp only [execNgetRequestAccept, hfly, hentry]
      rw [if_neg (by rw [hfree]; decide)]
      exact congrArg _ (if_neg (Nat.not_le.mpr hmore))
  case gangs =>
    intro s gang level unit count ord k g set down late here rank0 first m parts gone share
    refine ⟨fun hmembers hrun hup hready => ?_, fun hdown => ?_, fun hmembers hrun hup hlate => ?_, fun hcoll hdown => ?_,
      fun hcoll hup hlate => ?_, fun hcoll hup hready => ?_⟩
    · have hgo : ¬ ((g.members.isEmpty = true) ∨ s.paused gang = true ∨ down) := by simp [hmembers, hrun, hup]
      rw [exec_barrierRelease, execBarrierRelease, if_neg hgo, if_neg hready]
    · rw [exec_barrierRelease, execBarrierRelease, if_pos (.inr (.inr hdown))]
    · have hgo : ¬ ((g.members.isEmpty = true) ∨ s.paused gang = true ∨ down) := by simp [hmembers, hrun, hup]
      rw [exec_barrierRelease, execBarrierRelease, if_neg hgo, if_pos hlate]
    · rw [exec_collectiveComplete, execCollectiveComplete, hcoll]
      exact congrArg _ (if_pos hdown)
    · rw [exec_collectiveComplete, execCollectiveComplete, hcoll]
      exact congrArg _ ((if_neg hup).trans (if_pos hlate))
    · rw [exec_collectiveComplete, execCollectiveComplete, hcoll]
      exact congrArg _ ((if_neg hup).trans (if_neg hready))

/-! Row pins (R218, R368). -/

section
variable {s : State}

theorem exec_refreshInterval (ch bank : Nat) : exec (.refreshInterval ch bank) s = execRefreshInterval ch bank s := rfl
theorem exec_holdBudgetExpiry (x quoin : Nat) : exec (.holdBudgetExpiry x quoin) s = execHoldBudgetExpiry x quoin s := rfl
theorem exec_temperatureCrossing (stack : Nat) (hot : Bool) :
    exec (.temperatureCrossing stack hot) s = execTemperatureCrossing stack hot s := rfl

/-- An interval that elapses is not the last of a budget of more than one (R218). -/
theorem State.elapse_eq (x : Nat) (p : Pin) :
    s.elapse x p =
      let at_ := s.now + s.dev.trefi (s.dev.physCh p.ch / 32)
      let v := s.setPin x p { p with left := p.left - 1, next := at_ }
      if 1 < p.left then v.schedule at_ (.refreshInterval p.ch p.bank) else v.schedule s.now (.holdBudgetExpiry x p.quoin) := by
  unfold State.elapse
  by_cases hlast : p.left ≤ 1
  · simp only [if_pos hlast, if_neg (Nat.not_lt.mpr hlast)]
    rfl
  · simp only [if_neg hlast, if_pos (Nat.not_le.mp hlast)]

/-- The pin that a strand has of a row is broken and the row precharged (R218). -/
theorem State.breakPin_of_some {x : Nat} {q : Quoin} (hpin : ((s.strandAt x).pinOf q).isSome = true) :
    s.breakPin x q =
      (s.setStrand x ((((s.strandAt x).unpin q).setFlags fHOLDBROKE).setRowStat q true ((s.strandAt x).rowStat q).busy)).precharge q := by
  rw [State.breakPin, if_pos hpin, Strand.breakPin, if_pos hpin]

theorem State.breakPin_of_none {x : Nat} {q : Quoin} (hpin : (s.strandAt x).pinOf q = none) : s.breakPin x q = s := by
  rw [State.breakPin, hpin]
  rfl

end

/-- Settles O42: the pins due are walked in their order, and one step of the walk is `State.elapse_eq` or `State.retime`. -/
theorem rowPinsRunOut : Obligations.RowPinsRunOut := by
  intro s ch bank x quoin stack hot pinned put elapses due t q told u moves
  refine ⟨?refresh, fun hheld hpin => ?expires, fun hgone => ?gone, fun hsame => ?same, fun hcross => ?crosses⟩
  case refresh =>
    have hstep : (fun (v : State) (e : Nat × Pin) => v.elapse e.1 e.2) = elapses := by
      funext v e
      exact State.elapse_eq e.1 e.2
    rw [exec_refreshInterval, execRefreshInterval, hstep]
    rfl
  case expires => rw [exec_holdBudgetExpiry, execHoldBudgetExpiry, if_pos hheld, State.breakPin_of_some hpin]
  case gone =>
    rw [exec_holdBudgetExpiry, execHoldBudgetExpiry]
    rcases hgone with hended | hnone
    · rw [if_neg (by rw [hended]; decide)]
    · rw [State.breakPin_of_none hnone, ite_self]
  case same =>
    rw [exec_temperatureCrossing, execTemperatureCrossing]
    exact congrArg _ (if_pos hsame)
  case crosses =>
    rw [exec_temperatureCrossing, execTemperatureCrossing]
    exact congrArg _ (if_neg hcross)

end Sys2Proof.Machine

/-! PROOFS. Launches: the walker's points, checks, staging, starts, standby sets and the forecast (R278, R279, R283, R289, R306, R310,
R311, R313). -/

namespace Sys2Proof.Machine

section
variable {s : State}

theorem exec_walkerDeal (gang : Nat) : exec (.walkerDeal gang) s = execWalkerDeal gang s := rfl
theorem exec_repetitionStart (q k : Nat) : exec (.repetitionStart q k) s = execRepetitionStart q k s := rfl
theorem exec_stagingComplete (q k : Nat) : exec (.stagingComplete q k) s = execStagingComplete q k s := rfl
theorem exec_strandStart (x : Nat) : exec (.strandStart x) s = execStrandStart x s := rfl
theorem exec_standbyFill (core q k : Nat) : exec (.standbyFill core q k) s = execStandbyFill core q k s := rfl

end

/-! The walker (R278, R279). -/

theorem Strand.unitFree_iff {t : Strand} {c at_ : Nat} :
    t.unitFree c at_ = true ↔ t.edgeSlot [winRange c at_ (at_ + 8) true] = none := Option.isNone_iff_eq_none

/-- An entry can be written once TAKEN leaves room for it and no footprint covers it (R279). -/
theorem State.dealReady_iff {s : State} {b : Sym} {x m : Nat} :
    s.dealReady b x m = true ↔
      m + 1 ≤ s.num .chip (chipAddr (coreOf x) (b.rbase + 8)) 8 + 2 ^ b.ring ∧
        (s.strandAt x).edgeSlot [winRange (coreOf x) (b.entryAt m) (b.entryAt m + 8) true] = none := by
  simp [State.dealReady, Strand.unitFree_iff]

section
variable {s : State} {gang : Nat} {l : Launch} {y : Symm}

/-- The state in which the walker has made a test and goes on with the next one after a latency. -/
def State.walksOn (s : State) (gang : Nat) (l : Launch) (y : Symm) : State :=
  let d := (s.setLaunch { l with symm := some y }).latency
  d.2.schedule (d.2.now + 1 + d.1) (.walkerDeal gang)

variable (hfind : (s.dev.launches.find? fun l => l.gang == gang && l.stage == .running && !l.members.isEmpty) = some l)
  (hsymm : l.symm = some y)
include hfind hsymm

/-- The walker counts DEALT of a ring whose entry has been written (R279). -/
theorem execWalkerDeal_of_owed {r d : Nat} (howed : y.owed = some (r, d)) (hliving : s.living l ((s.gang gang).members.getD r 0) = true) :
    execWalkerDeal gang s =
      let b := symOf y.block
      let x := (s.gang gang).members.getD r 0
      .next (if (s.strandAt x).unitFree (coreOf x) b.rbase then
          (s.chipWrite (coreOf x) b.rbase (leBytes 8 d)).walksOn gang l { y with owed := none }
        else s.schedule (s.now + 1) (.walkerDeal gang)) := by
  simp only [execWalkerDeal, hfind, hsymm, howed, hliving]
  rfl

/-- The walker tests a point (R278, R279). -/
theorem execWalkerDeal_of_point (hnone : y.owed = none) (hpoint : y.point < (symOf y.block).points)
    (hmembers : (s.gang gang).members.length ≠ 0) :
    execWalkerDeal gang s =
      let b := symOf y.block
      let g := s.gang gang
      let n := g.members.length
      let p := b.point y.point
      let x := g.members.getD (y.dealt % n) 0
      let m := s.dealtOf b x
      let next (j : Nat) : Symm := { y with point := y.point + 1, dealt := j }
      .next (if b.inDomain p = false then s.walksOn gang l (next y.dealt)
        else if s.living l x = false then s.walksOn gang l (next (y.dealt + 1))
        else if s.dealReady b x m then
          (s.deal b x m (b.entry p)).walksOn gang l { next (y.dealt + 1) with owed := some (y.dealt % n, m + 1) }
        else s.schedule (s.now + 1) (.walkerDeal gang)) := by
  have hcount : Nat.max 1 (s.gang gang).members.length = (s.gang gang).members.length :=
    Nat.max_eq_right (Nat.one_le_iff_ne_zero.mpr hmembers)
  simp only [execWalkerDeal, hfind, hsymm, hnone, if_pos hpoint, hcount, Bool.not_eq_true']
  rfl

/-- After the last end marker the walker has nothing left to do. -/
theorem execWalkerDeal_of_ended (hnone : y.owed = none) (hpoint : (symOf y.block).points ≤ y.point)
    (hmembers : (s.gang gang).members.length ≠ 0) (hended : (s.gang gang).members.length ≤ y.ended.length) :
    execWalkerDeal gang s = .next s := by
  have hcount : Nat.max 1 (s.gang gang).members.length = (s.gang gang).members.length :=
    Nat.max_eq_right (Nat.one_le_iff_ne_zero.mpr hmembers)
  simp only [execWalkerDeal, hfind, hsymm, hnone, if_neg (Nat.not_lt.mpr hpoint), hcount, if_pos hended]

end

/-! Checks and staging (R306, R310). -/

/-- Whether a launch waits for a place of its working set: it stages one, and two are staged or the handler is held (R310). -/
theorem Launch.stages_and_iff {l : Launch} {a b : Bool} :
    (l.stages && (a || b)) = true ↔ lrWset l.copy ≠ 0 ∧ lrWsn l.copy ≠ 0 ∧ (b = true ∨ a = true) := by
  simp [Launch.stages, and_assoc, or_comm]

theorem foldl_min_eq_of_least {x g : Nat} {xs : List Nat} (hmem : g ∈ x :: xs) (hle : ∀ y ∈ x :: xs, g ≤ y) :
    xs.foldl Nat.min x = g := by
  have hmin : (x :: xs).min? = some g := List.min?_eq_some_iff.mpr ⟨hmem, hle⟩
  rw [List.min?_cons'] at hmin
  exact Option.some.inj hmin

/-- Settles O36: each event is the branch of its function that the hypotheses choose; the lowest group that a standby set holds is the
least of the list that the function walks. -/
theorem launchesStageStartAndDeal : Obligations.LaunchesStageStartAndDeal := by
  refine ⟨?walker, ?launches⟩
  case walker =>
    intro s gang l y b g p n x c m free again next entry room tests hfind hsymm hmembers
    have hpoint (htests : tests) := execWalkerDeal_of_point hfind hsymm htests.1 htests.2 hmembers
    refine ⟨fun htests hout => ?_, fun htests hin hended => ?_, fun htests hin hliving hroom => ?_, fun htests hin hliving hroom => ?_,
      fun r d howed hliving hfree => ?_, fun r d howed hliving hbusy => ?_, fun hnone hlast hall => ?_⟩
    · rw [exec_walkerDeal, hpoint htests]
      exact congrArg _ (if_pos hout)
    · rw [exec_walkerDeal, hpoint htests]
      exact congrArg _ ((if_neg (by rw [hin]; decide)).trans (if_pos hended))
    · rw [exec_walkerDeal, hpoint htests]
      exact congrArg _ ((if_neg (by rw [hin]; decide)).trans ((if_neg (by rw [hliving]; decide)).trans
        (if_pos (State.dealReady_iff.mpr hroom))))
    · rw [exec_walkerDeal, hpoint htests]
      exact congrArg _ ((if_neg (by rw [hin]; decide)).trans ((if_neg (by rw [hliving]; decide)).trans
        (if_neg (mt State.dealReady_iff.mp hroom))))
    · rw [exec_walkerDeal, execWalkerDeal_of_owed hfind hsymm howed hliving]
      exact congrArg _ (if_pos (Strand.unitFree_iff.mpr hfree))
    · rw [exec_walkerDeal, execWalkerDeal_of_owed hfind hsymm howed hliving]
      exact congrArg _ (if_neg (mt Strand.unitFree_iff.mp hbusy))
    · rw [exec_walkerDeal, execWalkerDeal_of_ended hfind hsymm hnone hlast hmembers hall]
  case launches =>
    intro s q k c x v j l b sym s1 e t waits idle starts n groups segData filled
    have hidle (h : idle) : s.launchOf q k = some l ∧ ¬ (l.stage ≠ .prologue ∨ (s.dev.prologues.any fun p => p.q == q && p.slot == k) = true) := by
      obtain ⟨hlaunch, hstage, hnone⟩ := h
      refine ⟨hlaunch, ?_⟩
      simpa [hstage] using hnone
    have hwaits : (s.handlerHeld 1 || (l.stages && (s.handlerHeld 2 || s.stagingFull (q / 64)))) = true ↔
        s.handlerHeld 1 = true ∨ waits := by
      rw [Bool.or_eq_true, Launch.stages_and_iff]
    have hstarts (h : starts) : ¬ (s.handlerHeld 1 || (l.stages && (s.handlerHeld 2 || s.stagingFull (q / 64)))) = true := by
      rw [hwaits, h.2.1]
      simpa using h.2.2
    refine ⟨fun h hcheck => ?_, fun h hheld => ?_, fun h hcheck => ?_, fun hlaunch hstage hheld hall => ?_,
      fun hlaunch hstage hheld hall => ?_, fun hlaunch hstage => ?_, fun hmode hheld => ?_, ?standby, rfl⟩
    · obtain ⟨hlaunch, hstage⟩ := hidle h.1
      rw [exec_repetitionStart]
      simp only [execRepetitionStart, hlaunch, if_neg hstage, if_neg (hstarts h), hcheck]
    · obtain ⟨hlaunch, hstage⟩ := hidle h
      rw [exec_repetitionStart]
      simp only [execRepetitionStart, hlaunch, if_neg hstage, if_pos (hwaits.mpr hheld)]
    · obtain ⟨hlaunch, hstage⟩ := hidle h.1
      rw [exec_repetitionStart]
      simp only [execRepetitionStart, hlaunch, if_neg hstage, if_neg (hstarts h), hcheck]
    · simp [exec_stagingComplete, execStagingComplete, hlaunch, hstage, hheld, hall, n]
    · simp [exec_stagingComplete, execStagingComplete, hlaunch, hstage, hheld, hall, n]
    · simp [exec_stagingComplete, execStagingComplete, hlaunch, hstage]
    · rw [exec_strandStart, execStrandStart]
      exact congrArg _ (if_pos ⟨hmode, hheld⟩)
    case standby =>
      rintro g hempty hcoming hnames hheld himage ⟨e, hmem, rfl⟩ hleast
      have hgroups : e.1 ∈ (groups b).map fun e => e.1 := List.mem_map_of_mem hmem
      have hnames : ¬ (!s.names v c) = true := by rw [hnames]; decide
      rw [exec_standbyFill]
      simp only [execStandbyFill, hempty, hcoming, if_neg hnames, hheld, himage]
      split
      next hheld => cases hheld
      next =>
        split
        next hnil =>
          have hnil : (groups b).map (fun e => e.1) = [] := hnil
          rw [hnil] at hgroups
          cases hgroups
        next g0 gs hcons =>
          have hcons : (groups b).map (fun e => e.1) = g0 :: gs := hcons
          have hmin : gs.foldl Nat.min g0 = e.1 :=
            foldl_min_eq_of_least (hcons ▸ hgroups) (hcons ▸ List.forall_mem_map.mpr hleast)
          rw [hmin]

end Sys2Proof.Machine

/-! PROOFS. Stick-code words (R307, R308): a word's fields read back, so each word has one meaning. -/

namespace Sys2Proof

open Sys2Proof.Machine

/-! The fields of a 32-bit word. -/

/-- The fields OP, D, A and the 19 bits below them of a stick-code word. -/
def stickWord (op d a imm : Nat) : Nat := packFields [(5, op), (4, d), (4, a), (19, imm)]

/-- Fields that fit a stick-code word. -/
structure StickFits (op d a imm : Nat) : Prop where
  op : op < 2 ^ 5
  d : d < 2 ^ 4
  a : a < 2 ^ 4
  imm : imm < 2 ^ 19

theorem stickWord_cut (op d a b r : Nat) (n m : Nat) (hcut : n + m = 19) :
    packFields [(5, op), (4, d), (4, a), (n, b), (m, r)] = stickWord op d a (b * 2 ^ m + r) := by
  simp only [stickWord, packFields, List.map_cons, List.map_nil, List.sum_cons, List.sum_nil, Nat.add_zero, hcut, pow_zero, Nat.mul_one]

theorem stickWord_eq_cut (op d a imm n m : Nat) (hcut : n + m = 19) :
    stickWord op d a imm = packFields [(5, op), (4, d), (4, a), (n, imm / 2 ^ m), (m, imm % 2 ^ m)] := by
  rw [stickWord_cut op d a _ _ n m hcut, Nat.div_add_mod']

section
variable {op d a imm : Nat} (h : StickFits op d a imm)
include h

theorem StickFits.fields : FieldsFit [(5, op), (4, d), (4, a), (19, imm)] :=
  fieldsFit_cons.mpr ⟨h.op, fieldsFit_cons.mpr ⟨h.d, fieldsFit_cons.mpr ⟨h.a, fieldsFit_cons.mpr ⟨h.imm, fieldsFit_nil⟩⟩⟩⟩

theorem StickFits.word_lt : stickWord op d a imm < 2 ^ 32 := packFields_lt h.fields

theorem StickFits.unpack_iLayout : unpackFields iLayout (stickWord op d a imm % 2 ^ 32) = [op, d, a, imm] := by
  rw [Nat.mod_eq_of_lt h.word_lt]
  exact unpackFields_packFields h.fields

/-- The low field of a word is cut further where its form has more fields. -/
theorem StickFits.unpack_cut (n m : Nat) (hcut : n + m = 19) :
    unpackFields [5, 4, 4, n, m] (stickWord op d a imm % 2 ^ 32) = [op, d, a, imm / 2 ^ m, imm % 2 ^ m] := by
  have hhigh : imm / 2 ^ m < 2 ^ n := Nat.div_lt_of_lt_mul (by rw [← Nat.pow_add, Nat.add_comm, hcut]; exact h.imm)
  rw [Nat.mod_eq_of_lt h.word_lt, stickWord_eq_cut op d a imm n m hcut]
  exact unpackFields_packFields (fieldsFit_cons.mpr ⟨h.op, fieldsFit_cons.mpr ⟨h.d, fieldsFit_cons.mpr ⟨h.a, fieldsFit_cons.mpr
    ⟨hhigh, fieldsFit_cons.mpr ⟨Nat.mod_lt _ (Nat.two_pow_pos m), fieldsFit_nil⟩⟩⟩⟩⟩)

theorem StickFits.unpack_rLayout :
    unpackFields rLayout (stickWord op d a imm % 2 ^ 32) = [op, d, a, imm / 2 ^ 15, imm % 2 ^ 15] := h.unpack_cut 4 15 rfl

theorem StickFits.unpack_kLayout :
    unpackFields kLayout (stickWord op d a imm % 2 ^ 32) = [op, d, a, imm / 2 ^ 17, imm % 2 ^ 17] := h.unpack_cut 2 17 rfl

end

/-- Every 32-bit word is the word of its fields. -/
theorem exists_stickWord {w : Nat} (hw : w < 2 ^ 32) : ∃ op d a imm, StickFits op d a imm ∧ w = stickWord op d a imm := by
  refine ⟨w / 2 ^ 27, w / 2 ^ 23 % 16, w / 2 ^ 19 % 16, w % 2 ^ 19, ⟨?_, ?_, ?_, ?_⟩, ?_⟩
  · exact Nat.div_lt_of_lt_mul hw
  · exact Nat.mod_lt _ (by decide)
  · exact Nat.mod_lt _ (by decide)
  · exact Nat.mod_lt _ (by decide)
  · simp only [stickWord, packFields, List.map_cons, List.map_nil, List.sum_cons, List.sum_nil]
    omega

/-! The words of each form: registers, a window's offset, an immediate. -/

theorem cut_div {m r : Nat} (b : Nat) (hr : r < 2 ^ m) : (b * 2 ^ m + r) / 2 ^ m = b := by
  rw [Nat.mul_comm, Nat.mul_add_div (Nat.two_pow_pos m), Nat.div_eq_of_lt hr, Nat.add_zero]

theorem cut_mod {m r : Nat} (b : Nat) (hr : r < 2 ^ m) : (b * 2 ^ m + r) % 2 ^ m = r := by
  rw [Nat.mul_comm, Nat.mul_add_mod, Nat.mod_eq_of_lt hr]

/-- What the decoder reads in the word `w` in its three layouts. -/
structure StickReads (w op d a imm b rsv win off : Nat) : Prop where
  lt : w < 2 ^ 32
  i : unpackFields iLayout (w % 2 ^ 32) = [op, d, a, imm]
  r : unpackFields rLayout (w % 2 ^ 32) = [op, d, a, b, rsv]
  k : unpackFields kLayout (w % 2 ^ 32) = [op, d, a, win, off]

theorem StickFits.reads {op d a imm : Nat} (h : StickFits op d a imm) :
    StickReads (stickWord op d a imm) op d a imm (imm / 2 ^ 15) (imm % 2 ^ 15) (imm / 2 ^ 17) (imm % 2 ^ 17) :=
  ⟨h.word_lt, h.unpack_iLayout, h.unpack_rLayout, h.unpack_kLayout⟩

section
variable {op d a : Nat}

theorem stickReads_imm {imm : Nat} (h : StickFits op d a imm) :
    StickReads (packFields [(5, op), (4, d), (4, a), (19, imm)]) op d a imm (imm / 2 ^ 15) (imm % 2 ^ 15) (imm / 2 ^ 17) (imm % 2 ^ 17) :=
  h.reads

theorem stickReads_regs (a b : Fin 16) {r : Nat} (hop : op < 2 ^ 5) (hd : d < 2 ^ 4) (hr : r < 2 ^ 15) :
    StickReads (packFields [(5, op), (4, d), (4, a.val), (4, b.val), (15, r)]) op d a (b.val * 2 ^ 15 + r)
      b.val r ((b.val * 2 ^ 15 + r) / 2 ^ 17) ((b.val * 2 ^ 15 + r) % 2 ^ 17) := by
  have h : StickFits op d a (b.val * 2 ^ 15 + r) := ⟨hop, hd, a.isLt, by have := b.isLt; omega⟩
  simpa only [cut_div b.val hr, cut_mod b.val hr, ← stickWord_cut op d a b r 4 15 rfl] using h.reads

theorem stickReads_window (d a : Fin 16) (win : Fin 4) (off : BitVec 17) (hop : op < 2 ^ 5) :
    StickReads (packFields [(5, op), (4, d.val), (4, a.val), (2, win.val), (17, off.toNat)]) op d a (win.val * 2 ^ 17 + off.toNat)
      ((win.val * 2 ^ 17 + off.toNat) / 2 ^ 15) ((win.val * 2 ^ 17 + off.toNat) % 2 ^ 15) win.val off.toNat := by
  have h : StickFits op d a (win.val * 2 ^ 17 + off.toNat) :=
    ⟨hop, d.isLt, a.isLt, by have := win.isLt; have := off.isLt; omega⟩
  simpa only [cut_div win.val off.isLt, cut_mod win.val off.isLt, ← stickWord_cut op d a win off.toNat 2 17 rfl] using h.reads

theorem StickReads.decodes {i : Instr} {w imm b rsv win off : Nat} (h : StickReads w op d a imm b rsv win off)
    (hdec : StickReads w op d a imm b rsv win off → decodeStick w = some i) : w < 2 ^ 32 ∧ decodeStick w = some i :=
  ⟨h.lt, hdec h⟩

end

/-- The word of a well-formed stick-code instruction has 32 bits and decodes to it. -/
theorem decodeStick_encodeStick {i : Instr} {w : Nat} (henc : encodeStick i = some w) (hwf : i.WellFormed) :
    w < 2 ^ 32 ∧ decodeStick w = some i := by
  cases i with
  | stickEnd | stickCancel =>
    obtain rfl := Option.some.inj henc
    decide
  | stickAdd d a b | stickSub d a b | stickAnd d a b | stickOr d a b | stickXor d a b | stickMul d a b | stickDivu d a b
  | stickMinu d a b | stickMaxu d a b =>
    obtain rfl := Option.some.inj henc
    refine (stickReads_regs a b ?_ d.isLt (by decide)).decodes fun h => ?_
    · decide
    · rw [decodeStick, h.i, h.r, h.k]
      simp
  | stickLd d a win off | stickSt d a win off =>
    obtain rfl := Option.some.inj henc
    refine (stickReads_window d a win off ?_).decodes fun h => ?_
    · decide
    · rw [decodeStick, h.i, h.r, h.k]
      simp
  | stickLi d i =>
    obtain rfl := Option.some.inj henc
    refine (stickReads_imm ⟨?_, d.isLt, ?_, i.isLt⟩).decodes fun h => ?_
    · decide
    · decide
    · rw [decodeStick, h.i, h.r, h.k]
      simp
  | stickLhi d a i | stickAddi d a i =>
    obtain rfl := Option.some.inj henc
    refine (stickReads_imm ⟨?_, d.isLt, a.isLt, i.isLt⟩).decodes fun h => ?_
    · decide
    · rw [decodeStick, h.i, h.r, h.k]
      simp
  | stickShl d a n | stickShr d a n =>
    obtain rfl := Option.some.inj henc
    refine (stickReads_imm ⟨?_, d.isLt, a.isLt, n.isLt.trans (by decide)⟩).decodes fun h => ?_
    · decide
    · rw [decodeStick, h.i, h.r, h.k]
      simpa using n.isLt
  | stickLrd d i =>
    obtain rfl := Option.some.inj henc
    refine (stickReads_imm ⟨?_, d.isLt, ?_, i.isLt.trans (by decide)⟩).decodes fun h => ?_
    · decide
    · decide
    · rw [decodeStick, h.i, h.r, h.k]
      simp
  | stickLwr a i =>
    obtain rfl := Option.some.inj henc
    refine (stickReads_imm ⟨?_, ?_, a.isLt, i.isLt.trans (by decide)⟩).decodes fun h => ?_
    · decide
    · decide
    · rw [decodeStick, h.i, h.r, h.k]
      simp
  | stickBz a i | stickBnz a i | stickLoop a i =>
    have hi : 1 ≤ i.toNat := of_decide_eq_true hwf
    obtain rfl := Option.some.inj henc
    refine (stickReads_imm ⟨?_, ?_, a.isLt, i.isLt⟩).decodes fun h => ?_
    · decide
    · decide
    · rw [decodeStick, h.i, h.r, h.k]
      simp [Nat.one_le_iff_ne_zero.mp hi]
  | stickBltu a b o =>
    have ho : 1 ≤ o.toNat := of_decide_eq_true hwf
    obtain rfl := Option.some.inj henc
    refine (stickReads_regs a b ?_ ?_ o.isLt).decodes fun h => ?_
    · decide
    · decide
    · rw [decodeStick, h.i, h.r, h.k]
      simp [Nat.one_le_iff_ne_zero.mp ho]
  | stickRept a =>
    obtain rfl := Option.some.inj henc
    refine (stickReads_imm ⟨?_, ?_, a.isLt, ?_⟩).decodes fun h => ?_
    · decide
    · decide
    · decide
    · rw [decodeStick, h.i, h.r, h.k]
      simp
  | stickClk d =>
    obtain rfl := Option.some.inj henc
    refine (stickReads_imm ⟨?_, d.isLt, ?_, ?_⟩).decodes fun h => ?_
    · decide
    · decide
    · decide
    · rw [decodeStick, h.i, h.r, h.k]
      simp
  | _ => exact absurd henc.symm (Option.some_ne_none w)

theorem val_fin_of_lt {n m : Nat} [NeZero n] (h : m < n) : (fin n m).val = m := Nat.mod_eq_of_lt h

theorem ite_some_eq_some {α : Type} {p : Prop} [Decidable p] {x y : α} (h : (if p then some x else none) = some y) : p ∧ x = y :=
  (Option.ite_none_right_eq_some.mp h).imp_right Option.some.inj

/-- A decoded word is the word of the instruction that it decodes to, which is well formed. -/
theorem encodeStick_decodeStick {i : Instr} {w : Nat} (hw : w < 2 ^ 32) (hdec : decodeStick w = some i) :
    encodeStick i = some w ∧ i.WellFormed := by
  obtain ⟨op, d, a, imm, hfits, rfl⟩ := exists_stickWord hw
  have hd : (fin 16 d).val = d := val_fin_of_lt hfits.d
  have ha : (fin 16 a).val = a := val_fin_of_lt hfits.a
  have himm : (BitVec.ofNat 19 imm).toNat = imm := Nat.mod_eq_of_lt hfits.imm
  have hb : (fin 16 (imm / 2 ^ 15)).val = imm / 2 ^ 15 := val_fin_of_lt (Nat.div_lt_of_lt_mul hfits.imm)
  have hwin : (fin 4 (imm / 2 ^ 17)).val = imm / 2 ^ 17 := val_fin_of_lt (Nat.div_lt_of_lt_mul hfits.imm)
  have hoff : (BitVec.ofNat 17 (imm % 2 ^ 17)).toNat = imm % 2 ^ 17 := Nat.mod_mod imm _
  have hlow : (BitVec.ofNat 15 (imm % 2 ^ 15)).toNat = imm % 2 ^ 15 := Nat.mod_mod imm _
  have hregs := stickWord_eq_cut op d a imm 4 15 rfl
  have hwindow := stickWord_eq_cut op d a imm 2 17 rfl
  simp only [decodeStick, hfits.unpack_iLayout, hfits.unpack_rLayout, hfits.unpack_kLayout] at hdec
  split at hdec
  case h_1 | h_24 =>
    obtain ⟨⟨rfl, rfl, rfl⟩, rfl⟩ := ite_some_eq_some hdec
    exact ⟨rfl, rfl⟩
  case h_2 =>
    obtain ⟨rfl, rfl⟩ := ite_some_eq_some hdec
    exact ⟨congrArg some (by simp only [stickWord, hd, himm]), rfl⟩
  case h_3 | h_5 =>
    obtain rfl := Option.some.inj hdec
    exact ⟨congrArg some (by simp only [stickWord, hd, ha, himm]), rfl⟩
  case h_4 | h_6 | h_7 | h_8 | h_9 | h_12 | h_13 | h_14 | h_15 =>
    obtain ⟨hrsv, rfl⟩ := ite_some_eq_some hdec
    exact ⟨congrArg some (by simp only [hregs, hd, ha, hb, hrsv]), rfl⟩
  case h_10 | h_11 =>
    obtain ⟨hn, rfl⟩ := ite_some_eq_some hdec
    have hn : (BitVec.ofNat 6 imm).toNat = imm := Nat.mod_eq_of_lt hn
    exact ⟨congrArg some (by simp only [stickWord, hd, ha, hn]), rfl⟩
  case h_16 | h_17 =>
    obtain rfl := Option.some.inj hdec
    exact ⟨congrArg some (by simp only [hwindow, hd, ha, hwin, hoff]), rfl⟩
  case h_18 =>
    obtain ⟨⟨rfl, hi⟩, rfl⟩ := ite_some_eq_some hdec
    exact ⟨congrArg some (by simp only [stickWord, hd, val_fin_of_lt hi]), rfl⟩
  case h_19 =>
    obtain ⟨⟨rfl, hi⟩, rfl⟩ := ite_some_eq_some hdec
    exact ⟨congrArg some (by simp only [stickWord, ha, val_fin_of_lt hi]), rfl⟩
  case h_20 | h_21 | h_23 =>
    obtain ⟨⟨rfl, hi⟩, rfl⟩ := ite_some_eq_some hdec
    exact ⟨congrArg some (by simp only [stickWord, ha, himm]), decide_eq_true (Nat.pos_of_ne_zero (himm.symm ▸ hi))⟩
  case h_22 =>
    obtain ⟨⟨rfl, ho⟩, rfl⟩ := ite_some_eq_some hdec
    exact ⟨congrArg some (by simp only [hregs, ha, hb, hlow]), decide_eq_true (Nat.pos_of_ne_zero (hlow.symm ▸ ho))⟩
  case h_25 =>
    obtain ⟨⟨rfl, rfl⟩, rfl⟩ := ite_some_eq_some hdec
    exact ⟨congrArg some (by simp only [stickWord, ha]), rfl⟩
  case h_26 =>
    obtain ⟨⟨rfl, rfl⟩, rfl⟩ := ite_some_eq_some hdec
    exact ⟨congrArg some (by simp only [stickWord, hd]), rfl⟩
  case h_27 => exact absurd hdec.symm (Option.some_ne_none i)

/-- Settles O58: the layouts of a word's form read back the fields of which it is packed, and every 32-bit word is the word of its
fields. -/
theorem stickWordsRoundTrip : Obligations.StickWordsRoundTrip := fun _ _ =>
  ⟨decodeStick_encodeStick, encodeStick_decodeStick⟩

end Sys2Proof

/-! PROOFS. Stick code: a word of a run (R307, R309), a window's access (R298, R329). -/

namespace Sys2Proof.Machine

/-! One word of a run. -/

/-- The run after a step of two chip cycles, at the next word. -/
def Prologue.ticked (p : Prologue) : Prologue := { p with steps := p.steps + 1, pc := p.pc + 1, next := p.next + 2 }

section
variable {s : State} {p : Prologue}

theorem State.stickStep_of_left (hrun : s.run = some p) (hleft : p.steps < 4096) (act : Prologue → State) :
    s.stickStep act = .next (act p.ticked) := by
  simp only [State.stickStep, hrun, if_neg (Nat.not_le.mpr hleft)]
  rfl

theorem State.stickSet_of_left (hrun : s.run = some p) (hleft : p.steps < 4096) (f : Prologue → Prologue) :
    s.stickSet f = .next (s.setRun (f p.ticked)) := State.stickStep_of_left hrun hleft _

theorem State.stickStep_of_spent (hrun : s.run = some p) (hspent : 4096 ≤ p.steps) (act : Prologue → State) :
    s.stickStep act = .next (s.runFault p 1) := by
  simp only [State.stickStep, hrun, if_pos hspent]

theorem Prologue.put_eq (d : Fin 16) (v : Word) : p.put d v = if d = 0 then p else { p with regs := p.regs.set d.val v } :=
  if_congr Fin.val_eq_zero_iff rfl rfl

theorem Prologue.jump_eq {b : Bool} {c : Prop} [Decidable c] (hbc : b = true ↔ c) (dist : Nat) :
    p.ticked.jump b dist = if c then { p.ticked with pc := p.pc + dist } else p.ticked :=
  if_congr hbc rfl rfl

theorem recordWord_eq (x i : Nat) : BitVec.ofNat 64 (recordWord x i) = BitVec.ofNat 64 (x / 2 ^ (64 * i)) := by
  have hwidth : 64 * i + 63 + 1 - 64 * i = 64 := by omega
  apply BitVec.eq_of_toNat_eq
  simp only [recordWord, bits, BitVec.toNat_ofNat, hwidth, Nat.mod_mod]

end

/-- Settles O28: each word is `stickSet` of its change of the registers, or `stickStep` of its own act. -/
theorem stickRegisterAndControlWords : Obligations.StickRegisterAndControlWords := by
  unfold Obligations.StickRegisterAndControlWords
  refine ⟨?registers, ?control⟩
  case registers =>
    intro s p d a b i imm n hrun hleft x y p1 sets
    have hset {j : Instr} {v : Word} (f : Prologue → Word) (hexec : exec j s = s.stickSet fun p => p.put d (f p)) (hv : f p1 = v) :
        sets j v := by
      subst hv
      exact hexec.trans ((State.stickSet_of_left hrun hleft _).trans (by rw [Prologue.put_eq]; rfl))
    refine ⟨hset (fun _ => imm.signExtend 64) rfl rfl, hset (fun p => p.reg a <<< 19 ||| imm.setWidth 64) rfl rfl,
      hset (fun p => p.reg a + p.reg b) rfl rfl, hset (fun p => p.reg a + imm.signExtend 64) rfl rfl,
      hset (fun p => p.reg a - p.reg b) rfl rfl, hset (fun p => p.reg a &&& p.reg b) rfl rfl,
      hset (fun p => p.reg a ||| p.reg b) rfl rfl, hset (fun p => p.reg a ^^^ p.reg b) rfl rfl,
      hset (fun p => p.reg a <<< n.toNat) rfl rfl, hset (fun p => p.reg a >>> n.toNat) rfl rfl,
      hset (fun p => p.reg a * p.reg b) rfl rfl,
      hset (fun p => if p.reg b = 0 then 0xFFFFFFFFFFFFFFFF else p.reg a / p.reg b) rfl rfl,
      hset (fun p => if (p.reg a).toNat ≤ (p.reg b).toNat then p.reg a else p.reg b) rfl rfl,
      hset (fun p => if (p.reg a).toNat ≤ (p.reg b).toNat then p.reg b else p.reg a) rfl rfl,
      hset (fun p => BitVec.ofNat 64 (recordWord p.copy i.val)) rfl (recordWord_eq p.copy i.val),
      hset (fun _ => BitVec.ofNat 64 s.micros) rfl rfl,
      State.stickSet_of_left hrun hleft fun p => { p with copy := putBits p.copy (64 * i.val) 64 (p.reg a).toNat }, rfl⟩
  case control =>
    intro s p a b imm off hrun x y p1 goes ends fault
    refine ⟨fun hleft => ?left, fun hspent j hj => ?spent⟩
    case left =>
      have hgoes {j : Instr} {b : Prologue → Bool} {c : Prop} [Decidable c] {dist : Nat}
          (hexec : exec j s = s.stickSet fun p => p.jump (b p) dist) (hbc : b p1 = true ↔ c) : goes j c (p.pc + dist) :=
        hexec.trans ((State.stickSet_of_left hrun hleft _).trans (congrArg (Host.Outcome.next ∘ s.setRun) (Prologue.jump_eq hbc dist)))
      refine ⟨hgoes (b := fun p => p.reg a == 0) rfl beq_iff_eq, hgoes (b := fun p => p.reg a != 0) rfl bne_iff_ne,
        hgoes (b := fun p => decide ((p.reg a).toNat < (p.reg b).toNat)) rfl decide_eq_true_iff, ?loop,
        show execStickEnd s = _ from State.stickStep_of_left hrun hleft _,
        show execStickCancel s = _ from State.stickStep_of_left hrun hleft _, ?rept⟩
      case loop =>
        refine (State.stickSet_of_left hrun hleft fun p =>
          if p.reg a = 0 then p else { (p.put a (p.reg a - 1)) with pc := p.pc - 1 - imm.toNat }).trans ?_
        by_cases hx : p.reg a = 0
        · exact congrArg (Host.Outcome.next ∘ s.setRun) ((if_pos hx).trans (if_pos hx).symm)
        · refine congrArg (Host.Outcome.next ∘ s.setRun) ((if_neg hx).trans (Eq.trans ?_ (if_neg hx).symm))
          rw [Prologue.put_eq]
          split <;> rfl
      case rept =>
        refine (State.stickStep_of_left hrun hleft fun p =>
          if (p.reg a).toNat = 0 ∨ 256 < (p.reg a).toNat then s.runFault p 3 else s.setRun { p with rept := (p.reg a).toNat }).trans ?_
        have hcount : 1 ≤ x.toNat ∧ x.toNat ≤ 256 ↔ ¬(x.toNat = 0 ∨ 256 < x.toNat) := by omega
        rw [if_congr hcount rfl rfl, ite_not]
        rfl
    case spent =>
      simp only [List.mem_cons, List.not_mem_nil, or_false] at hj
      have hset (f : Prologue → Prologue) : s.stickSet f = .next (fault s 1 p.steps) := State.stickStep_of_spent hrun hspent _
      have hstep (act : Prologue → State) : s.stickStep act = .next (fault s 1 p.steps) := State.stickStep_of_spent hrun hspent _
      rcases hj with rfl | rfl | rfl | rfl | rfl | rfl | rfl | rfl | rfl | rfl | rfl | rfl
      · exact show execStickBz a imm s = _ from hset _
      · exact show execStickBnz a imm s = _ from hset _
      · exact show execStickBltu a b off s = _ from hset _
      · exact show execStickLoop a imm s = _ from hset _
      · exact show execStickEnd s = _ from hstep _
      · exact show execStickCancel s = _ from hstep _
      · exact show execStickRept a s = _ from hstep _
      · exact show execStickLi a imm s = _ from hset _
      · exact show execStickAdd a a b s = _ from hset _
      · exact show execStickLrd a b s = _ from hset _
      · exact show execStickLwr a b s = _ from hset _
      · exact show execStickClk a s = _ from hset _

/-! An access of a window. -/

/-- The access lies in its window, which has the right (R298, R308, R309). -/
def State.InWindow (s : State) (p : Prologue) (a : Fin 16) (w : Fin 4) (off : BitVec 17) (right : Nat) : Prop :=
  let base := (s.slotAt p.q p.slot).wins.getD (2 * w.val) 0
  let desc := (s.slotAt p.q p.slot).wins.getD (2 * w.val + 1) 0
  let o := (p.reg a + off.setWidth 64).toNat
  o % 8 = 0 ∧ o + 8 ≤ desc % 2 ^ 32 ∧ base % 8 = 0 ∧ (pathOf base = 0 ∨ pathOf base = 7) ∧ bit desc right = true

section
variable {s : State} {p : Prologue} {a : Fin 16} {w : Fin 4} {off : BitVec 17} {write : Bool}

theorem State.windowAddr_of_inWindow (h : s.InWindow p a w off (if write then 33 else 32)) :
    s.windowAddr p a w off write =
      some ((s.slotAt p.q p.slot).wins.getD (2 * w.val) 0 + (p.reg a + off.setWidth 64).toNat) := by
  obtain ⟨halign, hlen, hbase, hpath, hright⟩ := h
  refine if_neg ?_
  rintro (h | h | h | ⟨h0, h7⟩ | h)
  · exact h halign
  · exact Nat.not_lt.mpr hlen h
  · exact h hbase
  · exact hpath.elim h0 h7
  · rw [hright] at h
    exact absurd h (by decide)

theorem State.windowAddr_of_not_inWindow (h : ¬s.InWindow p a w off (if write then 33 else 32)) :
    s.windowAddr p a w off write = none := by
  refine if_pos (Classical.not_not.mp fun hok => h ?_)
  simp only [not_or, not_and_or, Classical.not_not, Bool.not_eq_true', Bool.not_eq_false] at hok
  obtain ⟨halign, hlen, hbase, hpath, hright⟩ := hok
  exact ⟨halign, Nat.not_lt.mp hlen, hbase, hpath, hright⟩

end

/-- The register of a load, of the word that it read. -/
def Prologue.loaded (p : Prologue) (d : Fin 16) (x : Nat) : Prologue := p.ticked.put d (BitVec.ofNat 64 x)

section
variable {s : State} {p : Prologue} {d a : Fin 16} {w : Fin 4} {off : BitVec 17} {e v : Nat}
  (hrun : s.run = some p) (hleft : p.steps < 4096)
include hrun hleft

theorem execStickLd_of_none (h : s.windowAddr p a w off false = none) :
    execStickLd d a w off s = .next (s.runFault p.ticked 2) := by
  refine (State.stickStep_of_left hrun hleft _).trans ?_
  simp only [show s.windowAddr p.ticked a w off false = none from h]

theorem execStickLd_of_some (hv : s.cqVf p.q = v) (h : s.windowAddr p a w off false = some e) :
    execStickLd d a w off s = .next
      (if pathSeven e then (s.viewRead v (bits e 23 0) 8).2.setRun (p.loaded d (s.viewRead v (bits e 23 0) 8).1)
      else if !pathZero e 8 then s.runFault p.ticked 4
      else if s.tenantHeld v e 8 false then s.setRun { p with next := p.next + 1 }
      else match s.tenantNum v e 8 with
        | .ok x => s.setRun (p.loaded d x)
        | .error t => (s.reportFault v 1 (cqOrig p.q) t).runFault p.ticked 4) := by
  subst hv
  refine (State.stickStep_of_left hrun hleft _).trans ?_
  simp only [show s.windowAddr p.ticked a w off false = some e from h]
  rfl

theorem execStickSt_of_none (h : s.windowAddr p a w off true = none) :
    execStickSt d a w off s = .next (s.runFault p.ticked 2) := by
  refine (State.stickStep_of_left hrun hleft _).trans ?_
  simp only [show s.windowAddr p.ticked a w off true = none from h]

theorem execStickSt_of_some (hv : s.cqVf p.q = v) (h : s.windowAddr p a w off true = some e) :
    execStickSt d a w off s = .next
      (if pathSeven e then
        match postRing (bits e 23 0) with
        | some h => s.runPost p.ticked h (p.reg d).toNat
        | none => (s.setRun p.ticked).viewWrite v (bits e 23 0) 8 (p.reg d).toNat 1
      else if !pathZero e 8 then s.runFault p.ticked 4
      else if s.tenantHeld v e 8 true then s.setRun { p with next := p.next + 1 }
      else match (s.setRun p.ticked).tenantWrite v e (leBytes 8 (p.reg d).toNat) 2 with
        | (t, none) => t
        | (t, some x) => (t.reportFault v 1 (cqOrig p.q) x).runFault p.ticked 4) := by
  subst hv
  refine (State.stickStep_of_left hrun hleft _).trans ?_
  simp only [show s.windowAddr p.ticked a w off true = some e from h]
  rfl

end

/-- Settles O29: the address is that of the window or none, and each access takes the branch of its path, its hold and its
translation. -/
theorem stickWindowWords : Obligations.StickWindowWords := by
  intro s p d a w off hrun hleft v base desc o e p1 q1 fault window ring
  have hld (hout : ¬window 32) := execStickLd_of_none hrun hleft (d := d) (State.windowAddr_of_not_inWindow (write := false) hout)
  have hst (hout : ¬window 33) := execStickSt_of_none hrun hleft (d := d) (State.windowAddr_of_not_inWindow (write := true) hout)
  have hload (hin : window 32) := execStickLd_of_some hrun hleft (d := d) (e := e) (v := v) rfl (State.windowAddr_of_inWindow (write := false) hin)
  have hstore (hin : window 33) := execStickSt_of_some hrun hleft (d := d) (e := e) (v := v) rfl (State.windowAddr_of_inWindow (write := true) hin)
  have hq1 (x : Nat) : p.loaded d x = q1 x := Prologue.put_eq d _
  refine ⟨hld, fun hin h7 => ?_, fun hin h7 h0 hheld x hx => ?_, fun hin h7 h0 => ?_, fun hin h7 h0 hheld => ?_,
    fun hin h7 h0 hheld t ht => ?_, hst, fun hin h7 hring => ?_, fun h hin h7 hring => ?_, fun hin h7 h0 hheld t ht => ?_,
    fun hin h7 h0 hheld t tr ht => ?_, fun hin h7 h0 => ?_, fun hin h7 h0 hheld => ?_⟩
  · refine (hload hin).trans ?_
    rw [if_pos h7, hq1]
  · refine (hload hin).trans ?_
    simp only [h7, h0, hheld, hx, hq1, Bool.false_eq_true, Bool.not_true, if_false]
  · refine (hload hin).trans ?_
    simp only [h7, h0, Bool.false_eq_true, Bool.not_false, if_false, if_true]
    rfl
  · refine (hload hin).trans ?_
    simp only [h7, h0, hheld, Bool.false_eq_true, Bool.not_true, if_false, if_true]
  · refine (hload hin).trans ?_
    simp only [h7, h0, hheld, ht, Bool.false_eq_true, Bool.not_true, if_false]
    rfl
  · refine (hstore hin).trans ?_
    simp only [h7, if_true, show postRing (bits e 23 0) = none from hring]
    rfl
  · refine (hstore hin).trans ?_
    simp only [h7, if_true, show postRing (bits e 23 0) = some h from hring]
    rfl
  · refine (hstore hin).trans ?_
    rw [show (s.setRun p.ticked).tenantWrite v e (leBytes 8 (p.reg d).toNat) 2 = (t, none) from ht]
    simp only [h7, h0, hheld, Bool.false_eq_true, Bool.not_true, if_false]
  · refine (hstore hin).trans ?_
    rw [show (s.setRun p.ticked).tenantWrite v e (leBytes 8 (p.reg d).toNat) 2 = (t, some tr) from ht]
    simp only [h7, h0, hheld, Bool.false_eq_true, Bool.not_true, if_false]
    rfl
  · refine (hstore hin).trans ?_
    simp only [h7, h0, Bool.false_eq_true, Bool.not_false, if_false, if_true]
    rfl
  · refine (hstore hin).trans ?_
    simp only [h7, h0, hheld, Bool.false_eq_true, Bool.not_true, if_false, if_true]

end Sys2Proof.Machine

/-! PROOFS. Nodes of compositor queues: taking (R302), predicates (R314 to R316), completion (R303), doorbells (R326). -/

namespace Sys2Proof.Machine

/-! Queues are a part of the device: what sets an event, or a node's turn, leaves them. -/

section
variable (s : State) (q k j : Nat) (i : Ev)

theorem State.latency_dev : s.latency.2.dev = s.dev := by
  unfold State.latency
  split <;> rfl

theorem State.later_dev : (s.later i).dev = s.dev := s.latency_dev

theorem State.armDie_dev (die : Nat) : (s.armDie die).dev = s.dev := by
  unfold State.armDie
  split
  · exact s.later_dev _
  · rfl

theorem State.unready_cq : (s.unready q k).cq j = s.cq j :=
  by
  rw [State.cq, State.unready, State.armDie_dev, State.cq]

theorem State.unready_slotAt : (s.unready q k).slotAt q j = s.slotAt q j := by
  rw [State.slotAt, State.unready_cq, State.slotAt]

end

/-! A ready node is taken. -/

section
variable {s : State} {q k kind at_ : Nat} {ev : Ev} {hs : List Nat}

theorem State.takeNode_of_taken (hhead : s.dev.headOf (q / 64) = some (at_, q, k)) (hkind : recKind (s.slotAt q k).copy = kind)
    (hfree : s.nodeWaits q k hs = false) (act : State → State) : s.takeNode q k kind ev hs act = act (s.unready q k) := by
  simp only [State.takeNode, hhead, hkind, hfree, and_self, if_true, Bool.false_eq_true, if_false]

variable {v x : Nat} (hx : (s.slotAt q k).copy = x)
include hx

theorem State.predicate_of_word (hpath : pathZero (recArg x) 8 = true) (halign : recArg x % 8 = 0)
    (hword : s.tenantNum (s.cqVf q) (recArg x) 8 = .ok v) : s.predicate q k = (some v, s) := by
  simp [State.predicate, hx, hpath, halign, hword]

theorem State.predicate_of_fault {tr : Trap} (hpath : pathZero (recArg x) 8 = true) (halign : recArg x % 8 = 0)
    (hword : s.tenantNum (s.cqVf q) (recArg x) 8 = .error tr) :
    s.predicate q k = (none, s.reportFault (s.cqVf q) 1 (cqOrig q) tr) := by
  simp [State.predicate, hx, hpath, halign, hword]

theorem State.predicate_of_misplaced (h : ¬(pathZero (recArg x) 8 = true ∧ recArg x % 8 = 0)) : s.predicate q k = (none, s) := by
  subst hx
  refine if_pos (Classical.not_not.mp fun hplaced => h ?_)
  simpa using hplaced

omit hx

theorem pathZero_iff (e n : Nat) : pathZero e n = true ↔ pathOf e = 0 ∧ bits e 59 57 = 0 ∧ lowAddr e + n ≤ 2 ^ 48 := by
  simp only [pathZero, Bool.and_eq_true, beq_iff_eq, decide_eq_true_eq, and_assoc]

end

/-! Nodes that decide by a predicate (R314 to R316). -/

section
variable {s t : State} {q k at_ v : Nat} (hhead : s.dev.headOf (q / 64) = some (at_, q, k)) (hfree : s.nodeWaits q k [0] = false)
include hhead hfree

theorem execConditionalNode_of_word (hkind : recKind (s.slotAt q k).copy = 2)
    (hp : (s.unready q k).predicate q k = (some v, s.unready q k)) :
    execConditionalNode q k s = .next (if v = 0 then (s.unready q k).completeWith q k 0 (recFalse (s.slotAt q k).copy)
      else (s.unready q k).completeWith q k 1 (recTrue (s.slotAt q k).copy)) := by
  simp only [execConditionalNode, State.takeNode_of_taken hhead hkind hfree, hp, State.unready_slotAt]

theorem execConditionalNode_of_none (hkind : recKind (s.slotAt q k).copy = 2) (hp : (s.unready q k).predicate q k = (none, t)) :
    execConditionalNode q k s = .next (t.completeNode q k 2 56 0) := by
  simp only [execConditionalNode, State.takeNode_of_taken hhead hkind hfree, hp]

theorem execLoopNode_of_none (hkind : recKind (s.slotAt q k).copy = 3) (hp : (s.unready q k).predicate q k = (none, t)) :
    execLoopNode q k s = .next (t.completeNode q k 2 56 0) := by
  simp only [execLoopNode, State.takeNode_of_taken hhead hkind hfree, hp]

theorem execLoopNode_of_zero (hkind : recKind (s.slotAt q k).copy = 3)
    (hp : (s.unready q k).predicate q k = (some 0, s.unready q k)) :
    execLoopNode q k s = .next ((s.unready q k).completeWith q k ((s.unready q k).slotAt q k).decisions
      (recFalse (s.slotAt q k).copy)) := by
  simp only [execLoopNode, State.takeNode_of_taken hhead hkind hfree, hp, State.unready_slotAt]

/-- The body that a loop node's true decision arms: the one it has decided before, or the one that its true set reaches. -/
def State.armedBody (s : State) (q k : Nat) : Option (List Nat) :=
  (s.slotAt q k).body.or ((s.cq q).bind fun c => c.bodyOf k)

theorem execLoopNode_of_ne_zero (hkind : recKind (s.slotAt q k).copy = 3)
    (hp : (s.unready q k).predicate q k = (some v, s.unready q k)) (hv : v ≠ 0) :
    execLoopNode q k s = .next (match (s.unready q k).armedBody q k with
      | some b => (s.unready q k).loopTrue q k b
      | none => (s.unready q k).completeNode q k 2 32 0) := by
  obtain ⟨n, rfl⟩ := Nat.exists_eq_succ_of_ne_zero hv
  simp only [execLoopNode, State.takeNode_of_taken hhead hkind hfree, hp, State.armedBody]
  cases ((s.unready q k).slotAt q k).body <;> rfl

end

/-- A re-phase that the test of R294 lets pass. -/
theorem execRephaseNode_of_ok {s : State} {q k at_ y d : Nat} (hhead : s.dev.headOf (q / 64) = some (at_, q, k))
    (hfree : s.nodeWaits q k [0] = false)
    (hy : recArg (s.slotAt q k).copy % 2 ^ 8 * 16 + bits (recArg (s.slotAt q k).copy) 11 8 = y) (hd : recArg2 (s.slotAt q k).copy = d)
    (hkind : recKind (s.slotAt q k).copy = 6) (hok : (s.unready q k).rephaseBad ((s.unready q k).cqVf q) y d = false)
    (htest : (s.unready q k).rephaseTest ((s.unready q k).cqVf q) y d = none) :
    execRephaseNode q k s = .next (((s.unready q k).setSt q k 3).setStrand y
      { (s.unready q k).strandAt y with rephase := some (d, some (q, k)) }) := by
  subst hy hd
  simp only [execRephaseNode, State.takeNode_of_taken hhead hkind hfree, State.unready_slotAt, hok, htest, Bool.false_eq_true, if_false]

/-! A launch node (R304, R306). -/

/-- The launch of a record, at its prologue, in the state of the node's start. -/
def State.launchBegun (s : State) (q k v : Nat) : State :=
  { s.setSt q k 3 with dev := { (s.setSt q k 3).dev with
      launches := (s.setSt q k 3).dev.launches ++ [{ q := q, slot := k, stage := .prologue, copy := v }] } }

/-- The record of a launch node names an aligned record of path 0x0 (R304). -/
def recordPlaced (x : Nat) : Prop := recArg x % 64 = 0 ∧ pathZero (recArg x) 128 = true

section
variable {s : State} {q k v x : Nat} (hx : (s.slotAt q k).copy = x)
include hx

theorem State.beginLaunch_of_misplaced (h : ¬recordPlaced x) :
    s.beginLaunch q k = (s.dropStandby q k).completeNode q k 2 56 0 := by
  subst hx
  refine if_pos (Classical.not_not.mp fun hplaced => h ?_)
  simpa [recordPlaced] using hplaced

variable (hplaced : recordPlaced x) (hword : s.tenantNum (s.cqVf q) (recArg x) 128 = .ok v)
include hplaced hword

theorem State.beginLaunch_of_plain (hprol : lrProl v = 0) :
    s.beginLaunch q k = (s.launchBegun q k v).later (.repetitionStart q k) := by
  obtain ⟨halign, hpath⟩ := hplaced
  simp [State.beginLaunch, State.launchBegun, hx, halign, hpath, hword, hprol]

theorem State.beginLaunch_of_prologue {g : Prog} (hprol : lrProl v ≠ 0) (hin : lrProl v < (s.slotAt q k).nprog)
    (hprog : mget (lrProl v) (s.slotAt q k).progs = some g) (hok : g.fail = none) :
    s.beginLaunch q k = { s.launchBegun q k v with dev := { (s.launchBegun q k v).dev with
      prologues := (s.launchBegun q k v).dev.prologues ++
        [{ q := q, slot := k, words := g.words, copy := v, next := (s.launchBegun q k v).now + 2 }] } } := by
  obtain ⟨halign, hpath⟩ := hplaced
  simp [State.beginLaunch, State.launchBegun, hx, halign, hpath, hword, hprol, Nat.not_le.mpr hin, hprog, hok]

end

/-- Settles O38: the node leaves the list of the ready ones and acts by its record, which stands there as before. -/
theorem nodesAreTaken : Obligations.NodesAreTaken := by
  intro s q k at_ v b g x r taken placed word started l begun p h posted core y
  have hx : (r.slotAt q k).copy = x := congrArg Slot.copy (s.unready_slotAt q k k)
  have hpred (hplaced : placed) (hword : word 8) : r.predicate q k = (some v, r) :=
    State.predicate_of_word hx hplaced.1 hplaced.2 hword
  have hlaunch (hnode : taken 1 [0, 1]) : exec (.launchNode q k) s = .next (r.beginLaunch q k) := by
    obtain ⟨hhead, hkind, hfree⟩ := hnode
    exact congrArg Host.Outcome.next (State.takeNode_of_taken hhead hkind hfree _)
  have hsignal (hnode : taken 4 [0]) : exec (.hostSignalNode q k) s = .next
      (if 15 < h then r.completeNode q k 2 48 0
      else if (r.ring (r.cqVf q) h).ctl % 16 = 0 then posted.completeNode q k 2 48 0 else posted) := by
    obtain ⟨hhead, hkind, hfree⟩ := hnode
    refine (congrArg Host.Outcome.next (State.takeNode_of_taken hhead hkind hfree _)).trans ?_
    rw [State.unready_slotAt]
  refine ⟨?join, ?misplaced, ?plain, ?prologue, ?true_, ?false_, ?refused, ?decided, ?first, ?noBody, ?ended, ?post, ?disabled, ?noRing,
    ?signal, ?rephase⟩
  case join =>
    rintro ⟨hhead, hkind, hfree⟩
    exact congrArg Host.Outcome.next (State.takeNode_of_taken hhead hkind hfree _)
  case misplaced =>
    intro hnode hbad
    refine (hlaunch hnode).trans (congrArg Host.Outcome.next (State.beginLaunch_of_misplaced hx ?_))
    rintro ⟨halign, hpath⟩
    simp [x, halign, hpath] at hbad
  case plain =>
    intro hnode halign hpath hword hprol
    exact (hlaunch hnode).trans (congrArg Host.Outcome.next (State.beginLaunch_of_plain hx ⟨halign, hpath⟩ hword hprol))
  case prologue =>
    intro hnode halign hpath hword hprol hin hprog hok
    exact (hlaunch hnode).trans
      (congrArg Host.Outcome.next (State.beginLaunch_of_prologue hx ⟨halign, hpath⟩ hword hprol hin hprog hok))
  case true_ =>
    rintro ⟨hhead, hkind, hfree⟩ hplaced hword hv
    exact (execConditionalNode_of_word hhead hfree hkind (hpred hplaced hword)).trans (congrArg Host.Outcome.next (if_neg hv))
  case false_ =>
    rintro ⟨hhead, hkind, hfree⟩ hplaced hword hv
    exact (execConditionalNode_of_word hhead hfree hkind (hpred hplaced hword)).trans (congrArg Host.Outcome.next (if_pos hv))
  case refused =>
    rintro ⟨hhead, hkind, hfree⟩ hplaced
    exact execConditionalNode_of_none hhead hfree hkind (State.predicate_of_misplaced hx hplaced)
  case decided =>
    rintro ⟨hhead, hkind, hfree⟩ hplaced hword hv hbody
    refine (execLoopNode_of_ne_zero hhead hfree hkind (hpred hplaced hword) hv).trans ?_
    rw [State.armedBody, show ((s.unready q k).slotAt q k).body = some b from hbody, Option.some_or]
  case first =>
    rintro ⟨hhead, hkind, hfree⟩ hplaced hword hv hbody hreach
    refine (execLoopNode_of_ne_zero hhead hfree hkind (hpred hplaced hword) hv).trans ?_
    rw [State.armedBody, show ((s.unready q k).slotAt q k).body = none from hbody, Option.none_or,
      show ((s.unready q k).cq q).bind _ = some b from hreach]
  case noBody =>
    rintro ⟨hhead, hkind, hfree⟩ hplaced hword hv hbody hreach
    refine (execLoopNode_of_ne_zero hhead hfree hkind (hpred hplaced hword) hv).trans ?_
    rw [State.armedBody, show ((s.unready q k).slotAt q k).body = none from hbody, Option.none_or,
      show ((s.unready q k).cq q).bind _ = none from hreach]
  case ended =>
    rintro ⟨hhead, hkind, hfree⟩ hplaced hword rfl
    exact execLoopNode_of_zero hhead hfree hkind (hpred hplaced hword)
  case post =>
    intro hnode hring hon
    exact (hsignal hnode).trans (congrArg Host.Outcome.next ((if_neg (Nat.not_lt.mpr hring)).trans (if_neg hon)))
  case disabled =>
    intro hnode hring hoff
    exact (hsignal hnode).trans (congrArg Host.Outcome.next ((if_neg (Nat.not_lt.mpr hring)).trans (if_pos hoff)))
  case noRing =>
    intro hnode hring
    exact (hsignal hnode).trans (congrArg Host.Outcome.next (if_pos hring))
  case signal =>
    rintro ⟨hhead, hkind, hfree⟩
    refine (congrArg Host.Outcome.next (State.takeNode_of_taken hhead hkind hfree _)).trans ?_
    rw [State.unready_slotAt]
  case rephase =>
    rintro ⟨hhead, hkind, hfree⟩ hok htest
    exact execRephaseNode_of_ok hhead hfree rfl rfl hkind hok htest

end Sys2Proof.Machine

/-! PROOFS. Completion of a node and the doorbell (R303, R315, R326): a queue keeps its slots through the writes of its compositor. -/

namespace Sys2Proof.Machine

/-! Writes of a compositor leave the queues. -/

section
variable (s : State)

theorem State.write_dev (sp : Space) (a : Nat) (bs : List Byte) : (s.write sp a bs).dev = s.dev := by
  cases sp <;> (unfold State.write; dsimp only; split <;> rfl)

theorem State.tenantPa_dev {s : State} {v e pa : Nat} {w : Bool} {s1 : State} (h : s.tenantPa v e w = .ok (pa, s1)) : s1.dev = s.dev := by
  unfold State.tenantPa at h
  dsimp only at h
  split at h
  · exact absurd h (by simp)
  · obtain ⟨-, rfl⟩ := Prod.mk.inj (Except.ok.inj h)
    split
    · exact s.write_dev _ _ _
    · rfl

theorem State.tenantWrite_dev (v fuel : Nat) : ∀ (s : State) (e : Nat) (bs : List Byte), (s.tenantWrite v e bs fuel).1.dev = s.dev := by
  induction fuel with
  | zero => intros; rfl
  | succ fuel ih =>
    intro s e bs
    unfold State.tenantWrite
    split
    · rfl
    · dsimp only
      split
      · rfl
      · next hpa => exact (ih _ _ _).trans ((State.write_dev _ _ _ _).trans (State.tenantPa_dev hpa))

theorem State.reportFault_cqs (v src orig : Nat) (t : Trap) : (s.reportFault v src orig t).dev.cqs = s.dev.cqs := by
  unfold State.reportFault
  dsimp only
  split <;> rfl

theorem State.waitFor_cqs (v e n : Nat) (i : Ev) : (s.waitFor v e n i).dev.cqs = s.dev.cqs := by
  unfold State.waitFor State.park
  split
  · split <;> rfl
  · rfl

theorem State.compositorWrite_cqs (q e n v : Nat) (behind : Bool) : (s.compositorWrite q e n v behind).dev.cqs = s.dev.cqs := by
  unfold State.compositorWrite
  dsimp only
  split
  · exact s.waitFor_cqs _ _ _ _
  · split
    · rfl
    · have hwrite := State.tenantWrite_dev (s.cqVf q) 2 s e (leBytes n v)
      split
      · next hw => rw [hw] at hwrite; exact congrArg Device.cqs hwrite
      · next hw => rw [hw] at hwrite; exact (State.reportFault_cqs _ _ _ _ _).trans (congrArg Device.cqs hwrite)

theorem State.writeSlot_cq (q k off n v j : Nat) : (s.writeSlot q k off n v).cq j = s.cq j :=
  congrArg (mget j) (s.compositorWrite_cqs _ _ _ _ _)

end

/-! A queue with another content. -/

section
variable {s : State} {q k : Nat} {c : Cq}

theorem State.setCq_cq (hc : s.cq q = some c) (f : Cq → Cq) : (s.setCq q f).cq q = some (f c) := by
  simp only [State.setCq, hc]
  exact mget_mset_self q (f c) s.dev.cqs

theorem State.slotAt_of_cq (hc : s.cq q = some c) : s.slotAt q k = c.slot k := by
  simp [State.slotAt, hc]

/-- The queue with another content of a slot. -/
def Cq.setSlot (c : Cq) (k : Nat) (f : Slot → Slot) : Cq := { c with slots := mset k (f (c.slot k)) c.slots }

theorem State.setSlot_cq (hc : s.cq q = some c) (f : Slot → Slot) : (s.setSlot q k f).cq q = some (c.setSlot k f) := State.setCq_cq hc _

theorem State.setSt_cq (hc : s.cq q = some c) (st : Nat) : (s.setSt q k st).cq q = some (c.setSlot k fun x => { x with st := st }) :=
  (State.writeSlot_cq _ _ _ _ _ _ _).trans (State.setSlot_cq hc _)

theorem State.cqEvent_cq (cls num info : Nat) : (s.cqEvent q cls num info).cq q = s.cq q := rfl

end

theorem mget_map_of_some {α : Type} {k : Nat} {v : α} {m : List (Nat × α)} (h : mget k m = some v) (g : Nat × α → Nat × α)
    (hkey : ∀ e, (g e).1 = e.1) : mget k (m.map g) = some (g (k, v)).2 := by
  induction m with
  | nil => exact absurd h (by simp [mget])
  | cons e m ih =>
    obtain ⟨j, w⟩ := e
    simp only [List.map_cons, mget, hkey] at h ⊢
    split at h
    · next hj =>
      obtain rfl := Option.some.inj h
      subst hj
      rw [if_pos rfl]
    · next hj => rw [if_neg hj, ih h]

/-! A slot that is let go keeps its number and its STATE. -/

section
variable {p : Prop} [Decidable p] {e : Nat × Slot}

theorem letGo_key : (if p then (e.1, { e.2 with held := false }) else e).1 = e.1 := by
  split <;> rfl

theorem letGo_st {n : Nat} (h : e.2.st = n) :
    (if p then (e.1, { e.2 with held := false }) else e).2.st = n := by
  split <;> exact h

end

/-- A completed node's STATUS stands in `cqerr`, and its slot is in STATE 4 (R302, R303). -/
theorem State.finishNode_cq {s : State} {q : Nat} {c : Cq} (hc : s.cq q = some c) (k lrc detail code : Nat) :
    ∃ d, (s.finishNode q k lrc detail code).cq q = some d ∧ d.err = statusOf lrc detail code ∧ (d.slot k).st = 4 := by
  have h1 := State.setSlot_cq (k := k) ((s.writeSlot_cq q k 16 8 (statusOf lrc detail code) q).trans hc)
    fun x => { x with body := none, decisions := 0 }
  have h2 := State.setCq_cq (State.setSt_cq (k := k) h1 4) fun c =>
    { c with done := (c.done + 1) % 2 ^ 64, err := statusOf lrc detail code
             stuck := if lrc = 0 then c.stuck.filter fun j => !((s.slotAt q k).body.getD []).contains j
               else (c.stuck ++ (s.slotAt q k).body.getD []).eraseDups }
  have h3 := State.setCq_cq h2 fun c =>
    { c with slots := c.slots.map fun e =>
        if (e.1 = k ∨ ((s.slotAt q k).body.getD []).contains e.1) ∧ e.2.st = 4 ∧ !c.bound e.1 then (e.1, { e.2 with held := false })
        else e }
  refine ⟨_, Eq.trans ?_ h3, rfl, ?_⟩
  · unfold State.finishNode
    dsimp only
    split
    · rfl
    · exact State.cqEvent_cq _ _ _
  · simp only [Cq.slot, Cq.setSlot]
    rw [mget_map_of_some (mget_mset_self k _ _), Option.getD_some]
    · exact letGo_st (e := (k, _)) (by rw [mget_mset_self, Option.getD_some])
    · exact fun e => letGo_key

/-- Settles O39: a predicate that cannot be read leaves the node with LRC 0x02, whose STATUS its completion writes in `cqerr`. -/
theorem predicateNodesRefuse : Obligations.PredicateNodesRefuse := by
  intro s q k at_ tr c x r taken refused placed reported
  have hx : (r.slotAt q k).copy = x := congrArg Slot.copy (s.unready_slotAt q k k)
  have hmisplaced (h : ¬placed) : r.predicate q k = (none, r) := by
    refine State.predicate_of_misplaced hx fun hok => h ?_
    obtain ⟨hpath, hbits, hlow⟩ := (pathZero_iff _ _).mp hok.1
    exact ⟨hpath, hbits, hlow, hok.2⟩
  have hfault (h : placed) (hread : r.tenantNum (r.cqVf q) (recArg x) 8 = .error tr) : r.predicate q k = (none, reported) := by
    obtain ⟨hpath, hbits, hlow, halign⟩ := h
    exact State.predicate_of_fault hx ((pathZero_iff _ _).mpr ⟨hpath, hbits, hlow⟩) halign hread
  refine ⟨?_, ?_, ?_, ?_, ?_⟩
  · rintro ⟨hhead, hkind, hfree⟩ h
    exact execConditionalNode_of_none hhead hfree hkind (hmisplaced h)
  · rintro ⟨hhead, hkind, hfree⟩ h
    exact execLoopNode_of_none hhead hfree hkind (hmisplaced h)
  · rintro ⟨hhead, hkind, hfree⟩ h hread
    exact execConditionalNode_of_none hhead hfree hkind (hfault h hread)
  · rintro ⟨hhead, hkind, hfree⟩ h hread
    exact execLoopNode_of_none hhead hfree hkind (hfault h hread)
  · intro hc
    obtain ⟨d, hd, herr, hst⟩ := State.finishNode_cq hc k 2 56 0
    refine ⟨?_, (State.slotAt_of_cq hd).symm ▸ hst⟩
    rw [hd, Option.map_some, herr]
    rfl

/-! The doorbell (R300, R301, R326). -/

section
variable (q val : Nat) (s : State)

theorem exec_compositorQueueCreate (v : Nat) : exec (.compositorQueueCreate q v) s = execCompositorQueueCreate q v s := rfl

end

theorem bits_slotNumber (val : Nat) : bits val 63 16 ≠ 0 ↔ 2 ^ 16 ≤ val % 2 ^ 64 := by
  simp only [bits]
  omega

section
variable {s : State} {q k val x w : Nat} {c : Cq} (hc : s.cq q = some c)
include hc

theorem execDoorbell_of_record (hprst : (s.vf c.vf).prst = 0) (hval : val < 2 ^ 16) (hlen : val < 2 ^ c.len) (hk : val % 2 ^ 16 = k)
    (hfree : (c.slot k).held = false) (hpath : pathZero (c.base + 64 * k) 64 = true)
    (hheld : s.tenantHeld c.vf (c.base + 64 * k) 64 false = false) (hread : s.tenantNum c.vf (c.base + 64 * k) 64 = .ok x)
    (hversion : bits x 199 192 = 1) : execDoorbell q val s = .next (s.readRecord q k (c.base + 64 * k) x c.len) := by
  subst hk
  have hslot : ¬(bits val 63 16 ≠ 0 ∨ 2 ^ c.len ≤ val % 2 ^ 16 ∨ (c.slot (val % 2 ^ 16)).held = true) := by
    rw [bits_slotNumber, hfree, Nat.mod_eq_of_lt hval]
    rintro (h | h | h)
    · omega
    · exact Nat.not_le.mpr hlen h
    · exact Bool.noConfusion h
  simp only [execDoorbell, hc, hprst, ne_eq, not_true_eq_false, if_false, hslot, hpath, hheld, hread, hversion, Bool.not_true,
    Bool.false_eq_true, if_true]

theorem execDoorbell_of_ignored (hprst : (s.vf c.vf).prst = 0) (hk : val % 2 ^ 16 = k)
    (hbad : 2 ^ 16 ≤ val % 2 ^ 64 ∨ 2 ^ c.len ≤ k ∨ (c.slot k).held = true) :
    execDoorbell q val s = .next (s.ignoredDoorbell q) := by
  subst hk
  rw [← bits_slotNumber] at hbad
  simp only [execDoorbell, hc, hprst, if_pos hbad, ne_eq, not_true_eq_false, if_false]

/-- The slot's content after the read of its record (R301). -/
def Slot.recorded (o : Slot) (x addr : Nat) : Slot :=
  { held := true, copy := x, st := 1, count := o.count, notice := none, need := recPcount x, addr := addr }

variable {addr len : Nat}

omit hc in
theorem State.readRecord_of_bad {d : Nat} (hbad : recBad x len = some d) :
    s.readRecord q k addr x len = (s.setSlot q k fun o => o.recorded x addr).finishNode q k 2 d 0 := by
  simp only [State.readRecord, hbad, Slot.recorded]

variable (hok : recBad x len = none)
include hok

theorem State.readRecord_of_notice (hnotice : (c.slot k).notice = some w) :
    s.readRecord q k addr x len = ((s.setSlot q k fun o => o.recorded x addr).setSlot q k fun o => { o with count := 0 }).completeNode
      q k 0x0C w 0 := by
  simp only [State.readRecord, hok, State.slotAt_of_cq hc, hnotice, Slot.recorded]

theorem State.readRecord_of_few (hnotice : (c.slot k).notice = none) (hfew : (c.slot k).count < recPcount x) :
    s.readRecord q k addr x len = s.setSlot q k fun o => o.recorded x addr := by
  simp only [State.readRecord, hok, State.slotAt_of_cq hc, hnotice, if_neg (Nat.not_le.mpr hfew), Slot.recorded]

theorem State.readRecord_of_ready (hnotice : (c.slot k).notice = none) (hcount : (c.slot k).count = recPcount x) :
    s.readRecord q k addr x len = (s.setSlot q k fun o => o.recorded x addr).makeReady q k := by
  simp only [State.readRecord, hok, State.slotAt_of_cq hc, hnotice, hcount, le_refl, if_true, Nat.sub_self, List.range_zero,
    List.foldl_nil, Slot.recorded]

end

/-- Settles O40: the doorbell reads the record of its slot, which is held with it, or is ignored. -/
theorem queueRegistersAct : Obligations.QueueRegistersAct := by
  intro s q val x v c k addr old read rung
  have hrung (h : rung) : s.cq q = some c ∧ exec (.doorbell q val) s = .next (s.readRecord q k addr x c.len) := by
    obtain ⟨hc, hprst, hval, hlen, hfree, hpath, hheld, hread, hversion⟩ := h
    exact ⟨hc, execDoorbell_of_record hc hprst hval hlen rfl hfree hpath hheld hread hversion⟩
  refine ⟨fun h hok hnotice hfew => ?few, fun h hok hnotice hcount => ?ready, fun w h hok hnotice => ?notice, fun d h hbad => ?bad,
    fun hc hprst hbad => execDoorbell_of_ignored hc hprst rfl hbad, rfl, rfl, rfl, fun hq hv hnone => ?create⟩
  case few =>
    obtain ⟨hc, hexec⟩ := hrung h
    exact hexec.trans (congrArg Host.Outcome.next (State.readRecord_of_few hc hok hnotice hfew))
  case ready =>
    obtain ⟨hc, hexec⟩ := hrung h
    exact hexec.trans (congrArg Host.Outcome.next (State.readRecord_of_ready hc hok hnotice hcount))
  case notice =>
    obtain ⟨hc, hexec⟩ := hrung h
    exact hexec.trans (congrArg Host.Outcome.next (State.readRecord_of_notice hc hok hnotice))
  case bad =>
    obtain ⟨hc, hexec⟩ := hrung h
    exact hexec.trans (congrArg Host.Outcome.next (State.readRecord_of_bad hbad))
  case create =>
    rw [exec_compositorQueueCreate, execCompositorQueueCreate, hnone]
    exact congrArg Host.Outcome.next (if_pos ⟨hq, hv, rfl⟩)

end Sys2Proof.Machine

/-! PROOFS. Host rings (R327 to R331, R360). -/

namespace Sys2Proof.Machine

section
variable (s : State) (v h val : Nat)

theorem exec_hrpostWrite (src orig : Nat) : exec (.hrpostWrite v h val src orig) s = execHrpostWrite v h val src orig s := rfl
theorem exec_ringRecordWrite : exec (.ringRecordWrite v h) s = execRingRecordWrite v h s := rfl
theorem exec_ringTimerExpiry : exec (.ringTimerExpiry v h) s = execRingTimerExpiry v h s := rfl

theorem State.vf_setVf (f : Vf → Vf) : (s.setVf v f).vf v = f (s.vf v) := by
  rw [State.vf, State.setVf, mget_mset_self, Option.getD_some]

theorem State.ring_setRing (f : HostRing → HostRing) : (s.setRing v h f).ring v h = f (s.ring v h) := by
  rw [State.ring, State.setRing, State.vf_setVf, mget_mset_self, Option.getD_some]

end

/-! A post of the host (R329). -/

section
variable {s : State} {v h : Nat} {p : Post}

theorem State.post_of_enabled (hon : (s.ring v h).ctl % 16 ≠ 0) :
    s.post v h p = (s.setRing v h fun r => { r with posts := postAdd { p with time := s.now } r.posts }).schedule s.now
      (.ringRecordWrite v h) := if_neg hon

theorem State.post_of_disabled (hoff : (s.ring v h).ctl % 16 = 0) :
    s.post v h p = (s.setRing v h fun r => { r with stat := r.stat ||| 2 }).report
      { vf := v, src := p.by_.source.1, orig := p.by_.source.2, cls := ascii2 'C' 'E', num := 3 } := if_pos hoff

/-! The oldest post of a ring, and the oldest event of a function (R330, R360). -/

theorem execRingRecordWrite_of_ring (hh : h < 16) :
    execRingRecordWrite v h s = .next (match (s.ring v h).posts with
      | [] => s
      | p :: ps =>
        if (s.ring v h).ctl % 16 = 0 then ((s.setRing v h fun r => { r with posts := ps }).disposed v h p).retryPosts v h
        else if ringSize (s.ring v h).ctl ≤ ringUsed (s.ring v h).prod (s.ring v h).cons then s
        else (((s.setRing v h fun r => { r with posts := ps }).postRecord v h p).posted p.by_).retryPosts v h) :=
  congrArg Host.Outcome.next (if_neg (Nat.ne_of_lt hh))

/-! A write of `hrctl` (R331). -/

theorem State.countReached_startTimer :
    ((s.startTimer v h).ring v h).countReached = (s.ring v h).countReached := by
  unfold State.startTimer
  dsimp only
  split
  · rfl
  · rw [show ∀ (u : State) a i, (u.schedule a i).ring v h = u.ring v h from fun _ _ _ => rfl, State.ring_setRing]
    rfl

theorem HostRing.countReached_iff (r : HostRing) :
    r.countReached = true ↔ bits r.ctl 63 48 ≠ 0 ∧ bits r.ctl 63 48 ≤ ringUsed r.prod r.sig := by
  simp [HostRing.countReached]

/-- The ring with the fields of `hrctl` that a write sets. -/
def State.controlled (s : State) (v h val : Nat) : State := s.setRing v h fun r => { r with ctl := ringLog (val &&& hrctlMask) }

variable {val : Nat}

theorem execHrctlWrite_of_same (hsame : bit (s.ring v h).ctl 8 = bit val 8) :
    execHrctlWrite v h val s = .next ((s.controlled v h val).retryPosts v h) := by
  simp [execHrctlWrite, State.controlled, hsame]

theorem execHrctlWrite_of_clear (hold : bit (s.ring v h).ctl 8 = true) (hnew : bit val 8 = false) :
    execHrctlWrite v h val s = .next (((s.controlled v h val).setRing v h fun r => { r with timer := none }).retryPosts v h) := by
  simp [execHrctlWrite, State.controlled, hold, hnew]

variable (hold : bit (s.ring v h).ctl 8 = false) (hnew : bit val 8 = true)
include hold hnew

theorem execHrctlWrite_of_set_idle (hsig : ((s.controlled v h val).ring v h).prod = ((s.controlled v h val).ring v h).sig) :
    execHrctlWrite v h val s = .next ((s.controlled v h val).retryPosts v h) := by
  unfold State.controlled at hsig
  simp [execHrctlWrite, State.controlled, hold, hnew, hsig]

theorem execHrctlWrite_of_set (hsig : ((s.controlled v h val).ring v h).prod ≠ ((s.controlled v h val).ring v h).sig) :
    execHrctlWrite v h val s = .next ((if ((s.controlled v h val).ring v h).countReached then
      ((s.controlled v h val).startTimer v h).fireRing v h else (s.controlled v h val).startTimer v h).retryPosts v h) := by
  rw [← State.countReached_startTimer]
  unfold State.controlled at hsig ⊢
  simp [execHrctlWrite, hold, hnew, hsig]

end

/-- Settles O43: a post joins its ring's posts or finds the ring disabled, and each register's write is the case of its fields. -/
theorem hostRingsAct : Obligations.HostRingsAct := by
  intro s v h val src orig p ps e d r fn post waits put s1 r1 sets at_ timed full
  refine ⟨fun hon => ?post, fun hoff => ?dropped, fun hh hposts hon hroom => ?written, fun hh hposts hon hfull => ?kept,
    fun hh hposts => ?noPost, fun hfind => ?event, fun hfind => ?noEvent, fun hle => congrArg Host.Outcome.next (if_pos hle),
    fun hlt => congrArg Host.Outcome.next (if_neg (Nat.not_le.mpr hlt)), execHrctlWrite_of_same, execHrctlWrite_of_clear,
    fun ⟨hold, hnew⟩ => execHrctlWrite_of_set_idle hold hnew, fun ⟨hold, hnew⟩ hsig hfew => ?timed,
    fun ⟨hold, hnew⟩ hsig hfull => ?fired, fun htimer hdue => ?timer, rfl,
    fun hv => congrArg Host.Outcome.next (if_pos hv), fun hv => congrArg Host.Outcome.next (if_neg (Nat.not_lt.mpr hv))⟩
  case post =>
    rw [exec_hrpostWrite, execHrpostWrite, State.post_of_enabled hon]
    by_cases hfn : fn = 65
    · exact congrArg Host.Outcome.next ((if_pos (.inl hfn)).trans (if_pos hfn).symm)
    · exact congrArg Host.Outcome.next ((if_neg (not_or.mpr ⟨hfn, hon⟩)).trans (if_neg hfn).symm)
  case dropped =>
    rw [exec_hrpostWrite, execHrpostWrite, State.post_of_disabled hoff]
    exact congrArg Host.Outcome.next (if_pos (.inr hoff))
  case written =>
    rw [exec_ringRecordWrite, execRingRecordWrite_of_ring hh, show (s.ring v h).posts = p :: ps from hposts]
    exact congrArg Host.Outcome.next ((if_neg hon).trans (if_neg (Nat.not_le.mpr hroom)))
  case kept =>
    rw [exec_ringRecordWrite, execRingRecordWrite_of_ring hh, show (s.ring v h).posts = p :: ps from hposts]
    exact congrArg Host.Outcome.next ((if_neg hon).trans (if_pos hfull))
  case noPost =>
    rw [exec_ringRecordWrite, execRingRecordWrite_of_ring hh, show (s.ring v h).posts = [] from hposts]
  case event => simp only [exec_ringRecordWrite, execRingRecordWrite, if_true, State.nextReport, hfind]
  case noEvent => simp only [exec_ringRecordWrite, execRingRecordWrite, if_true, State.nextReport, hfind]
  case timed =>
    refine (execHrctlWrite_of_set hold hnew hsig).trans ?_
    rw [if_neg (mt (HostRing.countReached_iff ((s.controlled v h val).ring v h)).mp hfew)]
    rfl
  case fired =>
    refine (execHrctlWrite_of_set hold hnew hsig).trans ?_
    rw [if_pos ((HostRing.countReached_iff ((s.controlled v h val).ring v h)).mpr hfull)]
    rfl
  case timer =>
    simp only [exec_ringTimerExpiry, execRingTimerExpiry, show (s.ring v h).timer = some d from htimer, if_pos hdue]

end Sys2Proof.Machine

/-! PROOFS. Invalidations, walks and resumed strands (R350 to R356). -/

namespace Sys2Proof.Machine

section
variable (s : State) (v val walk : Nat) (byPf : Bool)

theorem exec_walkComplete : exec (.walkComplete walk) s = execWalkComplete walk s := rfl

end

/-! A request is queued, or dropped as the 17th of its stage (R356). -/

section
variable {s : State} {v : Nat} {i : Inval}

theorem State.queueInval_of_room (hroom : ((s.vf v).invals.filter fun j => j.stage2 == i.stage2).length < 16) :
    s.queueInval v i =
      if (s.vf v).invals.isEmpty then (s.setVf v fun f => { f with invals := (s.vf v).invals ++ [i] }).later (.invalidationComplete v)
      else s.setVf v fun f => { f with invals := (s.vf v).invals ++ [i] } := if_neg (Nat.not_le.mpr hroom)

theorem State.queueInval_of_full (hfull : ¬((s.vf v).invals.filter fun j => j.stage2 == i.stage2).length < 16) :
    s.queueInval v i = if i.stage2 then s.setVf v fun f => { f with s2ovf := true }
      else (s.setVf v fun f => { f with s1ovf := true }).report { vf := v, src := 255, cls := ascii2 'C' 'E', num := 6 } :=
  if_pos (Nat.not_lt.mp hfull)

/-- The caches without the entries of a VF that are derived from a span (R356). -/
def State.swept (s : State) (v : Nat) (i : Inval) : State :=
  { s with cores := s.cores.map fun (c : Nat × CoreState) =>
      (c.1, { c.2 with tlb := c.2.tlb.filter fun e => e.vf != v || !i.hits e }) }

/-- Whether an access of the VF that went by such an entry is still to perform (R356). -/
def State.goesBy (s : State) (v : Nat) (i : Inval) : Bool := s.strands.any fun e => e.2.vf == v && e.2.asyncs.any i.busy

variable {rest : List Inval} (hqueue : (s.vf v).invals = i :: rest)
include hqueue

theorem execInvalidationComplete_of_busy (hbusy : (s.swept v i).goesBy v i = true) :
    execInvalidationComplete v s = .next ((s.swept v i).schedule (s.now + 1) (.invalidationComplete v)) := by
  simp only [execInvalidationComplete, hqueue]
  exact congrArg Host.Outcome.next (if_pos hbusy)

theorem execInvalidationComplete_of_quiet (hquiet : (s.swept v i).goesBy v i = false) :
    execInvalidationComplete v s = .next (if rest.isEmpty then (s.swept v i).setVf v fun f => { f with invals := rest }
      else ((s.swept v i).setVf v fun f => { f with invals := rest }).later (.invalidationComplete v)) := by
  simp only [execInvalidationComplete, hqueue]
  exact congrArg Host.Outcome.next (if_neg (ne_true_of_eq_false hquiet))

end

/-! A resume and the strand that it names (R354). -/

/-- Whether the trap that suspended a strand is one from which it is not resumed. -/
def Strand.beyondResume (t : Strand) : Bool := match t.suspendedBy with | some tr => tr.final | none => false

theorem Strand.beyondResume_eq_true_iff (t : Strand) : t.beyondResume = true ↔ ∃ tr, t.suspendedBy = some tr ∧ tr.final = true := by
  unfold Strand.beyondResume
  cases t.suspendedBy <;> simp

/-- Whether a resume is ignored. -/
def State.resumeIgnored (s : State) (v val : Nat) (byPf : Bool) : Bool :=
  !s.resumable v val || (s.strandAt (resumeTarget val)).beyondResume || ((s.strandAt (resumeTarget val)).hostFault && !byPf)

theorem State.resumeIgnored_iff (s : State) (v val : Nat) (byPf : Bool) : s.resumeIgnored v val byPf = true ↔
    s.resumable v val = false ∨
      (∃ tr, (s.strandAt (resumeTarget val)).suspendedBy = some tr ∧ tr.final = true) ∨
      ((s.strandAt (resumeTarget val)).hostFault = true ∧ byPf = false) := by
  simp only [State.resumeIgnored, Bool.or_eq_true, Bool.and_eq_true, Bool.not_eq_true', Strand.beyondResume_eq_true_iff, or_assoc]

/-- Settles O44: a request joins its queue or overflows, the oldest one sweeps the caches, a walk answers its misses, and a resume
is ignored or made. -/
theorem translationEventsAct : Obligations.TranslationEventsAct := by
  intro s v val walk byPf w i rest inv queue room queued derived keep swept busy ended free answered x t again runs
  refine ⟨fun hroom => congrArg Host.Outcome.next (State.queueInval_of_room (i := inv false) hroom),
    fun hroom => congrArg Host.Outcome.next (State.queueInval_of_room (i := inv true) hroom),
    fun hfull => congrArg Host.Outcome.next (State.queueInval_of_full (i := inv false) hfull),
    fun hfull => congrArg Host.Outcome.next (State.queueInval_of_full (i := inv true) hfull),
    fun hqueue hquiet hrest => ?last, fun hqueue hquiet hrest => ?more, fun hqueue hbusy => execInvalidationComplete_of_busy hqueue hbusy,
    fun hwalk => ?walk, fun hok hfinal hfault => ?resumed, fun hbad => ?ignored⟩
  case last =>
    subst hrest
    exact execInvalidationComplete_of_quiet hqueue hquiet
  case more =>
    refine (execInvalidationComplete_of_quiet hqueue hquiet).trans (congrArg Host.Outcome.next (if_neg ?_))
    simpa using hrest
  case walk =>
    simp only [exec_walkComplete, execWalkComplete, hwalk]
    rfl
  case resumed =>
    refine congrArg Host.Outcome.next (if_neg (mt (s.resumeIgnored_iff v val byPf).mp ?_))
    rintro (h | ⟨tr, htr, h⟩ | ⟨hhost, hpf⟩)
    · simp [hok] at h
    · simp [hfinal tr htr] at h
    · rcases hfault with hown | hbyPf
      · exact Bool.noConfusion (hown.symm.trans hhost)
      · exact Bool.noConfusion (hbyPf.symm.trans hpf)
  case ignored => exact congrArg Host.Outcome.next (if_pos ((s.resumeIgnored_iff v val byPf).mpr hbad))

end Sys2Proof.Machine

/-! PROOFS. Partition registers and partition resets (R357, R374, R376, R377, R321). -/

namespace Sys2Proof.Machine

section
variable (s : State) (v val word : Nat)

theorem exec_vfquadsWrite : exec (.vfquadsWrite v val) s = execVfquadsWrite v val s := rfl
theorem exec_pstitchWrite : exec (.pstitchWrite v val) s = execPstitchWrite v val s := rfl
theorem exec_vfslotsWrite : exec (.vfslotsWrite v word val) s = execVfslotsWrite v word val s := rfl
theorem exec_partitionReset : exec (.partitionReset v val) s = execPartitionReset v val s := rfl
theorem exec_partitionResetClear : exec (.partitionResetClear v) s = execPartitionResetClear v s := rfl

/-! A host access that goes on leaves what a partition's writes look at. -/

variable (fn : Nat) (e : Ev)

theorem State.othersHave_hostGoOn (of : Vf → Nat) : (s.hostGoOn fn e).othersHave v val of = s.othersHave v val of := by
  unfold State.hostGoOn
  split <;> rfl

theorem State.vfRuns_hostGoOn : (s.hostGoOn fn e).vfRuns v = s.vfRuns v := by
  unfold State.hostGoOn
  split <;> rfl

theorem State.stitchBad_hostGoOn : (s.hostGoOn fn e).stitchBad v val = s.stitchBad v val := by
  unfold State.hostGoOn
  split <;> rfl

theorem State.vf_hostGoOn : (s.hostGoOn fn e).vf v = s.vf v := by
  unfold State.hostGoOn
  split <;> rfl

theorem State.handlerHeld_hostGoOn (h : Nat) : (s.hostGoOn fn e).handlerHeld h = s.handlerHeld h := by
  unfold State.hostGoOn
  split <;> rfl

theorem State.othersHave_iff (of : Vf → Nat) : s.othersHave v val of = true ↔ ∃ f ∈ s.dev.vfs, f.1 ≠ v ∧ of f.2 &&& val ≠ 0 := by
  simp [State.othersHave]

end

/-! The PF's writes, their handler not held. -/

section
variable {s : State} {v val word : Nat} (hfree : s.handlerHeld 7 = false)
include hfree

theorem execVfquadsWrite_of_free : execVfquadsWrite v val s = .next
    (if s.othersHave v val Vf.quads then (s.hostGoOn 64 (.vfquadsWrite v val)).logIgnored
    else if s.vfRuns v then s.hostGoOn 64 (.vfquadsWrite v val)
    else (s.hostGoOn 64 (.vfquadsWrite v val)).setVf v fun f => { f with quads := val }) := by
  simp only [execVfquadsWrite, State.pfServed_of_not_held hfree, State.othersHave_hostGoOn, State.vfRuns_hostGoOn]

theorem execPstitchWrite_of_free : execPstitchWrite v val s = .next
    (if s.stitchBad v val then (s.hostGoOn 64 (.pstitchWrite v val)).logIgnored
    else (s.hostGoOn 64 (.pstitchWrite v val)).setVf v fun f => { f with pstitch := val }) := by
  simp only [execPstitchWrite, State.pfServed_of_not_held hfree, State.stitchBad_hostGoOn]

theorem execVfslotsWrite_of_free : execVfslotsWrite v word val s = .next
    (if s.othersHave v (putBits (s.vf v).slots (64 * word) 64 val) Vf.slots then
      (s.hostGoOn 64 (.vfslotsWrite v word val)).logIgnored
    else (s.hostGoOn 64 (.vfslotsWrite v word val)).setVf v fun f =>
      { f with slots := putBits (s.vf v).slots (64 * word) 64 val }) := by
  simp only [execVfslotsWrite, State.pfServed_of_not_held hfree, State.othersHave_hostGoOn]

theorem State.beginReset_of_free (hnone : (s.vf v).prst = 0) :
    s.beginReset v = ((s.yieldStops v).setVf v fun f => { f with prst := 1 }).resetStep v := by
  simp [State.beginReset, hnone, hfree]

theorem execPartitionReset_of_go (hgo : bit val 0 = true) :
    execPartitionReset v val s = .next ((s.hostGoOn 64 (.partitionReset v val)).beginReset v) := by
  simp [execPartitionReset, hgo, State.pfServed_of_not_held hfree]

end

/-- Settles O45: each register's write takes the case of its handler and its conditions, and a reset that of its step. -/
theorem partitionsAct : Obligations.PartitionsAct := by
  constructor
  · intro s v word val m meets free quads stitch slots
    refine ⟨fun hfree hothers hruns => ?quads, fun hfree hothers hruns => ?runs, fun hfree hothers => ?others, fun hfree hok => ?stitch,
      fun hfree hbad => ?bad, fun hfree hmeets => ?slots, fun hfree hmeets => ?meets, fun hheld => ?held⟩
    case quads => simp only [exec_vfquadsWrite, execVfquadsWrite_of_free hfree, hothers, hruns, Bool.false_eq_true, if_false, quads]
    case runs => simp only [exec_vfquadsWrite, execVfquadsWrite_of_free hfree, hothers, hruns, Bool.false_eq_true, if_false, if_true, quads]
    case others => simp only [exec_vfquadsWrite, execVfquadsWrite_of_free hfree, hothers, if_true, quads]
    case stitch => simp only [exec_pstitchWrite, execPstitchWrite_of_free hfree, hok, Bool.false_eq_true, if_false, stitch]
    case bad => simp only [exec_pstitchWrite, execPstitchWrite_of_free hfree, hbad, if_true, stitch]
    case slots =>
      rw [exec_vfslotsWrite, execVfslotsWrite_of_free hfree]
      exact congrArg Host.Outcome.next (if_neg (mt (s.othersHave_iff v m Vf.slots).mp hmeets))
    case meets =>
      rw [exec_vfslotsWrite, execVfslotsWrite_of_free hfree]
      exact congrArg Host.Outcome.next (if_pos ((s.othersHave_iff v m Vf.slots).mpr hmeets))
    case held =>
      have hheld : s.handlerHeld 7 = true := Bool.not_eq_false _ ▸ hheld
      exact ⟨congrArg Host.Outcome.next (State.pfServed_of_held hheld _ _), congrArg Host.Outcome.next (State.pfServed_of_held hheld _ _),
        congrArg Host.Outcome.next (State.pfServed_of_held hheld _ _)⟩
  · intro s v val xs step begun rings its reset go
    refine ⟨fun hgo hnone hfree => ?begun, fun hgo hsome hfree => ?already, fun hgo hheld => ?held, fun hgo hagain hnone hfree => ?again,
      fun hgo hagain hone => ?step, fun htwo hdrained => ?clear, fun htwo hfull => ?wait, fun hnone hfree => ?function,
      fun hnone hheld => ?functionHeld, fun hsome => congrArg Host.Outcome.next (if_pos hsome)⟩
    case begun =>
      rw [exec_partitionReset, execPartitionReset_of_go hfree hgo, State.beginReset_of_free]
      · rfl
      · rw [State.handlerHeld_hostGoOn, hfree]
      · rw [State.vf_hostGoOn, hnone]
    case already =>
      rw [exec_partitionReset, execPartitionReset_of_go hfree hgo]
      refine congrArg Host.Outcome.next (if_pos ?_)
      rwa [State.vf_hostGoOn]
    case held => simp [exec_partitionReset, execPartitionReset, hgo, State.pfServed_of_held hheld]
    case again =>
      simp only [exec_partitionReset, execPartitionReset, hgo, hagain, Bool.false_eq_true, if_false, if_true]
      exact congrArg Host.Outcome.next (State.beginReset_of_free hfree hnone)
    case step =>
      simp only [exec_partitionReset, execPartitionReset, hgo, hagain, hone, Bool.false_eq_true, if_false, if_true]
      rfl
    case clear => simp [exec_partitionResetClear, execPartitionResetClear, htwo, hdrained]
    case wait => simp [exec_partitionResetClear, execPartitionResetClear, htwo, hfull]
    case function => exact congrArg Host.Outcome.next (State.beginReset_of_free (s := reset) hfree hnone)
    case functionHeld =>
      refine congrArg Host.Outcome.next ((if_neg ?_).trans (if_pos hheld))
      exact not_not_intro hnone

end Sys2Proof.Machine

/-! PROOFS. Channel retirement (R372, R373). -/

namespace Sys2Proof.Machine

section
variable (s : State) (val : Nat)

theorem exec_retirementDrainDone : exec .retirementDrainDone s = execRetirementDrainDone s := rfl
theorem exec_retirementCopyDone : exec .retirementCopyDone s = execRetirementCopyDone s := rfl

variable (fn : Nat) (e : Ev)

theorem State.retireBad_hostGoOn (ch donor : Nat) : (s.hostGoOn fn e).retireBad ch donor = s.retireBad ch donor := by
  unfold State.hostGoOn
  split <;> rfl

theorem State.pf_hostGoOn : (s.hostGoOn fn e).dev.pf = s.dev.pf := by
  unfold State.hostGoOn
  split <;> rfl

theorem State.setPf_congr {s : State} {f g : Pf → Pf} (h : f s.dev.pf = g s.dev.pf) : s.setPf f = s.setPf g := by
  rw [State.setPf, State.setPf, h]

end

/-- The registers of a package that begins a retirement of a channel to a donor (R372, R373). -/
def Pf.retiring (p : Pf) (ch donor : Nat) : Pf :=
  { p with chGen := (p.chGen + 1) % 2 ^ 16, chRes := 0, retire := some { ch := ch, donor := donor, step := 1 }
           fences := mset ch ((p.chGen + 1) % 2 ^ 16) p.fences }

theorem execChretWrite_of_free {s : State} {val : Nat} (hfree : s.handlerHeld 5 = false) : execChretWrite val s = .next
    (if s.retireBad (bits val 8 0) (bits val 17 9) then (s.hostGoOn 64 (.chretWrite val)).setPf fun p => { p with chRes := 2 }
    else ((((s.hostGoOn 64 (.chretWrite val)).setPf fun p => p.retiring (bits val 8 0) (bits val 17 9)).breakPins
      fun c => c == bits val 8 0 || c == bits val 17 9).stopScans fun c => c == bits val 8 0 || c == bits val 17 9).later
        .retirementDrainDone) := by
  simp only [execChretWrite, State.pfServed_of_not_held hfree, State.retireBad_hostGoOn, Pf.retiring]

/-- Settles O48: each step is the branch of its handler, its checks and the step that stands noted. -/
theorem channelRetirementRuns : Obligations.ChannelRetirementRuns := by
  intro s val pkg gen r ch donor on go gen1 begun copied lines moved
  refine ⟨fun hheld => congrArg Host.Outcome.next (State.pfServed_of_held hheld _ _), fun hfree hok => ?begun, fun hfree hbad => ?refused,
    fun hretire hstep => ?drained, fun hretire hstep => ?copied, rfl⟩
  case begun =>
    have hgen : go.dev.pf.chGen = s.dev.pf.chGen := congrArg Pf.chGen (s.pf_hostGoOn _ _)
    have hbegun : (go.setPf fun p => p.retiring ch donor) = begun := State.setPf_congr (by simp only [Pf.retiring, hgen, gen1])
    refine (execChretWrite_of_free hfree).trans (congrArg Host.Outcome.next ((if_neg (ne_true_of_eq_false hok)).trans ?_))
    exact congrArg (fun u : State => ((u.breakPins on).stopScans on).later .retirementDrainDone) hbegun
  case refused => exact (execChretWrite_of_free hfree).trans (congrArg Host.Outcome.next (if_pos hbad))
  case drained => simp only [exec_retirementDrainDone, execRetirementDrainDone, hretire, if_pos hstep]
  case copied =>
    simp only [exec_retirementCopyDone, execRetirementCopyDone, hretire]
    exact congrArg Host.Outcome.next (if_neg (not_not_intro hstep))

end Sys2Proof.Machine

/-! PROOFS. Speat links and link events of the host (R325, R378 to R382). -/

namespace Sys2Proof.Machine

section
variable (s : State) (l : Nat)

theorem State.link_setLink (f : Link → Link) : (s.setLink l f).link l = f (s.link l) := by
  rw [State.link, State.setLink, mget_mset_self, Option.getD_some]

/-- The link with a corrected flit counted (R381). -/
def State.flitSeen (fixed : Bool) : State := s.setLink l fun k => { k with corr := if fixed then k.corr + 1 else k.corr }

/-- How many flits of the link have failed in the reel that runs, with the one that fails now (R382). -/
def State.failsNow : Nat := if (s.link l).reel = s.reelNow then (s.link l).reelFails + 1 else 1

/-- The link with a flit's failure noted for the other end (R382). -/
def State.flitNoted (fixed : Bool) : State :=
  (s.flitSeen l fixed).setLink l fun k =>
    { k with uncor := k.uncor + 1, reel := s.reelNow, reelFails := s.failsNow l
             notice := some (s.now + 4, flitPair (s.flitNow l) + 1, flitReel (s.flitNow l) % 16)
             fails := (k.fails.filter fun e => e.sent + 224 * k.retry != s.flitNow l) ++ [(s.link l).failure (s.flitNow l)] }

theorem State.link_flitSeen (fixed : Bool) : (s.flitSeen l fixed).link l =
    { s.link l with corr := if fixed then (s.link l).corr + 1 else (s.link l).corr } := State.link_setLink _ _ _

theorem State.flitNow_flitSeen (fixed : Bool) : (s.flitSeen l fixed).flitNow l = s.flitNow l := by
  rw [State.flitNow, State.link_flitSeen]
  rfl

/-- What a flit's failure looks at is none of what a corrected one changes. -/
theorem State.flitFailed_flitSeen (fixed : Bool) : (s.flitSeen l fixed).flitFailed l =
    if 3 ≤ ((s.link l).failure (s.flitNow l)).count ∨ 16 ≤ s.failsNow l then (s.flitNoted l fixed).linkDown l
    else s.flitNoted l fixed := by
  rw [State.flitFailed, State.flitNow_flitSeen, State.link_flitSeen]
  rfl

end

section
variable {s : State} {l head payload crc : Nat} {fixed : Bool} (hup : (s.link l).state = 2)
include hup

theorem execFlitReceive_of_good (hgood : flGood (flitOf head payload crc) = true) :
    execFlitReceive l head payload crc fixed s = .next
      (if 4 < flKind (flitOf head payload crc) ∨ flPair (flitOf head payload crc) ≠ flitPair (s.flitNow l) then s.flitSeen l fixed
      else if 1 ≤ flRetry (flitOf head payload crc) ∧ flRetry (flitOf head payload crc) ≤ 112 then
        ((s.flitSeen l fixed).flitPassed l (flitOf head payload crc)).schedule s.now
          (.retryNotice l (flRetry (flitOf head payload crc) - 1) (flRseq (flitOf head payload crc)))
      else (s.flitSeen l fixed).flitPassed l (flitOf head payload crc)) := by
  simp only [execFlitReceive, hup, hgood, State.flitSeen, ne_eq, not_true_eq_false, if_false, Bool.not_true, Bool.false_eq_true]

theorem execFlitReceive_of_bad (hbad : flGood (flitOf head payload crc) = false) :
    execFlitReceive l head payload crc fixed s = .next ((s.flitSeen l fixed).flitFailed l) := by
  simp only [execFlitReceive, hup, hbad, State.flitSeen, ne_eq, not_true_eq_false, if_false, Bool.not_false, if_true]

end

/-- Settles O49: a link's event finds it up or in training, a flit passes its CRC or fails, and each link event of the host has its
record. -/
theorem linksAct : Obligations.LinksAct := by
  intro s l lat peer far head payload crc pair reel rseq v addr size val fixed k flit n fail m seen failed good kept notice named_ last
    named noted fails
  have hgood (h : good) : flGood flit = true := beq_iff_eq.mpr h
  have hbad (h : ¬good) : flGood flit = false := beq_eq_false_iff_ne.mpr h
  have hplace (h : kept) : ¬(4 < flKind flit ∨ flPair flit ≠ flitPair (s.flitNow l)) :=
    not_or.mpr ⟨Nat.not_lt.mpr h.1, not_not_intro h.2⟩
  refine ⟨fun hl htrain => ?trained, fun hup h hkept hnone => ?passed, fun hup h hkept hnamed => ?noticed, fun hup h hkept => ?discarded,
    fun hup h hfew hm => ?failed, fun hup h hmany => ?down, fun hup hpair hnew => ?resends, ?resend, rfl, rfl, rfl, rfl, rfl, rfl, rfl, rfl,
    rfl, fun hfree => ?made, fun hheld => ?held⟩
  case trained => exact congrArg Host.Outcome.next (if_neg (not_or.mpr ⟨Nat.not_le.mpr hl, not_not_intro htrain⟩))
  case passed =>
    exact (execFlitReceive_of_good hup (hgood h)).trans (congrArg Host.Outcome.next ((if_neg (hplace hkept)).trans (if_neg hnone)))
  case noticed =>
    exact (execFlitReceive_of_good hup (hgood h)).trans (congrArg Host.Outcome.next ((if_neg (hplace hkept)).trans (if_pos hnamed)))
  case discarded =>
    refine (execFlitReceive_of_good hup (hgood h)).trans (congrArg Host.Outcome.next (if_pos ?_))
    exact (not_and_or.mp hkept).imp Nat.not_le.mp id
  case failed =>
    refine (execFlitReceive_of_bad hup (hbad h)).trans (congrArg Host.Outcome.next ?_)
    exact (s.flitFailed_flitSeen l fixed).trans (if_neg (not_or.mpr ⟨Nat.not_le.mpr hfew, Nat.not_le.mpr hm⟩))
  case down =>
    refine (execFlitReceive_of_bad hup (hbad h)).trans (congrArg Host.Outcome.next ?_)
    exact (s.flitFailed_flitSeen l fixed).trans (if_pos hmany)
  case resends =>
    refine congrArg Host.Outcome.next (if_neg ?_)
    rintro (h | h | h)
    · exact h hup
    · exact Nat.not_le.mpr hpair h
    · exact Bool.noConfusion (hnew.symm.trans h)
  case resend => rfl
  case made => exact congrArg Host.Outcome.next (if_neg (ne_true_of_eq_false hfree))
  case held => exact congrArg Host.Outcome.next (if_pos hheld)

end Sys2Proof.Machine

/-! PROOFS. The host side and the errors of storage (R322 to R324, R346, R359, R383, R384, R395). -/

namespace Sys2Proof.Machine

section
variable (s : State)

theorem exec_softErrorUncorrectable (space addr : Nat) :
    exec (.softErrorUncorrectable space addr) s = execSoftErrorUncorrectable space addr s := rfl

end

/-! An access through the aperture (R322, R323, R353). -/

section
variable {s : State} {v off n val a : Nat} {write : Bool} (ha : (s.vf v).apbase + off = a) (hoff : off < 2 ^ 32)
include ha hoff

theorem execApertureAccess_of_held (hheld : s.tenantHeld v a n write = true) : execApertureAccess v off n write val s =
    .next (s.hostHold v (.apertureAccess v off n write val) (write && s.tenantAny v a n s.retiring)) := by
  subst ha
  simp only [execApertureAccess, if_neg (Nat.not_le.mpr hoff), hheld, if_true]

variable {u : State}

theorem execApertureAccess_of_read (hfree : s.tenantHeld v a n false = false)
    (hu : s.hostGoOn v (.apertureAccess v off n false val) = u) {bs : List Byte} (hread : u.tenantRead v a n (n / 4096 + 2) = .ok bs) :
    execApertureAccess v off n false val s = .next u := by
  subst ha hu
  simp only [execApertureAccess, if_neg (Nat.not_le.mpr hoff), hfree, hread, Bool.false_eq_true, if_false]

theorem execApertureAccess_of_read_fault (hfree : s.tenantHeld v a n false = false)
    (hu : s.hostGoOn v (.apertureAccess v off n false val) = u) {t : Trap} (hread : u.tenantRead v a n (n / 4096 + 2) = .error t)
    (hown : t.host = false) : execApertureAccess v off n false val s = .next (u.setVaer v 1 a) := by
  subst ha hu
  simp only [execApertureAccess, if_neg (Nat.not_le.mpr hoff), hfree, hread, hown, Bool.false_eq_true, if_false]

variable {s1 : State} (hfree : s.tenantHeld v a n true = false) (hu : s.hostGoOn v (.apertureAccess v off n true val) = u)
include hfree hu

theorem execApertureAccess_of_write (hwrite : u.tenantWrite v a (leBytes n val) (n / 4096 + 2) = (s1, none)) :
    execApertureAccess v off n true val s = .next s1 := by
  subst ha hu
  simp only [execApertureAccess, if_neg (Nat.not_le.mpr hoff), hfree, hwrite, Bool.false_eq_true, if_false, if_true]

theorem execApertureAccess_of_write_fault {t : Trap}
    (hwrite : u.tenantWrite v a (leBytes n val) (n / 4096 + 2) = (s1, some t)) (hown : t.host = false) :
    execApertureAccess v off n true val s = .next (s1.setVaer v 1 a) := by
  subst ha hu
  simp only [execApertureAccess, if_neg (Nat.not_le.mpr hoff), hfree, hwrite, hown, Bool.false_eq_true, if_false, if_true]

end

/-! A write of a register (R322). -/

section
variable {s : State} {view off n val : Nat}

theorem execRegisterWrite_of_unaligned (h : ¬((n = 4 ∨ n = 8) ∧ off % n = 0)) : execRegisterWrite view off n val s = .next s := by
  refine congrArg Host.Outcome.next (if_pos (Classical.not_not.mp fun hno => h ?_))
  obtain ⟨hsize, halign⟩ := not_or.mp hno
  exact ⟨(not_and_or.mp hsize).imp Classical.not_not.mp Classical.not_not.mp, Classical.not_not.mp halign⟩

theorem execRegisterWrite_of_aligned (h : (n = 4 ∨ n = 8) ∧ off % n = 0) : execRegisterWrite view off n val s = .next
    (if view < 64 then s.viewWrite view off n (val % 2 ^ 64)
    else if view = 64 then s.pfWrite off n (val % 2 ^ 64)
    else if view < 128 ∨ 192 < view then s
    else if n = 4 then s.msixWrite (view - 128) off (val % 2 ^ 32)
    else (s.msixWrite (view - 128) off (val % 2 ^ 32)).msixWrite (view - 128) (off + 4) (val / 2 ^ 32 % 2 ^ 32)) := by
  refine congrArg Host.Outcome.next (if_neg ?_)
  rintro (⟨h4, h8⟩ | halign)
  · exact h.1.elim h4 h8
  · exact halign h.2

end

/-- Settles O50: each access, write, error and warning is the branch of its conditions. -/
theorem hostSideActs : Obligations.HostSideActs := by
  intro s v off n val view fn vec place space addr die s1 bs at_ access u held k open_ shown count counted aligned
  refine ⟨fun hoff hfree hread => execApertureAccess_of_read rfl hoff hfree rfl hread,
    fun t hoff hfree hread hown => execApertureAccess_of_read_fault rfl hoff hfree rfl hread hown,
    fun hoff hheld => execApertureAccess_of_held rfl hoff hheld, fun hoff hheld => execApertureAccess_of_held rfl hoff hheld,
    fun hoff hfree hwrite => execApertureAccess_of_write rfl hoff hfree rfl hwrite,
    fun t hoff hfree hwrite hown => execApertureAccess_of_write_fault rfl hoff hfree rfl hwrite hown,
    fun ha hview => ?view, fun ha hview => ?pf, fun ha hn hlow hhigh => ?msix, execRegisterWrite_of_unaligned,
    fun hpending => ?pending, fun hquiet => ?quiet, fun hplace hcount => ?counted, fun hplace hcount => ?logged,
    fun hspace haddr => ?packet, fun hchip hpacket => ?stack, fun hspace haddr => ?chip,
    fun hdie => congrArg Host.Outcome.next (if_neg (Nat.not_le.mpr hdie))⟩
  case view => exact (execRegisterWrite_of_aligned ha).trans (congrArg Host.Outcome.next (if_pos hview))
  case pf =>
    refine (execRegisterWrite_of_aligned ha).trans (congrArg Host.Outcome.next ((if_neg ?_).trans (if_pos hview)))
    omega
  case msix =>
    refine (execRegisterWrite_of_aligned ha).trans (congrArg Host.Outcome.next ?_)
    rw [if_neg (by omega), if_neg (by omega), if_neg (by omega), if_pos hn]
  case pending => exact congrArg Host.Outcome.next (if_pos hpending)
  case quiet => exact congrArg Host.Outcome.next (if_neg (ne_true_of_eq_false hquiet))
  case counted => exact congrArg Host.Outcome.next ((if_neg (Nat.not_lt.mpr hplace)).trans (if_neg hcount))
  case logged => exact congrArg Host.Outcome.next ((if_neg (Nat.not_lt.mpr hplace)).trans (if_pos hcount))
  case packet =>
    refine congrArg Host.Outcome.next ((if_pos hspace).trans (if_neg ?_))
    omega
  case stack => simp [exec_softErrorUncorrectable, execSoftErrorUncorrectable, hchip, hpacket]
  case chip =>
    subst hspace
    have hin : ¬(decide (0 = 0) = true ∧ 2 ^ 29 ≤ addr) := fun h => Nat.not_le.mpr haddr h.2
    exact congrArg Host.Outcome.next ((if_neg (by decide)).trans (if_neg hin))

end Sys2Proof.Machine

/-! PROOFS. The firmware mailbox and the hand-over (R388 to R394). -/

namespace Sys2Proof.Machine

section
variable (s : State)

theorem exec_fwcmdLoad : exec .fwcmdLoad s = execFwcmdLoad s := rfl
theorem exec_handoverCommit : exec .handoverCommit s = execHandoverCommit s := rfl
theorem exec_handoverAbandon : exec .handoverAbandon s = execHandoverAbandon s := rfl

/-- Whether one of the handlers of a mask runs (R388, R391). -/
def State.anyRuns (s : State) (hmask : Nat) : Bool := (List.range 8).any fun k => bit hmask k && s.handlerRuns k

theorem State.anyRuns_eq_false_iff (hmask : Nat) : s.anyRuns hmask = false ↔ ∀ k < 8, bit hmask k = true → s.handlerRuns k = false := by
  simp [State.anyRuns]

end

/-- Settles O51: each command does what its checks let it, and the hand-over waits for its handlers or its deadline. -/
theorem firmwareActs : Obligations.FirmwareActs := by
  intro s h p img hd dig at_ pending entry body sig certs quiet committed
  refine ⟨?load, rfl, fun hroom => congrArg Host.Outcome.next (if_neg (Nat.not_lt.mpr hroom)),
    fun hshort => congrArg Host.Outcome.next (if_pos hshort), rfl, fun hpend hquiet => ?commit, fun hpend hbusy => ?waits,
    fun hpend hdue => ?abandoned, fun hpend hearly => ?early⟩
  case load =>
    rw [exec_fwcmdLoad, execFwcmdLoad]
    dsimp only
    cases s.loadRefused img <;> rfl
  case commit =>
    simp only [exec_handoverCommit, execHandoverCommit, show s.dev.pf.handover = some h from hpend]
    exact congrArg Host.Outcome.next (if_neg (ne_true_of_eq_false ((s.anyRuns_eq_false_iff h.hmask).mpr hquiet)))
  case waits =>
    simp only [exec_handoverCommit, execHandoverCommit, show s.dev.pf.handover = some h from hpend]
    exact congrArg Host.Outcome.next (if_pos (eq_true_of_ne_false (mt (s.anyRuns_eq_false_iff h.hmask).mp hbusy)))
  case abandoned =>
    simp only [exec_handoverAbandon, execHandoverAbandon, show s.dev.pf.handover = some h from hpend]
    exact congrArg Host.Outcome.next (if_pos hdue)
  case early =>
    simp only [exec_handoverAbandon, execHandoverAbandon, show s.dev.pf.handover = some h from hpend]
    exact congrArg Host.Outcome.next (if_neg (Nat.not_le.mpr hearly))

end Sys2Proof.Machine

/-! PROOFS. Pre-emption, resume and the save area (R337 to R341). -/

namespace Sys2Proof.Machine

section
variable (s : State) (val q k : Nat)

theorem exec_preemptSave : exec (.preemptSave q k) s = execPreemptSave q k s := rfl
theorem exec_cqsavnWrite : exec (.cqsavnWrite q val) s = execCqsavnWrite q val s := rfl

end

section
variable {s : State} {val q k : Nat} {l : Launch}

/-! A request to pre-empt (R337). -/

/-- The state and the launch once its save is set off by a time (R337). -/
def State.preempted (s : State) (l : Launch) (d : Nat) : State :=
  (({ s with fresh := s.fresh + 256 } : State).setLaunch
    { l with saveBy := some (s.now + s.cyclesOf d), quoins := [], lost := [], imageNo := s.fresh }).schedule s.now (.preemptSave l.q l.slot)

theorem execPmreqPreempt_of_none (hfree : s.handlerHeld 3 = false) (hl : s.pmLaunch val = none) :
    execPmreqPreempt val s = .next (s.refusePm 1 val) := by
  simp only [execPmreqPreempt, hfree, hl, Bool.false_eq_true, if_false]

theorem execPmreqPreempt_of_launch (hfree : s.handlerHeld 3 = false) (hl : s.pmLaunch val = some l) :
    execPmreqPreempt val s = .next
      (if (s.slotAt l.q l.slot).st ≠ 3 then s.refusePm 1 val
      else if l.saveBy.isSome ∨ l.stage = .stopping then s.refusePm 2 val
      else if ((s.cq l.q).map Cq.savn).getD 0 < lrSize l.copy then s.refusePm 3 val
      else s.preempted l (if bits val 63 48 = 0 then 200 else bits val 63 48)) := by
  simp only [execPmreqPreempt, hfree, hl, Bool.false_eq_true, if_false, State.preempted]

/-! A resume (R339). -/

theorem execPmreqResume_of_none (hfree : s.handlerHeld 3 = false) (hl : s.pmLaunch val = none) :
    execPmreqResume val s = .next (s.refusePm (if (s.slotAt (pmQueue val) (pmSlot val)).lost then 4 else 1) val) := by
  simp only [execPmreqResume, hfree, hl, Bool.false_eq_true, if_false]

theorem execPmreqResume_of_unsaved (hfree : s.handlerHeld 3 = false) (hl : s.pmLaunch val = some l) (hstage : l.stage = .saved)
    (hnone : l.saved = []) : execPmreqResume val s =
      .next (((s.setLaunch { l with stage := .admission }).setSt l.q l.slot 3).askAdmission { l with stage := .admission }) := by
  simp only [execPmreqResume, hfree, hl, hstage, hnone, Bool.false_eq_true, if_false, List.isEmpty_nil, if_true]

theorem execPmreqResume_of_other (hfree : s.handlerHeld 3 = false) (hl : s.pmLaunch val = some l) (hsaved : l.stage ≠ .saved)
    (hresuming : l.stage ≠ .resuming) : execPmreqResume val s = .next (s.refusePm 1 val) := by
  simp only [execPmreqResume, hfree, hl, Bool.false_eq_true, if_false]

theorem execPmreqResume_of_asked (hfree : s.handlerHeld 3 = false) (hl : s.pmLaunch val = some l)
    (hstage : l.stage = .saved ∧ l.saved ≠ [] ∨ l.stage = .resuming) : execPmreqResume val s = .next (s.tryResume l val) := by
  simp only [execPmreqResume, hfree, hl, Bool.false_eq_true, if_false]
  rcases hstage with ⟨hstage, hsaved⟩ | hstage
  · have hsome : l.saved.isEmpty = false := by simpa using hsaved
    simp only [hstage, hsome, Bool.false_eq_true, if_false]
  · simp only [hstage]

/-! The save (R338, R341). -/

/-- The strands of a launch that have not ended, those at a boundary stopped (R338). -/
def State.stopped (s : State) (l : Launch) : State :=
  (l.members.filter fun x => !l.ended.contains x).foldl
    (fun (s : State) x => if (s.strandAt x).atStop then s.stopAt l.q l.slot x else s) s

/-- Whether a strand has stopped and drained (R338). -/
def State.still (s : State) (x : Nat) : Bool := (s.strandAt x).mode == .stopped && (s.strandAt x).ckpt.isSome && s.atRest x

variable (hl : s.launchOf q k = some l) (hstage : l.stage = .saving)
include hl hstage

theorem execPreemptSave_of_busy (hbusy : ∃ x ∈ l.members.filter fun x => !l.ended.contains x, (s.stopped l).still x = false) :
    execPreemptSave q k s = .next ((s.stopped l).schedule ((s.stopped l).now + 1) (.preemptSave l.q l.slot)) := by
  simp only [execPreemptSave, hl, hstage]
  obtain ⟨x, hx, hstill⟩ := hbusy
  refine congrArg Host.Outcome.next (if_pos ?_)
  rw [Bool.not_eq_true', List.all_eq_false]
  exact ⟨x, hx, ne_true_of_eq_false hstill⟩

theorem execPreemptSave_of_rest (hrest : ∀ x ∈ l.members.filter fun x => !l.ended.contains x, (s.stopped l).still x = true) {m : Launch}
    (hm : (s.stopped l).launchOf l.q l.slot = some m) :
    execPreemptSave q k s = .next ((s.stopped l).saveLaunch m (l.members.filter fun x => !l.ended.contains x)) := by
  have hall : (!(l.members.filter fun x => !l.ended.contains x).all (s.stopped l).still) = false := by
    rw [Bool.not_eq_false', List.all_eq_true]
    exact hrest
  unfold State.stopped at hm hall
  unfold State.still at hall
  simp only [execPreemptSave, hl, hstage, State.proceedStop, hall, hm, Bool.false_eq_true, if_false]
  rfl

end

/-- Settles O37: a request finds its launch in a stage, a save its strands at rest or not, a resume its tests passed or not. -/
theorem preemptionActs : Obligations.PreemptionActs := by
  intro s val q k l c d slot xs stopped rest v ranks asks admits asked
  have htry (h : asks) : exec (.pmreqResume val) s = .next (s.tryResume l val) := execPmreqResume_of_asked h.1 h.2.1 h.2.2
  have hfits (h : admits) : ¬((s.masksClash l.copy ranks).isSome = true ∨ (s.impose v l.copy l.img ranks).isSome = true) ∧
      ¬(s.farRefusal l.copy).isSome = true := by
    obtain ⟨hmasks, himpose, hfar⟩ := h
    exact ⟨not_or.mpr ⟨Option.not_isSome_iff_eq_none.mpr hmasks, Option.not_isSome_iff_eq_none.mpr himpose⟩,
      Option.not_isSome_iff_eq_none.mpr hfar⟩
  refine ⟨execPmreqPreempt_of_none, fun hfree hl hst => ?idle, fun hfree hl hst hsaving => ?again,
    fun hfree hl hst hsave hstage hroom => ?preempts, fun hfree hl hst hsave hstage hshort => ?short, fun hheld => ?held,
    fun hl hstage => execPreemptSave_of_busy hl hstage, fun hl hstage hrest m hm => execPreemptSave_of_rest hl hstage hrest hm,
    fun hl hstage hsave => ?admission, execPmreqResume_of_unsaved, fun hasks hadmits hroute hstart => ?restored,
    fun hasks hclash => ?clash, fun hasks hmasks himpose hfar => ?far, fun hasks hadmits hwaits => ?waits, execPmreqResume_of_other,
    execPmreqResume_of_none, fun ps t hc hval hpath hpin => ?pinned, fun hc hval => ?tooMany⟩
  case idle => exact (execPmreqPreempt_of_launch hfree hl).trans (congrArg Host.Outcome.next (if_pos hst))
  case again =>
    refine (execPmreqPreempt_of_launch hfree hl).trans (congrArg Host.Outcome.next ?_)
    exact (if_neg (not_not_intro hst)).trans (if_pos (.inl (Option.isSome_iff_ne_none.mpr hsaving)))
  case preempts =>
    refine (execPmreqPreempt_of_launch hfree hl).trans (congrArg Host.Outcome.next ?_)
    rw [if_neg (not_not_intro hst), if_neg (by simp [hsave, hstage]), if_neg (Nat.not_lt.mpr hroom)]
    rfl
  case short =>
    refine (execPmreqPreempt_of_launch hfree hl).trans (congrArg Host.Outcome.next ?_)
    rw [if_neg (not_not_intro hst), if_neg (by simp [hsave, hstage]), if_pos hshort]
  case held => exact ⟨congrArg Host.Outcome.next (if_pos hheld), congrArg Host.Outcome.next (if_pos hheld)⟩
  case admission =>
    simp only [exec_preemptSave, execPreemptSave, hl, hstage, if_pos (Option.isSome_iff_ne_none.mpr hsave)]
  case restored =>
    obtain ⟨hmasks, hfar⟩ := hfits hadmits
    refine (htry hasks).trans (congrArg Host.Outcome.next ?_)
    exact (if_neg hmasks).trans ((if_neg hfar).trans (if_neg
      (not_or.mpr ⟨Option.not_isSome_iff_eq_none.mpr hroute, ne_true_of_eq_false hstart⟩)))
  case clash => exact (htry hasks).trans (congrArg Host.Outcome.next (if_pos hclash))
  case far =>
    refine (htry hasks).trans (congrArg Host.Outcome.next ?_)
    exact (if_neg (not_or.mpr ⟨Option.not_isSome_iff_eq_none.mpr hmasks, Option.not_isSome_iff_eq_none.mpr himpose⟩)).trans (if_pos hfar)
  case waits =>
    obtain ⟨hmasks, hfar⟩ := hfits hadmits
    exact (htry hasks).trans (congrArg Host.Outcome.next ((if_neg hmasks).trans ((if_neg hfar).trans (if_pos hwaits))))
  case pinned =>
    have hok : ¬(256 < val ∨ (val ≠ 0 ∧ (!pathZero c.save (imageSlot * val)) = true)) := by
      rintro (h | ⟨h0, h⟩)
      · exact Nat.not_lt.mpr hval h
      · rw [show pathZero c.save (imageSlot * val) = true from hpath h0] at h
        exact absurd h (by decide)
    simp only [exec_cqsavnWrite, execCqsavnWrite, hc, if_neg hok, hpin]
  case tooMany =>
    simp only [exec_cqsavnWrite, execCqsavnWrite, hc, if_pos (Or.inl hval : 256 < val ∨ _)]

end Sys2Proof.Machine

/-! PROOFS. What stops a word before any effect (R24, R40, R41, R43, R87, R90, R92, R128, R129): the first check that a word fails,
and the traps of operands, of a transport and of calls and returns. -/

namespace Sys2Proof.Machine

/-! The checks of R87 that depend on the strand. -/

theorem firstFail_append (l r : List (Bool × Nat)) : firstFail (l ++ r) = (firstFail l).or (firstFail r) := by
  induction l with
  | nil => rfl
  | cons x l ih =>
    obtain ⟨fails, d⟩ := x
    cases fails with
    | false => exact ih
    | true => rfl

/-- Of numbered checks of one kind, the first that fails. -/
theorem firstFail_zipIdx {α : Type} (f : α → Bool) (l : List α) (k : Nat) :
    firstFail ((l.zipIdx k).map fun x => (f x.1, x.2)) = (l.findIdx? f).map (· + k) := by
  induction l generalizing k with
  | nil => rfl
  | cons a l ih =>
    rw [List.zipIdx_cons, List.map_cons, List.findIdx?_cons]
    cases hf : f a with
    | true => simp [firstFail]
    | false =>
      simp only [firstFail, ih, Bool.false_eq_true, if_false, Option.map_map]
      congr 1
      funext j
      simp only [Function.comp_apply]
      omega

theorem firstFail_eq_none_iff {l : List (Bool × Nat)} : firstFail l = none ↔ ∀ x ∈ l, x.1 = false := by
  induction l with
  | nil => simp [firstFail]
  | cons x l ih => simp only [firstFail_cons_eq_none, ih, List.forall_mem_cons]

theorem firstFail_mem {l : List (Bool × Nat)} {d : Nat} (h : firstFail l = some d) : (true, d) ∈ l := by
  induction l with
  | nil => cases h
  | cons x l ih =>
    obtain ⟨fails, k⟩ := x
    cases fails with
    | false => exact List.mem_cons_of_mem _ (ih h)
    | true =>
      cases h
      exact List.mem_cons_self ..

/-- Whether a slot names a tile, an accumulator or a distribution register that the strand does not hold (R41). -/
def State.misnames (s : State) (q : Sys2Proof.Slot) : Bool := q.used && !s.t.ownsOpd q.opd

theorem State.misnames_iff {s : State} {q : Sys2Proof.Slot} :
    s.misnames q = true ↔ q.used = true ∧ s.t.ownsOpd q.opd = false := by
  rw [State.misnames, Bool.and_eq_true, Bool.not_eq_true']

theorem State.misnames_eq_false_iff {s : State} {q : Sys2Proof.Slot} :
    s.misnames q = false ↔ ¬ (q.used = true ∧ s.t.ownsOpd q.opd = false) := by
  rw [← State.misnames_iff, Bool.not_eq_true]

/-- A word's checks come in the order: its slots, SWAIT, SPOST, what its form asks, what its follow-on word names (R87). -/
theorem State.limits_eq (s : State) (v : View) :
    s.limits v = (v.slots.findIdx? s.misnames).or
      ((firstFail [(v.hdr.swait.val != 0 && !s.t.ownsSem v.hdr.swait.val, 4), (v.hdr.spost.val != 0 && !s.t.ownsSem v.hdr.spost.val, 5),
          (s.formLimit v, 8)]).or
        (firstFail (v.followOpds.map fun x => (!s.t.ownsOpd x.1, x.2)))) := by
  have hslots := firstFail_zipIdx s.misnames v.slots 0
  simp only [Nat.add_zero, Option.map_id'] at hslots
  unfold State.limits
  rw [firstFail_append, firstFail_append, ← hslots, Option.or_assoc]
  rfl

theorem State.limits_of_slot {s : State} {v : View} {k : Nat} {q : Sys2Proof.Slot} (hq : v.slots[k]? = some q)
    (hbad : s.misnames q = true) (hfirst : ∀ j r, j < k → v.slots[j]? = some r → s.misnames r = false) : s.limits v = some k := by
  obtain ⟨hk, rfl⟩ := List.getElem?_eq_some_iff.mp hq
  have hfind : v.slots.findIdx? s.misnames = some k :=
    List.findIdx?_eq_some_iff_getElem.mpr ⟨hk, hbad, fun j hj => by
      rw [Bool.not_eq_true]
      exact hfirst j _ hj (List.getElem?_eq_getElem (Nat.lt_trans hj hk))⟩
  rw [s.limits_eq, hfind]
  rfl

/-- Past its slots, what a word fails by. -/
theorem State.limits_of_named {s : State} {v : View} (hnamed : ∀ q ∈ v.slots, s.misnames q = false) :
    s.limits v =
      (firstFail [(v.hdr.swait.val != 0 && !s.t.ownsSem v.hdr.swait.val, 4), (v.hdr.spost.val != 0 && !s.t.ownsSem v.hdr.spost.val, 5),
        (s.formLimit v, 8)]).or (firstFail (v.followOpds.map fun x => (!s.t.ownsOpd x.1, x.2))) := by
  rw [s.limits_eq, List.findIdx?_eq_none_iff.mpr hnamed, Option.none_or]

/-- A semaphore that a header names and the strand does not own. -/
theorem Strand.lacksSem_iff {t : Strand} {n : Nat} : (n != 0 && !t.ownsSem n) = true ↔ n ≠ 0 ∧ t.ownsSem n = false := by
  rw [Bool.and_eq_true, bne_iff_ne, Bool.not_eq_true']

theorem Holds.named {s : State} {v : View} (hh : Holds s v) (q : Sys2Proof.Slot) (hq : q ∈ v.slots) : s.misnames q = false :=
  State.misnames_eq_false_iff.mpr fun ⟨hused, hnot⟩ => by
    rw [hh.opds q hq hused] at hnot
    cases hnot

/-- Of a word that holds what it names, what its form asks for comes first, then what its follow-on word names. -/
theorem Holds.limits {s : State} {v : View} (hh : Holds s v) :
    s.limits v = if s.formLimit v = true then some 8 else firstFail (v.followOpds.map fun x => (!s.t.ownsOpd x.1, x.2)) := by
  have hsem {n : Nat} (hn : n = 0 ∨ s.t.ownsSem n = true) : (n != 0 && !s.t.ownsSem n) = false := by
    rcases hn with hn | hn <;> simp [hn]
  rw [State.limits_of_named hh.named, hsem hh.swait, hsem hh.spost]
  cases s.formLimit v <;> rfl

/-! A word that stops. -/

/-- A trap that is its word's only effect: it neither suspends the strand nor is a software trap or one of debug mode (R34, R37). -/
structure Trap.Plain (tr : Trap) : Prop where
  freezes : tr.suspends = false
  notDebug : tr.cls ≠ ascii2 'S' 'C'
  notSoftware : tr.cls ≠ ascii2 'S' 'W'

theorem Trap.plain_of_cls {tr : Trap} (h : tr.cls ∈ [ascii2 'I' 'L', ascii2 'Q' 'U', ascii2 'A' 'F', ascii2 'S' 'L']) : tr.Plain := by
  have hcls : ∀ c ∈ [ascii2 'I' 'L', ascii2 'Q' 'U', ascii2 'A' 'F', ascii2 'S' 'L'],
      (c == ascii2 'P' 'F' || c == ascii2 'E' 'C' || c == ascii2 'W' 'D' || c == ascii2 'H' 'X') = false ∧
        c ≠ ascii2 'S' 'C' ∧ c ≠ ascii2 'S' 'W' := by decide
  obtain ⟨hfreezes, hsc, hsw⟩ := hcls tr.cls h
  exact ⟨hfreezes, hsc, hsw⟩

theorem trapIL_plain (n d : Nat) : (trapIL n d).Plain := Trap.plain_of_cls (by simp [trapIL])
theorem trapQU_plain (n d : Nat) : (trapQU n d).Plain := Trap.plain_of_cls (by simp [trapQU])
theorem trapAF_plain (n d : Nat) : (trapAF n d).Plain := Trap.plain_of_cls (by simp [trapAF])
theorem trapSL_plain : trapSL.Plain := Trap.plain_of_cls (by simp [trapSL])

theorem State.wordTrap_plain (s : State) (e : Eng) {tr : Trap} (hp : tr.Plain) : s.wordTrap e tr = s.takeTrap tr e.num (e.num + 1) := by
  have hpf : tr.cls ≠ ascii2 'P' 'F' := fun hc => by
    have hsus := hp.freezes
    simp [Trap.suspends, hc] at hsus
  simp only [State.wordTrap, hpf, hp.notSoftware, false_and, if_false]

theorem State.conclude_plain (s : State) (e : Eng) {tr : Trap} (hp : tr.Plain) :
    s.conclude e (trapStop tr) = s.unstall.takeTrap tr e.num (e.num + 1) := s.unstall.wordTrap_plain e hp

theorem State.issueOn_of_limit {s : State} {v : View} {d : Nat} (hl : s.limits v = some d) (e : Eng) (words : Nat) (op : Operation) :
    s.issueOn v e words op = s.unstall.takeTrap (trapIL 6 d) e.num (e.num + 1) := by
  unfold State.issueOn
  rw [hl]
  exact s.conclude_plain e (trapIL_plain 6 d)

theorem State.begin_await_none {s : State} {n : Nat} (hn : n ≠ 0) (hnone : s.sem s.core n = 0) (e : Eng) (words : Nat) :
    (s.begin e words).await n = stallStop .semaphore := by
  have hsem : (s.begin e words).sem (s.begin e words).core n = 0 := hnone
  rw [State.await, if_neg hn, if_pos hsem]

theorem State.begun_t_dbg (s : State) (e : Eng) (words n : Nat) : (s.begun e words n).t.dbg = s.t.dbg := by
  rw [Strand.dbg, State.begun_t_ctx, Strand.dbg]

/-- An SPOST that debug mode finds nothing in is raised at once. -/
theorem State.postNow_quiet {s : State} {c n : Nat} (h : n = 0 ∨ s.t.dbg = false ∨ c ≠ 255) : s.postNow c n = .ok (s.raise n) := by
  rw [State.postNow, if_neg]
  rintro ⟨hn, hdbg, hfull⟩
  rcases h with h | h | h
  · exact hn h
  · rw [h] at hdbg; cases hdbg
  · exact h hfull

theorem State.issueOn_of_perform {s : State} {v : View} {e : Eng} {words : Nat} {op : Operation} {r : Except Stop State}
    (hl : s.limits v = none) (hp : s.perform v e words op = r) : s.issueOn v e words op = s.conclude e r := by
  unfold State.issueOn
  rw [hl]
  exact congrArg (s.conclude e) hp

theorem State.issueOn_of_noToken {s : State} {v : View} (hl : s.limits v = none) (hw : v.hdr.swait.val ≠ 0)
    (hnone : s.sem s.core v.hdr.swait.val = 0) (e : Eng) (words : Nat) (op : Operation) :
    s.issueOn v e words op = s.stallAt .semaphore := by
  have hp : s.perform v e words op = stallStop .semaphore := by
    unfold State.perform
    simp only [State.begin_await_none hw hnone]
    rfl
  exact State.issueOn_of_perform hl hp

/-- A word whose guard is false takes its SWAIT and raises its SPOST (R90). -/
theorem State.issueOn_of_guard {s : State} {v : View} (hl : s.limits v = none)
    (htoken : v.hdr.swait.val = 0 ∨ s.sem s.core v.hdr.swait.val ≠ 0) (hg : s.t.guard v.grd = false)
    (hpost : v.hdr.spost.val = 0 ∨ s.t.dbg = false ∨ s.sem s.core v.hdr.spost.val ≠ 255) (e : Eng) (words : Nat) (op : Operation) :
    s.issueOn v e words op = ((s.begun e words v.hdr.swait.val).raise v.hdr.spost.val).unstall := by
  have hp : s.perform v e words op = .ok ((s.begun e words v.hdr.swait.val).raise v.hdr.spost.val) := by
    unfold State.perform
    simp only [State.await_ready htoken, hg, Bool.not_false, if_true]
    exact State.postNow_quiet (by rwa [State.begun_t_dbg])
  exact State.issueOn_of_perform hl hp

/-- An S word whose operation traps before any effect. -/
theorem issueS_trap {s : State} {op : SOp} {h : Hdr} {b : SBody} {f : Word → Word → Word → Operation} {tr : Trap}
    (hr : Ready s (.s op h b)) (hop : sOp op h b f (s.acting (.s op h b)) = trapStop tr) (hp : tr.Plain) :
    issueS op h b f s = .next (s.unstall.takeTrap tr 0 1) := by
  have hissue : s.issue (.s op h b) (sOp op h b f) = s.unstall.wordTrap .s tr :=
    State.issueOn_trap hr hop (State.laterStop_eq (.inr ⟨hp.freezes, fun hsc => hp.notDebug hsc.1⟩))
  rw [issueS, hissue, State.wordTrap_plain _ _ hp]
  rfl

/-! Operands and transports (R43, R92). -/

theorem Strand.takeQ_unlanded {t : Strand} {n : Nat} (h : ∀ x ∈ (t.queue n).head?, x.landed = false) (peek : Bool) :
    t.takeQ n peek = trapStop (trapQU 1 n) := by
  unfold Strand.takeQ
  cases hq : t.queue n with
  | nil => rfl
  | cons x xs =>
    have hx : x.landed = false := h x (by rw [hq]; rfl)
    simp only [hx, Bool.false_eq_true, if_false]

/-- Operands are read up to the first that stops. -/
theorem Strand.readOpds_append_error {e : Eng} {imm : Word} {o : Opd} {pk : Bool} {x : Stop} (after : List (Opd × Bool)) :
    ∀ {before : List (Opd × Bool)} {t t1 : Strand} {ys : List Word}, t.readOpds e imm before = .ok (ys, t1) →
      t1.readOpd e imm pk o = .error x → t.readOpds e imm (before ++ (o, pk) :: after) = .error x := by
  intro before
  induction before with
  | nil =>
    intro t t1 ys hb ho
    cases hb
    simp only [List.nil_append, Strand.readOpds, ho]
  | cons p before ih =>
    intro t t1 ys hb ho
    obtain ⟨a, pa⟩ := p
    simp only [Strand.readOpds] at hb
    split at hb
    · cases hb
    · rename_i v u hfirst
      split at hb
      · cases hb
      · rename_i vs w hrest
        cases hb
        simp only [List.cons_append, Strand.readOpds, hfirst, ih hrest ho]

/-- An S word stops at its first operand that cannot be read. -/
theorem sOp_of_readOpds_error {s : State} {op : SOp} {h : Hdr} {b : SBody} {x : Stop}
    (hreads : s.t.readOpds .s (immVal b.ty b.imm) (sSlots op h b) = .error x) (f : Word → Word → Word → Operation) :
    sOp op h b f s = .error x := by
  unfold sOp
  rw [hreads]

theorem Strand.transport_full {t : Strand} {b : SBody} (hx : b.xl ≠ .none) (hfull : 2 ≤ (t.queue b.xq.val).length) :
    t.transport b = trapStop (trapQU 2 b.xq.val) := by
  have hreserve : t.reserveQ b.xq.val t.seq = trapStop (trapQU 2 b.xq.val) := if_pos hfull
  unfold Strand.transport
  cases hl : b.xl with
  | none => exact absurd hl hx
  | la0 | la1 | lm | ll | lf n => simp only [hreserve]; rfl

theorem sOp_of_transport_error {s : State} {op : SOp} {h : Hdr} {b : SBody} {vs : List Word} {t : Strand} {x : Stop}
    (hreads : s.t.readOpds .s (immVal b.ty b.imm) (sSlots op h b) = .ok (vs, t)) (hmove : t.transport b = .error x)
    (f : Word → Word → Word → Operation) : sOp op h b f s = .error x := by
  unfold sOp
  simp only [hreads, hmove]

/-- A word that reads a queue register without a landed entry, in any of its slots (R43). -/
theorem issueS_unlanded {s : State} {op : SOp} {h : Hdr} {b : SBody} {n : Fin 32} {pk : Bool} {before after : List (Opd × Bool)}
    {ys : List Word} {t : Strand} (hr : Ready s (.s op h b)) (hslots : sSlots op h b = before ++ (Opd.q n, pk) :: after)
    (hbefore : (s.acting (.s op h b)).t.readOpds .s (immVal b.ty b.imm) before = .ok (ys, t))
    (hnone : ∀ x ∈ (t.queue n.val).head?, x.landed = false) (f : Word → Word → Word → Operation) :
    issueS op h b f s = .next (s.unstall.takeTrap (trapQU 1 n.val) 0 1) :=
  issueS_trap hr
    (sOp_of_readOpds_error (by rw [hslots]; exact Strand.readOpds_append_error after hbefore (Strand.takeQ_unlanded hnone pk)) f)
    (trapQU_plain 1 n.val)

/-- Settles O52: the checks of R87 in their order are `State.limits_eq`; SWAIT, the guard, operands and transports each stop a word
by the lemma of its kind above. -/
theorem wordsThatCannotAct : Obligations.WordsThatCannotAct := by
  intro s v e words op o h b f n vs t1 w p u trapped bad named waitBad postBad followed
  have hnot {q : Sys2Proof.Slot} (hq : ¬ bad q) : s.misnames q = false := State.misnames_eq_false_iff.mpr hq
  refine ⟨?slot, ?swait, ?spost, ?form, ?follow, ?holds, ?limit, ?token, ?guard, ?first, ?any, ?transport⟩
  case slot =>
    intro k q hq hbad hfirst
    exact State.limits_of_slot hq (State.misnames_iff.mpr hbad) fun j r hj hr => hnot (hfirst j r hj hr)
  case swait =>
    intro hnamed hwait
    rw [State.limits_of_named fun q hq => hnot (hnamed q hq), Strand.lacksSem_iff.mpr hwait]
    rfl
  case spost =>
    intro hnamed hwait hpost
    rw [State.limits_of_named fun q hq => hnot (hnamed q hq), Strand.lacksSem_iff.mpr hpost,
      Bool.eq_false_iff.mpr fun hc => hwait (Strand.lacksSem_iff.mp hc)]
    rfl
  case form =>
    intro hh hform
    rw [hh.limits, if_pos hform]
  case follow =>
    intro hh hform hnf
    rw [hh.limits, hform, if_neg Bool.false_ne_true]
    cases hd : firstFail (v.followOpds.map fun x => (!s.t.ownsOpd x.1, x.2)) with
    | none =>
      rw [firstFail_eq_none_iff, List.forall_mem_map] at hd
      exact absurd (fun x hx => by simpa using hd x hx) hnf
    | some d =>
      obtain ⟨x, hx, heq⟩ := List.mem_map.mp (firstFail_mem hd)
      obtain ⟨hlacks, rfl⟩ := Prod.mk.inj heq
      exact ⟨x, hx, by simpa using hlacks, rfl⟩
  case holds =>
    intro hh hform hf
    rw [hh.limits, hform, if_neg Bool.false_ne_true, firstFail_eq_none_iff, List.forall_mem_map]
    exact fun x hx => by rw [hf x hx]; rfl
  case limit => exact fun d hd => State.issueOn_of_limit hd e words op
  case token => exact fun hl hw hnone => State.issueOn_of_noToken hl hw hnone e words op
  case guard => exact fun hl htoken hg hpost => State.issueOn_of_guard hl htoken hg hpost e words op
  case first =>
    intro hr hused ha hnone
    have hslots : sSlots o h b = [] ++ (Opd.q n, h.peekA) :: (sSlots o h b).tail := by
      simp only [sSlots, if_neg hused, ha, List.nil_append, List.tail_cons]
    exact issueS_unlanded hr hslots rfl hnone f
  case any => exact fun before after pk ys hr hslots hbefore hnone => issueS_unlanded hr hslots hbefore hnone f
  case transport =>
    intro hr hx hreads hfull
    exact issueS_trap hr (sOp_of_transport_error hreads (Strand.transport_full hx hfull) f) (trapQU_plain 2 b.xq.val)

/-! Calls and returns (R128, R129, R242). -/

theorem frameBad_iff {f : Nat} : frameBad f = true ↔ f < 8 ∨ f % 8 ≠ 0 := by
  rw [frameBad, Bool.or_eq_true, decide_eq_true_eq, bne_iff_ne]

section
variable {s : State} {t : Strand} (ht : s.t = t)
include ht

theorem callOp_misaligned (f target : Nat) (hssp : t.ctx.ssp.toNat % 8 ≠ 0) : callOp f target s = trapStop (trapAF 4 0) := by
  subst ht
  exact if_pos hssp

theorem retOp_misaligned (hssp : t.ctx.ssp.toNat % 8 ≠ 0) : retOp s = trapStop (trapAF 4 0) := by
  subst ht
  exact if_pos hssp

theorem retOp_outlying (hssp : t.ctx.ssp.toNat % 8 = 0) (hfar : t.ctx.ssp.toNat + 8 > 786432) : retOp s = trapStop (trapAF 3 3) := by
  subst ht
  exact (if_neg (not_not_intro hssp)).trans (if_pos hfar)

variable {f : Nat} (target : Nat) (hssp : t.ctx.ssp.toNat % 8 = 0)
include hssp

theorem callOp_outlying (hfar : (t.ctx.ssp.toNat : Int) - f < 0 ∨ (t.ctx.ssp.toNat : Int) - f + 8 > 786432) :
    callOp f target s = trapStop (trapAF 3 3) := by
  subst ht
  exact (if_neg (not_not_intro hssp)).trans (if_pos hfar)

variable (hnear : ¬ ((t.ctx.ssp.toNat : Int) - f < 0 ∨ (t.ctx.ssp.toNat : Int) - f + 8 > 786432))
include hnear

theorem callOp_unowned (hbanks : t.ownsBytes ((t.ctx.ssp.toNat : Int) - f).toNat 8 = false) :
    callOp f target s = trapStop (trapAF 3 3) := by
  subst ht
  exact (if_neg (not_not_intro hssp)).trans ((if_neg hnear).trans (if_pos (by rw [hbanks]; rfl)))

theorem callOp_belowLimit (hbanks : t.ownsBytes ((t.ctx.ssp.toNat : Int) - f).toNat 8 = true)
    (hlow : (t.ctx.ssp.toNat : Int) - f < t.ctx.slim.toNat) : callOp f target s = trapStop trapSL := by
  subst ht
  exact (if_neg (not_not_intro hssp)).trans ((if_neg hnear).trans ((if_neg (by rw [hbanks]; decide)).trans (if_pos hlow)))

end

/-- A word whose form refuses it, though the strand holds what it names (R87). -/
theorem Holds.issueS_form {s : State} {op : SOp} {h : Hdr} {b : SBody} (hh : Holds s (.s op h b))
    (hform : s.formLimit (.s op h b) = true) (f : Word → Word → Word → Operation) :
    issueS op h b f s = .next (s.unstall.takeTrap (trapIL 6 8) 0 1) :=
  congrArg Host.Outcome.next (State.issueOn_of_limit (by rw [hh.limits, if_pos hform]) _ _ _)

/-- An S word that reads its operands, and whose own part then traps. -/
theorem issueS_read_trap {s : State} {op : SOp} {h : Hdr} {b : SBody} {x y z : Word} {t : Strand} {tr : Trap}
    {f : Word → Word → Word → Operation}
    (hr : Ready s (.s op h b) ∧ ∃ t1,
      (s.acting (.s op h b)).t.readOpds .s (immVal b.ty b.imm) (sSlots op h b) = .ok ([x, y, z], t1) ∧ t1.transport b = .ok t)
    (hop : f x y z (s.reading (.s op h b) t) = trapStop tr) (hp : tr.Plain) :
    issueS op h b f s = .next (s.unstall.takeTrap tr 0 1) :=
  issueS_trap hr.1 ((sOp_ok hr.2 f).trans hop) hp

/-- Settles O9: a bad frame is refused by the form's check; the other traps are those of `callOp` and `retOp` above, in the order of
their tests; a return that may read its link word is O8's. -/
theorem callAndReturnTraps : Obligations.CallAndReturnTraps := by
  intro s h b x y z t f ssp n traps reads bad far r link back returned
  have hform : bad → frameBad (frameOf b) = true := frameBad_iff.mpr
  have haf := trapAF_plain
  have ht (op : SOp) : (s.reading (.s op h b) t).t = t := State.reading_t ..
  refine ⟨?callBad, ?callAlign, ?callFar, ?callBanks, ?callLimit, ?callrBad, ?callrAlign, ?callrFar, ?callrBanks, ?callrLimit,
    ?retAlign, ?retFar, ?ret⟩
  case callBad => exact fun hh hbad => (exec_call h b s).trans (hh.issueS_form (hform hbad) _)
  case callAlign => exact fun hr ha => (exec_call h b s).trans (issueS_read_trap hr (callOp_misaligned (ht _) f _ ha) (haf 4 0))
  case callFar => exact fun hr ha hfar => (exec_call h b s).trans (issueS_read_trap hr (callOp_outlying (ht _) _ ha hfar) (haf 3 3))
  case callBanks =>
    exact fun hr ha hnear hb => (exec_call h b s).trans (issueS_read_trap hr (callOp_unowned (ht _) _ ha hnear hb) (haf 3 3))
  case callLimit =>
    exact fun hr ha hnear hb hlow => (exec_call h b s).trans (issueS_read_trap hr (callOp_belowLimit (ht _) _ ha hnear hb hlow) trapSL_plain)
  case callrBad => exact fun hh hbad => (exec_callr h b s).trans (hh.issueS_form (hform hbad) _)
  case callrAlign => exact fun hr ha => (exec_callr h b s).trans (issueS_read_trap hr (callOp_misaligned (ht _) f _ ha) (haf 4 0))
  case callrFar => exact fun hr ha hfar => (exec_callr h b s).trans (issueS_read_trap hr (callOp_outlying (ht _) _ ha hfar) (haf 3 3))
  case callrBanks =>
    exact fun hr ha hnear hb => (exec_callr h b s).trans (issueS_read_trap hr (callOp_unowned (ht _) _ ha hnear hb) (haf 3 3))
  case callrLimit =>
    exact fun hr ha hnear hb hlow => (exec_callr h b s).trans (issueS_read_trap hr (callOp_belowLimit (ht _) _ ha hnear hb hlow) trapSL_plain)
  case retAlign => exact fun hr ha => (exec_ret h b s).trans (issueS_read_trap hr (retOp_misaligned (ht _) ha) (haf 4 0))
  case retFar => exact fun hr ha hfar => (exec_ret h b s).trans (issueS_read_trap hr (retOp_outlying (ht _) ha hfar) (haf 3 3))
  case ret =>
    obtain ⟨-, -, -, -, hret⟩ := branchCallAndReturnComplete s h b x y z t
    exact hret

end Sys2Proof.Machine

/-! PROOFS. Events of a strand's own time (R24 to R30, R38, R59, R60, R139, R181, R191, R205, R245, R295, R336): landings and what
their effects leave of the context, interrupts, watchdogs, and writes that waited. -/

namespace Sys2Proof.Machine

/-! Effects of landings (R25, R35, R59). -/

/-- A replacement that is in range is one by number. -/
theorem set_eq_vset {α : Type} {n i : Nat} (hi : i < n) (v : Vector α n) (x : α) : v.set i x hi = vset v i x := by
  unfold vset
  ext j hj
  rw [Vector.getElem_set, Vector.getElem_setIfInBounds]

theorem Strand.pred_applyEff (t : Strand) (n : Fin 16) (b : Bool) (m : Nat) :
    (t.applyEff false (.pred n b)).pred m = vget (vset t.ctx.p n.val b) m false :=
  congrArg (vget · m false) (set_eq_vset n.isLt t.ctx.p b)

/-- Settles O31: an effect changes the one register that its constructor names; read back, that is the vector's law. -/
theorem latchesKeepApart : Obligations.LatchesKeepApart := by
  intro t v n b c
  refine ⟨rfl, rfl, rfl, rfl, rfl, rfl, rfl, rfl, fun _ => ⟨rfl, rfl, rfl, rfl⟩, ?lf, ?lfOther, ?pred, ?predOther, ?region, ?tcfg⟩
  case lf => exact Vector.getElem_set_self n.isLt
  case lfOther => exact fun m hm => Vector.getElem_set_ne n.isLt m.isLt fun h => hm (Fin.ext h.symm)
  case pred => rw [Strand.pred_applyEff, vget_vset_self n.isLt]
  case predOther =>
    intro m hm
    rw [Strand.pred_applyEff, vget_vset_ne hm.symm]
    rfl
  case region => exact Vector.getElem_set_self n.isLt
  case tcfg => exact Vector.getElem_set_self n.isLt

/-! Landings (R24 to R27). -/

section
variable {s : State} {l : Landing}

/-- A landing that waits neither for a receive nor for a row leaves its list and makes its own effects alone. -/
theorem State.land_inPlace (hrecv : ∀ k, l.wait ≠ .recv k) (hrow : ∀ a b c, l.wait ≠ .row a b c) :
    s.land l =
      let r := (s.upd fun t => t.takeLanding l).applyEffs s.t.frozen l.effs
      (r.1.upd fun t => t.setFlags (fOr l.flags r.2)).raise l.spost := by
  unfold State.land
  cases hw : l.wait with
  | recv k => exact absurd hw (hrecv k)
  | row a b c => exact absurd hw (hrow a b c)
  | none | data | scratch | fence | barrier | flush | channel => simp only [List.append_nil]

theorem State.packetStruck_inPlace (hrecv : ∀ k, l.wait ≠ .recv k) : s.packetStruck l = false := by
  unfold State.packetStruck
  cases hw : l.wait with
  | recv k => exact absurd hw (hrecv k)
  | none | data | scratch | fence | barrier | flush | channel | row => rfl

variable {k : LandKind}

/-- Nothing lands while something due has not come. -/
theorem State.landNext_waiting (h : ∃ m ∈ s.t.dueLandings, s.landingReady m = false) : s.landNext k = s := by
  obtain ⟨m, hm, hnot⟩ := h
  have hall : ¬ s.t.dueLandings.all s.landingReady = true := fun hall => by
    rw [List.all_eq_true.mp hall m hm] at hnot
    cases hnot
  exact if_neg hall

variable (hfirst : firstIssued s.t.dueLandings = some l) (hready : ∀ m ∈ s.t.dueLandings, s.landingReady m = true)
include hfirst hready

theorem State.landNext_otherKind (hk : l.kind ≠ k) : s.landNext k = s := by
  unfold State.landNext
  simp only [List.all_eq_true.mpr hready, hfirst, if_true, if_neg hk]

theorem State.landNext_ofKind (hk : l.kind = k) (hstruck : s.packetStruck l = false) : s.landNext k = s.land l := by
  unfold State.landNext
  simp only [List.all_eq_true.mpr hready, hfirst, if_true, if_pos hk, hstruck, Bool.false_eq_true, if_false]

end

section
variable (x : Nat) (s : State)

theorem exec_landing : exec (.landing x) s = .next (({ s with cur := x } : State).landNext .word) := rfl
theorem exec_streamGroupWrite : exec (.streamGroupWrite x) s = .next (({ s with cur := x } : State).landNext .group) := rfl
theorem exec_matrixDelivery : exec (.matrixDelivery x) s = .next (({ s with cur := x } : State).landNext .matrix) := rfl

end

/-- Settles O30: the three events are `State.landNext` of their kind, whose cases are above; a landing taken from its list is
`State.land_inPlace`. -/
theorem landingsTakeEffect : Obligations.LandingsTakeEffect := by
  intro s x l u due rest r landed first inPlace
  have lands {k : LandKind} (hf : first) (hp : inPlace) (hk : l.kind = k) : u.landNext k = landed :=
    (State.landNext_ofKind hf.1 hf.2 hk (State.packetStruck_inPlace hp.1)).trans (State.land_inPlace hp.1 hp.2)
  refine ⟨?word, ?group, ?matrix, ?other, ?waiting⟩
  case word => exact fun hf hp hk => (exec_landing x s).trans (congrArg _ (lands hf hp hk))
  case group => exact fun hf hp hk => (exec_streamGroupWrite x s).trans (congrArg _ (lands hf hp hk))
  case matrix => exact fun hf hp hk => (exec_matrixDelivery x s).trans (congrArg _ (lands hf hp hk))
  case other => exact fun hf hk => (exec_landing x s).trans (congrArg _ (State.landNext_otherKind hf.1 hf.2 hk))
  case waiting =>
    intro hw
    have stays (k : LandKind) : u.landNext k = u := State.landNext_waiting hw
    exact ⟨(exec_landing x s).trans (congrArg _ (stays _)), (exec_streamGroupWrite x s).trans (congrArg _ (stays _)),
      (exec_matrixDelivery x s).trans (congrArg _ (stays _))⟩

/-! Interrupts (R38). -/

/-- The lowest pending interrupt. -/
theorem Strand.pendingInt_eq (t : Strand) :
    t.pendingInt = if t.ctx.inten.getLsbD (7 + 1) = true then some 1 else if t.ctx.inten.getLsbD (7 + 2) = true then some 2
      else if t.ctx.inten.getLsbD (7 + 3) = true then some 3 else none := by
  unfold Strand.pendingInt
  simp only [List.find?_cons, List.find?_nil]
  cases t.ctx.inten.getLsbD (7 + 1) with
  | true => rfl
  | false =>
    cases t.ctx.inten.getLsbD (7 + 2) with
    | true => rfl
    | false => cases t.ctx.inten.getLsbD (7 + 3) <;> rfl

/-- The interrupt that is taken, its DETAIL the signal's number of `IN 2`. -/
theorem execInterruptTaken_of_pending {s : State} {x k : Nat} (hk : (s.strandAt x).pendingInt = some k) :
    execInterruptTaken x s =
      .next (({ s with cur := x } : State).takeInterrupt k (if k = 2 then (s.strandAt x).signal else 0)
        (if (s.strandAt x).stall.isSome ∨ (s.strandAt x).back = true then (s.strandAt x).micro else 0)) := by
  have ht : ({ s with cur := x } : State).t = s.strandAt x := rfl
  unfold execInterruptTaken
  simp only [ht, hk, Bool.or_eq_true]

/-! Writes that waited for the boundary (R60, R245). -/

/-- Writes of agents that are no strand are applied in their order of arrival. -/
theorem State.flushDeferred_of_foreign {s : State} (h : ∀ w ∈ s.t.deferred, w.src = none ∧ w.rmw = none) :
    s.flushDeferred =
      { s.t.deferred.foldl (fun s w => s.windowApply s.t.rights s.core w.off w.bs) (s.upd fun t => { t with deferred := [] }) with
        cur := s.cur } := by
  have happly : s.t.deferred.foldl (fun s w => s.applyWaiting w) (s.upd fun t => { t with deferred := [] }) =
      s.t.deferred.foldl (fun s w => s.windowApply s.t.rights s.core w.off w.bs) (s.upd fun t => { t with deferred := [] }) :=
    List.foldl_ext _ _ _ fun u w hw => by simp only [State.applyWaiting, (h w hw).2]
  unfold State.flushDeferred
  simp only [happly]
  rw [List.foldl_ext _ (fun u _ => u) _ fun u w hw => by simp only [(h w hw).1], List.foldl_fixed]

/-- Settles O33: each event is its definition in the case that its clause names; an interrupt is `execInterruptTaken_of_pending`, the
writes that waited `State.flushDeferred_of_foreign`. -/
theorem strandEventsTakeEffect : Obligations.StrandEventsTakeEffect := by
  intro s x src id core off n val c since a tr u t come read pending place held interrupted
  have ht : u.t = t := rfl
  have hint : t.pendingInt = if pending 1 = true then some 1 else if pending 2 = true then some 2
      else if pending 3 = true then some 3 else none := t.pendingInt_eq
  refine ⟨rfl, ?halt, rfl, ?int1, ?int2, ?int3, ?stalled, ?region, rfl, ?rephase, ?deferred, ?write, rfl, ?held⟩
  case halt =>
    intro hheld
    show Host.Outcome.next (if s.held x then s.setStrand x (t.fire 1) else s) = _
    rw [if_pos hheld]
    rfl
  case int1 =>
    intro h1
    rw [h1, if_pos rfl] at hint
    exact execInterruptTaken_of_pending hint
  case int2 =>
    intro h1 h2
    rw [h1, h2, if_neg Bool.false_ne_true, if_pos rfl] at hint
    exact execInterruptTaken_of_pending hint
  case int3 =>
    intro h1 h2 h3
    rw [h1, h2, h3, if_neg Bool.false_ne_true, if_neg Bool.false_ne_true, if_pos rfl] at hint
    exact execInterruptTaken_of_pending hint
  case stalled =>
    intro hs hlong
    show execStallWatchdogExpiry x s = _
    unfold execStallWatchdogExpiry
    simp only [show ({ s with cur := x } : State).t = t from rfl, hs, if_pos hlong]
    rfl
  case region => exact fun hlong => congrArg _ (if_pos hlong)
  case rephase => exact fun hend => congrArg _ (if_pos hend)
  case deferred => exact fun hw => congrArg _ (State.flushDeferred_of_foreign (s := u) hw)
  case write =>
    intro hcore hoff hrst
    have hin : ¬ (256 ≤ core ∨ 0x200000 < off + n) := by omega
    show execWindowWrite core off n val s = _
    unfold execWindowWrite
    rw [if_neg hin, hrst, if_neg Bool.false_ne_true]
  case held =>
    intro ha htr
    have hqueue : (if a.eng = .m then 3 else if a.eng = .c then 4 else a.eng.num) = a.eng.num := by
      cases a.eng <;> rfl
    show execHeldCommandTrap x s = _
    unfold execHeldCommandTrap
    simp only [show ({ s with cur := x } : State) = u from rfl, ha, htr, hqueue]
    rfl

end Sys2Proof.Machine

/-! PROOFS. One step (R1, R22, R23, R34, R87, R307, R323): whose turn it is, and the word or the event that it then is. -/

namespace Sys2Proof.Machine

/-! Events. -/

/-- An event that names an instruction is that instruction's meaning. -/
theorem execEv_eq_exec {i : Instr} {ev : Ev} (h : eventIs i ev) (s : State) : execEv ev s = exec i s := by
  cases ev
  case hostMemory | compositorWrite | peerMemory | peerWrite | peerQuads | peerHold | peerRelease | registerRead | msixControl =>
    exact absurd h id
  all_goals exact congrArg (exec · s) (Eq.symm h)

theorem step_of_event {s u : State} {i : Instr} {ev : Ev} (hplan : s.plan = .event ev u) (h : eventIs i ev) : step s = exec i u := by
  unfold step
  rw [hplan]
  exact execEv_eq_exec h u

theorem step_of_word {s u : State} {i : Instr} (hplan : s.plan = .word i u) : step s = exec i u := by
  unfold step
  rw [hplan]

theorem step_of_goOn {s u : State} (hplan : s.plan = .goOn u) : step s = .next u := by
  unfold step
  rw [hplan]

/-! An engine's place (R20, R22, R23, R87). -/

theorem Eng.ofNum_num (e : Eng) : Eng.ofNum (e.num + 1 - 1) = some e := by cases e <;> rfl

/-- The strand runs, it is the engine's turn in the strand cycle, and its queue owes no opportunity before its word. -/
structure State.EngineDue (u : State) (e : Eng) : Prop where
  mode : u.t.mode = .run
  stall : u.t.stall = none
  back : u.t.back = false
  micro : u.t.micro = e.num + 1
  come : u.placeOffset e ≤ u.t.offset
  reads : u.readsBefore u.cur (e.num + 1) = none
  running : (u.t.ctl e).halted = false
  owes : u.stillOwed (u.t.ctl e) = 0

namespace State.EngineDue

variable {u : State} {e : Eng} (hd : u.EngineDue e)
include hd

/-- At an engine's place, its chip cycle come and all that reads before it done, the strand does what the engine does. -/
theorem strandPlan_eq : u.strandPlan = u.enginePlace e := by
  have hfree : u.t.frozen = false := by rw [Strand.frozen, hd.mode]; rfl
  have hcome : u.timedPlace e = u.enginePlace e := if_neg (Nat.not_lt.mpr hd.come)
  have hplace : e.num + 1 ≠ 7 ∧ e.num + 1 ≠ 8 ∧ e.num + 1 ≠ 9 := by cases e <;> decide
  unfold State.strandPlan
  simp only [hd.stall, hfree, hd.micro, hd.back, Bool.false_eq_true, if_false, Option.isSome_none, Bool.or_false, Bool.false_and]
  split
  case h_1 h => exact absurd h (Nat.succ_ne_zero _)
  case h_2 h => exact absurd h hplace.1
  case h_3 h => exact absurd h hplace.2.1
  case h_4 h => exact absurd h hplace.2.2
  case h_5 => simp only [hd.reads, Eng.ofNum_num, hcome]

theorem strandPlan_word {i : Instr} (hi : u.decodeNext e = .ok i) : u.strandPlan = .word i u := by
  rw [hd.strandPlan_eq, State.enginePlace]
  simp only [hd.running, Bool.false_eq_true, if_false, hd.owes, if_true, hi]

/-- A word that decodes to none takes its trap. -/
theorem strandPlan_undecoded {d : DecErr} (hi : u.decodeNext e = .error d) :
    u.strandPlan = .goOn (u.unstall.takeTrap (trapIL d.n d.detail) e.num (e.num + 1)) := by
  rw [hd.strandPlan_eq, State.enginePlace]
  simp only [hd.running, Bool.false_eq_true, if_false, hd.owes, if_true, hi, u.conclude_plain e (trapIL_plain d.n d.detail)]

end State.EngineDue

/-! Whose turn it is (R1, R2, R307, R323). -/

section
variable {s : State}

/-- What `focus` names goes ahead of everything. -/
theorem State.plan_of_focus {x : Nat} (hf : s.focus = some x) (hx : x < 4096) :
    s.plan = ({ s with focus := none, cur := x } : State).strandPlan := by
  unfold State.plan
  simp only [hf, if_pos hx]

theorem State.plan_of_prologue (hf : s.focus = some 4096) : s.plan = ({ s with focus := none } : State).runPlan := by
  unfold State.plan
  simp only [hf, Nat.lt_irrefl, if_false]

theorem State.plan_of_noFocus (hf : s.focus = none) : s.plan = s.turn := by
  unfold State.plan
  simp only [hf]

theorem State.turn_of_input {ev : Ev} {rest : List Ev} (hin : s.inputs = ev :: rest) (hfree : s.hostQueued ev = false) :
    s.turn = ({ s with inputs := rest } : State).eventTurn ev := by
  unfold State.turn
  simp only [hin, hfree, Bool.false_eq_true, if_false]

/-- An access of the host waits behind one of its function that is held (R323). -/
theorem State.turn_of_heldInput {ev : Ev} {rest : List Ev} (hin : s.inputs = ev :: rest) (hheld : s.hostQueued ev = true) :
    s.turn = .goOn { s with inputs := rest, dev := { s.dev with hostWait := s.dev.hostWait ++ [ev] } } := by
  unfold State.turn
  simp only [hin, hheld, if_true]

/-- With no input, doorbell or timed write, the turn is the agenda's, the prologues' or the strands'. -/
theorem State.turn_of_idle (hin : s.inputs = []) (hbells : s.dev.bells = []) (hbank : s.nextBank = none) :
    s.turn = s.mainTurn s.sortedAgenda := by
  unfold State.turn State.cycleTurn
  simp only [hin, hbells, hbank, Option.filter_none]

theorem State.sortedAgenda_nil (ha : s.agenda = []) : s.sortedAgenda = [] := by
  unfold State.sortedAgenda
  rw [ha]

theorem State.sortedAgenda_singleton {e : Nat × Ev} (ha : s.agenda = [e]) : s.sortedAgenda = [e] := by
  unfold State.sortedAgenda
  simp only [ha, firstPlaced, if_true]

/-- A strand that has the turn to itself takes it. -/
theorem State.mainTurn_of_strand {x at_ : Nat} (hrun : s.nextRun = none) (hx : s.nextStrand = some (x, at_)) :
    s.mainTurn [] = ({ s with now := Nat.max s.now at_, cur := x } : State).strandPlan := by
  unfold State.mainTurn State.workTurn
  simp only [hrun, hx]
  rfl

theorem State.mainTurn_of_event {at_ : Nat} {ev : Ev} {rest : List (Nat × Ev)} (hw : s.workTurn = none) :
    s.mainTurn ((at_, ev) :: rest) = ({ s with now := Nat.max s.now at_, agenda := rest } : State).eventTurn ev := by
  unfold State.mainTurn
  simp only [hw]
  rfl

section
variable {p : Prologue} {w : Nat} (hrun : s.run = some p) (hsteps : p.steps < 4096) (hw : p.words[p.pc]? = some w)
include hrun hsteps hw

/-- The word of a prologue that has taken fewer than 4,096 steps (R307). -/
theorem State.runPlan_word {i : Instr} (hi : decodeStick w = some i) : s.runPlan = .word i s := by
  unfold State.runPlan
  simp only [hrun, if_neg (Nat.not_le.mpr hsteps), hw, Option.bind_some, hi]

theorem State.runPlan_undecoded (hi : decodeStick w = none) : s.runPlan = .goOn (s.runFault p 0) := by
  unfold State.runPlan
  simp only [hrun, if_neg (Nat.not_le.mpr hsteps), hw, Option.bind_some, hi]

end

end

/-- Settles O60: the plan of a step is found by whose turn it is; at an engine's place it is `State.EngineDue`'s, and an event is
carried out as `execEv_eq_exec` says. -/
theorem stepRunsDecodedWord : Obligations.StepRunsDecodedWord := by
  intro s x at_ e i d p w ev rest due seen named turned alone trapped stick running
  have engine {u : State} (hd : due u) : u.EngineDue e := by
    obtain ⟨hmode, hstall, hback, hmicro, hcome, hreads, hrunning, howes⟩ := hd
    exact ⟨hmode, hstall, hback, hmicro, hcome, hreads, hrunning, howes⟩
  have aloneTurn (ha : alone) : s.plan = turned.strandPlan := by
    obtain ⟨hf, hin, hagenda, hbells, hbank, hrun, hx⟩ := ha
    rw [State.plan_of_noFocus hf, State.turn_of_idle hin hbells hbank, State.sortedAgenda_nil hagenda, State.mainTurn_of_strand hrun hx]
  refine ⟨?named, ?namedTrap, ?turned, ?turnedTrap, ?stick, ?stickFault, ?input, ?held, ?agenda⟩
  case named => exact fun hf hx hd hi => step_of_word ((State.plan_of_focus hf hx).trans ((engine hd).strandPlan_word hi))
  case namedTrap => exact fun hf hx hd hi => step_of_goOn ((State.plan_of_focus hf hx).trans ((engine hd).strandPlan_undecoded hi))
  case turned => exact fun ha hd hi => step_of_word ((aloneTurn ha).trans ((engine hd).strandPlan_word hi))
  case turnedTrap => exact fun ha hd hi => step_of_goOn ((aloneTurn ha).trans ((engine hd).strandPlan_undecoded hi))
  case stick =>
    intro hr hi
    obtain ⟨hf, hrun, hsteps, hw⟩ := hr
    exact step_of_word ((State.plan_of_prologue hf).trans (State.runPlan_word (s := stick) hrun hsteps hw hi))
  case stickFault =>
    intro hr hi
    obtain ⟨hf, hrun, hsteps, hw⟩ := hr
    exact step_of_goOn ((State.plan_of_prologue hf).trans (State.runPlan_undecoded (s := stick) hrun hsteps hw hi))
  case input => exact fun hf hin hfree hev => step_of_event ((State.plan_of_noFocus hf).trans (State.turn_of_input hin hfree)) hev
  case held => exact fun hf hin hheld => step_of_goOn ((State.plan_of_noFocus hf).trans (State.turn_of_heldInput hin hheld))
  case agenda =>
    intro hf hin hagenda hbells hbank hw hev
    refine step_of_event (ev := ev) ?_ hev
    rw [State.plan_of_noFocus hf, State.turn_of_idle hin hbells hbank, State.sortedAgenda_singleton hagenda, State.mainTurn_of_event hw]
    rfl

end Sys2Proof.Machine

/-! PROOFS. What a trap saves, where it goes, and what it leaves alone (R34 to R37, R40, R297). -/

namespace Sys2Proof.Machine

/-! What recording, freezing and suspending leave alone. -/

/-- Of `s`, `u` keeps what the strand acted on has under way, the memories, the cores, and of other strands all but their holds. -/
structure State.Untouched (s u : State) : Prop where
  pend : u.t.pend = s.t.pend
  mpend : u.t.mpend = s.t.mpend
  streams : u.t.streams = s.t.streams
  pins : u.t.pins = s.t.pins
  asyncs : u.t.asyncs = s.t.asyncs
  mem : ∀ sp, u.mem sp = s.mem sp
  poison : ∀ sp, u.poison sp = s.poison sp
  cores : u.cores = s.cores
  others : ∀ y, y ≠ s.cur → ∃ l, u.strandAt y = { s.strandAt y with holds := l }

namespace State.Untouched

theorem trans {s v u : State} (hv : s.Untouched v) (hcur : v.cur = s.cur) (hu : v.Untouched u) : s.Untouched u where
  pend := hu.pend.trans hv.pend
  mpend := hu.mpend.trans hv.mpend
  streams := hu.streams.trans hv.streams
  pins := hu.pins.trans hv.pins
  asyncs := hu.asyncs.trans hv.asyncs
  mem sp := (hu.mem sp).trans (hv.mem sp)
  poison sp := (hu.poison sp).trans (hv.poison sp)
  cores := hu.cores.trans hv.cores
  others y hy := by
    obtain ⟨l, hl⟩ := hv.others y hy
    obtain ⟨k, hk⟩ := hu.others y (hcur ▸ hy)
    exact ⟨k, by rw [hk, hl]⟩

/-- A change that leaves the strands alone. -/
theorem of_strands {s u : State} (hstrands : u.strands = s.strands) (hcur : u.cur = s.cur) (hcores : u.cores = s.cores)
    (hmem : ∀ sp, u.mem sp = s.mem sp) (hpoison : ∀ sp, u.poison sp = s.poison sp) : s.Untouched u := by
  have hat (y : Nat) : u.strandAt y = s.strandAt y := by rw [State.strandAt, hstrands, State.strandAt]
  have ht : u.t = s.t := by rw [State.t, hcur, hat, State.t]
  exact { pend := by rw [ht], mpend := by rw [ht], streams := by rw [ht], pins := by rw [ht], asyncs := by rw [ht], mem := hmem
          poison := hpoison, cores := hcores, others := fun y _ => ⟨(s.strandAt y).holds, hat y⟩ }

/-- A change of the strand acted on that leaves alone what it has under way. -/
theorem upd {s : State} {f : Strand → Strand} (hpend : (f s.t).pend = s.t.pend) (hmpend : (f s.t).mpend = s.t.mpend)
    (hstreams : (f s.t).streams = s.t.streams) (hpins : (f s.t).pins = s.t.pins) (hasyncs : (f s.t).asyncs = s.t.asyncs) :
    s.Untouched (s.upd f) where
  pend := by rw [State.t_upd, hpend]
  mpend := by rw [State.t_upd, hmpend]
  streams := by rw [State.t_upd, hstreams]
  pins := by rw [State.t_upd, hpins]
  asyncs := by rw [State.t_upd, hasyncs]
  mem sp := by cases sp <;> rfl
  poison sp := by cases sp <;> rfl
  cores := rfl
  others y hy := ⟨(s.strandAt y).holds, State.strandAt_upd_ne s hy f⟩

theorem updCtx (s : State) (f : Ctx → Ctx) : s.Untouched (s.upd fun t => t.updCtx f) := upd rfl rfl rfl rfl rfl

theorem tick (s : State) : s.Untouched s.tick :=
  of_strands rfl rfl rfl (fun sp => by cases sp <;> rfl) (fun sp => by cases sp <;> rfl)

theorem recordTrap (s : State) (w : Word) : s.Untouched (s.recordTrap w) := upd rfl rfl rfl rfl rfl

theorem noteEc (s : State) (tr : Trap) (v : Nat) : s.Untouched (s.noteEc tr v) := by
  obtain ⟨hstrands, hcur, hcores, -, hmem, hpoison⟩ := s.noteEc_keeps tr v
  exact of_strands hstrands hcur hcores hmem hpoison

theorem logHostFault (s : State) (tr : Trap) (queue : Nat) : s.Untouched (s.logHostFault tr queue) := by
  obtain ⟨hstrands, hcur, hcores, -, hmem, hpoison⟩ := s.logHostFault_keeps tr queue
  exact of_strands hstrands hcur hcores hmem hpoison

theorem announceHold (s : State) : s.Untouched s.announceHold := by
  obtain ⟨ht, hothers, hrest, -⟩ := s.announceHold_spec
  have hmem (sp : Space) : s.announceHold.mem sp = s.mem sp := by
    have h := congrArg (State.mem · sp) hrest
    cases sp <;> exact h
  have hpoison (sp : Space) : s.announceHold.poison sp = s.poison sp := by
    have h := congrArg (State.poison · sp) hrest
    cases sp <;> exact h
  have hcores : s.announceHold.cores = s.cores := by
    have h := congrArg State.cores hrest
    exact h
  exact { pend := by rw [ht], mpend := by rw [ht], streams := by rw [ht], pins := by rw [ht], asyncs := by rw [ht], mem := hmem
          poison := hpoison, cores := hcores, others := hothers }

theorem freeze (s : State) (pos : Nat) : s.Untouched (s.freeze pos) := by
  have hcur : s.announceHold.cur = s.cur := by
    obtain ⟨-, -, hrest, -⟩ := s.announceHold_spec
    have h := congrArg State.cur hrest
    exact h
  exact ((announceHold s).trans hcur (upd rfl rfl rfl rfl rfl)).trans hcur (tick _)

theorem suspend (s : State) (tr : Trap) (queue pos : Nat) : s.Untouched (s.suspend tr queue pos) := by
  obtain ⟨ht, hothers, hcores, hmem, hpoison, -⟩ := s.suspend_keeps tr queue pos
  exact { pend := by rw [ht], mpend := by rw [ht], streams := by rw [ht], pins := by rw [ht], asyncs := by rw [ht], mem := hmem
          poison := hpoison, cores := hcores, others := hothers }

end State.Untouched

/-! The three ways that a trap goes (R34, R35). -/

/-- The trap that a trap inside a handler becomes (R34). -/
def Trap.inHandler (tr : Trap) : Trap :=
  { cls := ascii2 'H' 'X', num := 1, detail := (tr.cls * 256 + tr.num) % 65536, recDetail := some (tr.cls * 256 + tr.num) }

/-- The state in which a strand whose handler traps is suspended: `EC 1` and a host fault are noted, `trc` names `HX 1`. -/
def State.handlerTrapped (s : State) (tr : Trap) (queue : Nat) : State :=
  ((s.noteEc tr s.t.vf).logHostFault tr queue).upd fun t =>
    t.updCtx fun c => { c with trc := trcOf (ascii2 'H' 'X') 1 tr.inHandler.detail queue false false }

section
variable {s : State} (tr : Trap) (queue pos : Nat)

theorem State.takeTrap_inHandler (hf : s.t.frozen = true) :
    s.takeTrap tr queue pos = (s.handlerTrapped tr queue).suspend tr.inHandler queue s.t.micro := if_pos hf

theorem State.takeTrap_freezes (hf : s.t.frozen = false) (hs : tr.suspends = false) :
    s.takeTrap tr queue pos = (s.recordTrap (trcOf tr.cls tr.num tr.detail queue false tr.dbg)).freeze pos := by
  simp only [State.takeTrap, hf, hs, Bool.false_eq_true, if_false]

theorem State.takeTrap_suspends (hf : s.t.frozen = false) (hs : tr.suspends = true) :
    s.takeTrap tr queue pos = (s.recordTrap (trcOf tr.cls tr.num tr.detail queue false tr.dbg)).suspend tr queue pos := by
  simp only [State.takeTrap, hf, hs, Bool.false_eq_true, if_false, if_true]

end

/-- The strand's own state changes by `trc` alone as its handler's trap is noted. -/
theorem State.handlerTrapped_t (s : State) (tr : Trap) (queue : Nat) :
    (s.handlerTrapped tr queue).t =
      { s.t with ctx := { s.t.ctx with trc := trcOf (ascii2 'H' 'X') 1 tr.inHandler.detail queue false false } } := by
  obtain ⟨hstrands, hcur, -⟩ := s.noteEc_keeps tr s.t.vf
  obtain ⟨hstrands', hcur', -⟩ := (s.noteEc tr s.t.vf).logHostFault_keeps tr queue
  have ht : ((s.noteEc tr s.t.vf).logHostFault tr queue).t = s.t := by
    rw [State.t, State.strandAt, hstrands', hstrands, hcur', hcur, State.t, State.strandAt]
  rw [State.handlerTrapped, State.t_upd, ht]
  rfl

theorem State.handlerTrapped_cur (s : State) (tr : Trap) (queue : Nat) : (s.handlerTrapped tr queue).cur = s.cur :=
  ((s.noteEc tr s.t.vf).logHostFault_keeps tr queue).2.1.trans (s.noteEc_keeps tr s.t.vf).2.1

theorem State.Untouched.handlerTrapped (s : State) (tr : Trap) (queue : Nat) : s.Untouched (s.handlerTrapped tr queue) :=
  ((State.Untouched.noteEc s tr s.t.vf).trans (s.noteEc_keeps tr s.t.vf).2.1 (State.Untouched.logHostFault _ tr queue)).trans
    (s.handlerTrapped_cur tr queue) (State.Untouched.updCtx ..)

/-- Whichever way a trap goes. -/
theorem State.Untouched.takeTrap (s : State) (tr : Trap) (queue pos : Nat) : s.Untouched (s.takeTrap tr queue pos) := by
  cases hf : s.t.frozen with
  | true =>
    rw [State.takeTrap_inHandler tr queue pos hf]
    exact (State.Untouched.handlerTrapped s tr queue).trans (s.handlerTrapped_cur tr queue) (State.Untouched.suspend ..)
  | false =>
    cases hs : tr.suspends with
    | true =>
      rw [State.takeTrap_suspends tr queue pos hf hs]
      exact (State.Untouched.recordTrap s _).trans rfl (State.Untouched.suspend ..)
    | false =>
      rw [State.takeTrap_freezes tr queue pos hf hs]
      exact (State.Untouched.recordTrap s _).trans rfl (State.Untouched.freeze ..)

/-- A queue whose word is read keeps its length. -/
theorem State.hasRead_len (s : State) (c : QCtl) : (s.hasRead c).len = c.len := by
  unfold State.hasRead State.latched
  split <;> [split <;> rfl; rfl]

/-- A vector made by numbers, by number. -/
theorem vget_ofFn {α : Type} {n : Nat} (f : Fin n → α) (i : Fin n) (d : α) : vget (Vector.ofFn f) i.val d = f i := by
  simp [vget]

/-- Of the context, what is recorded of a trap (R36, R37). -/
theorem State.recordTrap_ctx (s : State) (w : Word) :
    (s.recordTrap w).t.ctx =
      { s.t.ctx with
        trc := w, trs := BitVec.ofNat 64 s.t.ctx.sclk
        tq := Vector.ofFn fun e : Fin 6 => s.resumePoint (vget s.t.queues e.val {}) } := by
  rw [State.recordTrap_t]

/-- What a freeze makes of the strand (R35). -/
theorem State.freeze_spec (s : State) (pos : Nat) :
    let u := (s.freeze pos).t
    u.mode = .frozen ∧ u.micro = 0 ∧ u.resumeAt = pos ∧ u.hpend = [] ∧ u.hqueue.halted = false ∧
      u.hqueue.idx = s.t.ctx.tvec.toNat % (vget s.t.queues 0 {}).len ∧ u.ctx = { s.t.ctx with hclk := 0 } := by
  obtain ⟨ht, -⟩ := s.announceHold_spec
  unfold State.freeze
  rw [State.tick_t, State.t_upd, ht]
  exact ⟨rfl, rfl, rfl, rfl, rfl, rfl, rfl⟩

/-- What a suspension makes of the strand, and what it reports (R35, R361). -/
theorem State.suspend_spec (s : State) (tr : Trap) (queue pos : Nat) :
    let u := s.suspend tr queue pos
    u.t.mode = .suspended ∧ u.t.resumeAt = pos ∧ u.t.suspendedBy = some tr ∧ u.t.ctx = s.t.ctx ∧
      ∃ r ∈ u.dev.reports, r.vf = s.t.vf ∧ r.orig = origOf s.cur ∧ r.cls = tr.cls ∧ r.num = tr.num ∧
        r.detail = tr.recDetail.getD tr.detail := by
  obtain ⟨ht, -, -, -, -, hreport⟩ := s.suspend_keeps tr queue pos
  dsimp only
  rw [ht]
  exact ⟨rfl, rfl, rfl, rfl, hreport⟩

/-- Recording a trap keeps the length of the ring of the S queue. -/
theorem State.recordTrap_queue_len (s : State) (w : Word) :
    (vget (s.recordTrap w).t.queues 0 {}).len = (vget s.t.queues 0 {}).len := by
  rw [State.recordTrap_t]
  exact (congrArg QCtl.len (vget_ofFn _ (0 : Fin 6) _)).trans (s.hasRead_len _)

theorem State.recordTrap_vf (s : State) (w : Word) : (s.recordTrap w).t.vf = s.t.vf := by rw [State.recordTrap_t]

theorem State.handlerTrapped_ctx (s : State) (tr : Trap) (queue : Nat) :
    (s.handlerTrapped tr queue).t.ctx = { s.t.ctx with trc := trcOf (ascii2 'H' 'X') 1 tr.inHandler.detail queue false false } := by
  rw [State.handlerTrapped_t]

theorem State.handlerTrapped_vf (s : State) (tr : Trap) (queue : Nat) : (s.handlerTrapped tr queue).t.vf = s.t.vf := by
  rw [State.handlerTrapped_t]

/-! A context without what a trap writes. -/

section
variable {c d : Ctx} {trc trs : Word} {tq : Vector Word 6} {hclk : Nat}

theorem Ctx.eq_sans_trc (h : c = { d with trc := trc }) : { c with trc := d.trc } = d := by
  subst h
  rfl

theorem Ctx.eq_sans_saved (h : c = { d with trc := trc, trs := trs, tq := tq }) :
    { c with trc := d.trc, trs := d.trs, tq := d.tq } = d := by
  subst h
  rfl

theorem Ctx.eq_sans_frozen (h : c = { d with trc := trc, trs := trs, tq := tq, hclk := hclk }) :
    { c with trc := d.trc, trs := d.trs, tq := d.tq, hclk := d.hclk } = d := by
  subst h
  rfl

end

/-- Settles O53: what stays is `State.Untouched.takeTrap`; what a freeze writes is `State.freeze_spec`, and what a suspension writes
and reports `State.suspend_spec`, of the state that has recorded the trap. -/
theorem trapFreezesOrSuspends : Obligations.TrapFreezesOrSuspends := by
  intro s tr queue pos t u c kept told hx
  refine ⟨?kept, ?freezes, ?suspends, ?handler⟩
  case kept =>
    have hu : s.Untouched u := State.Untouched.takeTrap s tr queue pos
    exact ⟨hu.pend, hu.mpend, hu.streams, hu.pins, hu.asyncs, hu.mem, hu.poison, hu.cores, hu.others⟩
  case freezes =>
    intro hf hs
    have hu : u = _ := State.takeTrap_freezes tr queue pos hf hs
    obtain ⟨hmode, hmicro, hresume, hpend, hhalted, hidx, hctx⟩ := State.freeze_spec (s.recordTrap _) pos
    rw [State.recordTrap_ctx] at hidx hctx
    rw [State.recordTrap_queue_len] at hidx
    rw [← hu] at hmode hmicro hresume hpend hhalted hidx hctx
    exact ⟨hmode, hmicro, hresume, hpend, hidx, hhalted, congrArg Ctx.trc hctx, congrArg Ctx.trs hctx, congrArg Ctx.hclk hctx,
      fun e => (congrArg (fun c : Ctx => c.tq[e]) hctx).trans (Vector.getElem_ofFn e.isLt), Ctx.eq_sans_frozen hctx⟩
  case suspends =>
    intro hf hs
    have hu : u = _ := State.takeTrap_suspends tr queue pos hf hs
    obtain ⟨hmode, hresume, hby, hctx, r, hr, hvf, hreport⟩ := State.suspend_spec (s.recordTrap _) tr queue pos
    rw [← hu] at hmode hresume hby hctx hr
    exact ⟨hmode, hresume, hby, Ctx.eq_sans_saved (hctx.trans (s.recordTrap_ctx _)), r, hr, hvf.trans (s.recordTrap_vf _), hreport⟩
  case handler =>
    intro hf
    have hu : u = _ := State.takeTrap_inHandler tr queue pos hf
    obtain ⟨hmode, -, -, hctx, r, hr, hvf, horig, hreport⟩ := State.suspend_spec (s.handlerTrapped tr queue) tr.inHandler queue s.t.micro
    rw [← hu] at hmode hctx hr
    rw [State.handlerTrapped_ctx] at hctx
    rw [State.handlerTrapped_cur] at horig
    exact ⟨hmode, congrArg Ctx.trc hctx, Ctx.eq_sans_trc hctx, r, hr, hvf.trans (s.handlerTrapped_vf tr queue), horig, hreport⟩

end Sys2Proof.Machine

/-! PROOFS. What S words whose result lands, `sts` and `sps` leave alone at their issue (R24, R43, R47, R112 to R121). -/

namespace Sys2Proof.Machine

/-! What the end of a word leaves alone. -/

/-- Of `s`, `u` keeps the memories, the device, the cores, and of every strand its context and its asynchronous accesses. -/
structure State.KeepsRest (s u : State) : Prop where
  cur : u.cur = s.cur
  mem : ∀ sp, u.mem sp = s.mem sp
  dev : u.dev = s.dev
  cores : u.cores = s.cores
  ctx : ∀ y, (u.strandAt y).ctx = (s.strandAt y).ctx
  asyncs : ∀ y, (u.strandAt y).asyncs = (s.strandAt y).asyncs

namespace State.KeepsRest

theorem refl (s : State) : s.KeepsRest s := ⟨rfl, fun _ => rfl, rfl, rfl, fun _ => rfl, fun _ => rfl⟩

theorem trans {s v u : State} (hv : s.KeepsRest v) (hu : v.KeepsRest u) : s.KeepsRest u where
  cur := hu.cur.trans hv.cur
  mem sp := (hu.mem sp).trans (hv.mem sp)
  dev := hu.dev.trans hv.dev
  cores := hu.cores.trans hv.cores
  ctx y := (hu.ctx y).trans (hv.ctx y)
  asyncs y := (hu.asyncs y).trans (hv.asyncs y)

theorem upd {s : State} {f : Strand → Strand} (hctx : (f s.t).ctx = s.t.ctx) (hasyncs : (f s.t).asyncs = s.t.asyncs) :
    s.KeepsRest (s.upd f) := by
  have hself : (s.upd f).strandAt s.cur = f s.t := State.strandAt_setStrand_self ..
  refine ⟨rfl, fun sp => by cases sp <;> rfl, rfl, rfl, fun y => ?_, fun y => ?_⟩ <;> by_cases hy : y = s.cur
  · rw [hy, hself]; exact hctx
  · rw [State.strandAt_upd_ne s hy]
  · rw [hy, hself]; exact hasyncs
  · rw [State.strandAt_upd_ne s hy]

theorem counted (s : State) (n : Nat) : s.KeepsRest (s.counted n) := by
  unfold State.counted
  split
  · exact refl s
  · exact upd rfl rfl

/-- An SPOST that waits for a landing raises nothing yet. -/
theorem settled {s : State} {b : Bool} {n : Nat} (h : n = 0 ∨ (b = false ∧ s.t.awaitsOwn = true)) : s.KeepsRest (s.settled b n) := by
  unfold State.settled
  by_cases hn : n = 0
  · rw [if_pos hn]
    exact refl s
  · obtain ⟨hb, hown⟩ := h.resolve_left hn
    rw [if_neg hn, if_pos (by rw [hb, hown]; rfl)]
    exact upd (by split <;> rfl) (by split <;> rfl)

theorem unstall (s : State) : s.KeepsRest s.unstall where
  cur := s.unstall_cur
  mem sp := by cases sp <;> simp only [State.mem, State.unstall_onchip, State.unstall_dram, State.unstall_host, State.unstall_peer]
  dev := s.unstall_dev
  cores := s.unstall_cores
  ctx := s.unstall_strandAt_ctx
  asyncs := s.unstall_strandAt_asyncs

section
variable {s u : State} (h : s.KeepsRest u)
include h

theorem t_ctx : u.t.ctx = s.t.ctx := by rw [State.t, h.cur, h.ctx, State.t]

theorem t_asyncs : u.t.asyncs = s.t.asyncs := by rw [State.t, h.cur, h.asyncs, State.t]

theorem coreAt (k : Nat) : u.coreAt k = s.coreAt k := by rw [State.coreAt, h.cores, State.coreAt]

theorem sem (k n : Nat) : u.sem k n = s.sem k n := by rw [State.sem, h.coreAt, State.sem]

end

end State.KeepsRest

/-- A word that raises no SPOST at its issue. -/
theorem Done.after_keepsRest {d : Done} {v : View} (hown : d.own = false)
    (h : v.hdr.spost.val = 0 ∨ (d.atIssue = false ∧ d.s.t.awaitsOwn = true)) : d.s.KeepsRest (d.after v) := by
  have hawaits : (d.s.counted (d.hints v)).t.awaitsOwn = d.s.t.awaitsOwn := by
    rw [State.counted_t]
    rfl
  unfold Done.after
  simp only [hown, Bool.false_eq_true, if_false]
  exact ((State.KeepsRest.counted ..).trans (State.KeepsRest.settled (by rwa [hawaits]))).trans (State.KeepsRest.unstall _)

/-! The state in which an S word acts whose operands have been read. -/

/-- Of the cores, the count that SWAIT takes is all that changes as a word begins. -/
theorem State.begun_coreAt_ne (s : State) (e : Eng) (words n : Nat) {k : Nat} (hk : k ≠ s.core) :
    (s.begun e words n).coreAt k = s.coreAt k := by
  unfold State.begun
  split
  · rfl
  · exact State.coreAt_updCore_ne _ hk _

theorem State.begun_sem_ne (s : State) (e : Eng) (words : Nat) {n m : Nat} (hm : m ≠ n) :
    (s.begun e words n).sem s.core m = s.sem s.core m := by
  unfold State.begun
  split
  · rfl
  · exact State.sem_setSem_ne _ _ _ hm

theorem State.begun_coreAt_sansSems (s : State) (e : Eng) (words n : Nat) :
    { (s.begun e words n).coreAt s.core with sems := [] } = { s.coreAt s.core with sems := [] } := by
  unfold State.begun
  split
  · rfl
  · rw [State.setSem, show (s.begin e words).core = s.core from rfl, State.coreAt_updCore_self]
    rfl

section
variable (s : State) (v : View) (t : Strand)

theorem State.reading_mem (sp : Space) : (s.reading v t).mem sp = s.mem sp := by
  cases sp <;> simp only [State.reading, State.acting, State.mem, State.setStrand_onchip, State.setStrand_dram, State.setStrand_host,
    State.setStrand_peer, State.begun_onchip, State.begun_dram, State.begun_host, State.begun_peer]

theorem State.reading_strandAt_ne {y : Nat} (hy : y ≠ s.cur) : (s.reading v t).strandAt y = s.strandAt y :=
  (State.strandAt_setStrand_ne _ hy t).trans (State.begun_strandAt_ne _ _ _ _ hy)

end

/-- A context that differs in its queue registers alone. -/
theorem Ctx.eq_of_sansQueues {c d : Ctx} {q : Vector (List QEntry) 32} {hq : Vector (List QEntry) 4}
    (h : { c with q := q, hq := hq } = { d with q := q, hq := hq }) : { c with q := d.q, hq := d.hq } = d :=
  congrArg (fun e : Ctx => { e with q := d.q, hq := d.hq }) h

section
variable {s : State} {op : SOp} {h : Hdr} {b : SBody} {vs : List Word} {t : Strand}
  (hr : ∃ t1, (s.acting (.s op h b)).t.readOpds .s (immVal b.ty b.imm) (sSlots op h b) = .ok (vs, t1) ∧ t1.transport b = .ok t)
include hr

theorem reads_sansQueues : t.sansQueues = (s.acting (.s op h b)).t.sansQueues := by
  obtain ⟨t1, hreads, hmoved⟩ := hr
  exact (Strand.transport_sansQueues hmoved).trans (Strand.readOpds_sansQueues hreads)

/-- Operands and transports change the queue registers alone of the context (R43, R47). -/
theorem reads_ctx : { t.ctx with q := s.t.ctx.q, hq := s.t.ctx.hq } = s.t.ctx := by
  have hctx := congrArg Strand.ctx (reads_sansQueues hr)
  rw [← State.begun_t_ctx s (View.engine .s (.s op h b)) 1 (View.hdr (.s op h b)).swait.val]
  exact Ctx.eq_of_sansQueues hctx

theorem reads_asyncs : t.asyncs = s.t.asyncs := by
  have hasyncs : (s.acting (.s op h b)).t.asyncs = s.t.asyncs := by
    rw [State.acting, State.begun_t]
    unfold Strand.setCtl
    split <;> rfl
  exact (congrArg Strand.asyncs (reads_sansQueues hr)).trans hasyncs

end

/-! Words whose result lands (R112 to R119). -/

/-- The integer ALU forms (R112, R113). -/
def aluForms : List SOp :=
  [.add, .sub, .and, .or, .xor, .andn, .shl, .shr, .sar, .min, .max, .sel, .clz, .popc, .li, .lih]

/-- The compares and the predicate forms (R114, R115). -/
def compareForms : List SOp :=
  [.ceq, .cne, .clt, .cle, .ctst, .fceq, .fclt, .fcle, .fcun, .pand, .por, .pxor, .ppack, .punpack]

/-- The integer forms of the multiplier (R116). -/
def multiplierForms : List SOp := [.mul, .mulh, .mad, .dp4]

/-- The floating-point forms (R117 to R119). -/
def floatForms : List SOp := [.fadd, .fsub, .fmul, .fma, .cvt, .fmin, .fmax, .fabs, .fneg]

/-- A form whose words leave effects that land, a number drawn at most, once they have read their operands as `x`, `y` and `z`. -/
def SOp.Lands (s : State) (h : Hdr) (b : SBody) (x y z : Word) (t : Strand) (op : SOp) : Prop :=
  SWord s op h b x y z t → ∃ t1 lat effs fl, (t1 = t ∨ t1 = t.drawn b.rnd 1) ∧
    exec (op.instr h b) s = .next (s.lands (.s op h b) t1 lat effs fl)

section
variable {s : State} {h : Hdr} {b : SBody} {x y z : Word} {t : Strand}

theorem SOp.Lands.plain {op : SOp} {lat : Nat} {effs : List Eff} {fl : Nat}
    (hland : SWord s op h b x y z t → exec (op.instr h b) s = .next (s.lands (.s op h b) t lat effs fl)) : SOp.Lands s h b x y z t op :=
  fun hw => ⟨t, lat, effs, fl, .inl rfl, hland hw⟩

theorem SOp.Lands.rounded {op : SOp} {lat : Nat} {effs : List Eff} {fl : Nat}
    (hland : SWord s op h b x y z t → exec (op.instr h b) s = .next (s.lands (.s op h b) (t.drawn b.rnd 1) lat effs fl)) :
    SOp.Lands s h b x y z t op :=
  fun hw => ⟨_, lat, effs, fl, .inr rfl, hland hw⟩

/-- What holds form by form, a conjunct each, holds of each form of their list. -/
theorem forms_cons {p : SOp → Prop} {op : SOp} {ops : List SOp} {hyp hyps : Prop} (hop : hyp → p op)
    (hops : hyps → ∀ o ∈ ops, p o) : hyp ∧ hyps → ∀ o ∈ op :: ops, p o :=
  fun h => List.forall_mem_cons.mpr ⟨hop h.1, hops h.2⟩

theorem forms_singleton {p : SOp → Prop} {op : SOp} {hyp : Prop} (hop : hyp → p op) : hyp → ∀ o ∈ [op], p o :=
  fun h => List.forall_mem_singleton.mpr (hop h)

/-- O1 of each integer ALU form. -/
theorem aluForms_lands : ∀ op ∈ aluForms, SOp.Lands s h b x y z t op := by
  have hforms := integerAluResultLands s h b x y z t
  revert hforms
  exact forms_cons .plain <| forms_cons .plain <| forms_cons .plain <| forms_cons .plain <| forms_cons .plain <|
    forms_cons .plain <| forms_cons .plain <| forms_cons .plain <| forms_cons .plain <| forms_cons .plain <| forms_cons .plain <|
    forms_cons .plain <| forms_cons .plain <| forms_cons .plain <| forms_cons .plain <| forms_singleton .plain

/-- O2 of each compare and predicate form. -/
theorem compareForms_lands : ∀ op ∈ compareForms, SOp.Lands s h b x y z t op := by
  have hforms := compareAndPredicateResultLands s h b x y z t
  revert hforms
  exact forms_cons .plain <| forms_cons .plain <| forms_cons .plain <| forms_cons .plain <| forms_cons .plain <|
    forms_cons .plain <| forms_cons .plain <| forms_cons .plain <| forms_cons .plain <| forms_cons .plain <| forms_cons .plain <|
    forms_cons .plain <| forms_cons (fun hl hw => (hl hw).elim fun _ hr => SOp.Lands.plain (fun _ => hr.1) hw) <|
    forms_singleton .plain

/-- O3 of each integer form of the multiplier. -/
theorem multiplierForms_lands : ∀ op ∈ multiplierForms, SOp.Lands s h b x y z t op := by
  have hforms := multiplierResultLands s h b x y z t
  revert hforms
  exact forms_cons .plain <| forms_cons .plain <| forms_cons .plain <| forms_singleton .plain

/-- O4 of each floating-point form, of `cvt` where its immediate names a type. -/
theorem floatForms_lands : ∀ op ∈ floatForms,
    (op = .cvt → (Ty.ofCode (b.imm.toNat % 32)).isSome = true) → SOp.Lands s h b x y z t op := by
  have hforms := floatResultLands s h b x y z t
  revert hforms
  exact forms_cons (fun hl _ => .rounded hl) <| forms_cons (fun hl _ => .rounded hl) <| forms_cons (fun hl _ => .rounded hl) <|
    forms_cons (fun hl _ => .rounded hl) <|
    forms_cons (fun hl hty => (Option.isSome_iff_exists.mp (hty rfl)).elim fun ty hsome => .rounded fun hw => hl hw ty hsome) <|
    forms_cons (fun hl _ => .plain hl) <| forms_cons (fun hl _ => .plain hl) <| forms_cons (fun hl _ => .plain hl) <|
    forms_singleton (fun hl _ => .plain hl)

end

/-- A draw changes the stochastic state alone, and none is taken outside `.rs` (R71). -/
theorem Strand.drawn_ctx_sansSeed (t : Strand) (m : Rnd) (n : Nat) (seed : Word) :
    { (t.drawn m n).ctx with srseed := seed } = { t.ctx with srseed := seed } := by
  unfold Strand.drawn
  split <;> rfl

theorem Strand.drawn_of_ne (t : Strand) {m : Rnd} (hm : m ≠ .rs) (n : Nat) : t.drawn m n = t := if_neg hm

theorem Strand.drawn_asyncs (t : Strand) (m : Rnd) (n : Nat) : (t.drawn m n).asyncs = t.asyncs := by
  unfold Strand.drawn
  split <;> rfl

/-- A strand that has read its operands, and has drawn a number at most, keeps all of its context but its queue registers and its
stochastic state. -/
theorem Strand.ctx_of_drawn {t t1 : Strand} {m : Rnd} {n : Nat} (ht1 : t1 = t ∨ t1 = t.drawn m n) {d : Ctx}
    (h : { t.ctx with q := d.q, hq := d.hq } = d) : { t1.ctx with q := d.q, hq := d.hq, srseed := d.srseed } = d := by
  have hseed : { t1.ctx with srseed := d.srseed } = { t.ctx with srseed := d.srseed } := by
    rcases ht1 with rfl | rfl
    · rfl
    · exact t.drawn_ctx_sansSeed m n d.srseed
  calc { t1.ctx with q := d.q, hq := d.hq, srseed := d.srseed }
      = { t.ctx with q := d.q, hq := d.hq, srseed := d.srseed } := congrArg (fun e : Ctx => { e with q := d.q, hq := d.hq }) hseed
    _ = d := congrArg (fun e : Ctx => { e with srseed := d.srseed }) h

theorem Strand.land_asyncs (t : Strand) (lat : Nat) (effs : List Eff) (fl : Nat) : (t.land lat effs fl).asyncs = t.asyncs := by
  unfold Strand.land Strand.addLanding
  split <;> rfl

/-- A landing of an S word leaves all but the strand as it was read, and of that the context and the asynchronous accesses. -/
theorem State.lands_keepsRest (s : State) (v : View) (t : Strand) (lat : Nat) (effs : List Eff) (fl : Nat) :
    (s.reading v t).KeepsRest (s.lands v t lat effs fl) := by
  have hland : (s.reading v t).KeepsRest (s.reading v (t.land lat effs fl)) := by
    have hupd := State.reading_upd s v t fun t => t.land lat effs fl
    rw [← hupd]
    exact State.KeepsRest.upd (by rw [State.reading_t, Strand.land_ctx]) (by rw [State.reading_t, Strand.land_asyncs])
  have hawaits : (s.reading v (t.land lat effs fl)).t.awaitsOwn = true := by rw [State.reading_t, Strand.land_awaits]
  exact hland.trans (Done.after_keepsRest (d := { s := s.reading v (t.land lat effs fl) }) (v := v) rfl (.inr ⟨rfl, hawaits⟩))

/-! Timed stores (R120, R121, R242). -/

/-- Of `s`, `u` keeps all memory but the bytes `lo` to `hi` − 1 of the cores' storage, and of every strand its context. -/
structure State.WritesWithin (lo hi : Nat) (s u : State) : Prop where
  cur : u.cur = s.cur
  mem : ∀ sp, sp ≠ .chip → u.mem sp = s.mem sp
  chip : ∀ a, a < lo ∨ hi ≤ a → cellAt u.onchip a = cellAt s.onchip a
  ctx : ∀ y, (u.strandAt y).ctx = (s.strandAt y).ctx

theorem State.KeepsRest.writesWithin {s u : State} (h : s.KeepsRest u) (lo hi : Nat) : State.WritesWithin lo hi s u where
  cur := h.cur
  mem sp _ := h.mem sp
  chip a _ := congrArg (cellAt · a) (h.mem .chip)
  ctx := h.ctx

namespace State.WritesWithin

variable {lo hi : Nat}

theorem trans {s v u : State} (hv : WritesWithin lo hi s v) (hu : WritesWithin lo hi v u) : WritesWithin lo hi s u where
  cur := hu.cur.trans hv.cur
  mem sp hsp := (hu.mem sp hsp).trans (hv.mem sp hsp)
  chip a ha := (hu.chip a ha).trans (hv.chip a ha)
  ctx y := (hu.ctx y).trans (hv.ctx y)

theorem mono {lo' hi' : Nat} {s u : State} (h : WritesWithin lo hi s u) (hlo : lo' ≤ lo) (hhi : hi ≤ hi') : WritesWithin lo' hi' s u :=
  { h with chip := fun a ha => h.chip a (by omega) }

/-- A change of a core's state alone. -/
theorem updCore (lo hi : Nat) (s : State) (c : Nat) (f : CoreState → CoreState) : WritesWithin lo hi s (s.updCore c f) where
  cur := rfl
  mem sp _ := by cases sp <;> rfl
  chip _ _ := rfl
  ctx _ := rfl

theorem write (s : State) (a : Nat) (bs : List Byte) : WritesWithin a (a + bs.length) s (s.write .chip a bs) where
  cur := s.write_cur ..
  mem sp hsp := by rw [State.write_mem, if_neg hsp]
  chip x hx := by
    have hchip : (s.write .chip a bs).onchip = cellsSet s.onchip a bs := (s.write_mem .chip a bs .chip).trans (if_pos rfl)
    rw [hchip, cellAt_set, if_neg (by omega)]
  ctx y := by
    have hstrands : (s.write .chip a bs).strands = s.strands := by
      unfold State.write
      simp only
      split <;> rfl
    rw [State.strandAt, hstrands, State.strandAt]

/-- Writes in turn, each within the bytes. -/
theorem foldl {α : Type} {f : State → α → State} {l : List α} {c : Nat}
    (hf : ∀ u : State, u.core = c → ∀ a ∈ l, WritesWithin lo hi u (f u a)) {s : State} (hc : s.core = c) :
    WritesWithin lo hi s (l.foldl f s) := by
  induction l generalizing s with
  | nil => exact (State.KeepsRest.refl s).writesWithin lo hi
  | cons a l ih =>
    have hfirst := hf s hc a (List.mem_cons_self ..)
    exact hfirst.trans (ih (fun u hu b hb => hf u hu b (List.mem_cons_of_mem _ hb)) ((congrArg coreOf hfirst.cur).trans hc))

end State.WritesWithin

/-- A map whose entries keep their numbers. -/
theorem mget_map_keys {α : Type} (g : Nat → α → α) (k : Nat) (m : List (Nat × α)) :
    mget k (m.map fun e => (e.1, g e.1 e.2)) = (mget k m).map (g k) := by
  induction m with
  | nil => rfl
  | cons e m ih =>
    obtain ⟨j, v⟩ := e
    simp only [List.map_cons, mget, ih]
    split
    · next hj => rw [hj]; rfl
    · rfl

/-- A strand whose sleepers are told of a write to a core. -/
def Strand.toldOf (t : Strand) (s : State) (core lo hi x : Nat) : Strand :=
  if coreOf x = core then
    { t with pend := t.pend.map fun l => l.wake s core lo hi, hpend := t.hpend.map fun l => l.wake s core lo hi }
  else t

theorem Strand.toldOf_ctx (t : Strand) (s : State) (core lo hi x : Nat) : (t.toldOf s core lo hi x).ctx = t.ctx := by
  unfold Strand.toldOf
  split <;> rfl

theorem State.wake_strands (s : State) (core lo hi : Nat) :
    (s.wake core lo hi).strands = s.strands.map fun e => (e.1, e.2.toldOf s core lo hi e.1) :=
  List.map_congr_left fun e _ => by
    unfold Strand.toldOf
    split <;> rfl

/-- Waking sleepers changes their landings alone (R125). -/
theorem State.wake_writesWithin (s : State) (core a b lo hi : Nat) : State.WritesWithin lo hi s (s.wake core a b) where
  cur := rfl
  mem sp _ := by cases sp <;> rfl
  chip _ _ := rfl
  ctx y := by
    have hget : mget y (s.wake core a b).strands = (mget y s.strands).map fun t => t.toldOf s core a b y := by
      rw [State.wake_strands]
      exact mget_map_keys (fun x t => t.toldOf s core a b x) y s.strands
    rw [State.strandAt, hget, State.strandAt]
    cases mget y s.strands with
    | none => rfl
    | some t => exact t.toldOf_ctx s core a b y

theorem State.chipWriteAt_writesWithin (s : State) (time core off : Nat) (bs : List Byte) :
    State.WritesWithin (chipAddr core off) (chipAddr core off + bs.length) s (s.chipWriteAt time core off bs) := by
  unfold State.chipWriteAt
  refine State.WritesWithin.trans ?_ (State.wake_writesWithin ..)
  refine State.WritesWithin.trans ?_ (State.WritesWithin.updCore ..)
  refine State.WritesWithin.trans ?_ (State.WritesWithin.write ..)
  split
  · exact State.WritesWithin.updCore ..
  · exact (State.KeepsRest.refl s).writesWithin ..

/-- A piece that begins in a byte range lies in it. -/
theorem piece_within (off k : Nat) {lo : Nat} {bs : List Byte} (hlo : lo ≤ bs.length) :
    off ≤ off + lo ∧ off + lo + ((bs.drop lo).take k).length ≤ off + bs.length := by
  have htake := (bs.drop lo).length_take_le' k
  rw [List.length_drop] at htake
  exact ⟨Nat.le_add_right .., by omega⟩

/-- The pieces of a byte range lie in it. -/
theorem bankPieces_within {off : Nat} {bs : List Byte} {p : Nat × List Byte} (hp : p ∈ bankPieces off bs) :
    off ≤ p.1 ∧ p.1 + p.2.length ≤ off + bs.length := by
  obtain ⟨i, hi, rfl⟩ := List.mem_map.mp hp
  have hcount : (i + 1) * 256 ≤ off % 256 + bs.length + 255 := Nat.mul_le_of_le_div _ _ _ (List.mem_range.mp hi)
  refine piece_within off _ ?_
  split
  · exact Nat.zero_le _
  · generalize off % 256 = m at hcount ⊢
    omega

/-- A timed store writes the bytes that it names alone, at once or as their banks come (R242). -/
theorem State.spadStore_writesWithin (s : State) (off : Nat) (bs : List Byte) :
    State.WritesWithin (chipAddr s.core off) (chipAddr s.core off + bs.length) s (s.spadStore off bs) := by
  unfold State.spadStore
  split
  · exact State.chipWriteAt_writesWithin ..
  · refine State.WritesWithin.foldl (c := s.core) (fun u hu p hp => ?_) rfl
    obtain ⟨hlo, hhi⟩ := bankPieces_within hp
    dsimp only
    split
    · rw [hu]
      exact (State.chipWriteAt_writesWithin ..).mono (by unfold chipAddr; omega) (by unfold chipAddr; omega)
    · exact State.WritesWithin.updCore ..

/-- Settles O54: a result word leaves what O1 to O4 say of it, which keeps the rest (`State.lands_keepsRest`); a store leaves what O5
says, and writes within its bytes (`State.spadStore_writesWithin`). -/
theorem resultWordsKeepTheRest : Obligations.ResultWordsKeepTheRest := by
  intro s op h b x y z t u n at_ data stored results quiet
  refine ⟨?results, ?stores⟩
  case results =>
    intro hop hw hcvt hexec
    have hlands : SOp.Lands s h b x y z t op := by
      have hsplit : results = aluForms ++ (compareForms ++ (multiplierForms ++ floatForms)) := rfl
      rw [hsplit] at hop
      rcases List.mem_append.mp hop with hop | hop
      · exact aluForms_lands op hop
      rcases List.mem_append.mp hop with hop | hop
      · exact compareForms_lands op hop
      rcases List.mem_append.mp hop with hop | hop
      · exact multiplierForms_lands op hop
      · exact floatForms_lands op hop hcvt
    obtain ⟨t1, lat, effs, fl, ht1, hu⟩ := hlands hw
    have hk : (s.reading (.s op h b) t1).KeepsRest u := by
      rw [Host.Outcome.next.inj (hexec.symm.trans hu)]
      exact s.lands_keepsRest ..
    have hctx : u.t.ctx = t1.ctx := by rw [hk.t_ctx, State.reading_t]
    have hread := reads_ctx hw.reads
    have hchip : u.onchip = s.onchip := (hk.mem .chip).trans (s.reading_mem _ _ .chip)
    refine ⟨⟨?mem, hk.dev.trans (s.reading_dev ..), ?others, ?ctx, ?asyncs, ?seed, ?cores, ?sems⟩, fun a => by rw [hchip], ?core⟩
    case mem => exact fun sp a _ => by rw [hk.mem, State.reading_mem]
    case others =>
      intro y hy
      have hat := s.reading_strandAt_ne (.s op h b) t1 hy
      exact ⟨(hk.ctx y).trans (congrArg Strand.ctx hat), (hk.asyncs y).trans (congrArg Strand.asyncs hat)⟩
    case ctx =>
      rw [hctx]
      exact Strand.ctx_of_drawn ht1 hread
    case asyncs =>
      rw [hk.t_asyncs, State.reading_t, ← reads_asyncs hw.reads]
      rcases ht1 with rfl | rfl
      · rfl
      · exact t.drawn_asyncs b.rnd 1
    case seed =>
      intro hrnd
      have ht : t1 = t := ht1.elim id fun hd => hd.trans (t.drawn_of_ne hrnd 1)
      have hsame := congrArg Ctx.srseed hread
      rw [hctx, ht]
      exact hsame
    case cores => exact fun k hne => (hk.coreAt k).trans (s.begun_coreAt_ne _ _ _ hne)
    case sems => exact fun m hm => (hk.sem s.core m).trans (s.begun_sem_ne _ _ hm)
    case core =>
      rw [hk.coreAt]
      exact s.begun_coreAt_sansSems ..
  case stores =>
    intro hop hd hok hpost hexec
    obtain ⟨-, -, hsts, hsps⟩ := scratchpadAccessCompletes s h b x y z t
    have hu : u = stored.after (.s op h b) := by
      rcases hop with rfl | rfl
      · exact Host.Outcome.next.inj (hexec.symm.trans (hsts hd hok))
      · exact Host.Outcome.next.inj (hexec.symm.trans (hsps hd hok))
    have hstore := State.spadStore_writesWithin (s.reading (.s op h b) t) at_.toNat (leBytes n data.toNat)
    rw [leBytes_length, State.reading_core] at hstore
    have hwrites := hstore.trans ((Done.after_keepsRest (d := stored) (v := .s op h b) rfl (.inl hpost)).writesWithin _ _)
    rw [← hu] at hwrites
    have hctx : u.t.ctx = t.ctx := by
      rw [State.t, hwrites.cur, hwrites.ctx]
      exact congrArg Strand.ctx (s.reading_t ..)
    refine ⟨fun sp a hsp => ?mem, fun a ha => ?chip, ?ctx⟩
    case mem => rw [hwrites.mem sp hsp, State.reading_mem]
    case chip =>
      rw [hwrites.chip a ha]
      exact congrArg (cellAt · a) (s.reading_mem _ _ .chip)
    case ctx =>
      rw [hctx]
      exact reads_ctx hd.reads

end Sys2Proof.Machine
